-- ==== Sys2Proof/Word.lean ====
section
/-! DEFINITION. The word types of the G320 and the syntax shared by all its instructions: operand codes (R131, R270 to R273),
the fields of an instruction word (R268, R269) and the frames of the VFT (R49), as plain data. -/

namespace Sys2Proof

/-- A byte. -/
abbrev Byte := BitVec 8
/-- A 64-bit value: an address, a crew-uniform register, an instruction word. -/
abbrev Word := BitVec 64
/-- A 32-bit value: what a `v` register holds in one lane (R133). -/
abbrev Half := BitVec 32
/-- A set of lanes, bit i for lane i (R137, R145). -/
abbrev Mask := BitVec 64
/-- A format tag (R141). -/
abbrev Tag := BitVec 4
/-- A pedigree (R373). -/
abbrev Ped := BitVec 256

/-- What an operand field of an instruction names (R131, R270 to R273). -/
inductive Opd where
  /-- `v0` to `v511`, named directly -/
  | v (r : BitVec 9)
  /-- `s0` to `s127` -/
  | s (r : BitVec 7)
  /-- `p0` to `p11` -/
  | p (r : Fin 12)
  /-- always-true, code 0x28F -/
  | pt
  /-- `m0` to `m7` -/
  | m (r : BitVec 3)
  /-- `h0` to `h15` -/
  | h (r : BitVec 4)
  /-- `acc0` to `acc7` -/
  | acc (r : BitVec 3)
  /-- the specials of R139 -/
  | spec (r : BitVec 4)
  /-- an inline constant, code 0x300 + k (R271) -/
  | imm (k : Byte)
  /-- none, code 0x2E0 -/
  | none
  /-- the literal of the second word (R272) -/
  | lit
  /-- `v`[x + k] under R134, x the value of the `v` register r (R273) -/
  | ind (r : BitVec 9) (k : BitVec 3)
  deriving DecidableEq, Repr

/-- The fields shared by all instructions (R268, R269), with `OP` left out: the constructor of `Instr` says it. -/
structure Fields where
  /-- `W`: a second word follows -/
  wide  : Bool
  /-- `S`, the stall count (R162) -/
  stall : BitVec 4
  /-- `RU`, the reuse bits (R165) -/
  reuse : BitVec 3
  /-- `G`: a `p` register, or none for code 15, always (R277) -/
  guard : Option (Fin 12)
  /-- `N`, the guard's sense -/
  neg   : Bool
  /-- the type code Y = 8 x TX + T (R274) -/
  ty    : Byte
  d     : Opd
  a     : Opd
  b     : Opd
  c     : Opd
  /-- `LIT` -/
  lit   : Half
  /-- `SC`, 0 to 4 (R228) -/
  sc    : BitVec 3
  /-- `ORD`, the high half of `OQ` (R275) -/
  ord   : BitVec 2
  /-- `AUX`, the low half of `OQ` (R275) -/
  aux   : BitVec 2
  deriving DecidableEq, Repr

/-- A frame of the VFT EtherType as it reaches a port: the header of R49 and its payload. -/
structure Frame where
  port    : Nat
  ver     : Nat
  typ     : Nat
  cls     : Nat
  flags   : Nat
  domain  : Nat
  src     : Nat
  dst     : Nat
  psn     : Nat
  apsn    : Nat
  chan    : Nat
  oparg   : Word
  credit  : Nat
  payload : List Byte
  deriving DecidableEq, Repr

end Sys2Proof
end

