-- ==== Sys2Proof/Config.lean ====
section
/-! DEFINITION. What a part or its makers fix and the manual does not state, and the free values: constants with no body, of which
nothing can be proved (DESIGN CHOICE, assumption log 4). -/

namespace Sys2Proof.Config

/-- A free 64-bit value, one for each value of the state's counter. [DESIGN CHOICE, assumption log 4] -/
opaque freeWord : Nat → BitVec 64
/-- A free bit: whether a source read too early gives the old value (R163). [DESIGN CHOICE, assumption log 4] -/
opaque readOld : Nat → Bool

/-- The part's serial number, and the units that its fuses leave present: cores, L2 slices, stacks, ports and die links at full width
(R23, R27). [DESIGN CHOICE, assumption log 4] -/
opaque serial : BitVec 128
opaque coreMask : BitVec 320
opaque sliceMask : BitVec 256
opaque stackMask : BitVec 16
opaque portMask : BitVec 16
opaque linkMask : BitVec 8
/-- The present slice to which a die's slice-hash entry maps the hash value of a slice that is fused off (R23, R27). [DESIGN CHOICE, assumption log 4] -/
opaque sliceHash : Nat → Nat → Nat
/-- The capability table's signature (r, s) and the Dravsal part key (R24). [DESIGN CHOICE, assumption log 4] -/
opaque capSign : BitVec 384 × BitVec 384
opaque partKey : BitVec 384 × BitVec 384
/-- Whether the flash directory and its images are well formed (R17). [DESIGN CHOICE, assumption log 4] -/
opaque flashOk : Bool
/-- The boot loader image, the Lennas image and the Lennas configuration in flash (R17, R19). -/
opaque bootLoaderImage : List (BitVec 8)
opaque lennasImage : List (BitVec 8)
opaque lennasConfig : List (BitVec 8)
/-- This module's index in each VFT domain, as Lennas finds it in its configuration (R447). [DESIGN CHOICE, assumption log 4] -/
opaque modIndexes : List (Nat × Nat)
/-- The highest class and the key slots that the configuration grants to the mailbox (none) or to a VFT domain (R65). -/
opaque cfgMaxClass : Option Nat → Nat
opaque cfgKeyGranted : Option Nat → Nat → Bool
/-- Measurement slot 0, written at manufacture (R19): 48 bytes. -/
opaque romDigest : BitVec 384
/-- Part number and stepping (R428). -/
opaque partNumber : BitVec 32
opaque stepping : BitVec 16
/-- The certificate chain in ROM, before and after the digest of the part key that it reports (R20, R24). [DESIGN CHOICE, assumption log 4] -/
opaque certHead : List (BitVec 8)
opaque certTail : List (BitVec 8)
/-- The device identity key, derived from fuses, and the nonce of its signature over a message (R20). [DESIGN CHOICE, assumption log 4] -/
opaque deviceKey : BitVec 384
opaque signNonce : List (BitVec 8) → BitVec 384

/-- The fields of SPDM responses that the manual does not state: after the flags of CAPABILITIES (R20). -/
opaque spdmCapabilities : List (BitVec 8)
/-- Unit class, unit number and cause of the record of a sub-array of a core retired in service, by core and sub-array (R25). [DESIGN CHOICE, assumption log 4] -/
opaque retiredClass : BitVec 8
opaque retiredNumber : Nat → Nat → BitVec 16
opaque retiredCause : BitVec 8

/-- The task word `ACCMAP` of a context image, by task (R145): its layout is not stated. [DESIGN CHOICE, assumption log 4] -/
opaque accMap : Nat → BitVec 64

/-- The hash that pins a connection to one of the up ports (R50), of the tuple's five numbers. [DESIGN CHOICE, assumption log 4] -/
opaque portHash : List Nat → Nat

/-- What the manual says that a monitor class counts or measures (R30, R31, R49, R52, R118, R148, R208, R259, R414). -/
inductive MonEvent where
  | leeBudget | linkDrop | linkStall | waitPoll | raceFull | registerMiss | corrected | engineError | noStamp
  | coreIssue | nearHit | l2Hit | homeDepth | waitTable | stageRing | dramRead | leeGrant
  deriving DecidableEq, Repr

/-- All of them. -/
def monAll : List MonEvent :=
  [.leeBudget, .linkDrop, .linkStall, .waitPoll, .raceFull, .registerMiss, .corrected, .engineError, .noStamp,
   .coreIssue, .nearHit, .l2Hit, .homeDepth, .waitTable, .stageRing, .dramRead, .leeGrant]

/-- Class index and quantity code of such an event in the monitor-classes entry. [DESIGN CHOICE, assumption log 4] -/
opaque monCode : MonEvent → Nat × Nat

/-- Receive buffers that the VFT engine grants a peer in the `CREDIT` of each frame it sends (R49). [DESIGN CHOICE, assumption log 4] -/
opaque rxBuffers : BitVec 32

/-- Classes and quantities of the monitor-classes entry beyond those that the manual names (R31). [DESIGN CHOICE, assumption log 4] -/
opaque monMore : List (Nat × Nat)
/-- Is a unit of a class present (R439)? [DESIGN CHOICE, assumption log 4] -/
opaque monUnit : Nat → Nat → Bool

/-- The class indexes and quantity codes of the monitor-classes entry (R23, R31). -/
def monList : List (Nat × Nat) := (monAll.map monCode ++ monMore).map (fun e => (e.1 % 256, e.2 % 256))

/-- Does the monitor-classes entry name a class and a quantity, and is the unit present (R31, R439)? -/
def monPresent (cls unit qty : Nat) : Bool := monList.contains (cls, qty) && monUnit cls unit

/-- The module whose collective engine combines the contributions of a VFT domain (R53, R419). [DESIGN CHOICE, assumption log 4] -/
opaque combiner : Nat → Nat

end Sys2Proof.Config
end

