-- ==== Sys2Proof/Machine/Bits.lean ====
section
/-! DEFINITION. Bit fields, sign extension, byte order (R6), lane sets (R137) and the sparse maps that hold
registers and memory: lists of (key, value) pairs, keys strictly rising, no value equal to what an unlisted key reads as. -/

namespace Sys2Proof.Machine

/-- Bits [hi:lo] of a number. -/
def bits (x hi lo : Nat) : Nat := (x >>> lo) % 2 ^ (hi + 1 - lo)

/-- Bit i of a number. -/
def bit (x i : Nat) : Bool := x.testBit i

/-- 1 or 0. -/
def b2n (b : Bool) : Nat := if b then 1 else 0

/-- The low 32 bits of a 64-bit value. -/
def lo32 (x : Word) : Half := x.setWidth 32

/-- A 32-bit value zero-extended. -/
def zx (x : Half) : Word := x.setWidth 64

/-- A 32-bit value sign-extended. -/
def sx (x : Half) : Word := x.signExtend 64

/-- A number of `w` bits read as signed. -/
def toSigned (w x : Nat) : Int :=
  let y := x % 2 ^ w
  if y < 2 ^ (w - 1) then y else (y : Int) - 2 ^ w

/-- An integer modulo 2^w. -/
def wrapTo (w : Nat) (x : Int) : Nat := (x % (2 ^ w : Int)).toNat

/-- An integer as a 64-bit value. -/
def ofI (x : Int) : Word := BitVec.ofInt 64 x

/-- A number as a 64-bit value. -/
def w64 (n : Nat) : Word := BitVec.ofNat 64 n

/-- Sat(x, lo, hi) of R11. -/
def sat (x lo hi : Int) : Int := if x < lo then lo else if hi < x then hi else x

/-- The n bytes of a value, least significant first (R6). -/
def toBytes : Nat → Nat → List Byte
  | 0, _ => []
  | n + 1, x => BitVec.ofNat 8 x :: toBytes n (x / 256)

/-- The value of bytes, least significant first (R6). -/
def ofBytes : List Byte → Nat
  | [] => 0
  | b :: bs => b.toNat + 256 * ofBytes bs

/-- The n bytes of a value, most significant first. -/
def toBytesBE (n x : Nat) : List Byte := (toBytes n x).reverse

/-- The value of bytes, most significant first. -/
def ofBytesBE (l : List Byte) : Nat := ofBytes l.reverse

/-- Bytes from offset `o`, `n` of them, zeros beyond the end. -/
def slice (l : List Byte) (o n : Nat) : List Byte :=
  let t := (l.drop o).take n
  t ++ List.replicate (n - t.length) 0

/-- The n-byte field at offset o of a record, little-endian. -/
def fld (l : List Byte) (o n : Nat) : Nat := ofBytes (slice l o n)

/-- Are the bytes from offset o, n of them, all zero? -/
def zeros (l : List Byte) (o n : Nat) : Bool := (slice l o n).all (· == 0)

/-- Overwrite bytes of a list from offset o. -/
def splice (l : List Byte) (o : Nat) (d : List Byte) : List Byte :=
  slice l 0 o ++ d ++ l.drop (o + d.length)

/-! ### Lane sets -/

/-- Is lane L in the set? -/
def inM (m : Mask) (L : Nat) : Bool := m.getLsbD L

/-- Lanes 0 to w - 1 (w at most 64). -/
def lanesBelow (w : Nat) : Mask := BitVec.ofNat 64 (2 ^ (min w 64) - 1)

/-- The set of one lane. -/
def laneBit (L : Nat) : Mask := BitVec.ofNat 64 (2 ^ L)

/-- The lanes of a set, ascending. -/
def lanesOf (m : Mask) : List Nat := (List.range 64).filter (fun L => m.getLsbD L)

/-- The lowest lane of a set, 0 for the empty set. -/
def lowLane (m : Mask) : Nat := (lanesOf m).headD 0

/-- The set of the lanes of a list. -/
def maskOf (l : List Nat) : Mask := l.foldl (fun m L => m ||| laneBit L) 0

/-- Number of lanes. -/
def countM (m : Mask) : Nat := (lanesOf m).length

/-- Set or clear one lane's bit. -/
def setBit (m : Mask) (L : Nat) (b : Bool) : Mask := if b then m ||| laneBit L else m &&& ~~~ laneBit L

/-! ### Sparse maps -/

/-- Read a key; `d` is what an unlisted key reads as. -/
def smGet {α : Type} (d : α) : List (Nat × α) → Nat → α
  | [], _ => d
  | (k, v) :: t, x => if k = x then v else smGet d t x

/-- Remove a key. -/
def smErase {α : Type} (l : List (Nat × α)) (x : Nat) : List (Nat × α) := l.filter (fun e => e.1 != x)

/-- Insert a key that is not listed, keeping the keys rising. -/
def smIns {α : Type} : List (Nat × α) → Nat → α → List (Nat × α)
  | [], x, v => [(x, v)]
  | (k, u) :: t, x, v => if x < k then (x, v) :: (k, u) :: t else (k, u) :: smIns t x v

/-- Write a key, keeping the keys rising and listing nothing that reads as the default. -/
def smSet {α : Type} [DecidableEq α] (d : α) (l : List (Nat × α)) (x : Nat) (v : α) : List (Nat × α) :=
  if v = d then smErase l x else smIns (smErase l x) x v

/-- The canonical form: keys rising from a bound, no entry equal to what an unlisted key reads as. -/
def smWf {α : Type} [DecidableEq α] (d : α) : Nat → List (Nat × α) → Bool
  | _, [] => true
  | k, (a, b) :: t => decide (k ≤ a) && b != d && smWf d (a + 1) t

/-- Read with no default. -/
def smFind {α : Type} : List (Nat × α) → Nat → Option α
  | [], _ => none
  | (k, v) :: t, x => if k = x then some v else smFind t x

/-- Write a key of a map that has no default. -/
def smPut {α : Type} (l : List (Nat × α)) (x : Nat) (v : α) : List (Nat × α) := smIns (smErase l x) x v

/-- Update the first element that satisfies a test. -/
def updFirst {α : Type} (p : α → Bool) (f : α → α) : List α → List α
  | [] => []
  | a :: t => if p a then f a :: t else a :: updFirst p f t

/-- Set element i of a list, growing nothing. -/
def setAt {α : Type} (l : List α) (i : Nat) (a : α) : List α := l.set i a

/-- Fold over a list with a step that can fail. -/
def foldE {α β ε : Type} (f : β → α → Except ε β) : List α → β → Except ε β
  | [], b => .ok b
  | a :: t, b =>
    match f b a with
    | .ok b' => foldE f t b'
    | .error e => .error e

end Sys2Proof.Machine
end

