-- ==== Sys2Proof/Machine/Crypto.lean ====
section
/-! DEFINITION. SHA-384 (R19, FIPS 180-4). -/

namespace Sys2Proof.Machine

/-- floor of the k-th root of n, bit by bit (k is 2 or 3). -/
def rootAux (k n : Nat) : Nat → Nat → Nat
  | 0, s => s
  | i + 1, s => let t := s + 2 ^ i; rootAux k n i (if t ^ k ≤ n then t else s)

/-- Is n prime, by trial division? -/
def isPrimeN (n : Nat) : Bool := decide (2 ≤ n) && (List.range n).all (fun d => decide (d < 2) || n % d != 0)

/-- The first eighty primes. -/
def primes80 : List Nat := (List.range 410).filter isPrimeN

/-- The round constants: 64 fraction bits of the cube roots of the first eighty primes. -/
def shaK : List Word := primes80.map (fun p => BitVec.ofNat 64 (rootAux 3 (p * 2 ^ 192) 68 0))

/-- The initial value: 64 fraction bits of the square roots of the ninth to sixteenth primes. -/
def shaInit : List Word := ((primes80.drop 8).take 8).map (fun p => BitVec.ofNat 64 (rootAux 2 (p * 2 ^ 128) 68 0))

def rotr (x : Word) (n : Nat) : Word := x.rotateRight n

/-- The message schedule: `n` words more, newest first. -/
def shaSched : Nat → List Word → List Word
  | 0, w => w
  | n + 1, w =>
    let a := w.getD 14 0
    let b := w.getD 1 0
    let s0 := rotr a 1 ^^^ rotr a 8 ^^^ (a >>> 7)
    let s1 := rotr b 19 ^^^ rotr b 61 ^^^ (b >>> 6)
    shaSched n ((w.getD 15 0 + s0 + w.getD 6 0 + s1) :: w)

/-- One round on the eight working words. -/
def shaRound (h : List Word) (kw : Word × Word) : List Word :=
  match h with
  | [a, b, c, d, e, f, g, i] =>
    let t1 := i + (rotr e 14 ^^^ rotr e 18 ^^^ rotr e 41) + ((e &&& f) ^^^ (~~~ e &&& g)) + kw.1 + kw.2
    let t2 := (rotr a 28 ^^^ rotr a 34 ^^^ rotr a 39) + ((a &&& b) ^^^ (a &&& c) ^^^ (b &&& c))
    [t1 + t2, a, b, c, d + t1, e, f, g]
  | _ => h

/-- One block of 128 bytes. -/
def shaBlock (h : List Word) (blk : List Byte) : List Word :=
  let w16 := (List.range 16).map (fun i => BitVec.ofNat 64 (ofBytesBE (slice blk (8 * i) 8)))
  let w := (shaSched 64 w16.reverse).reverse
  let r := (shaK.zip w).foldl shaRound h
  (h.zip r).map (fun p => p.1 + p.2)

/-- The blocks of a padded message. -/
def shaBlocks : Nat → List Word → List Byte → List Word
  | 0, h, _ => h
  | n + 1, h, l => shaBlocks n (shaBlock h (slice l 0 128)) (l.drop 128)

/-- SHA-384 of a message: 48 bytes. -/
def sha384 (msg : List Byte) : List Byte :=
  let n := msg.length
  let z := (112 + 128 - (n + 1) % 128) % 128
  let p := msg ++ [0x80] ++ List.replicate z 0 ++ toBytesBE 16 (8 * n)
  ((shaBlocks (p.length / 128) shaInit p).take 6).flatMap (fun w => toBytesBE 8 w.toNat)

end Sys2Proof.Machine
end

