-- ==== Sys2Proof/Machine/Ecdsa.lean ====
section
/-! DEFINITION. ECDSA over the curve P-384 (R20, R24, FIPS 186). -/

namespace Sys2Proof.Machine

/-- The field's prime, the group's order, and the base point of P-384. -/
def p384 : Nat := 2 ^ 384 - 2 ^ 128 - 2 ^ 96 + 2 ^ 32 - 1
def n384 : Nat := 0xffffffffffffffffffffffffffffffffffffffffffffffffc7634d81f4372ddf581a0db248b0a77aecec196accc52973
def b384 : Nat := 0xb3312fa7e23ee7e4988e056be3f82d19181d9c6efe8141120314088f5013875ac656398d8a2ed19d2a85c8edd3ec2aef
def g384 : Nat × Nat :=
  (0xaa87ca22be8b05378eb1c71ef320ad746e1d3b628ba79b9859f741e082542a385502f25dbf55296c3a545e3872760ab7,
   0x3617de4a96262c6f5d9e98bf9292dc29f8f41dbd289a147ce9da3113b5f0b8c00a60b1ce1d7e819d7a431d7c90ea0e5f)

/-- a to the number whose bits, most significant first, are those of e below bit i. -/
def powMod (m a e : Nat) : Nat → Nat → Nat
  | 0, r => r
  | i + 1, r => powMod m a e i (if e.testBit i then r * r % m * a % m else r * r % m)

/-- Inverse modulo a prime of 384 bits. -/
def invMod (m a : Nat) : Nat := powMod m (a % m) (m - 2) 384 1

/-- A difference modulo m. -/
def subMod (m a b : Nat) : Nat := (a % m + m - b % m) % m

/-- The sum of two points, none being the point at infinity. -/
def addPt (a b : Option (Nat × Nat)) : Option (Nat × Nat) :=
  match a, b with
  | none, q => q
  | q, none => q
  | some (x1, y1), some (x2, y2) =>
    if x1 = x2 ∧ (y1 + y2) % p384 = 0 then none
    else
      let l := if x1 = x2 then subMod p384 (3 * x1 * x1) 3 * invMod p384 (2 * y1) % p384 else subMod p384 y2 y1 * invMod p384 (subMod p384 x2 x1) % p384
      let x := subMod p384 (l * l) (x1 + x2)
      some (x, subMod p384 (l * subMod p384 x1 x) y1)

/-- k times a point, over the bits of k below bit i. -/
def mulPt (k : Nat) (q : Option (Nat × Nat)) : Nat → Option (Nat × Nat) → Option (Nat × Nat)
  | 0, r => r
  | i + 1, r => let r2 := addPt r r; mulPt k q i (if k.testBit i then addPt r2 q else r2)

/-- Does a point lie on the curve, with both coordinates below p? -/
def onCurve (q : Nat × Nat) : Bool := decide (q.1 < p384 ∧ q.2 < p384) && q.2 * q.2 % p384 == subMod p384 (q.1 * q.1 * q.1 + b384) (3 * q.1)

/-- Does a signature (r, s) of a digest verify under a public key? -/
def ecdsaOk (q : Nat × Nat) (digest r s : Nat) : Bool :=
  if !onCurve q || r = 0 || s = 0 || decide (n384 ≤ r) || decide (n384 ≤ s) then false
  else
    let w := invMod n384 s
    let u1 := digest * w % n384
    let u2 := r * w % n384
    match addPt (mulPt u1 (some g384) 384 none) (mulPt u2 (some q) 384 none) with
    | some (x, _) => x % n384 == r
    | none => false

/-- The signature (r, s) of a digest with a private key and a nonce. -/
def ecdsaSign (d k digest : Nat) : Nat × Nat :=
  match mulPt k (some g384) 384 none with
  | some (x, _) => (x % n384, invMod n384 k * (digest + x % n384 * d) % n384)
  | none => (0, 0)

end Sys2Proof.Machine
end

