-- ==== Sys2Proof/Syntax.lean ====
section
/-! DEFINITION. The syntax of the G320's steps: one constructor of `Instr` per row of the opcode table.
The constructors that carry `Fields` are the instructions of the opcode map (R284); the others are the events of the part's agents,
with what the outside world or the agent brings to the step as arguments. -/

namespace Sys2Proof

inductive Instr where
  /-- `NOP`, opcode 0x00 (R294) -/
  | nop (f : Fields)
  /-- `MOV`, opcode 0x01 (R302) -/
  | mov (f : Fields)
  /-- `ADD`, opcode 0x02 (R294) -/
  | add (f : Fields)
  /-- `SUB`, opcode 0x03 (R294) -/
  | sub (f : Fields)
  /-- `MUL`, opcode 0x04 (R294) -/
  | mul (f : Fields)
  /-- `MULH`, opcode 0x05 (R294) -/
  | mulh (f : Fields)
  /-- `MAD`, opcode 0x06 (R294) -/
  | mad (f : Fields)
  /-- `DIV`, opcode 0x07 (R295) -/
  | div (f : Fields)
  /-- `REM`, opcode 0x08 (R295) -/
  | rem (f : Fields)
  /-- `MIN`, opcode 0x09 (R294) -/
  | min (f : Fields)
  /-- `MAX`, opcode 0x0A (R294) -/
  | max (f : Fields)
  /-- `ABS`, opcode 0x0B (R294) -/
  | abs (f : Fields)
  /-- `NEG`, opcode 0x0C (R294) -/
  | neg (f : Fields)
  /-- `AND`, opcode 0x0D (R294) -/
  | and_ (f : Fields)
  /-- `OR`, opcode 0x0E (R294) -/
  | or_ (f : Fields)
  /-- `XOR`, opcode 0x0F (R294) -/
  | xor (f : Fields)
  /-- `NOT`, opcode 0x10 (R294) -/
  | not_ (f : Fields)
  /-- `SHL`, opcode 0x11 (R296) -/
  | shl (f : Fields)
  /-- `SHR`, opcode 0x12 (R296) -/
  | shr (f : Fields)
  /-- `SAR`, opcode 0x13 (R296) -/
  | sar (f : Fields)
  /-- `ROT`, opcode 0x14 (R296) -/
  | rot (f : Fields)
  /-- `BFX`, opcode 0x15 (R296) -/
  | bfx (f : Fields)
  /-- `BFI`, opcode 0x16 (R296) -/
  | bfi (f : Fields)
  /-- `POPC`, opcode 0x17 (R294) -/
  | popc (f : Fields)
  /-- `CLZ`, opcode 0x18 (R294) -/
  | clz (f : Fields)
  /-- `BREV`, opcode 0x19 (R294) -/
  | brev (f : Fields)
  /-- `SEL`, opcode 0x1A (R294) -/
  | sel (f : Fields)
  /-- `CMP`, opcode 0x1B (R297) -/
  | cmp (f : Fields)
  /-- `PBOOL`, opcode 0x1C (R297) -/
  | pbool (f : Fields)
  /-- `ADDC`, opcode 0x1D (R298) -/
  | addc (f : Fields)
  /-- `LEA`, opcode 0x1E (R299) -/
  | lea (f : Fields)
  /-- `CVTI`, opcode 0x1F (R300) -/
  | cvti (f : Fields)
  /-- `VOTE`, opcode 0x20 (R304) -/
  | vote (f : Fields)
  /-- `ELECT`, opcode 0x21 (R304) -/
  | elect (f : Fields)
  /-- `BCAST`, opcode 0x22 (R304) -/
  | bcast (f : Fields)
  /-- `GSCAN`, opcode 0x23 (R305) -/
  | gscan (f : Fields)
  /-- `PERM`, opcode 0x24 (R306) -/
  | perm (f : Fields)
  /-- `SHFL`, opcode 0x25 (R306) -/
  | shfl (f : Fields)
  /-- `COMPACT`, opcode 0x26 (R307) -/
  | compact (f : Fields)
  /-- `EXPAND`, opcode 0x27 (R307) -/
  | expand (f : Fields)
  /-- `BR`, opcode 0x30 (R310) -/
  | br (f : Fields)
  /-- `BRX`, opcode 0x31 (R310) -/
  | brx (f : Fields)
  /-- `CALL`, opcode 0x32 (R310) -/
  | call (f : Fields)
  /-- `CALLX`, opcode 0x33 (R310) -/
  | callx (f : Fields)
  /-- `RET`, opcode 0x34 (R310) -/
  | ret (f : Fields)
  /-- `LOOP`, opcode 0x35 (R311) -/
  | loop (f : Fields)
  /-- `EXIT`, opcode 0x36 (R312) -/
  | exit (f : Fields)
  /-- `MSYNC`, opcode 0x37 (R313) -/
  | msync (f : Fields)
  /-- `MSET`, opcode 0x38 (R314) -/
  | mset (f : Fields)
  /-- `YIELD`, opcode 0x39 (R315) -/
  | yield (f : Fields)
  /-- `FADD`, opcode 0x40 (R331) -/
  | fadd (f : Fields)
  /-- `FSUB`, opcode 0x41 (R331) -/
  | fsub (f : Fields)
  /-- `FMUL`, opcode 0x42 (R331) -/
  | fmul (f : Fields)
  /-- `FFMA`, opcode 0x43 (R331) -/
  | ffma (f : Fields)
  /-- `FMIN`, opcode 0x44 (R331) -/
  | fmin (f : Fields)
  /-- `FMAX`, opcode 0x45 (R331) -/
  | fmax (f : Fields)
  /-- `FABS`, opcode 0x46 (R331) -/
  | fabs (f : Fields)
  /-- `FNEG`, opcode 0x47 (R331) -/
  | fneg (f : Fields)
  /-- `FCMP`, opcode 0x48 (R332) -/
  | fcmp (f : Fields)
  /-- `FRCP`, opcode 0x49 (R333) -/
  | frcp (f : Fields)
  /-- `FRSQ`, opcode 0x4A (R333) -/
  | frsq (f : Fields)
  /-- `FSQRT`, opcode 0x4B (R333) -/
  | fsqrt (f : Fields)
  /-- `FDIV`, opcode 0x4C (R333) -/
  | fdiv (f : Fields)
  /-- `FEXP2`, opcode 0x4D (R333) -/
  | fexp2 (f : Fields)
  /-- `FLOG2`, opcode 0x4E (R333) -/
  | flog2 (f : Fields)
  /-- `FSIN`, opcode 0x4F (R333) -/
  | fsin (f : Fields)
  /-- `FCOS`, opcode 0x50 (R333) -/
  | fcos (f : Fields)
  /-- `FTANH`, opcode 0x51 (R333) -/
  | ftanh (f : Fields)
  /-- `FRND`, opcode 0x52 (R335) -/
  | frnd (f : Fields)
  /-- `FTOI`, opcode 0x53 (R335) -/
  | ftoi (f : Fields)
  /-- `ITOF`, opcode 0x54 (R335) -/
  | itof (f : Fields)
  /-- `FCVT`, opcode 0x55 (R336) -/
  | fcvt (f : Fields)
  /-- `FPACK`, opcode 0x56 (R337) -/
  | fpack (f : Fields)
  /-- `FUNPK`, opcode 0x57 (R337) -/
  | funpk (f : Fields)
  /-- `FDOT2`, opcode 0x58 (R338) -/
  | fdot2 (f : Fields)
  /-- `FDOT4`, opcode 0x59 (R338) -/
  | fdot4 (f : Fields)
  /-- `FCLASS`, opcode 0x5A (R339) -/
  | fclass (f : Fields)
  /-- `HIST`, opcode 0x5B (R340) -/
  | hist (f : Fields)
  /-- `QSCALE`, opcode 0x5C (R341) -/
  | qscale (f : Fields)
  /-- `QUANT`, opcode 0x5D (R342) -/
  | quant (f : Fields)
  /-- `DQUANT`, opcode 0x5E (R343) -/
  | dquant (f : Fields)
  /-- `CBDEC`, opcode 0x5F (R344) -/
  | cbdec (f : Fields)
  /-- `CBENC`, opcode 0x60 (R344) -/
  | cbenc (f : Fields)
  /-- `CBLOAD`, opcode 0x61 (R344) -/
  | cbload (f : Fields)
  /-- `TAGSET`, opcode 0x62 (R345) -/
  | tagset (f : Fields)
  /-- `TAGSET_FCLR`, opcode 0x62 (R345) -/
  | tagsetFclr (f : Fields)
  /-- `TAGSET_FSET`, opcode 0x62 (R345) -/
  | tagsetFset (f : Fields)
  /-- `TAGGET`, opcode 0x63 (R346) -/
  | tagget (f : Fields)
  /-- `TAGGET_FLAGS`, opcode 0x63 (R346) -/
  | taggetFlags (f : Fields)
  /-- `LD`, opcode 0x80 (R352) -/
  | ld (f : Fields)
  /-- `ST`, opcode 0x81 (R352) -/
  | st (f : Fields)
  /-- `ATOM`, opcode 0x82 (R356) -/
  | atom (f : Fields)
  /-- `RED`, opcode 0x83 (R356) -/
  | red (f : Fields)
  /-- `CAS`, opcode 0x84 (R357) -/
  | cas (f : Fields)
  /-- `FENCE`, opcode 0x85 (R358) -/
  | fence (f : Fields)
  /-- `MONARM`, opcode 0x86 (R359) -/
  | monarm (f : Fields)
  /-- `MONWAIT`, opcode 0x87 (R360) -/
  | monwait (f : Fields)
  /-- `PREF`, opcode 0x88 (R361) -/
  | pref (f : Fields)
  /-- `CCLEAN`, opcode 0x89 (R362) -/
  | cclean (f : Fields)
  /-- `CINVAL`, opcode 0x8A (R362) -/
  | cinval (f : Fields)
  /-- `TFILL`, opcode 0x90 (R364) -/
  | tfill (f : Fields)
  /-- `TDRAIN`, opcode 0x91 (R364) -/
  | tdrain (f : Fields)
  /-- `TWAIT`, opcode 0x92 (R364) -/
  | twait (f : Fields)
  /-- `TSTAT`, opcode 0x93 (R364) -/
  | tstat (f : Fields)
  /-- `GJOIN`, opcode 0xA0 (R366) -/
  | gjoin (f : Fields)
  /-- `GLEAVE`, opcode 0xA1 (R371) -/
  | gleave (f : Fields)
  /-- `GARR`, opcode 0xA2 (R368) -/
  | garr (f : Fields)
  /-- `GWAIT`, opcode 0xA3 (R368) -/
  | gwait (f : Fields)
  /-- `GBAR`, opcode 0xA4 (R368) -/
  | gbar (f : Fields)
  /-- `GVOTE`, opcode 0xA5 (R369) -/
  | gvote (f : Fields)
  /-- `GRED`, opcode 0xA6 (R369) -/
  | gred (f : Fields)
  /-- `GSTAT`, opcode 0xA7 (R370) -/
  | gstat (f : Fields)
  /-- `GFIND`, opcode 0xA8 (R371) -/
  | gfind (f : Fields)
  /-- `SPAWN`, opcode 0xB0 (R380) -/
  | spawn (f : Fields)
  /-- `SPAWNV`, opcode 0xB1 (R380) -/
  | spawnv (f : Fields)
  /-- `SPAWND`, opcode 0xB2 (R381) -/
  | spawnd (f : Fields)
  /-- `JOIN`, opcode 0xB3 (R382) -/
  | join (f : Fields)
  /-- `PGET`, opcode 0xB4 (R384) -/
  | pget (f : Fields)
  /-- `PDIG`, opcode 0xB5 (R384) -/
  | pdig (f : Fields)
  /-- `PREROOT`, opcode 0xB6 (R383) -/
  | preroot (f : Fields)
  /-- `RNG`, opcode 0xB7 (R385) -/
  | rng (f : Fields)
  /-- `PALLOC`, opcode 0xB8 (R387) -/
  | palloc (f : Fields)
  /-- `PLOG`, opcode 0xB9 (R387) -/
  | plog (f : Fields)
  /-- `RVIEW`, opcode 0xBA (R392) -/
  | rview (f : Fields)
  /-- `RACC`, opcode 0xBB (R392) -/
  | racc (f : Fields)
  /-- `RFIN`, opcode 0xBC (R393) -/
  | rfin (f : Fields)
  /-- `VWREG`, opcode 0xC0 (R395) -/
  | vwreg (f : Fields)
  /-- `VWADD`, opcode 0xC1 (R395) -/
  | vwadd (f : Fields)
  /-- `VWDROP`, opcode 0xC2 (R395) -/
  | vwdrop (f : Fields)
  /-- `VWSYNC`, opcode 0xC3 (R395) -/
  | vwsync (f : Fields)
  /-- `VWVER`, opcode 0xC4 (R395) -/
  | vwver (f : Fields)
  /-- `VWPOL`, opcode 0xC5 (R395) -/
  | vwpol (f : Fields)
  /-- `VWTOUCH`, opcode 0xC6 (R395) -/
  | vwtouch (f : Fields)
  /-- `MLDB`, opcode 0xD0 (R400) -/
  | mldb (f : Fields)
  /-- `MMAS`, opcode 0xD1 (R403) -/
  | mmas (f : Fields)
  /-- `MCOMMIT`, opcode 0xD2 (R406) -/
  | mcommit (f : Fields)
  /-- `MWAIT`, opcode 0xD3 (R406) -/
  | mwait (f : Fields)
  /-- `MRD`, opcode 0xD4 (R409) -/
  | mrd (f : Fields)
  /-- `MWR`, opcode 0xD5 (R409) -/
  | mwr (f : Fields)
  /-- `MZERO`, opcode 0xD6 (R409) -/
  | mzero (f : Fields)
  /-- `MSTAT`, opcode 0xD7 (R410) -/
  | mstat (f : Fields)
  /-- `BTMPL`, opcode 0xE0 (R412) -/
  | btmpl (f : Fields)
  /-- `GATH`, opcode 0xE1 (R416) -/
  | gath (f : Fields)
  /-- `COLL_ORDERED`, opcode 0xE2 (R418) -/
  | collOrdered (f : Fields)
  /-- `COLL_ARRIVAL`, opcode 0xE2 (R419) -/
  | collArrival (f : Fields)
  /-- `CWAIT`, opcode 0xE3 (R420) -/
  | cwait (f : Fields)
  /-- `LBASE`, opcode 0xE4 (R421) -/
  | lbase (f : Fields)
  /-- `BQUERY`, opcode 0xE5 (R422) -/
  | bquery (f : Fields)
  /-- `TRAP`, opcode 0xF0 (R425) -/
  | trap (f : Fields)
  /-- `ERET_RETRY`, opcode 0xF1 (R427) -/
  | eretRetry (f : Fields)
  /-- `ERET_NEXT`, opcode 0xF1 (R427) -/
  | eretNext (f : Fields)
  /-- `ERET_END`, opcode 0xF1 (R427) -/
  | eretEnd (f : Fields)
  /-- `SYSR`, opcode 0xF2 (R428) -/
  | sysr (f : Fields)
  /-- `SYSW`, opcode 0xF3 (R428) -/
  | sysw (f : Fields)
  /-- `KEYLD`, opcode 0xF3 (R430) -/
  | keyld (f : Fields)
  /-- `KEYCLR`, opcode 0xF3 (R55) -/
  | keyclr (f : Fields)
  /-- `RSIDX`, opcode 0xF3 (R431) -/
  | rsidx (f : Fields)
  /-- `WAKE`, opcode 0xF3 (R438) -/
  | wake (f : Fields)
  /-- `ICINV`, opcode 0xF4 (R432) -/
  | icinv (f : Fields)
  /-- `TLBINV`, opcode 0xF5 (R433) -/
  | tlbinv (f : Fields)
  /-- `LAUNCH`, opcode 0xF6 (R434) -/
  | launch (f : Fields)
  /-- `CANCEL`, opcode 0xF7 (R436) -/
  | cancel (f : Fields)
  /-- `LEAVE_HOLD`, opcode 0xF8 (R437) -/
  | leaveHold (f : Fields)
  /-- `LEAVE_FREE`, opcode 0xF8 (R437) -/
  | leaveFree (f : Fields)
  /-- `HCOUNT`, opcode 0xF9 (R435) -/
  | hcount (f : Fields)
  /-- `HALT`, opcode 0xFA (R438) -/
  | halt (f : Fields)
  /-- `BRK`, opcode 0xFB (R426) -/
  | brk (f : Fields)
  /-- `MON_READ`, opcode 0xFC (R439) -/
  | monRead (f : Fields)
  /-- `MON_RDCLR`, opcode 0xFC (R439) -/
  | monRdclr (f : Fields)
  /-- `MON_SEL`, opcode 0xFC (R439) -/
  | monSel (f : Fields)
  /-- event `LINK_TRAINING` (R17, R25, R26: whether training stays within the degraded-part minimum, and the errata records (type, value) appended) -/
  | linkTraining (ok : Bool) (errata : List (Nat × List Byte))
  /-- event `MEASUREMENT_EXTEND` (R19) -/
  | measurementExtend (slot : Nat) (digest : List Byte)
  /-- event `NEGOTIATE_ALGORITHMS` (R20: the algorithm masks the requester offers) -/
  | negotiateAlgorithms (hash asym : Half)
  /-- event `GET_CERTIFICATE` (R20) -/
  | getCertificate (slot off len : Nat)
  /-- event `CHALLENGE` (R20) -/
  | challenge (slot : Nat) (nonce : List Byte)
  /-- event `GET_MEASUREMENTS` (R20) -/
  | getMeasurements (index : Nat) (nonce : List Byte)
  /-- event `UNMAPPED_BAR_ACCESS` (R34) -/
  | unmappedBarAccess (off : Nat) (write : Bool)
  /-- event `REQUEST_SLOT_WRITE` (R59) -/
  | requestSlotWrite (slot off : Nat) (data : List Byte)
  /-- event `MBDOOR` (R58, R59) -/
  | mbdoor (value : Half)
  /-- event `MBSTAT_RESP_CLEAR` (R59: the bits of RESP written as 1) -/
  | mbstatRespClear (bits : Byte)
  /-- event `SUBMIT` (R61, R65: request slot 0 to 7, or 8 + i for the i-th request handed over by a peer) -/
  | submit (req : Nat)
  /-- event `CANCEL_REQUEST` (R61, R76) -/
  | cancelRequest (req : Nat)
  /-- event `QUERY` (R61, R62) -/
  | query (req : Nat)
  /-- event `LOAD` (R61) -/
  | load (req : Nat)
  /-- event `HOST_CXL_MEM_REQUEST` (R35, R36: an access through decoder window at offset off, a write when data is given; hold: the host keeps the line) -/
  | hostCxlMemRequest (window off len : Nat) (write : Option (List Byte)) (hold : Bool)
  /-- event `BISNP_RESPONSE` (R36: the response for a line, with the data the host had modified) -/
  | bisnpResponse (line : Nat) (data : Option (List Byte))
  /-- event `APERTURE_COMPLETION` (R39, R40: status 0 successful, 1 Unsupported Request, 2 Completer Abort) -/
  | apertureCompletion (crew status : Nat) (data : List Byte)
  /-- event `APERTURE_COMPLETION_TIMEOUT` (R40) -/
  | apertureCompletionTimeout (crew : Nat)
  /-- event `POSTED_WRITE_REFUSAL` (R40) -/
  | postedWriteRefusal (addr : Nat)
  /-- event `LANE_REPAIR_EXHAUSTED` (R43) -/
  | laneRepairExhausted (link : Nat)
  /-- event `ACK_FRAME` (R49, R50) -/
  | ackFrame (fr : Frame)
  /-- event `NACK_FRAME` (R49, R50) -/
  | nackFrame (fr : Frame)
  /-- event `COPY_PAYLOAD_FRAME` (R49, R50, R51) -/
  | copyPayloadFrame (fr : Frame)
  /-- event `COPY_STAMP_FRAME` (R49, R51) -/
  | copyStampFrame (fr : Frame)
  /-- event `COLLECTIVE_SEGMENT` (R49, R53) -/
  | collectiveSegment (fr : Frame)
  /-- event `SPDM_MESSAGE_FRAME` (R20, R49) -/
  | spdmMessageFrame (fr : Frame)
  /-- event `JOB_HAND_OFF` (R64) -/
  | jobHandOff (fr : Frame)
  /-- event `HEARTBEAT` (R49) -/
  | heartbeat (fr : Frame)
  /-- event `FAULT_NOTICE` (R32, R49) -/
  | faultNotice (fr : Frame)
  /-- event `RESERVED_VFT_FRAME` (R49) -/
  | reservedVftFrame (fr : Frame)
  /-- event `NON_VFT_FRAME` (R48) -/
  | nonVftFrame (port : Nat) (data : List Byte)
  /-- event `VFT_RESEND_TIMEOUT` (R50: index of the connection in the engine table) -/
  | vftResendTimeout (conn : Nat)
  /-- event `HEARTBEAT_LOSS` (R32) -/
  | heartbeatLoss (peer : Nat)
  /-- event `FAULT_DETECTION` (R32: an uncorrected error, a stamp error or a link down that concerns a job) -/
  | faultDetection (job : Nat)
  /-- event `REMAP` (R32) -/
  | remap (job spare : Nat)
  /-- event `RESTORE` (R32: `image` is the checkpoint pulled from peer memory, absent where the job's own stores keep it) -/
  | restore (job : Nat)
  /-- event `RESTART` (R32) -/
  | restart (job : Nat)
  /-- event `LEE_GRANT` (R29) -/
  | leeGrant (die : Nat)
  /-- event `LAUNCH_START` (R110, R191: the launch with this handle) -/
  | launchStart (launch : Nat)
  /-- event `CONDITION_NODE_READ` (R72) -/
  | conditionNodeRead (job node : Nat)
  /-- event `PHASE_BOUNDARY` (R74) -/
  | phaseBoundary (job : Nat)
  /-- event `PARKED_SLOT_RECLAIM` (R97) -/
  | parkedSlotReclaim (core : Nat)
  /-- event `CREW_MIGRATION` (R98, R264, R265) -/
  | crewMigration (crew core : Nat)
  /-- event `FORWARD_MESSAGE` (R265) -/
  | forwardMessage (core crew : Nat)
  /-- event `STEAL_REQUEST` (R102) -/
  | stealRequest (core : Nat)
  /-- event `STEAL_ANSWER` (R102, R104) -/
  | stealAnswer (core : Nat)
  /-- event `PREEMPTION_REQUEST` (R125) -/
  | preemptionRequest (die : Nat)
  /-- event `YIELDFORCED` (R80) -/
  | yieldforced (crew : Nat)
  /-- event `WAIT_EVENT` (R117) -/
  | waitEvent (crew : Nat)
  /-- event `WAIT_POLL` (R118) -/
  | waitPoll (crew : Nat)
  /-- event `STAGE_ITEM_ARRIVAL` (R113: the oldest unsent item of the core arrives at its ring) -/
  | stageItemArrival (core : Nat)
  /-- event `STAGE_ITEM_ACK` (R114) -/
  | stageItemAck (core : Nat)
  /-- event `STAGE_RESEND` (R114) -/
  | stageResend (core : Nat)
  /-- event `GOVERNOR_SAMPLE` (R115) -/
  | governorSample (launch : Nat)
  /-- event `DATAFLOW_ELIGIBILITY_TEST` (R106) -/
  | dataflowEligibilityTest (seg task : Nat)
  /-- event `CELL_WAITER_SERVED` (R193) -/
  | cellWaiterServed (die cell : Nat)
  /-- event `WALK_COMPLETE` (R175) -/
  | walkComplete (core : Nat) (job : Nat) (va : Word) (write : Bool)
  /-- event `PAGE_MIGRATION` (R188) -/
  | pageMigration (job : Nat) (page : Word) (die : Nat) (moveFrame : Bool)
  /-- event `VIEW_RECOMPUTE` (R223: err when a line of the master meets an uncorrected error (R227)) -/
  | viewRecompute (die err : Nat)
  /-- event `BTE_COMMAND_START` (R413: err when the copy meets an uncorrected error (R414)) -/
  | bteCommandStart (die chan : Nat) (err : Bool)
  /-- event `BTE_STAMP_WRITE` (R414) -/
  | bteStampWrite (die chan : Nat)
  /-- event `GATHER_RETIRE` (R416: err, the physical line that met an uncorrected error) -/
  | gatherRetire (core : Nat) (err : Option Nat)
  /-- event `COLLECTIVE_COMPLETE` (R420) -/
  | collectiveComplete (job : Nat) (key : Word) (err : Bool)
  /-- event `MATRIX_STEP_START` (R403) -/
  | matrixStepStart (core : Nat)
  /-- event `MATRIX_STEP_RETIRE` (R405, R406) -/
  | matrixStepRetire (core : Nat)
  /-- event `MLDB_RETIRE` (R400: err, the physical line that met an uncorrected error) -/
  | mldbRetire (core : Nat) (err : Option Nat)
  /-- event `SELF_TEST` (R408) -/
  | selfTest (core : Nat) (fail : Bool)
  /-- event `SYSTEM_TRAP` (R260: an uncorrected error of the source codes of R261) -/
  | systemTrap (crew source : Nat) (line va : Nat)
  /-- event `CXL_MEM_RETRAIN` (R33, R37: ok when the link trains to at least x8 at 32 GT/s) -/
  | cxlMemRetrain (ok : Bool)
  /-- event `PORT_LINK_DOWN` (R50) -/
  | portLinkDown (port : Nat)
  /-- event `PORT_LINK_UP` (R50) -/
  | portLinkUp (port : Nat)
  /-- event `CONFIG_REQUEST` (R21, R34, R39, R63: 0 MSI-X enable, 1 AtomicOp Requester Enable, 2 Completion Timeout) -/
  | configRequest (reg : Nat) (write : Option Half)
  /-- event `MSIX_TABLE_WRITE` (R34, R63: a word at a byte offset of the table) -/
  | msixTableWrite (off : Nat) (value : Half)
  /-- event `HDM_DECODER_PROGRAM` (R35) -/
  | hdmDecoderProgram (decoder base size : Nat) (commit : Bool)
  /-- event `POWER_ON_RESET` (R17) -/
  | powerOnReset
  /-- event `GET_VERSION` (R20) -/
  | getVersion
  /-- event `GET_CAPABILITIES` (R20) -/
  | getCapabilities
  /-- event `GET_DIGESTS` (R20) -/
  | getDigests
  /-- event `MBSTAT_NOVF_CLEAR` (R58) -/
  | mbstatNovfClear
  /-- event `MBSTAT_DUP_CLEAR` (R58) -/
  | mbstatDupClear
  /-- event `MBNOTE_READ` (R58) -/
  | mbnoteRead
  /-- event `BISNP_TIMEOUT` (R37) -/
  | bisnpTimeout
  /-- event `CXL_MEM_INACTIVE` (R33, R37) -/
  | cxlMemInactive
  /-- event `LATE_COMPLETION_DROP` (R40) -/
  | lateCompletionDrop
  /-- event `COOLANT_OVERTEMP` (R30) -/
  | coolantOvertemp
  /-- event `COOLANT_RECOVERY` (R30) -/
  | coolantRecovery
  /-- event `FORWARDING_ENTRY_EXPIRY` (R265: the forwarding entries that have expired, on the lowest-numbered core that holds one) -/
  | forwardingEntryExpiry
  /-- event `STEAL_BACKOFF_EXPIRY` (R102: the lowest-numbered core whose wait has run out) -/
  | stealBackoffExpiry
  /-- event `BOOST_EXPIRY` (R123: every crew whose boost has run out) -/
  | boostExpiry
  /-- event `REGISTER_MISS` (R148) -/
  | registerMiss
  /-- event `LANDING_ARRIVAL` (R421: the lowest-numbered core with a landed payload) -/
  | landingArrival
  /-- event `TRAP_DELIVERY` (R250, R256: delivers the task-precise trap of the first crew that has one) -/
  | trapDelivery
  /-- event `HALT_WAKE` (R438: the lowest-numbered halted core with a pending wake) -/
  | haltWake
  /-- event `HEARTBEAT_TRANSMIT` (R49) -/
  | heartbeatTransmit
  deriving DecidableEq, Repr

end Sys2Proof
end

