-- ==== Sys2Proof/Machine/Roles.lean ====
section
/-! DEFINITION. What each opcode allows in its operand fields: the tables of R294, R330, R350, R379, R397 and R424 with
R132, R142, R271 to R276. One table serves the executable scanner (R85, checks 6 to 8), the well-formedness of syntax and
the checks made when an instruction issues (REGRANGE, HANDLE, FMTTAG of R254). -/

namespace Sys2Proof.Machine

/-! Operand classes, one bit each. -/
def kV : Nat := 1
def kS : Nat := 2
def kP : Nat := 4
def kPT : Nat := 8
def kM : Nat := 16
def kH : Nat := 32
def kAcc : Nat := 64
def kSpec : Nat := 128
def kImm : Nat := 256
def kLit : Nat := 512
def kNone : Nat := 1024
def kInd : Nat := 2048

/-- What one operand position allows, and how the instruction uses it. -/
structure Role where
  /-- classes allowed, a union of the bits above -/
  cls  : Nat
  /-- width of the operand in bits: 32, 64 or 128 (R132, R293) -/
  bits : Nat := 32
  /-- consecutive registers named -/
  n    : Nat := 1
  /-- read as a source, with its tag checked -/
  src  : Bool := false
  /-- written -/
  dst  : Bool := false
  /-- accepted tags, bit t for tag t (R142) -/
  tags : Nat := 0x7FFF
  /-- inline constants allowed, as the signed value of R271 -/
  cst  : Int → Bool := fun _ => true
  /-- literals allowed -/
  lits : Nat → Bool := fun _ => true
  /-- an `s` register named here must be even (R366) -/
  evenS : Bool := false
  /-- a handle named here must be `VALID` (R138) -/
  valid : Bool := false

/-- The four positions of an opcode at one type code, with the ordering it accepts (R275, R350). -/
structure Entry where
  d : Role := { cls := kNone }
  a : Role := { cls := kNone }
  b : Role := { cls := kNone }
  c : Role := { cls := kNone }
  /-- accepted values of `ORD` -/
  ords : List Nat := [0]
  /-- accepted values of `AUX` -/
  auxs : List Nat := [0]
  /-- limits that tie positions together -/
  more : Bool := true

/-- Operand width of a type code (R274, R351). -/
def tyBits (y : Nat) : Nat :=
  if y = 4 ∨ y = 5 ∨ y = 6 ∨ y = 15 then 64 else if y = 22 then 128 else 32

/-- Access size of a type code in bytes (R351). -/
def tySize (y : Nat) : Nat :=
  match y with
  | 16 | 17 | 20 => 1
  | 18 | 19 | 21 => 2
  | 4 | 5 | 6 | 15 => 8
  | 22 => 16
  | _ => 4

/-- The tag that a value of a type carries (R141, R292, R330, R351). -/
def tyTag (y : Nat) : Nat :=
  match y with
  | 1 | 16 | 18 => 1
  | 2 | 17 | 19 => 2
  | 3 => 3
  | 4 | 5 => 12
  | 7 => 5
  | 8 => 4
  | 9 => 6
  | 10 => 7
  | 11 => 8
  | 12 => 9
  | 13 => 10
  | 14 => 11
  | 15 => 13
  | _ => 0

def tagsAny : Nat := 0x7FFF
def tagsAll : Nat := 0xFFFF
/-- I32 or N32. -/
def tags32 : Nat := 0x6
/-- I64 or ADDR. -/
def tags64 : Nat := 0x3000
/-- I64 or N32. -/
def tagsId : Nat := 0x1004
/-- RAW, I32 or N32: what an index register of R134 may carry. -/
def tagsIdx : Nat := 0x7

/-- Tags a typed source accepts (R292, R330, R351). -/
def tyTags (y : Nat) : Nat :=
  match y with
  | 0 | 6 | 20 | 21 | 22 => tagsAny
  | 1 | 2 => tags32
  | 4 | 5 | 15 => tags64
  | 16 | 18 => 0x2
  | 17 | 19 => 0x4
  | y => 1 <<< tyTag y

/-- May an operand of the type be an inline constant (R271)? -/
def tyCst (y : Nat) : Bool := y ≤ 13 ∨ y = 15

def absent : Role := { cls := kNone }

/-- A mode in field C (R291): an inline constant whose byte satisfies the test. -/
def modeR (ok : Nat → Bool) : Role := { cls := kImm, cst := fun k => decide (0 ≤ k) && ok k.toNat }

/-- A value source of an integer instruction (R292, R293, R136, R137). -/
def intSrc (y : Nat) : Role :=
  { cls := kV + kS + kSpec + kImm + kLit + kInd + (if tyBits y = 64 then kM else kP), bits := tyBits y, src := true, tags := tyTags y }

/-- A count source (R292). -/
def cntSrc : Role := { cls := kV + kS + kP + kSpec + kImm + kLit + kInd, src := true, tags := tags32 }

/-- A value destination of an integer or floating instruction. -/
def intDst (w : Nat) : Role := { cls := kV + kS + kP + kInd, bits := w, dst := true }

def predDst : Role := { cls := kP + kPT, dst := true }
def predSrc : Role := { cls := kP + kPT, src := true }

/-- A value source of a floating instruction (R330). -/
def fpSrc (y : Nat) : Role :=
  { cls := kV + kS + kP + kSpec + kInd + (if 9 ≤ y ∧ y ≤ 14 then 0 else kImm + kLit), src := true, tags := tyTags y }

/-- n consecutive `v` registers, as a source or a destination (R329). -/
def vRun (n : Nat) (src : Bool) (tags : Nat) : Role :=
  { cls := kV, n := n, src := src, dst := !src, tags := tags }

/-- A table of eight `s` registers, or none (R344). -/
def tableR : Role := { cls := kS + kNone, bits := 64, n := 8, src := true, tags := tagsAny }

/-- The base operand of a memory address (R349). -/
def baseR (ind : Bool) : Role :=
  { cls := kV + kS + (if ind then kInd else 0), bits := 64, src := true, tags := tags64 }

/-- The index operand of a memory address (R349): 64 bits wide only when it carries I64, which the meaning checks. -/
def indexR (v ind : Bool) : Role :=
  { cls := kS + kNone + (if v then kV else 0) + (if ind then kInd else 0), src := true, tags := 0x1006 }

def dispR : Role := { cls := kImm + kLit + kNone, bits := 64, src := true }

/-- "addr" of R379 and R397: an `s` register tagged ADDR or I64, or a literal. -/
def addrR : Role := { cls := kS + kLit, bits := 64, src := true, tags := tags64 }

/-- "idx" of R379. -/
def idxR : Role := { cls := kV + kS + kImm + kLit, src := true, tags := tags32 }

/-- An id operand of R379. -/
def idR : Role := { cls := kS + kImm + kLit, bits := 64, src := true, tags := tagsId }

def sDst : Role := { cls := kS, bits := 64, dst := true }
/-- A block of n `s` registers read with any tag (R397). -/
def sBlock (n : Nat) : Role := { cls := kS, bits := 64, n := n, src := true, tags := tagsAny }
/-- "value" of R424. -/
def valueR : Role := { cls := kV + kS + kImm + kLit, bits := 64, src := true, tags := tagsAny }
/-- Address, handle, `JOBID`, length, units or selector of R424. -/
def sysR : Role := { cls := kS + kLit, bits := 64, src := true, tags := tagsAny }
def handleR : Role := { cls := kH, src := true, valid := true }
/-- A register or `brk` number (R424): the constant's byte or the literal, unsigned. -/
def numberR (ok : Nat → Bool) : Role :=
  { cls := kImm + kLit, cst := fun k => ok (wrapTo 8 k), lits := ok }

/-- Is a 64-bit special named (R139)? -/
def specWide (r : BitVec 4) : Bool :=
  let n := r.toNat
  n == 3 || n == 4 || n == 5 || n == 6 || n == 7 || n == 13 || n == 14 || n == 15

/-- The constant in an operand field, as the signed value of R271. -/
def immOf : Opd → Option Int
  | .imm k => some k.toInt
  | _ => none

/-- The mode in field C: k[7:0] unsigned (R291). -/
def modeOf (f : Fields) : Nat :=
  match f.c with
  | .imm k => k.toNat
  | _ => 0

/-- The register number that `sysr` and `sysw` name (R424), and the number of `brk`. -/
def numOf (f : Fields) : Nat :=
  match f.a with
  | .imm k => k.toNat
  | .lit => f.lit.toNat
  | _ => 0

/-- May `sysr` read the register (R428)? -/
def sysReadable (r : Nat) : Bool :=
  r == 0 || (0x10 ≤ r && r ≤ 0x12) || r == 0x2A || (0x30 ≤ r && r ≤ 0x34) || r == 0x40 || (0x60 ≤ r && r ≤ 0x67)

/-- May `sysw` write the register (R428)? -/
def sysWritable (r : Nat) : Bool :=
  (0x10 ≤ r && r ≤ 0x12) || (0x20 ≤ r && r ≤ 0x29) || (0x30 ≤ r && r ≤ 0x34) || (0x60 ≤ r && r ≤ 0x67) || r == 0x70

/-- The registers named by the constructors `keyld`, `keyclr`, `rsidx` and `wake`. -/
def sysOwn (r : Nat) : Bool := r == 0x28 || r == 0x29 || r == 0x30 || r == 0x70

def cvtTypes : List Nat := [1, 2, 4, 5, 16, 17, 18, 19]

def opdIsNone : Opd → Bool
  | .none => true
  | _ => false

def opdIsSM : Opd → Bool
  | .s _ => true
  | .m _ => true
  | _ => false

def opdIsP : Opd → Bool
  | .p _ => true
  | .pt => true
  | _ => false

def opdIsS : Opd → Bool
  | .s _ => true
  | _ => false

def opdIsImm : Opd → Bool
  | .imm _ => true
  | _ => false

/-- Elements of a packed type (R320). -/
def packN (y : Nat) : Nat := if y = 7 ∨ y = 8 then 2 else if y = 13 then 8 else 4

/-- The entry of `mov` (R302). -/
def movEntry (y : Nat) (f : Fields) : Entry :=
  match f.a with
  | .p _ => { d := intDst 32, a := { cls := kP, src := true }, more := y == 0 }
  | .m _ => { d := { cls := kS + kV + kInd, bits := 64, dst := true }, a := { cls := kM, bits := 64, src := true }, more := y == 6 }
  | .h _ => { d := { cls := kS + kV + kInd, bits := 64, dst := true }, a := { cls := kH, bits := 64, src := true }, more := y == 6 }
  | .spec _ => { d := { cls := kS + kV + kInd, bits := tyBits y, dst := true },
                 a := { cls := kSpec, bits := tyBits y, src := true, tags := tagsAny } }
  | _ => { d := intDst (tyBits y), a := { cls := kV + kS + kImm + kLit + kInd, bits := tyBits y, src := true, tags := tagsAny } }

/-- Rows 0x and 1x (R294). -/
def entryInt (op y : Nat) (f : Fields) : Option Entry :=
  let w := tyBits y
  let int4 := y == 1 || y == 2 || y == 4 || y == 5
  let bit2 := y == 0 || y == 6
  let sgn2 := y == 1 || y == 4
  let i := intSrc y
  let go (g : Bool) (e : Entry) : Option Entry := if g then some e else none
  match op with
  | 0x00 => go (y == 0) {}
  | 0x01 => go bit2 (movEntry y f)
  | 0x02 | 0x03 | 0x04 | 0x05 | 0x07 | 0x08 | 0x09 | 0x0A => go int4 { d := intDst w, a := i, b := i }
  | 0x06 => go int4 { d := intDst w, a := i, b := i, c := i }
  | 0x0B | 0x0C => go sgn2 { d := intDst w, a := i }
  | 0x0D | 0x0E | 0x0F => go bit2 { d := intDst w, a := i, b := i }
  | 0x10 | 0x19 => go bit2 { d := intDst w, a := i }
  | 0x11 | 0x12 | 0x14 => go bit2 { d := intDst w, a := i, b := cntSrc }
  | 0x13 => go sgn2 { d := intDst w, a := i, b := cntSrc }
  | 0x15 => go int4 { d := intDst w, a := i, b := cntSrc, c := cntSrc }
  | 0x16 => go bit2 { d := { intDst w with src := true, tags := tagsAny }, a := i, b := cntSrc, c := cntSrc }
  | 0x17 | 0x18 => go bit2 { d := intDst 32, a := i }
  | 0x1A => go bit2 { d := intDst w, a := i, b := i, c := predSrc }
  | 0x1B => go int4 { d := predDst, a := i, b := i, c := modeR (· ≤ 5) }
  | 0x1C => go (y == 0) { d := predDst, a := predSrc, b := predSrc, c := modeR (· ≤ 15) }
  | 0x1D => go (y == 2 || y == 5) { d := intDst w, a := i, b := i, c := { predSrc with dst := true } }
  | 0x1E => go (y == 1 || y == 2 || y == 4)
      { d := { cls := kV + kS + kInd, bits := 64, dst := true }, a := intSrc 4,
        b := i, c := modeR (· ≤ 6) }
  | 0x1F =>
    let s := match f.c with | .imm k => k.toNat % 64 | _ => 0
    go (cvtTypes.contains y)
      -- an 8-bit or 16-bit source is of a type for which R271 allows no constant
      { d := intDst w, a := { intSrc s with bits := tyBits s, cls := if 16 ≤ s then kV + kS + kSpec + kInd + kP else (intSrc s).cls },
        c := { cls := kImm, cst := fun k => cvtTypes.contains (wrapTo 8 k % 64) && decide (wrapTo 8 k / 64 ≤ 1) } }
  | _ => none

/-- Rows 2x and 3x (R303 to R315). -/
def entryCrew (op y : Nat) (f : Fields) : Option Entry :=
  let w := tyBits y
  let bit2 := y == 0 || y == 6
  let m := modeOf f
  let vd : Role := { cls := kV + kInd, bits := w, dst := true }
  let va : Role := { cls := kV + kInd, bits := w, src := true, tags := tyTags y }
  let uni : Role := { cls := kS + kImm + kLit, src := true, tags := tags32 }
  let go (g : Bool) (e : Entry) : Option Entry := if g then some e else none
  match op with
  | 0x20 => go (y == 0)
      { d := { cls := if m = 0 then kS + kM else kP + kPT + kS, bits := 64, dst := true },
        a := { cls := kP + kV + kInd, src := true, tags := tagsAny }, c := modeR (· ≤ 3) }
  | 0x21 => go (y == 0) { d := { cls := kP + kPT + kS, dst := true } }
  | 0x22 => go bit2 { d := vd, a := va, b := uni }
  | 0x23 => go (y == 1 || y == 2 || y == 4 || y == 5 || y == 3)
      { d := vd, a := va, c := modeR (fun k => k % 8 ≤ 5 && k ≤ 13), more := !(y == 3 && decide (3 ≤ m % 8)) }
  | 0x24 => go bit2 { d := vd, a := va, b := { cls := kV + kInd, src := true, tags := tags32 } }
  | 0x25 => go bit2 { d := vd, a := va, b := uni, c := modeR (· ≤ 3) }
  | 0x26 | 0x27 => go bit2 { d := vd, a := va, b := { cls := kP, src := true } }
  | 0x30 => go (y == 0) { a := { cls := kImm + kLit, lits := fun l => l % 8 == 0 } }
  | 0x31 | 0x34 => go (y == 0) { a := { cls := kV + kS, bits := 64, src := true, tags := 0x2000 } }
  | 0x32 => go (y == 0) { d := { cls := kV + kS, bits := 64, dst := true }, a := { cls := kImm + kLit, lits := fun l => l % 8 == 0 } }
  | 0x33 => go (y == 0) { d := { cls := kV + kS, bits := 64, dst := true }, a := { cls := kV + kS, bits := 64, src := true, tags := 0x2000 } }
  | 0x35 => go (y == 1 || y == 2 || y == 4 || y == 5)
      { d := { cls := kV + kS, bits := w, src := true, dst := true, tags := tyTags y },
        a := { cls := kImm + kLit, lits := fun l => l % 8 == 0 } }
  | 0x36 | 0x39 => go (y == 0) {}
  | 0x37 => go (y == 0) { a := { cls := kM, bits := 64, src := true } }
  | 0x38 => go (y == 6)
      (let x : Role := { cls := kM + kS + kImm + kLit, bits := 64, src := true, tags := tagsAny }
       { d := { cls := kM, bits := 64, dst := true }, a := if m = 4 then absent else x, b := if m = 0 ∨ m = 4 then absent else x,
         c := modeR (· ≤ 4) })
  | _ => none

/-- Rows 4x to 6x (R330). -/
def entryFp (op y : Nat) (f : Fields) : Option Entry :=
  let f3 := y == 3 || y == 7 || y == 8
  let m := modeOf f
  let x := fpSrc y
  let rm := modeR (· ≤ 4)
  let d32 := intDst 32
  let scale : Role := { cls := kV + kS + kP + kSpec + kInd + kImm + kLit, src := true, tags := tags32 }
  let vs : Role := { cls := kV + kS + kInd, dst := true }
  let int4 := y == 1 || y == 2 || y == 4 || y == 5
  let go (g : Bool) (e : Entry) : Option Entry := if g then some e else none
  match op with
  | 0x40 | 0x41 | 0x42 => go f3 { d := d32, a := x, b := x, c := rm }
  | 0x43 => go f3 { d := d32, a := x, b := x, c := x }
  | 0x44 | 0x45 => go f3 { d := d32, a := x, b := x }
  | 0x46 | 0x47 => go f3 { d := d32, a := x }
  | 0x48 => go (y == 3) { d := predDst, a := x, b := x, c := modeR (· ≤ 7) }
  | 0x49 | 0x4A | 0x4D | 0x4E | 0x4F | 0x50 | 0x51 | 0x5A => go (y == 3) { d := d32, a := x }
  | 0x4B | 0x52 => go (y == 3) { d := d32, a := x, c := rm }
  | 0x4C => go (y == 3) { d := d32, a := x, b := x, c := rm }
  | 0x53 => go int4 { d := intDst (tyBits y), a := fpSrc 3, c := rm }
  | 0x54 => go int4 { d := d32, a := intSrc y, c := rm }
  | 0x55 =>
    let src := m / 8
    let sy := match src with | 1 => 7 | 2 => 8 | 3 => 9 | 4 => 10 | _ => 3
    let n := packN (if y = 3 then sy else y)
    go (f3 || y == 9 || y == 10)
      { d := { cls := kV + kS + kInd, dst := true, src := y != 3, tags := if y = 3 then tagsAll else tyTags y ||| 0x8000 },
        a := fpSrc sy, b := { cls := kImm, cst := fun e => decide (0 ≤ e ∧ e < n) },
        c := modeR (fun k => k % 8 ≤ 4 && k / 8 ≤ 4 && (if y = 3 then k / 8 ≠ 0 else k / 8 = 0)) }
  | 0x56 => go (y == 7 || y == 8 || y == 9 || y == 10) { d := vs, a := vRun (packN y) true (tyTags 3), c := rm }
  | 0x57 => go (y == 7 || y == 8 || y == 9 || y == 10)
      { d := vRun (packN y) false 0, a := x }
  | 0x58 => go (y == 7 || y == 8) { d := d32, a := x, b := x, c := fpSrc 3 }
  | 0x59 => go (9 ≤ y && y ≤ 12)
      { d := d32, a := x, b := x, c := if y = 11 then intSrc 1 else if y = 12 then intSrc 2 else fpSrc 3 }
  | 0x5B => go (y == 3)
      { d := vs, a := vRun m true (tyTags 3), b := { cls := kS + kImm + kLit, src := true, tags := tags32 },
        c := modeR (fun k => k == 1 || k == 2 || k == 4 || k == 8) }
  | 0x5C => go (y == 9 || y == 10 || y == 13 || y == 14) { d := vs, a := scale }
  | 0x5D => go (y == 9 || y == 10 || y == 13 || y == 14)
      { d := vs, a := vRun (if y = 9 ∨ y = 10 then 4 else 8) true (tyTags 3), b := scale, c := rm }
  | 0x5E => go (y == 9 || y == 10 || y == 13)
      { d := vRun (if y = 13 then 8 else 4) false 0, a := x, b := scale, c := rm }
  | 0x5F => go (y == 14) { d := { vRun 2 false 0 with bits := 32, lits := fun _ => true }, a := x,
                           c := tableR, more := match f.d with | .v r => r.toNat % 2 == 0 | _ => true }
  | 0x60 => go (y == 14) { d := vs, a := fpSrc 13, b := fpSrc 13, c := tableR }
  | 0x61 => go (y == 0) { d := { cls := kS, bits := 64, n := 8, dst := true }, a := { addrR with cls := kS + kLit + kNone } }
  | 0x62 =>
    let a : Role := { cls := kV + kS + kInd + kImm, src := true, tags := tags32 }
    if m = 0 then go (y == 0 || y == 6)
      { d := { cls := kV + kS, bits := tyBits y, dst := true },
        a := { a with cst := fun k => if y = 0 then decide (0 ≤ k ∧ k ≤ 11) else decide (k = 0 ∨ k = 12 ∨ k = 13) }, c := modeR (· ≤ 2) }
    else go (y == 0 || y == 6) { a := { a with cst := fun k => decide (0 ≤ k ∧ k ≤ 31) }, c := modeR (· ≤ 2) }
  | 0x63 => go (y == 0)
      { d := { cls := kV + kS + kInd, dst := true },
        a := if m = 0 then { cls := kV + kS + kInd + kP + kM + kSpec, bits := match f.a with | .spec r => if specWide r then 64 else 32 | _ => 32, src := true, tags := tagsAll } else absent, c := modeR (· ≤ 1) }
  | _ => none

/-- The atomic operations that a type code accepts (R355). -/
def atomOk (mode y : Nat) : Bool :=
  if mode ≤ 2 then y == 1 || y == 2 || y == 3 || y == 4 || y == 5
  else if mode ≤ 5 then y == 0 || y == 6
  else mode == 6 && (y == 0 || y == 1 || y == 2 || y == 3 || y == 6 || y == 15)

/-- Rows 8x to Ax (R350 to R371). -/
def entryMem (op y : Nat) (f : Fields) : Option Entry :=
  let w := tyBits y
  let m := modeOf f
  let hint := [0, 1, 2]
  let dataR : Role := { cls := kV + kS + kImm + kLit, bits := w, src := true, tags := tyTags y }
  let dataR' : Role := if w = 128 then { dataR with cls := kV + kS } else dataR
  let go (g : Bool) (e : Entry) : Option Entry := if g then some e else none
  let z := y == 0
  match op with
  | 0x80 => go (y ≤ 22) { d := { cls := kV + kS + kInd, bits := w, dst := true }, a := baseR true, b := indexR true true, c := dispR,
                          ords := [0, 1], auxs := hint }
  | 0x81 => go (y ≤ 15 || y == 20 || y == 21 || y == 22)
      { d := { cls := kV + kS + kInd, bits := w, src := true, tags := tyTags y }, a := baseR true, b := indexR true true, c := dispR,
        ords := [0, 2], auxs := hint }
  | 0x82 => go (atomOk m y)
      { d := { cls := kV + kS, bits := w, dst := true }, a := baseR false, b := dataR, c := modeR (· ≤ 6), ords := [0, 1, 2, 3], auxs := hint }
  | 0x83 => go (atomOk m y) { a := baseR false, b := dataR, c := modeR (· ≤ 5), ords := [0, 2], auxs := hint }
  | 0x84 => go (y == 0 || y == 1 || y == 2 || y == 4 || y == 5 || y == 6 || y == 15 || y == 22)
      { d := { cls := kV + kS, bits := w, dst := true }, a := baseR false, b := dataR', c := dataR', ords := [0, 1, 2, 3], auxs := [0, 1, 3] }
  | 0x85 => go z { ords := [1, 2, 3] }
  | 0x86 => go (y ≤ 22) { a := { baseR false with cls := kS }, b := indexR false false, c := dispR }
  | 0x87 => go z {}
  | 0x88 => go (y ≤ 22) { a := baseR false, b := indexR true false, c := dispR, auxs := hint }
  | 0x89 | 0x8A => go z { a := { addrR with cls := kS + kLit }, b := { cls := kS + kImm + kLit, bits := 64, src := true, tags := tagsAny },
                          c := modeR (· ≤ 1) }
  | 0x90 => go z { a := { addrR with tags := tagsAny }, b := { cls := kV, n := 32, src := true, tags := tagsAny } }
  | 0x91 => go z { d := { cls := kV, n := 32, dst := true }, a := { addrR with tags := tagsAny } }
  | 0x92 => go z { a := { addrR with tags := tagsAny }, c := modeR (· ≤ 1) }
  | 0x93 => go z { d := sDst, a := { addrR with tags := tagsAny } }
  | 0xA0 => go z { d := { cls := kH, dst := true }, a := { sBlock 2 with evenS := true }, b := sDst, c := { cls := kP + kPT, dst := true } }
  | 0xA1 => go z { d := { cls := kH, src := true, dst := true, valid := true } }
  | 0xA2 | 0xA4 => go z { d := { sDst with cls := kS + kNone }, a := handleR }
  | 0xA3 => go z { a := handleR, b := { cls := kS + kImm + kLit, bits := 64, src := true, tags := tagsAny } }
  | 0xA5 => go z { d := { cls := kP + kPT + kS, bits := 64, dst := true }, a := handleR,
                   b := { cls := kS + kImm + kLit, bits := 64, src := true, tags := tagsAny }, c := modeR (· ≤ 1) }
  | 0xA6 => go (if m ≤ 2 then y == 3 || y == 4 || y == 5 else y == 6)
      { d := sDst, a := handleR, b := { cls := kS + kImm + kLit, bits := 64, src := true, tags := tyTags y }, c := modeR (· ≤ 5) }
  | 0xA7 => go z { d := sDst, a := handleR, c := modeR (· ≤ 1) }
  | 0xA8 => go z { d := { cls := kH, dst := true }, a := sBlock 1 }
  | _ => none

/-- Rows Bx and Cx (R379). -/
def entryTask (op y : Nat) (f : Fields) : Option Entry :=
  let m := modeOf f
  let arg : Role := { cls := kS + kImm + kLit, bits := 64, src := true, tags := tagsAny }
  let vs64 : Role := { cls := kV + kS + kInd, bits := 64, dst := true }
  let red : Role := { cls := kS + kImm + kLit, src := true, tags := tags32, cst := fun k => decide (0 ≤ k ∧ k ≤ 15), lits := (· ≤ 15) }
  let go (g : Bool) (e : Entry) : Option Entry := if g then some e else none
  let z := y == 0
  match op with
  | 0xB0 => go z { a := addrR, b := arg }
  | 0xB1 => go z { a := addrR, b := { cls := kV + kInd, bits := 64, src := true, tags := tagsAny } }
  | 0xB2 => go z { a := addrR, b := arg, c := sBlock 3 }
  | 0xB3 | 0xB6 => go z {}
  | 0xB4 => go z { d := { cls := kV + kS, dst := true }, a := { idxR with cls := kV + kS + kImm + kLit, cst := fun k => decide (0 ≤ k ∧ k ≤ 16), lits := (· ≤ 16) } }
  | 0xB5 => go z { d := { vs64 with cls := kV + kS }, a := { sBlock 4 with cls := kS + kNone } }
  | 0xB7 => go (y == 2 || y == 3)
      { d := { cls := kV + kS + kInd, n := m, dst := true }, a := { idxR with cls := kV + kS + kImm + kLit + kInd },
        c := modeR (fun k => k == 1 || k == 2 || k == 4) }
  | 0xB8 => go z { d := vs64, a := addrR }
  | 0xB9 => go z { d := { vs64 with cls := kV + kS + kInd + kNone }, a := addrR, b := { cls := kV + kS + kInd, bits := 64, src := true, tags := tagsAny } }
  | 0xBA => go z { d := { cls := kV + kS + kInd, dst := true }, a := red, b := { idxR with cls := kV + kS + kImm + kLit + kInd } }
  | 0xBB => go z { a := red, b := { idxR with cls := kV + kS + kImm + kLit + kInd + kNone }, c := { cls := kV + kS + kImm + kLit + kInd, src := true, tags := tagsAll } }
  | 0xBC => go z { a := red }
  | 0xC0 => go z { d := sDst, a := addrR }
  | 0xC1 => go z { d := sDst, a := idR, b := addrR }
  | 0xC2 | 0xC3 => go z { d := sDst, a := idR, c := modeR (· ≤ 1) }
  | 0xC4 | 0xC5 => go z { d := sDst, a := idR, b := idxR, c := modeR (· ≤ 1) }
  | 0xC6 => go z { d := sDst, a := idR, b := idxR, c := idxR }
  | _ => none

/-- Rows Dx and Ex (R397). -/
def entryEng (op y : Nat) (f : Fields) : Option Entry :=
  let m := modeOf f
  let go (g : Bool) (e : Entry) : Option Entry := if g then some e else none
  let z := y == 0
  let rg (lo hi : Int) : Role := { cls := kImm, cst := fun k => decide (lo ≤ k ∧ k ≤ hi) }
  let rows := match f.c with | .imm k => k.toNat | _ => 0
  let first := match f.b with | .imm k => k.toNat | _ => 0
  match op with
  | 0xD0 => go z { a := sBlock 4 }
  | 0xD1 => go z { a := sBlock 8 }
  | 0xD2 => go z {}
  | 0xD3 => go z { a := rg 0 7 }
  | 0xD4 => go z { d := { cls := kV, n := 2 * rows, dst := true }, a := { cls := kAcc, src := true }, b := rg 0 63, c := rg 1 64, more := decide (first + rows ≤ 64) }
  | 0xD5 => go z { d := { cls := kAcc, dst := true }, a := { cls := kV, n := 2 * rows, src := true, tags := 0x8 }, b := rg 0 63, c := rg 1 64,
                   more := decide (first + rows ≤ 64) }
  | 0xD6 => go z { d := { cls := kAcc, dst := true } }
  | 0xD7 => go z { d := sDst, c := modeR (· ≤ 2) }
  | 0xE0 => go z { d := sDst, a := { cls := kS + kImm + kLit, bits := 64, src := true, tags := tagsAny }, b := addrR }
  | 0xE1 => go ((y ≤ 3) || (7 ≤ y && y ≤ 14))
      { d := { cls := kV, n := rows, dst := true }, a := addrR, b := { cls := kV, src := true, tags := tags32 }, c := rg 1 64 }
  | 0xE2 => go z { d := sDst, a := addrR, c := modeR (· ≤ 1) }
  | 0xE3 => go z { d := sDst, a := { cls := kS, bits := 64, src := true, tags := tagsAny } }
  | 0xE4 => go z { d := sDst, a := { addrR with cls := kS + kLit + kImm, cst := fun k => decide (k = 0) }, b := rg 0 15 }
  | 0xE5 => go z { d := sDst, a := { cls := kS + kImm + kLit, bits := 64, src := true, tags := tagsAny, cst := fun k => decide (0 ≤ k), lits := (· ≤ 511) },
                   c := modeR (· ≤ 2) }
  | _ => let _ := m; none

/-- Row Fx (R424). -/
def entrySys (op y : Nat) (f : Fields) : Option Entry :=
  let go (e : Entry) : Option Entry := if y = 0 then some e else none
  let _ := f
  match op with
  | 0xF0 => go { a := valueR, b := valueR, c := valueR }
  | 0xF1 => go { d := sDst, a := sysR, c := modeR (· ≤ 2) }
  | 0xF2 => go { d := sDst, a := numberR sysReadable }
  | 0xF3 => go { a := numberR sysWritable, b := sBlock 1 }
  | 0xF4 => go { a := sysR, b := sysR }
  | 0xF5 => go { a := sysR, b := sysR, c := { sysR with cls := kS + kLit + kNone } }
  | 0xF6 => go { d := sDst, a := sysR, b := { sysR with cls := kS + kLit + kNone } }
  | 0xF7 => go { d := sDst, a := sysR }
  | 0xF8 => go { d := sDst, a := sysR, c := modeR (· ≤ 1) }
  | 0xF9 => go { d := sDst, a := sysR, c := { cls := kP + kPT, dst := true } }
  | 0xFA => go {}
  | 0xFB => go { a := numberR (· ≤ 0xFFFF) }
  | 0xFC => go { d := { sDst with n := 10, dst := modeOf f != 2 }, a := sysR, c := modeR (· ≤ 2) }
  | _ => none

/-- The entry of an opcode at the type code and modes of its fields; none where the scanner rejects the type code or the
opcode is a non-instruction (R284). -/
def entryOf (op : Nat) (f : Fields) : Option Entry :=
  let y := f.ty.toNat
  if op < 0x20 then entryInt op y f
  else if op < 0x40 then entryCrew op y f
  else if op < 0x70 then entryFp op y f
  else if op < 0xB0 then entryMem op y f
  else if op < 0xD0 then entryTask op y f
  else if op < 0xF0 then entryEng op y f
  else entrySys op y f

/-- Table latency of an opcode, 0 for variable (R161). -/
def latency (op : Nat) : Nat :=
  if op = 0x07 ∨ op = 0x08 ∨ op = 0x61 ∨ 0x80 ≤ op then 0
  else if op ≤ 0x21 ∨ (0x30 ≤ op ∧ op ≤ 0x39) ∨ op = 0x62 ∨ op = 0x63 then 2
  else if 0x49 ≤ op ∧ op ≤ 0x51 then 8
  else if op ≤ 0x27 ∨ (0x40 ≤ op ∧ op ≤ 0x60) then 4
  else 0

/-- Does an operand meet its role (R132, R270 to R273)? -/
def opdOk (r : Role) (lit : Half) (o : Opd) : Bool :=
  let has (k : Nat) : Bool := (r.cls &&& k) != 0
  match o with
  | .v x => has kV && (if r.bits = 128 then x.toNat % 4 == 0 else if r.bits = 64 then x.toNat % 2 == 0 else true)
  | .ind _ _ => has kInd
  | .s x => has kS && (!(r.bits == 128 || r.evenS) || x.toNat % 2 == 0)
  | .p _ => has kP
  | .pt => has kPT
  | .m _ => has kM
  | .h _ => has kH
  | .acc _ => has kAcc
  | .spec x => has kSpec && (specWide x == (r.bits == 64))
  | .imm k => has kImm && r.cst k.toInt
  | .lit => has kLit && r.lits lit.toNat
  | .none => has kNone

/-- May a reuse bit be set for the operand (R276)? -/
def reuseOk (o : Opd) : Bool :=
  match o with
  | .v _ => true
  | .s _ => true
  | _ => false

/-- The limits of the instruction's own entry (R85, check 8), with the field limits of R269 and R275. -/
def entryOk (op : Nat) (f : Fields) : Bool :=
  match entryOf op f with
  | none => false
  | some e =>
    e.more && e.ords.contains f.ord.toNat && e.auxs.contains f.aux.toNat && (f.ord != 0 || f.sc == 0) &&
    opdOk e.d f.lit f.d && opdOk e.a f.lit f.a && opdOk e.b f.lit f.b && opdOk e.c f.lit f.c &&
    (!f.reuse.getLsbD 2 || reuseOk f.a) && (!f.reuse.getLsbD 1 || reuseOk f.b) && (!f.reuse.getLsbD 0 || reuseOk f.c)


end Sys2Proof.Machine
end

