-- ==== Sys2Proof/Machine/Cap.lean ====
section
/-! DEFINITION. The capability table as ROM holds it, its signature and the device's (R20, R22 to R24, R27, R127, R161). -/

namespace Sys2Proof.Machine

/-! ### Units of a part (R27) -/

/-- Is unit i present by a mask of which every run of `per` units keeps at least `least`? A mask that would leave fewer describes no part that is
shipped. [DESIGN CHOICE, assumption log 4] -/
def unitOn (mask per least i : Nat) : Bool :=
  bit mask i || decide (((List.range per).filter (fun j => bit mask (i / per * per + j))).length < least)

def coreOn (c : Nat) : Bool := unitOn Config.coreMask.toNat 40 36 c
def sliceOn (d h : Nat) : Bool := unitOn Config.sliceMask.toNat 32 30 (32 * d + h)
/-- Stack 0 is present, and at most one die lacks a stack. [DESIGN CHOICE, assumption log 4] -/
def stackOn (s : Nat) : Bool :=
  let mask := Config.stackMask.toNat
  s == 0 || bit mask s || decide (1 < ((List.range 8).filter (fun d => !((d == 0 || bit mask (2 * d)) && bit mask (2 * d + 1)))).length)

/-- The slice of a die that a hash value names: itself when present, else the present slice that the part's map gives (R27, R180). [DEDUCED, assumption log 32] -/
def sliceOf (d h : Nat) : Nat :=
  if sliceOn d h then h
  else
    let v := Config.sliceHash d h % 32
    (((List.range 32).map (fun k => (v + k) % 32)).find? (sliceOn d)).getD h

/-! ### The entries (R23). The places of fields that the rule only names are PRESUMED (assumption log 32) -/

/-- A mask of n units as bytes. -/
def maskBytes (n : Nat) (f : Nat → Bool) : List Byte :=
  (List.range ((n + 7) / 8)).map (fun k => BitVec.ofNat 8 ((List.range 8).foldl (fun t j => t + b2n (f (8 * k + j)) * 2 ^ j) 0))

/-- The published queue depths (R127). -/
def depthsEntry : List Byte :=
  ([64, 4096, 65535, 512, 32768, 2048, 16384, 256, 4096, 16, 32, 8192, 4096, 24, 8, 0] : List Nat).flatMap (toBytes 2)

/-- The latency table (R161): byte i is the table latency of opcode i. -/
def latencyEntry : List Byte := (List.range 256).map (fun i => BitVec.ofNat 8 (latency i))

/-- The value of each ROM entry before the signature. [PRESUMED, assumption log 32] -/
def capValues : List (Nat × List Byte) :=
  [(1, toBytes 4 Config.partNumber.toNat ++ toBytes 2 Config.stepping.toNat ++ toBytes 16 Config.serial.toNat),
   (2, [1800000, 1800000, 1800000].flatMap (toBytes 4)),
   (3, maskBytes 320 coreOn ++ maskBytes 16 (fun _ => true) ++ (List.range 8).flatMap (fun d => maskBytes 32 (sliceOn d)) ++ maskBytes 16 stackOn ++
       toBytes 2 Config.portMask.toNat ++ toBytes 1 Config.linkMask.toNat),
   (4, depthsEntry),
   (5, latencyEntry),
   (6, [1000, 35, 24, 20, 4, 6].flatMap (toBytes 2)),
   (7, (Config.monList.take 16384).flatMap (fun e => toBytes 1 e.1 ++ toBytes 1 e.2)),
   (8, (List.range 8).flatMap (fun d => (List.range 32).map (fun h => BitVec.ofNat 8 (sliceOf d h))))]

/-- An entry: type, length, value, and zeros to a multiple of 8 bytes. -/
def capEntry (ty : Nat) (v : List Byte) : List Byte :=
  toBytes 2 ty ++ toBytes 2 v.length ++ v ++ List.replicate ((v.length + 11) / 8 * 8 - (v.length + 4)) 0

/-- The entries that the signature covers. -/
def capBody : List Byte := capValues.flatMap (fun e => capEntry e.1 e.2)

/-- The header (R22): `MAGIC`, `VER`, `NENT`, `LEN`, `SIGOFF`, zeros. -/
def capHead (nent len sigoff : Nat) : List Byte :=
  toBytes 4 0x43415047 ++ toBytes 2 1 ++ toBytes 2 nent ++ toBytes 4 len ++ toBytes 4 sigoff ++ List.replicate 16 0

/-- The capability table in ROM: nine entries, the signature last. [PRESUMED, assumption log 32] -/
def capTable : List Byte :=
  let off := 32 + capBody.length
  capHead 9 (off + 104) off ++ capBody ++ capEntry 0xFFFF (toBytesBE 48 Config.capSign.1.toNat ++ toBytesBE 48 Config.capSign.2.toNat)

/-! ### Signatures (R20, R24) -/

/-- The counts that end at the signature entry: entries, and bytes, from an offset up to the signature's. -/
def capCounts : Nat → List Byte → Nat → Nat → Nat → Nat × Nat
  | 0, _, _, n, o => (n, o)
  | k + 1, l, sig, n, o =>
    let size := (fld l (o + 2) 2 + 11) / 8 * 8
    if sig ≤ o then (n + 1, o + size) else capCounts k l sig (n + 1) (o + size)

/-- Does a table's signature verify under a key? `NENT` and `LEN` are restored first (R24). -/
def capVerify (key : Nat × Nat) (t : List Byte) : Bool :=
  let sig := fld t 12 4
  let c := capCounts (fld t 6 2) t sig 0 32
  let msg := slice (splice (splice t 6 (toBytes 2 c.1)) 8 (toBytes 4 c.2)) 0 sig
  ecdsaOk key (ofBytesBE (sha384 msg)) (ofBytesBE (slice t (sig + 4) 48)) (ofBytesBE (slice t (sig + 52) 48))

/-- Whether the ROM's table verifies under the Dravsal part key. -/
def capSignatureOk : Bool := capVerify (Config.partKey.1.toNat, Config.partKey.2.toNat) capTable

/-- The digest of the part key that is fused into every part (R24); the encoding of the key is PRESUMED, its two coordinates (assumption log 32). -/
def partKeyDigest : List Byte := sha384 (toBytesBE 48 Config.partKey.1.toNat ++ toBytesBE 48 Config.partKey.2.toNat)

/-- Measurement slot 0 (R19). -/
def romDigest : List Byte := toBytesBE 48 Config.romDigest.toNat

/-- A number below n - 1 made a number from 1 to n - 1. -/
def scalar (x : Nat) : Nat := x % (n384 - 1) + 1

/-- The device identity key's signature over a message: r and s, each 48 bytes big-endian (R20). [PRESUMED, assumption log 5] -/
def deviceSign (l : List Byte) : List Byte :=
  let rs := ecdsaSign (scalar Config.deviceKey.toNat) (scalar (Config.signNonce l).toNat) (ofBytesBE (sha384 l))
  toBytesBE 48 rs.1 ++ toBytesBE 48 rs.2

end Sys2Proof.Machine
end

