-- ==== Sys2Proof/Machine/Ped.lean ====
section
/-! DEFINITION. Pedigrees, their order and digest, and the random generator (R373 to R377). -/

namespace Sys2Proof.Machine

/-- `DEPTH` (R373). -/
def pedDepth (p : Ped) : Nat := bits p.toNat 255 252
/-- `HFLAG`. -/
def pedH (p : Ped) : Bool := bit p.toNat 251
/-- `ROOT`. -/
def pedRoot (p : Ped) : Nat := bits p.toNat 247 240
/-- Entry Ej, 0 for j outside 1 to 15. -/
def pedEntry (p : Ped) (j : Nat) : Nat := if j = 0 ∨ 15 < j then 0 else bits p.toNat (255 - 16 * j) (240 - 16 * j)
/-- Epoch and step of an entry. -/
def entEpoch (e : Nat) : Nat := e / 1024
def entStep (e : Nat) : Nat := e % 1024
/-- The task's own point Ed. -/
def pedOwn (p : Ped) : Nat := pedEntry p (pedDepth p)

/-- Replace entry Ej. -/
def pedSetEntry (p : Ped) (j e : Nat) : Ped :=
  BitVec.ofNat 256 (p.toNat - pedEntry p j * 2 ^ (240 - 16 * j) + e * 2 ^ (240 - 16 * j))

/-- Header and entries as a pedigree. -/
def pedMake (depth : Nat) (h r : Bool) (root : Nat) (es : List Nat) : Ped :=
  BitVec.ofNat 256 (depth * 2 ^ 252 + b2n h * 2 ^ 251 + b2n r * 2 ^ 250 + root % 256 * 2 ^ 240 +
    (List.range 15).foldl (fun t j => t + es.getD j 0 * 2 ^ (240 - 16 * (j + 1))) 0)

/-- The pedigree of a root (R90). -/
def pedOfRoot (root : Nat) : Ped := pedMake 1 false false root []
/-- The pedigree of a handler task (R256). -/
def pedOfHandler (root : Nat) : Ped := pedMake 1 true false root []

/-- The child's pedigree at a spawn (R374): one level deeper, its own point (0, 0). -/
def pedChild (p : Ped) : Ped := BitVec.ofNat 256 (p.toNat + 2 ^ 252)
/-- The parent's pedigree after a spawn: one step further. -/
def pedStep (p : Ped) : Ped := BitVec.ofNat 256 (p.toNat + 2 ^ (240 - 16 * pedDepth p))
/-- The pedigree after a join: the next epoch, step 0. -/
def pedJoin (p : Ped) : Ped := pedSetEntry p (pedDepth p) ((entEpoch (pedOwn p) + 1) * 1024)

/-- Word n of a pedigree (`%ped`n). -/
def pedWord (p : Ped) (n : Nat) : Word := BitVec.ofNat 64 (p.toNat / 2 ^ (64 * n))

/-- One step of the digest (R376). -/
def digStep (h w : Word) : Word :=
  let x := (h ^^^ w) * 0xBF58476D1CE4E5B9
  x ^^^ (x >>> 31)

/-- The digest of a pedigree (R376). -/
def pdig (p : Ped) : Word :=
  digStep (digStep (digStep (digStep 0x9E3779B97F4A7C15 (pedWord p 3)) (pedWord p 2)) (pedWord p 1)) (pedWord p 0)

/-- The pedigree that `preroot` makes (R383). -/
def pedReroot (p : Ped) : Ped :=
  let g := (pdig p).toNat
  pedMake 5 (pedH p) true (pedRoot p) [bits g 63 48, bits g 47 32, bits g 31 16, bits g 15 0]

inductive PedOrd where
  | before | after | same | unordered
  deriving DecidableEq, Repr

/-- The first index in 1 to n at which two pedigrees differ, n when there is none. -/
def pedDiff (x y : Ped) (n : Nat) : Nat :=
  ((List.range n).map (· + 1)).find? (fun j => pedEntry x j != pedEntry y j) |>.getD n

/-- PedOrder of two strands of one launch (R375). -/
def pedOrder (x y : Ped) : PedOrd :=
  if pedRoot x ≠ pedRoot y then .unordered
  else if pedH x != pedH y then (if pedH x then .after else .before)
  else
    let dx := pedDepth x
    let dy := pedDepth y
    let n := min dx dy
    let i := pedDiff x y n
    let a := pedEntry x i
    let b := pedEntry y i
    let ea := entEpoch a
    let eb := entEpoch b
    if i < n then (if ea < eb then .before else if eb < ea then .after else .unordered)
    else if dx < dy then
      (if ea < eb ∨ (ea = eb ∧ entStep a ≤ entStep b) then .before else if eb < ea then .after else .unordered)
    else if dy < dx then
      (if eb < ea ∨ (ea = eb ∧ entStep b ≤ entStep a) then .after else if ea < eb then .before else .unordered)
    else if a = b then .same
    else if a < b then .before else .after

/-- The ten rounds of Philox-4x32 (R377). -/
def philoxRounds : Nat → Nat → Nat → (Nat × Nat × Nat × Nat) → Nat × Nat × Nat × Nat
  | 0, _, _, x => x
  | n + 1, k0, k1, (x0, x1, x2, x3) =>
    let p := 0xD2511F53 * x0
    let q := 0xCD9E8D57 * x2
    philoxRounds n ((k0 + 0x9E3779B9) % 2 ^ 32) ((k1 + 0xBB67AE85) % 2 ^ 32)
      ((q / 2 ^ 32 ^^^ x1) ^^^ k0, q % 2 ^ 32, (p / 2 ^ 32 ^^^ x3) ^^^ k1, p % 2 ^ 32)

/-- Philox(key, c0, c1, c2, c3), its four output words (R377). -/
def philox (key c0 c1 c2 c3 : Nat) : List Nat :=
  let (x0, x1, x2, x3) := philoxRounds 10 (key % 2 ^ 32) (key / 2 ^ 32 % 2 ^ 32) (c0 % 2 ^ 32, c1 % 2 ^ 32, c2 % 2 ^ 32, c3 % 2 ^ 32)
  [x0, x1, x2, x3]

end Sys2Proof.Machine
end

