-- ==== Sys2Proof/Machine/State.lean ====
section
/-! DEFINITION. The state of the G320 as plain data: crews, cores, dies, the module's memory and tables, jobs and launches, the host's and
the links' registers, and which agent moves next. The rules that name each piece stand beside it; reset is `State.reset`. -/

namespace Sys2Proof.Machine

/-- Why the machine stops. -/
inductive Fault where
  /-- Raised by the step that fetches a word which the executable scan (R85) would have refused. The decoder never meets one (R87), so
  the spec gives it no effect. Safe: the machine stops where the spec promises nothing. -/
  | unscannedWord
  /-- Raised by `exec` for an instruction when the current crew is not ready to issue. Safe: no agent issues it. -/
  | notReady
  deriving DecidableEq, Repr

/-- Why an instruction has no meaning. -/
inductive Refusal where
  /-- Raised by the dispatcher for an instruction whose meaning is not written. Safe: the machine stops. -/
  | notModelled (mnemonic : String)
  deriving DecidableEq, Repr

/-! ### Traps -/

/-- What a trap record carries beside the crew's own state (R251, R253). -/
structure Exc where
  code   : Nat
  /-- the lane reported, when the trap is a lane's -/
  lane   : Option Nat
  info0  : Word
  info1  : Word
  info2  : Word
  info3  : Word
  /-- raised at a commit point (R203) -/
  commit : Bool
  /-- address the trap is attributed to -/
  pc     : Word
  /-- detected after the instruction's issue (R250) -/
  late   : Bool
  deriving DecidableEq, Repr

/-- Why a crew is stalled before an instruction has any effect (R263). -/
inductive Stall where
  | scoreboard | channel | batch | lee | cell | view | hostLine | arrival | tickets | window | replay | seqWait | engine | queue | aperture | way | specWay
  deriving DecidableEq, Repr

/-! ### Reducers and children (R388 to R391) -/

/-- A reducer element: an integer or bit pattern, for `add.f32x` the exact sum in units of 2^-149 with its three flags. -/
structure Elem where
  i    : Int
  pinf : Bool
  ninf : Bool
  nan  : Bool
  deriving DecidableEq, Repr

/-- A view of one reducer: the elements that differ from the identity, or the records of an `append`. -/
structure RView where
  elems : List (Nat × Elem)
  recs  : List (List Byte)
  deriving DecidableEq, Repr

/-- A child of the current epoch (R382): the segment it was spawned after, whether it has ended, and its final views. -/
structure Kid where
  tid   : Nat
  seg   : Nat
  ended : Bool
  views : List (Nat × RView)
  deriving DecidableEq, Repr

/-! ### Task declarations and records -/

/-- A recorded task declaration (R285). -/
structure Decl where
  addr    : Nat
  entry   : Nat
  width   : Nat
  chk     : Bool
  hdlr    : Bool
  vregs   : Nat
  sregs   : Nat
  handles : Nat
  masks   : Nat
  accs    : Nat
  aff     : Nat
  hdecl   : Nat
  redmap  : Nat
  piped   : Nat
  deriving DecidableEq, Repr

inductive TaskKind where
  | root | spawned | dataflow | stage
  deriving DecidableEq, Repr

/-- A task record (R90); `tid` names the task and `parent` the task that waits for it (0: none). -/
structure TaskRec where
  tid    : Nat
  parent : Nat
  ped    : Ped
  decl   : Nat
  arg    : Word
  launch : Nat
  aff    : Nat
  kind   : TaskKind
  stage  : Nat
  cls    : Nat
  /-- IN0 to IN3, OUT0, OUT1 -/
  cells  : List Half
  /-- re-root key that its strands inherit (R208) -/
  rrk    : Half
  /-- cycle at which it entered its FIFO (R125) -/
  enq    : Nat
  deriving DecidableEq, Repr

/-! ### Crews -/

/-- The old contents that a fixed-latency result replaced (R163). -/
inductive Saved where
  | v (r : Nat) (row : List (Nat × Half)) (tag : Tag)
  | s (r : Nat) (x : Word) (tag : Tag)
  | p (r : Nat) (x : Mask)
  | m (r : Nat) (x : Word)
  deriving DecidableEq, Repr

/-- A fixed-latency result that a consumer may still read too early (R162). -/
structure Pend where
  pc    : Word
  lat   : Nat
  dist  : Nat
  /-- the lanes of the register that it produces: all for an `s` or `m` register -/
  lanes : Mask
  saved : Saved
  deriving DecidableEq, Repr

/-- A speculative line of an open segment (R201). -/
structure SpecLine where
  va    : Nat
  pa    : Nat
  bytes : List (Nat × Byte)
  pc    : Word
  /-- the key treatment it was written under (R203) -/
  treat : Nat
  deriving DecidableEq, Repr

inductive JoinKind where
  | join | preroot | rfin (r : Nat) (pc : Word) (active : Mask) | taskEnd
  deriving DecidableEq, Repr

/-- What a sync-group wait writes when its phase completes (R368, R369). -/
inductive GroupAct where
  | wait
  | bar (d : Opd)
  | vote (d : Opd) (all : Bool)
  | red (d : Opd) (mode y : Nat)
  deriving DecidableEq, Repr

/-- The conditions a crew parks on (R116). -/
inductive Wait where
  | join (k : JoinKind)
  | cell (die cell : Nat) (full : Bool)
  | monitor
  | group (g : Nat) (phase : Word) (act : GroupAct) (lanes : Mask)
  | coll (ticket : Nat) (d : Opd)
  deriving DecidableEq, Repr

/-- Where a crew stands (R95, R96, R116 to R118, R256). -/
inductive Status where
  | ready
  | parked (w : Wait) (since : Nat)
  | polling (w : Wait) (next : Nat)
  /-- an `eret` may name its record: launch handle and record address, or the Lennas log entry of a die -/
  | trapped (recAddr : Nat)
  | halted
  | ended
  deriving DecidableEq, Repr

/-- A pre-emption request for a crew (R79, R80, R125). -/
structure PreReq where
  cycle    : Nat
  deadline : Nat
  /-- the record that asks, and its class -/
  byTid    : Nat
  byCls    : Nat
  deriving DecidableEq, Repr

/-- The crew's monitor (R359). -/
structure Monitor where
  armed : Bool
  addr  : Word
  line  : Nat
  fired : Bool
  deriving DecidableEq, Repr

/-- A batch of matrix steps (R406). -/
structure Batch where
  id    : Nat
  steps : Nat
  left  : Nat
  deriving DecidableEq, Repr

/-- An `mldb` of the crew: its macro set and its descriptor (R159, R400). -/
structure Load where
  id     : Nat
  mfirst : Nat
  nmac   : Nat
  desc   : List Byte
  deriving DecidableEq, Repr

/-- A collective of the crew (R418, R420): the status once it has completed. -/
structure Ticket where
  id       : Nat
  job      : Nat
  key      : Word
  status   : Option Nat
  consumed : Bool
  deriving DecidableEq, Repr

/-- An aperture read, atomic or `cas` whose completion has not come (R39, R40). -/
structure ApReq where
  pc    : Word
  va    : Word
  kind  : Nat
  d     : Opd
  y     : Nat
  /-- lanes to be written, each with the place of its access in the completion's data -/
  lanes : List (Nat × Nat)
  size  : Nat
  since : Nat
  /-- bits [63:56] of the leaf that translated it (R253) -/
  leaf  : Nat
  deriving DecidableEq, Repr

/-- Accesses of a crew that wait at the homes of lines which engines hold: the physical lines, and the number of the first engine operation that was
issued after them and so comes behind them (R184, R242). -/
structure AtHome where
  lines : List Nat
  op    : Nat
  deriving DecidableEq, Repr

/-- A crew with its context image (R143 to R146) and the rest of its task's state. A pair of width 64 is one crew (R156). -/
structure Crew where
  tid      : Nat
  parent   : Nat
  launch   : Nat
  /-- the handle of that launch (R69), `%launch` -/
  hnd      : Nat
  job      : Nat
  cls      : Nat
  aff      : Nat
  core     : Nat
  /-- slots held: none when switched out, two for a pair -/
  slots    : List Nat
  status   : Status
  stall    : Option Stall
  decl     : Decl
  kind     : TaskKind
  cells    : List Half
  arg      : Word
  /-- PC of each lane -/
  pcs      : List Word
  live     : Mask
  waiting  : Mask
  /-- key 64 x register + lane -/
  v        : List (Nat × Half)
  vtag     : List (Nat × Tag)
  s        : List (Nat × Word)
  stag     : List (Nat × Tag)
  p        : List (Nat × Mask)
  m        : List (Nat × Word)
  h        : List (Nat × Word)
  /-- key 4096 x accumulator + 64 x row + column -/
  acc      : List (Nat × Half)
  ped      : Ped
  /-- the pedigree with which the task started (`%task`) -/
  ped0     : Ped
  aseq     : Word
  draw     : Half
  /-- sticky flags `CREWCTL`[12:8]: NX UF OF DZ NV, and `CHK` (R146) -/
  flags    : BitVec 5
  chk      : Bool
  /-- `IMGBASE` and, for a pair, the second image (R144, R156) -/
  imgBase  : Nat
  pairBase : Nat
  accSave  : Nat
  /-- tiles of its core hold its accumulators, evictable ones when it is switched out (R158) -/
  tiles    : Bool
  monitor  : Monitor
  pend     : List Pend
  seg      : List SpecLine
  hardened : Bool
  /-- lines of the open segment that a `KEYCLR` has dropped (R56, R249) -/
  keyDrop  : Nat
  sid      : BitVec 24
  lseq     : BitVec 16
  rrk      : Half
  kids     : List Kid
  /-- number of spawns of the epoch: the current segment of R391 -/
  kseg     : Nat
  eddies   : List (Nat × RView)
  merged   : List (Nat × RView)
  boostLeft : Nat
  boostAt  : Nat
  demoted  : Bool
  stamp    : Nat
  pre      : Option PreReq
  /-- switched out by a pre-emption that still stands: its request -/
  preBy    : Option PreReq
  /-- cycle at which it became resumable, and whether it has -/
  resAt    : Nat
  resumable : Bool
  /-- stopped, and holding its slots until its aperture access and its matrix steps are done (R262) -/
  leaving  : Bool
  openB    : Option Batch
  closedB  : List Batch
  loads    : List Load
  tickets  : List Ticket
  leeHeld  : Nat
  ap       : Option ApReq
  /-- a trap detected after issue and not yet delivered (R250) -/
  late     : Option Exc
  /-- ended by an `eret` of END: it waits for its children and its views are dropped (R257) -/
  dropped  : Bool
  /-- headers whose out-of-page `RECONV` target has been read, each with the target (R281) -/
  reconvOk : List (Nat × Nat)
  /-- `msync` sites with waiting lanes: address, `m` register, length of the instruction (R313) -/
  syncs    : List (Word × Nat × Nat)
  /-- records that the spawn, or lanes that the store, at which the crew is stalled has already placed (R93, R100, R114, R354, R380) -/
  placed   : Nat
  /-- `v` registers into which a gather delivered an uncorrected error, with the physical line (R416) -/
  poison   : List (Nat × Nat)
  /-- the cycle before which its stall count keeps it from issuing (R120, R275) -/
  holdTo   : Nat
  /-- an event has ended the wait for which it is parked (R117) -/
  woken    : Bool
  /-- the versions V that a load stalled under WAIT read first: by die, master and block packed as 2^40, 2^30 and 1 (R225) -/
  viewWait : List (Nat × Nat)
  /-- since when it waits before its instruction, and its place at the homes of lines that engines hold (R242) -/
  waitAt   : Nat
  atHome   : AtHome
  deriving DecidableEq, Repr

/-! ### Translation -/

/-- A TLB entry (R174): the leaf, and whether it was filled for a write (R172). -/
structure TlbEnt where
  job  : Nat
  base : Nat
  n    : Nat
  leaf : BitVec 128
  wr   : Bool
  deriving DecidableEq, Repr

structure Tlb where
  ents : List TlbEnt
  lfsr : BitVec 16
  deriving DecidableEq, Repr

/-! ### Cores -/

/-- A K-group of eight B elements as block integers (R400, R404). -/
structure BGroup where
  bad : Bool
  q   : List Int
  e   : Int
  deriving DecidableEq, Repr

/-- A CIM macro: the load that owns it, and its error mark (R159, R400). -/
structure Macro where
  tid  : Nat
  load : Nat
  mark : Option Nat
  deriving DecidableEq, Repr

/-- A completed `mldb`: its groups, keyed by 16 x column + group (R399). -/
structure MData where
  load   : Nat
  groups : List (Nat × BGroup)
  deriving DecidableEq, Repr

/-- An operation of the sequencer (R403). -/
inductive SeqOp where
  | load (tid id : Nat) (pc : Word) (desc : List Byte)
  /-- `old`: registers that the step's window reads as they were before a result that it came too early for (R163) -/
  | step (tid load batch id : Nat) (old : List Saved) (pb : List Byte) (started : Bool)
  deriving DecidableEq, Repr

/-- What a range-scoreboard entry covers (R160, R243). -/
inductive SbRange where
  | mem (job lo len : Nat)
  | win (tid first n : Nat)
  /-- a tile cell of a launch -/
  | cell (launch die cell : Nat)
  deriving DecidableEq, Repr

structure SbEnt where
  id    : Nat
  /-- the crew that issued the command -/
  tid   : Nat
  pc    : Word
  /-- true: the command reads it; false: the command writes it -/
  src   : Bool
  range : SbRange
  deriving DecidableEq, Repr

/-- A word that a gather fetches: where it stands, the address that named it and the key treatment under which it was checked (R56, R416). -/
structure GWord where
  pa    : Nat
  va    : Nat
  treat : Nat
  deriving DecidableEq, Repr

/-- A gather in flight (R416). -/
structure Gath where
  id    : Nat
  tid   : Nat
  pc    : Word
  first : Nat
  n     : Nat
  tag   : Tag
  /-- lanes, each with the words of its row -/
  rows  : List (Nat × List GWord)
  /-- the first address of it in the host's memory, and bits [63:56] of the leaf that translated it -/
  base  : Word
  leaf  : Nat
  deriving DecidableEq, Repr

/-- A pipeline item a core has sent and not had acknowledged (R113, R114). -/
structure StageItem where
  launch : Nat
  ring   : Nat
  seq    : Nat
  task   : TaskRec
  nacked : Bool
  accepted : Bool
  deriving DecidableEq, Repr

structure Fwd where
  tid   : Nat
  core  : Nat
  since : Nat
  deriving DecidableEq, Repr

/-- The landing binding of a core (R421). -/
structure Landing where
  base : Word
  hnd  : Nat
  tid  : Nat
  deriving DecidableEq, Repr

structure Core where
  id      : Nat
  /-- oldest first: overflow, spill and on-chip parts in one sequence (R99, R100) -/
  deque   : List TaskRec
  /-- records of it in the overflow area, and in the spill area -/
  dqOvf   : Nat
  dqSpill : Nat
  segPtr  : Nat
  /-- next place of the victim sequence, consecutive empty answers, requests outstanding (R102) -/
  victim  : Nat
  empties : Nat
  asked   : List Nat
  backoff : Option Nat
  /-- (launch, stage) assignments, in the order the launches started (R112) -/
  assign  : List (Nat × Nat)
  /-- stage tasks that it still runs for a launch whose governor has moved it: (launch, task) (R115) -/
  moving  : List (Nat × Nat)
  window  : List StageItem
  seqs    : List (Nat × Nat)
  /-- when the unacknowledged items of a ring go out again: key 8 x launch + ring (R114) -/
  resendAt : List (Nat × Nat)
  fwd     : List Fwd
  macros  : List (Nat × Macro)
  mdata   : List MData
  seqq    : List SeqOp
  sb      : List SbEnt
  gaths   : List Gath
  fenced  : Nat
  landing : Option Landing
  /-- cycle from which a port takes instructions again: integer 0, vector 1, special-function 2, permute 3 (R130) -/
  ports   : List (Nat × Nat)
  landed  : List (Nat × Nat)
  l1      : Tlb
  /-- control-core registers (R428) -/
  jobsel  : Word
  keydata : List (Nat × Word)
  keystat : Word
  rsdata  : List (Nat × Word)
  pendWake : Bool
  deriving DecidableEq, Repr

/-! ### Dies -/

/-- A copy command (R413): its own copy of the template. -/
structure Cmd where
  seq     : Nat
  op      : Nat
  job     : Nat
  launch  : Nat
  tid     : Nat
  core    : Nat
  pc      : Word
  tmpl    : List Byte
  arg     : Nat
  /-- 0 queued, 1 copied and waiting to write its stamp -/
  started : Bool
  err     : Bool
  /-- receivers still to be signalled, peer frames still to be acknowledged -/
  signals : List Nat
  deriving DecidableEq, Repr

structure Chan where
  queue    : List Cmd
  accepted : Nat
  stamped  : Nat
  deriving DecidableEq, Repr

/-- A view of a master (R220): the recorded versions of computed blocks. -/
structure View where
  idx     : Nat
  dbase   : Nat
  sbase   : Nat
  format  : Nat
  layout  : Nat
  pol     : Nat
  die     : Nat
  clip    : Nat
  recs    : List (Nat × Nat)
  faulted : Bool
  deriving DecidableEq, Repr

structure Master where
  idx      : Nat
  job      : Nat
  base     : Nat
  nblk     : Nat
  bf16     : Bool
  square   : Bool
  /-- the frames of its pages as they stood at `vwreg`: physical start, length, offset in the master -/
  pages    : List (Nat × Nat × Nat)
  versions : List (Nat × Nat)
  views    : List View
  faulted  : Bool
  deriving DecidableEq, Repr

/-- A tile cell of a launch (R193). -/
structure Cell where
  launch : Nat
  cell   : Nat
  full   : Bool
  /-- the dataflow task that claims it -/
  claim  : Option Nat
  pins   : List Nat
  bytes  : List (Nat × Byte)
  /-- stalled fillers and drainers, in arrival order: crew, and whether it drains -/
  queue  : List (Nat × Bool)
  deriving DecidableEq, Repr

/-- A request for units of lee leave (R28, R29). -/
structure LeeReq where
  tid   : Nat
  core  : Nat
  cls   : Nat
  units : Nat
  /-- of a grant: the crew whose held units the operation draws on, and how many (R437) -/
  own   : Nat := 0
  drawn : Nat := 0
  /-- of a waiting request: the cycle in which it was made (R31) -/
  since : Nat := 0
  deriving DecidableEq, Repr

structure Lee where
  budget  : Nat
  /-- units granted to steps, by core and operation id -/
  grants  : List LeeReq
  waiting : List LeeReq
  granted : List LeeReq
  deriving DecidableEq, Repr

/-- A record in the Lennas log of a die (R252, R260): the trap record's bytes and the task it stopped. -/
structure LogEnt where
  tid      : Nat
  record   : List Byte
  answered : Bool
  deriving DecidableEq, Repr

structure Die where
  id     : Nat
  /-- key 32 x class + segment -/
  queues : List (Nat × List TaskRec)
  /-- the records of a segment that lie in its overflow area, oldest first (R93) -/
  segOvf : List (Nat × List Nat)
  pending : List (Nat × List TaskRec)
  prePtr : Nat
  /-- the best record of the queue and the cycle since which it has been the best (R125); 0: none -/
  best   : Nat × Nat
  lee    : Lee
  chans  : List (Nat × Chan)
  masters : List Master
  dirty  : List (Nat × Nat)
  tlb    : Tlb
  cells  : List Cell
  /-- L2 ways set aside, by launch (R191) -/
  ways   : List (Nat × Nat)
  log    : List LogEnt
  rx     : List (List Byte)
  linkFull : Bool
  deriving DecidableEq, Repr

/-! ### Jobs, graphs and launches -/

/-- An entry of a reducer map (R388). -/
structure RedEnt where
  result : Nat
  nelem  : Nat
  kind   : Nat
  auto   : Bool
  reclen : Nat
  deriving DecidableEq, Repr

/-- A stage of a pipeline launch (R109). -/
structure Stage where
  decl   : Nat
  ring   : Nat
  hi     : Nat
  lo     : Nat
  die    : Nat
  minc   : Nat
  maxc   : Nat
  /-- items, oldest first -/
  items  : List TaskRec
  /-- items that sit in borrowed slots -/
  borrowed : List Nat
  /-- next expected sequence number of each sending core (R113) -/
  expect : List (Nat × Nat)
  deriving DecidableEq, Repr

/-- An entry of a launch's trap area in use (R252). -/
structure TrapEnt where
  idx      : Nat
  tid      : Nat
  handler  : Nat
  answered : Bool
  deriving DecidableEq, Repr

/-- A strand-table entry (R208). -/
structure Strand where
  ped  : Ped
  rrk  : Half
  lseq : BitVec 16
  deriving DecidableEq, Repr

structure Launch where
  /-- its number in the module, by which the model knows it -/
  handle  : Nat
  /-- its object handle (R69) -/
  hnd     : Nat
  lsn     : Nat
  job     : Nat
  counter : Nat
  started : Bool
  done    : Bool
  cancelled : Bool
  /-- graph node that started it, or the launch that issued it -/
  node    : Option Nat
  issuer  : Option Nat
  /-- the crew whose `launch` instruction made it (0: none), and how many of its roots have been queued (R93) -/
  byTid   : Nat
  queued  : Nat
  declAddr : Nat
  nroot   : Nat
  affbase : Nat
  tile    : Nat
  seed    : Word
  decl    : Option Decl
  /-- launch-table entry (R210) -/
  iped    : Ped
  plsn    : Nat
  irrk    : Half
  ilseq   : BitVec 16
  /-- BTE templates (R412) -/
  tmpls   : List (Nat × List Byte)
  nextSid : Nat
  strands : List (Nat × Strand)
  trapBase : Nat
  trapSeq : Nat
  traps   : List TrapEnt
  reds    : List RedEnt
  /-- final views of ended roots: key 16 x root + reducer -/
  rootViews : List (Nat × RView)
  stages  : List Stage
  pool    : Nat
  backoffC : Nat
  govint  : Nat
  govAt   : Nat
  deriving DecidableEq, Repr

/-- A graph node record (R67). -/
structure Node where
  cond    : Bool
  addr    : Nat
  nroot   : Nat
  affbase : Nat
  tile    : Nat
  seed    : Word
  hints   : Nat
  succ    : List Nat
  deriving DecidableEq, Repr

/-- Where a node stands (R71); `failed`: a condition node whose read met a fault, for which the graph is still to be cancelled (R72). -/
inductive NodeState where
  | waiting | running | failed | taken (succ : Option Nat) | notTaken
  deriving DecidableEq, Repr

structure Phase where
  repeats : Nat
  nodes  : List Node
  deriving DecidableEq, Repr

/-- A demand-paged region of a job (R260). -/
structure Region where
  base : Nat
  len  : Nat
  deriving DecidableEq, Repr

/-- A loaded segment's page range (R82). -/
structure Seg where
  base : Nat
  len  : Nat
  x    : Bool
  w    : Bool
  /-- index of its code object in the image that brought it -/
  obj  : Nat
  deriving DecidableEq, Repr

structure Job where
  id      : Nat
  cls     : Nat
  keys    : List Nat
  ydl     : Nat
  ckpt    : Nat
  domain  : Option Nat
  ptallow : Bool
  /-- none: the mailbox; else (domain, module) of the peer -/
  submitter : Option (Nat × Nat)
  handle  : Nat
  ptroot  : Word
  shvbase : Word
  phases  : List Phase
  /-- index of the current phase record, runs of it done, number of the phase run -/
  phase   : Nat
  runs    : Nat
  phaseNo : Nat
  /-- job completion counter -/
  counter : Nat
  phaseH  : Nat
  phaseCtr : Nat
  graphH  : Nat
  graphCtr : Nat
  graphCancelled : Bool
  phaseCancelled : Bool
  states  : List NodeState
  /-- handles of the launches that the nodes started -/
  nodeH   : List (Nat × Nat)
  nextLsn : Nat
  decls   : List Decl
  segs    : List Seg
  regions : List Region
  ended   : Bool
  cancelled : Bool
  /-- finished objects by handle -/
  oldH    : List Nat
  /-- stage of R32 reached (1 contained and noticed, 2 remapped, 3 the checkpoint image pulled from peer memory, 4 restored), the spare module, and the bytes of its
  last checkpoint -/
  recovery : Nat
  spare   : Nat
  image   : List Host.Cell
  /-- pre-emptions that ended in YIELDFORCED (R80) -/
  yieldForced : Nat
  /-- pages that a running task had mapped: base, length, treatment (R68, R457) -/
  maps    : List (Nat × Nat × Nat)
  /-- has a checked segment been brought in (R444)? -/
  chkDone : Bool
  deriving DecidableEq, Repr

/-! ### Sync groups and collectives -/

/-- What a counted member contributes to a barrier phase (R369): member key, instruction (0 `garr` or `gbar`, 1 `gvote`, 2 `gred`), mode, type, value. -/
structure Part where
  key  : Nat
  ins  : Nat
  mode : Nat
  y    : Nat
  val  : Word
  deriving DecidableEq, Repr

/-- A member of a sync group (R366 to R369). -/
structure Member where
  tid     : Nat
  key     : Nat
  counted : Bool
  pending : Bool
  leaving : Bool
  arr     : Nat
  /-- contribution to the phase it has arrived in and that has not completed -/
  con     : Option Part
  deriving DecidableEq, Repr

structure Group where
  idx     : Nat
  job     : Nat
  name    : Word
  done    : Nat
  fault   : Bool
  members : List Member
  /-- contributions of completed phases that a waiter has still to read: phase, then members' contributions -/
  past    : List (Nat × List Part)
  deriving DecidableEq, Repr

/-- A contribution to a collective (R417). -/
structure Contrib where
  /-- the number of the operation that contributed it (R242) -/
  op    : Nat
  /-- the module it came from, when that is a peer -/
  src   : Option Nat
  tid   : Nat
  launch : Nat
  ticket : Nat
  level : Nat
  block : Nat
  dbuf  : Nat
  bad   : Bool
  data  : List Word
  deriving DecidableEq, Repr

structure Coll where
  job     : Nat
  key     : Word
  arrival : Bool
  w       : Nat
  op      : Nat
  ty      : Nat
  l       : Nat
  dom     : Bool
  status  : Nat
  ready   : Bool
  parts   : List Contrib
  /-- contributions of peers whose segments have not all come, and the result from another module's engine -/
  coming  : List Contrib
  result  : List Word
  deriving DecidableEq, Repr

/-! ### The outside world -/

/-- What DRAM holds of a line that has been written (R54, R55): plain bytes, the bytes of memory enciphered under a slot's two keys, or what no key
gives back, the line having been dropped or its content lost. -/
inductive Dram where
  | plain
  | enc (k : BitVec 256 × BitVec 256)
  | lost
  deriving DecidableEq, Repr

/-- What the module has sent to the outside world. -/
inductive Out where
  /-- an MSI-X message: its vector, with the address and the data of its table entry -/
  | msix (vector addr data : Nat)
  | spdm (bytes : List Byte)
  | barRead (value : Nat)
  | hostData (bytes : List Byte)
  | hostCmp
  | bisnp (line : Nat)
  | apRead (addr size : Nat)
  /-- an engine's read, by its number -/
  | apReadEng (num addr size : Nat)
  | apWrite (addr : Nat) (bytes : List Byte)
  | apAtomic (addr : Nat) (kind : Nat) (operands : List Byte)
  /-- a frame, and the bytes of it after the EtherType -/
  | frame (port : Nat) (fr : Frame) (wire : List Byte)
  | aer (addr : Nat)
  /-- a job's checkpoint goes to peer memory (R32) -/
  | checkpoint (job : Nat) (image : List Host.Cell)
  deriving DecidableEq, Repr

/-- A connection of the VFT engine (R50). -/
structure Conn where
  domain : Nat
  src    : Nat
  dst    : Nat
  cls    : Nat
  chan   : Nat
  port   : Nat
  psn    : Nat
  /-- next PSN expected from the peer -/
  rpsn   : Nat
  /-- receive buffers that the peer grants in its last frame's `CREDIT` (R49) -/
  credit : Nat
  unacked : List Frame
  /-- how many of them have gone out: the others wait for the window -/
  sent   : Nat
  retries : Nat
  /-- cycle of the last progress -/
  since   : Nat
  down   : Bool
  deriving DecidableEq, Repr

structure Net where
  /-- ports that are up -/
  ports   : List Nat
  conns   : List Conn
  /-- requests handed over by peers: domain, module, the 256 bytes -/
  peerReqs : List (Nat × Nat × List Byte)
  /-- events counted by the link monitor class -/
  drops   : Nat
  /-- peers last heard from (module, cycle), peers that are down, VFT domains fenced (R32) -/
  heard   : List (Nat × Nat)
  fenced  : List Nat
  /-- copies of a peer (domain, module, class) of which a payload could not be written -/
  rxBad   : List (Nat × Nat × Nat)
  /-- cycle of the next heartbeat -/
  hbAt    : Nat
  /-- this module's index in each VFT domain (R447): 0 for one that is not listed -/
  modIdx  : List (Nat × Nat)
  /-- frames that wait for the ports in this cycle, in the order in which they were made, and the connection that each port served last in each class: key
  4 x port + class (R52) -/
  txq     : List Frame
  served  : List (Nat × Nat)
  deriving DecidableEq, Repr

/-- A monitor capture (R31): selected quantity and the 80-byte record. -/
structure Capture where
  key  : Nat
  qty  : Nat
  bytes : List Byte
  deriving DecidableEq, Repr

/-- What Lennas's own log holds beside the trap records (R26, R35, R37, R40, R86, R110, R189). -/
inductive LennasEv where
  /-- an errata entry that would overrun the region, by its type -/
  | overrun (ty : Nat)
  /-- a host access that R35 refuses -/
  | hostAccess (window off len : Nat) (write : Bool)
  /-- the host stopped answering: the windows closed, and the lines treated as invalidated -/
  | hostGone (windows : List Nat) (lines : Nat)
  /-- a posted write that the host refused -/
  | posted (addr : Nat)
  /-- a page mapping refused by the scan or by R68: job, page, status, failure record -/
  | mapRefused (job va status : Nat) (record : List Byte)
  /-- a launch that could not start: its handle, and which of its checks failed -/
  | launchFault (handle cause : Nat)
  /-- a hint list or entry that is malformed, or a move that could not be made -/
  | hint (addr entry : Nat)
  deriving DecidableEq, Repr

/-- An engine's read of the host aperture (R39, R40): its number, the engine operation that made it, host address and size, when, and the answer:
status and data. -/
structure ApEng where
  num    : Nat
  op     : Nat
  addr   : Nat
  size   : Nat
  since  : Nat
  answer : Option (Nat × List Byte)
  deriving DecidableEq, Repr

/-- What Lennas does at the request of a running task (R68, R86, R88, R89): to map a page under a key slot (256: plaintext), to change a page from
X to W or from W to X; and the arrival of a job's checkpoint image, by virtual address, that it pulls from peer memory (R32). -/
inductive LennasAct where
  | map (tid va treat : Nat) (w x : Bool)
  | toWrite (tid va : Nat)
  | toExec (tid va : Nat)
  | pulled (job : Nat) (image : List Host.Cell)
  deriving DecidableEq, Repr

/-- Lennas's answer to a task's request: the status of R62 and the 32-byte failure record (R68, R86). -/
structure MapReply where
  tid    : Nat
  va     : Nat
  status : Nat
  record : List Byte
  deriving DecidableEq, Repr

/-- A turn of the agenda: the crew with this tid issues its next instruction, or an event happens. -/
inductive Turn where
  | issue (tid : Nat)
  | event (i : Instr)
  | lennas (a : LennasAct)
  deriving DecidableEq, Repr

/-- A write to the module's memory that waits at its line's home (R36, R196): its key treatment, its cache policy, where, and what. -/
structure Owed where
  treat : Nat
  cp    : Nat
  pa    : Nat
  bytes : List Byte
  deriving DecidableEq, Repr

/-- Everything the instructions can reach. -/
structure Mach where
  clk     : Nat
  /-- turns that are due, each after some cycles (DESIGN CHOICE, assumption log 1) -/
  agenda  : List (Nat × Turn)
  /-- internal events that have become due -/
  todo    : List Instr
  /-- what is left of the cycle: how many of the events that were due when it began, and, once the cores have chosen, the crews that issue in it
  (DESIGN CHOICE, assumption log 1) -/
  evLeft  : Nat
  picks   : Option (List Nat)
  cur     : Crew
  others  : List (Nat × Crew)
  nextTid : Nat
  nextHandle : Nat
  nextJob : Nat
  nextOp  : Nat
  freeCtr : Nat
  mem     : List Host.Cell
  /-- recorded key treatment of resident lines: 0 to 255 a key slot, 256 plaintext (R198); and how DRAM holds lines that it has been given (R54) -/
  lineKey : List (Nat × Nat)
  dramKey : List (Nat × Dram)
  /-- resident lines that have been written and not cleaned since (R54, R55) -/
  dirtyL2 : List Nat
  keys    : List (Nat × (BitVec 256 × BitVec 256))
  cores   : List (Nat × Core)
  dies    : List (Nat × Die)
  jobs    : List (Nat × Job)
  launches : List (Nat × Launch)
  /-- the pages of shadow records that Lennas has mapped, by job and virtual address (R211): the records stand in memory -/
  shadow  : List (Nat × Nat)
  groups  : List Group
  colls   : List Coll
  rsidx   : Word
  rsched  : List (Nat × List Byte)
  hostwin : List (Nat × Word)
  captures : List Capture
  /-- address-space 0 registers (R428) -/
  ptroot0 : Word
  shvbase0 : Word
  /-- `PTROOT` and `SHVBASE` of the job numbers that no job record holds -/
  ptroots : List (Nat × Word)
  shvbases : List (Nat × Word)
  /-- fused-off cores and stacks (R27) -/
  coresOff : List Nat
  stacksOff : List Nat
  /-- slice-hash map: key 32 x die + hash value, where it is not the hash value itself (R27, R92, R180) -/
  sliceMap : List (Nat × Nat)
  /-- cores out of reset: 0 none, 1 control core 320, 2 the control cores, 3 every core (R17) -/
  released : Nat
  hot     : Bool
  notices : List (Nat × Nat)
  novf    : Bool
  msixOn  : Bool
  /-- words of the MSI-X table by index, its vector controls apart: message address, its upper half, message data (R34; PRESUMED, assumption log 5) -/
  msixTab : List (Nat × Half)
  /-- mask bits of the MSI-X table (R63): an entry not listed is masked (PRESUMED, assumption log 5) -/
  msixMask : List (Nat × Bool)
  msixPend : List Nat
  /-- the MSI-X function mask (R63) -/
  msixFn  : Bool
  atomicEn : Bool
  cplTimeout : Nat
  /-- lines the host may hold, and those with a BISnp pending (R36) -/
  held    : List Nat
  snoops  : List Nat
  /-- the cycle of each pending BISnp (R37) -/
  snoopAt : List (Nat × Nat)
  net     : Net
  outbox  : List Out
  /-- Lennas's next free frame on each stack, as a page number from where its frames begin (DESIGN CHOICE, assumption log 6) -/
  frames  : List (Nat × Nat)
  /-- the frame-home table (R180): first page, pages, `HOME`, the latest first; a frame that it does not list is homed on the die of its stack -/
  frameHome : List (Nat × Nat × Nat)
  /-- host accesses and events that Lennas has logged -/
  hostLog : Nat
  lennasLog : List LennasEv
  /-- writes that wait at their lines' homes for the host's answer or for a way, in their order (R36, R196) -/
  owed    : List Owed
  /-- block versions and policies that engine reads under WAIT have read first, by operation (R226) -/
  engKept : List (Nat × List (Nat × Nat))
  /-- collective segments that have come before the job of their domain (R53, R420) -/
  collEarly : List Frame
  /-- engine reads of the host aperture that have not been used up (R40) -/
  apEng   : List ApEng
  /-- answers to tasks' mapping requests -/
  mapReplies : List MapReply
  deriving DecidableEq, Repr

/-- Boot and measurement (R17 to R21). -/
structure Boot where
  ready   : Bool
  romdone : Bool
  stage   : Nat
  err     : Nat
  /-- measurement slots: none until the boot step that writes it -/
  meas    : List (Nat × List Byte)
  deriving DecidableEq, Repr

structure Decoder where
  base : Nat
  size : Nat
  on   : Bool
  deriving DecidableEq, Repr

/-- The host endpoint: mailbox, decoders (R33 to R37, R57 to R60). -/
structure HostIf where
  reqs   : List (Nat × List Byte)
  resps  : List (Nat × List Byte)
  owned  : List Nat
  unread : List Nat
  dup    : Bool
  mberr  : Nat
  hdm    : List (Nat × Decoder)
  cxl    : Bool
  deriving DecidableEq, Repr

/-- The state of the module. -/
structure State where
  boot : Boot
  host : HostIf
  m    : Mach
  deriving DecidableEq, Repr

/-! ### Reset -/

/-- A declaration with everything zero. -/
def Decl.zero : Decl :=
  { addr := 0, entry := 0, width := 1, chk := false, hdlr := false, vregs := 1, sregs := 1, handles := 0, masks := 0, accs := 0, aff := 0, hdecl := 0, redmap := 0, piped := 0 }

/-- A crew with nothing in it: no lane live. [DESIGN CHOICE, assumption log 3] -/
def Crew.empty : Crew :=
  { tid := 0, parent := 0, launch := 0, hnd := 0, job := 0, cls := 0, aff := 0, core := 0, slots := [], status := .ended, stall := none, decl := Decl.zero,
    kind := .root, cells := [], arg := 0, pcs := [], live := 0, waiting := 0, v := [], vtag := [], s := [], stag := [], p := [], m := [],
    h := [], acc := [], ped := 0, ped0 := 0, aseq := 0, draw := 0, flags := 0, chk := false, imgBase := 0, pairBase := 0, accSave := 0, tiles := false,
    monitor := { armed := false, addr := 0, line := 0, fired := false }, pend := [], seg := [], hardened := false, keyDrop := 0, sid := 0, lseq := 0,
    rrk := 0, kids := [], kseg := 0, eddies := [], merged := [], boostLeft := 0, boostAt := 0, demoted := false, stamp := 0, pre := none,
    preBy := none, resAt := 0, resumable := false, leaving := false, openB := none, closedB := [], loads := [], tickets := [], leeHeld := 0, ap := none,
    late := none, dropped := false, reconvOk := [], syncs := [], placed := 0, poison := [], holdTo := 0, viewWait := [],
    woken := false, waitAt := 0, atHome := { lines := [], op := 0 } }

/-- A TLB after module reset: empty, its sequence seeded (R197). -/
def Tlb.reset : Tlb := { ents := [], lfsr := 0xACE1 }

/-- A core after module reset. [DESIGN CHOICE, assumption log 3] -/
def Core.reset (c : Nat) : Core :=
  { id := c, deque := [], dqOvf := 0, dqSpill := 0, segPtr := c % 40 % 32, victim := 0, empties := 0, asked := [], backoff := none, assign := [], moving := [], window := [],
    seqs := [], resendAt := [], fwd := [], macros := [], mdata := [], seqq := [], sb := [], gaths := [], fenced := 0, landing := none, ports := [], landed := [],
    l1 := Tlb.reset, jobsel := 0, keydata := [], keystat := 0, rsdata := [], pendWake := false }

/-- A die after module reset. [DESIGN CHOICE, assumption log 3] -/
def Die.reset (d : Nat) : Die :=
  { id := d, queues := [], segOvf := [], pending := [], prePtr := 0, best := (0, 0), lee := { budget := 1000, grants := [], waiting := [], granted := [] },
    chans := [], masters := [], dirty := [], tlb := Tlb.reset, cells := [], ways := [], log := [], rx := [], linkFull := true }

/-- The machine's part of the state after reset. Cores and dies are listed when something in them differs from their reset value. [DESIGN CHOICE, assumption log 1; DESIGN CHOICE, assumption log 3; PRESUMED, assumption log 5] -/
def Mach.reset : Mach :=
  { clk := 0, agenda := [(0, .event .powerOnReset)], todo := [], evLeft := 0, picks := none, cur := Crew.empty, others := [], nextTid := 1, nextHandle := 1,
    nextJob := 1, nextOp := 1, freeCtr := 0, mem := [], lineKey := [], dramKey := [], dirtyL2 := [], keys := [], cores := [], dies := [], jobs := [],
    launches := [], shadow := [], groups := [], colls := [], rsidx := 0, rsched := [], hostwin := [], captures := [], ptroot0 := 0,
    shvbase0 := 0, ptroots := [], shvbases := [], coresOff := [], stacksOff := [], sliceMap := [], released := 0, hot := false, notices := [], novf := false, msixOn := false, msixTab := [], msixMask := [],
    msixPend := [], msixFn := false, atomicEn := false, cplTimeout := 50000, held := [], snoops := [], snoopAt := [],
    net := { ports := [], conns := [], peerReqs := [], drops := 0, heard := [], fenced := [], rxBad := [], hbAt := 0, modIdx := [], txq := [], served := [] }, outbox := [], frames := [], frameHome := [], hostLog := 0,
    lennasLog := [], owed := [], engKept := [], collEarly := [], apEng := [], mapReplies := [] }

/-- The machine right after module reset (R17, R21, R58, R197, R428): the boot ROM's step is the turn that is due. [DESIGN CHOICE, assumption log 3] -/
def State.reset : State :=
  { boot := { ready := false, romdone := false, stage := 0, err := 0, meas := [] },
    host := { reqs := [], resps := [], owned := [], unread := [], dup := false, mberr := 0, hdm := [], cxl := false },
    m := Mach.reset }

end Sys2Proof.Machine
end

