-- ==== Sys2Proof/Machine/Base.lean ====
section
/-! DEFINITION. Reading and writing the parts of the state: registers of a crew, memory bytes, cores, dies, jobs, launches and crews by
name; free values; and the one way a committed write reaches memory. -/

namespace Sys2Proof.Machine

/-! ### Registers of a crew (R131 to R142) -/

/-- Tags: RAW 0 ... INVALID 15 (R141). -/
def tRAW : Tag := 0
def tI32 : Tag := 1
def tN32 : Tag := 2
def tF32 : Tag := 3
def tI64 : Tag := 12
def tADDR : Tag := 13
def tINV : Tag := 15

/-- Declared width in lanes. -/
def Crew.width (c : Crew) : Nat := c.decl.width

def vGet (c : Crew) (r L : Nat) : Half := smGet 0 c.v (64 * r + L)
def vTag (c : Crew) (r : Nat) : Tag := smGet tINV c.vtag r
def vSet (c : Crew) (r L : Nat) (x : Half) : Crew := { c with v := smSet 0 c.v (64 * r + L) x }
def vSetTag (c : Crew) (r : Nat) (t : Tag) : Crew := { c with vtag := smSet tINV c.vtag r t }
/-- The 64-bit value of the pair r, r + 1 (R133). -/
def vGet64 (c : Crew) (r L : Nat) : Word := zx (vGet c r L) ||| (zx (vGet c (r + 1) L) <<< 32)
def vSet64 (c : Crew) (r L : Nat) (x : Word) : Crew := vSet (vSet c r L (lo32 x)) (r + 1) L (lo32 (x >>> 32))
/-- All lanes of a register, as listed. -/
def vRow (c : Crew) (r : Nat) : List (Nat × Half) := c.v.filter (fun e => decide (64 * r ≤ e.1 ∧ e.1 < 64 * r + 64))

def sGet (c : Crew) (r : Nat) : Word := smGet 0 c.s r
def sTag (c : Crew) (r : Nat) : Tag := smGet tINV c.stag r
def sSet (c : Crew) (r : Nat) (x : Word) (t : Tag) : Crew := { c with s := smSet 0 c.s r x, stag := smSet tINV c.stag r t }

def pGet (c : Crew) (r : Nat) : Mask := smGet 0 c.p r
def pSet (c : Crew) (r : Nat) (x : Mask) : Crew := { c with p := smSet 0 c.p r x }
def pBit (c : Crew) (r L : Nat) : Bool := inM (pGet c r) L
def pSetBit (c : Crew) (r L : Nat) (b : Bool) : Crew := pSet c r (setBit (pGet c r) L b)

def mGet (c : Crew) (r : Nat) : Word := smGet 0 c.m r
/-- A write to an `m` register clears every bit at or above the width (R137). -/
def mSet (c : Crew) (r : Nat) (x : Word) : Crew := { c with m := smSet 0 c.m r (x &&& lanesBelow c.width) }

def hGet (c : Crew) (r : Nat) : Word := smGet 0 c.h r
def hSet (c : Crew) (r : Nat) (x : Word) : Crew := { c with h := smSet 0 c.h r x }

def accGet (c : Crew) (a row col : Nat) : Half := smGet 0 c.acc (4096 * a + 64 * row + col)
def accSet (c : Crew) (a row col : Nat) (x : Half) : Crew := { c with acc := smSet 0 c.acc (4096 * a + 64 * row + col) x }

/-- The registers with one of them as it was. -/
def restoreReg (c : Crew) (s : Saved) : Crew :=
  match s with
  | .v r row t =>
    let cut := c.v.filter (fun e => !decide (64 * r ≤ e.1 ∧ e.1 < 64 * r + 64))
    vSetTag { c with v := row.foldl (fun l e => smSet 0 l e.1 e.2) cut } r t
  | .s r x t => sSet c r x t
  | .p r x => pSet c r x
  | .m r x => { c with m := smSet 0 c.m r x }

/-- Handle fields (R138). -/
def hValid (h : Word) : Bool := h.getLsbD 63
def hGroup (h : Word) : Nat := bits h.toNat 44 32
def hKey (h : Word) : Nat := bits h.toNat 31 0
def hMake (pend leave : Bool) (g key : Nat) : Word :=
  w64 (2 ^ 63 + b2n pend * 2 ^ 62 + b2n leave * 2 ^ 61 + g * 2 ^ 32 + key)

/-- Or flags into the sticky flags (R326). -/
def orFlags (c : Crew) (fl : BitVec 5) : Crew := { c with flags := c.flags ||| fl }

/-! ### Lane sets of a crew (R119) -/

/-- PC of a lane. -/
def pcOf (c : Crew) (L : Nat) : Word := c.pcs.getD L 0
def setPc (c : Crew) (L : Nat) (x : Word) : Crew := { c with pcs := c.pcs.set L x }
/-- Live lanes that do not wait. -/
def going (c : Crew) : Mask := c.live &&& ~~~ c.waiting
/-- The issue address: the lowest PC over live lanes that are not waiting. -/
def issueAddr (c : Crew) : Option Word :=
  (lanesOf (going c)).foldl (fun a L => match a with | none => some (pcOf c L) | some x => if (pcOf c L).toNat < x.toNat then some (pcOf c L) else some x) none
/-- The lanes at the issue address. -/
def activeLanes (c : Crew) : Mask :=
  match issueAddr c with
  | none => 0
  | some x => maskOf ((lanesOf (going c)).filter (fun L => pcOf c L == x))

/-- Set the PC of every lane of a set. -/
def setPcs (c : Crew) (m : Mask) (x : Word) : Crew := (lanesOf m).foldl (fun c L => setPc c L x) c

/-! ### Named parts of the machine -/

def Mach.core (m : Mach) (c : Nat) : Core := (smFind m.cores c).getD (Core.reset c)
def Mach.setCore (m : Mach) (c : Nat) (x : Core) : Mach := { m with cores := smPut m.cores c x }
def Mach.modCore (m : Mach) (c : Nat) (f : Core → Core) : Mach := m.setCore c (f (m.core c))
def Mach.die (m : Mach) (d : Nat) : Die := (smFind m.dies d).getD (Die.reset d)
def Mach.setDie (m : Mach) (d : Nat) (x : Die) : Mach := { m with dies := smPut m.dies d x }
def Mach.modDie (m : Mach) (d : Nat) (f : Die → Die) : Mach := m.setDie d (f (m.die d))
def Mach.job (m : Mach) (j : Nat) : Option Job := smFind m.jobs j
def Mach.setJob (m : Mach) (j : Nat) (x : Job) : Mach := { m with jobs := smPut m.jobs j x }
def Mach.modJob (m : Mach) (j : Nat) (f : Job → Job) : Mach :=
  match m.job j with
  | some x => m.setJob j (f x)
  | none => m
def Mach.launch (m : Mach) (h : Nat) : Option Launch := smFind m.launches h
def Mach.setLaunch (m : Mach) (h : Nat) (x : Launch) : Mach := { m with launches := smPut m.launches h x }
def Mach.modLaunch (m : Mach) (h : Nat) (f : Launch → Launch) : Mach :=
  match m.launch h with
  | some x => m.setLaunch h (f x)
  | none => m

/-- Control cores are 320 to 335 (R15). -/
def isControl (core : Nat) : Bool := decide (320 ≤ core) && decide (core < 336)
/-- Die of an agent: a core (R14, R15), or from 336 an engine by its agent number (R183); the host endpoint and the VFT engine translate on die 0
(DESIGN CHOICE, assumption log 6). -/
def dieOf (core : Nat) : Nat := if 384 ≤ core then 0 else if 336 ≤ core then (core - 336) % 8 else if 320 ≤ core then (core - 320) / 2 else core / 40
/-- Crew slots of a core (R95, R129). -/
def slotsOf (core : Nat) : Nat := if 320 ≤ core then 1 else 24

/-- The crew with a tid. -/
def Mach.crew (m : Mach) (t : Nat) : Option Crew := if m.cur.tid = t then some m.cur else smFind m.others t
/-- Write a crew back under its tid. -/
def Mach.setCrew (m : Mach) (c : Crew) : Mach :=
  if m.cur.tid = c.tid then { m with cur := c } else { m with others := smPut m.others c.tid c }
def Mach.modCrew (m : Mach) (t : Nat) (f : Crew → Crew) : Mach :=
  match m.crew t with
  | some c => m.setCrew (f c)
  | none => m
/-- Every crew, the current one first. -/
def Mach.crews (m : Mach) : List Crew := m.cur :: m.others.map (·.2)
/-- Apply a function to every crew. -/
def Mach.mapCrews (m : Mach) (f : Crew → Crew) : Mach := { m with cur := f m.cur, others := m.others.map (fun e => (e.1, f e.2)) }
/-- Make a crew the current one; a crew that is not there changes nothing. -/
def Mach.focus (m : Mach) (t : Nat) : Mach :=
  if m.cur.tid = t then m
  else
    match smFind m.others t with
    | none => m
    | some c =>
      let rest := smErase m.others t
      { m with cur := c, others := if m.cur.tid = 0 then rest else smPut rest m.cur.tid m.cur }
/-- Remove a crew. -/
def Mach.dropCrew (m : Mach) (t : Nat) : Mach :=
  if m.cur.tid = t then { m with cur := Crew.empty } else { m with others := smErase m.others t }
/-- Add a crew. -/
def Mach.addCrew (m : Mach) (c : Crew) : Mach :=
  if m.cur.tid = 0 then { m with cur := c } else { m with others := smPut m.others c.tid c }

/-- An internal event has become due. -/
def Mach.due (m : Mach) (i : Instr) : Mach := { m with todo := m.todo ++ [i] }
/-- An internal event is due that may be due already. -/
def Mach.dueOnce (m : Mach) (i : Instr) : Mach := if m.todo.contains i then m else m.due i
/-- Send something to the outside world. -/
def Mach.send (m : Mach) (o : Out) : Mach := { m with outbox := m.outbox ++ [o] }
/-- Lennas records an event in its own log. -/
def Mach.logged (m : Mach) (e : LennasEv) : Mach := { m with hostLog := m.hostLog + 1, lennasLog := m.lennasLog ++ [e] }
/-- The next free value (DESIGN CHOICE, assumption log 4). -/
def Mach.free (m : Mach) : Word × Mach := (Config.freeWord m.freeCtr, { m with freeCtr := m.freeCtr + 1 })
/-- A fresh operation number. -/
def Mach.newOp (m : Mach) : Nat × Mach := (m.nextOp, { m with nextOp := m.nextOp + 1 })

/-! ### Physical memory (R6, R167): unlisted bytes read 0 (DESIGN CHOICE, assumption log 2) -/

/-- Memory is in its canonical form: addresses rising, no byte that reads as an unlisted one. [DESIGN CHOICE, assumption log 2] -/
def Memory.wf (l : List Host.Cell) : Bool := smWf (0 : Byte) 0 l

/-- One byte. [DESIGN CHOICE, assumption log 2] -/
def memGet (l : List Host.Cell) (a : Nat) : Byte := smGet 0 l a
/-- Write one byte. [DESIGN CHOICE, assumption log 2] -/
def memSet (l : List Host.Cell) (a : Nat) (b : Byte) : List Host.Cell := smSet 0 l a b
/-- n bytes from an address. -/
def memRead (l : List Host.Cell) (a : Nat) : Nat → List Byte
  | 0 => []
  | n + 1 => memGet l a :: memRead l (a + 1) n
/-- Write bytes from an address. -/
def memWrite (l : List Host.Cell) (a : Nat) : List Byte → List Host.Cell
  | [] => l
  | b :: t => memWrite (memSet l a b) (a + 1) t
/-- Write bytes at offsets of a base. -/
def memPatch (l : List Host.Cell) (a : Nat) : List (Nat × Byte) → List Host.Cell
  | [] => l
  | (o, b) :: t => memPatch (memSet l (a + o) b) a t

/-- A little-endian number of n bytes in memory. -/
def memNum (l : List Host.Cell) (a n : Nat) : Nat := ofBytes (memRead l a n)

/-- The host aperture (R167). -/
def apBase : Nat := 0x8000000000000
def isAperture (pa : Nat) : Bool := decide (apBase ≤ pa)

/-! ### Committed writes (R222, R359) -/

/-- The event that ends the wait of a parked crew has come: it is on its way to the crew (R117). -/
def Mach.wakes (m : Mach) (tid : Nat) : Mach :=
  (m.modCrew tid (fun c => match c.status with | .parked _ _ => { c with woken := true } | _ => c)).due (.waitEvent tid)

/-- A write served at a line fires the monitors armed on it (R359). -/
def fireMonitors (m : Mach) (line : Nat) : Mach :=
  let hit (c : Crew) : Bool := c.monitor.armed && c.monitor.line == line
  if m.crews.any hit then
    let m' := m.mapCrews (fun c => if hit c then { c with monitor := { c.monitor with fired := true } } else c)
    (m.crews.filter hit).foldl (fun m c =>
      match c.status with
      | .parked .monitor _ => m.wakes c.tid
      | _ => m) m'
  else m

/-- Bytes of a master block (R219). -/
def blockBytes (ms : Master) : Nat := if ms.bf16 then 512 else 1024

/-- The block of a master that holds a physical address. -/
def blockAt (ms : Master) (pa : Nat) : Option Nat :=
  match ms.pages.find? (fun p => decide (p.1 ≤ pa ∧ pa < p.1 + p.2.1)) with
  | some p => some ((p.2.2 + (pa - p.1)) / blockBytes ms)
  | none => none

/-- A committed write to a line counts for the master block that holds it, and dirties it (R222). -/
def bumpVersions (d : Die) (pa : Nat) : Die :=
  d.masters.foldl (fun d ms =>
    match blockAt ms pa with
    | none => d
    | some b =>
      let ms' := { ms with versions := smSet 0 ms.versions b ((smGet 0 ms.versions b + 1) % 2 ^ 32) }
      { d with
        masters := d.masters.map (fun x => if x.idx = ms.idx then ms' else x)
        dirty := if d.dirty.contains (ms.idx, b) then d.dirty else d.dirty ++ [(ms.idx, b)] }) d

/-- A committed write to one line: bytes at offsets of the line's address. -/
def commitLine (m : Mach) (line : Nat) (bs : List (Nat × Byte)) : Mach :=
  let m := { m with mem := memPatch m.mem (128 * line) bs
                    dirtyL2 := if (smFind m.lineKey line).isSome && !m.dirtyL2.contains line then m.dirtyL2 ++ [line] else m.dirtyL2 }
  let m := { m with dies := m.dies.map (fun e => (e.1, bumpVersions e.2 (128 * line))) }
  fireMonitors m line

/-- The (offset, byte) pairs of a run of bytes that fall in a line. -/
def lineBytes (line pa : Nat) (bs : List Byte) : List (Nat × Byte) :=
  ((List.range bs.length).map (fun i => (pa + i, bs.getD i 0))).filterMap
    (fun e => if e.1 / 128 = line then some (e.1 - 128 * line, e.2) else none)

/-- Commit a run of bytes at a physical address, line by line. -/
def commitRun (m : Mach) (pa : Nat) (bs : List Byte) : Mach :=
  if bs = [] then m
  else
    let first := pa / 128
    let last := (pa + bs.length - 1) / 128
    (List.range (last + 1 - first)).foldl (fun m i => commitLine m (first + i) (lineBytes (first + i) pa bs)) m

/-! ### How an instruction ends before its effect -/

/-- A trap, or a stall before any effect (R263); a stall can leave a request behind (a snoop, a place in a queue), made on the
state as it stood before the instruction. `after` is a trap that leaves what the instruction had done by then (R362, R400). -/
inductive Halt where
  | trap (e : Exc)
  | after (e : Exc) (side : Mach → Mach)
  | stall (w : Stall) (side : Mach → Mach)

abbrev R (α : Type) := Except Halt α

/-- An instruction-precise trap; the wrapper fills in the address (R253). -/
def trapOf (code : Nat) (lane : Option Nat) (i0 i1 i2 i3 : Word) : Halt :=
  .trap { code := code, lane := lane, info0 := i0, info1 := i1, info2 := i2, info3 := i3, commit := false, pc := 0, late := false }

/-- What an instruction issues with: its address and length, its fields, the sets of R119 and R277, and for each operand the
registers its read sees (R163). -/
structure Ctx where
  pc     : Word
  len    : Nat
  op     : Nat
  f      : Fields
  active : Mask
  e      : Mask
  cd     : Crew
  ca     : Crew
  cb     : Crew
  cc     : Crew
  clk    : Nat
  modIdx : Nat
  /-- The counter of free values at issue (R163). -/
  free   : Nat

/-- The lowest lane of E. -/
def Ctx.low (x : Ctx) : Nat := lowLane x.e
/-- The lanes of E. -/
def Ctx.lanes (x : Ctx) : List Nat := lanesOf x.e

/-- `BOOTSTAT` (R21). -/
def bootStat (b : Boot) : Nat := b2n b.ready * 2 ^ 31 + b2n b.romdone * 2 ^ 30 + b.stage * 2 ^ 16 + b.err * 2 ^ 8

end Sys2Proof.Machine
end

