-- ==== Sys2Proof/Machine/GroupCore.lean ====
section
/-! DEFINITION. The sync-group table: counted members, phases and their completion, faults, and the phase boundary (R365 to R371, R261). -/

namespace Sys2Proof.Machine

def Mach.group (m : Mach) (g : Nat) : Option Group := m.groups.find? (fun x => x.idx == g)
def Mach.setGroup (m : Mach) (x : Group) : Mach := { m with groups := m.groups.map (fun y => if y.idx = x.idx then x else y) }

/-- Change the handles of a member in every `h` register that holds one (R367). -/
def mapHandles (c : Crew) (g key : Nat) (f : Word → Word) : Crew :=
  { c with h := c.h.filterMap (fun e =>
      let y := if hValid e.2 && hGroup e.2 == g && hKey e.2 == key then f e.2 else e.2
      if y = 0 then none else some (e.1, y)) }

def hSetLeave (h : Word) : Word := h ||| w64 (2 ^ 61)
def hClearPend (h : Word) : Word := h &&& ~~~ (w64 (2 ^ 62))
def hClearValid (h : Word) : Word := h &&& ~~~ (w64 (2 ^ 63))

/-- Does a crew wait for a phase of a group that has completed? -/
def waitsGroup (g done : Nat) (c : Crew) : Bool :=
  match c.status with
  | .parked (.group i p _ _) _ => i == g && decide (p.toNat < done)
  | .polling (.group i p _ _) _ => i == g && decide (p.toNat < done)
  | _ => false

/-- The phase of a group completes: contributions are kept for those who wait, waiters become ready with boost (R123, R368). -/
def groupComplete (m : Mach) (x : Group) : Mach :=
  let parts := (x.members.filter (fun k => k.counted)).filterMap (·.con)
  let done := x.done + 1
  let m := m.setGroup { x with done := done, past := x.past ++ [(x.done, parts)], members := x.members.map (fun k => { k with con := none }) }
  let hits := m.crews.filter (fun c => waitsGroup x.idx done c)
  let m := m.mapCrews (fun c => if waitsGroup x.idx done c then { c with boostLeft := 32, boostAt := m.clk } else c)
  hits.foldl (fun m c => match c.status with | .parked _ _ => m.wakes c.tid | _ => m) m

/-- Has every counted member arrived beyond the phase? -/
def groupFull (x : Group) : Bool := x.members.all (fun k => !k.counted || decide (x.done < k.arr))

/-- After an arrival or a change of the counted set: the phase completes when every counted member is beyond it (R368). -/
def groupTest (m : Mach) (g : Nat) : Mach :=
  match m.group g with
  | some x => if groupFull x then groupComplete m x else m
  | none => m

/-- A member stops being counted (R367); a fault or a cancel sets the group's bit. -/
def memberStop (m : Mach) (g key : Nat) (fault : Bool) : Mach :=
  match m.group g with
  | none => m
  | some x =>
    match x.members.find? (fun k => k.key == key) with
    | none => m
    | some k =>
      let m := m.setGroup { x with fault := x.fault || fault,
                                   members := x.members.map (fun y => if y.key = key then { y with counted := false, leaving := true, con := none } else y) }
      let m := m.modCrew k.tid (fun c => mapHandles c g key hSetLeave)
      if k.counted then groupTest m g else m

/-- A crew's members stop being counted in every group. -/
def memberStopAll (m : Mach) (tid : Nat) (fault : Bool) : Mach :=
  (m.groups.flatMap (fun x => (x.members.filter (fun k => k.tid == tid && !k.leaving)).map (fun k => (x.idx, k.key)))).foldl
    (fun m e => memberStop m e.1 e.2 fault) m

/-- Is a member's join pending, not withdrawn (R371)? -/
def joining (k : Member) : Bool := k.pending && !k.leaving

/-- Step 4 of R74 for the groups of a job: pending joins are counted, members that stopped leave the table (R367). -/
def groupBoundary (m : Mach) (job : Nat) : Mach :=
  (m.groups.filter (fun x => x.job == job)).foldl (fun m x =>
    let joins := x.members.filter joining
    let gone := x.members.filter (fun k => !joining k && !k.counted)
    let stay (k : Member) : Member := if joining k then { k with pending := false, counted := true, arr := x.done } else k
    let m := m.setGroup { x with members := (x.members.filter (fun k => joining k || k.counted)).map stay }
    let m := joins.foldl (fun m k => m.modCrew k.tid (fun c => mapHandles c x.idx k.key hClearPend)) m
    gone.foldl (fun m k => m.modCrew k.tid (fun c => mapHandles c x.idx k.key hClearValid)) m) m

/-- Is a switched-out crew the last member that a group's phase waits for (R124)? -/
def holdsBarrier (m : Mach) (tid : Nat) : Bool :=
  m.groups.any (fun x =>
    x.members.any (fun k => k.tid == tid && k.counted && decide (k.arr ≤ x.done)) &&
    x.members.all (fun k => k.tid == tid || !k.counted || decide (x.done < k.arr)))

/-- The member that a handle names. -/
def memberOf (x : Group) (h : Word) : Option Member := x.members.find? (fun k => k.key == hKey h)

end Sys2Proof.Machine
end

