-- ==== Sys2Proof/Machine/Aes.lean ====
section
/-! DEFINITION. AES-256 (FIPS 197) and its XTS mode over a data unit of one 128-byte line (R54, IEEE 1619). -/

namespace Sys2Proof.Machine

/-- Multiplication by x in GF(2^8), modulus x^8 + x^4 + x^3 + x + 1. -/
def xtime (a : Nat) : Nat := if a < 128 then 2 * a else (2 * a) % 256 ^^^ 0x1B

/-- Product in GF(2^8), over the n low bits of b. -/
def gfMul : Nat → Nat → Nat → Nat
  | 0, _, _ => 0
  | n + 1, a, b => (if b % 2 = 1 then a else 0) ^^^ gfMul n (xtime a) (b / 2)

/-- Inverse in GF(2^8), 0 for 0: the 254th power. -/
def gfInv (a : Nat) : Nat :=
  let m := gfMul 8
  let a2 := m a a; let a3 := m a2 a; let a6 := m a3 a3; let a12 := m a6 a6; let a15 := m a12 a3
  let a30 := m a15 a15; let a60 := m a30 a30; let a63 := m a60 a3; let a126 := m a63 a63; let a127 := m a126 a
  m a127 a127

/-- A byte rotated left. -/
def rotl8 (x n : Nat) : Nat := (x * 2 ^ n) % 256 + x / 2 ^ (8 - n)

/-- The S-box, and its inverse, as lists of 256 values. -/
def sboxOf (a : Nat) : Nat := let y := gfInv a; y ^^^ rotl8 y 1 ^^^ rotl8 y 2 ^^^ rotl8 y 3 ^^^ rotl8 y 4 ^^^ 0x63
def sbox : Array Nat := ((List.range 256).map sboxOf).toArray
def invSbox : Array Nat := ((List.range 256).map (fun a => gfInv (rotl8 a 1 ^^^ rotl8 a 3 ^^^ rotl8 a 6 ^^^ 0x05))).toArray

def subByte (a : Nat) : Nat := sbox.getD a 0
def invSubByte (a : Nat) : Nat := invSbox.getD a 0

/-- Byte-wise exclusive or. -/
def xorL (a b : List Nat) : List Nat := List.zipWith (· ^^^ ·) a b

/-- The key schedule of a 32-byte key: `n` words more, newest first; `i` is the index of the next one. -/
def aesSched : Nat → Nat → List (List Nat) → List (List Nat)
  | 0, _, w => w
  | n + 1, i, w =>
    let t := w.getD 0 []
    let rcon := (List.range (i / 8 - 1)).foldl (fun r _ => xtime r) 1
    let t :=
      if i % 8 = 0 then xorL ((t.drop 1 ++ t.take 1).map subByte) [rcon, 0, 0, 0]
      else if i % 8 = 4 then t.map subByte else t
    aesSched n (i + 1) (xorL (w.getD 7 []) t :: w)

/-- The fifteen round keys of 16 bytes. -/
def aesKeys (key : List Nat) : List (List Nat) :=
  let w := (aesSched 52 8 (((List.range 8).map (fun i => (key.drop (4 * i)).take 4)).reverse)).reverse
  (List.range 15).map (fun r => (List.range 4).flatMap (fun i => w.getD (4 * r + i) []))

/-- Row r of the state turns left by r places, or right. -/
def shiftRows (s : List Nat) : List Nat := (List.range 16).map (fun i => s.getD ((i + 4 * (i % 4)) % 16) 0)
def invShiftRows (s : List Nat) : List Nat := (List.range 16).map (fun i => s.getD ((i + 12 * (i % 4)) % 16) 0)

/-- Every column times a circulant matrix whose first row is given. -/
def mixCols (row : List Nat) (s : List Nat) : List Nat :=
  (List.range 16).map (fun i => (List.range 4).foldl (fun x k => x ^^^ gfMul 8 (s.getD (4 * (i / 4) + k) 0) (row.getD ((k + 4 - i % 4) % 4) 0)) 0)

/-- One block of 16 bytes, enciphered. -/
def aesEnc (keys : List (List Nat)) (b : List Nat) : List Nat :=
  let s := ((keys.drop 1).take 13).foldl (fun s k => xorL (mixCols [2, 3, 1, 1] (shiftRows (s.map subByte))) k) (xorL b (keys.getD 0 []))
  xorL (shiftRows (s.map subByte)) (keys.getD 14 [])

/-- One block of 16 bytes, deciphered. -/
def aesDec (keys : List (List Nat)) (b : List Nat) : List Nat :=
  let s := (((keys.drop 1).take 13).reverse).foldl (fun s k => mixCols [14, 11, 13, 9] (xorL ((invShiftRows s).map invSubByte) k)) (xorL b (keys.getD 14 []))
  xorL ((invShiftRows s).map invSubByte) (keys.getD 0 [])

/-- The tweak of the next block of a data unit: times x in GF(2^128). -/
def tweakNext (t : Nat) : Nat := (2 * t) % 2 ^ 128 ^^^ (if t < 2 ^ 127 then 0 else 0x87)

/-- Bytes of a number, as numbers. -/
def natBytes (n x : Nat) : List Nat := (toBytes n x).map (·.toNat)

/-- A key of 256 bits as the 32 bytes of the standard: the byte of bits [7:0] first (R6). -/
def keyBytes (k : BitVec 256) : List Nat := natBytes 32 k.toNat

/-- The blocks of a data unit, each between two exclusive ors with its tweak. -/
def xtsBlocks (f : List Nat → List Nat) : Nat → Nat → List Nat → List Nat
  | 0, _, _ => []
  | n + 1, t, d => let w := natBytes 16 t; xorL (f (xorL (d.take 16) w)) w ++ xtsBlocks f n (tweakNext t) (d.drop 16)

/-- The first tweak of a line: its address over 128, enciphered with the tweak key (R54). -/
def xtsTweak (tk : BitVec 256) (line : Nat) : Nat :=
  ofBytes ((aesEnc (aesKeys (keyBytes tk)) (natBytes 16 line)).map (BitVec.ofNat 8))

/-- A line of 128 bytes enciphered under a slot's data key and tweak key (R54). -/
def xtsEnc (k : BitVec 256 × BitVec 256) (line : Nat) (d : List Byte) : List Byte :=
  (xtsBlocks (aesEnc (aesKeys (keyBytes k.1))) 8 (xtsTweak k.2 line) (d.map (·.toNat))).map (BitVec.ofNat 8)

/-- A line of 128 bytes deciphered. -/
def xtsDec (k : BitVec 256 × BitVec 256) (line : Nat) (d : List Byte) : List Byte :=
  (xtsBlocks (aesDec (aesKeys (keyBytes k.1))) 8 (xtsTweak k.2 line) (d.map (·.toNat))).map (BitVec.ofNat 8)

end Sys2Proof.Machine
end

