-- ==== Sys2Proof/Machine/Monitor.lean ====
section
/-! DEFINITION. Monitor captures: the record of 80 bytes, its samples, and the events that a class counts (R31, R439). -/

namespace Sys2Proof.Machine

/-- A capture record after its reset (R31). -/
def captureReset : List Byte := toBytes 4 0xFFFFFFFF ++ List.replicate 76 0

/-- The bin that counts a sample. -/
def binOf (v : Nat) : Nat := if v < 2 then 0 else min 15 (Nat.log2 v)

/-- A record in which bin i has counted `k i` samples more, the smallest of them `lo` and the largest `hi`. -/
def captureAdd (b : List Byte) (lo hi : Nat) (k : Nat → Nat) : List Byte :=
  toBytes 4 (min (fld b 0 4) lo) ++ toBytes 4 (max (fld b 4 4) hi) ++ toBytes 8 (fld b 8 8 + ((List.range 16).map k).sum) ++
  (List.range 16).flatMap (fun i => toBytes 4 (min 0xFFFFFFFF (fld b (16 + 4 * i) 4 + k i)))

/-- A record with one sample more. -/
def captureSample (b : List Byte) (v : Nat) : List Byte := captureAdd b v v (fun i => if i = binOf v then 1 else 0)

/-- A free sample that a bin counts. -/
def freeIn (i ctr : Nat) : Nat :=
  let w := (Config.freeWord ctr).toNat
  if i = 0 then w % 2 else if i = 15 then 2 ^ 15 + w % (2 ^ 32 - 2 ^ 15) else 2 ^ i + w % 2 ^ i

/-- A record after a free number of samples of free values, as one that the manual's record can be: `MIN` and `MAX` lie in the lowest and the highest
bin that counted any. [DESIGN CHOICE, assumption log 9] -/
def captureFree (b : List Byte) (ctr : Nat) : List Byte :=
  let k (i : Nat) : Nat := (Config.freeWord (ctr + i)).toNat % 65536
  let hit := (List.range 16).filter (fun i => k i != 0)
  match hit with
  | [] => b
  | i :: _ =>
    let j := hit.getLastD i
    let lo := freeIn i (ctr + 16)
    let hi := if i = j then (if k i = 1 then lo else max lo (freeIn j (ctr + 17))) else freeIn j (ctr + 17)
    captureAdd b lo hi k

/-- Class, unit and quantity of an event. -/
def monKey (ev : Config.MonEvent) (unit : Nat) : Nat × Nat := ((Config.monCode ev).1 % 256 + 256 * unit, (Config.monCode ev).2 % 256)

/-- Does a quantity count an event of the model? -/
def monCounted (key qty : Nat) : Bool :=
  ([.leeBudget, .linkDrop, .linkStall, .waitPoll, .raceFull, .registerMiss, .corrected, .engineError, .noStamp, .homeDepth, .waitTable, .stageRing,
    .leeGrant] : List Config.MonEvent).any
    (fun e => monKey e (key / 256) == (key, qty))

/-- An event is counted: a capture that has its quantity selected takes a sample, of a value that the manual does not state. [DESIGN CHOICE, assumption log 9] -/
def monCount (m : Mach) (ev : Config.MonEvent) (unit : Nat) : Mach :=
  if m.captures.any (fun c => monKey ev unit == (c.key, c.qty)) then
    { m with captures := m.captures.map (fun c => if monKey ev unit = (c.key, c.qty) then { c with bytes := captureSample c.bytes ((Config.freeWord m.freeCtr).toNat % 2 ^ 32) } else c)
             freeCtr := m.freeCtr + 1 }
  else m

/-- A quantity of a unit is measured: a capture that has it selected takes the value as a sample (R31). -/
def monSample (m : Mach) (ev : Config.MonEvent) (unit v : Nat) : Mach :=
  if m.captures.any (fun c => monKey ev unit == (c.key, c.qty)) then
    { m with captures := m.captures.map (fun c => if monKey ev unit = (c.key, c.qty) then { c with bytes := captureSample c.bytes (min v 0xFFFFFFFF) } else c) }
  else m

/-- Keep a capture of a unit. -/
def capturePut (m : Mach) (c : Capture) : Mach := { m with captures := m.captures.filter (fun k => k.key != c.key) ++ [c] }

/-- The record of a unit's capture changes; one with nothing selected stays as it is. -/
def captureKeep (m : Mach) (key : Nat) (b : List Byte) : Mach :=
  { m with captures := m.captures.map (fun c => if c.key = key then { c with bytes := b } else c) }

/-- The record that a read of a unit's capture returns: samples of quantities that no event of the model makes are free. A unit for which nothing has been
selected has a record that is reset. [DESIGN CHOICE, assumption log 9] -/
def captureRead (m : Mach) (key : Nat) : List Byte :=
  match m.captures.find? (fun c => c.key == key) with
  | some c => if monCounted key c.qty then c.bytes else captureFree c.bytes m.freeCtr
  | none => captureReset

end Sys2Proof.Machine
end

