-- ==== Sys2Proof/Machine/Template.lean ====
section
/-! DEFINITION. The fields of a BTE template, its rows, and the lines that commands of engines hold while they write them (R44, R46, R242, R411, R413). -/

namespace Sys2Proof.Machine

/-! ### Templates (R411, R413) -/

/-- A signed field of n bytes. -/
def sFld (t : List Byte) (o n : Nat) : Int := toSigned (8 * n) (fld t o n)

def tSkind (t : List Byte) : Nat := bits (fld t 72 1) 1 0
def tDkind (t : List Byte) : Nat := bits (fld t 72 1) 3 2
def tMcast (t : List Byte) : Nat := fld t 80 16
def mcClass (mc : Nat) : Nat := bits mc 127 126
def mcCount (mc : Nat) : Nat := bits mc 123 120
/-- Cores of a receiver-class list. -/
def mcCores (mc : Nat) : List Nat := (List.range (mcCount mc)).map (fun i => bits mc (9 * i + 8) (9 * i))

/-- The range from the first to the last byte of strided rows. -/
def hull (addr plane row : Int) (t : List Byte) : Nat × Nat :=
  let p := plane * (fld t 30 2 - 1 : Int)
  let r := row * (fld t 28 2 - 1 : Int)
  let lo := addr + min p 0 + min r 0
  let hi := addr + max p 0 + max r 0 + fld t 24 4
  (wrapTo 64 lo, (hi - lo).toNat)

def srcHull (t : List Byte) (a : Nat) : Nat × Nat := hull (fld t 0 8 + a * sFld t 64 4) (sFld t 48 8) (sFld t 32 8) t
def dstHull (t : List Byte) (a : Nat) : Nat × Nat := hull (fld t 8 8 + a * sFld t 68 4) (sFld t 56 8) (sFld t 40 8) t

/-- Offsets of the rows of a command, source and destination, in the loop's order. -/
def bteRows (t : List Byte) (a : Nat) : List (Int × Int) :=
  (List.range (fld t 30 2)).flatMap (fun (z : Nat) => (List.range (fld t 28 2)).map (fun (y : Nat) =>
    ((a : Int) * sFld t 64 4 + (z : Int) * sFld t 48 8 + (y : Int) * sFld t 32 8,
     (a : Int) * sFld t 68 4 + (z : Int) * sFld t 56 8 + (y : Int) * sFld t 40 8)))

/-- Destination rows of a command in the job's memory, for a copy that writes there (R413), or at each receiver's landing base (R46). -/
def bteDests (m : Mach) (k : Cmd) : List (Nat × Nat) :=
  let t := k.tmpl
  let len := fld t 24 4
  let rows (base : Nat) : List (Nat × Nat) := (bteRows t k.arg).map (fun r => (wrapTo 64 ((base : Int) + r.2), len))
  if tDkind t ≠ 0 then []
  else if mcClass (tMcast t) = 2 then
    (mcCores (tMcast t)).flatMap (fun c => match (m.core c).landing with | some b => rows (b.base.toNat + fld t 8 8) | none => [])
  else rows (fld t 8 8)

/-- Virtual ranges that copy commands hold from issue until they have written them: the operation, the job, the range (R242). -/
def copyRanges (m : Mach) : List (Nat × Nat × Nat × Nat) :=
  m.dies.flatMap (fun e => e.2.chans.flatMap (fun c => (c.2.queue.filter (fun k => !k.started)).flatMap (fun k =>
    (bteDests m k).map (fun r => (k.op, k.job, r.1, r.2)))))

/-- Virtual ranges that commands of engines hold: copies, and the destinations of the contributions to collectives (R242). -/
def heldRanges (m : Mach) : List (Nat × Nat × Nat × Nat) :=
  copyRanges m ++
  (m.colls.filter (fun x => x.status == 0)).flatMap (fun x => (x.parts.filter (fun p => p.src.isNone)).map (fun p => (p.op, x.job, p.dbuf, x.w * (if x.ty ≤ 1 then 4 else 8))))

end Sys2Proof.Machine
end

