-- ==== Sys2Proof/Machine/Walk.lean ====
section
/-! DEFINITION. Translation: page tables, TLBs, the checks of R173, key treatment of lines (R198), and the pages that Lennas maps
(R166 to R176, R260). -/

namespace Sys2Proof.Machine

/-! ### Leaves and walks (R168 to R171) -/

/-- The fields of a leaf (R169). -/
def lfHome (l : BitVec 128) : Nat := bits l.toNat 127 125
def lfPT (l : BitVec 128) : Bool := bit l.toNat 124
def lfCHK (l : BitVec 128) : Bool := bit l.toNat 123
def lfVIEW (l : BitVec 128) : Bool := bit l.toNat 122
def lfCP (l : BitVec 128) : Nat := bits l.toNat 121 120
def lfVPI (l : BitVec 128) : Nat := bits l.toNat 119 117
def lfKEY (l : BitVec 128) : Nat := bits l.toNat 116 109
def lfR (l : BitVec 128) : Bool := bit l.toNat 61
def lfW (l : BitVec 128) : Bool := bit l.toNat 60
def lfX (l : BitVec 128) : Bool := bit l.toNat 59
def lfSUP (l : BitVec 128) : Bool := bit l.toNat 58
def lfSIZE (l : BitVec 128) : Nat := bits l.toNat 55 52
def lfFrame (l : BitVec 128) : Nat := bits l.toNat 51 12 * 4096
/-- Leaf bits [63:56], as a PERM reports them (R253). -/
def lfInfo (l : BitVec 128) : Nat := bits l.toNat 63 56
/-- Bytes of a page of size n (R170). -/
def pageBytes (n : Nat) : Nat := 4096 * 4 ^ n

/-- Does a physical range reach into an absent range (R27, R167)? -/
def absentRange (m : Mach) (a len : Nat) : Bool :=
  let last := a + len - 1
  (decide (0x10000000000 ≤ last) && decide (a < apBase)) || decide (2 ^ 52 ≤ last) ||
  m.stacksOff.any (fun s => decide (a < (s + 1) * 0x1000000000) && decide (s * 0x1000000000 ≤ last))

/-- May a leaf stand at a level (R171)? -/
def leafOk (m : Mach) (level : Nat) (l : BitVec 128) : Bool :=
  decide (level ≤ 3) && bits l.toNat 108 64 == 0 && bits l.toNat 11 0 == 0 && (lfVIEW l || lfVPI l == 0) &&
  lfSIZE l / 4 == level && lfFrame l % pageBytes (lfSIZE l) == 0 && !absentRange m (lfFrame l) (pageBytes (lfSIZE l)) &&
  !(lfW l && lfX l) && !(lfVIEW l && lfW l) &&
  (!isAperture (lfFrame l) || (lfCP l == 3 && !lfCHK l && !lfVIEW l && !lfX l))

/-- A table entry's reserved bits are zero (R169). -/
def tableOk (e : Nat) : Bool := bits e 127 64 == 0 && bits e 62 52 == 0 && bits e 11 0 == 0

/-- Index of an address at a level (R168). -/
def vaIndex (level va : Nat) : Nat := if level = 5 then bits va 56 52 else va / 2 ^ (12 + 8 * level) % 256

/-- The walk from the table at `tb`: the leaf with its entry's address, or the level and address of the rejected entry. -/
def walkFrom (m : Mach) (va : Nat) : Nat → Nat → Except (Nat × Nat) (BitVec 128 × Nat)
  | level, tb =>
    let ea := tb + 16 * vaIndex level va
    let e := memNum m.mem ea 16
    if !bit e 63 then .error (level, ea)
    else if bit e 62 then
      if leafOk m level (BitVec.ofNat 128 e) then .ok (BitVec.ofNat 128 e, ea) else .error (level, ea)
    else if !tableOk e then .error (level, ea)
    else
      match level with
      | 0 => .error (0, ea)
      | l + 1 => walkFrom m va l (bits e 51 12 * 4096)

/-- `PTROOT` of a job, that of address space 0 for job 0 (R428). -/
def ptrootOf (m : Mach) (job : Nat) : Nat :=
  let r := if job = 0 then m.ptroot0 else match m.job job with | some j => j.ptroot | none => smGet 0 m.ptroots job
  bits r.toNat 51 9 * 512

/-- The six-level walk of an address of a job (R168). -/
def walk (m : Mach) (job va : Nat) : Except (Nat × Nat) (BitVec 128 × Nat) := walkFrom m va 5 (ptrootOf m job)

/-! ### TLBs (R172, R174, R197) -/

def tlbCovers (job va : Nat) (t : TlbEnt) : Bool := t.job == job && va / pageBytes t.n == t.base / pageBytes t.n

/-- The entry that serves an access; one filled for a read does not serve a write. -/
def tlbFind (t : Tlb) (job va : Nat) (wr : Bool) : Option TlbEnt := t.ents.find? (fun x => tlbCovers job va x && (x.wr || !wr))

/-- One step of the fixed pseudo-random sequence: taps 16, 14, 13 and 11 (R197). -/
def lfsrStep (x : BitVec 16) : BitVec 16 :=
  let b := (x ^^^ (x >>> 2) ^^^ (x >>> 3) ^^^ (x >>> 5)) &&& 1
  (x >>> 1) ||| (b <<< 15)

/-- Fill an entry, over the same page's entry or over a victim when the TLB is full. -/
def tlbFill (cap : Nat) (t : Tlb) (e : TlbEnt) : Tlb :=
  if t.ents.any (fun x => x.job == e.job && x.base == e.base && x.n == e.n) then
    { t with ents := t.ents.map (fun x => if x.job = e.job ∧ x.base = e.base ∧ x.n = e.n then { e with wr := e.wr || x.wr } else x) }
  else if t.ents.length < cap then { t with ents := t.ents ++ [e] }
  else { ents := t.ents.set (t.lfsr.toNat % cap) e, lfsr := lfsrStep t.lfsr }

/-- The L1 TLB of an agent: engines have none (R174). -/
def l1Of (m : Mach) (core : Nat) : Tlb := if 336 ≤ core then Tlb.reset else (m.core core).l1

/-- The leaf that translates an access: from the core's TLB, the die's, or a walk. Also the entry's address when walked. -/
def leafFor (m : Mach) (core job va : Nat) (wr : Bool) : Except (Nat × Nat) (BitVec 128 × Option Nat) :=
  match tlbFind (l1Of m core) job va wr with
  | some t => .ok (t.leaf, none)
  | none =>
    match tlbFind (m.die (dieOf core)).tlb job va wr with
    | some t => .ok (t.leaf, none)
    | none =>
      match walk m job va with
      | .ok (l, ea) => .ok (l, some ea)
      | .error e => .error e

/-- The physical address a leaf gives. -/
def paOf (l : BitVec 128) (va : Nat) : Nat := lfFrame l + va % pageBytes (lfSIZE l)

/-- A leaf with `A`, and for a write `D`, set. -/
def leafAD (l : BitVec 128) (wr : Bool) : BitVec 128 := l ||| BitVec.ofNat 128 (2 ^ 57 + (if wr then 2 ^ 56 else 0))

/-- Set `A`, and `D` for a write, in the replica at ea (R172). -/
def setAD (m : Mach) (ea : Nat) (wr : Bool) : Mach :=
  let b := memGet m.mem (ea + 7)
  { m with mem := memSet m.mem (ea + 7) (b ||| (if wr then 3 else 2)) }

/-- The effects of an access that has passed its checks: TLB fills, `A` and `D` (R172). -/
def fillTlb (m : Mach) (core job va : Nat) (wr : Bool) : Mach :=
  match tlbFind (l1Of m core) job va wr with
  | some _ => m
  | none =>
    match leafFor m core job va wr with
    | .error _ => m
    | .ok (l, ea) =>
      let m := match ea with | some a => setAD m a wr | none => m
      let l := match ea with | some _ => leafAD l wr | none => l
      let n := lfSIZE l
      let e : TlbEnt := { job := job, base := va / pageBytes n * pageBytes n, n := n, leaf := l, wr := wr }
      let m := if 336 ≤ core then m else m.modCore core (fun c => { c with l1 := tlbFill 256 c.l1 e })
      m.modDie (dieOf core) (fun d => { d with tlb := tlbFill 16384 d.tlb e })

/-! ### Key treatment (R54, R56, R198) -/

/-- Treatment that a leaf gives its lines: a key slot, or 256 for plaintext; an aperture page bypasses encryption (R199). -/
def treatOf (l : BitVec 128) : Nat := if lfPT l || isAperture (lfFrame l) then 256 else lfKEY l

/-- Lines that bypass encryption whatever their leaf says: the capability-table region and the context images of control cores (R54). -/
def bypasses (m : Mach) (pa : Nat) : Bool :=
  decide (pa < 65536) || m.crews.any (fun c => isControl c.core && c.imgBase != 0 && decide (c.imgBase ≤ pa ∧ pa < c.imgBase + 0x20000))

/-- The physical lines of a byte range. -/
def linesOf (pa len : Nat) : List Nat := if len = 0 then [] else (List.range ((pa + len - 1) / 128 + 1 - pa / 128)).map (fun i => pa / 128 + i)

/-- The treatment of a line that an access reaches through a leaf. -/
def treatAt (m : Mach) (l : BitVec 128) (pa : Nat) : Nat := if bypasses m pa then 256 else treatOf l

/-- Check 5 of R173: the treatment recorded with the line, or 0x1FF for an empty slot, when it fails. -/
def keyFails (m : Mach) (treat line : Nat) : Option Nat :=
  if treat < 256 ∧ (smFind m.keys treat).isNone then some 0x1FF
  else
    match smFind m.lineKey line with
    | some t => if t = treat then none else some (if t = 256 then 0x100 else t)
    | none => none

/-- What DRAM holds of a line that is written back under a treatment: plain, or enciphered under the slot's keys. -/
def dramOf (m : Mach) (treat : Nat) : Dram :=
  if treat = 256 then .plain
  else
    match smFind m.keys treat with
    | some k => .enc k
    | none => .lost

/-- The bytes of a line that has left no readable content: free ones (DESIGN CHOICE, assumption log 4). -/
def freeLine (m : Mach) (line : Nat) : Mach :=
  { m with
    mem := memWrite m.mem (128 * line) ((List.range 16).flatMap (fun i => toBytes 8 (Config.freeWord (m.freeCtr + i)).toNat))
    freeCtr := m.freeCtr + 16 }

/-- Bytes as DRAM holds them, and as they read through a treatment (R54). -/
def cipherOf (d : Dram) (line : Nat) (b : List Byte) : List Byte := match d with | .enc k => xtsEnc k line b | _ => b
def plainOf (d : Dram) (line : Nat) (b : List Byte) : List Byte := match d with | .enc k => xtsDec k line b | _ => b

/-- What a line that DRAM holds reads as under a treatment: its ciphertext deciphered with the treatment's keys. A line that DRAM has never been
given reads as unwritten memory does. -/
def decipher (m : Mach) (treat line : Nat) : Mach :=
  let dr := dramOf m treat
  match smFind m.dramKey line with
  | none => m
  | some .lost => { freeLine m line with dramKey := smPut m.dramKey line dr }
  | some d =>
    if d = dr then m
    else { m with mem := memWrite m.mem (128 * line) (plainOf dr line (cipherOf d line (memRead m.mem (128 * line) 128))), dramKey := smPut m.dramKey line dr }

/-- An access reaches a line that is not resident: it is filled into the L2 under a treatment (R198), or, on a page of `CP` 11, stays in DRAM and
passes through the cipher each time (R199). [DESIGN CHOICE, assumption log 7] -/
def touchLine (m : Mach) (treat cp line : Nat) : Mach :=
  match smFind m.lineKey line with
  | some _ => m
  | none =>
    let m := decipher m treat line
    if cp = 3 then { m with dramKey := smPut m.dramKey line (dramOf m treat) } else { m with lineKey := smPut m.lineKey line treat }

/-- A line is written back: DRAM holds it under its treatment. -/
def cleanDram (m : Mach) (line : Nat) : Mach :=
  match smFind m.lineKey line with
  | none => m
  | some t => { m with dramKey := smPut m.dramKey line (dramOf m t), dirtyL2 := m.dirtyL2.filter (· != line) }

/-- The line leaves the L2: DRAM holds it under its treatment. [DESIGN CHOICE, assumption log 7] -/
def evictLine (m : Mach) (line : Nat) : Mach :=
  match smFind m.lineKey line with
  | none => m
  | some t => { m with lineKey := smErase m.lineKey line, dramKey := smPut m.dramKey line (dramOf m t), dirtyL2 := m.dirtyL2.filter (· != line) }

/-- A control core writes bytes that bypass encryption (R54). -/
def plainRun (m : Mach) (pa : Nat) (bs : List Byte) : Mach := commitRun ((linesOf pa bs.length).foldl (fun m l => touchLine m 256 0 l) m) pa bs

/-! ### Home slices and their ways (R180, R196) -/

/-- The hash value of a physical line: the exclusive or of the nine 5-bit fields of its number. -/
def hashOf (line : Nat) : Nat := (List.range 9).foldl (fun x i => x ^^^ (line / 32 ^ i % 32)) 0

/-- The slice of a die that its slice-hash entry maps a hash value to (R23, R27). -/
def sliceAt (m : Mach) (die h : Nat) : Nat := smGet h m.sliceMap (32 * die + h)

/-- `HOME` of a frame by the frame-home table; a frame that no leaf maps is homed on the die of its stack. -/
def homeOf (m : Mach) (pa : Nat) : Nat :=
  match m.frameHome.find? (fun e => decide (e.1 ≤ pa / 4096 ∧ pa / 4096 < e.1 + e.2.1)) with
  | some e => e.2.2
  | none => pa / 0x2000000000

/-- The home slice of a line (R180), module-wide. -/
def homeSlice (m : Mach) (line : Nat) : Nat := let d := homeOf m (128 * line); 32 * d + sliceAt m d (hashOf line)

/-- Set of a line in its home slice: physical address bits [23:12], of 4096 sets of 16 ways (R179). -/
def setOf (line : Nat) : Nat := line / 32 % 4096

/-- The lines of open segments that hold a way of a line's set (R196). -/
def specInSet (m : Mach) (line : Nat) : List Nat :=
  let near := (m.crews.flatMap (fun c => c.seg.map (·.pa))).filter (fun l => setOf l == setOf line)
  if near.isEmpty then [] else (near.filter (fun l => homeSlice m l == homeSlice m line)).eraseDups

/-- Ways of each set of a line's home that set-asides have taken (R191). -/
def waysAside (m : Mach) (line : Nat) : Nat := (m.die (homeOf m (128 * line))).ways.foldl (fun t e => t + e.2) 0

/-- Does a line find every way of its set excluded: set aside, or held by a speculative line of an open segment (R196)? -/
def setFull (m : Mach) (line : Nat) : Bool :=
  let spec := specInSet m line
  !spec.isEmpty && !spec.contains line && decide (16 ≤ spec.length + waysAside m line)

/-- What waits for a way of a line's full set: where speculative lines alone fill it, the segment of the task that asks hardens (R196). -/
def wayStall (m : Mach) (line : Nat) : Stall := if waysAside m line = 0 then .specWay else .way

/-! ### Pages that Lennas maps (DESIGN CHOICE, assumption log 6) -/

/-- Is a line outside a frame? -/
def offFrame (f len l : Nat) : Bool := !decide (f / 128 ≤ l ∧ l < (f + len) / 128)

/-- A frame is cleared before it is used. -/
def clearFrame (m : Mach) (f len : Nat) : Mach :=
  { m with mem := m.mem.filter (fun e => !decide (f ≤ e.1 ∧ e.1 < f + len)), lineKey := m.lineKey.filter (fun e => offFrame f len e.1),
           dramKey := m.dramKey.filter (fun e => offFrame f len e.1), dirtyL2 := m.dirtyL2.filter (offFrame f len) }

/-- Where the frames of a stack begin, in pages: the upper half of the first stack of a die, all of the second (DESIGN CHOICE, assumption log 6). -/
def frameFrom (s : Nat) : Nat := if s % 2 = 0 then 2 ^ 23 else 0

/-- n contiguous free frames of a stack, aligned to their size. -/
def stackRun (m : Mach) (s n : Nat) : Option (Nat × Mach) :=
  let k := (frameFrom s + smGet 0 m.frames s + n - 1) / n * n
  if m.stacksOff.contains s ∨ 2 ^ 24 < k + n then none
  else
    let f := s * 0x1000000000 + 4096 * k
    some (f, clearFrame { m with frames := smSet 0 m.frames s (k + n - frameFrom s) } f (4096 * n))

/-- The stacks that back a die's frames: its own, or when it has none those of the nearest other die. [DESIGN CHOICE, assumption log 6] -/
def stacksFor (m : Mach) (die : Nat) : List Nat :=
  let own (d : Nat) : List Nat := [2 * d, 2 * d + 1].filter (fun s => !m.stacksOff.contains s)
  (((List.range 8).map (fun e => own (die ^^^ e))).find? (fun l => !l.isEmpty)).getD []

/-- n contiguous free frames on a die's stacks, aligned to their size (R181). [DESIGN CHOICE, assumption log 6] -/
def allocRun (m : Mach) (die n : Nat) : Option (Nat × Mach) := (stacksFor m die).findSome? (fun s => stackRun m s n)

/-- A free frame on a die. -/
def allocFrame (m : Mach) (die : Nat) : Option (Nat × Mach) := allocRun m die 1

/-- Write the 16 bytes of an entry (R168). -/
def putEntry (m : Mach) (ea e : Nat) : Mach := { m with mem := memWrite m.mem ea (toBytes 16 e) }

/-- Make a leaf of a 4 KiB page stand for an address, building the tables above it. -/
def mapFrom (m : Mach) (die va leaf : Nat) : Nat → Nat → Option Mach
  | 0, tb => some (putEntry m (tb + 16 * vaIndex 0 va) leaf)
  | l + 1, tb =>
    let ea := tb + 16 * vaIndex (l + 1) va
    let e := memNum m.mem ea 16
    if bit e 63 && !bit e 62 then mapFrom m die va leaf l (bits e 51 12 * 4096)
    else
      match allocFrame m die with
      | none => none
      | some (f, m) => mapFrom (putEntry m ea (2 ^ 63 + f)) die va leaf l f

/-- A leaf of a 4 KiB page: home, key treatment, permissions (R169). -/
def mkLeaf (home treat : Nat) (r w x sup chk : Bool) (frame : Nat) : Nat :=
  home * 2 ^ 125 + (if treat = 256 then 2 ^ 124 else treat * 2 ^ 109) + b2n chk * 2 ^ 123 +
  2 ^ 63 + 2 ^ 62 + b2n r * 2 ^ 61 + b2n w * 2 ^ 60 + b2n x * 2 ^ 59 + b2n sup * 2 ^ 58 + frame

/-- Treatment of the pages that Lennas makes for a job (R457): its first key slot, or plaintext. -/
def jobTreat (m : Mach) (job : Nat) : Nat :=
  match m.job job with
  | some j => j.keys.headD 256
  | none => 256

/-- Lennas records a frame's home; a frame that lies on the stacks of its home needs no entry (R180). -/
def setHome (m : Mach) (f n die : Nat) : Mach :=
  { m with frameHome := if f / 0x2000000000 = die ∧ (f + 4096 * n - 1) / 0x2000000000 = die then m.frameHome.filter (fun e => e.1 != f / 4096) else (f / 4096, n, die) :: m.frameHome.filter (fun e => e.1 != f / 4096) }

/-- Rewrite a leaf in each of its replicas, the first of them at `ea`; every replica keeps its own `A` and `D` (R170, R172). -/
def putLeaf (m : Mach) (ea n : Nat) (new : Nat → Nat) : Mach :=
  (List.range (4 ^ (n % 4))).foldl (fun m k => let a := ea + 16 * k; putEntry m a (new (memNum m.mem a 16))) m

/-- The leaves under the table at `tb`: where each entry stands, and the entry. -/
def leavesUnder (m : Mach) : Nat → Nat → List (Nat × Nat)
  | level, tb =>
    (List.range (if level = 5 then 32 else 256)).flatMap (fun i =>
      let ea := tb + 16 * i
      let e := memNum m.mem ea 16
      if !bit e 63 then []
      else if bit e 62 then [(ea, e)]
      else match level with | 0 => [] | l + 1 => leavesUnder m l (bits e 51 12 * 4096))

/-- Every replica of every leaf of a job is cleared; its frames have no home of their own any more (R170, R180). -/
def clearLeaves (m : Mach) (job : Nat) : Mach :=
  let ls := leavesUnder m 5 (ptrootOf m job)
  let pages := ls.map (fun e => bits e.2 51 12)
  let m := ls.foldl (fun m e => putEntry m e.1 0) m
  { m with frameHome := m.frameHome.filter (fun e => !pages.contains e.1) }

/-- Map a fresh page at an address of a job under a treatment. -/
def mapUnder (m : Mach) (job va die treat : Nat) (r w x sup chk : Bool) : Option Mach :=
  match allocFrame m die with
  | none => none
  | some (f, m) => mapFrom (setHome m f 1 die) die va (mkLeaf die treat r w x sup chk f) 5 (ptrootOf m job)

/-- Map a fresh page at an address of a job, under the job's treatment (R457). -/
def mapFresh (m : Mach) (job va die : Nat) (r w x sup chk : Bool) : Option Mach := mapUnder m job va die (jobTreat m job) r w x sup chk

/-- Is the address in a demand-paged region of the job (R260)? -/
def inRegion (m : Mach) (job va : Nat) : Bool :=
  match m.job job with
  | some j => j.regions.any (fun r => decide (r.base ≤ va ∧ va < r.base + r.len))
  | none => false

/-- Lennas maps the page of a demand-paged address that no valid leaf translates, and the access restarts (R260). [DESIGN CHOICE, assumption log 6] -/
def demandPage (m : Mach) (core job va : Nat) : Mach :=
  if inRegion m job va then
    match walk m job va with
    | .ok _ => m
    | .error _ => (mapFresh m job va (dieOf core) true true false false false).getD m
  else m

/-! ### The checks of R173 -/

/-- One access: its lane, virtual address and size. -/
structure Acc where
  lane : Nat
  va   : Nat
  size : Nat

/-- An access that has passed: where it goes and the leaf that translated it. -/
structure Ok where
  acc  : Acc
  pa   : Nat
  leaf : BitVec 128

/-- Who accesses: the core, the job and whether with supervisor privilege; for an engine its operation, by which its reads of the host aperture are
known (0: none). -/
structure Who where
  core : Nat
  job  : Nat
  sup  : Bool
  op   : Nat := 0

def whoOf (c : Crew) : Who := { core := c.core, job := c.job, sup := isControl c.core }

/-- The BTE aperture, which is never translated (R354). -/
def inBte (va : Nat) : Bool := decide (0x1FFFFFFFFF80000 ≤ va ∧ va < 2 ^ 57)

/-- Outcome of the checks for one access: the order of the check that fails with its trap, or the translation. `kind` is 1 read, 2 write,
3 atomic, 4 fetch; `ap` says whether the operation may reach the host aperture. -/
def check1 (m : Mach) (w : Who) (kind : Nat) (ap : Bool) (a : Acc) : Except (Nat × Halt) Ok :=
  let va := w64 a.va
  let ln := some a.lane
  if inBte a.va then .error (0, trapOf 0x21 ln va (w64 (kind * 256)) 0 0)
  else if 2 ^ 57 ≤ a.va then .error (1, trapOf 0x20 ln va (w64 (kind * 256 + 6)) 0 0)
  else if a.va % a.size ≠ 0 then .error (2, trapOf 0x22 ln va (w64 a.size) 0 0)
  else
    match leafFor m w.core w.job a.va (kind == 2 || kind == 3) with
    | .error (lv, ea) =>
      if inRegion m w.job a.va then .error (3, trapOf 0x20 ln va (w64 (kind * 256 + 7)) 0 0)
      else .error (3, trapOf 0x20 ln va (w64 (kind * 256 + lv)) (w64 ea) 0)
    | .ok (l, _) =>
      let need := match kind with | 1 => lfR l | 2 => lfW l | 3 => lfR l && lfW l | _ => lfX l
      let pa := paOf l a.va
      if !need || (lfSUP l && !w.sup) || (kind == 3 && lfVIEW l) || (isAperture pa && !ap) then
        .error (4, trapOf 0x21 ln va (w64 (kind * 256 + lfInfo l)) 0 0)
      else
        let t := treatAt m l pa
        match (if isAperture pa then none else keyFails m t (pa / 128)) with
        | some rec => .error (5, trapOf 0x23 ln va (w64 (if t = 256 then 0x100 else t)) (w64 rec) 0)
        | none => .ok { acc := a, pa := pa, leaf := l }

/-- The earliest failing check over a list of accesses, the lowest lane first within it. -/
def firstFail (l : List (Except (Nat × Halt) Ok)) : Option Halt :=
  (l.foldl (fun best x =>
    match x, best with
    | .error e, none => some e
    | .error e, some b => if e.1 < b.1 then some e else some b
    | .ok _, b => b) (none : Option (Nat × Halt))).map (·.2)

/-- Lines that a host may hold are asked for before the access proceeds (R36). [DEDUCED, assumption log 36] -/
def snoopSide (lines : List Nat) (m : Mach) : Mach :=
  lines.foldl (fun m l =>
    if m.held.contains l && !m.snoops.contains l then ({ m with snoops := m.snoops ++ [l], snoopAt := smPut m.snoopAt l m.clk }).send (.bisnp l) else m) m

/-- Must a write wait at its line's home: for the host (R36), for a way (R196), or behind another that waits? -/
def homeWaits (m : Mach) (cp line : Nat) : Bool :=
  m.held.contains line || (cp != 3 && setFull m line) || m.owed.any (fun o => o.pa / 128 == line)

/-- Lennas or hardware writes bytes of one line in its own name: at once, or when the line's home can take them (R36, R196). [DESIGN CHOICE, assumption log 6] -/
def homeWrite (m : Mach) (treat cp pa : Nat) (bs : List Byte) : Mach :=
  if homeWaits m cp (pa / 128) then
    let m := snoopSide [pa / 128] m
    { m with owed := m.owed ++ [{ treat := treat, cp := cp, pa := pa, bytes := bs }] }
  else commitRun (touchLine m treat cp (pa / 128)) pa bs

/-- The writes that wait at their homes try again, in their order. [DESIGN CHOICE, assumption log 6] -/
def owedDrain (m : Mach) : Mach := m.owed.foldl (fun m o => homeWrite m o.treat o.cp o.pa o.bytes) { m with owed := [] }

/-- A committed byte, or the one that a write which waits at its home will leave there. -/
def homeByte (m : Mach) (pa : Nat) : Byte :=
  m.owed.foldl (fun b o => if o.pa ≤ pa ∧ pa < o.pa + o.bytes.length then o.bytes.getD (pa - o.pa) 0 else b) (memGet m.mem pa)

/-- Physical lines of virtual ranges, each with its cache policy, where a leaf translates them. -/
def lineLeaves (m : Mach) (job : Nat) (ranges : List (Nat × Nat)) : List (Nat × Nat) :=
  (ranges.flatMap (fun r => (List.range (if r.2 = 0 then 0 else (r.1 + r.2 - 1) / 128 + 1 - r.1 / 128)).map (fun i => 128 * (r.1 / 128 + i) % 2 ^ 57))).filterMap
    (fun va => match walk m job va with | .ok (l, _) => some (paOf l va / 128, lfCP l) | .error _ => none)

/-- Physical lines of virtual ranges. -/
def rangeLines (m : Mach) (job : Nat) (ranges : List (Nat × Nat)) : List Nat := (lineLeaves m job ranges).map (·.1)

/-- The lines of virtual ranges that the host may hold (R36). [DEDUCED, assumption log 36] -/
def heldLines (m : Mach) (w : Who) (ranges : List (Nat × Nat)) : List Nat :=
  if m.held.isEmpty then []
  else (rangeLines m w.job ranges).filter m.held.contains

/-- The operation that holds a line, of those that hold some ranges (R242): of those that have been issued and have not written it, the first. [DEDUCED, assumption log 19] -/
def holderIn (rs : List (Nat × Nat × Nat × Nat)) (m : Mach) (line : Nat) : Option Nat :=
  rs.foldl (fun b r =>
    match b with
    | some op => if op ≤ r.1 then b else if rangeHas m r line then some r.1 else b
    | none => if rangeHas m r line then some r.1 else none) none
where
  /-- Does a range of a job's memory touch a physical line? -/
  rangeHas (m : Mach) (r : Nat × Nat × Nat × Nat) (line : Nat) : Bool :=
    (List.range (if r.2.2.2 = 0 then 0 else (r.2.2.1 + r.2.2.2 - 1) / 128 + 1 - r.2.2.1 / 128)).any (fun i =>
      let va := 128 * (r.2.2.1 / 128 + i) % 2 ^ 57
      match walk m r.2.1 va with
      | .ok (l, _) => paOf l va / 128 == line
      | .error _ => false)

/-- The engine operation that holds a line (R242). -/
def engineHolder (m : Mach) (line : Nat) : Option Nat := holderIn (heldRanges m) m line

/-- Is a line held by an engine for another operation than `op`? -/
def engineHeld (m : Mach) (op line : Nat) : Bool :=
  match engineHolder m line with
  | some h => h != op
  | none => false

/-- Does an engine hold a line against the current crew: by an operation issued before the crew's access came to the line's home (R184, R242)? -/
def crewHeld (m : Mach) (line : Nat) : Bool :=
  match engineHolder m line with
  | some h => !(m.cur.atHome.lines.contains line && decide (m.cur.atHome.op ≤ h))
  | none => false

/-- The current crew's accesses wait at the homes of lines: behind the operations issued so far, or in the place that they have. -/
def queueAt (lines : List Nat) (m : Mach) : Mach :=
  { m with cur := { m.cur with atHome := { lines := lines, op := if m.cur.stall = some .engine then m.cur.atHome.op else m.nextOp } } }

/-- Does a crew wait at the home of a line of virtual ranges in front of an engine operation? -/
def crewsFirst (m : Mach) (w : Who) (ranges : List (Nat × Nat)) : Bool :=
  let ahead (c : Crew) (l : Nat) : Bool := c.stall == some .engine && c.atHome.lines.contains l && (w.op == 0 || decide (c.atHome.op ≤ w.op))
  m.crews.any (fun c => c.stall == some .engine) && (rangeLines m w.job ranges).any (fun l => m.crews.any (fun c => ahead c l))

/-- Does another engine's command hold a line of virtual ranges? -/
def engineBusy (m : Mach) (w : Who) (ranges : List (Nat × Nat)) : Bool :=
  (heldRanges m).any (fun r => r.1 != w.op) && (rangeLines m w.job ranges).any (engineHeld m w.op)

/-- Does a copy command hold a line of virtual ranges? The collective engines are one agent: what they hold for one contribution keeps back no other (R242).
[DEDUCED, assumption log 28] -/
def copyBusy (m : Mach) (w : Who) (ranges : List (Nat × Nat)) : Bool :=
  !(copyRanges m).isEmpty && (rangeLines m w.job ranges).any (fun l => (holderIn (copyRanges m) m l).isSome)

/-- Does a line of virtual ranges that the L2 may take find no way of its set (R196)? -/
def engineShort (m : Mach) (w : Who) (ranges : List (Nat × Nat)) : Bool :=
  m.crews.any (fun c => !c.seg.isEmpty) && (lineLeaves m w.job ranges).any (fun e => e.2 != 3 && setFull m e.1)

/-- Must an engine wait before it reaches virtual ranges: for another engine's command or a crew's access (R242), or for a way (R196)? -/
def engineStops (m : Mach) (w : Who) (ranges : List (Nat × Nat)) : Bool := engineBusy m w ranges || crewsFirst m w ranges || engineShort m w ranges

/-- Crews whose accesses wait at the home of a line. -/
def homeQueue (m : Mach) (line : Nat) : Nat := (m.crews.filter (fun c => c.stall == some .engine && c.atHome.lines.contains line)).length

/-- Each access that is served at its line's home samples the depth of the queue there (R31). [DESIGN CHOICE, assumption log 9] -/
def sampleHomes (m : Mach) (lines : List Nat) : Mach :=
  if m.captures.isEmpty then m else lines.foldl (fun m l => monSample m .homeDepth (homeSlice m l) (homeQueue m l)) m

/-- All the checks of R173 for a list of accesses, with the fills of those that pass. [DEDUCED, assumption log 8] -/
def checkAll (m : Mach) (w : Who) (kind : Nat) (ap : Bool) (l : List Acc) : R (Mach × List Ok) :=
  let m := l.foldl (fun m a => demandPage m w.core w.job a.va) m
  let rs := l.map (check1 m w kind ap)
  match firstFail rs with
  | some h => .error h
  | none =>
    let oks := rs.filterMap (fun r => match r with | .ok o => some o | .error _ => none)
    let lines := (oks.filter (fun o => !isAperture o.pa)).map (fun o => o.pa / 128)
    if lines.any (m.held.contains ·) then .error (.stall .hostLine (snoopSide lines))
    else if lines.any (fun l => crewHeld m l && !(kind == 2 && m.cur.seg.any (fun q => q.pa == l))) then .error (.stall .engine (queueAt lines))
    else
    match (oks.filter (fun o => !isAperture o.pa && lfCP o.leaf != 3)).find? (fun o => setFull m (o.pa / 128)) with
    | some o => .error (.stall (wayStall m (o.pa / 128)) id)
    | none =>
      let m := oks.foldl (fun m o =>
        let m := fillTlb m w.core w.job o.acc.va (kind == 2 || kind == 3)
        if isAperture o.pa then m else touchLine m (treatAt m o.leaf o.pa) (lfCP o.leaf) (o.pa / 128)) m
      .ok (sampleHomes m lines, oks)

/-- Every page of a byte range, checked in ascending order (R362, R400). The accesses are one byte in each page. -/
def pagesOf (va len : Nat) : List Acc :=
  if len = 0 then [] else
    (List.range ((va + len - 1) / 4096 + 1 - va / 4096)).map
      (fun i => { lane := 0, va := if i = 0 then va else (va / 4096 + i) * 4096, size := 1 })

/-- An engine's address check: the translation, or none when any check fails (R173, R414). -/
def engineCheck (m : Mach) (w : Who) (kind : Nat) (va : Nat) : Option (Ok × Mach) :=
  let m := demandPage m w.core w.job va
  match check1 m w kind true { lane := 0, va := va, size := 1 } with
  | .ok o =>
    let m := fillTlb m w.core w.job va (kind == 2)
    some (o, if isAperture o.pa then m else touchLine m (treatAt m o.leaf o.pa) (lfCP o.leaf) (o.pa / 128))
  | .error _ => none

/-- Committed bytes of a virtual range as an engine reads them; none when a page fails (R237). -/
def engineRead (w : Who) : Nat → Mach → Nat → Option (List Byte × Mach)
  | 0, m, _ => some ([], m)
  | n + 1, m, va =>
    match engineCheck m w 1 va with
    | none => none
    | some (o, m) =>
      match engineRead w n m (va + 1) with
      | none => none
      | some (t, m) => some (memGet m.mem o.pa :: t, m)

/-- A crew-uniform address operand read as a number. -/
def natOf (x : Word) : Nat := x.toNat

end Sys2Proof.Machine
end

