-- ==== Sys2Proof/Machine/Image.lean ====
section
/-! DEFINITION. Context images and accumulator save areas as memory holds them (R144 to R146, R151, R156 to R158). -/

namespace Sys2Proof.Machine

/-- Bytes at an offset, as (offset, byte) pairs. -/
def cellsAt (o : Nat) (bs : List Byte) : List (Nat × Byte) := (List.range bs.length).map (fun i => (o + i, bs.getD i 0))

/-- Tags packed two in a byte, n of them (R145). -/
def packTags (l : List (Nat × Tag)) (n : Nat) : List Byte :=
  (List.range (n / 2)).map (fun i => BitVec.ofNat 8 ((smGet tINV l (2 * i)).toNat + 16 * (smGet tINV l (2 * i + 1)).toNat))

/-- `CREWCTL` (R146). -/
def crewCtl (c : Crew) : Nat := c.flags.toNat * 256 + b2n c.chk * 8

/-- `DECLINFO`: bytes [15:8] of the declaration (R285). -/
def declInfo (d : Decl) : Nat :=
  Nat.log2 d.width + 2 ^ 8 * (b2n d.chk + 2 * b2n d.hdlr) + 2 ^ 16 * d.vregs + 2 ^ 32 * d.sregs + 2 ^ 40 * d.handles + 2 ^ 48 * d.masks + 2 ^ 56 * d.accs

/-- What an image holds of 32 lanes, from lane `lo` on: their `v` lines, PCs and masks (R144, R145, R156). -/
def laneCells (c : Crew) (lo : Nat) : List (Nat × Byte) :=
  (c.v.filter (fun e => decide (lo ≤ e.1 % 64 ∧ e.1 % 64 < lo + 32))).flatMap (fun e => cellsAt (128 * (e.1 / 64) + 4 * (e.1 % 64 - lo)) (toBytes 4 e.2.toNat)) ++
  ((List.range 32).flatMap (fun j => cellsAt (0x10000 + 8 * j) (toBytes 8 (c.pcs.getD (lo + j) 0).toNat))) ++
  ((List.range 12).flatMap (fun i => cellsAt (0x10640 + 4 * i) (toBytes 4 (bits (pGet c i).toNat (lo + 31) lo)))) ++
  cellsAt 0x10670 (toBytes 4 (bits c.live.toNat (lo + 31) lo)) ++ cellsAt 0x10674 (toBytes 4 (bits c.waiting.toNat (lo + 31) lo))

/-- The state that the first image holds once for the crew or the pair (R145, R156). `ACCMAP`'s contents and the places of the armed flag and the phase
are open: bytes 0 and 1 of their eight. So is what `TASKID` holds: the number by which the model knows the task. [DESIGN CHOICE, assumption log 14] -/
def crewCells (c : Crew) : List (Nat × Byte) :=
  (List.range 128).flatMap (fun i => cellsAt (0x10100 + 8 * i) (toBytes 8 (sGet c i).toNat)) ++ cellsAt 0x10500 (packTags c.vtag 512) ++
  cellsAt 0x10600 (packTags c.stag 128) ++ cellsAt 0x10678 (toBytes 8 (crewCtl c)) ++
  (List.range 8).flatMap (fun i => cellsAt (0x10680 + 8 * i) (toBytes 8 (mGet c i).toNat)) ++
  (List.range 16).flatMap (fun i => cellsAt (0x106C0 + 8 * i) (toBytes 8 (hGet c i).toNat)) ++ cellsAt 0x10740 (toBytes 32 c.ped.toNat) ++
  cellsAt 0x10760 (([c.decl.addr, c.hnd, c.arg.toNat, c.aseq.toNat, c.draw.toNat, c.tid, declInfo c.decl, (Config.accMap c.tid).toNat] : List Nat).flatMap (toBytes 8)) ++
  cellsAt 0x107A0 (toBytes 8 c.accSave) ++ cellsAt 0x107A8 (toBytes 8 c.pairBase) ++
  cellsAt 0x107B0 (toBytes 8 (if c.monitor.armed then c.monitor.addr.toNat else 0) ++ toBytes 8 (b2n c.monitor.armed + 256 * b2n c.monitor.fired))

/-- Committed bytes at virtual addresses of a job, as Lennas reads them, with those of its writes that wait at their homes; none when a page is not mapped for reading, or leads to the host's memory.
[DESIGN CHOICE, assumption log 6] -/
def jobRead (m : Mach) (job : Nat) : Nat → Nat → Option (List Byte)
  | 0, _ => some []
  | n + 1, va =>
    match walk m job va with
    | .ok (l, _) =>
      if lfR l && !isAperture (paOf l va) then
        match jobRead m job n (va + 1) with
        | some t => some (homeByte m (paOf l va) :: t)
        | none => none
      else none
    | .error _ => none

/-- A declaration from its record (R285). `WIDTH` 7 is reserved and reads as 6. [DESIGN CHOICE, assumption log 6] -/
def parseDecl (addr : Nat) (b : List Byte) : Decl :=
  { addr := addr, entry := fld b 0 8, width := 2 ^ min (fld b 8 1 % 8) 6, chk := bit (fld b 9 1) 0, hdlr := bit (fld b 9 1) 1, vregs := fld b 10 2, sregs := fld b 12 1,
    handles := fld b 13 1, masks := fld b 14 1, accs := fld b 15 1, aff := fld b 16 2, hdecl := fld b 24 8, redmap := fld b 32 8, piped := fld b 40 8 }

/-- A recorded declaration as its record reads at a task's start (R285); one whose record Lennas cannot read is taken as recorded.
[DESIGN CHOICE, assumption log 6] -/
def declNow (m : Mach) (job : Nat) (d : Decl) : Decl :=
  match jobRead m job 64 d.addr with
  | some b => parseDecl d.addr b
  | none => d

/-- A run of memory, whole lines of it, is made to hold some bytes and zeros beside them; its lines that hold anything are resident under a treatment. A line
that must wait at its home is written when the home can take it (R36, R196). -/
def putRange (m : Mach) (treat base len : Nat) (cells : List (Nat × Byte)) : Mach :=
  let inside (a : Nat) : Bool := decide (base ≤ a ∧ a < base + len)
  let cells := cells.filter (fun e => e.2 != 0)
  let lines : List Nat := ((m.mem.filter (fun e : Host.Cell => inside e.1)).map (fun e : Host.Cell => e.1 / 128) ++ cells.map (fun e : Nat × Byte => (base + e.1) / 128)).eraseDups
  let late := lines.filter (homeWaits m 0)
  let m := late.foldl (fun m l =>
    homeWrite { m with owed := m.owed.filter (fun o => o.pa / 128 != l) } treat 0 (128 * l) ((List.range 128).map (fun i => ((cells.find? (fun e => e.1 == 128 * l + i - base)).map (·.2)).getD 0))) m
  let lines := lines.filter (fun l => !late.contains l)
  let here (a : Nat) : Bool := inside a && !late.contains (a / 128)
  let m := lines.foldl (fun m l => touchLine m treat 0 l) m
  { m with mem := memPatch (m.mem.filter (fun e => !here e.1)) base (cells.filter (fun e => here (base + e.1)))
           dirtyL2 := lines.foldl (fun d l => if d.contains l then d else d ++ [l]) m.dirtyL2 }

/-- The treatment of a crew's image: of its job's first key slot, or plaintext; a control core's bypasses encryption (R54, R144). -/
def imageTreat (m : Mach) (c : Crew) : Nat := if isControl c.core then 256 else jobTreat m c.job

/-- The image of a crew, or the two of a pair, come to hold its state (R144, R156). -/
def putImage (m : Mach) (c : Crew) : Mach :=
  if c.imgBase = 0 then m
  else
    let t := imageTreat m c
    let m := putRange m t c.imgBase 0x11000 (laneCells c 0 ++ crewCells c)
    if c.pairBase = 0 then m else putRange m t c.pairBase 0x11000 (laneCells c 32 ++ cellsAt 0x107A8 (toBytes 8 c.imgBase))

/-- The images of the crews that are switched out hold their state: Lennas reads only those (R151). They do from the cycle after the switch on.
[DESIGN CHOICE, assumption log 14] -/
def putImages (m : Mach) : Mach := (m.crews.filter (fun c => c.slots.isEmpty && c.status != .ended)).foldl putImage m

/-- The accumulators of a crew's tiles go to its save area, row by row (R158). The order of an accumulator's elements is open. [DESIGN CHOICE, assumption log 14] -/
def saveTiles (m : Mach) (c : Crew) : Mach :=
  let m := putRange m (imageTreat m c) c.accSave (16384 * c.decl.accs)
    (c.acc.flatMap (fun e => cellsAt (16384 * (e.1 / 4096) + 4 * (e.1 % 4096)) (toBytes 4 e.2.toNat)))
  m.setCrew { c with tiles := false }

/-- Tiles of a core that hold a crew's accumulators, its own or evictable ones of a crew that is switched out. -/
def tilesHeld (m : Mach) (core : Nat) : Nat := (m.crews.filter (fun c => c.core == core && c.tiles)).foldl (fun t c => t + c.decl.accs) 0

/-- An incoming task needs n tiles: evictable ones go to their save areas until they are free (R158). Whose go first is open: the crews in tid order.
[DESIGN CHOICE, assumption log 14] -/
def makeTiles (m : Mach) (core n : Nat) : Mach :=
  (m.crews.filter (fun c => c.core == core && c.tiles && c.slots.isEmpty)).foldl
    (fun m c => if 8 < tilesHeld m core + n then saveTiles m c else m) m

end Sys2Proof.Machine
end

