-- ==== Sys2Proof/Machine/Lee.lean ====
section
/-! DEFINITION. The lee controller of a die (R28 to R30, R437). -/

namespace Sys2Proof.Machine

/-- Class mark of a grant that is charged on its own (`mldb`, BTE), beside the steps of a core, which are charged once. -/
def leeAlone : Nat := 4

/-- Units that the steps of one core are charged: the highest cost among them (R28). -/
def leeCoreMax (l : List LeeReq) (core : Nat) : Nat :=
  l.foldl (fun t g => if g.core = core ∧ g.cls ≠ leeAlone then max t g.units else t) 0

/-- Units of a crew's hold that its operations on a die draw on: those of its steps once, at the highest among them (R28, R437). -/
def leeStepDrawn (l : Lee) (tid : Nat) : Nat := l.grants.foldl (fun t g => if g.own = tid ∧ g.cls ≠ leeAlone then max t g.drawn else t) 0
def leeAloneDrawn (l : Lee) (tid : Nat) : Nat := l.grants.foldl (fun t g => if g.own = tid ∧ g.cls = leeAlone then t + g.drawn else t) 0

/-- Units granted now on a die: steps, other operations, granted requests, held units, and what operations still draw of a hold that has been given back. -/
def leeUsed (m : Mach) (die : Nat) : Nat :=
  let l := (m.die die).lee
  let owners := (l.grants.map (·.own)).eraseDups
  let held (t : Nat) : Nat := match m.crew t with | some c => c.leeHeld | none => 0
  owners.foldl (fun t o => t + (leeStepDrawn l o + leeAloneDrawn l o - held o)) 0 +
  let cores := (l.grants.map (·.core)).foldl (fun t c => if t.contains c then t else t ++ [c]) []
  cores.foldl (fun t c => t + leeCoreMax l.grants c) 0 +
  l.grants.foldl (fun t g => if g.cls = leeAlone then t + g.units else t) 0 +
  l.granted.foldl (fun t g => t + g.units) 0 +
  m.crews.foldl (fun t c => if dieOf c.core = die then t + c.leeHeld else t) 0

/-- Does a waiting request go before one of this crew and class (R29)? -/
def leeBlocked (l : Lee) (tid cls : Nat) : Bool :=
  (l.waiting.takeWhile (fun r => r.tid != tid)).any (fun r => decide (r.cls ≤ cls)) || l.waiting.any (fun r => r.tid != tid && decide (r.cls < cls))

def Mach.modLee (m : Mach) (die : Nat) (f : Lee → Lee) : Mach := m.modDie die (fun d => { d with lee := f d.lee })

/-- A crew asks for units: granted now, or a stall that leaves the request waiting (R29). The answer has no waiting request of it. [DEDUCED, assumption log 27] -/
def leeAsk (m : Mach) (c : Crew) (units : Nat) : R Mach :=
  let die := dieOf c.core
  let l := (m.die die).lee
  if units = 0 then .ok m
  else
    let clear (l : Lee) : Lee := { l with waiting := l.waiting.filter (fun r => r.tid != c.tid), granted := l.granted.filter (fun r => r.tid != c.tid) }
    if l.granted.any (fun r => r.tid == c.tid && decide (units ≤ r.units)) then .ok (m.modLee die clear)
    else if leeUsed m die + units ≤ l.budget ∧ leeBlocked l c.tid c.cls = false then .ok (monSample (m.modLee die clear) .leeGrant die 0)
    else
      .error (.stall .lee (fun m => m.modLee die (fun l =>
        if l.waiting.any (fun r => r.tid == c.tid) || l.granted.any (fun r => r.tid == c.tid) then l
        else { l with waiting := l.waiting ++ [{ tid := c.tid, core := c.core, cls := c.cls, units := units, since := m.clk }] })))

/-- What an operation costs a crew beyond the units that it holds and no other operation of it draws on (R437): a step shares those that the crew's other
steps draw on (R28). [DEDUCED, assumption log 27] -/
def leeExcess (m : Mach) (c : Crew) (step : Bool) (units : Nat) : Nat :=
  let l := (m.die (dieOf c.core)).lee
  units - (c.leeHeld - leeAloneDrawn l c.tid - (if step then 0 else leeStepDrawn l c.tid))

/-- An operation of a crew holds its units from its start to its retirement; `op` names it. -/
def leeCharge (m : Mach) (c : Crew) (op : Nat) (step : Bool) (units : Nat) : Mach :=
  let more := leeExcess m c step units
  m.modLee (dieOf c.core) (fun l =>
    { l with grants := l.grants ++ [{ tid := op, core := c.core, cls := if step then 0 else leeAlone, units := more, own := c.tid, drawn := units - more }] })
def leeRelease (m : Mach) (core op : Nat) : Mach :=
  m.modLee (dieOf core) (fun l => { l with grants := l.grants.filter (fun g => g.tid != op) })

/-- A crew's waiting or granted requests go (R29, R262). -/
def leeWithdraw (m : Mach) (c : Crew) : Mach :=
  m.modLee (dieOf c.core) (fun l => { l with waiting := l.waiting.filter (fun r => r.tid != c.tid), granted := l.granted.filter (fun r => r.tid != c.tid) })

/-- The first request of the waiting ones: lowest class, then arrival. [DEDUCED, assumption log 27] -/
def leeFirst (l : Lee) : Option LeeReq :=
  l.waiting.foldl (fun b r => match b with | none => some r | some x => if r.cls < x.cls then some r else some x) none

/-- The controller grants its first waiting request when it fits (R29). -/
def leeGrantOne (m : Mach) (die : Nat) : Mach :=
  match leeFirst (m.die die).lee with
  | none => m
  | some r =>
    if leeUsed m die + r.units ≤ (m.die die).lee.budget then
      monSample (m.modLee die (fun l => { l with waiting := l.waiting.filter (fun x => x.tid != r.tid), granted := l.granted ++ [r] })) .leeGrant die (m.clk - r.since)
    else m

end Sys2Proof.Machine
end

