-- ==== Sys2Proof/Machine/Float.lean ====
section
/-! DEFINITION. The floating-point formats (R317 to R319), the one rounding of exact values (R324, R325, R328) and the exact
operations of R331 to R338 on them. -/

namespace Sys2Proof.Machine

/-- A floating format: exponent and fraction bits, and whether its encodings are those of E4M3, without infinity (R317, R318). -/
structure Fmt where
  eb   : Nat
  fb   : Nat
  bias : Nat
  /-- E4M3: no infinity, NaN only at all ones -/
  e4m3 : Bool
  /-- saturating 8-bit format (R328) -/
  satf : Bool

def f32 : Fmt := { eb := 8, fb := 23, bias := 127, e4m3 := false, satf := false }
def f16 : Fmt := { eb := 5, fb := 10, bias := 15, e4m3 := false, satf := false }
def bf16 : Fmt := { eb := 8, fb := 7, bias := 127, e4m3 := false, satf := false }
def fE4M3 : Fmt := { eb := 4, fb := 3, bias := 7, e4m3 := true, satf := true }
def fE5M2 : Fmt := { eb := 5, fb := 2, bias := 15, e4m3 := false, satf := true }

/-- Element format of a type code (R330). -/
def fmtOf (y : Nat) : Fmt :=
  match y with
  | 7 => f16
  | 8 => bf16
  | 9 => fE4M3
  | 10 => fE5M2
  | _ => f32

/-- Bits of an encoding of the format. -/
def Fmt.width (f : Fmt) : Nat := 1 + f.eb + f.fb

/-- The canonical NaN (R318). -/
def Fmt.nan (f : Fmt) : Nat :=
  if f.e4m3 then 0x7F else (2 ^ f.eb - 1) * 2 ^ f.fb + 2 ^ (f.fb - 1)

/-- A decoded value: sign x m x 2^e. -/
inductive FV where
  | nan (signalling : Bool)
  | inf (neg : Bool)
  | num (neg : Bool) (m : Nat) (e : Int)
  deriving DecidableEq, Repr

/-- Read an encoding (R317, R318). -/
def decF (f : Fmt) (x : Nat) : FV :=
  let neg := bit x (f.eb + f.fb)
  let ex := x / 2 ^ f.fb % 2 ^ f.eb
  let fr := x % 2 ^ f.fb
  if f.e4m3 && ex == 15 && fr == 7 then .nan false
  else if !f.e4m3 && ex == 2 ^ f.eb - 1 then
    (if fr = 0 then .inf neg else .nan (!f.satf && decide (fr < 2 ^ (f.fb - 1))))
  else if ex = 0 then .num neg fr (1 - f.bias - f.fb)
  else .num neg (fr + 2 ^ f.fb) ((ex : Int) - f.bias - f.fb)

/-! ### Sticky flags (R326): NV 1, DZ 2, OF 4, UF 8, NX 16, as `CREWCTL`[12:8] -/

def fNV : BitVec 5 := 1
def fDZ : BitVec 5 := 2
def fOF : BitVec 5 := 4
def fUF : BitVec 5 := 8
def fNX : BitVec 5 := 16

/-- The largest finite value as m x 2^e. -/
def Fmt.maxM (f : Fmt) : Nat := if f.e4m3 then 14 else 2 ^ (f.fb + 1) - 1
def Fmt.maxE (f : Fmt) : Int := if f.e4m3 then 5 else (2 ^ f.eb - 2 : Int) - f.bias - f.fb
/-- Its encoding without sign. -/
def Fmt.maxBits (f : Fmt) : Nat := if f.e4m3 then 0x7E else (2 ^ f.eb - 1) * 2 ^ f.fb - 1

/-- Number of bits of a number. -/
def bitLen (m : Nat) : Nat := if m = 0 then 0 else Nat.log2 m + 1

/-- floor(x / 2^k) for any integer k. -/
def shiftTo (m : Nat) (k : Int) : Nat := if 0 ≤ k then m * 2 ^ k.toNat else m / 2 ^ (-k).toNat

/-- Rounding modes (R324): 0 nearest even, 1 toward zero, 2 down, 3 up, 4 stochastic with the 16-bit draw `r`. The value is
m x 2^e plus, when `st`, something below the last bit of m. The quantum is 2^q: the answer is the multiple of it and whether it is inexact. -/
def roundQ (rm r : Nat) (neg : Bool) (m : Nat) (e q : Int) (st : Bool) : Nat × Bool :=
  if q ≤ e then (m * 2 ^ (e - q).toNat, st)
  else
    let sh := (q - e).toNat
    let base := m / 2 ^ sh
    let rem := m % 2 ^ sh
    let inex := rem != 0 || st
    let up : Bool :=
      match rm with
      | 0 => decide (2 ^ sh < 2 * rem) || (decide (2 * rem = 2 ^ sh) && (st || base % 2 == 1))
      | 1 => false
      | 2 => neg && inex
      | 3 => !neg && inex
      | _ => decide (r < 2 ^ 16 * rem / 2 ^ sh)
    (base + b2n up, inex)

/-- An encoding of sign, and of a magnitude M x 2^q with q the quantum of its binade. -/
def encF (f : Fmt) (neg : Bool) (mm : Nat) (q : Int) : Nat :=
  let s := b2n neg * 2 ^ (f.eb + f.fb)
  -- a carry out of the precision moves to the next binade
  let (mm, q) := if mm = 2 ^ (f.fb + 1) then (2 ^ f.fb, q + 1) else (mm, q)
  if mm < 2 ^ f.fb then s + mm
  else s + ((q + f.fb + f.bias).toNat) * 2 ^ f.fb + (mm - 2 ^ f.fb)

/-- Round an exact non-zero magnitude m x 2^e (plus a sticky rest) to the format (R324, R328). -/
def roundF (f : Fmt) (rm r : Nat) (neg : Bool) (m : Nat) (e : Int) (st : Bool) : Nat × BitVec 5 :=
  if m = 0 ∧ st = false then (b2n neg * 2 ^ (f.eb + f.fb), 0)
  else
    let top : Int := e + bitLen m - 1
    let emin : Int := 1 - f.bias
    let qn : Int := top - f.fb
    let q : Int := if qn < emin - f.fb then emin - f.fb else qn
    let (mm, inex) := roundQ rm r neg m e q st
    -- judged with an unbounded exponent range; RS judges with RNE
    let rmj := if rm = 4 then 0 else rm
    let (mj, _) := roundQ rmj r neg m e qn st
    let above := decide (f.maxM * 2 ^ (f.maxE - (min qn f.maxE)).toNat < mj * 2 ^ (qn - (min qn f.maxE)).toNat)
    let s := b2n neg * 2 ^ (f.eb + f.fb)
    if above then
      if f.satf then (s + f.maxBits, fOF ||| fNX)
      else
        let toInf := match rmj with | 0 => true | 1 => false | 2 => neg | _ => !neg
        (if toInf then s + (2 ^ f.eb - 1) * 2 ^ f.fb else s + f.maxBits, fOF ||| fNX)
    else
      let past := decide (f.maxM * 2 ^ (f.maxE - (min q f.maxE)).toNat < mm * 2 ^ (q - (min q f.maxE)).toNat)
      if past then (s + f.maxBits, fNX)
      else
        let tiny := decide (mj * 2 ^ (qn - (min qn emin)).toNat < 2 ^ (emin - (min qn emin)).toNat)
        (encF f neg mm q, (if inex then fNX else 0) ||| (if inex && tiny then fUF else 0))

/-- An exact result, before rounding. -/
inductive Ex where
  | nan (nv : Bool)
  | inf (neg : Bool)
  | val (neg : Bool) (m : Nat) (e : Int) (st : Bool)
  deriving DecidableEq, Repr

/-- Round an exact result (R318, R324). Infinities saturate in the 8-bit formats and set OF; a NaN there sets NV (R328). -/
def roundEx (f : Fmt) (rm r : Nat) (x : Ex) : Nat × BitVec 5 :=
  match x with
  | .nan nv => (f.nan, if nv || f.satf then fNV else 0)
  | .inf neg =>
    let s := b2n neg * 2 ^ (f.eb + f.fb)
    if f.satf then (s + f.maxBits, fOF) else (s + (2 ^ f.eb - 1) * 2 ^ f.fb, 0)
  | .val neg m e st => roundF f rm r neg m e st

def isSig : FV → Bool
  | .nan s => s
  | _ => false

def isNan : FV → Bool
  | .nan _ => true
  | _ => false

def isZero : FV → Bool
  | .num _ m _ => m == 0
  | _ => false

def negOf : FV → Bool
  | .nan _ => false
  | .inf n => n
  | .num n _ _ => n

/-- A signed integer times 2^e as an exact result; `z` is the sign of an exact zero. -/
def exOfInt (i : Int) (e : Int) (z : Bool) : Ex :=
  if i = 0 then .val z 0 e false else .val (decide (i < 0)) i.natAbs e false

/-- The signed integer a value is of 2^e, for e not above its own exponent. -/
def intAt (neg : Bool) (m : Nat) (ev e : Int) : Int :=
  let x : Int := m * 2 ^ (ev - e).toNat
  if neg then -x else x

/-- The sign of an exact zero sum (R331): +0 except under RDN, and except when every addend is -0. -/
def zeroSign (rm : Nat) (allNeg allPos : Bool) : Bool := if allNeg then true else if allPos then false else rm == 2

/-- A + B exactly (R331). -/
def addEx (rm : Nat) (a b : FV) : Ex :=
  match a, b with
  | .nan s, y => .nan (s || isSig y)
  | x, .nan s => .nan (s || isSig x)
  | .inf n, .inf k => if n = k then .inf n else .nan true
  | .inf n, .num _ _ _ => .inf n
  | .num _ _ _, .inf n => .inf n
  | .num na ma ea, .num nb mb eb =>
    let e := min ea eb
    exOfInt (intAt na ma ea e + intAt nb mb eb e) e (zeroSign rm (na && nb) (!na && !nb))

/-- -A, for subtraction. -/
def negFV : FV → FV
  | .nan s => .nan s
  | .inf n => .inf (!n)
  | .num n m e => .num (!n) m e

/-- A x B exactly. -/
def mulEx (a b : FV) : Ex :=
  match a, b with
  | .nan s, y => .nan (s || isSig y)
  | x, .nan s => .nan (s || isSig x)
  | .inf n, .inf k => .inf (n != k)
  | .inf n, .num k m _ => if m = 0 then .nan true else .inf (n != k)
  | .num k m _, .inf n => if m = 0 then .nan true else .inf (n != k)
  | .num na ma ea, .num nb mb eb => .val (na != nb) (ma * mb) (ea + eb) false

/-- The sum of exact results, with one rounding to follow (R331, R338). [DEDUCED, assumption log 17] -/
def sumEx (rm : Nat) (l : List Ex) : Ex :=
  let nan := l.any (fun x => match x with | .nan _ => true | _ => false)
  let nv := l.any (fun x => match x with | .nan v => v | _ => false)
  let pi := l.any (fun x => match x with | .inf n => !n | _ => false)
  let ni := l.any (fun x => match x with | .inf n => n | _ => false)
  if nan then .nan (nv || (pi && ni))
  else if pi && ni then .nan true
  else if pi then .inf false
  else if ni then .inf true
  else
    let e := l.foldl (fun k x => match x with | .val _ m ev _ => if m = 0 then k else min k ev | _ => k) (0 : Int)
    let s := l.foldl (fun t x => match x with | .val n m ev _ => if m = 0 then t else t + intAt n m ev e | _ => t) (0 : Int)
    let allNeg := l.all (fun x => match x with | .val n _ _ _ => n | _ => false)
    let allPos := l.all (fun x => match x with | .val n _ _ _ => !n | _ => false)
    exOfInt s e (zeroSign rm allNeg allPos)

/-- A decoded value as an exact result. -/
def exOf : FV → Ex
  | .nan s => .nan s
  | .inf n => .inf n
  | .num n m e => .val n m e false

/-- A x B + C exactly (R331). -/
def fmaEx (rm : Nat) (a b c : FV) : Ex :=
  match mulEx a b with
  | .nan v => .nan (v || isSig c)
  | p => sumEx rm [p, exOf c]

/-- floor(sqrt n), bit by bit from 2^k downward. -/
def isqrtAux (n : Nat) : Nat → Nat → Nat
  | 0, s => s
  | k + 1, s =>
    let t := s + 2 ^ k
    isqrtAux n k (if t * t ≤ n then t else s)

def isqrt (n : Nat) : Nat := isqrtAux n (bitLen n / 2 + 1) 0

/-- A / B, with the flags DZ or NV that it sets beside the rounding (R326, R333). -/
def divEx (a b : FV) : Ex × BitVec 5 :=
  match a, b with
  | .nan s, y => (.nan (s || isSig y), 0)
  | x, .nan s => (.nan (s || isSig x), 0)
  | .inf _, .inf _ => (.nan true, 0)
  | .inf n, .num k _ _ => (.inf (n != k), 0)
  | .num k _ _, .inf n => (.val (n != k) 0 0 false, 0)
  | .num na ma ea, .num nb mb eb =>
    if mb = 0 then (if ma = 0 then (.nan true, 0) else (.inf (na != nb), fDZ))
    else
      let n := ma * 2 ^ 128
      (.val (na != nb) (n / mb) (ea - eb - 128) (n % mb != 0), 0)

/-- The square root (R333). -/
def sqrtEx (a : FV) : Ex :=
  match a with
  | .nan s => .nan s
  | .inf n => if n then .nan true else .inf false
  | .num n m e =>
    if m = 0 then .val n 0 0 false
    else if n then .nan true
    else
      let (m, e) := if e % 2 = 0 then (m, e) else (2 * m, e - 1)
      let w := m * 2 ^ 160
      let s := isqrt w
      .val false s (e / 2 - 80) (s * s != w)

/-- 1 / sqrt A, with DZ for a zero (R333). -/
def rsqEx (a : FV) : Ex × BitVec 5 :=
  match a with
  | .nan s => (.nan s, 0)
  | .inf n => if n then (.nan true, 0) else (.val false 0 0 false, 0)
  | .num n m e =>
    if m = 0 then (.inf n, fDZ)
    else if n then (.nan true, 0)
    else
      let (m, e) := if e % 2 = 0 then (m, e) else (2 * m, e - 1)
      let w := 2 ^ 240 / m
      let s := isqrt w
      (.val false s (-(e / 2) - 120) (s * s != w || 2 ^ 240 % m != 0), 0)

/-- Compare two numbers: less (-1), equal (0), greater (1); both zeros are equal (R318). -/
def cmpFV (a b : FV) : Int :=
  match a, b with
  | .nan _, _ => 0
  | _, .nan _ => 0
  | .inf n, .inf k => if n = k then 0 else if n then -1 else 1
  | .inf n, .num _ _ _ => if n then -1 else 1
  | .num _ _ _, .inf n => if n then 1 else -1
  | .num na ma ea, .num nb mb eb =>
    let e := min ea eb
    let x := intAt na ma ea e
    let y := intAt nb mb eb e
    if x < y then -1 else if x = y then 0 else 1

/-- minimumNumber and maximumNumber of IEEE 754-2019 on encodings, -0 below +0 (R331). -/
def minMaxF (f : Fmt) (mx : Bool) (x y : Nat) : Nat × BitVec 5 :=
  let a := decF f x
  let b := decF f y
  let fl : BitVec 5 := if isSig a || isSig b then fNV else 0
  if isNan a && isNan b then (f.nan, fl)
  else if isNan a then (y, fl)
  else if isNan b then (x, fl)
  else
    let c := cmpFV a b
    let less := decide (c < 0) || (decide (c = 0) && negOf a && !negOf b)
    (if less == mx then y else x, fl)

/-- floor(log2 |x|) of a non-zero number. -/
def expOf (m : Nat) (e : Int) : Int := e + bitLen m - 1

/-- Round an exact value to an integer by mode (R335): the integer and whether it is inexact. -/
def roundInt (rm r : Nat) (neg : Bool) (m : Nat) (e : Int) (st : Bool) : Int × Bool :=
  let (q, inex) := roundQ rm r neg m e 0 st
  ((if neg then -(q : Int) else q), inex)

/-- An encoding of an integer, rounded to nearest even. -/
def ofIntNE (f : Fmt) (i : Int) : Nat := (roundEx f 0 0 (exOfInt i 0 false)).1

end Sys2Proof.Machine
end

