-- ==== Sys2Proof/Machine/Quant.lean ====
section
/-! DEFINITION. Scales, packed elements, the `cb2` codebook, quantisation (R319 to R323, R336 to R344) and the arithmetic of a matrix step
(R398, R404). -/

namespace Sys2Proof.Machine

/-! ### Packed registers (R320) -/

/-- Bits of an element of a packed type. -/
def packW (y : Nat) : Nat := if y = 7 ∨ y = 8 ∨ y = 14 then 16 else if y = 13 then 4 else 8
/-- Element k of a packed value. -/
def packGet (y x k : Nat) : Nat := x / 2 ^ (packW y * k) % 2 ^ packW y
/-- A packed value from its elements, element 0 lowest. -/
def packMake (w : Nat) : List Nat → Nat
  | [] => 0
  | e :: t => e % 2 ^ w + 2 ^ w * packMake w t

/-! ### The codebook (R321 to R323) -/

/-- The default base table. -/
def cbDefault : List Nat :=
  [0x0000, 0x5555, 0x0055, 0x0005, 0x0002, 0x0016, 0x0156, 0x000A, 0x005A, 0x00AA, 0x5556, 0x555A, 0x55AA, 0xAAAA, 0x0003, 0x0007] ++
  [0x0057, 0x5557, 0x000B, 0x005B, 0x016B, 0x56AB, 0x000F, 0x005F, 0x00AF, 0x555F, 0x55AF, 0x00FF, 0x55FF, 0xAAFF, 0xAAAF, 0xFFFF]

/-- The eight values of an index under a base table (R321). -/
def cbDecode (tab : List Nat) (x : Nat) : List Int :=
  let m := tab.getD (bits x 15 11) 0
  let p := x % 16
  let par := (List.range 7).foldl (fun b k => b != bit x (4 + k)) false
  (List.range 8).map (fun k =>
    let j := if p < 8 then (k + p) % 8 else (p + 15 - k) % 8
    let u : Int := bits m (2 * j + 1) (2 * j)
    let s := if k = 7 then par else bit x (4 + k)
    if s then -u else u)

/-- Squared distance of two vectors. -/
def cbDist : List Int → List Int → Int
  | a :: s, b :: t => (a - b) * (a - b) + cbDist s t
  | _, _ => 0

/-- The smallest index whose decoding is nearest to a vector (R344), looking at `n` indices from `i` upward. -/
def cbSearch (tab : List Nat) (v : List Int) : Nat → Nat → Nat × Int → Nat × Int
  | 0, _, best => best
  | n + 1, i, best =>
    let d := cbDist (cbDecode tab i) v
    cbSearch tab v n (i + 1) (if d < best.2 then (i, d) else best)

def cbEncode (tab : List Nat) (v : List Int) : Nat := (cbSearch tab v 65536 0 (0, 1000000)).1

/-- A base table held in 64-bit words (R344). -/
def cbTable (ws : List Nat) : List Nat := ws.flatMap (fun w => (List.range 4).map (fun i => bits w (16 * i + 15) (16 * i)))

/-! ### Scales and quantisation (R223, R340 to R343) -/

/-- Emax of a format code of R341. -/
def emaxOf (y : Nat) : Int := if y = 9 then 8 else if y = 10 then 15 else if y = 13 then 2 else 1

/-- Sorted insertion. -/
def insSort (x : Int) : List Int → List Int
  | [] => [x]
  | y :: t => if x ≤ y then x :: y :: t else y :: insSort x t

/-- floor(log2 |x|) of the finite non-zero values (R340). -/
def expsOf (l : List FV) : List Int :=
  l.filterMap (fun x => match x with | .num _ m e => if m = 0 then none else some (expOf m e) | _ => none)

/-- The exponent at a clip percentile, none when no value is finite and non-zero (R340). -/
def clipExp (l : List FV) (clip : Nat) : Option Int :=
  let es := (expsOf l).foldr insSort []
  if es.isEmpty then none
  else
    let k := (es.length * (clip % 256 + 1) + 255) / 256
    es[k - 1]?

/-- The scale byte for an exponent (R341). -/
def scaleOf (y : Nat) (e : Option Int) : Nat :=
  match e with
  | none => 127
  | some a => (sat (a - emaxOf y) (-127) 127 + 127).toNat

/-- Scale a value by 2^x. -/
def scaleFV (v : FV) (x : Int) : FV :=
  match v with
  | .num n m e => .num n m (e + x)
  | v => v

/-- Quantise one scaled value to an integer in lo ... hi (R342). -/
def quantInt (rm r : Nat) (v : FV) (lo hi : Int) : Int × BitVec 5 :=
  match v with
  | .nan _ => (0, fNV)
  | .inf n => (if n then lo else hi, fOF)
  | .num n m e =>
    let (q, inex) := roundInt rm r n m e false
    if q < lo then (lo, fOF ||| fNX) else if hi < q then (hi, fOF ||| fNX) else (q, if inex then fNX else 0)

/-- One element of `quant` before packing (R342): code and flags. `y` is 9, 10, 13 or 14. -/
def quantElem (y rm r : Nat) (v : FV) (s : Nat) : Nat × BitVec 5 :=
  if s % 256 = 0xFF then (if y = 9 ∨ y = 10 then (fmtOf y).nan else 0, fNV)
  else
    let w := scaleFV v (127 - (s % 256 : Nat))
    if y = 9 ∨ y = 10 then roundEx (fmtOf y) rm r (exOf w)
    else
      let (q, fl) := quantInt rm r w (if y = 14 then -3 else -8) (if y = 14 then 3 else 7)
      (wrapTo 4 q, fl)

/-- One element of `dquant` (R343). -/
def dquantElem (y rm r : Nat) (code s : Nat) : Nat × BitVec 5 :=
  if s % 256 = 0xFF then (f32.nan, fNV)
  else
    let x : Int := (s % 256 : Nat) - 127
    if y = 13 then roundEx f32 rm r (exOfInt (toSigned 4 code) x false)
    else
      match decF (fmtOf y) code with
      | .nan _ => (f32.nan, 0)
      | v => roundEx f32 rm r (exOf (scaleFV v x))

/-! ### A matrix step (R398, R399, R404) -/

/-- Bits of an element of a B or A format: 0 f16, 1 bf16, 2 e4m3, 3 e5m2, 4 i8, 5 i4, 6 cb2. -/
def mfW (f : Nat) : Nat := if f ≤ 1 then 16 else if f ≤ 4 then 8 else 4
/-- The type code of a floating matrix format. -/
def mfTy (f : Nat) : Nat := match f with | 0 => 7 | 1 => 8 | 2 => 9 | 3 => 10 | 4 => 11 | 5 => 13 | _ => 14
/-- Columns of a macro (R398). -/
def mfNm (f : Nat) : Nat := if f ≤ 1 then 32 else if f ≤ 4 then 64 else 128
/-- The w of R404. -/
def mfAlign (f : Nat) : Int := if f ≤ 1 then 16 else if f ≤ 4 then 8 else 4

/-- One operand element: its value without scale, and its scale exponent; an element scaled by the E8M0 NaN is NaN (R399). -/
structure MElem where
  v : FV
  x : Int

/-- An element of a format from its code, with scale byte s (none: unscaled). -/
def mElem (f code : Nat) (s : Option Nat) : MElem :=
  let v : FV := if f ≤ 3 then decF (fmtOf (mfTy f)) code
    else let i := toSigned (mfW f) code; .num (decide (i < 0)) i.natAbs 0
  match s with
  | some 0xFF => { v := .nan false, x := 0 }
  | some b => { v := v, x := (b : Int) - 127 }
  | none => { v := v, x := 0 }

/-- RoundNE(m x 2^e) as a signed integer. -/
def rneInt (neg : Bool) (m : Nat) (e : Int) : Int := (roundInt 0 0 neg m e false).1

/-- Align (R404): the block integers of eight elements and their exponent; none when one is NaN or infinite. -/
def alignGroup (f : Nat) (g : List MElem) : BGroup :=
  let bad := g.any (fun m => match m.v with | .num _ _ _ => false | _ => true)
  if bad then { bad := true, q := [], e := 0 }
  else if f ≤ 3 then
    let es := expsOf (g.map (fun m => scaleFV m.v m.x))
    let e := es.foldl max (es.headD 0)
    let k := mfAlign f - 2 - e
    { bad := false, e := -k,
      q := g.map (fun m => match m.v with | .num n a b => rneInt n a (b + m.x + k) | _ => 0) }
  else
    let x := g.foldl (fun t m => max t m.x) ((g.map (·.x)).headD 0)
    { bad := false, e := x,
      q := g.map (fun m => match m.v with | .num n a b => rneInt n a (b + m.x - x) | _ => 0) }

/-- Exact dot product of block integers. -/
def dotInt : List Int → List Int → Int
  | a :: s, b :: t => a * b + dotInt s t
  | _, _ => 0

/-- GroupAdd (R404) on a binary32 encoding. -/
def groupAdd (acc : Nat) (x y : BGroup) : Nat :=
  if x.bad || y.bad then 0x7FC00000
  else
    let s := dotInt x.q y.q
    if s = 0 then acc
    else (roundEx f32 0 0 (sumEx 0 [exOf (decF f32 acc), exOfInt s (x.e + y.e) false])).1

end Sys2Proof.Machine
end

