-- ==== Sys2Proof/Machine/Segment.lean ====
section
/-! DEFINITION. Versioned segments: what a task's plain stores hold back, what it reads, and `Commit()` (R200 to R207). -/

namespace Sys2Proof.Machine

/-- The speculative line of a physical line. -/
def segFind (c : Crew) (line : Nat) : Option SpecLine := c.seg.find? (fun l => l.pa == line)

/-- The task's view of a byte: its own segment's, else the committed line's (R201). -/
def taskByte (m : Mach) (c : Crew) (pa : Nat) : Byte :=
  match segFind c (pa / 128) with
  | some l => (smFind l.bytes (pa % 128)).getD (memGet m.mem pa)
  | none => memGet m.mem pa

/-- The task's view of n bytes. -/
def taskRead (m : Mach) (c : Crew) (pa : Nat) : Nat → List Byte
  | 0 => []
  | n + 1 => taskByte m c pa :: taskRead m c (pa + 1) n

/-- Put bytes into the segment (one line; R201). -/
def segStore (c : Crew) (pc : Word) (treat va pa : Nat) (bs : List Byte) : Crew :=
  let put (l : List (Nat × Byte)) : List (Nat × Byte) :=
    ((List.range bs.length).map (fun i => (pa % 128 + i, bs.getD i 0))).foldl (fun l e => smPut l e.1 e.2) l
  match segFind c (pa / 128) with
  | some _ => { c with seg := c.seg.map (fun l => if l.pa = pa / 128 then { l with bytes := put l.bytes } else l) }
  | none => { c with seg := c.seg ++ [{ va := va / 128, pa := pa / 128, bytes := put [], pc := pc, treat := treat }] }

/-- The recheck of one line at its home: the line it commits to, or the trap (R203). -/
def prepare (m : Mach) (job : Nat) (l : SpecLine) : Except Exc Nat :=
  let va := w64 (128 * l.va)
  let ex (code : Nat) (i1 i2 : Word) : Exc :=
    { code := code, lane := none, info0 := va, info1 := i1, info2 := i2, info3 := l.pc, commit := true, pc := 0, late := false }
  match walk m job (128 * l.va) with
  | .error (lv, ea) => .error (ex 0x20 (w64 (0x200 + lv)) (w64 ea))
  | .ok (lf, _) =>
    if !lfW lf then .error (ex 0x21 (w64 (0x200 + lfInfo lf)) 0)
    else
      let line := paOf lf (128 * l.va) / 128
      let t := treatAt m lf (128 * line)
      match keyFails m t line with
      | some rec => .error (ex 0x23 (w64 (if t = 256 then 0x100 else t)) (w64 rec))
      | none => if t = l.treat then .ok line else .error (ex 0x23 (w64 t) (w64 l.treat))

/-- The failing line of lowest address, when one fails. -/
def prepareAll (m : Mach) (job : Nat) (ls : List SpecLine) : Option Exc :=
  (ls.foldl (fun best l =>
    match prepare m job l, best with
    | .error e, none => some (l.va, e)
    | .error e, some b => if l.va < b.1 then some (l.va, e) else some b
    | .ok _, b => b) (none : Option (Nat × Exc))).map (·.2)

/-- Merge prepared lines into the committed ones: all have passed before the first merges. -/
def mergeLines (m : Mach) (job : Nat) (ls : List SpecLine) : Mach :=
  (ls.filterMap (fun l => match prepare m job l with | .ok line => some (line, l.bytes) | .error _ => none)).foldl
    (fun m e => commitLine m e.1 e.2) m

/-- Commit some lines of the current crew's segment: all of them, or a trap with none written (R203). -/
def commitLines (m : Mach) (ls : List SpecLine) : R Mach :=
  match prepareAll m m.cur.job ls with
  | some e => .error (.trap e)
  | none =>
    let phys := ls.map (fun l => match prepare m m.cur.job l with | .ok x => x | .error _ => l.pa)
    if phys.any (m.held.contains ·) then .error (.stall .hostLine (snoopSide phys))
    else if phys.any (crewHeld m) then .error (.stall .engine (queueAt phys))
    else .ok (mergeLines m m.cur.job ls)

/-- `Commit()`: the current crew's segment ends (R202, R203). -/
def commit (m : Mach) : R Mach :=
  match commitLines m m.cur.seg with
  | .error e => .error e
  | .ok m => .ok { m with cur := { m.cur with seg := [], hardened := false, keyDrop := 0 } }

/-- The whole segment commits because it is full, and the task is flagged HARDENED (R205). -/
def commitHard (m : Mach) : R Mach :=
  match commitLines m m.cur.seg with
  | .error e => .error e
  | .ok m => .ok { m with cur := { m.cur with seg := [], hardened := true, keyDrop := 0 } }

/-- A line of the task's own segment that an atomic, a `red` or an acquire load reaches commits alone (R204). -/
def commitOwn (m : Mach) (line : Nat) : R Mach :=
  match segFind m.cur line with
  | none => .ok m
  | some l =>
    match commitLines m [l] with
    | .error e => .error e
    | .ok m => .ok { m with cur := { m.cur with seg := m.cur.seg.filter (fun x => x.pa != line), hardened := true } }

/-- Most lines a segment holds (R205). -/
def segMax : Nat := 2048

/-- The key treatment under which the current crew reaches a line: as the home slice has recorded it, or as the page's leaf says (R198). -/
def treatNow (m : Mach) (va pa : Nat) : Nat :=
  match smFind m.lineKey (pa / 128) with
  | some t => t
  | none => match walk m m.cur.job va with | .ok (lf, _) => treatAt m lf pa | .error _ => 256

/-- A plain store of bytes of one line by the current crew. A segment that needs one line too many, or a way of a set that speculative lines alone
fill, hardens first; where it finds no way then, the store waits for one (R196, R205). -/
def storePlain (m : Mach) (pc : Word) (va pa : Nat) (bs : List Byte) : R Mach :=
  let fresh := (segFind m.cur (pa / 128)).isNone
  let full := fresh && (decide (segMax ≤ m.cur.seg.length) || (setFull m (pa / 128) && wayStall m (pa / 128) == .specWay))
  match (if full then commitHard m else .ok m) with
  | .error e => .error e
  | .ok m =>
    if fresh && setFull m (pa / 128) then .error (.stall (wayStall m (pa / 128)) id)
    else .ok { m with cur := segStore m.cur pc (treatNow m va pa) va pa bs }

end Sys2Proof.Machine
end

