-- ==== Sys2Proof/Machine/ViewEngine.lean ====
section
/-! DEFINITION. The view engine: which view serves a page, the read policies, and the recomputation of a block (R219 to R227). -/

namespace Sys2Proof.Machine

/-- The type code of a view FORMAT (R220): `cb2`, E4M3, E5M2, `i4`, BF16. -/
def vfTy (f : Nat) : Nat := match f with | 0 => 14 | 1 => 9 | 2 => 10 | 3 => 13 | _ => 8
/-- Data bytes of a derived block (R221). -/
def vfBytes (f : Nat) : Nat := match f with | 0 => 64 | 1 => 256 | 2 => 256 | 3 => 128 | _ => 512

/-- A view id (R225). -/
def viewId (die mi vi : Nat) : Nat := die * 2048 + mi * 8 + vi

/-- Does the view own the address, data or scale byte? -/
def viewCovers (ms : Master) (v : View) (va : Nat) : Bool :=
  decide (v.dbase ≤ va ∧ va < v.dbase + ms.nblk * vfBytes v.format) ||
  (v.format != 4 && decide (v.sbase ≤ va ∧ va < v.sbase + 8 * ms.nblk))

/-- The block of a view that holds an address. -/
def viewBlock (ms : Master) (v : View) (va : Nat) : Nat :=
  if v.dbase ≤ va ∧ va < v.dbase + ms.nblk * vfBytes v.format then (va - v.dbase) / vfBytes v.format else (va - v.sbase) / 8

/-- The master, the die that serves it and the view of a `VIEW` page's address: by the page's HOME, its VPI and the job (R220). -/
def viewFind (m : Mach) (job : Nat) (leaf : BitVec 128) (va : Nat) : Option (Nat × Master × View) :=
  m.dies.findSome? (fun e => e.2.masters.findSome? (fun ms =>
    if ms.job = job then
      match ms.views.find? (fun v => v.idx == lfVPI leaf && v.die == lfHome leaf && viewCovers ms v va) with
      | some v => some (e.1, ms, v)
      | none => none
    else none))

/-- What the policy says of one block (R225, R227). -/
inductive ViewOut where
  | pass
  | trap (h : Halt)
  | wait

/-- Version v1 is at least v0 (R222). -/
def verGe (v1 v0 : Nat) : Bool := decide ((v1 + 2 ^ 32 - v0) % 2 ^ 32 < 2 ^ 31)

/-- Has a view published a version of a block at least V? -/
def viewFresh (v : View) (b ver : Nat) : Bool :=
  match smFind v.recs b with
  | some r => verGe r ver
  | none => false

/-- Key of a master block among the versions that a stalled load keeps. -/
def waitKey (die mi b : Nat) : Nat := die * 2 ^ 40 + mi * 2 ^ 30 + b

/-- Key of a view's policy among them: a load that has been checked keeps the policy it was checked under (R395). -/
def polKey (id : Nat) : Nat := 2 ^ 60 + id

/-- The policy for one block, for the access of a lane: V is the block's version, or the one that the stalled load read first (R225). -/
def blockPolicy (die : Nat) (ms : Master) (v : View) (lane b : Nat) (kept : List (Nat × Nat) := []) : ViewOut :=
  let id := w64 (viewId die ms.idx v.idx)
  let ver := smGet (smGet 0 ms.versions b) kept (waitKey die ms.idx b)
  let pol := smGet v.pol kept (polKey (viewId die ms.idx v.idx))
  if ms.faulted || v.faulted then .trap (trapOf 0x12 (some lane) id (w64 b) 0 0)
  else if pol = 0 then .pass
  else if viewFresh v b ver then .pass
  else if pol = 1 then .wait
  else
    let r := match smFind v.recs b with | some r => r + 2 ^ 32 | none => 0
    .trap (trapOf 0x11 (some lane) id (w64 b) (w64 ver) (w64 r))

/-- The first of a list of outcomes that is a trap, else a wait when there is one. -/
def worstView (l : List ViewOut) : ViewOut :=
  match l.find? (fun x => match x with | .trap _ => true | _ => false) with
  | some t => t
  | none => if l.any (fun x => match x with | .wait => true | _ => false) then .wait else .pass

/-- The policy for an access: every block whose bytes it touches, the lowest-numbered failing block reported (R225). -/
def viewPolicy (m : Mach) (job : Nat) (o : Ok) (kept : List (Nat × Nat) := []) : ViewOut :=
  if !lfVIEW o.leaf then .pass
  else
    let one (va : Nat) : Option (Nat × ViewOut) :=
      match viewFind m job o.leaf va with
      | some (die, ms, v) => let b := viewBlock ms v va; some (b, blockPolicy die ms v o.acc.lane b kept)
      | none => none
    let outs := (List.range o.acc.size).map (fun i => one (o.acc.va + i))
    if outs.any Option.isNone then
      .trap (trapOf 0x12 (some o.acc.lane) (w64 (lfHome o.leaf * 2048 + 0x7FF)) (Config.freeWord m.freeCtr) 0 0)
    else
      let known := outs.filterMap id
      let traps := known.filter (fun x => match x.2 with | .trap _ => true | _ => false)
      let low := traps.foldl (fun b x => match b with | none => some x | some y => if x.1 < y.1 then some x else some y) (none : Option (Nat × ViewOut))
      match low with
      | some x => x.2
      | none => worstView (known.map (·.2))

/-- The versions V of the blocks that accesses touch and the policies of their views, those already kept as they are (R225, R395). -/
def viewVersions (m : Mach) (job : Nat) (oks : List Ok) (kept : List (Nat × Nat)) : List (Nat × Nat) :=
  ((oks.filter (fun o => lfVIEW o.leaf)).flatMap (fun o => (List.range o.acc.size).flatMap (fun i =>
    match viewFind m job o.leaf (o.acc.va + i) with
    | some e =>
      let b := viewBlock e.2.1 e.2.2 (o.acc.va + i)
      [(waitKey e.1 e.2.1.idx b, smGet 0 e.2.1.versions b), (polKey (viewId e.1 e.2.1.idx e.2.2.idx), e.2.2.pol)]
    | none => []))).foldl
    (fun l e => if (smFind l e.1).isSome then l else smPut l e.1 e.2) kept

/-- The policies for the accesses of an instruction: a trap of the lowest lane, or a stall while a view under WAIT is behind the version that the
load read first, which a stalled load has kept (R225). -/
def viewCheck (m : Mach) (job : Nat) (kept : List (Nat × Nat)) (oks : List Ok) : R Unit :=
  match worstView (oks.map (fun o => viewPolicy m job o kept)) with
  | .pass => .ok ()
  | .trap h => .error h
  | .wait => .error (.stall .view (fun m0 => { m0 with cur := { m0.cur with viewWait := viewVersions m job oks kept } }))

/-! ### Recomputation (R223) -/

/-- Position of element e (R221, R399). -/
def viewPos (square : Bool) (layout e : Nat) : Nat :=
  let i := e / 16
  let j := e % 16
  if layout = 1 then 16 * j + i
  else if layout = 2 ∧ square then 128 * (i / 8) + 8 * j + i % 8
  else e

/-- Put codes at their positions. -/
def placed (square : Bool) (layout : Nat) (codes : List Nat) : List Nat :=
  (List.range 256).foldl (fun l e => l.set (viewPos square layout e) (codes.getD e 0)) (List.replicate 256 0)

/-- Consecutive groups of n. -/
def chunks {α : Type} (n : Nat) : Nat → List α → List (List α)
  | 0, _ => []
  | k + 1, l => l.take n :: chunks n k (l.drop n)

/-- Data bytes and scale bytes of a derived block from the 256 elements of the master block. -/
def deriveBlock (square : Bool) (v : View) (xs : List FV) : List Byte × List Byte :=
  if v.format = 4 then
    ((placed square v.layout (xs.map (fun x => (roundEx bf16 0 0 (exOf x)).1))).flatMap (toBytes 2), [])
  else
    let y := vfTy v.format
    let scales := (chunks 32 8 xs).map (fun g => scaleOf y (clipExp g v.clip))
    let codes := (List.range 256).map (fun e => (quantElem y 0 0 (xs.getD e (.num false 0 0)) (scales.getD (e / 32) 127)).1)
    let pl := placed square v.layout codes
    let data : List Byte :=
      if v.format = 0 then (chunks 8 32 pl).flatMap (fun g => toBytes 2 (cbEncode cbDefault (g.map (toSigned 4))))
      else if v.format = 3 then (chunks 2 128 pl).flatMap (fun g => toBytes 1 (packMake 4 g))
      else pl.flatMap (toBytes 1)
    (data, scales.flatMap (toBytes 1))

/-- The elements of a master block. -/
def masterElems (bf : Bool) (bytes : List Byte) : List FV :=
  (List.range 256).map (fun e => if bf then decF bf16 (fld bytes (2 * e) 2) else decF f32 (fld bytes (4 * e) 4))

/-- The view engine of a die as an agent (R183). -/
def viewAgent (die job : Nat) : Who := { core := 360 + die, job := job, sup := false }

/-- Write the runs of a view's pages (their `W` is 0: only the engine writes them); none when a page faults (R227). -/
def writeView (w : Who) : Mach → Nat → List (List Byte) → Option Mach
  | m, _, [] => some m
  | m, va, bs :: t =>
    match engineCheck m w 1 va with
    | some (o, m) => if lfVIEW o.leaf then writeView w (commitRun m o.pa bs) (va + bs.length) t else none
    | none => none

def setMaster (m : Mach) (die : Nat) (ms : Master) : Mach :=
  m.modDie die (fun d => { d with masters := d.masters.map (fun x => if x.idx = ms.idx then ms else x) })

def findMaster (m : Mach) (die mi : Nat) : Option Master := (m.die die).masters.find? (fun x => x.idx == mi)

/-- Steps 2 to 6 for one view; `err`: its step 5 meets an uncorrected error (R227). [DEDUCED, assumption log 25] -/
def recomputeView (m : Mach) (die mi b vsnap : Nat) (xs : List FV) (v : View) (err : Bool) : Mach :=
  match findMaster m die mi with
  | none => m
  | some ms =>
    if v.faulted then m
    else
      let (data, scale) := deriveBlock ms.square v xs
      let w := viewAgent die ms.job
      let done :=
        match (if err then none else writeView w m (v.dbase + b * vfBytes v.format) (chunks 64 (data.length / 64) data)) with
        | none => none
        | some m => if v.format = 4 then some m else writeView w m (v.sbase + 8 * b) [scale]
      let upd (m : Mach) (f : View → View) : Mach :=
        match findMaster m die mi with
        | none => m
        | some ms => setMaster m die { ms with views := ms.views.map (fun x => if x.idx = v.idx then f x else x) }
      match done with
      | some m => upd m (fun x => { x with recs := smPut x.recs b vsnap })
      | none => upd m (fun x => { x with faulted := true })

/-- The byte ranges that the engine owns while it recomputes a block: the master block's, and each view's data and scale bytes of it (R223). -/
def viewRanges (ms : Master) (b : Nat) : List (Nat × Nat) :=
  (ms.base + b * blockBytes ms, blockBytes ms) :: (ms.views.filter (fun v => !v.faulted)).flatMap (fun v =>
    (v.dbase + b * vfBytes v.format, vfBytes v.format) :: (if v.format = 4 then [] else [(v.sbase + 8 * b, 8)]))

/-- Lines that the host may hold of the block at the head of a die's dirty queue (R36). -/
def viewHeld (m : Mach) (die : Nat) : List Nat :=
  match (m.die die).dirty with
  | [] => []
  | (mi, b) :: _ =>
    match findMaster m die mi with
    | some ms => if ms.faulted then [] else heldLines m (viewAgent die ms.job) (viewRanges ms b)
    | none => []

/-- Do other engines' commands, or the want of a way, hold up the block at the head of a die's dirty queue (R196, R223, R242)? -/
def viewStops (m : Mach) (die : Nat) : Bool :=
  match (m.die die).dirty with
  | [] => false
  | (mi, b) :: _ =>
    match findMaster m die mi with
    | some ms => !ms.faulted && engineStops m (viewAgent die ms.job) (viewRanges ms b)
    | none => false

/-- The snapshot of a block: each of its lines is checked (R173, R227). -/
def viewSnap (w : Who) (base : Nat) : Nat → Mach → Option (List Byte × Mach)
  | 0, m => some ([], m)
  | n + 1, m =>
    match viewSnap w base n m with
    | none => none
    | some (bs, m) =>
      match engineCheck m w 1 (base + 128 * n) with
      | none => none
      | some (o, m) => some (bs ++ memRead m.mem o.pa 128, m)

/-- The engine recomputes the block at the head of its dirty queue (R222, R223, R227): `err` is 0, or 1 for an uncorrected error in a master line in
step 1, or k + 2 for one in step 5 of view k. Lines of the host are asked for first, those of another engine's command are waited for, and the block keeps
its place. [DEDUCED, assumption log 8;
DEDUCED, assumption log 25; DEDUCED, assumption log 38] -/
def viewStep (m : Mach) (die err : Nat) : Mach :=
  let held := viewHeld m die
  if !held.isEmpty then snoopSide held m
  else if viewStops m die then m
  else
    match (m.die die).dirty with
    | [] => m
    | (mi, b) :: rest =>
      let m := m.modDie die (fun d => { d with dirty := rest })
      match findMaster m die mi with
      | none => m
      | some ms =>
        if ms.faulted then m
        else
          let bytes := blockBytes ms
          match (if err = 1 then none else viewSnap (viewAgent die ms.job) (ms.base + b * bytes) (bytes / 128) m) with
          | none => setMaster m die { ms with faulted := true, views := ms.views.map (fun v => { v with faulted := true }) }
          | some (bs, m) =>
            let xs := masterElems ms.bf16 bs
            let vsnap := smGet 0 ms.versions b
            ms.views.foldl (fun m v => recomputeView m die mi b vsnap xs v (err == v.idx + 2)) m

/-- The engine works through its queue until a test holds, at most n blocks. [DEDUCED, assumption log 25] -/
def viewUntil (die : Nat) (test : Mach → Bool) : Nat → Mach → Mach
  | 0, m => m
  | n + 1, m => if test m then m else viewUntil die test n (viewStep m die 0)

end Sys2Proof.Machine
end

