-- ==== Sys2Proof/Machine/MatrixEngine.lean ====
section
/-! DEFINITION. How an engine reads bytes, and the matrix unit's sequencer: loads and steps (R237, R398 to R408). -/

namespace Sys2Proof.Machine

/-! ### Engine reads (R226, R237) -/

/-- What an engine's read of bytes meets: `later` when the engine must look again, the host having been asked for something. -/
inductive Fetch where
  | data (bs : List Byte) (m : Mach)
  | fault
  | stale (h : Halt)
  | later (m : Mach)

/-- The view engines catch up with what an engine's read under WAIT waits for (R226). [DEDUCED, assumption log 26] -/
def catchUp (m : Mach) (job : Nat) (o : Ok) (kept : List (Nat × Nat)) : Mach :=
  match viewFind m job o.leaf o.acc.va with
  | some (die, _, _) => viewUntil die (fun m => match viewPolicy m job o kept with | .wait => false | _ => true) ((m.die die).dirty.length + 1) m
  | none => m

/-- An engine asks the host for bytes of its memory (R39). -/
def apAsk (m : Mach) (op addr size : Nat) : Mach :=
  let (num, m) := m.newOp
  let m : Mach := { m with apEng := m.apEng ++ [{ num := num, op := op, addr := addr, size := size, since := m.clk, answer := none }] }
  m.send (.apReadEng num addr size)

/-- What has come of an operation's read of a host byte: not asked for, no answer yet, the byte, or a refusal (R40). -/
inductive ApByte where
  | unasked | waiting | byte (b : Byte) | refused (status : Nat)

def apLook (m : Mach) (op addr : Nat) : ApByte :=
  match m.apEng.find? (fun e => e.op == op && decide (e.addr ≤ addr ∧ addr < e.addr + e.size)) with
  | none => .unasked
  | some e =>
    match e.answer with
    | none => .waiting
    | some (0, d) => .byte (d.getD (addr - e.addr) 0)
    | some (st, _) => .refused st

/-- An operation is over: what the host answered it, and what it has kept of views, goes. -/
def apUsed (m : Mach) (op : Nat) : Mach := { m with apEng := m.apEng.filter (fun e => e.op != op), engKept := smErase m.engKept op }

/-- What an operation that waits for a view has read first: versions and policies (R226). -/
def engKeep (m : Mach) (op : Nat) : List (Nat × Nat) := smGet [] m.engKept op

/-- One committed byte at a virtual address, the first of n that the engine reads there. -/
def engineByte (m : Mach) (w : Who) (va : Nat) (n : Nat := 1) : Fetch :=
  match engineCheck m w 1 va with
  | none => .fault
  | some (o, m) =>
    let m := match viewPolicy m w.job o (engKeep m w.op) with
      | .wait =>
        let m : Mach := { m with engKept := smPut m.engKept w.op (viewVersions m w.job [o] (engKeep m w.op)) }
        catchUp m w.job o (engKeep m w.op)
      | _ => m
    match viewPolicy m w.job o (engKeep m w.op) with
    | .pass =>
      if isAperture o.pa then
        match apLook m w.op (o.pa - apBase) with
        | .unasked => .later (apAsk m w.op (o.pa - apBase) (min n (128 - va % 128)))
        | .waiting => .later m
        | .byte b => .data [b] m
        | .refused _ => .fault
      else .data [memGet m.mem o.pa] m
    | .trap h => .stale h
    | .wait => .later m

/-- n committed bytes. -/
def engineBytes (w : Who) : Nat → Mach → Nat → Fetch
  | 0, m, _ => .data [] m
  | n + 1, m, va =>
    match engineByte m w va (n + 1) with
    | .data b m =>
      (match engineBytes w n m (va + 1) with
       | .data t m => .data (b ++ t) m
       | x => x)
    | x => x

/-- Cut a run of bytes at the 128-byte lines of its address: address and bytes of each piece, n pieces at most. -/
def lineCuts : Nat → Nat → List Byte → List (Nat × List Byte)
  | 0, _, _ => []
  | n + 1, va, bs =>
    if bs.isEmpty then []
    else
      let k := 128 - va % 128
      (va, bs.take k) :: lineCuts n (va + k) (bs.drop k)

/-- An engine writes bytes at a virtual address, line by line; the lines before one that fails its checks stay written (R242, R414). -/
def engineWrite (m : Mach) (w : Who) (va : Nat) (bs : List Byte) : Mach × Bool :=
  (lineCuts (bs.length / 128 + 2) va bs).foldl (fun (acc : Mach × Bool) p =>
    if !acc.2 then acc
    else
      match engineCheck acc.1 w 2 p.1 with
      | none => (acc.1, false)
      | some (o, m) => (if isAperture o.pa then m.send (.apWrite (o.pa - apBase) p.2) else commitRun m o.pa p.2, true)) (m, true)

/-! ### Load descriptors (R398, R399) -/

structure LoadDesc where
  saddr  : Nat
  scale  : Nat
  cstr   : Nat
  fmt    : Nat
  layout : Nat
  mfirst : Nat
  nmac   : Nat
  k      : Nat
  n      : Nat
  scstr  : Nat

def loadDesc (b : List Byte) : LoadDesc :=
  { saddr := fld b 0 8, scale := fld b 8 8, cstr := fld b 16 4, fmt := fld b 20 1 % 16, layout := bits (fld b 20 1) 5 4,
    mfirst := fld b 21 1, nmac := fld b 22 1, k := fld b 23 1, n := fld b 24 2, scstr := fld b 26 2 }

/-- Byte offset of the first failing field of a load descriptor (R398, R400). [DEDUCED, assumption log 26] -/
def loadBad (b : List Byte) : Option Nat :=
  let d := loadDesc b
  let l1 := d.layout == 1
  let tests : List (Nat × Bool) :=
    [(8, d.scale != 0 && (d.fmt == 0 || d.fmt == 1 || d.fmt == 4)),
     (16, l1 && decide (d.cstr < d.k / 16)),
     (20, decide (6 < d.fmt) || decide (1 < d.layout) || decide (64 ≤ fld b 20 1) || (l1 && (d.fmt == 0 || d.fmt == 4))),
     (21, decide (31 < d.mfirst)),
     (22, d.nmac == 0 || decide (32 < d.nmac + d.mfirst)),
     (23, d.k % 8 != 0 || d.k == 0 || decide (128 < d.k) || (l1 && d.k % 16 != 0)),
     (24, d.n == 0 || decide (d.nmac * mfNm d.fmt < d.n) || (l1 && d.n % 16 != 0)),
     (28, !zeros b 28 4)]
  (tests.find? (·.2)).map (·.1)

/-- Bytes of a derived block's data in a B format (R221). -/
def loadBlk (fmt : Nat) : Nat := if fmt = 1 then 512 else if fmt = 5 then 128 else if fmt = 6 then 64 else 256

/-- Address and size of the bytes that hold element (k, n), and the place of the element in them (R399). -/
def loadElem (d : LoadDesc) (k n : Nat) : Nat × Nat × Nat :=
  let (base, p) :=
    if d.layout = 1 then
      (d.saddr + (k / 16 + d.cstr * (n / 16)) * loadBlk d.fmt, 128 * (k % 16 / 8) + 8 * (n % 16) + k % 8)
    else (d.saddr + n * d.cstr, k)
  if d.fmt ≤ 1 then (base + 2 * p, 2, 0)
  else if d.fmt ≤ 4 then (base + p, 1, 0)
  else if d.fmt = 5 then (base + p / 2, 1, p % 2)
  else (base + 2 * (p / 8), 2, p % 8)

/-- Address of the scale byte of element (k, n). -/
def loadScale (d : LoadDesc) (k n : Nat) : Nat :=
  if d.layout = 1 then d.scale + 8 * (k / 16 + d.cstr * (n / 16)) + k % 16 / 2 else d.scale + n * d.scstr + k / 32

/-- The code of an element from its bytes: for `cb2` the decoded value as a 4-bit integer. -/
def loadCode (d : LoadDesc) (bs : List Byte) (sub : Nat) : Nat :=
  let x := ofBytes bs
  if d.fmt = 5 then x / 16 ^ sub % 16
  else if d.fmt = 6 then wrapTo 4 ((cbDecode cbDefault x).getD sub 0)
  else x

/-- The byte ranges a load reads. -/
def loadRuns (d : LoadDesc) : List (Nat × Nat) :=
  if d.layout = 1 then
    (List.range (d.n / 16)).flatMap (fun nb => (List.range (d.k / 16)).flatMap (fun kb =>
      let bi := kb + d.cstr * nb
      (d.saddr + bi * loadBlk d.fmt, loadBlk d.fmt) :: (if d.scale = 0 then [] else [(d.scale + 8 * bi, 8)])))
  else
    let row := d.k * mfW d.fmt / 8
    let row := if d.fmt = 6 then 2 * (d.k / 8) else row
    (List.range d.n).flatMap (fun n =>
      (d.saddr + n * d.cstr, row) :: (if d.scale = 0 then [] else [(d.scale + n * d.scstr, (d.k - 1) / 32 + 1)]))

/-- The pages of the ranges, one access each by a lane, in ascending address order (R400). -/
def runPages (lane : Nat) (l : List (Nat × Nat)) : List Acc :=
  let ps := l.flatMap (fun r => if r.2 = 0 then [] else (List.range ((r.1 + r.2 - 1) / 4096 + 1 - r.1 / 4096)).map (fun i => r.1 / 4096 + i))
  let srt := ps.foldl (fun s p => smPut s p ()) ([] : List (Nat × Unit))
  srt.map (fun e => { lane := lane, va := max (4096 * e.1) ((l.filter (fun r => decide (r.1 / 4096 ≤ e.1 ∧ e.1 ≤ (r.1 + r.2 - 1) / 4096))).foldl (fun t r => min t r.1) (4096 * e.1 + 4095)), size := 1 })

/-- One element as the engine reads it, threading the state. -/
def loadOne (w : Who) (d : LoadDesc) (m : Mach) (k n : Nat) : Except Fetch (MElem × Mach) :=
  let (va, sz, sub) := loadElem d k n
  match engineBytes w sz m va with
  | .data bs m =>
    let f := if d.fmt = 6 then 5 else d.fmt
    if d.scale = 0 then .ok (mElem f (loadCode d bs sub) none, m)
    else
      (match engineByte m w (loadScale d k n) with
       | .data sb m => .ok (mElem f (loadCode d bs sub) (some (ofBytes sb)), m)
       | x => .error x)
  | x => .error x

/-- The elements (8g ... 8g + 7, n). -/
def loadGroup (w : Who) (d : LoadDesc) (n g : Nat) : List Nat → Mach → Except Fetch (List MElem × Mach)
  | [], m => .ok ([], m)
  | i :: t, m =>
    match loadOne w d m (8 * g + i) n with
    | .error e => .error e
    | .ok (x, m) =>
      match loadGroup w d n g t m with
      | .error e => .error e
      | .ok (xs, m) => .ok (x :: xs, m)

/-- All groups of a load, keyed by 16 x column + group. -/
def loadAll (w : Who) (d : LoadDesc) (m : Mach) : Except Fetch (List (Nat × BGroup) × Mach) :=
  let keys := (List.range d.n).flatMap (fun n => (List.range (d.k / 8)).map (fun g => (n, g)))
  foldE (fun (acc : List (Nat × BGroup) × Mach) (ng : Nat × Nat) =>
    match loadGroup w d ng.1 ng.2 (List.range 8) acc.2 with
    | .error e => .error e
    | .ok (xs, m) => .ok (acc.1 ++ [(16 * ng.1 + ng.2, alignGroup d.fmt xs)], m)) keys ([], m)

/-! ### Parameter blocks (R401, R402) -/

structure StepDesc where
  awin : Nat
  awcnt : Nat
  fmt : Nat
  zero : Bool
  astr : Nat
  ak0 : Nat
  m : Nat
  k0 : Nat
  kn : Nat
  n0 : Nat
  n : Nat
  mfirst : Nat
  nmac : Nat
  acc : Nat
  row : Nat

def stepDesc (b : List Byte) : StepDesc :=
  { awin := fld b 0 2, awcnt := fld b 2 1, fmt := fld b 3 1 % 16, zero := bit (fld b 3 1) 4, astr := fld b 4 2, ak0 := fld b 6 2,
    m := fld b 8 2, k0 := fld b 10 1, kn := fld b 11 1, n0 := fld b 12 2, n := fld b 14 2, mfirst := fld b 16 1, nmac := fld b 17 1,
    acc := fld b 18 1, row := fld b 19 1 }

/-- Tiles down and across (R402). -/
def stepRT (d : StepDesc) : Nat := (d.row + d.m + 63) / 64
def stepCT (d : StepDesc) : Nat := (d.n + 63) / 64

/-- Width class of a format: 16, 8 or 4. -/
def fmtWidth (f : Nat) : Nat := if f ≤ 1 then 16 else if f ≤ 4 then 8 else 4

/-- The load record that a step names (R402). -/
def stepLoad (c : Crew) (d : StepDesc) : Option Load := c.loads.find? (fun l => l.mfirst == d.mfirst && l.nmac == d.nmac)

/-- Last byte of the window that a step reads. -/
def stepLast (d : StepDesc) : Nat :=
  let i := (d.m - 1) * d.astr + d.ak0 + d.kn - 1
  if d.fmt ≤ 1 then 2 * i + 1 else if d.fmt = 5 then i / 2 else i

/-- The first failing condition of R402, as `INFO1`. [DEDUCED, assumption log 26] -/
def stepBad (c : Crew) (b : List Byte) : Option Nat :=
  let d := stepDesc b
  let ld := (stepLoad c d).map (fun l => loadDesc l.desc)
  let k := match ld with | some l => l.k | none => 128
  let n := match ld with | some l => l.n | none => 65535
  let last := d.acc + stepRT d * stepCT d
  let tests : List (Nat × Bool) :=
    [(0x400, decide (511 < d.awin)),
     (0x402, d.awcnt == 0 || decide (128 < d.awcnt)),
     (0x403, decide (5 < d.fmt) || decide (32 ≤ fld b 3 1)),
     (0x404, d.astr == 0),
     (0x408, d.m == 0 || decide (256 < d.m)),
     (0x40A, d.k0 % 8 != 0),
     (0x40B, d.kn % 8 != 0 || d.kn == 0 || decide (128 < d.kn) || decide (k < d.k0 + d.kn)),
     (0x40E, d.n == 0 || decide (256 < d.n) || decide (n < d.n0 + d.n)),
     (0x413, decide (63 < d.row)),
     (0x414, !zeros b 20 44),
     (0x403, match ld with | some l => fmtWidth l.fmt != fmtWidth d.fmt | none => false),
     (0x404, decide (d.awcnt * 128 ≤ stepLast d) || decide (c.decl.vregs < d.awin + d.awcnt)),
     (0x500 + d.mfirst, ld.isNone),
     (0x2B0 + max d.acc c.decl.accs, decide (c.decl.accs < last))]
  (tests.find? (·.2)).map (·.1)

/-- Registers of the window from which a step reads an element, ascending. -/
def stepRegs (d : StepDesc) : List Nat :=
  let byteOf (i : Nat) : Nat := if d.fmt ≤ 1 then 2 * i else if d.fmt = 5 then i / 2 else i
  let row (r : Nat) : List Nat :=
    let i := r * d.astr + d.ak0
    let lo := byteOf i / 128
    let hi := (byteOf (i + d.kn - 1) + (if d.fmt ≤ 1 then 1 else 0)) / 128
    (List.range (hi + 1 - lo)).map (· + lo)
  let all := (List.range d.m).flatMap row
  ((List.range d.awcnt).filter all.contains).map (· + d.awin)

/-- A element (m, c) of the window of a crew (R401). -/
def winCode (c : Crew) (d : StepDesc) (row col : Nat) : Nat :=
  let i := row * d.astr + col
  let byteAt (b : Nat) : Nat := (vGet c (d.awin + b / 128) (b % 128 / 4)).toNat / 256 ^ (b % 4) % 256
  if d.fmt ≤ 1 then byteAt (2 * i) + 256 * byteAt (2 * i + 1)
  else if d.fmt = 5 then byteAt (i / 2) / 16 ^ (i % 2) % 16
  else byteAt i

/-- The A group g of a row: columns AK0 + 8g - K0 onward (R403). -/
def winGroup (c : Crew) (d : StepDesc) (row g : Nat) : BGroup :=
  alignGroup d.fmt ((List.range 8).map (fun i => mElem d.fmt (winCode c d row (d.ak0 + 8 * g - d.k0 + i)) none))

/-- Key of the accumulator element that (row m, column c) of a step adds to. -/
def stepAcc (d : StepDesc) (m c : Nat) : Nat × Nat × Nat :=
  (d.acc + (d.row + m) / 64 + stepRT d * (c / 64), (d.row + m) % 64, c % 64)

/-- The new value of one element: its K-groups ascending (R403). -/
def stepElem (c : Crew) (d : StepDesc) (groups : List (Nat × BGroup)) (old : Nat) (m n : Nat) : Nat :=
  let gs := (List.range (d.kn / 8)).map (· + d.k0 / 8)
  gs.foldl (fun e g =>
    match smFind groups (16 * n + g) with
    | some y => groupAdd e (winGroup c d m g) y
    | none => e) (if d.zero then 0 else old)

/-- A step on the accumulators of its crew, whose window reads as in `w` (R403). -/
def stepRun (c w : Crew) (d : StepDesc) (groups : List (Nat × BGroup)) : Crew :=
  let cells := (List.range d.m).flatMap (fun m => (List.range d.n).map (fun i => (m, i)))
  cells.foldl (fun k mc =>
    let (t, r, q) := stepAcc d mc.1 mc.2
    accSet k t r q (BitVec.ofNat 32 (stepElem w d groups (accGet c t r q).toNat mc.1 (d.n0 + mc.2)))) c

/-- A step that finds its macros unloaded (R400, item 5) leaves free values in the elements it targets. -/
def stepFree (m : Mach) (c : Crew) (d : StepDesc) : Mach :=
  let cells := (List.range d.m).flatMap (fun i => (List.range d.n).map (fun j => (i, j)))
  let c' := (cells.zip (List.range cells.length)).foldl (fun k e =>
    let (t, r, q) := stepAcc d e.1.1 e.1.2
    accSet k t r q (lo32 (Config.freeWord (m.freeCtr + e.2)))) c
  { m.setCrew c' with freeCtr := m.freeCtr + cells.length }

/-! ### The sequencer (R403, R405, R406) -/

/-- The event that the operation at the head of the sequencer waits for. -/
def seqKick (m : Mach) (core : Nat) : Mach :=
  match (m.core core).seqq with
  | [] => m
  | .load _ _ _ _ :: _ => m.dueOnce (.mldbRetire core none)
  | .step _ _ _ _ _ _ started :: _ => m.dueOnce (if started then .matrixStepRetire core else .matrixStepStart core)

/-- Put an operation at the sequencer's end. -/
def seqPush (m : Mach) (core : Nat) (op : SeqOp) : Mach :=
  let empty := (m.core core).seqq.isEmpty
  let m := m.modCore core (fun c => { c with seqq := c.seqq ++ [op] })
  if empty then seqKick m core else m

/-- Release the range-scoreboard entry of an operation. -/
def sbRelease (m : Mach) (core id : Nat) : Mach := m.modCore core (fun c => { c with sb := c.sb.filter (fun e => e.id != id) })

def seqPop (m : Mach) (core : Nat) : Mach := m.modCore core (fun c => { c with seqq := c.seqq.drop 1 })

/-- The load at the head completes (R400, items 5 and 6). -/
def loadDone (m : Mach) (core : Nat) (err : Option Nat) : Mach :=
  match (m.core core).seqq with
  | .load tid id pc desc :: _ =>
    let d := loadDesc desc
    let w : Who := { core := core, job := (match m.crew tid with | some c => c.job | none => 0), sup := false, op := id }
    let fin (m : Mach) : Mach := seqKick (seqPop (leeRelease (sbRelease m core id) core id) core) core
    let keep (k : Core) : Core := { k with mdata := k.mdata.filter (fun x => x.load != id) }
    match m.crew tid with
    | none => fin m
    | some _ =>
      match err with
      | some pa =>
        fin (m.modCore core (fun k => keep { k with macros := k.macros.map (fun e => if e.2.load = id then (e.1, { e.2 with mark := some pa }) else e) }))
      | none =>
        match loadAll w d m with
        | .ok (gs, m) => fin ((apUsed m id).modCore core (fun k => { keep k with mdata := (keep k).mdata ++ [{ load := id, groups := gs }] }))
        | .error (.stale (.trap e)) =>
          let m := (apUsed m id).modCore core keep
          fin (m.modCrew tid (fun c => if c.late.isNone then { c with late := some { e with lane := none, pc := pc, late := true } } else c))
        | .error (.later m) => m.dueOnce (.mldbRetire core none)
        | .error _ => fin (apUsed (m.modCore core keep) id)
  | _ => m

/-- The step at the head starts: it reads its window, whose entry is released, and its products reach the tile (R405); no crew sees the tile
before the step retires (R407). -/
def stepStart (m : Mach) (core : Nat) : Mach :=
  match (m.core core).seqq with
  | .step tid load batch id old pb false :: rest =>
    let m := m.modCore core (fun k => { k with seqq := .step tid load batch id old pb true :: rest, sb := k.sb.filter (fun e => e.id != id) })
    let m :=
      match m.crew tid with
      | none => m
      | some c =>
        match (m.core core).mdata.find? (fun x => x.load == load) with
        | some g => m.setCrew (stepRun c (old.foldl restoreReg c) (stepDesc pb) g.groups)
        | none => stepFree m c (stepDesc pb)
    seqKick m core
  | _ => m

/-- A batch loses a step; a closed batch without one retires (R406). -/
def batchDrop (id : Nat) (c : Crew) : Crew :=
  { c with
    openB := c.openB.map (fun b => if b.id = id then { b with left := b.left - 1 } else b)
    closedB := (c.closedB.map (fun b => if b.id = id then { b with left := b.left - 1 } else b)).filter (fun b => b.left != 0) }

/-- The step at the head retires (R405, R406). -/
def stepDone (m : Mach) (core : Nat) : Mach :=
  match (m.core core).seqq with
  | .step tid _ batch id _ _ true :: _ =>
    let m := leeRelease (seqPop m core) core id
    seqKick (m.modCrew tid (batchDrop batch)) core
  | _ => m

/-- One operation of the sequencer runs to its end. -/
def seqRunOne (m : Mach) (core : Nat) : Mach :=
  match (m.core core).seqq with
  | [] => m
  | .load _ _ _ _ :: _ => loadDone m core none
  | .step _ _ _ _ _ _ _ :: _ => stepDone (stepStart m core) core

/-- Has the crew a step that has not retired? -/
def hasSteps (m : Mach) (core tid : Nat) : Bool :=
  (m.core core).seqq.any (fun o => match o with | .step t _ _ _ _ _ _ => t == tid | _ => false)

/-- Every matrix step of a crew retires (R158, R262), those in front of it first. -/
def seqDrain (core tid : Nat) : Nat → Mach → Mach
  | 0, m => m
  | n + 1, m => if hasSteps m core tid then seqDrain core tid n (seqRunOne m core) else m

/-- Accumulators that outstanding steps of a crew target (R407). -/
def busyAccs (m : Mach) (core tid : Nat) : List Nat :=
  (m.core core).seqq.flatMap (fun o =>
    match o with
    | .step t _ _ _ _ pb _ =>
      if t = tid then
        let d := stepDesc pb
        (List.range (stepRT d * stepCT d)).map (fun i => d.acc + i)
      else []
    | _ => [])

/-- The crew's batches that have not retired (R406). -/
def crewBatches (c : Crew) : Nat := c.closedB.length + (match c.openB with | some b => b2n (b.steps != 0) | none => 0)
/-- The batches of a core. -/
def coreBatches (m : Mach) (core : Nat) : Nat := (m.crews.filter (fun c => c.core == core)).foldl (fun t c => t + crewBatches c) 0

end Sys2Proof.Machine
end

