-- ==== Sys2Proof/Machine/Slots.lean ====
section
/-! DEFINITION. Where a task waits and how it comes to run: queue segments, deques, rings, crew slots and resume lists (R90 to R104, R112,
R124, R125, R143, R264 to R266). -/

namespace Sys2Proof.Machine

/-! ### Records in queues -/

/-- The bytes a record stands as (R90): 64, and for a dataflow task 64 more. The areas that hold records are reached by no mapping, so memory does not
list them. [DESIGN CHOICE, assumption log 22] -/
def recordBytes (m : Mach) (r : TaskRec) : List Byte :=
  let kind : Nat := match r.kind with | .root => 0 | .spawned => 1 | .dataflow => 2 | .stage => 3
  toBytes 32 r.ped.toNat ++ toBytes 8 r.decl ++ toBytes 8 r.arg.toNat ++ toBytes 8 (match m.launch r.launch with | some l => l.hnd | none => 0) ++ toBytes 2 r.aff ++
  toBytes 1 (kind + 4 * r.stage + 32 * r.cls) ++ List.replicate 5 0 ++
  (if r.kind = .dataflow then (List.range 6).flatMap (fun i => toBytes 4 (r.cells.getD i 0).toNat) ++ List.replicate 40 0 else [])

/-- Die and segment of an affinity key: the segment stands at the present slice that the die's slice-hash entry maps the hash value to (R92). -/
def segOfAff (m : Mach) (aff : Nat) : Nat × Nat :=
  let g := (aff / 256 % 256) ^^^ (aff % 256)
  (g / 32, sliceAt m (g / 32) (g % 32))

/-- The segments of a die in ascending hash value (R27, R94, R125). -/
def segOrder (m : Mach) (die ptr : Nat) : List Nat := ((List.range 32).map (fun i => sliceAt m die ((ptr + i) % 32))).eraseDups

/-- The class FIFO of a segment. -/
def fifo (d : Die) (cls seg : Nat) : List TaskRec := smGet [] d.queues (32 * cls + seg)
def setFifo (d : Die) (cls seg : Nat) (l : List TaskRec) : Die := { d with queues := smSet [] d.queues (32 * cls + seg) l }

/-- Records that a segment holds, pending ones included (R93). -/
def segCount (d : Die) (seg : Nat) : Nat :=
  (List.range 4).foldl (fun t c => t + (fifo d c seg).length) (smGet [] d.pending seg).length
/-- Capacity of a segment's on-chip part, and with its overflow area (R93). -/
def segChip : Nat := 512
def segCap : Nat := segChip + 32768

/-- Records of a segment that lie in its overflow area (R93). -/
def segOvfOf (d : Die) (seg : Nat) : List Nat := smGet [] d.segOvf seg

/-- A record that a segment takes lies in its on-chip part, or, when that is full, in its overflow area (R93). -/
def segEnter (d : Die) (seg tid : Nat) : Die :=
  if segCount d seg - (segOvfOf d seg).length < segChip then d else { d with segOvf := smSet [] d.segOvf seg (segOvfOf d seg ++ [tid]) }

/-- Records have left a segment: those of the overflow area return in their order while the on-chip part has room. -/
def segTidy (d : Die) (seg : Nat) : Die :=
  match segOvfOf d seg with
  | [] => d
  | l =>
    let here (t : Nat) : Bool := (smGet [] d.pending seg).any (fun r => r.tid == t) || (List.range 4).any (fun c => (fifo d c seg).any (fun r => r.tid == t))
    let l := l.filter here
    { d with segOvf := smSet [] d.segOvf seg (l.drop (segChip - (segCount d seg - l.length))) }

/-! ### Deques (R99, R100) -/

/-- On-chip entries, spill and overflow records of a deque. -/
def dqChip : Nat := 64
def dqSpillCap : Nat := 4096
def dqOvfCap : Nat := 65536
/-- Records that move as a block. -/
def dqBlock : Nat := 32
/-- Capacity of a deque: on-chip, spill and overflow (R99). -/
def dequeCap : Nat := dqChip + dqSpillCap + dqOvfCap

/-- Records in the on-chip part. -/
def dqOnChip (k : Core) : Nat := k.deque.length - k.dqSpill - k.dqOvf

/-- Has a deque room for a push: an on-chip entry, or for the blocks that it moves (R100)? -/
def dqRoom (k : Core) : Bool :=
  decide (dqOnChip k < dqChip) || decide (k.dqSpill + dqBlock ≤ dqSpillCap) || decide (k.dqOvf + dqBlock ≤ dqOvfCap)

/-- Push a record at the newest end; a full on-chip part first moves its oldest block to the spill area, which when full moves its own to the overflow
area (R100). -/
def dqPush (k : Core) (r : TaskRec) : Core :=
  let k := if dqOnChip k < dqChip then k
    else if k.dqSpill + dqBlock ≤ dqSpillCap then { k with dqSpill := k.dqSpill + dqBlock }
    else { k with dqOvf := k.dqOvf + dqBlock }
  { k with deque := k.deque ++ [r] }

/-- An empty on-chip part is refilled with the newest block of the spill area, and that from the overflow area in the same way (R100). -/
def dqRefill (k : Core) : Core :=
  if dqOnChip k ≠ 0 then k
  else
    let k := if k.dqSpill = 0 then { k with dqSpill := min dqBlock k.dqOvf, dqOvf := k.dqOvf - dqBlock } else k
    let k := { k with dqSpill := k.dqSpill - dqBlock }
    if k.dqSpill = 0 then { k with dqSpill := min dqBlock k.dqOvf, dqOvf := k.dqOvf - dqBlock } else k

/-- Take the record of a tid out of a deque, from whichever part holds it. -/
def dqTake (k : Core) (tid : Nat) : Core :=
  let i := (k.deque.takeWhile (fun r => r.tid != tid)).length
  { k with deque := k.deque.filter (fun r => r.tid != tid),
           dqOvf := if i < k.dqOvf then k.dqOvf - 1 else k.dqOvf,
           dqSpill := if k.dqOvf ≤ i ∧ i < k.dqOvf + k.dqSpill then k.dqSpill - 1 else k.dqSpill }

/-- The lowest class with a record in any segment of a die. -/
def lowClass (d : Die) : Option Nat := (List.range 4).find? (fun c => (List.range 32).any (fun s => !(fifo d c s).isEmpty))

/-- The best record of a die's queue (R125): lowest class, then the longest wait, then hash value and FIFO order. -/
def bestRec (m : Mach) (die : Nat) : Option TaskRec :=
  let d := m.die die
  match lowClass d with
  | none => none
  | some c => ((segOrder m die 0).flatMap (fun s => fifo d c s)).foldl
      (fun b r => match b with | none => some r | some x => if r.enq < x.enq then some r else some x) none

/-- Keep the cycle since which a record has been the best of its die's queue. -/
def noteBest (m : Mach) (die : Nat) : Mach :=
  let t := match bestRec m die with | some r => r.tid | none => 0
  m.modDie die (fun d => if d.best.1 = t then d else { d with best := (t, if t = 0 then 0 else m.clk) })

/-- A crew that holds no slot, that no pre-emption holds and whose own wait has ended is resumable (R96). [DEDUCED, assumption log 22] -/
def settle (clk : Nat) (c : Crew) : Crew :=
  if c.slots.isEmpty && c.status == .ready && c.preBy.isNone && !c.resumable then { c with resumable := true, resAt := clk } else c

/-- A record has left the queue: requests made for it are withdrawn, crews it pre-empted are no longer pre-empted (R96, R125). -/
def recordLeft (m : Mach) (tid : Nat) : Mach :=
  m.mapCrews (fun c =>
    let c := match c.pre with | some p => if p.byTid = tid then { c with pre := none } else c | none => c
    if c.preBy.any (fun p => p.byTid == tid) then settle m.clk { c with preBy := none } else c)

/-- Put a record at the tail of its class FIFO (R93, R106). -/
def queueIn (m : Mach) (die seg : Nat) (r : TaskRec) : Mach :=
  noteBest (m.modDie die (fun d =>
    let d := segEnter d seg r.tid
    setFifo d r.cls seg (fifo d r.cls seg ++ [{ r with enq := m.clk }]))) die

/-- Push a record at the newest end of a core's deque (R100). -/
def dequeIn (m : Mach) (core : Nat) (r : TaskRec) : Mach := m.modCore core (fun k => dqPush k r)

/-! ### Slots -/

def residents (m : Mach) (core : Nat) : List Crew := m.crews.filter (fun c => c.core == core && !c.slots.isEmpty)
def usedSlots (m : Mach) (core : Nat) : List Nat := (residents m core).flatMap (·.slots)
def freeSlots (m : Mach) (core : Nat) : List Nat := (List.range (slotsOf core)).filter (fun s => !(usedSlots m core).contains s)
/-- Physical accumulator tiles that a task can take (R157, R158). -/
def freeTiles (m : Mach) (core : Nat) : Nat := 8 - (residents m core).foldl (fun t c => t + c.decl.accs) 0
def slotNeed (d : Decl) : Nat := if d.width = 64 then 2 else 1
def fits (m : Mach) (core : Nat) (d : Decl) : Bool :=
  decide (slotNeed d ≤ (freeSlots m core).length) && decide (d.accs ≤ freeTiles m core) && !(isControl core && (d.accs != 0 || d.width != 1))

/-- Is the core present (R27)? -/
def present (m : Mach) (core : Nat) : Bool := !m.coresOff.contains core
/-- Is the core out of reset (R17)? -/
def running (m : Mach) (core : Nat) : Bool :=
  decide (3 ≤ m.released) || (decide (m.released = 2) && isControl core) || (decide (m.released = 1) && core == 320)
/-- Place of a core from the per-cycle pointer (R456). -/
def fromPtr (m : Mach) (core : Nat) : Nat := (core + 336 - m.clk % 336) % 336
/-- Place of an agent from the rotating priority pointer of the slices (R184). -/
def fromSlicePtr (m : Mach) (agent : Nat) : Nat := (agent + 386 - m.clk % 386) % 386
/-- The present cores in the order of the per-cycle pointer (R94, R456). -/
def coresFrom (m : Mach) : List Nat := ((List.range 336).map (fun i => (m.clk % 336 + i) % 336)).filter (present m)

/-- n frames for a context image, 0 when the die has none left (DESIGN CHOICE, assumption log 6). -/
def allocFrames (m : Mach) (die n : Nat) : Nat × Mach := (allocRun m die n).getD (0, m)

/-! ### Starting and resuming -/

/-- The launch, the job and the declaration, as it reads now, of a task that starts (R285). -/
def declOf (m : Mach) (launch decl : Nat) : Option (Launch × Job × Decl) :=
  match m.launch launch with
  | none => none
  | some l =>
    match m.job l.job with
    | none => none
    | some j =>
      match j.decls.find? (fun d => d.addr == decl) with
      | some d => some (l, j, declNow m j.id d)
      | none => none

/-- A task's crew as it starts (R143). -/
def crewOf (r : TaskRec) (l : Launch) (j : Job) (d : Decl) (core : Nat) (slots : List Nat) (img pair save clk : Nat) : Crew :=
  { Crew.empty with
    tid := r.tid, parent := r.parent, launch := l.handle, hnd := l.hnd, job := j.id, cls := r.cls, aff := r.aff, core := core, slots := slots,
    status := .ready, decl := d, kind := r.kind, cells := r.cells, arg := r.arg,
    pcs := List.replicate d.width (w64 d.entry), live := lanesBelow d.width,
    s := smSet 0 [] 0 r.arg, stag := smSet tINV [] 0 tRAW, m := smSet 0 [] 0 (lanesBelow d.width),
    ped := r.ped, ped0 := r.ped, chk := d.chk, imgBase := img, pairBase := pair, accSave := save, tiles := decide (d.accs ≠ 0), rrk := r.rrk, stamp := clk }

/-- A record's task takes its slots on a core (R95, R143). -/
def startTask (m : Mach) (core : Nat) (r : TaskRec) : Mach :=
  match declOf m r.launch r.decl with
  | none => m
  | some (l, j, d) =>
    let die := dieOf core
    let slots := (freeSlots m core).take (slotNeed d)
    let (img, m) := allocFrames m die 32
    let (pair, m) := if d.width = 64 then allocFrames m die 32 else (0, m)
    let (save, m) := if d.accs = 0 then (0, m) else allocFrames m die 32
    let m := if d.accs = 0 then m else makeTiles m core d.accs
    recordLeft (m.addCrew (crewOf r l j d core slots img pair save m.clk)) r.tid

/-- May a switched-out crew resume on another core of its die (R264)? -/
def mayMigrate (m : Mach) (c : Crew) : Bool :=
  let k := m.core c.core
  !k.sb.any (fun e => e.tid == c.tid) && !hasSteps m c.core c.tid && !k.macros.any (fun e => e.2.tid == c.tid) &&
  (match k.landing with | some b => b.tid != c.tid | none => true) && decide (k.fwd.length < 32)

/-- The Lennas records of a crew that resumes are in use no longer (R252). -/
def logSpent (m : Mach) (tid : Nat) : Mach :=
  { m with dies := m.dies.map (fun e => (e.1, { e.2 with log := e.2.log.map (fun x => if x.tid = tid then { x with answered := true } else x) })) }

/-- A resumable crew takes slots on a core (R98, R265, R266). -/
def resumeCrew (m : Mach) (core tid : Nat) : Mach :=
  match m.crew tid with
  | none => m
  | some c =>
    let slots := (freeSlots m core).take (slotNeed c.decl)
    let m := if c.core = core then m else m.modCore c.core (fun k => { k with fwd := k.fwd ++ [{ tid := tid, core := core, since := m.clk }] })
    let moves := decide (c.core ≠ core)
    let m := if c.decl.accs ≠ 0 ∧ (moves ∨ !c.tiles) then makeTiles m core c.decl.accs else m
    let c := { c with tiles := decide (c.decl.accs ≠ 0) }
    let m := logSpent (m.modLaunch c.launch (fun l => { l with traps := l.traps.filter (fun t => !(t.tid == tid && t.answered)) })) tid
    m.setCrew { c with core := core, slots := slots, resumable := false, stamp := m.clk, stall := none,
                       monitor := { c.monitor with fired := c.monitor.fired || c.monitor.armed } }

/-- The crews that a core may resume, in its order: those that hold a barrier up, then oldest first (R98, R124). -/
def resumeList (m : Mach) (core : Nat) : List Crew :=
  let l := m.crews.filter (fun c => c.resumable && c.slots.isEmpty &&
    (c.core == core || (dieOf c.core == dieOf core && !isControl core && !isControl c.core && decide (c.resAt + 4096 ≤ m.clk) && mayMigrate m c)))
  let l := l.filter (fun c => fits m core c.decl)
  let older (a b : Crew) : Bool :=
    let ha := holdsBarrier m a.tid
    let hb := holdsBarrier m b.tid
    if ha != hb then ha else decide (a.resAt < b.resAt ∨ (a.resAt = b.resAt ∧ a.tid < b.tid))
  l.foldl (fun s c => s.takeWhile (fun x => !older c x) ++ c :: s.dropWhile (fun x => !older c x)) []

/-- A source of R98: the class of its work, its place in the list, and what taking it does. -/
structure Source where
  cls  : Nat
  rank : Nat
  take : Mach → Mach

/-- The resume list as a source: the first crew of its lowest class. -/
def srcResume (m : Mach) (core : Nat) : Option Source :=
  let l := resumeList m core
  match l.foldl (fun (b : Option Crew) c => match b with | none => some c | some x => if c.cls < x.cls then some c else some x) none with
  | some c => some { cls := c.cls, rank := 1, take := fun m => resumeCrew m core c.tid }
  | none => none

/-- Remove the record of a tid. -/
def dropRec (l : List TaskRec) (tid : Nat) : List TaskRec := l.filter (fun r => r.tid != tid)

def recFits (m : Mach) (core : Nat) (r : TaskRec) : Bool :=
  match declOf m r.launch r.decl with
  | some (_, _, d) => fits m core d
  | none => false

/-- The core's own deque (R98, R100): it counts with the lowest class that it holds, and a pop of it, refilled, takes its newest record. -/
def srcDeque (m : Mach) (core : Nat) : Option Source :=
  let l := (m.core core).deque
  match l.getLast? with
  | some r =>
    if recFits m core r then
      some { cls := l.foldl (fun b x => min b x.cls) r.cls, rank := 2, take := fun m => startTask (m.modCore core (fun k => dqTake (dqRefill k) r.tid)) core r }
    else none
  | none => none

/-- Take the oldest item of a stage's ring. -/
def ringTake (m : Mach) (launch stage : Nat) : Mach :=
  m.modLaunch launch (fun l => { l with stages := (l.stages.zip (List.range l.stages.length)).map (fun e => if e.2 = stage then { e.1 with items := e.1.items.drop 1, borrowed := (match e.1.items with | r :: _ => e.1.borrowed.filter (· != r.tid) | [] => e.1.borrowed) } else e.1) })

/-- The assignments whose rings a core pulls from: not yet the one to which a governor has moved it while it runs tasks of its old stage (R115). -/
def pullsFrom (m : Mach) (core : Nat) : List (Nat × Nat) :=
  let k := m.core core
  k.assign.filter (fun a => !k.moving.any (fun t => t.1 == a.1 && m.crews.any (fun c => c.tid == t.2 && c.core == core)))

/-- The rings that the core's assignments name: ascending class, then the order the launches started (R112). -/
def srcRing (m : Mach) (core : Nat) : Option Source :=
  let l := (pullsFrom m core).filterMap (fun a =>
    match m.launch a.1 with
    | some x =>
      match (x.stages[a.2]?) with
      | some st => match st.items with | r :: _ => some (r, a.1, a.2) | [] => none
      | none => none
    | none => none)
  match l.foldl (fun (b : Option (TaskRec × Nat × Nat)) r => match b with | none => some r | some x => if r.1.cls < x.1.cls then some r else some x) none with
  | some (r, h, st) => if recFits m core r then some { cls := r.cls, rank := 3, take := fun m => startTask (ringTake m h st) core r } else none
  | none => none

/-- The die's queue segments (R94). -/
def srcQueue (m : Mach) (core : Nat) : Option Source :=
  if isControl core then none
  else
    let die := dieOf core
    let d := m.die die
    match lowClass d with
    | none => none
    | some k =>
      match (segOrder m die (m.core core).segPtr).find? (fun s => !(fifo d k s).isEmpty) with
      | none => none
      | some seg =>
        match fifo d k seg with
        | [] => none
        | r :: rest =>
          if recFits m core r then
            some { cls := k, rank := 4, take := fun m =>
              let m := m.modDie die (fun d => segTidy (setFifo d k seg rest) seg)
              let m := m.modCore core (fun c => { c with segPtr := (c.segPtr + 1) % 32 })
              startTask (noteBest m die) core r }
          else none

/-- The source a core fills a free slot from: the lowest class, then the earlier in the list (R98). A source whose record does not fit, a pair where
one slot is free or too few tiles, is passed over. [DESIGN CHOICE, assumption log 22] -/
def pickWork (m : Mach) (core : Nat) : Option Source :=
  if (freeSlots m core).isEmpty || !present m core || !running m core then none
  else
    ([srcResume m core, srcDeque m core, srcRing m core, srcQueue m core].filterMap id).foldl
      (fun (b : Option Source) s => match b with | none => some s | some x => if s.cls < x.cls then some s else some x) none

/-- Is every source of R98 empty for a core, whether or not what it holds would fit (R102)? -/
def noWork (m : Mach) (core : Nat) : Bool :=
  !m.crews.any (fun c => c.resumable && c.slots.isEmpty && c.core == core) && (m.core core).deque.isEmpty &&
  (pullsFrom m core).all (fun a =>
    match m.launch a.1 with
    | some x => (match x.stages[a.2]? with | some st => st.items.isEmpty | none => true)
    | none => true) &&
  (lowClass (m.die (dieOf core))).isNone

/-- A core fills its free slots, at most n of them. -/
def fillN (core : Nat) : Nat → Mach → Mach
  | 0, m => m
  | n + 1, m =>
    match pickWork m core with
    | none => m
    | some s => fillN core n (s.take m)

/-- A core fills all the slots it has free before the next core in the order. [DESIGN CHOICE, assumption log 22] -/
def fillCore (m : Mach) (core : Nat) : Mach := fillN core 24 m

/-- Has the module any record or crew that could take a slot? -/
def workWaits (m : Mach) : Bool :=
  m.dies.any (fun e => (lowClass e.2).isSome) || m.cores.any (fun e => !e.2.deque.isEmpty) || m.crews.any (fun c => c.resumable && c.slots.isEmpty) ||
  m.launches.any (fun e => e.2.stages.any (fun s => !s.items.isEmpty))

/-- The cores fill their free slots, one after another from the per-cycle pointer (R94, R98, R456). -/
def fillAll (m : Mach) : Mach := if workWaits m then (coresFrom m).foldl fillCore m else m

/-- A pre-emption request that its time has not passed is withdrawn (R125). -/
def withdrawPre (clk : Nat) (c : Crew) : Crew :=
  let stands (p : PreReq) : Bool := decide (p.deadline < clk)
  let c := if c.pre.any stands then c else { c with pre := none }
  if c.preBy.isNone || c.preBy.any stands then c else settle clk { c with preBy := none }

/-- Slots have freed on a core: the die's requests that stand are withdrawn (R125). The core fills its slots with the next cycle (R98). -/
def slotFreed (m : Mach) (core : Nat) : Mach := m.mapCrews (fun c => if dieOf c.core = dieOf core then withdrawPre m.clk c else c)

end Sys2Proof.Machine
end

