-- ==== Sys2Proof/Machine/Cells.lean ====
section
/-! DEFINITION. Tile cells and dataflow records: cell states, claims, pins, eligibility (R105 to R108, R191 to R194). -/

namespace Sys2Proof.Machine

def Cell.fresh (launch cell : Nat) : Cell := { launch := launch, cell := cell, full := false, claim := none, pins := [], bytes := [], queue := [] }

/-- A cell of a launch on a die. -/
def cellGet (m : Mach) (die launch cell : Nat) : Cell :=
  ((m.die die).cells.find? (fun x => x.launch == launch && x.cell == cell)).getD (Cell.fresh launch cell)

def cellSet (m : Mach) (die : Nat) (x : Cell) : Mach :=
  m.modDie die (fun d =>
    let rest := d.cells.filter (fun y => !(y.launch == x.launch && y.cell == x.cell))
    { d with cells := if x = Cell.fresh x.launch x.cell then rest else rest ++ [x] })

/-- Fields of a cell word (R90). -/
def cwValid (w : Half) : Bool := w.getLsbD 31
def cwConsume (w : Half) : Bool := w.getLsbD 30
def cwDie (w : Half) : Nat := bits w.toNat 16 14
def cwCell (w : Half) : Nat := bits w.toNat 13 0

/-- The valid input or output words of a record's six (R90). -/
def cellIns (l : List Half) : List Half := (l.take 4).filter cwValid
def cellOuts (l : List Half) : List Half := (l.drop 4).filter cwValid

/-- Does a record name a cell? -/
def namesCell (r : TaskRec) (launch die cell : Nat) : Bool :=
  r.launch == launch && r.cells.any (fun w => cwValid w && cwDie w == die && cwCell w == cell)

/-- Pending records of the module that a test is due for when a cell changes (R106). -/
def pendingNaming (m : Mach) (launch die cell : Nat) : List (Nat × Nat) :=
  (List.range 8).flatMap (fun d => ((m.die d).pending).flatMap (fun e => (e.2.filter (fun r => namesCell r launch die cell)).map (fun r => (32 * d + e.1, r.tid))))

/-- Does a crew wait in the wait table for the cell? -/
def waitsCell (die launch cell : Nat) (c : Crew) : Bool :=
  c.launch == launch &&
  (match c.status with | .parked (.cell d k _) _ => d == die && k == cell | _ => false)

/-- Has the cell that a crew waits for come to the state that it waits for (R364)? -/
def cellReached (m : Mach) (die launch : Nat) (c : Crew) : Bool :=
  match c.status with
  | .parked (.cell _ k full) _ => let x := cellGet m die launch k; if full then x.full else !x.full && x.claim.isNone
  | _ => false

/-- Does a copy command name a cell as its source or destination (R411)? -/
def cmdNames (k : Cmd) (launch die cell : Nat) : Bool :=
  let hit (w : Nat) : Bool := bits w 16 14 == die && bits w 13 0 == cell
  k.launch == launch && ((bits (fld k.tmpl 72 1) 1 0 == 1 && hit (fld k.tmpl 0 4)) || (bits (fld k.tmpl 72 1) 3 2 == 1 && hit (fld k.tmpl 8 4)))

/-- A cell has changed state: eligibility tests, parked crews and stalled fillers and drainers follow (R106, R117, R193). -/
def cellChanged (m : Mach) (die launch cell : Nat) : Mach :=
  let m := (pendingNaming m launch die cell).foldl (fun m e => m.due (.dataflowEligibilityTest e.1 e.2)) m
  let m := (m.crews.filter (fun c => waitsCell die launch cell c && cellReached m die launch c)).foldl (fun m c => m.wakes c.tid) m
  let engine := m.dies.any (fun e => e.2.chans.any (fun ch => match ch.2.queue with | k :: _ => !k.started && cmdNames k launch die cell | [] => false))
  if (cellGet m die launch cell).queue.isEmpty && !engine then m else m.due (.cellWaiterServed die cell)

def cellMod (m : Mach) (die launch cell : Nat) (f : Cell → Cell) : Mach :=
  cellChanged (cellSet m die (f (cellGet m die launch cell))) die launch cell

/-- R106. -/
def eligible (m : Mach) (r : TaskRec) : Bool :=
  (cellIns r.cells).all (fun w => (cellGet m (cwDie w) r.launch (cwCell w)).full) &&
  (cellOuts r.cells).all (fun w => let x := cellGet m (cwDie w) r.launch (cwCell w); !x.full && x.claim.isNone)

/-- A pending record is tested; an eligible one claims its outputs, pins its inputs and moves to its class FIFO (R106, R107). -/
def eligTest (m : Mach) (seg tid : Nat) : Mach :=
  let die := seg / 32
  let s := seg % 32
  match (smGet [] (m.die die).pending s).find? (fun r => r.tid == tid) with
  | none => m
  | some r =>
    if !eligible m r then m
    else
      let m := m.modDie die (fun d => segTidy { d with pending := smSet [] d.pending s (dropRec (smGet [] d.pending s) tid) } s)
      let m := (cellOuts r.cells).foldl (fun m w => cellSet m (cwDie w) { cellGet m (cwDie w) r.launch (cwCell w) with claim := some tid }) m
      let m := (cellIns r.cells).foldl (fun m w =>
        let x := cellGet m (cwDie w) r.launch (cwCell w)
        cellSet m (cwDie w) { x with pins := x.pins ++ [tid] }) m
      queueIn m die s r

/-- A dataflow task ends: its claims end, its pins are released, consumed inputs become empty (R107, R193). -/
def endCells (m : Mach) (launch tid : Nat) (cells : List Half) : Mach :=
  let m := (cellOuts cells).foldl (fun m w =>
    let x := cellGet m (cwDie w) launch (cwCell w)
    if x.claim = some tid then cellMod m (cwDie w) launch (cwCell w) (fun x => { x with claim := none }) else m) m
  (cellIns cells).foldl (fun m w =>
    cellMod m (cwDie w) launch (cwCell w) (fun x =>
      { x with pins := x.pins.filter (· != tid), full := x.full && !cwConsume w })) m

end Sys2Proof.Machine
end

