-- ==== Sys2Proof/Machine/Race.lean ====
section
/-! DEFINITION. The race filter: strands, shadow records, the check and the update (R208 to R217). -/

namespace Sys2Proof.Machine

/-- An entry of a shadow record: strand id and word mask (R212). -/
def srSid (r : BitVec 256) (i : Nat) : Nat :=
  match i with
  | 0 => bits r.toNat 23 0
  | 1 => bits r.toNat 63 40
  | 2 => bits r.toNat 103 80
  | _ => bits r.toNat 143 120

def srMask (r : BitVec 256) (i : Nat) : Nat :=
  match i with
  | 0 => bits r.toNat 39 24
  | 1 => bits r.toNat 79 64
  | 2 => bits r.toNat 119 104
  | _ => bits r.toNat 159 144

def srLsn (r : BitVec 256) : Nat := bits r.toNat 191 160

/-- A shadow record from its fields (R212): the writer, readers 0 to 2, each an (id, mask) pair. -/
def srMake (e : List (Nat × Nat)) (lsn : Nat) (ovf xid : Bool) : BitVec 256 :=
  let g (i : Nat) := e.getD i (0, 0)
  BitVec.ofNat 256 ((g 0).1 + (g 0).2 * 2 ^ 24 + (g 1).1 * 2 ^ 40 + (g 1).2 * 2 ^ 64 + (g 2).1 * 2 ^ 80 + (g 2).2 * 2 ^ 104 +
    (g 3).1 * 2 ^ 120 + (g 3).2 * 2 ^ 144 + lsn * 2 ^ 160 + b2n ovf * 2 ^ 192 + b2n xid * 2 ^ 193)

/-- `SHVBASE` of a job, that of address space 0 for job 0 (R428, R429). -/
def shvOf (m : Mach) (job : Nat) : Nat :=
  (if job = 0 then m.shvbase0 else match m.job job with | some j => j.shvbase | none => smGet 0 m.shvbases job).toNat

/-- Virtual address of the record of a line (R211). -/
def shadowVa (m : Mach) (job va : Nat) : Nat := (shvOf m job + va / 128 * 32) % 2 ^ 57

/-- `HOME` of the data page that holds the first line a shadow page describes, else a die of the accessing core (DESIGN CHOICE, assumption log 6). -/
def shadowHome (m : Mach) (core job sva : Nat) : Nat :=
  match walk m job ((sva / 4096 * 4096 + 2 ^ 57 - shvOf m job) % 2 ^ 57 / 32 * 128) with
  | .ok (l, _) => lfHome l
  | .error _ => dieOf core

/-- The frame-relative place of a record: Lennas maps a zeroed page for it, supervisor-only, when no leaf translates it (R211); none when it cannot. -/
def shadowPage (m : Mach) (core job va : Nat) : Option Mach :=
  let sva := shadowVa m job va
  match walk m job sva with
  | .ok _ => some m
  | .error _ =>
    match mapFresh m job sva (shadowHome m core job sva) true true false true false with
    | some m => some { m with shadow := m.shadow ++ [(job, sva / 4096 * 4096)] }
    | none => none

/-- Physical address of the record of a line. -/
def shadowPa (m : Mach) (job va : Nat) : Option Nat :=
  match walk m job (shadowVa m job va) with
  | .ok (l, _) => some (paOf l (shadowVa m job va))
  | .error _ => none

/-- The record of a line (R211, R212). -/
def shadowRec (m : Mach) (job va : Nat) : BitVec 256 :=
  match shadowPa m job va with
  | some pa => BitVec.ofNat 256 (memNum m.mem pa 32)
  | none => 0

/-- The record of a line is written. -/
def shadowPut (m : Mach) (job va : Nat) (r : BitVec 256) : Mach :=
  match shadowPa m job va with
  | some pa => commitRun (touchLine m (jobTreat m job) 0 (pa / 128)) pa (toBytes 32 r.toNat)
  | none => m

/-- Every record of a job is zero again (R209). -/
def shadowClear (m : Mach) (job : Nat) : Mach :=
  (m.shadow.filter (fun e => e.1 == job)).foldl (fun m e =>
    match walk m job e.2 with
    | .ok (l, _) => let f := paOf l e.2; { m with mem := m.mem.filter (fun c => !decide (f ≤ c.1 ∧ c.1 < f + 4096)) }
    | .error _ => m) m

/-- The words of a line that an access touches (R213). -/
def wordMask (va size : Nat) : Nat :=
  let a := va % 128 / 8
  let b := (va % 128 + size - 1) / 8
  2 ^ (b + 1) - 2 ^ a

/-- Strand id of no entry (R208). -/
def sidMax : Nat := 0xFFFFFF

/-- The current crew's strand gets an id, recorded in its launch's strand table, when it first needs one (R208). -/
def giveSid (m : Mach) : Mach :=
  if m.cur.sid ≠ 0 then m
  else
    match m.launch m.cur.launch with
    | none => m
    | some l =>
      let id := l.nextSid
      let st : Strand := { ped := m.cur.ped, rrk := m.cur.rrk, lseq := m.cur.lseq }
      let l := if id < sidMax then { l with nextSid := id + 1, strands := smPut l.strands id st } else l
      let m := m.setLaunch m.cur.launch l
      let m := if id < sidMax then m else monCount m .raceFull m.cur.core
      { m with cur := { m.cur with sid := BitVec.ofNat 24 id } }

/-- The launch of a job with a serial number. -/
def launchByLsn (m : Mach) (job lsn : Nat) : Option Launch :=
  (m.launches.find? (fun e => e.2.job == job && e.2.lsn == lsn)).map (·.2)

/-- The launch point of serial `y` for a launch, along its chain (R210). -/
def launchPoint (m : Mach) (job y : Nat) : Nat → Launch → Option Strand
  | 0, _ => none
  | n + 1, l =>
    if l.plsn = 0 then none
    else if l.plsn = y then some { ped := l.iped, rrk := l.irrk, lseq := l.ilseq }
    else
      match launchByLsn m job l.plsn with
      | some k => launchPoint m job y n k
      | none => none

/-- A strand precedes a launch point (R210). -/
def precedes (e p : Strand) : Bool :=
  e.rrk == p.rrk &&
  (match pedOrder e.ped p.ped with
   | .before => true
   | .same => decide (e.lseq.toNat ≤ p.lseq.toNat)
   | _ => false)

/-- The first conflict of one access with a record (R213): the index of the recorded entry, and its strand's digest. -/
def raceHit (m : Mach) (l : Launch) (c : Crew) (rec : BitVec 256) (write : Bool) (words : Nat) : Option (Nat × Word) :=
  let s : Strand := { ped := c.ped, rrk := c.rrk, lseq := c.lseq }
  let other := decide (srLsn rec ≠ l.lsn) && decide (srLsn rec ≠ 0)
  let owner := if other then launchByLsn m l.job (srLsn rec) else some l
  match owner with
  | none => none
  | some o =>
    if other && o.done then none
    else
      let pt := if other then launchPoint m l.job o.lsn 65536 l else none
      let hit (i : Nat) : Option (Nat × Word) :=
        let id := srSid rec i
        if id = 0 ∨ srMask rec i &&& words = 0 then none
        else if i ≠ 0 && !write then none
        else if id = sidMax ∨ c.sid.toNat = sidMax then none
        else
          match smFind o.strands id with
          | none => none
          | some e =>
            let bad :=
              if other then
                (match pt with
                 | none => true
                 | some p => e.rrk == p.rrk && !precedes e p)
              else e.rrk == s.rrk && pedOrder e.ped s.ped == .unordered
            if bad then some (i, pdig e.ped) else none
      (List.range 4).findSome? hit

/-- The record after an access that passed (R213, R214). -/
def raceUpdate (lsn sid : Nat) (rec : BitVec 256) (write : Bool) (words : Nat) : BitVec 256 :=
  let rec' : BitVec 256 := if srLsn rec ≠ lsn then srMake [] lsn false false else rec
  let es := (List.range 4).map (fun i => (srSid rec' i, srMask rec' i))
  let ovf := bit rec'.toNat 192
  let xid := bit rec'.toNat 193 || decide (sid = sidMax)
  if write then
    let w := es.getD 0 (0, 0)
    let w' := if w.1 = sid then (sid, w.2 ||| words) else (sid, words)
    let rs := (es.drop 1).map (fun r => let k := r.2 - (r.2 &&& words); if k = 0 then (0, 0) else (r.1, k))
    srMake (w' :: rs) lsn (ovf && words != 0xFFFF) xid
  else
    let rs := es.drop 1
    if rs.any (fun r => r.1 == sid) then
      srMake (es.headD (0, 0) :: rs.map (fun r => if r.1 = sid then (sid, r.2 ||| words) else r)) lsn ovf xid
    else
      match (List.range 3).find? (fun i => (rs.getD i (0, 0)).1 == 0) with
      | some i => srMake (es.headD (0, 0) :: rs.set i (sid, words)) lsn ovf xid
      | none => srMake es lsn true xid

/-- Every record that an access needs has its page; a page that Lennas cannot map is the task's XLATE, with the record's address and level 7 (R211). -/
def shadowPages (kind : Nat) : List Ok → Mach → R Mach
  | [], m => .ok m
  | o :: t, m =>
    match shadowPage m m.cur.core m.cur.job o.acc.va with
    | some m => shadowPages kind t m
    | none => .error (trapOf 0x20 (some o.acc.lane) (w64 (shadowVa m m.cur.job o.acc.va)) (w64 (kind * 256 + 7)) 0 0)

/-- The check and update of the plain accesses of one instruction by the current crew (R213 to R215); accesses of pages without `CHK`
take no part. -/
def raceCheck (m : Mach) (write : Bool) (oks : List Ok) : R Mach :=
  let oks := oks.filter (fun o => lfCHK o.leaf)
  if oks.isEmpty then .ok m
  else
    let m := giveSid m
    match m.launch m.cur.launch with
    | none => .ok m
    | some l =>
      let job := m.cur.job
      match shadowPages (if write then 2 else 1) oks m with
      | .error h => .error h
      | .ok m =>
        let bad := oks.findSome? (fun o =>
          let words := wordMask o.acc.va o.acc.size
          let sr := shadowRec m job o.acc.va
          match raceHit m l m.cur sr write words with
          | some (i, dg) =>
            let kind := if write then (if i = 0 then 0 else 2) else 1
            some (trapOf 0x10 (some o.acc.lane) (w64 (o.acc.va / 128 * 128)) (w64 (kind + words * 2 ^ 16 + srMask sr i * 2 ^ 32)) dg (pdig m.cur.ped))
          | none => none)
        match bad with
        | some h => .error h
        | none =>
          .ok (oks.foldl (fun m o =>
            shadowPut m job o.acc.va (raceUpdate l.lsn m.cur.sid.toNat (shadowRec m job o.acc.va) write (wordMask o.acc.va o.acc.size))) m)

end Sys2Proof.Machine
end

