-- ==== Sys2Proof/Machine/Reduce.lean ====
section
/-! DEFINITION. Reducer values: identities, combination, views and the merge at a join (R388 to R393). -/

namespace Sys2Proof.Machine

def mkElem (i : Int) : Elem := { i := i, pinf := false, ninf := false, nan := false }

/-- The identity of a kind (R389). -/
def redId (kind : Nat) : Elem :=
  mkElem (match kind with
    | 2 => 2 ^ 31 - 1
    | 3 => -(2 ^ 31)
    | 4 => 0x7F800000
    | 5 => 0xFF800000
    | 6 => 2 ^ 64 - 1
    | _ => 0)

/-- An input value as an element (R389, R392). -/
def redIn (kind : Nat) (x : Word) : Elem :=
  match kind with
  | 1 =>
    match decF f32 (lo32 x).toNat with
    | .nan _ => { mkElem 0 with nan := true }
    | .inf n => { mkElem 0 with pinf := !n, ninf := n }
    | .num n m e => mkElem (intAt n m e (-149))
  | 2 | 3 => mkElem (lo32 x).toInt
  | 4 | 5 => mkElem (lo32 x).toNat
  | _ => mkElem x.toNat

/-- The combination of a kind (R389). -/
def redOp (kind : Nat) (a b : Elem) : Elem :=
  match kind with
  | 0 => mkElem (wrapTo 64 (a.i + b.i))
  | 1 => { i := a.i + b.i, pinf := a.pinf || b.pinf, ninf := a.ninf || b.ninf, nan := a.nan || b.nan }
  | 2 => mkElem (min a.i b.i)
  | 3 => mkElem (max a.i b.i)
  | 4 => mkElem (minMaxF f32 false a.i.toNat b.i.toNat).1
  | 5 => mkElem (minMaxF f32 true a.i.toNat b.i.toNat).1
  | 6 => mkElem (a.i.toNat &&& b.i.toNat : Nat)
  | 7 => mkElem (a.i.toNat ||| b.i.toNat : Nat)
  | _ => mkElem (a.i.toNat ^^^ b.i.toNat : Nat)

/-- An element as `rview` and `rfin` give it: rounded for `add.f32x` (R389). -/
def redOut (kind : Nat) (e : Elem) : Word :=
  match kind with
  | 1 =>
    w64 (if e.nan || (e.pinf && e.ninf) then f32.nan
      else if e.pinf then 0x7F800000 else if e.ninf then 0xFF800000
      else (roundEx f32 0 0 (exOfInt e.i (-149) false)).1)
  | 2 | 3 => zx (BitVec.ofInt 32 e.i)
  | _ => w64 e.i.toNat

/-- Tag of a reducer's element (R389). -/
def redTag (kind : Nat) : Tag := match kind with | 0 => tI64 | 1 | 4 | 5 => tF32 | 2 | 3 => tI32 | 9 => tN32 | _ => tRAW
/-- Tags a value of the kind may carry (R389). -/
def redTags (kind : Nat) : Nat := match kind with | 0 => 0x1000 | 1 | 4 | 5 => 0x8 | 2 | 3 => 0x2 | _ => 0x7FFF
/-- Kinds with 64-bit values. -/
def redWide (kind : Nat) : Bool := kind == 0 || kind == 6 || kind == 7 || kind == 8

def viewEmpty : RView := { elems := [], recs := [] }
def rvGet (kind : Nat) (v : RView) (e : Nat) : Elem := smGet (redId kind) v.elems e
def rvAcc (kind : Nat) (v : RView) (e : Nat) (x : Elem) : RView :=
  { v with elems := smSet (redId kind) v.elems e (redOp kind (rvGet kind v e) x) }

/-- V ⊕ W. -/
def rvMerge (kind : Nat) (v w : RView) : RView :=
  { (w.elems.foldl (fun v e => rvAcc kind v e.1 e.2) v) with recs := v.recs ++ w.recs }

/-- Key of a crew's eddy of reducer r for the segment k of the epoch. -/
def eddyKey (k r : Nat) : Nat := 16 * k + r

/-- The views of a list of reducers, merged in one. -/
def viewsMerge (reds : List RedEnt) (v w : List (Nat × RView)) : List (Nat × RView) :=
  (List.range reds.length).foldl (fun v r =>
    smSet viewEmpty v r (rvMerge ((reds.map (·.kind)).getD r 0) (smGet viewEmpty v r) (smGet viewEmpty w r))) v

/-- The eddies of segment k, by reducer. -/
def eddiesOf (c : Crew) (n k : Nat) : List (Nat × RView) :=
  (List.range n).foldl (fun l r => smSet viewEmpty l r (smGet viewEmpty c.eddies (eddyKey k r))) []

/-- V ⊕ S0 ⊕ C1 ⊕ S1 ⊕ ... ⊕ Cn ⊕ Sn (R391); a child that did not end cleanly holds no views. -/
def joinViews (reds : List RedEnt) (c : Crew) : List (Nat × RView) :=
  (List.range c.kseg).foldl (fun v k =>
    let kid := (c.kids.find? (fun x => x.seg == k + 1))
    let v := match kid with | some x => viewsMerge reds v x.views | none => v
    viewsMerge reds v (eddiesOf c reds.length (k + 1)))
    (viewsMerge reds c.merged (eddiesOf c reds.length 0))

/-- The task's current view of a reducer: what the last join left, and its own eddies since (DEDUCED, assumption log 12). -/
def curView (reds : List RedEnt) (c : Crew) (r : Nat) : RView :=
  let kind := (reds.map (·.kind)).getD r 0
  (List.range (c.kseg + 1)).foldl (fun v k => rvMerge kind v (smGet viewEmpty c.eddies (eddyKey k r))) (smGet viewEmpty c.merged r)

/-- The bytes of a view as `rfin` and `AUTO` lay it out (R393). -/
def redBytes (e : RedEnt) (v : RView) : List Byte :=
  if e.kind = 9 then toBytes 8 v.recs.length ++ (v.recs.take e.nelem).flatMap id
  else (List.range e.nelem).flatMap (fun i => toBytes (if redWide e.kind then 8 else 4) (redOut e.kind (rvGet e.kind v i)).toNat)

end Sys2Proof.Machine
end

