-- ==== Sys2Proof/Machine/Vft.lean ====
section
/-! DEFINITION. Sending on the ports: VFT connections and their frames (R49, R50, R52), and the notices to a job's submitter (R58, R63, R64). -/

namespace Sys2Proof.Machine

/-- Bit [0] of FLAGS: the last frame of a transfer. Bit [1]: NACK. -/
def flLast : Nat := 1
def flNack : Nat := 2
/-- Unacknowledged frames that a sender keeps (R50). -/
def winFrames : Nat := 4096

/-- Frames of a connection that may be under way: the sender's window, and the buffers that the peer grants (R49, R50). [PRESUMED, assumption log 5] -/
def winOf (c : Conn) : Nat := min winFrames c.credit

/-- The header of a frame on the wire, fields big-endian (R49). -/
def frameHead (fr : Frame) : List Byte :=
  toBytesBE 1 (fr.ver % 16 * 16 + fr.typ % 16) ++ toBytesBE 1 (fr.cls % 4 * 64 + fr.flags % 64) ++ toBytesBE 2 fr.domain ++ toBytesBE 2 fr.src ++
  toBytesBE 2 fr.dst ++ toBytesBE 4 fr.psn ++ toBytesBE 4 fr.apsn ++ toBytesBE 2 fr.payload.length ++ toBytesBE 2 fr.chan ++
  toBytesBE 8 fr.oparg.toNat ++ toBytesBE 4 fr.credit

/-- The frame that the bytes after the EtherType carry, when they are a whole one (R49). -/
def frameOf (port : Nat) (b : List Byte) : Option Frame :=
  let f (o n : Nat) : Nat := ofBytesBE (slice b o n)
  if b.length < 32 ∨ b.length < 32 + f 16 2 then none
  else
    some { port := port, ver := f 0 1 / 16, typ := f 0 1 % 16, cls := f 1 1 / 64, flags := f 1 1 % 64, domain := f 2 2, src := f 4 2, dst := f 6 2,
           psn := f 8 4, apsn := f 12 4, chan := f 18 2, oparg := w64 (f 20 8), credit := f 28 4, payload := slice b 32 (f 16 2) }

/-- A frame waits for its port (R49, R52). -/
def Mach.sendFrame (m : Mach) (port : Nat) (fr : Frame) : Mach := { m with net := { m.net with txq := m.net.txq ++ [{ fr with port := port }] } }

/-- This module's index in a VFT domain (R447). -/
def Mach.modIn (m : Mach) (dom : Nat) : Nat := smGet 0 m.net.modIdx dom

/-- The number by which a port tells the connections of a class apart. -/
def connKey (fr : Frame) : Nat := fr.domain * 2 ^ 16 + fr.dst * 2 ^ 4 + fr.chan

/-- The frame that a port sends next, of those that wait for it: one of the lowest class, of the connection that comes next after the one served last (R52).
In which order connections take their turns is open: by domain, module and channel. [DESIGN CHOICE, assumption log 5] -/
def portNext (served : List (Nat × Nat)) (port : Nat) (q : List Frame) : Option Frame :=
  let q := q.filter (fun f => f.port == port)
  let cls := q.foldl (fun b f => min b f.cls) 3
  let q := q.filter (fun f => f.cls == cls)
  let last := smFind served (4 * port + cls)
  let low (l : List Frame) : Option Frame := l.foldl (fun b f => match b with | none => some f | some x => if connKey f < connKey x then some f else some x) none
  (low (q.filter (fun f => match last with | some k => decide (k < connKey f) | none => true))).or (low q)

/-- A port sends its waiting frames, n of them at most. -/
def portSend (port : Nat) : Nat → Mach → Mach
  | 0, m => m
  | n + 1, m =>
    match portNext m.net.served port m.net.txq with
    | none => m
    | some f =>
      portSend port n ({ m with net := { m.net with txq := m.net.txq.erase f, served := smPut m.net.served (4 * port + f.cls) (connKey f) } }.send
        (.frame port f (frameHead f ++ f.payload)))

/-- At the end of a cycle each port sends the frames that have come to it in it (R52). How long a frame takes is left out. [DESIGN CHOICE, assumption log 5] -/
def portsSend (m : Mach) : Mach := ((m.net.txq.map (·.port)).eraseDups).foldl (fun m p => portSend p m.net.txq.length m) m

/-- The link monitor class counts a drop (R40, R49). -/
def linkDrop (m : Mach) (unit : Nat) : Mach := monCount { m with net := { m.net with drops := m.net.drops + 1 } } .linkDrop unit

def connIs (dom dst cls chan : Nat) (c : Conn) : Bool := c.domain == dom && c.dst == dst && c.cls == cls && c.chan == chan

/-- The port that a tuple is pinned to among the up ports (R50); none when no port is up. -/
def pinPort (ports : List Nat) (tuple : List Nat) : Option Nat :=
  if ports.isEmpty then none else ports[Config.portHash tuple % ports.length]?

def Mach.modConn (m : Mach) (p : Conn → Bool) (f : Conn → Conn) : Mach := { m with net := { m.net with conns := updFirst p f m.net.conns } }
def Mach.conn (m : Mach) (p : Conn → Bool) : Option Conn := m.net.conns.find? p

/-- The connection to a peer, made when it is first needed; none when no port remains (R50). Which credit it has before the peer's first frame grants any is
open: as many as the sender may keep. [DESIGN CHOICE, assumption log 5] -/
def openConn (m : Mach) (dom dst cls chan : Nat) : Option Mach :=
  match m.conn (connIs dom dst cls chan) with
  | some c => if c.down then none else some m
  | none =>
    match pinPort m.net.ports [dom, m.modIn dom, dst, cls, chan] with
    | none => none
    | some p =>
      some { m with net := { m.net with conns := m.net.conns ++
        [{ domain := dom, src := m.modIn dom, dst := dst, cls := cls, chan := chan, port := p, psn := 0, rpsn := 0, credit := winFrames, unacked := [], sent := 0, retries := 0, since := m.clk, down := false }] } }

/-- Send a frame on a connection: it takes the next PSN and stays until it is acknowledged (R50). Answers false when the peer is down. -/
def vftSend (m : Mach) (dom dst cls chan typ flags : Nat) (oparg : Word) (payload : List Byte) : Mach × Bool :=
  match openConn m dom dst cls chan with
  | none => (m, false)
  | some m =>
    match m.conn (connIs dom dst cls chan) with
    | none => (m, false)
    | some c =>
      let fr : Frame := { port := c.port, ver := 1, typ := typ, cls := cls, flags := flags, domain := dom, src := c.src, dst := dst,
                          psn := c.psn, apsn := c.rpsn, chan := chan, oparg := oparg, credit := Config.rxBuffers.toNat, payload := payload }
      let goes := c.sent = c.unacked.length ∧ c.sent < winOf c
      let m := m.modConn (connIs dom dst cls chan) (fun c =>
        { c with psn := (c.psn + 1) % 2 ^ 32, unacked := c.unacked ++ [fr], sent := if goes then c.sent + 1 else c.sent, since := if c.sent = 0 then m.clk else c.since })
      (if goes then m.sendFrame c.port fr else if c.unacked.length < winFrames then monCount m .linkStall c.port else m, true)

/-- Send a frame that no connection keeps: an acknowledgement or a heartbeat. -/
def vftSendBare (m : Mach) (c : Conn) (typ flags psn : Nat) : Mach :=
  m.sendFrame c.port { port := c.port, ver := 1, typ := typ, cls := c.cls, flags := flags, domain := c.domain, src := c.src, dst := c.dst,
                          psn := psn, apsn := c.rpsn, chan := c.chan, oparg := 0, credit := Config.rxBuffers.toNat, payload := [] }

/-- May a vector go out: MSI-X is enabled, and neither the function nor the vector is masked (R63)? -/
def msixOpen (m : Mach) (v : Nat) : Bool := m.msixOn && !m.msixFn && !smGet true m.msixMask v

/-- A vector goes out, as its table entry says. -/
def msixSend (m : Mach) (v : Nat) : Mach :=
  let w (i : Nat) : Nat := (smGet 0 m.msixTab (4 * v + i)).toNat
  m.send (.msix v (w 0 + w 1 * 2 ^ 32) (w 2))

/-- Vectors that are pending and may go out are sent. -/
def msixFlush (m : Mach) : Mach :=
  (m.msixPend.filter (msixOpen m)).foldl msixSend { m with msixPend := m.msixPend.filter (fun v => !msixOpen m v) }

/-- An MSI-X vector is raised (R63): pending while it is masked, lost to the host while MSI-X is off. [PRESUMED, assumption log 5] -/
def raiseMsix (m : Mach) (v : Nat) : Mach :=
  if !m.msixOn then m
  else if msixOpen m v then msixSend m v
  else { m with msixPend := if m.msixPend.contains v then m.msixPend else m.msixPend ++ [v] }

/-- A notice for the mailbox: kept in the queue of 256, or dropped with `NOVF` set (R58). -/
def noticeHost (m : Mach) (kind job : Nat) : Mach :=
  if m.notices.length < 256 then raiseMsix { m with notices := m.notices ++ [(kind, job)] } 1 else { m with novf := true }

/-- A notice goes to the job's submitter only (R64): 1 completed, 2 cancelled, 3 faulted, 4 resumed. -/
def notice (m : Mach) (kind job : Nat) : Mach :=
  match m.job job with
  | some j =>
    match j.submitter with
    | none => noticeHost m kind job
    | some (dom, mod) =>
      (vftSend m dom mod j.cls 0 5 flLast 0 (toBytes 1 kind ++ toBytes 1 0 ++ toBytes 2 job ++ toBytes 4 0)).1
  | none => noticeHost m kind job

end Sys2Proof.Machine
end

