-- ==== Sys2Proof/Machine/Jobs.lean ====
section
/-! DEFINITION. Launches, graphs and phases: how each starts, counts down, completes and is cancelled (R67 to R78, R109 to R115, R388). -/

namespace Sys2Proof.Machine

/-! ### What Lennas reads and writes in a job's address space -/

/-- Write a run of bytes that stays in one line, at once or when its home can take it (R36, R196). -/
def jobWriteRun (m : Mach) (job va : Nat) (bs : List Byte) : Mach :=
  match walk m job va with
  | .ok (l, _) =>
    if isAperture (paOf l va) then commitRun (touchLine m (treatAt m l (paOf l va)) (lfCP l) (paOf l va / 128)) (paOf l va) bs
    else homeWrite m (treatAt m l (paOf l va)) (lfCP l) (paOf l va) bs
  | .error _ => m

/-- Lennas or an engine writes bytes at a virtual address of a job: line by line, mapping demand-paged pages first. -/
def jobWrite (job die : Nat) : Nat → Mach → Nat → List Byte → Mach
  | 0, m, _, _ => m
  | n + 1, m, va, bs =>
    if bs.isEmpty then m
    else
      let k := 128 - va % 128
      jobWrite job die n (jobWriteRun (demandPage m (40 * die) job va) job va (bs.take k)) (va + k) (bs.drop k)

def jobPut (m : Mach) (job va : Nat) (bs : List Byte) : Mach := jobWrite job 0 (bs.length / 128 + 2) m va bs

/-- The job control page (R70). -/
def ctlPage : Nat := 0x1FFFFFFFFF60000

/-- A launch's trap area in the job's address space: 4 096 records (R252, assumption log 6). -/
def trapArea (handle : Nat) : Nat := 0x1FE000000000000 + handle % 2 ^ 30 * 2 ^ 19

/-- Map pages read-only for a job, n of them; none when no frame is left. -/
def mapReadOnly (job die va : Nat) : Nat → Mach → Option Mach
  | 0, m => some m
  | n + 1, m =>
    match walk m job va with
    | .ok _ => mapReadOnly job die (va + 4096) n m
    | .error _ =>
      match mapFresh m job va die true false false false false with
      | some m => mapReadOnly job die (va + 4096) n m
      | none => none

/-! ### Objects -/

/-- The handles of a job, of its phase run and graph run of a phase number, and of the launch that a node starts (R69): they follow from the job, the
phase number and the node alone, so that a task that stores one leaves the same bits whatever the schedule (R2). [DESIGN CHOICE, assumption log 6] -/
def jobHandle (job : Nat) : Nat := job % 2 ^ 16 * 2 ^ 46 + 1
def phaseHandle (job phase : Nat) : Nat := job % 2 ^ 16 * 2 ^ 46 + 2 + 2 * (phase % 2 ^ 42)
def nodeHandle (job phase n : Nat) : Nat := job % 2 ^ 16 * 2 ^ 46 + 2 ^ 44 + phase % 2 ^ 28 * 2 ^ 16 + n % 2 ^ 16

/-- What a launch is made from: the declaration's address, the roots and their placement (R67). -/
structure LaunchReq where
  addr    : Nat
  nroot   : Nat
  affbase : Nat
  tile    : Nat
  seed    : Word
  node    : Option Nat
  issuer  : Option Nat
  byTid   : Nat
  iped    : Ped
  plsn    : Nat
  irrk    : Half
  ilseq   : BitVec 16

/-- The last launch serial number (R209). -/
def lsnMax : Nat := 0xFFFFFFFF

/-- The handle of a launch: its node's, or for a `launch` a digest of the issuing launch, the strand and its launch sequence, which no schedule changes
(R2); a handle that another launch of the job has passes to the next number (R69). [DESIGN CHOICE, assumption log 6] -/
def launchHandle (m : Mach) (j : Job) (q : LaunchReq) : Nat :=
  match q.node with
  | some n => nodeHandle j.id j.phaseNo n
  | none =>
    let from' := match q.issuer.bind m.launch with | some l => l.hnd | none => 0
    let d := (digStep (digStep (w64 from') (pdig q.iped)) (w64 (q.irrk.toNat * 2 ^ 16 + q.ilseq.toNat))).toNat
    let at' (k : Nat) : Nat := j.id % 2 ^ 16 * 2 ^ 46 + 2 ^ 45 + (d + k) % 2 ^ 45
    let taken (h : Nat) : Bool := m.launches.any (fun e => e.2.job == j.id && e.2.hnd == h)
    (((List.range (m.launches.length + 1)).map at').find? (fun h => !taken h)).getD (at' 0)

/-- The object handle of a launch. -/
def launchHnd (m : Mach) (h : Nat) : Nat := match m.launch h with | some l => l.hnd | none => 0

/-- Make a launch of a job with a fresh handle and serial number (R209, R210, R434); it starts when its turn comes. Launches past the last serial
number share it until the boundary restarts the serials. [DESIGN CHOICE, assumption log 13] -/
def makeLaunch (m : Mach) (j : Job) (q : LaunchReq) : Nat × Mach :=
  let h := m.nextHandle
  let hnd := launchHandle m j q
  let m : Mach := { m with nextHandle := h + 1 }
  let l : Launch :=
    { handle := h, hnd := hnd, lsn := min j.nextLsn lsnMax, job := j.id, counter := q.nroot, started := false, done := false, cancelled := false, node := q.node,
      issuer := q.issuer, byTid := q.byTid, queued := 0, declAddr := q.addr, nroot := q.nroot, affbase := q.affbase, tile := q.tile, seed := q.seed, decl := none,
      iped := q.iped, plsn := q.plsn, irrk := q.irrk, ilseq := q.ilseq, tmpls := [], nextSid := 1, strands := [],
      trapBase := trapArea h, trapSeq := 1, traps := [], reds := [], rootViews := [], stages := [], pool := 0, backoffC := 256, govint := 0, govAt := 0 }
  let m := m.setLaunch h l
  (h, (m.modJob j.id (fun j => { j with nextLsn := j.nextLsn + 1 })).due (.launchStart h))

/-! ### Graphs (R71) -/

def nodeAt (j : Job) (n : Nat) : Option Node :=
  match j.phases[j.phase]? with
  | some p => p.nodes[n]?
  | none => none
def graphNodes (j : Job) : List Node := match j.phases[j.phase]? with | some p => p.nodes | none => []

def nodeState (j : Job) (n : Nat) : NodeState := j.states.getD n .notTaken
def resolved (s : NodeState) : Bool := match s with | .taken _ => true | .notTaken => true | _ => false
/-- Is the edge from a resolved node to n taken? -/
def edgeTaken (s : NodeState) (n : Nat) : Bool :=
  match s with
  | .taken none => true
  | .taken (some k) => k == n
  | _ => false
def preds (j : Job) (n : Nat) : List Nat :=
  ((graphNodes j).zip (List.range (graphNodes j).length)).filterMap (fun e => if e.1.succ.contains n then some e.2 else none)

/-- A node resolves: the graph's counter goes down (R75). -/
def setNode (j : Job) (n : Nat) (s : NodeState) : Job :=
  let was := resolved (nodeState j n)
  { j with states := j.states.set n s, graphCtr := if resolved s && !was then j.graphCtr - 1 else j.graphCtr }

/-- Who reads a condition word: Lennas (R72). -/
def condWho (job : Nat) : Who := { core := 320, job := job, sup := false }

/-- The number under which a condition node's reads of the host's memory are known. -/
def condOp (job n : Nat) : Nat := 2 ^ 49 + 256 * job + n

/-- The word of a condition node: at home, or from the host, which is asked for it (R39, R72). [DEDUCED, assumption log 35] -/
def condFetch (m : Mach) (job n addr : Nat) : Fetch :=
  let host := match walk m job addr with | .ok (l, _) => isAperture (paOf l addr) | .error _ => false
  if host then engineBytes { condWho job with op := condOp job n } 8 m addr
  else match engineRead (condWho job) 8 m addr with | some (b, m) => .data b m | none => .fault

/-- A condition node that runs reads its word, once the host has given back its lines, and chooses its successor (R36, R72). -/
def condNode (m : Mach) (job n : Nat) (j : Job) (nd : Node) : Mach :=
  let m := m.setJob job (setNode j n .running)
  let held := heldLines m (condWho job) [(nd.addr, 8)]
  if !held.isEmpty then (snoopSide held m).due (.conditionNodeRead job n)
  else
    match condFetch m job n nd.addr with
    | .data b m => (apUsed m (condOp job n)).modJob job (fun j => setNode j n (.taken nd.succ[min (ofBytes b) (nd.succ.length - 1)]?))
    | .later m => m.due (.conditionNodeRead job n)
    | _ => ((apUsed m (condOp job n)).modJob job (fun j => setNode j n .failed)).due (.conditionNodeRead job n)

/-- One pass over the nodes: those whose predecessors have all resolved run or are skipped (R71). -/
def graphPass (m : Mach) (job : Nat) : Mach :=
  match m.job job with
  | none => m
  | some j0 =>
    (List.range j0.states.length).foldl (fun m n =>
      match m.job job with
      | none => m
      | some j =>
        if nodeState j n != .waiting then m
        else
          let ps := preds j n
          if !ps.all (fun p => resolved (nodeState j p)) then m
          else if ps.isEmpty || ps.any (fun p => edgeTaken (nodeState j p) n) then
            match nodeAt j n with
            | none => m
            | some nd =>
              if nd.cond then condNode m job n j nd
              else
                (makeLaunch (m.setJob job (setNode j n .running)) (setNode j n .running)
                  { addr := nd.addr, nroot := nd.nroot, affbase := nd.affbase, tile := nd.tile, seed := nd.seed, node := some n, issuer := none, byTid := 0,
                    iped := 0, plsn := 0, irrk := 0, ilseq := 0 }).2
          else m.setJob job (setNode j n .notTaken)) m

/-- Nodes run and are skipped until nothing changes; a graph all of whose nodes have resolved completes (R71, R75). -/
def graphAdvance (m : Mach) (job : Nat) : Mach :=
  match m.job job with
  | none => m
  | some j =>
    let m := (List.range (j.states.length + 1)).foldl (fun m _ => graphPass m job) m
    match m.job job with
    | none => m
    | some j =>
      if j.phaseCtr = 2 ∧ j.states.all resolved then (m.setJob job { j with phaseCtr := 1 }).due (.phaseBoundary job)
      else m

/-- A node resolves and the graph goes on. -/
def resolveNode (m : Mach) (job n : Nat) (s : NodeState) : Mach :=
  match m.job job with
  | none => m
  | some j => if resolved (nodeState j n) then m else graphAdvance (m.setJob job (setNode j n s)) job

/-! ### The end of a launch (R73, R75, R191, R393) -/

/-- The launch's view of each reducer: its roots' views in ascending root index (R391). -/
def launchViews (l : Launch) : List (Nat × RView) :=
  (List.range l.nroot).foldl (fun v i =>
    viewsMerge l.reds v ((List.range l.reds.length).foldl (fun t r => smSet viewEmpty t r (smGet viewEmpty l.rootViews (16 * i + r))) [])) []

/-- The VME that writes the `AUTO` results of a job's launches: that of die 0 (R183). [DESIGN CHOICE, assumption log 21] -/
def vmeWho (job : Nat) : Who := { core := 368, job := job, sup := false }

/-- The `AUTO` results of a launch: address and bytes of each (R393). -/
def autoResults (l : Launch) : List (Nat × List Byte) :=
  let vs := launchViews l
  ((l.reds.zip (List.range l.reds.length)).filter (·.1.auto)).map (fun e => (e.1.result, redBytes e.1 (smGet viewEmpty vs e.2)))

/-- The `AUTO` results, as engine writes (R393). [DEDUCED, assumption log 21] -/
def autoWrite (m : Mach) (l : Launch) : Mach :=
  (autoResults l).foldl (fun m e => (engineWrite m (vmeWho l.job) e.1 e.2).1) m

/-- The set-aside, the rings and the cells of a launch go (R191). -/
def releaseAside (m : Mach) (h : Nat) : Mach :=
  let dieOff (d : Die) : Die := { d with cells := d.cells.filter (fun c => c.launch != h), ways := smErase d.ways h }
  let coreOff (k : Core) : Core := { k with assign := k.assign.filter (fun a => a.1 != h), moving := k.moving.filter (fun a => a.1 != h), window := k.window.filter (fun w => w.launch != h) }
  let m : Mach := { m with dies := m.dies.map (fun e => (e.1, dieOff e.2)), cores := m.cores.map (fun e => (e.1, coreOff e.2)) }
  -- launches that wait for a set-aside try again, in the order they became ready
  ((m.launches.filter (fun e => !e.2.started && !e.2.done)).map (·.1)).foldl (fun m k => m.due (.launchStart k)) m

/-- Must the `AUTO` results of a launch wait: for the host, for another engine's command or for a way (R36, R196, R242)? The lines that the host holds. -/
def autoHeld (m : Mach) (l : Launch) : List Nat := heldLines m (vmeWho l.job) ((autoResults l).map (fun e => (e.1, e.2.length)))
def autoWaits (m : Mach) (l : Launch) : Bool :=
  !l.cancelled && (!(autoHeld m l).isEmpty || engineStops m (vmeWho l.job) ((autoResults l).map (fun e => (e.1, e.2.length))))

/-- A launch whose tasks have all ended writes its `AUTO` results, once their lines can be taken, and completes: the counters that it
holds up go down, its issuer's, at most n levels up, and its node's (R71, R75, R434). -/
def launchDone : Nat → Mach → Nat → Mach
  | 0, m, _ => m
  | n + 1, m, h =>
    match m.launch h with
    | none => m
    | some l =>
      if l.done then m
      else if autoWaits m l then ((snoopSide (autoHeld m l) m).modLaunch h (fun l => { l with counter := 0 })).due (.launchStart h)
      else
      let m := if l.cancelled then m else autoWrite m l
      let m := releaseAside (m.modLaunch h (fun l => { l with done := true, counter := 0 })) h
      let m :=
        match l.issuer with
        | none => m
        | some i =>
          match m.launch i with
          | some k =>
            let m := m.setLaunch i { k with counter := k.counter - 1 }
            if k.counter = 1 ∧ !k.done then launchDone n m i else m
          | none => m
      match l.node with
      | some nd => resolveNode m l.job nd (if l.cancelled then .notTaken else .taken none)
      | none => m

/-- The launch counter goes down (R75). -/
def decLaunch (m : Mach) (h : Nat) : Mach :=
  match m.launch h with
  | none => m
  | some l =>
    if l.done then m
    else
      let m := m.setLaunch h { l with counter := l.counter - 1 }
      if l.counter = 1 then launchDone 65536 m h else m

/-! ### The end of a crew -/

/-- Everything that ends with a task's crew: membership, cells, bindings, macros, held leave, its slots (R95, R107, R367, R421, R437). -/
def dropTask (m : Mach) (c : Crew) (fault : Bool) : Mach :=
  let m := memberStopAll m c.tid fault
  let m := endCells m c.launch c.tid c.cells
  let loads := c.loads.map (·.id)
  let m := m.modCore c.core (fun k =>
    { k with
      landing := match k.landing with | some b => if b.tid = c.tid then none else some b | none => none
      macros := k.macros.filter (fun e => e.2.tid != c.tid)
      mdata := k.mdata.filter (fun x => !loads.contains x.load) })
  let m := (leeWithdraw m c).dropCrew c.tid
  if c.slots.isEmpty then m else slotFreed m c.core

/-! ### Cancel (R76 to R78) -/

/-- Queued records of a launch go; eligible dataflow records give back their claims and pins (R76, R107). -/
def dropRecords (m : Mach) (h : Nat) : Mach :=
  let keep (l : List TaskRec) : List TaskRec := l.filter (fun r => r.launch != h)
  let elig := (m.dies.flatMap (fun e => e.2.queues.flatMap (·.2))).filter (fun r => r.launch == h && r.kind == .dataflow)
  let gone := (m.dies.flatMap (fun e => e.2.queues.flatMap (·.2))).filter (fun r => r.launch == h)
  let km (l : List (Nat × List TaskRec)) : List (Nat × List TaskRec) := l.filterMap (fun e => let k := keep e.2; if k.isEmpty then none else some (e.1, k))
  let dieOff (d : Die) : Die := (d.segOvf.map (·.1)).foldl segTidy { d with queues := km d.queues, pending := km d.pending }
  let coreOff (k : Core) : Core := (k.deque.filter (fun r => r.launch == h)).foldl (fun k r => dqTake k r.tid) k
  let m : Mach := { m with dies := m.dies.map (fun e => (e.1, dieOff e.2)), cores := m.cores.map (fun e => (e.1, coreOff e.2)) }
  let m := m.modLaunch h (fun l => { l with stages := l.stages.map (fun s => { s with items := [], borrowed := [] }) })
  let m := (m.dies.map (·.1)).foldl noteBest m
  let m := gone.foldl (fun m r => recordLeft m r.tid) m
  elig.foldl (fun m r => endCells m h r.tid (r.cells.map (fun w => w &&& 0xBFFFFFFF))) m

/-- Crews of a launch are removed: segments and eddies are discarded, no record is written (R76). -/
def dropCrews (m : Mach) (h : Nat) : Mach :=
  (m.crews.filter (fun c => c.launch == h && c.tid != 0)).foldl (fun m c =>
    match m.crew c.tid with
    | some c => dropTask m c true
    | none => m) m

/-- Contributions of a launch to collectives that have not completed go (R420). -/
def dropContribs (m : Mach) (h : Nat) : Mach :=
  let cut (x : Coll) : Coll := if x.ready then x else { x with parts := x.parts.filter (fun p => p.launch != h || p.src.isSome) }
  let keep (x : Coll) : Bool := x.ready || !x.parts.isEmpty || !x.coming.isEmpty
  { m with colls := (m.colls.map cut).filter keep }

/-- A launch and the live launches that its tasks have made, those made last first (R76, R434): a launch has a higher number than its issuer. -/
def launchesIn (m : Mach) (h : Nat) : List Nat :=
  m.launches.foldl (fun t e => if !e.2.done && e.2.issuer.any t.contains then e.1 :: t else t) [h]

/-- What is left of a launch that is cancelled goes: its records, its crews, its contributions (R76). -/
def cancelWork (m : Mach) (h : Nat) : Mach :=
  let m := m.modLaunch h (fun l => { l with cancelled := true, rootViews := [], traps := [] })
  dropCrews (dropRecords (dropContribs m h) h) h

/-- Cancel a launch, and with it every launch that its tasks have made (R76, R77, R434). [DEDUCED, assumption log 21] -/
def cancelLaunch (m : Mach) (h : Nat) : Mach :=
  match m.launch h with
  | none => m
  | some l =>
    if l.done then m
    else
      let all := launchesIn m h
      all.foldl (launchDone 65536) (all.foldl cancelWork m)

/-- The launches of a job that have not ended. -/
def liveLaunches (m : Mach) (job : Nat) : List Nat := (m.launches.filter (fun e => e.2.job == job && !e.2.done)).map (·.1)

/-- Cancel the current graph: every launch and every unresolved node (R77, R78). -/
def cancelGraph (m : Mach) (job : Nat) : Mach :=
  match m.job job with
  | none => m
  | some j =>
    if j.graphCtr = 0 then (liveLaunches m job).foldl cancelLaunch m
    else
      let j : Job := { j with graphCancelled := true, graphCtr := 0, states := j.states.map (fun s => if resolved s then s else .notTaken) }
      let m := m.setJob job j
      let m := (liveLaunches m job).foldl cancelLaunch m
      match m.job job with
      | some j => if j.phaseCtr = 2 then (m.setJob job { j with phaseCtr := 1 }).due (.phaseBoundary job) else m
      | none => m

/-- Cancel the current phase: its graph, then the steps of its boundary (R77). -/
def cancelPhase (m : Mach) (job : Nat) : Mach :=
  match m.job job with
  | none => m
  | some j => if j.phaseCtr = 0 then m else cancelGraph (m.setJob job { j with phaseCancelled := true }) job

/-- Unmap a job's pages: the replicas of its leaves are cleared, its root too, and its translations go (R77, R170). -/
def unmapJob (m : Mach) (job : Nat) : Mach :=
  let m := (clearLeaves m job).modJob job (fun j => { j with ptroot := 0, regions := [] })
  let cut (t : Tlb) : Tlb := { t with ents := t.ents.filter (fun e => e.job != job) }
  { m with cores := m.cores.map (fun e => (e.1, { e.2 with l1 := cut e.2.l1 })), dies := m.dies.map (fun e => (e.1, { e.2 with tlb := cut e.2.tlb })),
           shadow := m.shadow.filter (fun e => e.1 != job) }

/-- Has the job an engine operation whose stamp or completion has not come (R74, step 1)? -/
def enginesBusy (m : Mach) (job : Nat) : Bool :=
  m.dies.any (fun e => e.2.chans.any (fun ch => ch.2.queue.any (fun c => c.job == job))) ||
  m.cores.any (fun e => !e.2.gaths.isEmpty && e.2.gaths.any (fun g => match m.crew g.tid with | some c => c.job == job | none => false))

/-- The pages of a job that has ended are unmapped, once its engine operations have run to their end (R76, R77). -/
def closeJob (m : Mach) (job : Nat) : Mach := if enginesBusy m job then m.due (.phaseBoundary job) else unmapJob m job

/-- A job ends: its groups go with it (R365). -/
def endJob (m : Mach) (job kind : Nat) : Mach :=
  let m := notice m kind job
  let m := { m with groups := m.groups.filter (fun g => g.job != job) }
  closeJob (m.modJob job (fun j => { j with ended := true, counter := 0 })) job

/-- Cancel a job at its job counter: no further phase is performed (R77). -/
def cancelJob (m : Mach) (job : Nat) : Mach :=
  match m.job job with
  | none => m
  | some j =>
    if j.ended then m
    else
      let m := m.setJob job { j with cancelled := true, phaseCancelled := true }
      let m := cancelGraph m job
      endJob (m.modJob job (fun j => { j with phaseCtr := 0, graphCtr := 0 })) job 2

/-! ### Phases (R70, R74) -/

/-- Nodes of the job's largest graph: the `NODEH` words beyond them are never written (R70). -/
def mostNodes (j : Job) : Nat := j.phases.foldl (fun t p => max t p.nodes.length) 0

/-- Write the control page's header and clear every `NODEH` (R70). -/
def writeCtl (m : Mach) (j : Job) : Mach :=
  let hd := toBytes 8 j.handle ++ toBytes 8 j.phaseH ++ toBytes 8 j.graphH ++ toBytes 8 j.phaseNo ++ toBytes 2 j.id ++ toBytes 1 j.cls ++ List.replicate 29 0
  jobPut m j.id ctlPage (hd ++ List.replicate (8 * mostNodes j) 0)

/-- Start the next phase run of a job: fresh handles and counters, the control page, the ready nodes (R70, R71, R75). -/
def startPhase (m : Mach) (job : Nat) : Mach :=
  match m.job job with
  | none => m
  | some j =>
    let ph := phaseHandle j.id j.phaseNo
    let gh := ph + 1
    let n := (graphNodes j).length
    let j := { j with phaseH := ph, graphH := gh, phaseCtr := 2, graphCtr := n, graphCancelled := false, phaseCancelled := false,
                      states := List.replicate n .waiting, nodeH := [],
                      oldH := j.oldH ++ (if j.phaseH = 0 then [] else [j.phaseH, j.graphH]) }
    graphAdvance (writeCtl (m.setJob job j) j) job

/-- Does a registered master or view of the job hold part of a page (R188)? -/
def viewPage (m : Mach) (job va len : Nat) : Bool :=
  let meets (b n : Nat) : Bool := decide (b < va + len ∧ va < b + n)
  m.dies.any (fun e => e.2.masters.any (fun ms => ms.job == job &&
    (meets ms.base (ms.nblk * blockBytes ms) || ms.views.any (fun v => meets v.dbase (ms.nblk * vfBytes v.format) || (v.format != 4 && meets v.sbase (8 * ms.nblk))))))

/-- Drop the translations of a job that overlap a range on every core and die (R176). -/
def tlbDrop (m : Mach) (job lo hi : Nat) : Mach :=
  let cut (t : Tlb) : Tlb := { t with ents := t.ents.filter (fun e => !(e.job == job && decide (e.base < hi) && decide (lo < e.base + pageBytes e.n))) }
  { m with cores := m.cores.map (fun e => (e.1, { e.2 with l1 := cut e.2.l1 })), dies := m.dies.map (fun e => (e.1, { e.2 with tlb := cut e.2.tlb })) }

/-- The `RECONV` targets in a range of a job's address space that its crews have read are to be read again (R281, R432). -/
def reconvDrop (m : Mach) (job lo hi : Nat) : Mach :=
  let keep (e : Nat × Nat) : Bool := !(decide (e.2 < hi) && decide (lo < e.2 + 8))
  m.mapCrews (fun c => if c.job = job ∧ lo < hi then { c with reconvOk := c.reconvOk.filter keep } else c)

/-- Copy the committed contents of a page's bytes to another frame, with what the L2 and DRAM hold of its lines (R188). -/
def copyFrame (m : Mach) (src dst len : Nat) : Mach :=
  let inSrc (l : Nat) : Bool := decide (src / 128 ≤ l ∧ l < (src + len) / 128)
  let dstOf (l : Nat) : Nat := dst / 128 + (l - src / 128)
  let cells := m.mem.filter (fun e => decide (src ≤ e.1 ∧ e.1 < src + len))
  { m with mem := cells.foldl (fun l e => memSet l (dst + (e.1 - src)) e.2) (m.mem.filter (fun e => !decide (dst ≤ e.1 ∧ e.1 < dst + len))),
           lineKey := (m.lineKey.filter (fun e => inSrc e.1)).foldl (fun l e => smPut l (dstOf e.1) e.2) (m.lineKey.filter (fun e => !inSrc e.1)),
           dramKey := (m.dramKey.filter (fun e => inSrc e.1)).foldl (fun l e => smPut l (dstOf e.1) e.2) m.dramKey,
           dirtyL2 := m.dirtyL2.map (fun l => if inSrc l then dstOf l else l) }

/-- The open segments' lines, the armed monitors and the writes that wait at their homes go with their page (R188, R207). -/
def moveLines (m : Mach) (src dst len : Nat) : Mach :=
  let dstOf (l : Nat) : Nat := if src / 128 ≤ l ∧ l < (src + len) / 128 then dst / 128 + (l - src / 128) else l
  let m : Mach := { m with owed := m.owed.map (fun o => { o with pa := 128 * dstOf (o.pa / 128) + o.pa % 128 }) }
  m.mapCrews (fun c => { c with seg := c.seg.map (fun q => { q with pa := dstOf q.pa }), monitor := { c.monitor with line := dstOf c.monitor.line } })

/-- An engine command of a job holds translations (R176): a copy that has started, a gather. -/
def holdsTranslation (m : Mach) (job : Nat) : Bool :=
  m.dies.any (fun e => e.2.chans.any (fun ch => match ch.2.queue with | k :: _ => k.job == job && k.started | [] => false)) ||
  m.cores.any (fun e => e.2.gaths.any (fun g => match m.crew g.tid with | some c => c.job == job | none => false))

/-- The page whose base an address is (R189). -/
def pageBase (m : Mach) (job va : Nat) : Option (BitVec 128 × Nat) :=
  if 2 ^ 57 ≤ va then none
  else
    match walk m job va with
    | .ok (l, ea) => if va % pageBytes (lfSIZE l) = 0 then some (l, ea) else none
    | .error _ => none

/-- The lines of a page that the host may hold: its copies are recalled before the page moves (R36, R188). -/
def pageHeld (m : Mach) (job va : Nat) : List Nat :=
  match pageBase m job va with
  | some (l, _) => m.held.filter (fun n => decide (lfFrame l / 128 ≤ n ∧ n < (lfFrame l + pageBytes (lfSIZE l)) / 128))
  | none => []

/-- Move the home of a page of a job, and its frame when asked (R188, R189): none for a page that does not move. A page of the host aperture has no frame on a
die's stacks: its home alone moves. [DESIGN CHOICE, assumption log 6] -/
def migratePage (m : Mach) (job va die : Nat) (moveFrame : Bool) : Option Mach :=
  match pageBase m job va with
  | none => none
  | some (l, ea) =>
    let len := pageBytes (lfSIZE l)
    if lfHome l = die ∨ viewPage m job va len ∨ 8 ≤ die then none
    else
      let homed (x : Nat) : Nat := x - bits x 127 125 * 2 ^ 125 + die * 2 ^ 125
      if moveFrame && !isAperture (lfFrame l) then
        if 2 ^ 36 < len then none
        else
          match allocRun m die (len / 4096) with
          | none => none
          | some (f, m) =>
            let m := moveLines (copyFrame { m with frameHome := m.frameHome.filter (fun e => e.1 != lfFrame l / 4096) } (lfFrame l) f len) (lfFrame l) f len
            some (tlbDrop (setHome (putLeaf m ea (lfSIZE l) (fun x => homed (x - bits x 51 12 * 4096 + f))) f (len / 4096) die) job va (va + len))
      else some (tlbDrop (setHome (putLeaf m ea (lfSIZE l) homed) (lfFrame l) (len / 4096) die) job va (va + len))

/-- Lennas moves a page's home while the job runs: once the host has given back its copies, and the engines that hold lines or translations of it have
finished (R176, R188). [DESIGN CHOICE, assumption log 6] -/
def migrateOnline (m : Mach) (job va die : Nat) (moveFrame : Bool) : Mach :=
  let again (m : Mach) : Mach := m.due (.pageMigration job (w64 va) die moveFrame)
  let held := pageHeld m job va
  if !held.isEmpty then again (snoopSide held m)
  else if holdsTranslation m job || (heldRanges m).any (fun r => r.2.1 == job) then again m
  else (migratePage m job va die moveFrame).getD m

/-- The entries of a hint list (R189): none when it is malformed. -/
def hintList (m : Mach) (job addr : Nat) : Option (List (List Byte)) :=
  match jobRead m job 8 addr with
  | none => none
  | some cb =>
    let n := ofBytes cb
    if n = 0 ∨ 4096 < n then none
    else
      match jobRead m job (16 * n) (addr + 8) with
      | none => none
      | some l =>
        let es := (List.range n).map (fun i => slice l (16 * i) 16)
        if es.any (fun e => decide (16 ≤ fld e 8 1) || !zeros e 9 7) then none else some es

/-- The hint lists of a graph's launch nodes, in node order. -/
def hintAddrs (j : Job) : List Nat := ((graphNodes j).filter (fun nd => !nd.cond && nd.hints != 0)).map (·.hints)

/-- Apply one hint list (R189); an entry that is skipped is logged, a malformed list as entry 4 096. -/
def applyHints (m : Mach) (job addr : Nat) : Mach :=
  match hintList m job addr with
  | none => m.logged (.hint addr 4096)
  | some es =>
    (es.zip (List.range es.length)).foldl (fun m e =>
      match migratePage m job (fld e.1 0 8) (fld e.1 8 1 % 8) (bit (fld e.1 8 1) 3) with
      | some m => m
      | none => m.logged (.hint addr e.2)) m

/-- The lines that the hints of a graph move and the host may hold. -/
def hintHeld (m : Mach) (j : Job) : List Nat :=
  if m.held.isEmpty then []
  else (hintAddrs j).flatMap (fun a => ((hintList m j.id a).getD []).flatMap (fun e => pageHeld m j.id (fld e 0 8)))

/-- The serial numbers of a job start again: its shadow records are zeroed and its launch table is cleared (R209, R210). -/
def restartSerials (m : Mach) (job : Nat) : Mach :=
  match m.job job with
  | none => m
  | some j =>
    if j.nextLsn ≤ lsnMax then m
    else
      let m := shadowClear m job
      let cut (l : Launch) : Launch := if l.job = job then { l with lsn := 0, plsn := 0 } else l
      let m : Mach := { m with launches := m.launches.map (fun e => (e.1, cut e.2)) }
      m.modJob job (fun j => { j with nextLsn := 1 })

/-- The boundary of a phase (R74): hints, sync groups, and the next phase run or the job's end. [DEDUCED, assumption log 35] -/
def phaseBoundaryStep (m : Mach) (job : Nat) : Mach :=
  match m.job job with
  | none => m
  | some j =>
    if j.ended then closeJob m job
    else if j.phaseCtr ≠ 1 then m
    else if enginesBusy m job || !(liveLaunches m job).isEmpty then m.due (.phaseBoundary job)
    else
      let held := hintHeld m j
      if !held.isEmpty then (snoopSide held m).due (.phaseBoundary job)
      else
        let m := (hintAddrs j).foldl (fun m a => applyHints m job a) m
        let m := restartSerials (groupBoundary m job) job
        let rep := match j.phases[j.phase]? with | some p => p.repeats | none => 1
        let stay := rep = 0 ∨ j.runs + 1 < rep
        let m := m.modJob job (fun j => { j with phaseCtr := 0, counter := j.counter - 1, phaseNo := j.phaseNo + 1,
                                                 phase := if stay then j.phase else j.phase + 1, runs := if stay then j.runs + 1 else 0 })
        match m.job job with
        | some j => if j.phase < j.phases.length then startPhase m job else endJob m job 1
        | none => m

/-! ### Starting a launch (R109 to R112, R191, R388) -/

/-- Parse a reducer map: none when it is malformed (R388). -/
def redMap (m : Mach) (job addr : Nat) : Option (List RedEnt) :=
  match jobRead m job 64 addr with
  | none => none
  | some hd =>
    let n := fld hd 0 1
    if n = 0 ∨ 16 < n ∨ zeros hd 1 63 = false then none
    else
      match jobRead m job (32 * n) (addr + 64) with
      | none => none
      | some l =>
        let es := (List.range n).map (fun i => slice l (32 * i) 32)
        let bad (e : List Byte) : Bool :=
          let k := fld e 12 1 % 16
          let ne := fld e 8 4
          fld e 0 8 % 8 != 0 || ne == 0 || decide (2 ^ 24 < ne) || decide (9 < k) || decide (32 ≤ fld e 12 1) || !zeros e 14 18 ||
          (if k = 9 then fld e 13 1 == 0 || decide (64 < fld e 13 1) else fld e 13 1 != 0)
        if es.any bad then none
        else some (es.map (fun e => { result := fld e 0 8, nelem := fld e 8 4, kind := fld e 12 1 % 16, auto := bit (fld e 12 1) 4, reclen := fld e 13 1 }))

/-- A pipeline descriptor's header and stages (R109). -/
structure PipeDesc where
  pool    : Nat
  backoff : Nat
  govint  : Nat
  stages  : List Stage

/-- Parse a pipeline descriptor: none when it faults by itself (R110). -/
def pipeDesc (m : Mach) (job addr : Nat) : Option PipeDesc :=
  match jobRead m job 256 addr with
  | none => none
  | some b =>
    let n := fld b 0 1
    let bo := fld b 4 2
    let st (k : Nat) : List Byte := slice b (64 + 24 * k) 24
    let ring (e : List Byte) : Nat := if fld e 8 2 = 0 then 256 else fld e 8 2
    let badSt (e : List Byte) : Bool :=
      fld e 0 8 % 64 != 0 || !((List.range 9).any (fun i => ring e == 16 * 2 ^ i)) || fld e 10 1 == 0 || decide (100 < fld e 10 1) ||
      decide (fld e 10 1 ≤ fld e 11 1) || decide (7 < fld e 12 1) || fld e 13 1 != 0 || fld e 14 2 == 0 || decide (fld e 16 2 < fld e 14 2) || !zeros e 18 6
    let tot := (List.range n).foldl (fun t k => t + fld (st k) 14 2) 0
    let cores := ((List.range 320).filter (present m)).length
    if n = 0 ∨ 8 < n ∨ fld b 1 1 ≠ 0 ∨ 4096 < fld b 2 2 ∨ (bo ≠ 0 ∧ bo < 16) ∨ zeros b 8 56 = false ∨
       (List.range n).any (fun k => badSt (st k)) ∨ zeros b (64 + 24 * n) (24 * (8 - n)) = false ∨ cores < tot then none
    else
      some { pool := fld b 2 2, backoff := if bo = 0 then 256 else bo, govint := fld b 6 2,
             stages := (List.range n).map (fun k =>
               let e := st k
               { decl := fld e 0 8, ring := ring e, hi := fld e 10 1, lo := fld e 11 1, die := fld e 12 1, minc := fld e 14 2, maxc := fld e 16 2,
                 items := [], borrowed := [], expect := [] }) }

/-- Bytes of a launch's set-aside on a die: its cells, then its rings (R110, R191). The pool's slots stand with the first stage's ring: where the rings
lie on several dies no rule says which die holds them. [DESIGN CHOICE, assumption log 21] -/
def asideBytes (tile : Nat) (p : Option PipeDesc) (die : Nat) : Nat :=
  4096 * tile +
  match p with
  | none => 0
  | some d => 64 * (d.stages.foldl (fun t s => if s.die = die then t + s.ring else t) 0) +
      (match d.stages with | s :: _ => if s.die = die then 64 * d.pool else 0 | [] => 0)

/-- The lines of reserved ways of a die are written back and evicted, which fires the monitors on them (R191, R359). Which of the die's resident lines stand in
those ways is open: a free bit for each, but for the lines of open segments. [DESIGN CHOICE, assumption log 7] -/
def evictWays (m : Mach) (die : Nat) : Mach :=
  let spec := m.crews.flatMap (fun c => c.seg.map (·.pa))
  let here := (m.lineKey.map (·.1)).filter (fun l => homeOf m (128 * l) == die && !spec.contains l)
  ((here.zip (List.range here.length)).filter (fun e => (Config.freeWord (m.freeCtr + e.2)).getLsbD 0)).foldl (fun m e => fireMonitors (evictLine m e.1) e.1)
    { m with freeCtr := m.freeCtr + here.length }

/-- L2 ways of 16 MiB that hold the set-aside (R191). -/
def asideWays (tile : Nat) (p : Option PipeDesc) (die : Nat) : Nat := (asideBytes tile p die + 2 ^ 24 - 1) / 2 ^ 24

/-- Does the set-aside fit beside those of the launches that run (R191)? -/
def asideFits (m : Mach) (tile : Nat) (p : Option PipeDesc) : Bool :=
  (List.range 8).all (fun d => decide (asideWays tile p d + ((m.die d).ways.foldl (fun t e => t + e.2) 0) ≤ 4))

/-- A launch-start fault (R110): which of the checks failed is recorded in the log, the launch or the graph is cancelled, a faulted notice is queued. -/
def launchFault (m : Mach) (h cause : Nat) : Mach :=
  match m.launch h with
  | none => m
  | some l =>
    let m := cancelLaunch (m.logged (.launchFault h cause)) h
    let m := if l.node.isSome then cancelGraph m l.job else m
    notice m 3 l.job

/-- Root i of a launch as a record (R90). The root of a pipeline names the launch's own declaration, not the one of stage 0: R109 and R111 do not say
which. [DESIGN CHOICE, assumption log 21] -/
def rootRec (l : Launch) (j : Job) (d : Decl) (tid i : Nat) : TaskRec :=
  { tid := tid, parent := 0, ped := pedOfRoot i, decl := d.addr, arg := 0, launch := l.handle, aff := (l.affbase + i) % 65536,
    kind := if d.piped = 0 then .root else .stage, stage := 0, cls := j.cls, cells := [], rrk := 0, enq := 0 }

/-- Stage k takes the lowest-numbered present compute cores not yet assigned to the launch (R112). -/
def assignCores (m : Mach) (h : Nat) (sts : List Stage) : Mach :=
  ((sts.zip (List.range sts.length)).foldl (fun (acc : Mach × List Nat) e =>
    let take := acc.2.take e.1.minc
    (take.foldl (fun m c => m.modCore c (fun k => { k with assign := k.assign ++ [(h, e.2)] })) acc.1, acc.2.drop e.1.minc))
    (m, (List.range 320).filter (present m))).1

/-- May the next root of a launch enter: its segment, or ring 0 of a pipeline, has room (R93, R111, R113)? -/
def rootRoom (m : Mach) (l : Launch) (piped : Bool) (r : TaskRec) : Bool :=
  if piped then
    match l.stages with
    | s :: _ => decide (s.items.length - s.borrowed.length < s.ring) || decide (l.stages.foldl (fun t s => t + s.borrowed.length) 0 < l.pool)
    | [] => true
  else let (die, seg) := segOfAff m r.aff; decide (segCount (m.die die) seg < segCap)

/-- A root enters its queue segment, or ring 0 of a pipeline (R92, R111). -/
def rootIn (m : Mach) (l : Launch) (piped : Bool) (r : TaskRec) : Mach :=
  if piped then
    m.modLaunch l.handle (fun l =>
      { l with stages := match l.stages with
          | s :: t => { s with items := s.items ++ [r], borrowed := if s.items.length - s.borrowed.length < s.ring then s.borrowed else s.borrowed ++ [r.tid] } :: t
          | [] => [] })
  else let (die, seg) := segOfAff m r.aff; queueIn m die seg r

/-- Queue the roots of a launch that are not queued yet, in their order, while there is room (R92, R93, R111). [DEDUCED, assumption log 21] -/
def queueRoots (m : Mach) (h : Nat) : Mach :=
  match m.launch h with
  | none => m
  | some l0 =>
    (List.range l0.nroot).foldl (fun m i =>
      match m.launch h with
      | none => m
      | some l =>
        match m.job l.job, l.decl with
        | some j, some d =>
          let r := rootRec l j d m.nextTid i
          if i ≠ l.queued || !rootRoom m l (d.piped != 0) r then m
          else rootIn ({ m with nextTid := m.nextTid + 1 }.setLaunch h { l with queued := i + 1 }) l (d.piped != 0) r
        | _, _ => m) m

/-- The roots enter; a launch with roots that found no room goes on in the next cycle, its issuer stalled meanwhile (R93). -/
def queueOn (m : Mach) (h : Nat) : Mach :=
  let m := queueRoots m h
  match m.launch h with
  | some l => if l.queued < l.nroot then m.due (.launchStart h) else m
  | none => m

/-- Does a crew stall because roots of a launch that it has made have found no room (R93)? -/
def queueing (m : Mach) (tid : Nat) : Bool := m.launches.any (fun e => e.2.byTid == tid && e.2.started && !e.2.done && decide (e.2.queued < e.2.nroot))

/-- What a launch starts with, or which of the checks of R110 fails. -/
def launchPlan (m : Mach) (l : Launch) : Except Nat (Job × Decl × List RedEnt × Option PipeDesc) :=
  match m.job l.job with
  | none => .error 1
  | some j =>
    match j.decls.find? (fun d => d.addr == l.declAddr) with
    | none => .error 1
    | some d =>
      if d.hdlr then .error 1
      else
        match (if d.redmap = 0 then some [] else redMap m j.id d.redmap) with
        | none => .error 2
        | some reds =>
          match (if d.piped = 0 then some none else (pipeDesc m j.id d.piped).map some) with
          | none => .error 3
          | some p => if p.isSome && (List.range 8).any (fun die => decide (4 < asideWays l.tile p die)) then .error 3 else .ok (j, d, reds, p)

/-- Does a launch take a set-aside on some die? -/
def takesAside (tile : Nat) (p : Option PipeDesc) : Bool := (List.range 8).any (fun d => asideWays tile p d != 0)

/-- Does a launch that became ready earlier wait for its set-aside (R191)? -/
def asideBefore (m : Mach) (h : Nat) : Bool :=
  m.launches.any (fun e => decide (e.1 < h) && !e.2.started && !e.2.done &&
    (match launchPlan m e.2 with | .ok (_, _, _, p) => takesAside e.2.tile p | .error _ => false))

/-- Must a launch wait for its set-aside (R191)? -/
def asideWaits (m : Mach) (h tile : Nat) (p : Option PipeDesc) : Bool := takesAside tile p && (!asideFits m tile p || asideBefore m h)

/-- A launch starts, goes on queueing its roots, or completes once the lines of its `AUTO` results can be taken (R36, R70, R109 to R112, R191, R252, R388). -/
def launchStartStep (m : Mach) (h : Nat) : Mach :=
  match m.launch h with
  | none => m
  | some l =>
    if l.done then m
    else if l.started ∧ l.counter = 0 then launchDone 65536 m h
    else if l.started then queueOn m h
    else
      match launchPlan m l with
      | .error cause => launchFault m h cause
      | .ok (j, d, reds, p) =>
        if asideWaits m h l.tile p then m
        else
          let m := (List.range 8).foldl (fun m die =>
            let w := asideWays l.tile p die
            if w = 0 then m else evictWays (m.modDie die (fun x => { x with ways := smPut x.ways h w })) die) m
          let sts := match p with | some x => x.stages | none => []
          let l := { l with started := true, decl := some d, reds := reds, stages := sts,
                            pool := (match p with | some x => x.pool | none => 0), backoffC := (match p with | some x => x.backoff | none => 256),
                            govint := (match p with | some x => x.govint | none => 0), govAt := m.clk + 1024 * (match p with | some x => x.govint | none => 0) }
          let m := m.setLaunch h l
          let m := (mapReadOnly j.id 0 l.trapBase 128 m).getD m
          let m :=
            match l.node with
            | some n => jobPut (m.modJob j.id (fun j => { j with nodeH := smPut j.nodeH n l.hnd })) j.id (ctlPage + 64 + 8 * n) (toBytes 8 l.hnd)
            | none => m
          let m := queueOn (assignCores m h sts) h
          -- those that wait for a set-aside come next
          ((m.launches.filter (fun e => decide (h < e.1) && !e.2.started && !e.2.done)).map (·.1)).foldl (fun m k => m.due (.launchStart k)) m

/-- A condition node whose word could not be read in the cycle in which it became ready: it reads it now, or its fault cancels the graph (R72). [DEDUCED, assumption log 35] -/
def conditionRead (m : Mach) (job n : Nat) : Mach :=
  match m.job job with
  | none => m
  | some j =>
    match nodeAt j n with
    | none => m
    | some nd =>
      if !nd.cond then m
      else if nodeState j n = .failed then notice (cancelGraph m job) 3 job
      else if nodeState j n ≠ .running then m
      else graphAdvance (condNode m job n j nd) job

end Sys2Proof.Machine
end

