-- ==== Sys2Proof/Machine/Recover.lean ====
section
/-! DEFINITION. A job that a fault stops: containment, checkpoint, restore and restart (R32, R260). -/

namespace Sys2Proof.Machine

/-- The pages that the valid leaves below a table give, as (virtual address, frame, length). -/
def pagesFrom (m : Mach) : Nat → Nat → Nat → List (Nat × Nat × Nat)
  | level, va, tb =>
    (List.range (if level = 5 then 32 else 256)).flatMap (fun i =>
      let e := memNum m.mem (tb + 16 * i) 16
      let v := va + i * 2 ^ (12 + 8 * level)
      if !bit e 63 then []
      else if bit e 62 then
        if leafOk m level (BitVec.ofNat 128 e) then
          let n := pageBytes (lfSIZE (BitVec.ofNat 128 e))
          [(v / n * n, lfFrame (BitVec.ofNat 128 e), n)]
        else []
      else
        match level with
        | 0 => []
        | l + 1 => pagesFrom m l v (bits e 51 12 * 4096))

/-- The pages of a job outside the aperture. -/
def jobPages (m : Mach) (job : Nat) : List (Nat × Nat × Nat) := (pagesFrom m 5 0 (ptrootOf m job)).filter (fun f => !isAperture f.2.1)

/-- The bytes of a job's pages by virtual address: its checkpoint image. -/
def jobImage (m : Mach) (job : Nat) : List Host.Cell :=
  (jobPages m job).flatMap (fun f => (m.mem.filter (fun e => decide (f.2.1 ≤ e.1 ∧ e.1 < f.2.1 + f.2.2))).map (fun e => (f.1 + (e.1 - f.2.1), e.2)))

/-- A checkpoint is taken at a phase boundary of a job whose policy asks for one: it stays in this module's memory, or goes to a peer's (R32, R61). [DEDUCED, assumption log 12; DEDUCED, assumption log 35] -/
def checkpoint (m : Mach) (job : Nat) : Mach :=
  match m.job job with
  | some j =>
    if j.ckpt = 0 ∨ j.ended then m
    else if j.ckpt = 2 then m.send (.checkpoint job (jobImage m job))
    else m.setJob job { j with image := jobImage m job }
  | none => m

/-- The boundary of a phase, with the checkpoint of the job as the next phase starts from it. [DEDUCED, assumption log 35] -/
def boundaryStep (m : Mach) (job : Nat) : Mach :=
  let n (m : Mach) : Nat := match m.job job with | some j => j.phaseNo | none => 0
  let m' := phaseBoundaryStep m job
  if n m' = n m then m' else checkpoint m' job

/-- Put the image's bytes back into one page. -/
def restorePage (img : List Host.Cell) (l : List Host.Cell) (f : Nat × Nat × Nat) : List Host.Cell :=
  let rest := l.filter (fun e => !decide (f.2.1 ≤ e.1 ∧ e.1 < f.2.1 + f.2.2))
  (img.filter (fun e => decide (f.1 ≤ e.1 ∧ e.1 < f.1 + f.2.2))).foldl (fun l e => memSet l (f.2.1 + (e.1 - f.1)) e.2) rest

/-- Modules with a connection of a VFT domain. -/
def domPeers (m : Mach) (dom : Nat) : List Nat :=
  (m.net.conns.filter (fun c => c.domain == dom)).foldl (fun l c => if l.contains c.dst then l else l ++ [c.dst]) []

/-- A fault notice goes to every module of the job's domain that is connected, unless one has already come from there. [DEDUCED, assumption log 33] -/
def faultSpread (m : Mach) (j : Job) : Mach :=
  match j.domain with
  | none => m
  | some d => if m.net.fenced.contains d then m else (domPeers m d).foldl (fun m p => (vftSend m d p j.cls 0 7 flLast 0 []).1) m

/-- Containment (R32): the job is cancelled at its job counter; with a checkpoint it waits to be restored, without one it ends and a faulted
notice is queued (R260). -/
def jobFault (m : Mach) (job : Nat) : Mach :=
  match m.job job with
  | none => m
  | some j =>
    if j.ended ∨ j.recovery ≠ 0 then m
    else
      let m := faultSpread m j
      if j.ckpt = 0 then notice (cancelJob m job) 3 job
      else
        let m := m.setJob job { j with phaseCtr := 0, phaseCancelled := true }
        (cancelGraph m job).modJob job (fun j => { j with graphCtr := 0, recovery := 1 })

/-- A connection of a domain to a module that is down is bound to the spare, where it starts anew; none when one to the spare stands already, or no port
is up. -/
def rebindConn (m : Mach) (spare : Nat) (c : Conn) : Option Conn :=
  if (m.conn (connIs c.domain spare c.cls c.chan)).isSome then none
  else
    (pinPort m.net.ports [c.domain, c.src, spare, c.cls, c.chan]).map (fun p =>
      { c with dst := spare, port := p, psn := 0, rpsn := 0, credit := winFrames, unacked := [], sent := 0, retries := 0, since := m.clk, down := false })

/-- The spare takes the job over: the job's VFT domain is rebound, its connections to modules that are down leading to the spare (R32). -/
def jobRemap (m : Mach) (job spare : Nat) : Mach :=
  match m.job job with
  | none => m
  | some j =>
    if j.recovery = 1 ∧ j.ckpt = 2 then
      let m := m.setJob job { j with recovery := 2, spare := spare }
      { m with net := { m.net with conns := m.net.conns.filterMap (fun c => if c.down && some c.domain == j.domain then rebindConn m spare c else some c) } }
    else m

/-- The spare has pulled a job's checkpoint image from peer memory (R32). [DEDUCED, assumption log 12] -/
def imagePulled (m : Mach) (job : Nat) (image : List Host.Cell) : Mach :=
  match m.job job with
  | none => m
  | some j => if j.recovery = 2 then m.setJob job { j with recovery := 3, image := image } else m

/-- The checkpoint image is put back: the one that has been pulled after the remap, or with a local policy the module's own, at once.
[DEDUCED, assumption log 12] -/
def jobRestore (m : Mach) (job : Nat) : Mach :=
  match m.job job with
  | none => m
  | some j =>
    if j.recovery = 3 ∨ (j.recovery = 1 ∧ j.ckpt = 1) then
      Mach.setJob { m with mem := (jobPages m job).foldl (restorePage j.image) m.mem } job { j with recovery := 4 }
    else m

/-- The job restarts at the checkpoint's phase boundary; a resumed notice tells its submitter (R58). -/
def jobRestart (m : Mach) (job : Nat) : Mach :=
  match m.job job with
  | none => m
  | some j =>
    let unfence (m : Mach) : Mach := { m with net := { m.net with fenced := m.net.fenced.filter (fun d => some d != j.domain) } }
    if j.recovery = 4 then notice (startPhase (groupBoundary ((unfence m).setJob job { j with recovery := 0 }) job) job) 4 job
    else m

end Sys2Proof.Machine
end

