-- ==== Sys2Proof/Machine/Ops.lean ====
section
/-! DEFINITION. Switching a crew out and taking a trap: the one operation through which every trap goes (R248 to R263). -/

namespace Sys2Proof.Machine

/-! ### Switching out (R262, R263) -/

/-- Must a crew that has been stopped keep its slots: for the completion of an aperture access or for a matrix step (R262, steps 3 and 4)? -/
def outWaits (m : Mach) (c : Crew) : Bool := c.ap.isSome || hasSteps m c.core c.tid

/-- A stopped crew as it stands while it leaves: its stall, its request, its held units and its place at a view are given up (R262, R263). -/
def stopped (c : Crew) : Crew := { c with leaving := true, stall := none, pre := none, leeHeld := 0, viewWait := [] }

/-- A crew that has left its slots: its results have drained and its batches have retired (R262, R406). -/
def left (clk : Nat) (c : Crew) : Crew :=
  settle clk { c with slots := [], leaving := false, openB := none, closedB := [], pend := if c.chk then c.pend else [] }

/-- A crew is switched out: it stops, its lee request is withdrawn, its results drain, its matrix steps retire, and its slots are freed; its segment,
eddies, handles and wait stay (R262). A crew whose results or steps have to wait leaves its slots in a later cycle. -/
def switchOut (m : Mach) (tid : Nat) : Mach :=
  match m.crew tid with
  | none => m
  | some c =>
    if c.slots.isEmpty then m
    else
      let m := (seqDrain c.core tid ((m.core c.core).seqq.length + 1) (leeWithdraw m c)).modCrew tid stopped
      match m.crew tid with
      | none => m
      | some c =>
        if outWaits m c then m
        else (slotFreed (m.setCrew (left m.clk c)) c.core).modCrew tid (fun k => { k with preBy := c.preBy, resumable := k.resumable && c.preBy.isNone })

/-- The crews that have been stopped and have not left their slots try again (R262). -/
def leaveAll (m : Mach) : Mach := ((m.crews.filter (·.leaving)).map (·.tid)).foldl switchOut m

/-- A pre-empted crew is switched out for the record that asked (R80, R126). -/
def preemptOut (m : Mach) (tid : Nat) : Mach :=
  match m.crew tid with
  | none => m
  | some c =>
    match c.pre with
    | none => m
    | some p => (switchOut m tid).modCrew tid (fun c => { c with preBy := some p, resumable := false })

/-! ### The record (R251) -/

/-- Is an engine or matrix operation of the crew outstanding (R251)? -/
def engBusy (m : Mach) (c : Crew) : Bool :=
  m.dies.any (fun e => e.2.chans.any (fun ch => ch.2.queue.any (fun k => k.tid == c.tid))) ||
  (m.core c.core).gaths.any (fun g => g.tid == c.tid) ||
  c.tickets.any (fun t => t.status.isNone) ||
  (m.core c.core).seqq.any (fun o => match o with | .load t _ _ _ => t == c.tid | .step t _ _ _ _ _ _ => t == c.tid)

/-- Does the trap of a code go to Lennas (R253, R260)? -/
def systemCode (code : Nat) : Bool := code == 0x30 || code == 0x40 || code == 0x51

/-- `PREC` (R248): imprecise with HARD or ENG, else task-precise when it was detected late. -/
def precOf (hard eng late : Bool) : Nat := if hard || eng then 2 else if late then 1 else 0

/-- The 128 bytes of a trap record. -/
def trapRecord (m : Mach) (c : Crew) (e : Exc) (dest : Bool) (seq : Nat) : List Byte :=
  let sys := systemCode e.code
  let hard := !sys && c.hardened
  let eng := engBusy m c
  let flags := precOf hard eng e.late + 4 * b2n hard + 8 * b2n e.lane.isSome + 16 * b2n dest + 32 * b2n eng + 64 * b2n e.commit
  let stop := if e.late then (issueAddr c).getD e.pc else e.pc
  toBytes 1 e.code ++ toBytes 1 flags ++ toBytes 1 (e.lane.getD 0) ++ toBytes 1 0 ++ toBytes 4 seq ++
  toBytes 4 (if sys then 0 else c.seg.length + c.keyDrop) ++ toBytes 4 0 ++ toBytes 8 e.pc.toNat ++ toBytes 8 stop.toNat ++
  toBytes 8 (pdig c.ped).toNat ++ toBytes 8 c.hnd ++ toBytes 8 e.info0.toNat ++ toBytes 8 e.info1.toNat ++
  toBytes 8 e.info2.toNat ++ toBytes 8 e.info3.toNat ++ toBytes 8 m.clk ++ List.replicate 40 0

/-- Where Lennas's log of a die stands in its own address space (DESIGN CHOICE, assumption log 6). -/
def logBase (die : Nat) : Nat := 0x1FD000000000000 + die * 2 ^ 36

/-- Wake the halted control cores of a die, or note the wake for one that does not halt (R438). -/
def wakeCore (m : Mach) (core : Nat) : Mach :=
  let hit (c : Crew) : Bool := c.core == core && c.status == .halted
  if m.crews.any hit then
    m.mapCrews (fun c => if hit c then { c with status := .ready, stamp := m.clk } else c)
  else m.modCore core (fun k => { k with pendWake := true })

def wakeDie (m : Mach) (die : Nat) : Mach := wakeCore (wakeCore m (320 + 2 * die)) (321 + 2 * die)

/-- A record enters the Lennas log of a die, which wakes its control cores (R252, R438). -/
def logRecord (m : Mach) (die tid : Nat) (rec : List Byte) : Mach :=
  wakeDie (m.modDie die (fun d => { d with log := d.log ++ [{ tid := tid, record := rec, answered := false }] })) die

/-- Take the next record sequence number of a launch. -/
def nextSeq (m : Mach) (launch : Nat) : Nat × Mach :=
  match m.launch launch with
  | some l => (l.trapSeq, m.setLaunch launch { l with trapSeq := l.trapSeq + 1 })
  | none => (0, m)

/-! ### Taking a trap -/

/-- The lowest free entry of a launch's trap area (R252). -/
def freeEntry (l : Launch) : Option Nat := (List.range 4096).find? (fun i => !l.traps.any (fun t => t.idx == i))

/-- The handler declaration of a launch, when it names a usable one (R256, R259). -/
def handlerOf (m : Mach) (l : Launch) : Option Decl :=
  match m.job l.job, l.decl with
  | some j, some d => if d.hdecl = 0 then none else j.decls.find? (fun x => x.addr == d.hdecl && x.hdlr)
  | _, _ => none

/-- The crew with its segment discarded (R206, R249). -/
def discard (c : Crew) : Crew := { c with seg := [], hardened := false, keyDrop := 0, late := none, stall := none, pre := none, preBy := none, resumable := false }

/-- A system trap (R260): the record goes to the Lennas log and the crew is switched out with everything kept; YIELDFORCED is counted for the job (R80). -/
def takeSystem (m : Mach) (c : Crew) (e : Exc) : Mach :=
  let (seq, m) := nextSeq m c.launch
  let die := dieOf c.core
  let addr := logBase die + 128 * (m.die die).log.length
  let m := logRecord m die c.tid (trapRecord m c e true seq)
  if e.code = 0x40 then preemptOut ((m.modJob c.job (fun j => { j with yieldForced := j.yieldForced + 1 })).setCrew { c with stall := none }) c.tid
  else if e.code = 0x51 then switchOut (m.setCrew { c with status := .trapped addr, stall := none, late := none }) c.tid
  else jobFault (switchOut (m.setCrew { c with status := .trapped addr, stall := none, late := none }) c.tid) c.job

/-- A program-level trap that finds no handler (R259): the record goes to the Lennas log, the launch is cancelled, a faulted notice is queued. -/
def takeUnhandled (m : Mach) (c : Crew) (e : Exc) : Mach :=
  let (seq, m) := nextSeq m c.launch
  let die := dieOf c.core
  let addr := logBase die + 128 * (m.die die).log.length
  let m := logRecord m die c.tid (trapRecord m c e true seq)
  let m := m.setCrew { discard c with status := .trapped addr }
  match m.launch c.launch with
  | none => switchOut m c.tid
  | some _ => notice (cancelLaunch m c.launch) 3 c.job

/-- A program-level trap with its handler (R256): steps 1 to 3. -/
def takeHandled (m : Mach) (c : Crew) (e : Exc) (l : Launch) (d : Decl) (idx : Nat) : Mach :=
  let addr := l.trapBase + 128 * idx
  let bytes := trapRecord m c e false l.trapSeq
  let t := m.nextTid
  let m := { m with nextTid := t + 1 }
  let m := m.setLaunch l.handle { l with trapSeq := l.trapSeq + 1, counter := l.counter + 1,
                                         traps := l.traps ++ [{ idx := idx, tid := c.tid, handler := t, answered := false }] }
  let m := m.setCrew { discard c with status := .trapped addr }
  let m := if e.code = 0x50 then m else memberStopAll m c.tid true
  let m := jobPut (switchOut m c.tid) c.job addr bytes
  let cls := match m.job c.job with | some j => j.cls | none => c.cls
  let r : TaskRec :=
    { tid := t, parent := 0, ped := pedOfHandler (pedRoot c.ped), decl := d.addr, arg := w64 addr, launch := l.handle, aff := d.aff,
      kind := .root, stage := 0, cls := cls, cells := [], rrk := 0, enq := m.clk }
  dequeIn m c.core r

/-- Taking a trap: every trap of a crew goes through here (R248 to R261). `m` is the state in which the instruction has had no effect, or for a
trap detected late the state at the boundary. -/
def takeTrap (m : Mach) (tid : Nat) (e : Exc) : Mach :=
  match m.crew tid with
  | none => m
  | some c =>
    if systemCode e.code then takeSystem m c e
    else
      match m.launch c.launch with
      | none => takeUnhandled m c e
      | some l =>
        match handlerOf m l, freeEntry l with
        | some d, some idx => if pedH c.ped then takeUnhandled m c e else takeHandled m c e l d idx
        | _, _ => takeUnhandled m c e

/-! ### The return from a trap (R257, R427); END is `endTrapped` -/

/-- The record that an `eret` names: the trapped task and the record's bytes. -/
structure RecRef where
  tid   : Nat
  bytes : List Byte

/-- The die and the place of the Lennas record that an address names. -/
def logAt (m : Mach) (a : Nat) : Option (Nat × Nat) :=
  (List.range 8).findSome? (fun d =>
    if logBase d ≤ a ∧ (a - logBase d) % 128 = 0 ∧ (a - logBase d) / 128 < (m.die d).log.length then some (d, (a - logBase d) / 128) else none)

/-- The record at an address, when it is in use, unanswered and the caller's to answer: its own launch's, or on a control core one of its die's
Lennas log (R252, R427). -/
def findRecord (m : Mach) (c : Crew) (a : Nat) : Option RecRef :=
  match logAt m a with
  | some (d, i) =>
    if isControl c.core = false ∨ d ≠ dieOf c.core then none
    else
      match (m.die d).log[i]? with
      | some x => if x.answered || (m.crew x.tid).isNone then none else some { tid := x.tid, bytes := x.record }
      | none => none
  | none =>
    match m.launch c.launch with
    | none => none
    | some l =>
      match l.traps.find? (fun t => l.trapBase + 128 * t.idx == a && !t.answered) with
      | some t => (jobRead m c.job 128 a).map (fun b => { tid := t.tid, bytes := b })
      | none => none

/-- Mark the record answered. -/
def markAnswered (m : Mach) (c : Crew) (a : Nat) : Mach :=
  match logAt m a with
  | some (d, i) => m.modDie d (fun d => { d with log := (d.log.zip (List.range d.log.length)).map (fun e => if e.2 = i then { e.1 with answered := true } else e.1) })
  | none => m.modLaunch c.launch (fun l => { l with traps := l.traps.map (fun t => if l.trapBase + 128 * t.idx = a then { t with answered := true } else t) })

/-- Fields of a record (R251). -/
def recPrec (b : List Byte) : Nat := fld b 1 1 % 4
def recLost (b : List Byte) : Nat := fld b 8 4
def recPc (b : List Byte) : Nat := fld b 16 8
def recStop (b : List Byte) : Nat := fld b 24 8

/-- The action an `eret` takes: one that would lose stores acts as END (R257, R427). -/
def eretAction (mode : Nat) (b : List Byte) : Nat := if mode < 2 ∧ recLost b ≠ 0 then 2 else mode

/-- Bytes of the instruction at an address of a job, by its `W` bit (R267). -/
def instrLen (m : Mach) (job pc : Nat) : Nat :=
  match jobRead m job 8 pc with
  | some b => if bit (ofBytes b) 63 then 16 else 8
  | none => 8

/-- RETRY or NEXT: the trapped crew becomes resumable; NEXT moves the lanes that were Active at the instruction past it, and leaves what parts of it have
not acted (R257). -/
def resumeTrapped (m : Mach) (r : RecRef) (next : Bool) : Mach :=
  let skip := next && (recPrec r.bytes == 0 || (recPrec r.bytes == 2 && recStop r.bytes == recPc r.bytes))
  m.modCrew r.tid (fun c =>
    match c.status with
    | .trapped _ =>
      let c := if skip then { setPcs c (activeLanes c) (w64 (recPc r.bytes + instrLen m c.job (recPc r.bytes))) with placed := 0 } else c
      settle m.clk { c with status := .ready, viewWait := [] }
    | _ => c)
end Sys2Proof.Machine
end

