-- ==== Sys2Proof/Machine/Boot.lean ====
section
/-! DEFINITION. Boot, measurements, the capability table and the SPDM responder (R17 to R27, R408). -/

namespace Sys2Proof.Machine

/-! ### The capability table (R22, R23, R25, R26) -/

/-- The value of the first entry of a type among n entries. -/
def capFind (ty : Nat) : Nat → List Byte → Option (List Byte)
  | 0, _ => none
  | n + 1, l =>
    let len := fld l 2 2
    if fld l 0 2 = ty then some (slice l 4 len) else capFind ty n (l.drop ((len + 11) / 8 * 8))

/-- An entry of the table as ROM holds it. -/
def romEntry (ty : Nat) : Option (List Byte) := capFind ty (fld capTable 6 2) (capTable.drop 32)

/-- Units of n that a presence mask at bit o of the presence entry leaves out (R23, R27). -/
def unitsOff (o n : Nat) : List Nat :=
  match romEntry 3 with
  | some v => (List.range n).filter (fun i => !bit (ofBytes v) (o + i))
  | none => []

/-- Ports that are not fused off. -/
def portsPresent : List Nat := let off := unitsOff 608 16; (List.range 16).filter (fun p => !off.contains p)

/-- Does a value have the layout that its record's type gives it (R25)? A slow unit names an opcode's architectural latency, and takes longer. -/
def errataOk (ty : Nat) (v : List Byte) : Bool :=
  match ty with
  | 0x8001 => v.length == 6 && fld v 4 1 == latency (fld v 3 1) && decide (fld v 4 1 < fld v 5 1)
  | 0x8002 => v.length == 4
  | 0x8003 => v.length == 4
  | _ => decide (0x8000 ≤ ty ∧ ty ≤ 0x80FF ∧ v.length < 65536)

/-- An errata record is added beyond `LEN`, then `LEN` and `NENT` are released; one that would overrun the region is not made, and Lennas's log
records it (R26). -/
def errataAppend (m : Mach) (ty : Nat) (v : List Byte) : Mach :=
  let len := memNum m.mem 8 4
  let size := (v.length + 11) / 8 * 8
  if !errataOk ty v then m
  else if 65536 < len + size then m.logged (.overrun ty)
  else
    let e := toBytes 2 ty ++ toBytes 2 v.length ++ v
    let m := plainRun m len (e ++ List.replicate (size - e.length) 0)
    plainRun (plainRun m 8 (toBytes 4 (len + size))) 6 (toBytes 2 (memNum m.mem 6 2 + 1))

/-- Address of the die-link mask of the presence entry among n entries from an offset. -/
def maskPlace : Nat → List Byte → Nat → Option Nat
  | 0, _, _ => none
  | n + 1, l, o =>
    let k := (fld l 2 2 + 11) / 8 * 8
    if fld l 0 2 = 3 then some (o + 4 + 78) else maskPlace n (l.drop k) (o + k)

/-- Repair of a die link is exhausted: its bit of the presence entry is clear (R43). [DEDUCED, assumption log 32] -/
def linkNarrow (m : Mach) (d : Nat) : Mach :=
  let m := m.modDie d (fun x => { x with linkFull := false })
  match maskPlace (memNum m.mem 6 2) (memRead m.mem 32 (min (memNum m.mem 8 4) 65536 - 32)) 32 with
  | some a => plainRun m a (toBytes 1 (memNum m.mem a 1 &&& (255 - 2 ^ (d % 8))))
  | none => m

/-! ### Boot (R17 to R21) -/

/-- The step that sets `ERR` stops the boot; the endpoint raises vector 2 (R21, R63). -/
def bootFail (s : State) (code : Nat) : State := { s with boot := { s.boot with err := code }, m := raiseMsix s.m 2 }

/-- What a module reset leaves: everything at reset but what stands in DRAM. A line written and not cleaned is lost with the L2 (DESIGN CHOICE,
assumption log 3); what DRAM holds enciphered stays so, and its keys are gone (R55). -/
def moduleReset (s : State) : State :=
  let dram := s.m.lineKey.foldl (fun l e => if s.m.dirtyL2.contains e.1 then smPut l e.1 Dram.lost else l) s.m.dramKey
  { State.reset with
    m := { Mach.reset with
           agenda := s.m.agenda, freeCtr := s.m.freeCtr, mem := s.m.mem, dramKey := dram, outbox := s.m.outbox
           net := { Mach.reset.net with modIdx := s.m.net.modIdx } } }

/-- Where the boot ROM loads the boot loader image. [DESIGN CHOICE, assumption log 32] -/
def loaderBase : Nat := 0x10000

/-- Steps 4 and 5: the loader image is measured and loaded and core 320 is released to it, which measures Lennas and its configuration and
releases the control cores into Lennas (R17). -/
def bootLoad (s : State) : State :=
  let b := s.boot
  let put (l : List (Nat × List Byte)) (k : Nat) (img : List Byte) : List (Nat × List Byte) := smPut l k (sha384 img)
  { s with boot := { b with romdone := true, stage := 5,
                            meas := put (put (put b.meas 2 Config.bootLoaderImage) 3 Config.lennasImage) 4 Config.lennasConfig }
           m := { plainRun s.m loaderBase Config.bootLoaderImage with released := 2 } }

/-- The values of a die's slice-hash entry that are not the hash value itself (R23, R27). -/
def sliceMapOf (v : List Byte) : List (Nat × Nat) :=
  (List.range 256).filterMap (fun k => if fld v k 1 = k % 32 then none else some (k, fld v k 1 % 32))

/-- Step 2: the capability table goes to physical 0 and is measured; its presence and slice-hash entries say which units there are (R17, R19, R27).
[DEDUCED, assumption log 32] -/
def bootTable (s : State) : State :=
  { s with boot := { s.boot with meas := smPut s.boot.meas 1 (sha384 capTable) }
           m := { plainRun s.m 0 capTable with coresOff := unitsOff 0 320, stacksOff := unitsOff 592 16,
                                                sliceMap := sliceMapOf ((romEntry 8).getD []) } }

/-- The boot flow up to the release into Lennas: core 320 runs the boot ROM while every other core is in reset (R17). -/
def bootRom (s : State) : State :=
  let s := bootTable { s with boot := { s.boot with stage := 1 }, m := { s.m with released := 1 } }
  if !capSignatureOk then bootFail s 3
  else if !Config.flashOk then bootFail { s with boot := { s.boot with stage := 2 } } 4
  else bootLoad { s with boot := { s.boot with stage := 3 } }

/-- Step 6: Lennas has trained the links, appends the errata and lets the mailbox accept jobs (R17); the compute cores leave reset then.
[DESIGN CHOICE, assumption log 32] -/
def bootTrain (s : State) (ok : Bool) (errata : List (Nat × List Byte)) : State :=
  if s.boot.stage ≠ 5 ∨ s.boot.err ≠ 0 then s
  else if !ok then bootFail s 5
  else
    let m := errata.foldl (fun m e => errataAppend m e.1 e.2) s.m
    { s with boot := { s.boot with stage := 6, ready := true }, m := raiseMsix { m with net := { m.net with ports := portsPresent, modIdx := Config.modIndexes }, released := 3 } 2 }

/-- A measurement slot as it stands: none while its boot step has not written it (R19, R20). [DEDUCED, assumption log 32] -/
def measOf (b : Boot) (n : Nat) : Option (List Byte) :=
  if n = 0 then some romDigest
  else if 5 ≤ n ∧ n < 8 then some ((smFind b.meas n).getD (List.replicate 48 0))
  else smFind b.meas n

/-- Lennas extends a slot from 5 to 7. [DEDUCED, assumption log 32] -/
def measExtend (s : State) (slot : Nat) (digest : List Byte) : State :=
  if slot < 5 ∨ 7 < slot ∨ s.boot.stage < 5 ∨ digest.length ≠ 48 then s
  else { s with boot := { s.boot with meas := smPut s.boot.meas slot (sha384 ((measOf s.boot slot).getD [] ++ digest)) } }

/-! ### SPDM 1.3 (R20; message layouts are PRESUMED, assumption log 5) -/

inductive SpdmReq where
  | version
  | capabilities
  | algorithms (hash asym : Nat)
  | digests
  | certificate (slot off len : Nat)
  | challenge (slot : Nat) (nonce : List Byte)
  | measurements (index : Nat) (nonce : List Byte)

def spdmHead (code p1 p2 : Nat) : List Byte := [0x13] ++ toBytes 1 code ++ toBytes 1 p1 ++ toBytes 1 p2
def spdmError (code : Nat) : List Byte := spdmHead 0x7F code 0
/-- The responder's nonce: 32 free bytes. -/
def spdmNonce (m : Mach) : List Byte := (List.range 4).flatMap (fun i => toBytes 8 (Config.freeWord (m.freeCtr + i)).toNat)
/-- A response with its signature. -/
def signed (l : List Byte) : List Byte := l ++ deviceSign l

/-- The certificate chain that ROM holds: it reports the part key's digest (R20, R24). -/
def certChain : List Byte := Config.certHead ++ partKeyDigest ++ Config.certTail

/-- A measurement block: index n + 1 reports slot n. -/
def measBlock (n : Nat) (v : List Byte) : List Byte :=
  toBytes 1 (n + 1) ++ [1] ++ toBytes 2 (v.length + 3) ++ [0] ++ toBytes 2 v.length ++ v

/-- The blocks that a request names: none when a slot has not been written. -/
def measBlocks (b : Boot) : List Nat → Option (List Byte)
  | [] => some []
  | n :: t =>
    match measOf b n, measBlocks b t with
    | some v, some l => some (measBlock n v ++ l)
    | _, _ => none

/-- The response to a request; a request before boot step 2 has completed has none. [PRESUMED, assumption log 5] -/
def spdmAnswer (s : State) (q : SpdmReq) : Option (List Byte) :=
  let chain := certChain
  if s.boot.stage < 2 then none
  else
    some (match q with
      | .version => [0x10, 0x04, 0, 0, 0, 1] ++ toBytes 2 0x1300
      | .capabilities => spdmHead 0x61 0 0 ++ [0, 0, 0, 0] ++ toBytes 4 0x16 ++ Config.spdmCapabilities
      | .algorithms h a =>
        spdmHead 0x63 0 0 ++ toBytes 2 36 ++ [1, 0] ++ toBytes 4 4 ++ toBytes 4 (a &&& 0x80) ++ toBytes 4 (h &&& 2) ++ List.replicate 16 0
      | .digests => spdmHead 0x01 0 1 ++ sha384 chain
      | .certificate slot off len =>
        if slot ≠ 0 ∨ chain.length < off then spdmError 1
        else
          let part := (chain.drop off).take len
          spdmHead 0x02 slot 0 ++ toBytes 2 part.length ++ toBytes 2 (chain.length - off - part.length) ++ part
      | .challenge slot nonce =>
        if slot ≠ 0 then spdmError 1
        else signed (spdmHead 0x03 slot 1 ++ sha384 chain ++ spdmNonce s.m ++ nonce ++ [0, 0])
      | .measurements index nonce =>
        if index = 0 then spdmHead 0x60 8 0 ++ [0, 0, 0, 0] ++ spdmNonce s.m ++ [0, 0]
        else
          match (if index = 255 then some (List.range 8) else if index ≤ 8 then some [index - 1] else none) with
          | none => spdmError 1
          | some l =>
            match measBlocks s.boot l with
            | none => spdmError 3
            | some bs => signed (spdmHead 0x60 0 0 ++ toBytes 1 l.length ++ toBytes 3 bs.length ++ bs ++ spdmNonce s.m ++ nonce ++ [0, 0]))

/-- A request over the DOE mailbox. -/
def spdmDoe (s : State) (q : SpdmReq) : State :=
  match spdmAnswer s q with
  | none => s
  | some b => { s with m := { s.m with freeCtr := s.m.freeCtr + 4 }.send (.spdm b) }

/-- The request that a message carries. -/
def spdmParse (b : List Byte) : Option SpdmReq :=
  match fld b 1 1 with
  | 0x84 => some .version
  | 0xE1 => some .capabilities
  | 0xE3 => some (.algorithms (fld b 12 4) (fld b 8 4))
  | 0x81 => some .digests
  | 0x82 => some (.certificate (fld b 2 1) (fld b 4 2) (fld b 6 2))
  | 0x83 => some (.challenge (fld b 2 1) (slice b 4 32))
  | 0xE0 => some (.measurements (fld b 3 1) (slice b 4 32))
  | _ => none

/-! ### The meanings -/

/-- Module reset and the boot ROM (R17). -/
def execPowerOnReset (s : State) : Host.Outcome State Fault Refusal := .next (bootRom (moduleReset s))
/-- Link training (R17, step 6). -/
def execLinkTraining (ok : Bool) (errata : List (Nat × List Byte)) (s : State) : Host.Outcome State Fault Refusal := .next (bootTrain s ok errata)
/-- Lennas extends a measurement slot (R19). -/
def execMeasurementExtend (slot : Nat) (digest : List Byte) (s : State) : Host.Outcome State Fault Refusal := .next (measExtend s slot digest)
/-- SPDM requests (R20). -/
def execGetVersion (s : State) : Host.Outcome State Fault Refusal := .next (spdmDoe s .version)
/-- GET_CAPABILITIES. -/
def execGetCapabilities (s : State) : Host.Outcome State Fault Refusal := .next (spdmDoe s .capabilities)
/-- NEGOTIATE_ALGORITHMS: of what is offered, SHA-384 and ECDSA P-384 only. -/
def execNegotiateAlgorithms (hash asym : Half) (s : State) : Host.Outcome State Fault Refusal := .next (spdmDoe s (.algorithms hash.toNat asym.toNat))
/-- GET_DIGESTS. -/
def execGetDigests (s : State) : Host.Outcome State Fault Refusal := .next (spdmDoe s .digests)
/-- GET_CERTIFICATE. -/
def execGetCertificate (slot off len : Nat) (s : State) : Host.Outcome State Fault Refusal := .next (spdmDoe s (.certificate slot off len))
/-- CHALLENGE. -/
def execChallenge (slot : Nat) (nonce : List Byte) (s : State) : Host.Outcome State Fault Refusal := .next (spdmDoe s (.challenge slot nonce))
/-- GET_MEASUREMENTS. -/
def execGetMeasurements (index : Nat) (nonce : List Byte) (s : State) : Host.Outcome State Fault Refusal := .next (spdmDoe s (.measurements index nonce))
/-- The value of the record of a core's sub-array that is retired in service (R25): class, number and cause. -/
def retiredRecord (core sub : Nat) : List Byte :=
  toBytes 1 Config.retiredClass.toNat ++ toBytes 2 (Config.retiredNumber core sub).toNat ++ toBytes 1 Config.retiredCause.toNat
/-- A sub-array that fails its self-test is fenced and recorded as a unit retired in service (R25, R408). -/
def execSelfTest (core : Nat) (fail : Bool) (s : State) : Host.Outcome State Fault Refusal :=
  .next (if fail then { s with m := errataAppend (s.m.modCore core (fun k => { k with fenced := k.fenced + 1 })) 0x8003 (retiredRecord core (s.m.core core).fenced) } else s)
/-- Lane repair is exhausted on a crossing of a die link (R43). -/
def execLaneRepairExhausted (link : Nat) (s : State) : Host.Outcome State Fault Refusal := .next { s with m := linkNarrow s.m link }

end Sys2Proof.Machine
end

