-- ==== Sys2Proof/Machine/BteEngine.lean ====
section
/-! DEFINITION. The block-transfer engines: templates, multicast specifications, channels, the copy of a command and its stamp (R44 to R47,
R51, R354, R411 to R414). -/

namespace Sys2Proof.Machine

/-! ### Templates (R411) and multicast specifications (R44, R46) -/

/-- A field of a template is out of range or a reserved bit is set (R412). [DEDUCED, assumption log 19] -/
def tmplBad (t : List Byte) : Bool :=
  let len := fld t 24 4
  len == 0 || decide (16777216 < len) || fld t 28 2 == 0 || fld t 30 2 == 0 || fld t 16 8 % 8 != 0 || decide (1 < tSkind t) ||
  decide (2 < tDkind t) || decide (16 ≤ fld t 72 1) || fld t 73 1 != 0 || decide (4095 < fld t 74 2) || !zeros t 76 4 || !zeros t 96 32

/-- The core at a mesh position (R14). -/
def coreAt (row col : Nat) : Nat := 40 * (2 * (row / 5) + col / 8) + 8 * (row % 5) + col % 8

/-- Present cores that a specification selects (R47). -/
def mcReceivers (m : Mach) (mc : Nat) : Nat :=
  if mcClass mc = 1 then
    ((List.range 20).flatMap (fun r => if bit (bits mc 115 96) r then (List.range 16).filter (fun c => bit (bits mc 79 64) c && present m (coreAt r c)) else [])).length
  else mcCount mc

/-- The specification is one of the cases of R46 that its bits and the fuses decide. [DEDUCED, assumption log 29] -/
def mcBad (m : Mach) (mc : Nat) : Bool :=
  bits mc 125 124 != 0 ||
  (match mcClass mc with
   | 0 => bits mc 123 0 != 0
   | 1 => bits mc 123 116 != 0 || bits mc 95 80 != 0 || bits mc 63 0 != 0
   | 2 =>
     let n := mcCount mc
     let cs := mcCores mc
     n == 0 || decide (12 < n) || bits mc 119 108 != 0 || bits mc 107 0 / 2 ^ (9 * n) != 0 || cs.any (fun c => decide (320 ≤ c) || !present m c) ||
     cs.any (fun c => decide (1 < (cs.filter (· == c)).length))
   | _ => true)

/-- Lee units of a command (R28). -/
def bteUnits (m : Mach) (t : List Byte) : Nat := if mcClass (tMcast t) = 1 ∧ 64 < mcReceivers m (tMcast t) then 6 else 0

/-! ### Regions and the range scoreboard (R160, R243) -/

/-- The local regions of a command: its source and its destination, in memory or a tile cell. [DEDUCED, assumption log 19] -/
def bteRanges (job launch : Nat) (t : List Byte) (a : Nat) : List (Bool × SbRange) :=
  let cell (w : Nat) : SbRange := .cell launch (bits w 16 14) (bits w 13 0)
  (if tSkind t = 1 then [(true, cell (fld t 0 8 % 2 ^ 32))] else []) ++ (if tDkind t = 1 then [(false, cell (fld t 8 8 % 2 ^ 32))] else []) ++
  (if tSkind t = 0 then let h := srcHull t a; [(true, .mem job h.1 h.2)] else []) ++
  (if tDkind t = 0 ∧ mcClass (tMcast t) ≠ 2 then let h := dstHull t a; [(false, .mem job h.1 h.2)] else [])

/-- Do two entries overlap? -/
def sbOverlap (a b : SbRange) : Bool :=
  match a, b with
  | .mem j lo n, .mem j' lo' n' => j == j' && decide (lo < lo' + n' ∧ lo' < lo + n)
  | .win t f n, .win t' f' n' => t == t' && decide (f < f' + n' ∧ f' < f + n)
  | .cell l d c, .cell l' d' c' => l == l' && d == d' && c == c'
  | _, _ => false

/-- The first entry of a core that overlaps one of some regions. [DEDUCED, assumption log 19] -/
def sbConflict (m : Mach) (core : Nat) (rs : List SbRange) : Option SbEnt :=
  (m.core core).sb.find? (fun e => rs.any (sbOverlap e.range))

/-- Rule 1 and rule 2 of R243 for a crew's memory accesses: a load waits for destinations, a store for sources. -/
def sbStall (m : Mach) (c : Crew) (store : Bool) (accs : List Acc) : R Unit :=
  if (m.core c.core).sb.any (fun e => e.src == store && accs.any (fun a => sbOverlap e.range (.mem c.job a.va a.size))) then .error (.stall .scoreboard id)
  else .ok ()

/-! ### Channels -/

def Chan.fresh : Chan := { queue := [], accepted := 0, stamped := 0 }
def chanGet (m : Mach) (die ch : Nat) : Chan := (smFind (m.die die).chans ch).getD Chan.fresh
def chanSet (m : Mach) (die ch : Nat) (x : Chan) : Mach := m.modDie die (fun d => { d with chans := smPut d.chans ch x })
/-- Change the command at the head of a channel. -/
def headMod (m : Mach) (die ch : Nat) (f : Cmd → Cmd) : Mach :=
  let x := chanGet m die ch
  chanSet m die ch { x with queue := match x.queue with | k :: t => f k :: t | [] => [] }

/-- The next sequence number (R414). -/
def seqAfter (n : Nat) : Nat := if n = 2 ^ 63 - 1 then 1 else n + 1

/-- The event that the head of a channel waits for. -/
def bteKick (m : Mach) (die ch : Nat) : Mach :=
  match (chanGet m die ch).queue with
  | [] => m
  | k :: _ => m.dueOnce (if !k.started then .bteCommandStart die ch false else .bteStampWrite die ch)

/-! ### Copying (R413, R414) -/

/-- A cell word that an engine accepts (R363). -/
def cellWordOk (tile w : Nat) : Bool := bit w 31 && !bit w 30 && bits w 29 17 == 0 && decide (bits w 13 0 < tile)

/-- What reading the source of a command has come to. -/
inductive BteSrc where
  | rows (l : List (Int × List Byte)) (m : Mach)
  | bad
  | later (m : Mach)

/-- The source bytes of every row, read before any destination is written; it ends at the first error, and waits for what the host has to give. -/
def bteRead (w : Who) (t : List Byte) (cell : Option Cell) : List (Int × Int) → Mach → BteSrc
  | [], m => .rows [] m
  | (so, d) :: rest, m =>
    let len := fld t 24 4
    let row : Fetch :=
      match cell with
      | some x => if so < 0 ∨ 4096 < so + len then .fault else .data ((List.range len).map (fun i => smGet 0 x.bytes (so.toNat + i))) m
      | none => engineBytes w len m (wrapTo 64 (fld t 0 8 + so))
    match row with
    | .data bs m =>
      (match bteRead w t cell rest m with
       | .rows l m => .rows ((d, bs) :: l) m
       | x => x)
    | .later m => .later m
    | _ => .bad

/-- Write rows until one fails: the answer says whether all landed. [DEDUCED, assumption log 19] -/
def bteWrite (f : Mach → Int → List Byte → Mach × Bool) : List (Int × List Byte) → Mach → Mach × Bool
  | [], m => (m, true)
  | (d, bs) :: rest, m =>
    match f m d bs with
    | (m, true) => bteWrite f rest m
    | (m, false) => (m, false)

/-- Pieces of the payload for a peer: position in the payload, destination address and bytes, cut at 8 KiB blocks and at rows (R51). -/
def peerCuts : Nat → Nat → Nat → List Byte → List (Nat × Nat × List Byte)
  | 0, _, _, _ => []
  | n + 1, pos, va, bs =>
    if bs.isEmpty then []
    else
      let k := 8192 - pos % 8192
      (pos, va, bs.take k) :: peerCuts n (pos + k) (va + k) (bs.drop k)

def peerPieces (t : List Byte) (rows : List (Int × List Byte)) : List (Nat × Nat × List Byte) :=
  (rows.foldl (fun (acc : Nat × List (Nat × Nat × List Byte)) r =>
    (acc.1 + r.2.length, acc.2 ++ peerCuts (r.2.length / 8192 + 2) acc.1 (wrapTo 64 (fld t 8 8 + r.1)) r.2)) (0, [])).2

/-- The payload goes to the peer; false when the peer is down. -/
def peerSend (m : Mach) (dom dst cls : Nat) (ps : List (Nat × Nat × List Byte)) : Mach × Bool :=
  let n := ps.length
  (ps.zip (List.range n)).foldl (fun (acc : Mach × Bool) p =>
    if !acc.2 then acc
    else vftSend acc.1 dom dst cls (p.1.1 / 8192 % 16) 1 (if p.2 + 1 = n then flLast else 0) (w64 p.1.2.1) p.1.2.2) (m, true)

/-- The binding of a receiving core for a job (R46, R421). -/
def landingOf (m : Mach) (job core : Nat) : Option Landing :=
  match (m.core core).landing with
  | none => none
  | some b => match m.crew b.tid with | some c => if c.job = job then some b else none | none => none

/-- What the destination of a command is. -/
inductive BteDst where
  | mem
  | cell (die cell : Nat)
  | peer (dom cls : Nat)
  | land (cores : List Nat)
  | bad

def bteDst (m : Mach) (k : Cmd) : BteDst :=
  let t := k.tmpl
  let mc := tMcast t
  let tile := match m.launch k.launch with | some l => l.tile | none => 0
  if mcBad m mc ∨ (tDkind t ≠ 0 ∧ mcClass mc ≠ 0) then .bad
  else
    match tDkind t with
    | 1 => let w := fld t 8 8 % 2 ^ 32; if cellWordOk tile w then .cell (bits w 16 14) (bits w 13 0) else .bad
    | 2 =>
      match m.job k.job with
      | some j => match j.domain with | some d => .peer d j.cls | none => .bad
      | none => .bad
    | _ =>
      if mcClass mc = 2 then (if (mcCores mc).all (fun c => (landingOf m k.job c).isSome) then .land (mcCores mc) else .bad) else .mem

/-- The engines that wait for lines that a command held look again, but the channel of that command (R242). -/
def bteReleased (m : Mach) (die ch : Nat) : Mach :=
  let m := m.dies.foldl (fun m e => e.2.chans.foldl (fun m c =>
    match c.2.queue with
    | k :: _ => if (e.1 = die ∧ c.1 = ch) ∨ k.started then m else bteKick m e.1 c.1
    | [] => m) m) m
  let m := m.cores.foldl (fun m e =>
    let m := if e.2.gaths.isEmpty then m else m.dueOnce (.gatherRetire e.1 none)
    match e.2.seqq with | .load _ _ _ _ :: _ => m.dueOnce (.mldbRetire e.1 none) | _ => m) m
  m.colls.foldl (fun m x => if x.ready then m.dueOnce (.collectiveComplete x.job x.key false) else m) m

/-- The copy has ended: the source entry goes, the lines it held are free, and the command waits to write its stamp. [DEDUCED, assumption log 19] -/
def bteCopied (m : Mach) (die ch : Nat) (k : Cmd) (err : Bool) (signals : List Nat) : Mach :=
  let m := headMod (apUsed m k.op) die ch (fun k => { k with started := true, err := err, signals := signals })
  let m := m.modCore k.core (fun c => { c with sb := c.sb.filter (fun e => !(e.id == k.op && e.src)) })
  bteReleased (bteKick m die ch) die ch

/-- The head of a channel starts and copies (R413, R414). False: it waits in its channel. [DEDUCED, assumption log 8; DEDUCED, assumption log 38] -/
def bteStart (m : Mach) (die ch : Nat) (uncorr : Bool) : Mach × Bool :=
  match (chanGet m die ch).queue with
  | [] => (m, false)
  | k :: _ =>
    if k.started then (m, false)
    else
      let t := k.tmpl
      let w : Who := { core := 336 + die, job := k.job, sup := false, op := k.op }
      let tile := match m.launch k.launch with | some l => l.tile | none => 0
      let fail (m : Mach) : Mach × Bool := (bteCopied m die ch k true [], true)
      let sw := fld t 0 8 % 2 ^ 32
      let src : Option (Option Cell) :=
        if tSkind t = 1 then (if cellWordOk tile sw then some (some (cellGet m (bits sw 16 14) k.launch (bits sw 13 0))) else none) else some none
      let dst := bteDst m k
      match src, dst with
      | none, _ => fail m
      | _, .bad => fail m
      | some cell, _ =>
        let srcWaits := match cell with | some x => !x.full | none => false
        let dstWaits := match dst with | .cell d c => let x := cellGet m d k.launch c; x.full || x.claim.isSome | _ => false
        let ranges := (if tSkind t = 0 then [srcHull t k.arg] else []) ++ (match dst with | .mem => [dstHull t k.arg] | .land _ => bteDests m k | _ => [])
        let held := heldLines m w ranges
        if srcWaits || dstWaits then (m, false)
        else if !held.isEmpty then (snoopSide held m, false)
        else if engineStops m w ((if tSkind t = 0 then (bteRows t k.arg).map (fun r => (wrapTo 64 (fld t 0 8 + r.1), fld t 24 4)) else []) ++ bteDests m k) then
          (m.dueOnce (.bteCommandStart die ch false), false)
        else if uncorr then fail (monCount m .engineError die)
        else
          match bteRead w t cell (bteRows t k.arg) m with
          | .bad => fail m
          | .later m => (m.dueOnce (.bteCommandStart die ch false), false)
          | .rows rows m =>
            match dst with
            | .mem =>
              let r := bteWrite (fun m d bs => engineWrite m w (wrapTo 64 (fld t 8 8 + d)) bs) rows m
              (bteCopied r.1 die ch k (!r.2) [], true)
            | .cell d c =>
              let ok := rows.all (fun r => decide (0 ≤ r.1 ∧ r.1 + (r.2.length : Int) ≤ 4096))
              if !ok then fail m
              else
                let put (l : List (Nat × Byte)) (r : Int × List Byte) : List (Nat × Byte) :=
                  ((List.range r.2.length).zip r.2).foldl (fun l e => smSet 0 l (r.1.toNat + e.1) e.2) l
                let m := cellMod m d k.launch c (fun x => { x with full := true, claim := none, bytes := rows.foldl put x.bytes })
                (bteCopied m die ch k false [], true)
            | .peer dom cls =>
              let r := peerSend m dom (fld t 74 2) cls (peerPieces t rows)
              (bteCopied r.1 die ch k (!r.2) [], true)
            | .land cores =>
              let r := cores.foldl (fun (acc : Mach × Bool) c =>
                if !acc.2 then acc
                else
                  match landingOf acc.1 k.job c with
                  | none => (acc.1, false)
                  | some b => bteWrite (fun m d bs => engineWrite m w (wrapTo 64 (b.base.toNat + fld t 8 8 + d)) bs) rows acc.1) (m, true)
              if !r.2 then fail r.1
              else
                let m := cores.foldl (fun m c => (m.modCore c (fun x => { x with landed := x.landed ++ [(64 * die + ch, k.op)] })).due .landingArrival) r.1
                (bteCopied m die ch k false cores, true)
            | .bad => fail m

/-- Has a peer payload frame that is not acknowledged (R51)? -/
def peerWaits (m : Mach) (dom dst cls : Nat) : Bool :=
  m.net.conns.any (fun c => c.domain == dom && c.dst == dst && c.cls == cls && !c.down && c.unacked.any (fun f => f.typ == 1))

/-- Is a peer of a domain down (R32, R50)? -/
def peerGone (m : Mach) (dom dst cls : Nat) : Bool :=
  m.net.conns.any (fun c => c.domain == dom && c.dst == dst && c.down) || (openConn m dom dst cls 0).isNone

/-- The head of a channel writes its stamp and retires (R51, R414). False: it waits. A stamp frame goes on channel 0 of its class: no rule names the
channel. [DESIGN CHOICE, assumption log 19] A peer that is down can take no stamp: the stamp, with its error flag, is written at `STAMP` in the job's space on
this module. [DESIGN CHOICE, assumption log 19] -/
def bteStamp (m : Mach) (die ch : Nat) : Mach × Bool :=
  match (chanGet m die ch).queue with
  | [] => (m, false)
  | k :: rest =>
    let t := k.tmpl
    let dom := match m.job k.job with | some j => j.domain | none => none
    let cls := match m.job k.job with | some j => j.cls | none => 0
    if !k.started || !k.signals.isEmpty then (m, false)
    else if tDkind t == 2 && (match dom with | some d => peerWaits m d (fld t 74 2) cls | none => false) then (m, false)
    else
      let peer := match tDkind t, dom with | 2, some d => some d | _, _ => none
      let gone := match peer with | some d => peerGone m d (fld t 74 2) cls | none => false
      let away := if gone then none else peer
      let stamp := toBytes 8 (k.seq + (if k.err || gone then 2 ^ 63 else 0))
      let w : Who := { core := 336 + die, job := k.job, sup := false, op := k.op }
      -- a stamp line that the host may hold is asked for first (R36), one that another command holds is waited for (R242)
      let held := if away.isNone then heldLines m w [(fld t 16 8, 8)] else []
      if !held.isEmpty then (snoopSide held m, false)
      else if away.isNone && engineStops m w [(fld t 16 8, 8)] then (m.dueOnce (.bteStampWrite die ch), false)
      else
      let (m, done) :=
        match away with
        | some d => vftSend m d (fld t 74 2) cls 0 2 flLast (w64 (fld t 16 8)) stamp
        | none => engineWrite m w (fld t 16 8) stamp
      let m := if done then m else monCount m .noStamp die
      let x := chanGet m die ch
      let m := chanSet m die ch { x with queue := rest, stamped := if done then k.seq else x.stamped }
      let m := leeRelease (m.modCore k.core (fun c => { c with sb := c.sb.filter (fun e => e.id != k.op) })) k.core k.op
      (bteKick m die ch, true)

/-! ### Accepting a command (R354, R413) -/

/-- What a command waits for at issue: room in its channel, the end of an earlier command of its core whose region overlaps one of its own, or a free
entry of the scoreboard (R160, R243, R354). -/
def bteWaits (m : Mach) (core die ch : Nat) (rs : List SbRange) : Option Stall :=
  if 16 ≤ (chanGet m die ch).queue.length then some .channel
  else if (sbConflict m core rs).isSome || decide (64 < (m.core core).sb.length + rs.length) then some .scoreboard
  else none

/-- Index of the template that a store names, and its argument. -/
def bteIdx (data : Nat) : Nat := bits data 55 48
def bteArg (data : Nat) : Nat := bits data 47 0

/-- A store to the aperture is accepted as a command of the current crew (R354, R413). Its units of lee leave have been asked for. [DEDUCED, assumption log 19] -/
def bteAccept (pc : Word) (va data : Nat) (m : Mach) : R Mach :=
  let c := m.cur
  let die := bits va 18 16
  let ch := bits va 15 10
  match (match m.launch c.launch with | some l => smFind l.tmpls (bteIdx data) | none => none) with
  | none => .error (trapOf 0x21 none (w64 va) 0x200 0 0)
  | some t =>
    let rs := bteRanges c.job c.launch t (bteArg data)
    match bteWaits m c.core die ch (rs.map (·.2)) with
    | some r => .error (.stall r id)
    | none =>
      let (op, m) := m.newOp
      let x := chanGet m die ch
      let seq := seqAfter x.accepted
      let k : Cmd := { seq := seq, op := op, job := c.job, launch := c.launch, tid := c.tid, core := c.core, pc := pc, tmpl := t, arg := bteArg data,
                       started := false, err := false, signals := [] }
      let m := chanSet m die ch { x with queue := x.queue ++ [k], accepted := seq }
      let m := m.modCore c.core (fun q => { q with sb := q.sb ++ rs.map (fun r => { id := op, tid := c.tid, pc := pc, src := r.1, range := r.2 }) })
      let m := if bteUnits m t = 0 then m else leeCharge m c op false (bteUnits m t)
      .ok (if x.queue.isEmpty then bteKick m die ch else m)

end Sys2Proof.Machine
end

