-- ==== Sys2Proof/WellFormed.lean ====
section
/-! DEFINITION. Which instructions are well formed: those an encoding can hold (R268, R269) and whose own entry the executable
scanner accepts (R85, checks 6 to 8). -/

namespace Sys2Proof

open Machine

/-- The opcode and the fields of an instruction; none for the event rows. -/
def Instr.parts : Instr → Option (Nat × Fields)
  | .nop f => some (0x00, f)
  | .mov f => some (0x01, f)
  | .add f => some (0x02, f)
  | .sub f => some (0x03, f)
  | .mul f => some (0x04, f)
  | .mulh f => some (0x05, f)
  | .mad f => some (0x06, f)
  | .div f => some (0x07, f)
  | .rem f => some (0x08, f)
  | .min f => some (0x09, f)
  | .max f => some (0x0A, f)
  | .abs f => some (0x0B, f)
  | .neg f => some (0x0C, f)
  | .and_ f => some (0x0D, f)
  | .or_ f => some (0x0E, f)
  | .xor f => some (0x0F, f)
  | .not_ f => some (0x10, f)
  | .shl f => some (0x11, f)
  | .shr f => some (0x12, f)
  | .sar f => some (0x13, f)
  | .rot f => some (0x14, f)
  | .bfx f => some (0x15, f)
  | .bfi f => some (0x16, f)
  | .popc f => some (0x17, f)
  | .clz f => some (0x18, f)
  | .brev f => some (0x19, f)
  | .sel f => some (0x1A, f)
  | .cmp f => some (0x1B, f)
  | .pbool f => some (0x1C, f)
  | .addc f => some (0x1D, f)
  | .lea f => some (0x1E, f)
  | .cvti f => some (0x1F, f)
  | .vote f => some (0x20, f)
  | .elect f => some (0x21, f)
  | .bcast f => some (0x22, f)
  | .gscan f => some (0x23, f)
  | .perm f => some (0x24, f)
  | .shfl f => some (0x25, f)
  | .compact f => some (0x26, f)
  | .expand f => some (0x27, f)
  | .br f => some (0x30, f)
  | .brx f => some (0x31, f)
  | .call f => some (0x32, f)
  | .callx f => some (0x33, f)
  | .ret f => some (0x34, f)
  | .loop f => some (0x35, f)
  | .exit f => some (0x36, f)
  | .msync f => some (0x37, f)
  | .mset f => some (0x38, f)
  | .yield f => some (0x39, f)
  | .fadd f => some (0x40, f)
  | .fsub f => some (0x41, f)
  | .fmul f => some (0x42, f)
  | .ffma f => some (0x43, f)
  | .fmin f => some (0x44, f)
  | .fmax f => some (0x45, f)
  | .fabs f => some (0x46, f)
  | .fneg f => some (0x47, f)
  | .fcmp f => some (0x48, f)
  | .frcp f => some (0x49, f)
  | .frsq f => some (0x4A, f)
  | .fsqrt f => some (0x4B, f)
  | .fdiv f => some (0x4C, f)
  | .fexp2 f => some (0x4D, f)
  | .flog2 f => some (0x4E, f)
  | .fsin f => some (0x4F, f)
  | .fcos f => some (0x50, f)
  | .ftanh f => some (0x51, f)
  | .frnd f => some (0x52, f)
  | .ftoi f => some (0x53, f)
  | .itof f => some (0x54, f)
  | .fcvt f => some (0x55, f)
  | .fpack f => some (0x56, f)
  | .funpk f => some (0x57, f)
  | .fdot2 f => some (0x58, f)
  | .fdot4 f => some (0x59, f)
  | .fclass f => some (0x5A, f)
  | .hist f => some (0x5B, f)
  | .qscale f => some (0x5C, f)
  | .quant f => some (0x5D, f)
  | .dquant f => some (0x5E, f)
  | .cbdec f => some (0x5F, f)
  | .cbenc f => some (0x60, f)
  | .cbload f => some (0x61, f)
  | .tagset f => some (0x62, f)
  | .tagsetFclr f => some (0x62, f)
  | .tagsetFset f => some (0x62, f)
  | .tagget f => some (0x63, f)
  | .taggetFlags f => some (0x63, f)
  | .ld f => some (0x80, f)
  | .st f => some (0x81, f)
  | .atom f => some (0x82, f)
  | .red f => some (0x83, f)
  | .cas f => some (0x84, f)
  | .fence f => some (0x85, f)
  | .monarm f => some (0x86, f)
  | .monwait f => some (0x87, f)
  | .pref f => some (0x88, f)
  | .cclean f => some (0x89, f)
  | .cinval f => some (0x8A, f)
  | .tfill f => some (0x90, f)
  | .tdrain f => some (0x91, f)
  | .twait f => some (0x92, f)
  | .tstat f => some (0x93, f)
  | .gjoin f => some (0xA0, f)
  | .gleave f => some (0xA1, f)
  | .garr f => some (0xA2, f)
  | .gwait f => some (0xA3, f)
  | .gbar f => some (0xA4, f)
  | .gvote f => some (0xA5, f)
  | .gred f => some (0xA6, f)
  | .gstat f => some (0xA7, f)
  | .gfind f => some (0xA8, f)
  | .spawn f => some (0xB0, f)
  | .spawnv f => some (0xB1, f)
  | .spawnd f => some (0xB2, f)
  | .join f => some (0xB3, f)
  | .pget f => some (0xB4, f)
  | .pdig f => some (0xB5, f)
  | .preroot f => some (0xB6, f)
  | .rng f => some (0xB7, f)
  | .palloc f => some (0xB8, f)
  | .plog f => some (0xB9, f)
  | .rview f => some (0xBA, f)
  | .racc f => some (0xBB, f)
  | .rfin f => some (0xBC, f)
  | .vwreg f => some (0xC0, f)
  | .vwadd f => some (0xC1, f)
  | .vwdrop f => some (0xC2, f)
  | .vwsync f => some (0xC3, f)
  | .vwver f => some (0xC4, f)
  | .vwpol f => some (0xC5, f)
  | .vwtouch f => some (0xC6, f)
  | .mldb f => some (0xD0, f)
  | .mmas f => some (0xD1, f)
  | .mcommit f => some (0xD2, f)
  | .mwait f => some (0xD3, f)
  | .mrd f => some (0xD4, f)
  | .mwr f => some (0xD5, f)
  | .mzero f => some (0xD6, f)
  | .mstat f => some (0xD7, f)
  | .btmpl f => some (0xE0, f)
  | .gath f => some (0xE1, f)
  | .collOrdered f => some (0xE2, f)
  | .collArrival f => some (0xE2, f)
  | .cwait f => some (0xE3, f)
  | .lbase f => some (0xE4, f)
  | .bquery f => some (0xE5, f)
  | .trap f => some (0xF0, f)
  | .eretRetry f => some (0xF1, f)
  | .eretNext f => some (0xF1, f)
  | .eretEnd f => some (0xF1, f)
  | .sysr f => some (0xF2, f)
  | .sysw f => some (0xF3, f)
  | .keyld f => some (0xF3, f)
  | .keyclr f => some (0xF3, f)
  | .rsidx f => some (0xF3, f)
  | .wake f => some (0xF3, f)
  | .icinv f => some (0xF4, f)
  | .tlbinv f => some (0xF5, f)
  | .launch f => some (0xF6, f)
  | .cancel f => some (0xF7, f)
  | .leaveHold f => some (0xF8, f)
  | .leaveFree f => some (0xF8, f)
  | .hcount f => some (0xF9, f)
  | .halt f => some (0xFA, f)
  | .brk f => some (0xFB, f)
  | .monRead f => some (0xFC, f)
  | .monRdclr f => some (0xFC, f)
  | .monSel f => some (0xFC, f)
  | .linkTraining _ _ => none
  | .measurementExtend _ _ => none
  | .negotiateAlgorithms _ _ => none
  | .getCertificate _ _ _ => none
  | .challenge _ _ => none
  | .getMeasurements _ _ => none
  | .unmappedBarAccess _ _ => none
  | .requestSlotWrite _ _ _ => none
  | .mbdoor _ => none
  | .mbstatRespClear _ => none
  | .submit _ => none
  | .cancelRequest _ => none
  | .query _ => none
  | .load _ => none
  | .hostCxlMemRequest _ _ _ _ _ => none
  | .bisnpResponse _ _ => none
  | .apertureCompletion _ _ _ => none
  | .apertureCompletionTimeout _ => none
  | .postedWriteRefusal _ => none
  | .laneRepairExhausted _ => none
  | .ackFrame _ => none
  | .nackFrame _ => none
  | .copyPayloadFrame _ => none
  | .copyStampFrame _ => none
  | .collectiveSegment _ => none
  | .spdmMessageFrame _ => none
  | .jobHandOff _ => none
  | .heartbeat _ => none
  | .faultNotice _ => none
  | .reservedVftFrame _ => none
  | .nonVftFrame _ _ => none
  | .vftResendTimeout _ => none
  | .heartbeatLoss _ => none
  | .faultDetection _ => none
  | .remap _ _ => none
  | .restore _ => none
  | .restart _ => none
  | .leeGrant _ => none
  | .launchStart _ => none
  | .conditionNodeRead _ _ => none
  | .phaseBoundary _ => none
  | .parkedSlotReclaim _ => none
  | .crewMigration _ _ => none
  | .forwardMessage _ _ => none
  | .stealRequest _ => none
  | .stealAnswer _ => none
  | .preemptionRequest _ => none
  | .yieldforced _ => none
  | .waitEvent _ => none
  | .waitPoll _ => none
  | .stageItemArrival _ => none
  | .stageItemAck _ => none
  | .stageResend _ => none
  | .governorSample _ => none
  | .dataflowEligibilityTest _ _ => none
  | .cellWaiterServed _ _ => none
  | .walkComplete _ _ _ _ => none
  | .pageMigration _ _ _ _ => none
  | .viewRecompute _ _ => none
  | .bteCommandStart _ _ _ => none
  | .bteStampWrite _ _ => none
  | .gatherRetire _ _ => none
  | .collectiveComplete _ _ _ => none
  | .matrixStepStart _ => none
  | .matrixStepRetire _ => none
  | .mldbRetire _ _ => none
  | .selfTest _ _ => none
  | .systemTrap _ _ _ _ => none
  | .cxlMemRetrain _ => none
  | .portLinkDown _ => none
  | .portLinkUp _ => none
  | .configRequest _ _ => none
  | .msixTableWrite _ _ => none
  | .hdmDecoderProgram _ _ _ _ => none
  | .powerOnReset => none
  | .getVersion => none
  | .getCapabilities => none
  | .getDigests => none
  | .mbstatNovfClear => none
  | .mbstatDupClear => none
  | .mbnoteRead => none
  | .bisnpTimeout => none
  | .cxlMemInactive => none
  | .lateCompletionDrop => none
  | .coolantOvertemp => none
  | .coolantRecovery => none
  | .forwardingEntryExpiry => none
  | .stealBackoffExpiry => none
  | .boostExpiry => none
  | .registerMiss => none
  | .landingArrival => none
  | .trapDelivery => none
  | .haltWake => none
  | .heartbeatTransmit => none

/-- Is the row an event of an agent, and not an instruction of the opcode map? -/
def Instr.isEvent (i : Instr) : Bool :=
  match i.parts with
  | some _ => false
  | none => true

/-- The mode or register number that the rows split by it require (R345, R346, R397, R427, R428, R437, R439). -/
def Instr.splitOk : Instr → Bool
  | .tagset f => modeOf f == 0
  | .tagsetFclr f => modeOf f == 1
  | .tagsetFset f => modeOf f == 2
  | .tagget f => modeOf f == 0
  | .taggetFlags f => modeOf f == 1
  | .collOrdered f => modeOf f == 0
  | .collArrival f => modeOf f == 1
  | .eretRetry f => modeOf f == 0
  | .eretNext f => modeOf f == 1
  | .eretEnd f => modeOf f == 2
  | .sysw f => !sysOwn (numOf f)
  | .keyld f => numOf f == 0x28
  | .keyclr f => numOf f == 0x29
  | .rsidx f => numOf f == 0x30
  | .wake f => numOf f == 0x70
  | .leaveHold f => modeOf f == 0
  | .leaveFree f => modeOf f == 1
  | .monRead f => modeOf f == 0
  | .monRdclr f => modeOf f == 1
  | .monSel f => modeOf f == 2
  | _ => true

/-- Is the operand a literal? -/
def Opd.isLit : Opd → Bool
  | .lit => true
  | _ => false

/-- Is the operand indirect? -/
def Opd.isInd : Opd → Bool
  | .ind _ _ => true
  | _ => false

/-- Can an encoding hold the fields (R268, R269)? -/
def Fields.encodable (f : Fields) : Bool :=
  !f.d.isLit && !(f.a.isLit && f.b.isLit) && !(f.a.isLit && f.c.isLit) && !(f.b.isLit && f.c.isLit) && decide (f.sc.toNat ≤ 4) &&
  (f.wide || (decide (f.ty.toNat < 8) && f.lit == 0 && f.sc == 0 && f.ord == 0 && f.aux == 0 &&
    !f.a.isLit && !f.b.isLit && !f.c.isLit && !f.d.isInd && !f.a.isInd && !f.b.isInd && !f.c.isInd))

/-- Would the executable scanner pass the instruction's words (R85, checks 6 to 8)? -/
def Instr.wf (i : Instr) : Bool :=
  match i.parts with
  | some (op, f) => f.encodable && entryOk op f && i.splitOk
  | none => false

end Sys2Proof
end

