-- ==== Sys2Proof/Decode.lean ====
section
/-! DEFINITION. Decoding (R267 to R275): total on any bytes, refusing by name; and the encoder, written from the same tables. -/

namespace Sys2Proof

open Machine

/-- Why bytes are no instruction. -/
inductive DecodeError where
  /-- fewer bytes than the form needs -/
  | truncated
  /-- `OP` is a non-instruction or the block header (R284; REASON 0x01) -/
  | notInstruction
  /-- `G` from 12 to 14 (R278; REASON 0x06) -/
  | reservedGuard
  /-- an operand code in 0x2E1 to 0x2FF (R270; REASON 0x06) -/
  | reservedOperand
  /-- second-word bits [17:16] not zero (R269; REASON 0x07) -/
  | reservedField
  /-- `SC` from 5 to 7 (R275; REASON 0x07) -/
  | reservedScope
  /-- an operand code assigned to nothing (R131; REASON 0x08) -/
  | unassignedOperand
  /-- an indirect descriptor that R273 rejects (REASON 0x08) -/
  | badDescriptor
  /-- `LS` names a field that does not hold 0x2E0 (R272; REASON 0x08) -/
  | badLiteral
  deriving DecidableEq, Repr

/-- An operand code with its indirect descriptor, named directly or indirectly (R131, R270, R273). -/
def decodeOpd (code desc : Nat) : Except DecodeError Opd :=
  if 8 ≤ desc then
    if code < 0x200 then .ok (.ind (BitVec.ofNat 9 code) (BitVec.ofNat 3 (desc - 8))) else .error .badDescriptor
  else if desc ≠ 0 then .error .badDescriptor
  else if code < 0x200 then .ok (.v (BitVec.ofNat 9 code))
  else if code < 0x280 then .ok (.s (BitVec.ofNat 7 (code - 0x200)))
  else if h : code < 0x28C then .ok (.p ⟨(code - 0x280) % 12, Nat.mod_lt _ (by decide)⟩)
  else if code = 0x28F then .ok .pt
  else if code < 0x290 then .error .unassignedOperand
  else if code < 0x298 then .ok (.m (BitVec.ofNat 3 (code - 0x290)))
  else if code < 0x2A0 then .error .unassignedOperand
  else if code < 0x2B0 then .ok (.h (BitVec.ofNat 4 (code - 0x2A0)))
  else if code < 0x2B8 then .ok (.acc (BitVec.ofNat 3 (code - 0x2B0)))
  else if code < 0x2C0 then .error .unassignedOperand
  else if code < 0x2D0 then .ok (.spec (BitVec.ofNat 4 (code - 0x2C0)))
  else if code < 0x2E0 then .error .unassignedOperand
  else if code = 0x2E0 then .ok .none
  else if code < 0x300 then .error .reservedOperand
  else .ok (.imm (BitVec.ofNat 8 (code - 0x300)))

/-- A source field, the literal where `LS` names it (R272). -/
def decodeSrc (isLit : Bool) (code desc : Nat) : Except DecodeError Opd :=
  if isLit then (if code = 0x2E0 ∧ desc = 0 then .ok .lit else .error .badLiteral) else decodeOpd code desc

/-- The guard field (R268, R278). -/
def decodeGuard (g : Nat) : Except DecodeError (Option (Fin 12)) :=
  if h : g < 12 then .ok (some ⟨g, h⟩) else if g = 15 then .ok none else .error .reservedGuard

/-- The fields of a first word `w` and a second word `x`, zero for a short form (R268, R269). -/
def decodeFields (w x : Nat) : Except DecodeError Fields :=
  match decodeGuard (w / 2 ^ 44 % 16) with
  | .error e => .error e
  | .ok g =>
  if x / 2 ^ 16 % 4 ≠ 0 then .error .reservedField
  else if 4 < x / 2 ^ 22 % 8 then .error .reservedScope
  else
  match decodeOpd (w / 2 ^ 30 % 1024) (x / 2 ^ 12 % 16) with
  | .error e => .error e
  | .ok d =>
  match decodeSrc (x / 2 ^ 30 % 4 == 1) (w / 2 ^ 20 % 1024) (x / 2 ^ 8 % 16) with
  | .error e => .error e
  | .ok a =>
  match decodeSrc (x / 2 ^ 30 % 4 == 2) (w / 2 ^ 10 % 1024) (x / 2 ^ 4 % 16) with
  | .error e => .error e
  | .ok b =>
  match decodeSrc (x / 2 ^ 30 % 4 == 3) (w % 1024) (x % 16) with
  | .error e => .error e
  | .ok c =>
  .ok { wide := w / 2 ^ 63 % 2 == 1, stall := BitVec.ofNat 4 (w / 2 ^ 51 % 16), reuse := BitVec.ofNat 3 (w / 2 ^ 48 % 8),
        guard := g, neg := w / 2 ^ 43 % 2 == 1, ty := BitVec.ofNat 8 (8 * (x / 2 ^ 25 % 32) + w / 2 ^ 40 % 8),
        d := d, a := a, b := b, c := c, lit := BitVec.ofNat 32 (x / 2 ^ 32),
        sc := BitVec.ofNat 3 (x / 2 ^ 22 % 8), ord := BitVec.ofNat 2 (x / 2 ^ 20 % 4), aux := BitVec.ofNat 2 (x / 2 ^ 18 % 4) }

/-- The opcode map (R284), the rows that share an opcode told apart by mode or register number. -/
def mkInstr (op : Nat) (f : Fields) : Option Instr :=
  match op with
  | 0x00 => some (.nop f)
  | 0x01 => some (.mov f)
  | 0x02 => some (.add f)
  | 0x03 => some (.sub f)
  | 0x04 => some (.mul f)
  | 0x05 => some (.mulh f)
  | 0x06 => some (.mad f)
  | 0x07 => some (.div f)
  | 0x08 => some (.rem f)
  | 0x09 => some (.min f)
  | 0x0A => some (.max f)
  | 0x0B => some (.abs f)
  | 0x0C => some (.neg f)
  | 0x0D => some (.and_ f)
  | 0x0E => some (.or_ f)
  | 0x0F => some (.xor f)
  | 0x10 => some (.not_ f)
  | 0x11 => some (.shl f)
  | 0x12 => some (.shr f)
  | 0x13 => some (.sar f)
  | 0x14 => some (.rot f)
  | 0x15 => some (.bfx f)
  | 0x16 => some (.bfi f)
  | 0x17 => some (.popc f)
  | 0x18 => some (.clz f)
  | 0x19 => some (.brev f)
  | 0x1A => some (.sel f)
  | 0x1B => some (.cmp f)
  | 0x1C => some (.pbool f)
  | 0x1D => some (.addc f)
  | 0x1E => some (.lea f)
  | 0x1F => some (.cvti f)
  | 0x20 => some (.vote f)
  | 0x21 => some (.elect f)
  | 0x22 => some (.bcast f)
  | 0x23 => some (.gscan f)
  | 0x24 => some (.perm f)
  | 0x25 => some (.shfl f)
  | 0x26 => some (.compact f)
  | 0x27 => some (.expand f)
  | 0x30 => some (.br f)
  | 0x31 => some (.brx f)
  | 0x32 => some (.call f)
  | 0x33 => some (.callx f)
  | 0x34 => some (.ret f)
  | 0x35 => some (.loop f)
  | 0x36 => some (.exit f)
  | 0x37 => some (.msync f)
  | 0x38 => some (.mset f)
  | 0x39 => some (.yield f)
  | 0x40 => some (.fadd f)
  | 0x41 => some (.fsub f)
  | 0x42 => some (.fmul f)
  | 0x43 => some (.ffma f)
  | 0x44 => some (.fmin f)
  | 0x45 => some (.fmax f)
  | 0x46 => some (.fabs f)
  | 0x47 => some (.fneg f)
  | 0x48 => some (.fcmp f)
  | 0x49 => some (.frcp f)
  | 0x4A => some (.frsq f)
  | 0x4B => some (.fsqrt f)
  | 0x4C => some (.fdiv f)
  | 0x4D => some (.fexp2 f)
  | 0x4E => some (.flog2 f)
  | 0x4F => some (.fsin f)
  | 0x50 => some (.fcos f)
  | 0x51 => some (.ftanh f)
  | 0x52 => some (.frnd f)
  | 0x53 => some (.ftoi f)
  | 0x54 => some (.itof f)
  | 0x55 => some (.fcvt f)
  | 0x56 => some (.fpack f)
  | 0x57 => some (.funpk f)
  | 0x58 => some (.fdot2 f)
  | 0x59 => some (.fdot4 f)
  | 0x5A => some (.fclass f)
  | 0x5B => some (.hist f)
  | 0x5C => some (.qscale f)
  | 0x5D => some (.quant f)
  | 0x5E => some (.dquant f)
  | 0x5F => some (.cbdec f)
  | 0x60 => some (.cbenc f)
  | 0x61 => some (.cbload f)
  | 0x62 => some (if modeOf f = 2 then .tagsetFset f else if modeOf f = 1 then .tagsetFclr f else .tagset f)
  | 0x63 => some (if modeOf f = 1 then .taggetFlags f else .tagget f)
  | 0x80 => some (.ld f)
  | 0x81 => some (.st f)
  | 0x82 => some (.atom f)
  | 0x83 => some (.red f)
  | 0x84 => some (.cas f)
  | 0x85 => some (.fence f)
  | 0x86 => some (.monarm f)
  | 0x87 => some (.monwait f)
  | 0x88 => some (.pref f)
  | 0x89 => some (.cclean f)
  | 0x8A => some (.cinval f)
  | 0x90 => some (.tfill f)
  | 0x91 => some (.tdrain f)
  | 0x92 => some (.twait f)
  | 0x93 => some (.tstat f)
  | 0xA0 => some (.gjoin f)
  | 0xA1 => some (.gleave f)
  | 0xA2 => some (.garr f)
  | 0xA3 => some (.gwait f)
  | 0xA4 => some (.gbar f)
  | 0xA5 => some (.gvote f)
  | 0xA6 => some (.gred f)
  | 0xA7 => some (.gstat f)
  | 0xA8 => some (.gfind f)
  | 0xB0 => some (.spawn f)
  | 0xB1 => some (.spawnv f)
  | 0xB2 => some (.spawnd f)
  | 0xB3 => some (.join f)
  | 0xB4 => some (.pget f)
  | 0xB5 => some (.pdig f)
  | 0xB6 => some (.preroot f)
  | 0xB7 => some (.rng f)
  | 0xB8 => some (.palloc f)
  | 0xB9 => some (.plog f)
  | 0xBA => some (.rview f)
  | 0xBB => some (.racc f)
  | 0xBC => some (.rfin f)
  | 0xC0 => some (.vwreg f)
  | 0xC1 => some (.vwadd f)
  | 0xC2 => some (.vwdrop f)
  | 0xC3 => some (.vwsync f)
  | 0xC4 => some (.vwver f)
  | 0xC5 => some (.vwpol f)
  | 0xC6 => some (.vwtouch f)
  | 0xD0 => some (.mldb f)
  | 0xD1 => some (.mmas f)
  | 0xD2 => some (.mcommit f)
  | 0xD3 => some (.mwait f)
  | 0xD4 => some (.mrd f)
  | 0xD5 => some (.mwr f)
  | 0xD6 => some (.mzero f)
  | 0xD7 => some (.mstat f)
  | 0xE0 => some (.btmpl f)
  | 0xE1 => some (.gath f)
  | 0xE2 => some (if modeOf f = 1 then .collArrival f else .collOrdered f)
  | 0xE3 => some (.cwait f)
  | 0xE4 => some (.lbase f)
  | 0xE5 => some (.bquery f)
  | 0xF0 => some (.trap f)
  | 0xF1 => some (if modeOf f = 2 then .eretEnd f else if modeOf f = 1 then .eretNext f else .eretRetry f)
  | 0xF2 => some (.sysr f)
  | 0xF3 => some (if numOf f = 0x28 then .keyld f else if numOf f = 0x29 then .keyclr f else if numOf f = 0x30 then .rsidx f
      else if numOf f = 0x70 then .wake f else .sysw f)
  | 0xF4 => some (.icinv f)
  | 0xF5 => some (.tlbinv f)
  | 0xF6 => some (.launch f)
  | 0xF7 => some (.cancel f)
  | 0xF8 => some (if modeOf f = 1 then .leaveFree f else .leaveHold f)
  | 0xF9 => some (.hcount f)
  | 0xFA => some (.halt f)
  | 0xFB => some (.brk f)
  | 0xFC => some (if modeOf f = 2 then .monSel f else if modeOf f = 1 then .monRdclr f else .monRead f)
  | _ => none

/-- The instruction of a first word and, for a wide form, its second word (R267). -/
def decodeWords (w x : Nat) : Except DecodeError Instr :=
  match decodeFields w (if w / 2 ^ 63 % 2 = 1 then x else 0) with
  | .error e => .error e
  | .ok f =>
    match mkInstr (w / 2 ^ 55 % 256) f with
    | some i => .ok i
    | none => .error .notInstruction

/-- The instruction at the head of a list of bytes, with its length in bytes (R6, R267). -/
def decodeBytes (l : List Byte) : Except DecodeError (Instr × Nat) :=
  if l.length < 8 then .error .truncated
  else
    let w := fld l 0 8
    if w / 2 ^ 63 % 2 = 1 then
      if l.length < 16 then .error .truncated
      else
        match decodeWords w (fld l 8 8) with
        | .ok i => .ok (i, 16)
        | .error e => .error e
    else
      match decodeWords w 0 with
      | .ok i => .ok (i, 8)
      | .error e => .error e

/-- The instruction the decoder reads from an instruction whose bits are `w`, the first word's bit 0 lowest; the bits above
`nbits` are zero, up to the longest form of two words. -/
def decodeTableWord (nbits w : Nat) : Option Instr :=
  match decodeBytes (toBytes 16 (w % 2 ^ nbits)) with
  | .ok (i, _) => some i
  | .error _ => none

/-! ### The encoder -/

/-- The 10-bit code of an operand (R131). -/
def encodeCode : Opd → Nat
  | .v r => r.toNat
  | .s r => 0x200 + r.toNat
  | .p r => 0x280 + r.val
  | .pt => 0x28F
  | .m r => 0x290 + r.toNat
  | .h r => 0x2A0 + r.toNat
  | .acc r => 0x2B0 + r.toNat
  | .spec r => 0x2C0 + r.toNat
  | .imm k => 0x300 + k.toNat
  | .none => 0x2E0
  | .lit => 0x2E0
  | .ind r _ => r.toNat

/-- The indirect descriptor of an operand (R273). -/
def encodeDesc : Opd → Nat
  | .ind _ k => 8 + k.toNat
  | _ => 0

/-- `LS` (R269). -/
def encodeLS (f : Fields) : Nat := if f.a.isLit then 1 else if f.b.isLit then 2 else if f.c.isLit then 3 else 0

/-- The first word (R268). -/
def encodeFirst (op : Nat) (f : Fields) : Nat :=
  encodeCode f.c + 2 ^ 10 * encodeCode f.b + 2 ^ 20 * encodeCode f.a + 2 ^ 30 * encodeCode f.d + 2 ^ 40 * (f.ty.toNat % 8)
    + 2 ^ 43 * (b2n f.neg) + 2 ^ 44 * (match f.guard with | some p => p.val | none => 15) + 2 ^ 48 * f.reuse.toNat
    + 2 ^ 51 * f.stall.toNat + 2 ^ 55 * op + 2 ^ 63 * (b2n f.wide)

/-- The second word (R269). -/
def encodeSecond (f : Fields) : Nat :=
  encodeDesc f.c + 2 ^ 4 * encodeDesc f.b + 2 ^ 8 * encodeDesc f.a + 2 ^ 12 * encodeDesc f.d + 2 ^ 18 * f.aux.toNat
    + 2 ^ 20 * f.ord.toNat + 2 ^ 22 * f.sc.toNat + 2 ^ 25 * (f.ty.toNat / 8) + 2 ^ 30 * encodeLS f + 2 ^ 32 * f.lit.toNat

/-- The words of an instruction: one for a short form, two for a wide form, none for an event row. -/
def encode (i : Instr) : List Nat :=
  match i.parts with
  | some (op, f) => if f.wide then [encodeFirst op f, encodeSecond f] else [encodeFirst op f]
  | none => []

/-- The bytes of an instruction as memory holds them (R6, R267). -/
def encodeBytes (i : Instr) : List Byte := (encode i).flatMap (toBytes 8)

end Sys2Proof
end

