-- ==== Sys2Proof/Machine/Operands.lean ====
section
/-! DEFINITION. Operand forms: reading every class of source, writing every class of destination, and the checks made before an instruction
has any effect: STALLSHORT, REGRANGE, HANDLE and FMTTAG (R131 to R142, R153, R163, R164, R254, R271 to R273, R292, R293). -/

namespace Sys2Proof.Machine

/-! ### Constants (R271, R272) -/

/-- The integer of an inline constant for an operand of type y, as bits of the operand. -/
def constVal (y : Nat) (c : Int) : Word :=
  match y with
  | 3 => w64 (ofIntNE f32 c)
  | 7 => w64 (packMake 16 (List.replicate 2 (ofIntNE f16 c)))
  | 8 => w64 (packMake 16 (List.replicate 2 (ofIntNE bf16 c)))
  | 9 => w64 (packMake 8 (List.replicate 4 (ofIntNE fE4M3 c)))
  | 10 => w64 (packMake 8 (List.replicate 4 (ofIntNE fE5M2 c)))
  | 11 => w64 (packMake 8 (List.replicate 4 (wrapTo 8 (sat c (-128) 127))))
  | 12 => w64 (packMake 8 (List.replicate 4 (wrapTo 8 (sat c 0 255))))
  | 13 => w64 (packMake 4 (List.replicate 8 (wrapTo 4 (sat c (-8) 7))))
  | _ => if tyBits y = 64 then ofI c else zx (BitVec.ofInt 32 c)

/-- The literal for an operand of type y. -/
def litVal (y : Nat) (l : Half) : Word := if y = 4 then sx l else zx l

/-! ### Sources -/

/-- A special's value in a lane, and its tag (R139). -/
def specVal (x : Ctx) (k : Crew) (r L : Nat) : Word :=
  match r with
  | 0 => w64 L
  | 1 => w64 k.width
  | 2 => w64 (k.slots.headD 0)
  | 3 => pdig k.ped0
  | 4 | 5 | 6 | 7 => pedWord k.ped (r - 4)
  | 8 => w64 (pedDepth k.ped)
  | 9 => w64 k.core
  | 10 => w64 (dieOf k.core)
  | 11 => w64 x.modIdx
  | 12 => w64 k.cls
  | 13 => w64 x.clk
  | 14 => w64 k.hnd
  | _ => k.aseq

def specTag (r : Nat) : Tag := if r = 13 ∨ r = 15 then tI64 else if (3 ≤ r ∧ r ≤ 7) ∨ r = 14 then tRAW else tN32

/-- The register that an indirect operand names in a lane (R134). -/
def effReg (k : Crew) (r : BitVec 9) (o : BitVec 3) (L : Nat) : Nat := (vGet k r.toNat L).toNat + o.toNat

/-- A `v` register's value at a width of 32 or 64 bits. -/
def vVal (k : Crew) (w r L : Nat) : Word := if w = 64 then vGet64 k r L else zx (vGet k r L)

/-- The value of a source operand of type y in a lane: 32-bit values are zero-extended (R133, R135 to R139, R271, R272, R293). -/
def srcVal (x : Ctx) (k : Crew) (y : Nat) (o : Opd) (L : Nat) : Word :=
  let w := tyBits y
  let v : Word :=
    match o with
    | .v r => vVal k w r.toNat L
    | .ind r i => vVal k w (effReg k r i L) L
    | .s r => sGet k r.toNat
    | .p r => if pBit k r.val L then 1 else 0
    | .pt => 1
    | .m r => mGet k r.toNat
    | .h r => hGet k r.toNat
    | .spec r => specVal x k r.toNat L
    | .imm c => constVal y c.toInt
    | .lit => litVal y x.f.lit
    | _ => 0
  if w = 32 then zx (lo32 v) else v

/-- Operands A, B, C and the old D of type y in a lane. -/
def opA (x : Ctx) (y L : Nat) : Word := srcVal x x.ca y x.f.a L
def opB (x : Ctx) (y L : Nat) : Word := srcVal x x.cb y x.f.b L
def opC (x : Ctx) (y L : Nat) : Word := srcVal x x.cc y x.f.c L
def opD (x : Ctx) (y L : Nat) : Word := srcVal x x.cd y x.f.d L

/-- The tags of the registers that a source of width w and n consecutive items names, in the lanes of E; none for a constant. -/
def opTags (k : Crew) (w n : Nat) (lanes : List Nat) (o : Opd) : List Tag :=
  match o with
  | .v r => (List.range (n * (w / 32))).map (fun i => vTag k (r.toNat + i))
  | .ind r i => lanes.flatMap (fun L => (List.range (n * (w / 32))).map (fun j => vTag k (effReg k r i L + j)))
  | .s r => (List.range (n * (if w = 128 then 2 else 1))).map (fun i => sTag k (r.toNat + i))
  | .p _ => [tN32]
  | .m _ => [tRAW]
  | .h _ => [tRAW]
  | .spec r => [specTag r.toNat]
  | _ => []

/-- The common tag of register sources: RAW when they differ or when there is none (R142, rule 2). The registers of a
64-bit result take it too where it is a 32-bit format's: rule 4 names only I64, ADDR and RAW for those. [DESIGN CHOICE, assumption log 14] -/
def commonTag (l : List Tag) : Tag :=
  match l with
  | [] => tRAW
  | t :: rest => if rest.all (· == t) then t else tRAW

/-! ### Destinations -/

/-- Write one lane's result: a `v` register or pair with its tag, an `s` register extended by sign when `sgn`, a `p` register's bit. -/
def putLane (x : Ctx) (w : Nat) (sgn : Bool) (t : Tag) (d : Opd) (L : Nat) (v : Word) (c : Crew) : Crew :=
  let reg (r : Nat) : Crew :=
    if w = 64 then vSetTag (vSetTag (vSet64 c r L v) r t) (r + 1) t else vSetTag (vSet c r L (lo32 v)) r t
  match d with
  | .v r => reg r.toNat
  | .ind r i => reg (effReg x.cd r i L)
  | .s r => sSet c r.toNat (if w = 64 then v else if sgn then sx (lo32 v) else zx (lo32 v)) t
  | .p r => pSetBit c r.val L (if w = 64 then v != 0 else lo32 v != 0)
  | .m r => mSet c r.toNat v
  | _ => c

/-- The lanes in which a destination is written: the lowest lane of E alone for a crew-uniform one (R135). -/
def dLanes (x : Ctx) (d : Opd) : List Nat :=
  match d with
  | .s _ => [x.low]
  | .m _ => [x.low]
  | _ => x.lanes

/-- The result tag of a bit-pattern instruction over value operands A, or A and B, in the lanes that are read (R135). -/
def bitTagA (x : Ctx) (w : Nat) : Tag := commonTag (opTags x.ca w 1 (dLanes x x.f.d) x.f.a)
def bitTagAB (x : Ctx) (w : Nat) : Tag := commonTag (opTags x.ca w 1 (dLanes x x.f.d) x.f.a ++ opTags x.cb w 1 (dLanes x x.f.d) x.f.b)

/-- Write a result, given per lane, to the destination. -/
def putRes (x : Ctx) (w : Nat) (sgn : Bool) (t : Tag) (v : Nat → Word) (c : Crew) : Crew :=
  (dLanes x x.f.d).foldl (fun c L => putLane x w sgn t x.f.d L (v L) c) c

/-- Write a predicate result: a `p` register in the lanes of E; `pt` discards it (R132). -/
def putPred (x : Ctx) (v : Nat → Bool) (c : Crew) : Crew :=
  match x.f.d with
  | .p r => x.lanes.foldl (fun c L => pSetBit c r.val L (v L)) c
  | _ => c

/-! ### Registers that an operand names, for the scoreboard and checking mode -/

/-- Kinds 0 `v`, 1 `s`, 2 `p`, 3 `m`. -/
def regsOf (k : Crew) (r : Role) (lanes : List Nat) (o : Opd) : List (Nat × Nat) :=
  match o with
  | .v i => (List.range (r.n * (r.bits / 32))).map (fun j => (0, i.toNat + j))
  | .ind i j => lanes.flatMap (fun L => (List.range (r.n * (r.bits / 32))).map (fun q => (0, effReg k i j L + q)))
  | .s i => (List.range (r.n * (if r.bits = 128 then 2 else 1))).map (fun j => (1, i.toNat + j))
  | .p i => [(2, i.val)]
  | .m i => [(3, i.toNat)]
  | _ => []

/-- The index register of an indirect operand, read whatever the operand's role. -/
def indexRegs (o : Opd) : List (Nat × Nat) :=
  match o with
  | .ind i _ => [(0, i.toNat)]
  | _ => []

/-- The lanes in which the sources of an instruction are read: the lowest of E alone when its destination is crew-uniform (R135); the crew-level
instructions read every lane of E. -/
def Ctx.rlanes (x : Ctx) (e : Entry) : List Nat :=
  match x.f.d with
  | .s _ => if e.d.dst && !(decide (0x20 ≤ x.op) && decide (x.op ≤ 0x27)) then [x.low] else x.lanes
  | _ => x.lanes

/-- Registers read through an operand position. [DEDUCED, assumption log 13] -/
def readsOf (k : Crew) (r : Role) (lanes : List Nat) (o : Opd) : List (Nat × Nat) :=
  indexRegs o ++ (if r.src then regsOf k r lanes o else [])

/-- The register that a saved value belongs to. [DEDUCED, assumption log 13] -/
def savedReg : Saved → Nat × Nat
  | .v r _ _ => (0, r)
  | .s r _ _ => (1, r)
  | .p r _ => (2, r)
  | .m r _ => (3, r)

/-- The contents of a register, to be read by a consumer that comes too early. -/
def saveReg (c : Crew) (x : Nat × Nat) : Saved :=
  match x.1 with
  | 0 => .v x.2 (vRow c x.2) (vTag c x.2)
  | 1 => .s x.2 (sGet c x.2) (sTag c x.2)
  | 2 => .p x.2 (pGet c x.2)
  | _ => .m x.2 (mGet c x.2)

/-- The fixed-latency result that a read of these registers comes too early for (R162): the oldest in flight, where a read comes too early for
several, which R164 does not rank. [DESIGN CHOICE, assumption log 13] -/
def tooEarly (c : Crew) (regs : List (Nat × Nat)) : Option Pend :=
  c.pend.find? (fun q => decide (q.dist < q.lat) && regs.contains (savedReg q.saved))

/-- A register with what it held before a result in the lanes that the result produced. -/
def oldReg (c : Crew) (q : Pend) : Saved :=
  match q.saved with
  | .v r row t =>
    let was (e : Nat × Half) : Bool := q.lanes.getLsbD (e.1 % 64)
    .v r (row.filter was ++ (vRow c r).filter (fun e => !was e)) t
  | .p r x => .p r ((x &&& q.lanes) ||| (pGet c r &&& ~~~q.lanes))
  | x => x

/-- A crew as a read that comes too early for some results may see it (R163). -/
def seeOld (c : Crew) (l : List Pend) : Crew := l.foldl (fun k q => restoreReg k (oldReg k q)) c

/-- The results in flight that a read of these registers comes too early for and meets old: each is read old or new on its own, and each
operand, whose reads count from `ctr`, apart from the others (R163). -/
def metOld (c : Crew) (regs : List (Nat × Nat)) (ctr : Nat) : List Pend :=
  ((c.pend.zip (List.range c.pend.length)).filter (fun e =>
    decide (e.1.dist < e.1.lat) && regs.contains (savedReg e.1.saved) && Config.readOld (ctr + 8 * e.2))).map (·.1)

/-- What one operand's read sees outside checking mode (R163). -/
def seenBy (c : Crew) (regs : List (Nat × Nat)) (ctr : Nat) : Crew := if c.chk || c.pend.isEmpty then c else seeOld c (metOld c regs ctr)

/-- Free values that the operand reads of one instruction take: those of D, A, B, C, the guard and a step's window, for each result in flight (R163). -/
def readsTaken (c : Crew) : Nat := 8 * c.pend.length

/-- The first register of a run operand. -/
def runBase (o : Opd) : Nat := match o with | .v r => r.toNat | .s r => r.toNat | _ => 0

/-- The record in a block of n `s` registers (R397). -/
def sRecord (k : Crew) (o : Opd) (n : Nat) : List Byte := (List.range n).flatMap (fun i => toBytes 8 (sGet k (runBase o + i)).toNat)

/-- The physical line at which a load of the crew met an uncorrected error, for a set (R400). [DEDUCED, assumption log 26] -/
def setMark (m : Mach) (c : Crew) (d : StepDesc) : Option Nat :=
  (List.range d.nmac).findSome? (fun i =>
    match smFind (m.core c.core).macros (d.mfirst + i) with
    | some q => if q.tid = c.tid then q.mark else none
    | none => none)

/-! ### The checks before any effect (R254, items 3 to 5) -/

/-- The operand positions of an instruction with their roles: D, A, B, C. [DEDUCED, assumption log 13] -/
def positions (x : Ctx) (e : Entry) : List (Nat × Role × Opd × Crew) :=
  [(0, e.d, x.f.d, x.cd), (1, e.a, x.f.a, x.ca), (2, e.b, x.f.b, x.cb), (3, e.c, x.f.c, x.cc)]

/-- An engine window of the crew that overlaps registers: the entry and the register. `dest`: one the engine writes. -/
def windowHit (m : Mach) (c : Crew) (dest : Bool) (regs : List (Nat × Nat)) : Option (SbEnt × Nat) :=
  (m.core c.core).sb.findSome? (fun e =>
    match e.range with
    | .win t first n =>
      if t = c.tid && e.src != dest then
        (regs.find? (fun r => r.1 == 0 && decide (first ≤ r.2 ∧ r.2 < first + n))).map (fun r => (e, r.2))
      else none
    | _ => none)

/-- The line at which a load of the crew met an uncorrected error, of a set that the instruction, an `mmas`, names (R254, R400). -/
def stepMark (m : Mach) (c : Crew) (x : Ctx) : Option Nat := if x.op = 0xD1 then setMark m c (stepDesc (sRecord x.ca x.f.a 8)) else none

/-- The registers of the window that a step reads, its parameter block read as operand A sees it (R401, R416). [DEDUCED, assumption log 26] -/
def windowReads (x : Ctx) : List (Nat × Nat) := if x.op = 0xD1 then (stepRegs (stepDesc (sRecord x.ca x.f.a 8))).map (fun r => (0, r)) else []

/-- ECCFATAL for a register or a macro set with an uncorrected error, then STALLSHORT in checking mode, or the stall of the range scoreboard (R153, R164,
R243, R416). [DEDUCED, assumption log 13] -/
def checkShort (m : Mach) (c : Crew) (x : Ctx) (e : Entry) : R Unit :=
  let ps := positions x e
  let reads := ps.map (fun p => readsOf c p.2.1 (x.rlanes e) p.2.2.1)
  let all := reads.flatMap id ++ (match x.f.guard with | some g => [(2, g.val)] | none => []) ++ windowReads x
  let writes := ps.flatMap (fun p => if p.2.1.dst then regsOf c p.2.1 x.lanes p.2.2.1 else [])
  match (all.findSome? (fun r => if r.1 = 0 then smFind c.poison r.2 else none)).or (stepMark m c x), (if c.chk then tooEarly c all else none) with
  | some line, _ => .error (trapOf 0x30 none (w64 line) 1 0 0)
  | none, some q => .error (trapOf 0x04 none q.pc (w64 q.lat) (w64 q.dist) 0)
  | none, none =>
    match windowHit m c true all with
    | some (q, r) =>
      if c.chk then .error (trapOf 0x04 none q.pc 0 0 (w64 r)) else .error (.stall .scoreboard id)
    | none => if (windowHit m c false writes).isSome then .error (.stall .scoreboard id) else .ok ()

/-- REGRANGE (R134, R140). -/
def regRange (L reg count : Nat) : Halt := trapOf 0x02 (some L) (w64 L) (w64 reg) (w64 count) 0

/-- REGRANGE and HANDLE for one operand (R134, R138, R140). [DEDUCED, assumption log 13] -/
def checkRange (x : Ctx) (ls : List Nat) (r : Role) (o : Opd) (k : Crew) : R Unit :=
  let d := k.decl
  let L := x.low
  match o with
  | .v i =>
    let n := r.n * (r.bits / 32)
    if d.vregs < i.toNat + n then .error (regRange L (max i.toNat d.vregs) d.vregs) else .ok ()
  | .ind i j =>
    if d.vregs ≤ i.toNat then .error (regRange L i.toNat d.vregs)
    else
      let w := r.bits / 32
      match ls.find? (fun L => let q := effReg k i j L; decide (d.vregs < q + r.n * w) || q % w != 0) with
      | some L => .error (regRange L (effReg k i j L) d.vregs)
      | none => .ok ()
  | .s i =>
    let n := r.n * (if r.bits = 128 then 2 else 1)
    if d.sregs < i.toNat + n then .error (regRange L (0x200 + max i.toNat d.sregs) d.sregs) else .ok ()
  | .m i => if d.masks ≤ i.toNat then .error (regRange L (0x290 + i.toNat) d.masks) else .ok ()
  | .acc i => if d.accs ≤ i.toNat then .error (regRange L (0x2B0 + i.toNat) d.accs) else .ok ()
  | .h i =>
    let h := hGet k i.toNat
    if d.handles ≤ i.toNat then .error (trapOf 0x06 none (w64 i.toNat) h 0 0)
    else if r.valid && !hValid h then .error (trapOf 0x06 none (w64 i.toNat) h 1 0)
    else .ok ()
  | _ => .ok ()

/-- Is a tag in a set? -/
def tagIn (s : Nat) (t : Tag) : Bool := s.testBit t.toNat

/-- FMTTAG. -/
def fmtTag (pos : Nat) (t : Tag) (o : Opd) : Halt := trapOf 0x03 none (w64 pos) (w64 t.toNat) (w64 (encodeCode o)) 0

/-- FMTTAG for one operand: the index register of an indirect one, then the tags of a source (R134, R142). [DEDUCED, assumption log 13] -/
def checkTag (ls : List Nat) (p : Nat × Role × Opd × Crew) : R Unit :=
  let (pos, r, o, k) := p
  let idxBad : Option Tag :=
    match o with
    | .ind i _ => if tagIn tagsIdx (vTag k i.toNat) then none else some (vTag k i.toNat)
    | _ => none
  match idxBad with
  | some t => .error (fmtTag pos t o)
  | none =>
    if !r.src then .ok ()
    else
      match (opTags k r.bits r.n ls o).find? (fun t => !tagIn r.tags t) with
      | some t => .error (fmtTag pos t o)
      | none => .ok ()

/-- Run a check over a list, the first failure reported. -/
def firstErr {α : Type} (f : α → R Unit) : List α → R Unit
  | [] => .ok ()
  | a :: t =>
    match f a with
    | .ok _ => firstErr f t
    | .error e => .error e

/-- The operands of an instruction, lane by lane (R254). -/
def lanePositions (x : Ctx) (e : Entry) : List (Nat × Nat × Role × Opd × Crew) := (x.rlanes e).flatMap (fun L => (positions x e).map (fun p => (L, p)))

end Sys2Proof.Machine
end

