-- ==== Sys2Proof/Machine/TaskEnd.lean ====
section
/-! DEFINITION. Waiting and going on: parking, polling, what each wait does when it ends, joins, and the end of a task (R116 to R118, R257,
R312, R368, R369, R382, R383, R391, R393, R420). -/

namespace Sys2Proof.Machine

/-! ### Plain stores by hardware in a task's name -/

/-- One store of bytes of one line that has passed its checks: into the segment, or posted to the host (R39, R201). -/
def doStore (m : Mach) (pc : Word) (o : Ok) (bs : List Byte) : R Mach :=
  if isAperture o.pa then .ok (m.send (.apWrite (o.pa - apBase) bs)) else storePlain m pc o.acc.va o.pa bs

/-- Stores in order, each with its checked access. -/
def doStores (pc : Word) : List (Ok × List Byte) → Mach → R Mach
  | [], m => .ok m
  | (o, bs) :: t, m =>
    match doStore m pc o bs with
    | .ok m => doStores pc t m
    | .error e => .error e

/-- Plain stores by the current crew: every check before any store (R173, R213, R352). -/
def plainStores (m : Mach) (pc : Word) (l : List (Acc × List Byte)) : R Mach :=
  match checkAll m (whoOf m.cur) 2 true (l.map (·.1)) with
  | .error e => .error e
  | .ok (m, oks) =>
    match raceCheck m true oks with
    | .error e => .error e
    | .ok m => doStores pc (oks.zip (l.map (·.2))) m

/-! ### Waits (R116) -/

/-- The reducers of a crew's launch. -/
def redsOf (m : Mach) (c : Crew) : List RedEnt := match m.launch c.launch with | some l => l.reds | none => []

/-- Has the condition of a wait become true? -/
def waitHolds (m : Mach) (c : Crew) (w : Wait) : Bool :=
  match w with
  | .join _ => c.kids.all (fun k => k.ended)
  | .cell die k full => let x := cellGet m die c.launch k; if full then x.full else !x.full && x.claim.isNone
  | .monitor => c.monitor.fired || !c.monitor.armed
  | .group g p _ _ => match m.group g with | some x => decide (p.toNat < x.done) | none => true
  | .coll t _ => match c.tickets.find? (fun x => x.id == t) with | some x => x.status.isSome | none => true

/-- Entries of a die's wait table in use. -/
def tableUsed (m : Mach) (die : Nat) : Nat :=
  (m.crews.filter (fun c => dieOf c.core == die && (match c.status with | .parked _ _ => true | _ => false))).length

/-- A crew goes on: ready, or resumable when it holds no slot (R117). -/
def goOn (m : Mach) (tid : Nat) (f : Crew → Crew) : Mach :=
  m.modCrew tid (fun c => settle m.clk (f { c with status := .ready, stamp := m.clk, woken := false }))

/-- Write a 64-bit result to an `s` register with a tag; a `p` register gets the bit in the lanes of a set. -/
def putUniform (c : Crew) (d : Opd) (x : Word) (t : Tag) (lanes : Mask) : Crew :=
  match d with
  | .s r => sSet c r.toNat x t
  | .p r => pSet c r.val (if x = 0 then pGet c r.val &&& ~~~ lanes else pGet c r.val ||| lanes)
  | _ => c

/-! ### Sync-group results (R369) -/

/-- Combine two contributions of `gred`. -/
def gredOp (mode y : Nat) (a b : Word) : Word :=
  match mode with
  | 0 => if y = 3 then w64 (roundEx f32 0 0 (addEx 0 (decF f32 (lo32 a).toNat) (decF f32 (lo32 b).toNat))).1 else a + b
  | 1 => if y = 3 then w64 (minMaxF f32 false (lo32 a).toNat (lo32 b).toNat).1 else if y = 4 then (if a.toInt ≤ b.toInt then a else b) else (if a.toNat ≤ b.toNat then a else b)
  | 2 => if y = 3 then w64 (minMaxF f32 true (lo32 a).toNat (lo32 b).toNat).1 else if y = 4 then (if a.toInt ≤ b.toInt then b else a) else (if a.toNat ≤ b.toNat then b else a)
  | 3 => a &&& b
  | 4 => a ||| b
  | _ => a ^^^ b

def gredId (mode y : Nat) : Word :=
  match mode with
  | 1 => if y = 3 then 0x7F800000 else if y = 4 then 0x7FFFFFFFFFFFFFFF else 0xFFFFFFFFFFFFFFFF
  | 2 => if y = 3 then 0xFF800000 else if y = 4 then 0x8000000000000000 else 0
  | 3 => 0xFFFFFFFFFFFFFFFF
  | _ => 0

/-- One level of the tree: neighbours combined, an unpaired last entry passes on. -/
def treePass {α : Type} (op : α → α → α) : List α → List α
  | a :: b :: t => op a b :: treePass op t
  | l => l

/-- The fixed tree of R369. -/
def treeFold {α : Type} (op : α → α → α) (z : α) : Nat → List α → α
  | _, [] => z
  | _, [a] => a
  | 0, a :: _ => a
  | n + 1, l => treeFold op z n (treePass op l)

/-- Contributions in ascending member key. -/
def byKey (l : List Part) : List Part :=
  l.foldl (fun s x => s.takeWhile (fun y => decide (y.key ≤ x.key)) ++ x :: s.dropWhile (fun y => decide (y.key ≤ x.key))) []

/-- What a group wait writes when its phase has completed. [DEDUCED, assumption log 16] -/
def groupResult (parts : List Part) (phase : Word) (act : GroupAct) (lanes : Mask) (c : Crew) : Crew :=
  match act with
  | .wait => c
  | .bar d => putUniform c d phase tI64 lanes
  | .vote d all =>
    let vs := parts.filter (fun p => p.ins == 1)
    let r := if all then vs.all (fun p => p.val != 0) else vs.any (fun p => p.val != 0)
    putUniform c d (w64 (b2n r)) tN32 lanes
  | .red d mode y =>
    let vs := byKey (parts.filter (fun p => p.ins == 2 && p.mode == mode && p.y == y))
    putUniform c d (treeFold (gredOp mode y) (gredId mode y) vs.length (vs.map (·.val))) (BitVec.ofNat 4 (tyTag y)) lanes

/-- Contributions of completed phases that no crew waits for any longer go. -/
def groupTidy (m : Mach) (g : Nat) : Mach :=
  let waits (p : Nat) (c : Crew) : Bool :=
    match c.status with
    | .parked (.group i q _ _) _ => i == g && q.toNat == p
    | .polling (.group i q _ _) _ => i == g && q.toNat == p
    | _ => false
  match m.group g with
  | some x => m.setGroup { x with past := x.past.filter (fun e => m.crews.any (waits e.1)) }
  | none => m

/-! ### Joins (R382, R383, R391, R393) -/

/-- The merge and the new epoch (R374, R391): `p` is the pedigree after. -/
def joined (reds : List RedEnt) (p : Ped) (k : Half) (c : Crew) : Crew :=
  { c with merged := joinViews reds c, eddies := [], kids := [], kseg := 0, ped := p, draw := 0, sid := 0, rrk := k }

/-- The stores of `rfin` (R393). [DEDUCED, assumption log 22] -/
def rfinStores (m : Mach) (c : Crew) (r : Nat) : List (Acc × List Byte) :=
  match (redsOf m c)[r]? with
  | none => []
  | some e =>
    let v := smGet viewEmpty c.merged r
    let lane := lowLane (going c)
    if e.kind = 9 then
      let recs := (v.recs.take e.nelem).flatMap id
      ({ lane := lane, va := e.result, size := 8 }, toBytes 8 v.recs.length) ::
        (List.range recs.length).map (fun i => ({ lane := lane, va := e.result + 8 + i, size := 1 }, [recs.getD i 0]))
    else
      let sz := if redWide e.kind then 8 else 4
      (List.range e.nelem).map (fun i => ({ lane := lane, va := e.result + sz * i, size := sz }, toBytes sz (redOut e.kind (rvGet e.kind v i)).toNat))

/-! ### The end of a task (R257, R312, R391) -/

/-- The record of a child that has ended: its final views, kept until the parent's join. -/
def kidEnded (tid : Nat) (views : List (Nat × RView)) (c : Crew) : Crew :=
  { c with kids := c.kids.map (fun k => if k.tid = tid then { k with ended := true, views := views } else k) }

/-- Tell the parent of a task that it has ended. -/
def tellParent (m : Mach) (parent tid : Nat) (views : List (Nat × RView)) : Mach :=
  let m := m.modCrew parent (kidEnded tid views)
  match m.crew parent with
  | some c =>
    (match c.status with
     | .parked (.join k) _ => if waitHolds m c (.join k) then m.wakes parent else m
     | _ => m)
  | none => m

/-- The views of a root whose task has ended join the launch's (R391); handler tasks' views are dropped. -/
def keepRoot (m : Mach) (c : Crew) (views : List (Nat × RView)) : Mach :=
  if pedH c.ped0 || c.parent ≠ 0 then m
  else m.modLaunch c.launch (fun l =>
    { l with rootViews := (List.range l.reds.length).foldl (fun v r => smSet viewEmpty v (16 * pedRoot c.ped0 + r) (smGet viewEmpty views r)) l.rootViews })

/-- A trapped task is ended (R257): it waits for its children and its views are dropped. -/
def dropTrapped (c : Crew) (clk : Nat) : Crew :=
  { c with status := .parked (.join .taskEnd) clk, woken := false, dropped := true, eddies := [], merged := [], live := 0, seg := [], resumable := false }

/-- A task whose children have all ended ends (R95, R391); a handler that answered no record ends the task it handles, n levels at most. -/
def finishTask : Nat → Mach → Nat → Mach
  | 0, m, _ => m
  | n + 1, m, tid =>
    match m.crew tid with
    | none => m
    | some c =>
      let views := if c.dropped then [] else joinViews (redsOf m c) c
      let m := keepRoot m c views
      let m := if c.parent = 0 then m else tellParent m c.parent tid views
      let owed : List TrapEnt := match m.launch c.launch with | some l => l.traps.filter (fun t => t.handler == tid && !t.answered) | none => []
      let m := m.modLaunch c.launch (fun l =>
        { l with traps := (l.traps.filter (fun t => t.tid != tid)).map (fun t => if t.handler = tid then { t with answered := true } else t) })
      let m := owed.foldl (fun (m : Mach) (t : TrapEnt) =>
        let m := m.modCrew t.tid (fun k => dropTrapped k m.clk)
        match m.crew t.tid with
        | some k => if k.kids.all (fun x => x.ended) then finishTask n m t.tid else m
        | none => m) m
      decLaunch (dropTask m c false) c.launch

/-- END of a trapped task. -/
def endTrapped (m : Mach) (tid : Nat) : Mach :=
  let m := m.modCrew tid (fun k => dropTrapped k m.clk)
  match m.crew tid with
  | some k => if k.kids.all (fun x => x.ended) then finishTask 64 m tid else m
  | none => m

/-! ### A wait ends -/

/-- The join of an `rfin` is over and its stores follow, in the new segment (R243, R393). A store that traps leaves the crew as before the `rfin` (R248); one that
has to wait is made again a cycle later. -/
def rfinFinish (m : Mach) (tid r : Nat) (pc : Word) (active : Mask) : Mach :=
  let was := m.cur.tid
  let f := (goOn m tid (fun c => joined (redsOf m c) (pedJoin c.ped) c.rrk c)).focus tid
  let before : Mach := m.modCrew tid (fun c => setPcs c active pc)
  let st := rfinStores f f.cur r
  match (do sbStall f f.cur true (st.map (·.1)); plainStores f pc st : R Mach) with
  | .ok f => f.focus was
  | .error (.trap e) => takeTrap before tid { e with pc := pc }
  | .error (.after e side) => takeTrap (side before) tid { e with pc := pc }
  | .error (.stall _ side) => ((side m).modCrew tid (fun c => { c with status := .parked (.join (.rfin r pc active)) m.clk })).due (.waitEvent tid)

/-- The crew whose wait has ended does what the wait was for, and goes on. -/
def waitFinish (m : Mach) (tid : Nat) (w : Wait) : Mach :=
  match m.crew tid with
  | none => m
  | some c =>
    match w with
    | .join .join => goOn m tid (fun c => joined (redsOf m c) (pedJoin c.ped) c.rrk c)
    | .join .preroot => goOn m tid (fun c => joined (redsOf m c) (pedReroot c.ped) (lo32 (pdig c.ped)) c)
    | .join (.rfin r pc active) => rfinFinish m tid r pc active
    | .join .taskEnd => finishTask 64 m tid
    | .cell _ _ _ => goOn m tid id
    | .monitor => goOn m tid (fun c => { c with demoted := true, monitor := { c.monitor with armed := false, fired := false } })
    | .group g p act lanes =>
      let parts := match m.group g with | some x => (smFind x.past p.toNat).getD [] | none => []
      groupTidy (goOn m tid (groupResult parts p act lanes)) g
    | .coll t d =>
      let st := match c.tickets.find? (fun x => x.id == t) with | some x => x.status.getD 0 | none => 5
      goOn m tid (fun c => putUniform { c with tickets := c.tickets.map (fun x => if x.id = t then { x with consumed := true } else x) } d
        (if st = 0 then 0 else w64 (2 ^ 63 + st)) tI64 0)

/-- The crew takes an entry of its die's wait table, whose occupancy is sampled (R31). -/
def parkAt (m : Mach) (c : Crew) (w : Wait) : Mach :=
  let m := m.setCrew { c with status := .parked w m.clk, woken := false }
  monSample m .waitTable (dieOf c.core) (tableUsed m (dieOf c.core))

/-- The crew waits (R116, R118): it goes on at once when the condition holds, parks while its die's table has room, and polls otherwise. -/
def park (m : Mach) (tid : Nat) (w : Wait) : Mach :=
  match m.crew tid with
  | none => m
  | some c =>
    if waitHolds m c w then waitFinish m tid w
    else if tableUsed m (dieOf c.core) < 2048 then parkAt m c w
    else m.setCrew { c with status := .polling w (m.clk + 2048) }

/-- A message for a crew passes the cores that it has migrated from: their forwarding entries live on (R265). -/
def passOn (m : Mach) (tid : Nat) : Mach :=
  if m.cores.any (fun e => e.2.fwd.any (fun f => f.tid == tid)) then
    { m with cores := m.cores.map (fun e => (e.1, { e.2 with fwd := e.2.fwd.map (fun f => if f.tid = tid then { f with since := m.clk } else f) })) }
  else m

/-- The event that ends a wait reaches the crew, by way of the core at which it waited (R117, R265). What has ended the wait by then does not begin it anew. -/
def waitEventStep (m : Mach) (tid : Nat) : Mach :=
  match m.crew tid with
  | none => m
  | some c =>
    let m := passOn m tid
    match c.status with
    | .parked w _ => if c.woken || waitHolds m c w then waitFinish m tid w else m
    | _ => m

/-- A polling crew's test (R118). -/
def waitPollStep (m : Mach) (tid : Nat) : Mach :=
  match m.crew tid with
  | none => m
  | some c =>
    match c.status with
    | .polling w next =>
      if m.clk < next then m
      else
        let m := monCount m .waitPoll (dieOf c.core)
        if waitHolds m c w then waitFinish m tid w
        else if tableUsed m (dieOf c.core) < 2048 then parkAt m c w
        else m.setCrew { c with status := .polling w (next + 2048) }
    | _ => m

/-- A crew whose last live lane has executed `exit` (R312): the implicit join, then the end of its task. -/
def taskEnds (m : Mach) (tid : Nat) : Mach :=
  match m.crew tid with
  | some c => if c.live = 0 then park m tid (.join .taskEnd) else m
  | none => m

end Sys2Proof.Machine
end

