-- ==== Sys2Proof/Machine/Checks.lean ====
section
/-! DEFINITION. The operand roles of an instruction that depend on what its operands hold, and items 1 and 3 to 5 of the order in which trap
conditions are reported (R254, R349, R392, R400, R402, R421). -/

namespace Sys2Proof.Machine

/-! ### Roles that depend on values -/

/-- The index of a memory address whose register carries I64 is 64 bits wide, in an even `v` register or an `s` register (R349). `k`: the crew
as operand B sees it. -/
def wideIndex (k : Crew) (o : Opd) (r : Role) : Role :=
  match o with
  | .v i => if vTag k i.toNat = tI64 then { r with bits := 64, tags := if i.toNat % 2 = 0 then 0x1000 else 0 } else r
  | .s i => if sTag k i.toNat = tI64 then { r with bits := 64, tags := 0x1000 } else r
  | _ => r

/-- The reducer that operand A names: a constant or an `s` register of the crew as A sees it (R379, R388). -/
def redIndex (k : Crew) (f : Fields) : Nat :=
  match f.a with
  | .s r => (lo32 (sGet k r.toNat)).toNat
  | .imm i => i.toNat
  | .lit => f.lit.toNat
  | _ => 0

/-- The registers of a reducer's value: 32 or 64 bits, or for `append` the registers of a record, with the tags of the kind (R389, R392). -/
def redRole (e : RedEnt) (r : Role) : Role :=
  { r with bits := if redWide e.kind then 64 else 32, n := if e.kind = 9 then (e.reclen + 3) / 4 else 1,
           tags := if e.kind = 9 then tagsAny else redTags e.kind }

/-- The operand roles of an instruction of a crew. -/
def entryFor (m : Mach) (c : Crew) (op : Nat) (f : Fields) : Entry :=
  let e := (entryOf op f).getD {}
  if op = 0x80 ∨ op = 0x81 ∨ op = 0x86 ∨ op = 0x88 then { e with b := wideIndex (seenBy c (regsOf c e.b [] f.b) (m.freeCtr + 2)) f.b e.b }
  else if op = 0xBA ∨ op = 0xBB then
    match (redsOf m c)[redIndex (seenBy c (regsOf c e.a [] f.a) (m.freeCtr + 1)) f]? with
    | none => e
    | some r => if op = 0xBA then { e with d := { e.d with bits := if redWide r.kind then 64 else 32 } } else { e with c := redRole r e.c }
  else e

/-! ### REGRANGE and HANDLE beyond the operands' own registers -/

/-- REGRANGE of a reducer or an element (R392). -/
def redRange (x : Ctx) (i n : Nat) : Halt := regRange x.low i n

/-- The reducer that A names, with its entry of the launch's map (R388). [DEDUCED, assumption log 24] -/
def redArg (m : Mach) (x : Ctx) : R (Nat × RedEnt) :=
  let r := redIndex x.ca x.f
  let reds := redsOf m m.cur
  match reds[r]? with
  | some e => .ok (r, e)
  | none => .error (redRange x r reds.length)

/-- The element that B names in a lane. -/
def redElem (x : Ctx) (L : Nat) : Nat := (opB x 2 L).toNat

/-- The operand through which a reducer instruction moves a value: D of `rview`, C of `racc`. -/
def redOpd (x : Ctx) : Opd := if x.op = 0xBA then x.f.d else if x.op = 0xBB then x.f.c else .none

/-- REGRANGE of a lane of a reducer instruction: the reducer; a 64-bit value in an odd `v` register; a record that is not in `v` registers; the
element, which a record appended has none of (R392, R396). [DEDUCED, assumption log 24] -/
def redFits (m : Mach) (c : Crew) (x : Ctx) (L : Nat) : R Unit :=
  let r := redIndex x.ca x.f
  let reds := redsOf m c
  match reds[r]? with
  | none => .error (redRange x r reds.length)
  | some e =>
    let n := c.decl.vregs
    let elem : R Unit :=
      if x.op = 0xBC ∨ (x.op = 0xBB ∧ e.kind = 9) then .ok () else if e.nelem ≤ redElem x L then .error (regRange L (redElem x L) e.nelem) else .ok ()
    match redOpd x with
    | .v q => if redWide e.kind && q.toNat % 2 != 0 then .error (regRange L q.toNat n) else elem
    | .ind _ _ => elem
    | o => if x.op = 0xBB ∧ e.kind = 9 then .error (regRange L (encodeCode o) n) else elem

/-- HANDLE of the handle register that `lbase` binds (R421, R423). -/
def bindFits (c : Crew) (x : Ctx) : R Unit :=
  let k := match x.f.b with | .imm k => k.toNat | _ => 0
  let h := hGet c k
  match x.f.a with
  | .imm _ => .ok ()
  | _ =>
    if c.decl.handles ≤ k then .error (trapOf 0x06 none (w64 k) h 0 0)
    else if !hValid h then .error (trapOf 0x06 none (w64 k) h 1 0)
    else .ok ()

/-- A field fault of a descriptor or a parameter block: the value of `INFO1` (R400, R402, R419). -/
def fieldBad (info : Nat) : Halt := trapOf 0x02 none 0 (w64 info) 0 0

/-- The first field fault, when there is one. -/
def fieldFits : Option Nat → R Unit
  | some info => .error (fieldBad info)
  | none => .ok ()

/-- REGRANGE and HANDLE that depend on more than the operands' registers: reducers, landing bindings, load descriptors and parameter blocks
(R392, R400, R402, R421). A control core has no matrix unit: its PERM stands before its blocks are read. [DEDUCED, assumption log 26] -/
def ownRange (m : Mach) (c : Crew) (x : Ctx) (L : Nat) : R Unit :=
  match x.op with
  | 0xBA | 0xBB | 0xBC => redFits m c x L
  | 0xE4 => bindFits c x
  | 0xD0 => if isControl c.core then .ok () else fieldFits ((loadBad (sRecord x.ca x.f.a 4)).map (0x400 + ·))
  | 0xD1 => if isControl c.core then .ok () else fieldFits (stepBad c (sRecord x.ca x.f.a 8))
  | _ => .ok ()

/-! ### The order (R254) -/

/-- REGRANGE and HANDLE of an instruction, lane by lane: the operands', then its own. -/
def rangeCheck (m : Mach) (c : Crew) (x : Ctx) (e : Entry) : R Unit :=
  firstErr (fun L =>
    match firstErr (fun p => checkRange x [L] p.2.1 p.2.2.1 p.2.2.2) (positions x e) with
    | .error h => .error h
    | .ok _ => ownRange m c x L) (x.rlanes e)

/-- Items 1 and 3 to 5 of R254: within a check, the lowest lane is reported. [DEDUCED, assumption log 13] -/
def preCheck (m : Mach) (c : Crew) (x : Ctx) (e : Entry) : R Unit :=
  match checkShort m c x e with
  | .error h => .error h
  | .ok _ =>
    match rangeCheck m c x e with
    | .error h => .error h
    | .ok _ => firstErr (fun q => checkTag [q.1] q.2) (lanePositions x e)

end Sys2Proof.Machine
end

