-- ==== Sys2Proof/Machine/Issue.lean ====
section
/-! DEFINITION. How an instruction issues: Active lanes and guard, the checks before its effect, the count distance of fixed-latency results,
the advance of the PCs, and where it goes when it traps or stalls (R119, R161 to R165, R248, R254, R263, R267, R277, R278). -/

namespace Sys2Proof.Machine

/-- E: the Active lanes that pass the guard (R277). -/
def guardSet (c : Crew) (f : Fields) (active : Mask) : Mask :=
  match f.guard with
  | some g => if f.neg then active &&& ~~~ pGet c g.val else active &&& pGet c g.val
  | none => if f.neg then 0 else active

/-- Bytes of an instruction (R267). -/
def lenOf (f : Fields) : Nat := if f.wide then 16 else 8

/-- The count of an instruction: max(S, 1) (R162). -/
def countOf (f : Fields) : Nat := max f.stall.toNat 1

/-- Count distances after an instruction; results that every consumer reads correctly from here on go (R162). [DESIGN CHOICE, assumption log 9] -/
def agePend (l : List Pend) (n : Nat) : List Pend := (l.map (fun q => { q with dist := q.dist + n })).filter (fun q => decide (q.dist < q.lat))

/-- The crew after an instruction has issued: PCs of the Active lanes past it, counts, the cycle until which its stall count holds it, stamp, boost and
demotion (R120, R123, R162, R267). A crew that its stall count holds becomes ready when it ends. -/
def retire (c : Crew) (x : Ctx) : Crew :=
  let n := countOf x.f
  { setPcs c x.active (x.pc + w64 x.len) with
    pend := agePend c.pend n
    stamp := if n = 1 then x.clk else x.clk + n
    holdTo := x.clk + n
    stall := none
    demoted := false
    placed := 0
    viewWait := []
    atHome := if c.stall = some .engine then c.atHome else { lines := [], op := 0 }
    boostLeft := if c.boostAt + 2048 ≤ x.clk then 0 else c.boostLeft - 1 }

/-- The registers that an instruction writes, each with the lanes in which it does. -/
def written (c : Crew) (x : Ctx) (e : Entry) : List ((Nat × Nat) × Mask) :=
  let ds := (positions x e).filter (fun p => p.2.1.dst)
  let regs := (ds.flatMap (fun p => regsOf c p.2.1 x.lanes p.2.2.1)).eraseDups
  regs.map (fun r => (r, if r.1 = 0 ∨ r.1 = 2 then maskOf (x.lanes.filter (fun L => ds.any (fun p => (regsOf c p.2.1 [L] p.2.2.1).contains r))) else BitVec.allOnes 64))

/-- The results of a fixed-latency instruction that a consumer may come too early for, with what they replace (R161, R163). -/
def newPend (c : Crew) (x : Ctx) (e : Entry) : List Pend :=
  let lat := latency x.op
  if lat ≤ countOf x.f then []
  else (written c x e).map (fun w => { pc := x.pc, lat := lat, dist := countOf x.f, lanes := w.2, saved := saveReg c w.1 })

/-- A result stops being the producer of the lanes that a later instruction writes. -/
def overwrite (l : List Pend) (w : List ((Nat × Nat) × Mask)) : List Pend :=
  (l.map (fun q => match w.find? (fun e => e.1 == savedReg q.saved) with | some e => { q with lanes := q.lanes &&& ~~~e.2 } | none => q)).filter (fun q => q.lanes != 0)

/-- Register results of an instruction join those that are in flight. -/
def addPend (k : Crew) (w : List ((Nat × Nat) × Mask)) (new : List Pend) : Crew :=
  { k with pend := (if k.pend.isEmpty then [] else overwrite k.pend w) ++ new }

/-- Registers that an instruction overwrites in every lane hold no error any more (R416). -/
def unpoison (c : Crew) (x : Ctx) (e : Entry) (k : Crew) : Crew :=
  if c.poison.isEmpty ∨ x.e ≠ lanesBelow c.width then k
  else
    let regs := (positions x e).flatMap (fun p => if p.2.1.dst then regsOf c p.2.1 x.lanes p.2.2.1 else [])
    { k with poison := k.poison.filter (fun q => !regs.contains (0, q.1)) }

/-- What an instruction issues with. -/
def mkCtx (m : Mach) (c : Crew) (pc : Word) (op : Nat) (f : Fields) (e : Entry) : Ctx :=
  let active := activeLanes c
  let kg := match f.guard with | some g => seenBy c [(2, g.val)] (m.freeCtr + 4) | none => c
  let es := guardSet kg f active
  let see (i : Nat) (r : Role) (o : Opd) : Crew := seenBy c (readsOf c r (lanesOf es) o) (m.freeCtr + i)
  { pc := pc, len := lenOf f, op := op, f := f, active := active, e := es, cd := see 0 e.d f.d, ca := see 1 e.a f.a, cb := see 2 e.b f.b,
    cc := see 3 e.c f.c, clk := m.clk, free := m.freeCtr,
    modIdx := (match m.job c.job with | some j => (match j.domain with | some d => m.modIn d | none => 0) | none => 0) }

/-- A crew that waits before its instruction: from now, or, where it waits for the same already, since it first did (R242). Its ready stamp stays (R120). -/
def stalledAt (clk : Nat) (w : Stall) (c : Crew) : Crew := { c with stall := some w, waitAt := if c.stall = some w then c.waitAt else clk }

/-- Where an instruction that has no effect goes: to its trap, or to wait before itself (R248, R263). `m` is the state before it. A crew that finds every
way of a set held by speculative lines hardens its segment, when it has one, and looks again (R196, R205). [DEDUCED, assumption log 11] -/
def halted (m : Mach) (tid : Nat) (pc : Word) (h : Halt) : Mach :=
  match h with
  | .trap e => takeTrap (m.modCrew tid (fun c => { c with stall := none })) tid { e with pc := pc }
  | .after e side => takeTrap ((side m).modCrew tid (fun c => { c with stall := none })) tid { e with pc := pc }
  | .stall .specWay side =>
    let at' (m : Mach) (w : Stall) : Mach := m.modCrew tid (stalledAt m.clk w)
    let part := side m
    if part.cur.tid ≠ tid ∨ part.cur.seg = [] then at' part .specWay
    else
      match commitHard part with
      | .ok m => at' m .specWay
      | .error (.trap e) => takeTrap (m.modCrew tid (fun c => { c with stall := none })) tid { e with pc := pc }
      | .error (.after e _) => takeTrap (m.modCrew tid (fun c => { c with stall := none })) tid { e with pc := pc }
      | .error (.stall w side) => at' (side part) w
  | .stall w side => (side m).modCrew tid (stalledAt m.clk w)

/-- The lanes and operands with which the current crew issues an instruction at `pc`. -/
def issueCtx (m : Mach) (pc : Word) (op : Nat) (f : Fields) : Ctx := mkCtx m m.cur pc op f (entryFor m m.cur op f)

/-- The machine as the meaning finds it: the PCs have advanced, and the result registers count from here (R162, R267). -/
def issued (m : Mach) (pc : Word) (op : Nat) (f : Fields) : Mach :=
  let c := m.cur
  let e := entryFor m c op f
  let x := issueCtx m pc op f
  { m with cur := unpoison c x e (addPend (retire c x) (written c x e) (newPend c x e)), freeCtr := m.freeCtr + readsTaken c }

/-- An instruction of the current crew, issued at `pc`: the meaning `body` acts on the state in which the PCs have advanced. [DEDUCED, assumption log 11; DEDUCED, assumption log 37] -/
def issueAt (m : Mach) (pc : Word) (op : Nat) (f : Fields) (body : Ctx → Mach → R Mach) : Mach :=
  let c := m.cur
  let e := entryFor m c op f
  let x := issueCtx m pc op f
  if x.e = 0 then { m with cur := retire c x, freeCtr := m.freeCtr + readsTaken c }
  else
    match preCheck m c x e with
    | .error h => halted m c.tid pc h
    | .ok _ =>
      match body x (issued m pc op f) with
      | .ok m' => m'
      | .error h => halted m c.tid pc h

/-- Can the current crew issue, and where? A crew whose aperture read, atomic or `cas` is outstanding waits for its completion (assumption
log 9), and one that has been stopped to leave its slots issues nothing (R262). [DESIGN CHOICE, assumption log 9] -/
def canIssue (c : Crew) : Option Word := if c.status = .ready ∧ c.slots ≠ [] ∧ c.ap.isNone ∧ c.leaving = false then issueAddr c else none

/-- The shape of every instruction of the opcode map. A trap detected late is delivered at this boundary instead (R250). [DEDUCED, assumption log 8] -/
def runInstr (op : Nat) (body : Ctx → Mach → R Mach) (f : Fields) (s : State) : Host.Outcome State Fault Refusal :=
  match canIssue s.m.cur with
  | none => .fault .notReady
  | some pc =>
    match s.m.cur.late with
    | some e => .next { s with m := takeTrap s.m s.m.cur.tid e }
    | none => .next { s with m := issueAt s.m pc op f body }

/-- A meaning that only changes the current crew. -/
def onCrew (g : Ctx → Crew → Crew) (x : Ctx) (m : Mach) : R Mach := .ok { m with cur := g x m.cur }

/-- The shape of every event: a change of the machine. -/
def runEvent (g : Mach → Mach) (s : State) : Host.Outcome State Fault Refusal := .next { s with m := g s.m }

/-- A privilege check of R424 that fails. -/
def permOp (x : Ctx) : Halt := trapOf 0x21 none 0 (w64 x.op) 0 0

end Sys2Proof.Machine
end

