-- ==== Sys2Proof/Machine/Pipe.lean ====
section
/-! DEFINITION. Pipelines: the sender's window, the rings, NACKs and resends, and the governor (R111 to R115). -/

namespace Sys2Proof.Machine

/-- Key of a ring at its senders. -/
def ringKey (launch ring : Nat) : Nat := 8 * launch + ring

/-- Change one stage of a launch. -/
def stageMod (m : Mach) (launch ring : Nat) (f : Stage → Stage) : Mach :=
  m.modLaunch launch (fun l => { l with stages := (l.stages.zip (List.range l.stages.length)).map (fun e => if e.2 = ring then f e.1 else e.1) })

/-- Slots of the pool in use. -/
def poolUsed (l : Launch) : Nat := l.stages.foldl (fun t s => t + s.borrowed.length) 0

def windowMod (m : Mach) (core : Nat) (p : StageItem → Bool) (f : StageItem → StageItem) : Mach :=
  m.modCore core (fun k => { k with window := k.window.map (fun w => if p w then f w else w) })

/-- An item reaches its ring: accepted in its sender's order when a slot is free, else NACKed (R113, R114). An item that enters samples the ring's occupancy
(R31); which unit number a ring has is open. [DESIGN CHOICE, assumption log 9] -/
def stageArrive (m : Mach) (core : Nat) : Mach :=
  match (m.core core).window.find? (fun w => !w.nacked && !w.accepted) with
  | none => m
  | some w =>
    let me (v : StageItem) : Bool := v.launch == w.launch && v.ring == w.ring && v.seq == w.seq
    match m.launch w.launch with
    | none => m
    | some l =>
      match l.stages[w.ring]? with
      | none => m
      | some st =>
        let own := decide (st.items.length - st.borrowed.length < st.ring)
        let lend := decide (poolUsed l < l.pool)
        if smGet 0 st.expect core = w.seq ∧ (own || lend) = true then
          let m := stageMod m w.launch w.ring (fun s =>
            { s with items := s.items ++ [w.task], borrowed := if own then s.borrowed else s.borrowed ++ [w.task.tid], expect := smSet 0 s.expect core (w.seq + 1) })
          let m := monSample m .stageRing (8 * w.launch + w.ring) (st.items.length + 1)
          (windowMod m core me (fun v => { v with accepted := true })).due (.stageItemAck core)
        else
          let m := windowMod m core me (fun v => { v with nacked := true })
          m.modCore core (fun k =>
            match smFind k.resendAt (ringKey w.launch w.ring) with
            | some _ => k
            | none => { k with resendAt := smPut k.resendAt (ringKey w.launch w.ring) (m.clk + l.backoffC) })

/-- The acknowledgement of the oldest accepted item frees its place in the window (R114). -/
def stageAck (m : Mach) (core : Nat) : Mach :=
  m.modCore core (fun k =>
    let i := (k.window.takeWhile (fun w => !w.accepted)).length
    { k with window := k.window.take i ++ k.window.drop (i + 1) })

/-- The items of a ring whose wait has ended go out again in their order (R114). -/
def stageResendStep (m : Mach) (core : Nat) : Mach :=
  match (m.core core).resendAt.find? (fun e => decide (e.2 ≤ m.clk)) with
  | none => m
  | some (key, _) =>
    let n := ((m.core core).window.filter (fun w => ringKey w.launch w.ring == key && w.nacked)).length
    let m := windowMod m core (fun w => ringKey w.launch w.ring == key) (fun w => { w with nacked := false })
    let m := m.modCore core (fun k => { k with resendAt := smErase k.resendAt key })
    (List.range n).foldl (fun m _ => m.due (.stageItemArrival core)) m

/-- A stage spawn: the record enters the window of its core; none when the window is full (R111, R114). -/
def stageSend (m : Mach) (core ring : Nat) (r : TaskRec) : Option Mach :=
  if 16 ≤ (m.core core).window.length then none
  else
    let key := ringKey r.launch ring
    let seq := smGet 0 (m.core core).seqs key
    let m := m.modCore core (fun k =>
      { k with window := k.window ++ [{ launch := r.launch, ring := ring, seq := seq, task := { r with kind := .stage, stage := ring }, nacked := false, accepted := false }],
               seqs := smSet 0 k.seqs key (seq + 1) })
    some (m.due (.stageItemArrival core))

/-- Cores assigned to a stage. -/
def stageCores (m : Mach) (launch ring : Nat) : List Nat := (m.cores.filter (fun e => e.2.assign.contains (launch, ring))).map (·.1)

/-- The governor's sample (R115): occupancies are compared as fractions of RING; the core that moves finishes the stage tasks that it runs before it pulls from
its new ring. -/
def governorStep (m : Mach) (launch : Nat) : Mach :=
  match m.launch launch with
  | none => m
  | some l =>
    if l.govint = 0 || l.done || !l.started then m
    else
      let m := m.modLaunch launch (fun l => { l with govAt := m.clk + 1024 * l.govint })
      let st := l.stages.zip (List.range l.stages.length)
      let n (k : Nat) : Nat := (stageCores m launch k).length
      let rec? := (st.filter (fun e => decide (e.1.hi * e.1.ring ≤ 100 * e.1.items.length ∧ n e.2 < e.1.maxc))).foldl
        (fun (b : Option (Stage × Nat)) e =>
          match b with | none => some e | some x => if x.1.items.length * e.1.ring < e.1.items.length * x.1.ring then some e else some x) none
      let don? := (st.filter (fun e => decide (100 * e.1.items.length < e.1.lo * e.1.ring ∧ e.1.minc < n e.2))).foldl
        (fun (b : Option (Stage × Nat)) e =>
          match b with | none => some e | some x => if e.1.items.length * x.1.ring ≤ x.1.items.length * e.1.ring then some e else some x) none
      match rec?, don? with
      | some r, some d =>
        if r.2 = d.2 then m
        else
          match (stageCores m launch d.2).foldl (fun b c => max b (c + 1)) 0 with
          | 0 => m
          | c + 1 =>
            let runs := (m.crews.filter (fun k => k.core == c && k.launch == launch && k.kind == .stage)).map (fun k => (launch, k.tid))
            m.modCore c (fun k => { k with assign := k.assign.map (fun a => if a = (launch, d.2) then (launch, r.2) else a)
                                           moving := k.moving.filter (fun a => a.1 != launch) ++ runs })
      | _, _ => m

/-- An item arrives at its ring. -/
def execStageItemArrival (core : Nat) (s : State) : Host.Outcome State Fault Refusal := runEvent (fun m => stageArrive m core) s
/-- An item is acknowledged. -/
def execStageItemAck (core : Nat) (s : State) : Host.Outcome State Fault Refusal := runEvent (fun m => stageAck m core) s
/-- Items are sent again. -/
def execStageResend (core : Nat) (s : State) : Host.Outcome State Fault Refusal := runEvent (fun m => stageResendStep m core) s
/-- The governor samples (R115). -/
def execGovernorSample (launch : Nat) (s : State) : Host.Outcome State Fault Refusal := runEvent (fun m => governorStep m launch) s

end Sys2Proof.Machine
end

