-- ==== Sys2Proof/Machine/Plans.lean ====
section
/-! DEFINITION. What the schedulers' agents would do next, and which event's time has come: rank, reclaim, pre-emption, stealing, migration,
timeouts (R40, R80, R97, R98, R102, R103, R114, R115, R118, R121, R125, R265). -/

namespace Sys2Proof.Machine

/-- May a crew issue in this cycle, as far as its state says: it waits for nothing, its stall count has run out, and no queue holds it (R93, R120)? -/
def isReady (m : Mach) (c : Crew) : Bool := (canIssue c).isSome && decide (c.holdTo ≤ m.clk) && !queueing m c.tid

/-- Does a crew hold barrier-completion boost (R123)? -/
def boosted (clk : Nat) (c : Crew) : Bool := c.boostLeft != 0 && decide (clk < c.boostAt + 2048)

/-- Rank of ready crews (R121): age override, class, boost, demotion, age, slot. -/
def rankKeys (clk : Nat) (c : Crew) : List Nat :=
  [if c.stamp + 448 ≤ clk then 0 else 1, if c.stamp + 448 ≤ clk then c.stamp else 0, c.cls, if boosted clk c then 0 else 1, b2n c.demoted,
   c.stamp, c.slots.headD 0, c.tid]

/-- Lexicographic order. -/
def lexLt : List Nat → List Nat → Bool
  | a :: s, b :: t => decide (a < b) || (a == b && lexLt s t)
  | _, _ => false

/-! ### Reclaim (R97) -/

/-- Classes of the work that waits for a slot of a core. -/
def waitingClasses (m : Mach) (core : Nat) : List Nat :=
  (m.core core).deque.map (·.cls) ++ (match lowClass (m.die (dieOf core)) with | some c => [c] | none => []) ++
  (m.crews.filter (fun c => c.core == core && c.resumable && c.slots.isEmpty)).map (·.cls)

/-- The parked crew whose slot a core reclaims: the earliest to park, then the lowest slot. -/
def reclaimPlan (m : Mach) (core : Nat) : Option Nat :=
  let old := (residents m core).filterMap (fun c => match c.status with | .parked _ since => if since + 2048 ≤ m.clk then some (since, c) else none | _ => none)
  if old.isEmpty ∨ !(freeSlots m core).isEmpty then none
  else
    let work := waitingClasses m core
    let ok := old.filter (fun e => work.any (fun k => decide (k ≤ e.2.cls)))
    let first (a b : Nat × Crew) : Bool := decide (a.1 < b.1 ∨ (a.1 = b.1 ∧ a.2.slots.headD 0 < b.2.slots.headD 0))
    (ok.foldl (fun b e => match b with | none => some e | some x => if first e x then some e else some x) (none : Option (Nat × Crew))).map (·.2.tid)

/-! ### Pre-emption (R79, R80, R125) -/

/-- The lowest-ranked resident crew of a core. -/
def lowestRanked (m : Mach) (core : Nat) : Option Crew :=
  (residents m core).foldl (fun b c => match b with | none => some c | some x => if lexLt (rankKeys m.clk x) (rankKeys m.clk c) then some c else some x) none

/-- The record that starts pre-emption on a die, and its victim. [DEDUCED, assumption log 22] -/
def preemptPlan (m : Mach) (die : Nat) : Option (TaskRec × Crew) :=
  let d := m.die die
  match bestRec m die with
  | none => none
  | some r =>
    let cores := ((List.range 40).map (fun i => 40 * die + (d.prePtr + i) % 40)).filter (present m)
    if d.best.1 ≠ r.tid ∨ m.clk < d.best.2 + 64 ∨ cores.any (fun c => !(freeSlots m c).isEmpty) ∨
       m.crews.any (fun c => (match c.pre with | some p => p.byTid == r.tid | none => false)) then none
    else
      let vs := (cores.filterMap (lowestRanked m)).filter (fun c => decide (r.cls < c.cls) && c.pre.isNone && !c.leaving)
      (vs.foldl (fun b c => match b with | none => some c | some x => if x.cls < c.cls then some c else some x) (none : Option Crew)).map (fun c => (r, c))

/-! ### Stealing (R102, R103) -/

/-- The victim sequence of a compute core, fused-off cores skipped. -/
def victimSeq (m : Mach) (c : Nat) : List Nat :=
  let d := c / 40
  let i := c % 40
  ((List.range 39).map (fun j => 40 * d + (i + j + 1) % 40) ++
   (List.range 7).flatMap (fun e => (List.range 40).map (fun j => 40 * (d ^^^ (e + 1)) + (i + j) % 40))).filter (present m)

/-- May a core send a steal request? -/
def maySteal (m : Mach) (c : Nat) : Bool :=
  let k := m.core c
  present m c && running m c && decide (c < 320) && k.backoff.isNone && decide (k.asked.length < 2) && !(freeSlots m c).isEmpty && noWork m c

/-- The cores that send a steal request in a cycle, in the order of the per-cycle pointer: each that may and that has none outstanding (R102). [DESIGN CHOICE,
assumption log 22] -/
def stealPlan (m : Mach) : List Nat := if m.released < 3 then [] else (coresFrom m).filter (fun c => (m.core c).asked.isEmpty && maySteal m c)

/-! ### Migration (R98, R264, R265) -/

/-- Would a core take the crew from another core of its die next? -/
def migratePlan (m : Mach) (crew core : Nat) : Option Source :=
  match pickWork m core, srcResume m core with
  | some p, some s => if p.rank = 1 ∧ (m.crew crew).any (fun c => c.core != core) ∧ (resumeList m core).head?.any (fun c => c.tid == crew) then some s else none
  | _, _ => none

/-! ### Whose time has come -/

/-- Cycles of a completion timeout, which is in microseconds (R4, R40). -/
def apLimit (m : Mach) : Nat := m.cplTimeout * 1800

/-- What is due for a crew: a pre-emption deadline missed, a poll of the wait table, a completion that did not come. -/
def crewEvent (m : Mach) (c : Crew) : Option Instr :=
  if !c.slots.isEmpty && (match c.pre with | some p => decide (p.deadline < m.clk) | none => false) then some (.yieldforced c.tid)
  else
    match c.status, c.ap with
    | .polling _ next, _ => if next ≤ m.clk then some (.waitPoll c.tid) else none
    | _, some q => if q.since + apLimit m ≤ m.clk then some (.apertureCompletionTimeout c.tid) else none
    | _, none => none

/-- What is due on a core: a resend, a forwarding entry, the end of a steal wait, a reclaim. -/
def coreEvent (m : Mach) (e : Nat × Core) : Option Instr :=
  if e.2.resendAt.any (fun r => decide (r.2 ≤ m.clk)) then some (.stageResend e.1)
  else if e.2.fwd.any (fun f => decide (f.since + 4096 ≤ m.clk)) then some .forwardingEntryExpiry
  else if e.2.backoff.any (fun t => decide (t ≤ m.clk)) then some .stealBackoffExpiry
  else none

/-- A resident parked crew's core reclaims its slot. -/
def reclaimEvent (m : Mach) (c : Crew) : Option Instr :=
  match c.status, c.slots with
  | .parked _ _, _ :: _ => if reclaimPlan m c.core = some c.tid then some (.parkedSlotReclaim c.core) else none
  | _, _ => none

/-- The governor's next sample of a launch. -/
def launchEvent (m : Mach) (e : Nat × Launch) : Option Instr :=
  if e.2.started && !e.2.done && e.2.govint != 0 && decide (e.2.govAt ≤ m.clk) then some (.governorSample e.1) else none

/-- Cycles of 50 and 250 microseconds (R4, R32, R50). -/
def resendCycles : Nat := 90000
def beatCycles : Nat := 450000

/-- Has a connection made no progress for 50 microseconds? -/
def connLate (m : Mach) (c : Conn) : Bool := !c.down && c.sent != 0 && decide (c.since + resendCycles ≤ m.clk)
/-- Has a peer missed three heartbeats? -/
def peerLost (m : Mach) (e : Nat × Nat) : Bool := decide (e.2 + 3 * beatCycles ≤ m.clk)

/-- The engine reads of the host's memory whose completions have not come in time. -/
def apEvents (m : Mach) : List Instr :=
  (m.apEng.filter (fun e => e.answer.isNone && decide (e.since + apLimit m ≤ m.clk))).map (fun e => .apertureCompletionTimeout (2 ^ 48 + e.num))

/-- What is due on the links. -/
def netEvents (m : Mach) : List Instr :=
  ((List.range m.net.conns.length).filter (fun i => m.net.conns[i]?.any (connLate m))).map .vftResendTimeout ++
  (m.net.heard.filter (peerLost m)).map (fun e => .heartbeatLoss e.1) ++
  (if m.net.hbAt ≤ m.clk && m.net.conns.any (fun c => !c.down) then [.heartbeatTransmit] else [])

/-- Cycles of 10 ms (R4, R37). -/
def snoopCycles : Nat := 18000000
/-- Has the host left a BISnp unanswered for 10 ms? -/
def snoopLate (m : Mach) : Bool := m.snoops.any (fun l => decide (smGet 0 m.snoopAt l + snoopCycles ≤ m.clk))

/-- The dies whose view engine has a block to recompute: one block a cycle each. -/
def viewEvents (m : Mach) : List Instr := (m.dies.filter (fun e => !e.2.dirty.isEmpty)).map (fun e => .viewRecompute e.1 0)

/-- The events whose time has come. [DESIGN CHOICE, assumption log 1; DESIGN CHOICE, assumption log 9] -/
def timedEvents (m : Mach) : List Instr :=
  m.crews.filterMap (crewEvent m) ++ m.cores.filterMap (coreEvent m) ++ m.launches.filterMap (launchEvent m) ++
  (m.dies.filter (fun e => (preemptPlan m e.1).isSome)).map (fun e => .preemptionRequest e.1) ++
  m.crews.filterMap (reclaimEvent m) ++ netEvents m ++ apEvents m ++ (if snoopLate m then [.bisnpTimeout] else []) ++
  (if m.crews.any (fun c => c.boostLeft != 0 && !boosted m.clk c) then [.boostExpiry] else []) ++
  viewEvents m ++ (stealPlan m).map .stealRequest

/-- Place of an event among those of its kind that come in one cycle: by the core that makes the request from the per-cycle pointer (R104, R113, R456),
by the segment whose record is tested from the slices' pointer (R106). Which number a segment has in that order is open: it takes its slice's.
[DESIGN CHOICE, assumption log 8] -/
def eventPlace (m : Mach) (i : Instr) : Nat :=
  match i with
  | .stageItemArrival c => fromPtr m c
  | .stealAnswer c => fromPtr m c
  | .dataflowEligibilityTest s _ => fromSlicePtr m s
  | _ => 0

/-- Do two events compete, so that their places order them? -/
def sameKind (i j : Instr) : Bool :=
  match i, j with
  | .stageItemArrival _, .stageItemArrival _ => true
  | .stealAnswer _, .stealAnswer _ => true
  | .dataflowEligibilityTest _ _, .dataflowEligibilityTest _ _ => true
  | _, _ => false

/-- Insert an event before the first of its kind that has a later place, else at the end. -/
def insertEvent (m : Mach) (i : Instr) : List Instr → List Instr
  | [] => [i]
  | j :: t => if sameKind i j && decide (eventPlace m i < eventPlace m j) then i :: j :: t else j :: insertEvent m i t

/-- The events of a cycle in their order. The agent number of Lennas, which starts a graph's launch nodes, is not given: their roots enter the segments in the order
of the launches' start events, among those of launches that crews have made (R93). [DESIGN CHOICE, assumption log 8] -/
def orderEvents (m : Mach) (l : List Instr) : List Instr := l.foldl (fun s i => insertEvent m i s) []

/-- n cycles go by: the ports send what waits for them, writes that wait at their homes try again, stopped crews leave their slots, images come to hold the state of crews that are switched out, the cores fill their free slots, what is due waits in its order, and no core has chosen what it issues.
[DESIGN CHOICE, assumption log 1] -/
def newCycle (n : Nat) (m : Mach) : Mach :=
  let m := fillAll (putImages (leaveAll (owedDrain { portsSend m with clk := m.clk + n })))
  let l := orderEvents m (m.todo ++ (timedEvents m).filter (fun i => !m.todo.contains i))
  { m with todo := l, evLeft := l.length, picks := none }

end Sys2Proof.Machine
end

