-- ==== Sys2Proof/Machine/Fetch.lean ====
section
/-! DEFINITION. What a crew executes when its turn comes: fetching at the issue address and passing block headers (R119, R279 to R283). -/

namespace Sys2Proof.Machine

/-! ### Fetch (R173, R254 item 2) -/

/-- Read n bytes of instruction words at the issue address. -/
def fetchBytes (m : Mach) (c : Crew) (pc : Word) (n : Nat) : R (Mach × List Byte) :=
  match checkAll m (whoOf c) 4 false [{ lane := lowLane (activeLanes c), va := pc.toNat, size := 8 }] with
  | .error h => .error h
  | .ok (m, oks) =>
    match oks with
    | o :: _ => .ok (m, memRead m.mem o.pa n)
    | [] => .ok (m, List.replicate n 0)

/-- An instruction's bytes: the first word and, when its `W` is set, the second (R267). -/
def fetchInstr (m : Mach) (c : Crew) (pc : Word) : R (Mach × List Byte) :=
  match fetchBytes m c pc 8 with
  | .error h => .error h
  | .ok (m, b) =>
    if bit (ofBytes b) 63 then
      match fetchBytes m c (pc + 8) 8 with
      | .error (.trap e) => .error (.trap e)
      | .error h => .error h
      | .ok (m, b2) => .ok (m, b ++ b2)
    else .ok (m, b)

/-! ### Block headers (R279 to R281) -/

/-- Is a word a block header? -/
def isHeader (w : Nat) : Bool := !bit w 63 && bits w 62 55 == 0xFF

def hdrReconv (w : Nat) : Int := toSigned 20 (bits w 33 14)
def hdrYield (w : Nat) : Bool := bit w 6
def hdrHandler (w : Nat) : Bool := bit w 8
def hdrEntry (w : Nat) : Bool := bit w 9

/-- The address of the reconvergence header when it lies outside the page and has not been read. -/
def reconvFar (c : Crew) (pc w : Nat) : Option Nat :=
  let t := wrapTo 64 (pc + 8 * hdrReconv w)
  if hdrReconv w = 0 ∨ t / 4096 = pc / 4096 ∨ c.reconvOk.contains (pc, t) then none else some t

/-- The Active lanes pass a header: the out-of-page `RECONV` target is read once, and `YIELDPT` lets a pending pre-emption in (R126, R280, R281). -/
def passHeader (m : Mach) (pc : Word) (w : Nat) : Mach :=
  let c := m.cur
  let go (m : Mach) (c : Crew) : Mach :=
    let m := { m with cur := setPcs c (activeLanes c) (pc + 8) }
    if hdrYield w && c.pre.isSome then preemptOut m c.tid else m
  match reconvFar c pc.toNat w with
  | none => go m c
  | some t =>
    match fetchBytes m c (w64 t) 8 with
    | .error h => halted m c.tid pc h
    | .ok (m', b) =>
      if isHeader (ofBytes b) then go m' { m'.cur with reconvOk := (pc.toNat, t) :: c.reconvOk }
      else halted m c.tid pc (trapOf 0x01 none (w64 t) (w64 (ofBytes b)) 0 0)

/-! ### Whose turn it is -/

/-- What a step executes. -/
inductive Turned where
  /-- an instruction of the current crew, or an event -/
  | run (i : Instr) (m : Mach)
  /-- the step is over -/
  | done (m : Mach)
  /-- the word fetched is no instruction that the scanner passes -/
  | unscanned

/-- Fetch and decode at the issue address of the current crew; a header there is passed first, in the same cycle (R280). [DEDUCED, assumption log 15] -/
def fetchTurn : Nat → Mach → Turned
  | 0, m => .done m
  | n + 1, m =>
    match canIssue m.cur with
    | none => .done m
    | some pc =>
      match m.cur.late with
      | some e => .done (takeTrap m m.cur.tid e)
      | none =>
        match fetchInstr m m.cur pc with
        | .error h => .done (halted m m.cur.tid pc h)
        | .ok (m', b) =>
          if isHeader (fld b 0 8) then fetchTurn n (passHeader m' pc (fld b 0 8))
          else
            match decodeBytes b with
            | .ok (i, _) => if i.wf then .run i m' else .unscanned
            | .error _ => .unscanned

/-- An event of a part's agent, as a turn. -/
def eventTurn (i : Instr) (m : Mach) : Turned := if i.isEvent then .run i m else .done m


end Sys2Proof.Machine
end

