-- ==== Sys2Proof/Machine/Flags.lean ====
section
/-! DEFINITION. Predicates, carries and sticky flags: every comparison and flag computation of the part (R146, R297, R298, R326, R332). -/

namespace Sys2Proof.Machine

/-- Is a type code one of the signed integers? -/
def isSigned (y : Nat) : Bool := y == 1 || y == 4

/-- An integer operand's value, signed by its type code (R292). -/
def iVal (y : Nat) (x : Word) : Int :=
  match y with
  | 1 => (lo32 x).toInt
  | 4 => x.toInt
  | _ => x.toNat

/-- `cmp` (R297). -/
def cmpMode (mode : Nat) (a b : Int) : Bool :=
  match mode with
  | 0 => a == b
  | 1 => a != b
  | 2 => decide (a < b)
  | 3 => decide (a ≤ b)
  | 4 => decide (b < a)
  | _ => decide (b ≤ a)

/-- `pbool`: bit (2a + b) of the table (R297). -/
def tableBit (t : Nat) (a b : Bool) : Bool := t.testBit (2 * b2n a + b2n b)

/-- The carry out of `addc`: whether the exact unsigned sum reaches 2^w (R298). [DEDUCED, assumption log 14] -/
def carryOut (w a b c : Nat) : Bool := decide (2 ^ w ≤ a + b + c)

/-- The result tag of a typed integer instruction (R292). -/
def intTag (y : Nat) : Tag := if y = 1 then tI32 else if y = 2 then tN32 else tI64

/-- ... of `add`, `sub` and `mad`, which give ADDR when operand A carries it. -/
def addTag (x : Ctx) : Tag :=
  let y := x.f.ty.toNat
  if tyBits y = 64 ∧ commonTag (opTags x.ca 64 1 (dLanes x x.f.d) x.f.a) = tADDR then tADDR else intTag y

/-- The sticky flags of several results (R326). -/
def allFlags (l : List (BitVec 5)) : BitVec 5 := l.foldl (· ||| ·) 0

/-- The comparison modes of `fcmp` (R332): 0 to 5 as `cmp`, 6 unordered, 7 ordered. -/
def fcmpMode (mode : Nat) (a b : FV) : Bool :=
  if isNan a || isNan b then mode == 1 || mode == 6
  else if mode = 6 then false
  else if mode = 7 then true
  else cmpMode mode (cmpFV a b) 0

/-- The flag of `fcmp`: NV for any NaN under modes 2 to 5, else for a signalling one (R332). -/
def fcmpFlags (mode : Nat) (a b : FV) : BitVec 5 :=
  if (2 ≤ mode ∧ mode ≤ 5) ∧ (isNan a || isNan b) then fNV else if isSig a || isSig b then fNV else 0

end Sys2Proof.Machine
end

