-- ==== Sys2Proof/Machine/IntOps.lean ====
section
/-! DEFINITION. Integer and logic instructions, opcodes 0x00 to 0x1F (R291 to R302). -/

namespace Sys2Proof.Machine

/-- Type code of the instruction. -/
def Ctx.y (x : Ctx) : Nat := x.f.ty.toNat

/-- A typed integer result of one operand. -/
def int1 (g : Nat → Int → Int) (x : Ctx) (c : Crew) : Crew :=
  putRes x (tyBits x.y) (x.y == 1) (intTag x.y) (fun L => ofI (g (tyBits x.y) (iVal x.y (opA x x.y L)))) c

/-- ... of two operands, with its tag. -/
def int2 (tag : Ctx → Tag) (g : Nat → Int → Int → Int) (x : Ctx) (c : Crew) : Crew :=
  putRes x (tyBits x.y) (x.y == 1) (tag x) (fun L => ofI (g (tyBits x.y) (iVal x.y (opA x x.y L)) (iVal x.y (opB x x.y L)))) c

/-- A bit-pattern result of A. -/
def bits1 (g : Nat → Nat → Nat) (x : Ctx) (c : Crew) : Crew :=
  putRes x (tyBits x.y) false (bitTagA x (tyBits x.y)) (fun L => w64 (g (tyBits x.y) (opA x x.y L).toNat)) c

/-- ... of A and B. -/
def bits2 (g : Word → Word → Word) (x : Ctx) (c : Crew) : Crew :=
  putRes x (tyBits x.y) false (bitTagAB x (tyBits x.y)) (fun L => g (opA x x.y L) (opB x x.y L)) c

/-- A shift or rotate: A as a bit pattern, the count in B (R292, R296). -/
def bitsShift (g : Nat → Nat → Nat → Nat) (x : Ctx) (c : Crew) : Crew :=
  putRes x (tyBits x.y) false (bitTagA x (tyBits x.y)) (fun L => w64 (g (tyBits x.y) (opA x x.y L).toNat (opB x 2 L).toNat)) c

def plainTag (x : Ctx) : Tag := intTag x.y

/-! ### R295, R296 -/

/-- Quotient and remainder. -/
def divRem (w : Nat) (y : Nat) (a b : Int) : Int × Int :=
  if b = 0 then ((if isSigned y then -1 else 2 ^ w - 1), a)
  else if isSigned y ∧ a = -(2 ^ (w - 1)) ∧ b = -1 then (-(2 ^ (w - 1)), 0)
  else (a.tdiv b, a - a.tdiv b * b)

def shlN (w a n : Nat) : Nat := if w ≤ n then 0 else a * 2 ^ n % 2 ^ w
def shrN (w a n : Nat) : Nat := if w ≤ n then 0 else a / 2 ^ n
def rotN (w a n : Nat) : Nat := let k := n % w; (a * 2 ^ k % 2 ^ w) + a / 2 ^ (w - k)
/-- An arithmetic shift of any length. -/
def sarI (w : Nat) (a : Int) (n : Nat) : Int := a / 2 ^ min n w

/-- Position and length of a bit field. -/
def fieldPos (w b : Nat) : Nat := min (b % 256) w
def fieldLen (w b c : Nat) : Nat := min (c % 256) (w - fieldPos w b)

/-- `bfx`. -/
def bfxI (w y a b c : Nat) : Int :=
  let l := fieldLen w b c
  let f := a / 2 ^ fieldPos w b % 2 ^ l
  if l = 0 then 0 else if isSigned y then toSigned l f else f

/-- `bfi`. -/
def bfiN (w d a b c : Nat) : Nat :=
  let p := fieldPos w b
  let k := (2 ^ fieldLen w b c - 1) * 2 ^ p
  (d &&& (2 ^ w - 1 - k)) ||| (shlN w a p &&& k)

def popcN (x : Nat) : Nat := ((List.range 64).filter (fun i => x.testBit i)).length
def clzN (w x : Nat) : Nat := w - bitLen x
def brevN (w x : Nat) : Nat := (List.range w).foldl (fun t i => if x.testBit i then t + 2 ^ (w - 1 - i) else t) 0

/-! ### R297 to R302 -/

/-- The sum with carry in, its carry out written to the predicate that C names. -/
def addcBody (x : Ctx) (c : Crew) : Crew :=
  let w := tyBits x.y
  let ci (L : Nat) : Nat := (opC x 0 L).toNat
  let k := putRes x w false (intTag x.y) (fun L => w64 ((opA x x.y L).toNat + (opB x x.y L).toNat + ci L)) c
  match x.f.c with
  | .p r => (dLanes x x.f.d).foldl (fun k L => pSetBit k r.val L (carryOut w (opA x x.y L).toNat (opB x x.y L).toNat (ci L))) k
  | _ => k

/-- Width of a type of `cvti`. -/
def cvtW (y : Nat) : Nat := if y = 16 ∨ y = 17 then 8 else if y = 18 ∨ y = 19 then 16 else tyBits y
def cvtSigned (y : Nat) : Bool := y == 1 || y == 4 || y == 16 || y == 18

/-- An integer in a type, by wrapping or by saturation (R300). -/
def cvtTo (y : Nat) (satur : Bool) (v : Int) : Int :=
  let w := cvtW y
  if satur then (if cvtSigned y then sat v (-(2 ^ (w - 1))) (2 ^ (w - 1) - 1) else sat v 0 (2 ^ w - 1))
  else if cvtSigned y then toSigned w (wrapTo w v) else (wrapTo w v : Nat)

/-- The tag of a `cvti` destination. -/
def cvtTag (y : Nat) : Tag := if tyBits y = 64 then tI64 else if cvtSigned y then tI32 else tN32

def cvtiBody (x : Ctx) (c : Crew) : Crew :=
  let s := modeOf x.f % 64
  let v (L : Nat) : Int := if cvtSigned s then toSigned (cvtW s) (opA x s L).toNat else ((opA x s L).toNat % 2 ^ cvtW s : Nat)
  putRes x (tyBits x.y) (x.y == 1) (cvtTag x.y) (fun L => ofI (cvtTo x.y (decide (64 ≤ modeOf x.f)) (v L))) c

/-- `mov` (R302). -/
def movBody (x : Ctx) (c : Crew) : Crew :=
  putRes x (tyBits x.y) false (bitTagA x (tyBits x.y)) (fun L => opA x x.y L) c

/-! ### The meanings -/

/-- `nop`. -/
def execNop (f : Fields) (s : State) : Host.Outcome State Fault Refusal := runInstr 0x00 (onCrew (fun _ c => c)) f s
/-- `mov`: D := A. -/
def execMov (f : Fields) (s : State) : Host.Outcome State Fault Refusal := runInstr 0x01 (onCrew movBody) f s
/-- `add`: A + B. -/
def execAdd (f : Fields) (s : State) : Host.Outcome State Fault Refusal := runInstr 0x02 (onCrew (int2 addTag (fun _ a b => a + b))) f s
/-- `sub`: A - B. -/
def execSub (f : Fields) (s : State) : Host.Outcome State Fault Refusal := runInstr 0x03 (onCrew (int2 addTag (fun _ a b => a - b))) f s
/-- `mul`: the low half of the product. -/
def execMul (f : Fields) (s : State) : Host.Outcome State Fault Refusal := runInstr 0x04 (onCrew (int2 plainTag (fun _ a b => a * b))) f s
/-- `mulh`: the high half of the exact product. -/
def execMulh (f : Fields) (s : State) : Host.Outcome State Fault Refusal := runInstr 0x05 (onCrew (int2 plainTag (fun w a b => a * b / 2 ^ w))) f s
/-- `mad`: A x B + C. -/
def execMad (f : Fields) (s : State) : Host.Outcome State Fault Refusal :=
  runInstr 0x06 (onCrew (fun x c =>
    putRes x (tyBits x.y) (x.y == 1) (addTag x) (fun L => ofI (iVal x.y (opA x x.y L) * iVal x.y (opB x x.y L) + iVal x.y (opC x x.y L))) c)) f s
/-- `div` (R295). -/
def execDiv (f : Fields) (s : State) : Host.Outcome State Fault Refusal :=
  runInstr 0x07 (onCrew (fun x c => int2 plainTag (fun w a b => (divRem w x.y a b).1) x c)) f s
/-- `rem` (R295). -/
def execRem (f : Fields) (s : State) : Host.Outcome State Fault Refusal :=
  runInstr 0x08 (onCrew (fun x c => int2 plainTag (fun w a b => (divRem w x.y a b).2) x c)) f s
/-- `min`. -/
def execMin (f : Fields) (s : State) : Host.Outcome State Fault Refusal := runInstr 0x09 (onCrew (int2 plainTag (fun _ a b => if a ≤ b then a else b))) f s
/-- `max`. -/
def execMax (f : Fields) (s : State) : Host.Outcome State Fault Refusal := runInstr 0x0A (onCrew (int2 plainTag (fun _ a b => if a ≤ b then b else a))) f s
/-- `abs`. -/
def execAbs (f : Fields) (s : State) : Host.Outcome State Fault Refusal := runInstr 0x0B (onCrew (int1 (fun _ a => if a < 0 then -a else a))) f s
/-- `neg`. -/
def execNeg (f : Fields) (s : State) : Host.Outcome State Fault Refusal := runInstr 0x0C (onCrew (int1 (fun _ a => -a))) f s
/-- `and`. -/
def execAnd (f : Fields) (s : State) : Host.Outcome State Fault Refusal := runInstr 0x0D (onCrew (bits2 (fun a b => a &&& b))) f s
/-- `or`. -/
def execOr (f : Fields) (s : State) : Host.Outcome State Fault Refusal := runInstr 0x0E (onCrew (bits2 (fun a b => a ||| b))) f s
/-- `xor`. -/
def execXor (f : Fields) (s : State) : Host.Outcome State Fault Refusal := runInstr 0x0F (onCrew (bits2 (fun a b => a ^^^ b))) f s
/-- `not`. -/
def execNot (f : Fields) (s : State) : Host.Outcome State Fault Refusal := runInstr 0x10 (onCrew (bits1 (fun w a => 2 ^ w - 1 - a))) f s
/-- `shl` (R296). -/
def execShl (f : Fields) (s : State) : Host.Outcome State Fault Refusal := runInstr 0x11 (onCrew (bitsShift shlN)) f s
/-- `shr` (R296). -/
def execShr (f : Fields) (s : State) : Host.Outcome State Fault Refusal := runInstr 0x12 (onCrew (bitsShift shrN)) f s
/-- `sar` (R296). -/
def execSar (f : Fields) (s : State) : Host.Outcome State Fault Refusal :=
  runInstr 0x13 (onCrew (fun x c =>
    putRes x (tyBits x.y) (x.y == 1) (intTag x.y) (fun L => ofI (sarI (tyBits x.y) (iVal x.y (opA x x.y L)) (opB x 2 L).toNat)) c)) f s
/-- `rot` (R296). -/
def execRot (f : Fields) (s : State) : Host.Outcome State Fault Refusal := runInstr 0x14 (onCrew (bitsShift rotN)) f s
/-- `bfx` (R296). -/
def execBfx (f : Fields) (s : State) : Host.Outcome State Fault Refusal :=
  runInstr 0x15 (onCrew (fun x c =>
    putRes x (tyBits x.y) (x.y == 1) (intTag x.y)
      (fun L => ofI (bfxI (tyBits x.y) x.y (opA x x.y L).toNat (opB x 2 L).toNat (opC x 2 L).toNat)) c)) f s
/-- `bfi` (R296): D is also read. -/
def execBfi (f : Fields) (s : State) : Host.Outcome State Fault Refusal :=
  runInstr 0x16 (onCrew (fun x c =>
    let w := tyBits x.y
    putRes x w false (commonTag (opTags x.cd w 1 (dLanes x x.f.d) x.f.d ++ opTags x.ca w 1 (dLanes x x.f.d) x.f.a))
      (fun L => w64 (bfiN w (opD x x.y L).toNat (opA x x.y L).toNat (opB x 2 L).toNat (opC x 2 L).toNat)) c)) f s
/-- `popc`: the number of 1 bits. -/
def execPopc (f : Fields) (s : State) : Host.Outcome State Fault Refusal :=
  runInstr 0x17 (onCrew (fun x c => putRes x 32 false tN32 (fun L => w64 (popcN (opA x x.y L).toNat)) c)) f s
/-- `clz`: leading zero bits. -/
def execClz (f : Fields) (s : State) : Host.Outcome State Fault Refusal :=
  runInstr 0x18 (onCrew (fun x c => putRes x 32 false tN32 (fun L => w64 (clzN (tyBits x.y) (opA x x.y L).toNat)) c)) f s
/-- `brev`: the bits reversed. -/
def execBrev (f : Fields) (s : State) : Host.Outcome State Fault Refusal := runInstr 0x19 (onCrew (bits1 brevN)) f s
/-- `sel`: A where the predicate is 1, B otherwise. -/
def execSel (f : Fields) (s : State) : Host.Outcome State Fault Refusal :=
  runInstr 0x1A (onCrew (fun x c =>
    putRes x (tyBits x.y) false (bitTagAB x (tyBits x.y)) (fun L => if opC x 0 L = 1 then opA x x.y L else opB x x.y L) c)) f s
/-- `cmp` (R297). -/
def execCmp (f : Fields) (s : State) : Host.Outcome State Fault Refusal :=
  runInstr 0x1B (onCrew (fun x c => putPred x (fun L => cmpMode (modeOf x.f) (iVal x.y (opA x x.y L)) (iVal x.y (opB x x.y L))) c)) f s
/-- `pbool` (R297). -/
def execPbool (f : Fields) (s : State) : Host.Outcome State Fault Refusal :=
  runInstr 0x1C (onCrew (fun x c => putPred x (fun L => tableBit (modeOf x.f) (opA x 0 L == 1) (opB x 0 L == 1)) c)) f s
/-- `addc` (R298). -/
def execAddc (f : Fields) (s : State) : Host.Outcome State Fault Refusal := runInstr 0x1D (onCrew addcBody) f s
/-- `lea` (R299). -/
def execLea (f : Fields) (s : State) : Host.Outcome State Fault Refusal :=
  runInstr 0x1E (onCrew (fun x c =>
    putRes x 64 false tADDR (fun L => ofI ((opA x 4 L).toNat + iVal x.y (opB x x.y L) * 2 ^ modeOf x.f)) c)) f s
/-- `cvti` (R300). -/
def execCvti (f : Fields) (s : State) : Host.Outcome State Fault Refusal := runInstr 0x1F (onCrew cvtiBody) f s

end Sys2Proof.Machine
end

