-- ==== Sys2Proof/Machine/Special.lean ====
section
/-! DEFINITION. The special-function part (R333, R334): each function's exact value to several hundred bits, then one rounding.
No result of a non-special input lies on a rounding boundary closely enough for the truncation to matter (DEDUCED, assumption log 10). -/

namespace Sys2Proof.Machine

/-- Binary places of the fixed-point numbers of this file. -/
def fxS : Nat := 704

def fxOne : Nat := 2 ^ fxS

/-- Product of two fixed-point numbers. -/
def fxMul (a b : Nat) : Nat := a * b / fxOne

/-- Sum of x^k / k! from term t = x^k / k! on, for `n` terms: the exponential series. -/
def expSeries (x : Nat) : Nat → Nat → Nat → Nat → Nat
  | 0, _, _, acc => acc
  | n + 1, k, t, acc => expSeries x n (k + 1) (fxMul t x / (k + 1)) (acc + t)

/-- e^x for 0 ≤ x < 1. -/
def fxExp (x : Nat) : Nat := expSeries x 160 0 fxOne 0

/-- Sum of x^(2k+1) / (2k+1) with alternating or equal signs: atan and atanh. `p` is the current power of x. -/
def atanSeries (alt : Bool) (x2 : Nat) : Nat → Nat → Nat → Int → Int
  | 0, _, _, acc => acc
  | n + 1, k, p, acc =>
    let t : Int := p / (2 * k + 1)
    atanSeries alt x2 n (k + 1) (fxMul p x2) (if alt && k % 2 == 1 then acc - t else acc + t)

/-- atanh of a / b, a/b at most 1/3. -/
def fxAtanh (a b : Nat) : Nat :=
  let x := a * fxOne / b
  (atanSeries false (fxMul x x) 240 0 x 0).toNat

def fxAtanInv (b : Nat) : Nat :=
  let x := fxOne / b
  (atanSeries true (fxMul x x) 320 0 x 0).toNat

/-- ln 2 = 2 atanh(1/3). -/
def fxLn2 : Nat := 2 * fxAtanh 1 3

/-- pi / 2 = 8 atan(1/5) - 2 atan(1/239). -/
def fxHalfPi : Nat := 8 * fxAtanInv 5 - 2 * fxAtanInv 239

/-- sin and cos series for 0 ≤ x < 2: term t, sign by the parity of k. -/
def trigSeries (x2 : Nat) : Nat → Nat → Nat → Int → Int
  | 0, _, _, acc => acc
  | n + 1, k, t, acc => trigSeries x2 n (k + 2) (fxMul t x2 / ((k + 1) * (k + 2))) (if k / 2 % 2 = 0 then acc + t else acc - t)

def fxSin (x : Nat) : Int := trigSeries (fxMul x x) 90 1 x 0
def fxCos (x : Nat) : Int := trigSeries (fxMul x x) 90 0 fxOne 0

/-- m x 2^e as fixed point. -/
def fxOf (m : Nat) (e : Int) : Nat := shiftTo m (e + fxS)

/-- A fixed-point magnitude as an exact result with a sticky rest. [DEDUCED, assumption log 10] -/
def exOfFx (neg : Bool) (x : Nat) (scale : Int) : Ex := .val neg x (scale - fxS) true

/-- 2^x (R333). [DEDUCED, assumption log 10] -/
def exp2F (a : FV) : Nat × BitVec 5 :=
  match a with
  | .nan s => roundEx f32 0 0 (.nan s)
  | .inf n => if n then (0, 0) else roundEx f32 0 0 (.inf false)
  | .num n m e =>
    if m = 0 then roundEx f32 0 0 (.val false 1 0 false)
    else
      let big := decide (8 ≤ expOf m e)     -- |x| ≥ 256
      if big then (if n then (0, fUF ||| fNX) else (0x7F800000, fOF ||| fNX))
      else
        let x : Int := if n then -(fxOf m e : Int) else fxOf m e
        let i : Int := x / (fxOne : Int)
        let f := (x % (fxOne : Int)).toNat
        if f = 0 ∧ 0 ≤ e + fxS then (if 128 ≤ i then (0x7F800000, fOF ||| fNX) else roundEx f32 0 0 (.val false 1 i false))
        else if 128 ≤ i then (0x7F800000, fOF ||| fNX)
        else roundEx f32 0 0 (exOfFx false (fxExp (fxMul f fxLn2)) i)

/-- log2 x (R333). [DEDUCED, assumption log 10] -/
def log2F (a : FV) : Nat × BitVec 5 :=
  match a with
  | .nan s => roundEx f32 0 0 (.nan s)
  | .inf n => if n then (f32.nan, fNV) else roundEx f32 0 0 (.inf false)
  | .num n m e =>
    if m = 0 then ((roundEx f32 0 0 (.inf true)).1, fDZ)
    else if n then (f32.nan, fNV)
    else
      let ex := expOf m e
      let top := 2 ^ (bitLen m - 1)
      if m = top then roundEx f32 0 0 (exOfInt ex 0 false)
      else
        -- ln y = 2 atanh((y - 1)/(y + 1)) for y = m / top in (1, 2)
        let l := 2 * fxAtanh (m - top) (m + top) * fxOne / fxLn2
        let v : Int := ex * fxOne + l
        roundEx f32 0 0 (exOfFx (decide (v < 0)) v.natAbs 0)

/-- sin (cos when `c`) of a finite value, its argument reduced exactly (R333). [DEDUCED, assumption log 10] -/
def trigF (c : Bool) (a : FV) : Nat × BitVec 5 :=
  match a with
  | .nan s => roundEx f32 0 0 (.nan s)
  | .inf _ => (f32.nan, fNV)
  | .num n m e =>
    if m = 0 then (if c then roundEx f32 0 0 (.val false 1 0 false) else (b2n n * 2 ^ 31, 0))
    else
      let x := fxOf m e
      let q := x / fxHalfPi % 4
      let r := x % fxHalfPi
      let k := if c then (q + 1) % 4 else q
      let v : Int := match k with | 0 => fxSin r | 1 => fxCos r | 2 => -fxSin r | _ => -fxCos r
      let v := if n && !c then -v else v
      roundEx f32 0 0 (exOfFx (decide (v < 0)) v.natAbs 0)

/-- tanh (R333). [DEDUCED, assumption log 10] -/
def tanhF (a : FV) : Nat × BitVec 5 :=
  match a with
  | .nan s => roundEx f32 0 0 (.nan s)
  | .inf n => roundEx f32 0 0 (.val n 1 0 false)
  | .num n m e =>
    if m = 0 then (b2n n * 2 ^ 31, 0)
    else if 6 ≤ expOf m e then roundEx f32 0 0 (.val n (2 ^ 200 - 1) (-200) true)
    else
      -- e^(2x) = 2^i e^f, f below ln 2
      let y := 2 * fxOf m e
      let i := y / fxLn2
      let t := fxExp (y % fxLn2) * 2 ^ i
      roundEx f32 0 0 (exOfFx n ((t - fxOne) * fxOne / (t + fxOne)) 0)

end Sys2Proof.Machine
end

