-- ==== Sys2Proof/Machine/FpOps.lean ====
section
/-! DEFINITION. Floating-point, packed-format, quantisation, codebook and tag instructions, opcodes 0x40 to 0x63 but for `cbload` (R324 to R346). -/

namespace Sys2Proof.Machine

/-! ### Elements, draws and results -/

/-- Elements of a type in a 32-bit register, and one of them. -/
def elemN (y : Nat) : Nat := if y = 3 then 1 else packN y
def elemGet (y x j : Nat) : Nat := if y = 3 then x % 2 ^ 32 else packGet y x j
def elemMake (y : Nat) (l : List Nat) : Nat := if y = 3 then l.headD 0 else packMake (packW y) l

/-- The seed of the crew's launch (R67). -/
def seedOf (m : Mach) : Nat := match m.launch m.cur.launch with | some l => l.seed.toNat | none => 0

/-- r_j of a lane (R325). -/
def drawOf (seed : Nat) (c : Crew) (L j : Nat) : Nat :=
  let b := philox (pdig c.ped).toNat c.draw.toNat (0xFFFFFF00 + L) (seed % 2 ^ 32) (seed / 2 ^ 32)
  (b.getD (j / 2) 0) / 2 ^ (16 * (j % 2)) % 2 ^ 16

/-- The tag of a type. -/
def yTag (y : Nat) : Tag := BitVec.ofNat 4 (tyTag y)

/-- Write per-lane results with their flags; under RS the draw index advances (R325, R326). -/
def fpPut (x : Ctx) (rm w : Nat) (sgn : Bool) (t : Tag) (r : Nat → Nat × BitVec 5) (c : Crew) : Crew :=
  let c := orFlags (putRes x w sgn t (fun L => w64 (r L).1) c) (allFlags ((dLanes x x.f.d).map (fun L => (r L).2)))
  if rm = 4 then { c with draw := c.draw + 1 } else c

/-- Element-wise on operands A, B and C of type y: `g` takes the draw and the three elements. -/
def fpElems (rm : Nat) (g : Nat → Nat → Nat → Nat → Nat → Nat × BitVec 5) (x : Ctx) (m : Mach) : R Mach :=
  let y := x.y
  let seed := seedOf m
  let el (L : Nat) : List (Nat × BitVec 5) :=
    (List.range (elemN y)).map (fun j =>
      g y (if rm = 4 then drawOf seed m.cur L j else 0) (elemGet y (opA x y L).toNat j) (elemGet y (opB x y L).toNat j) (elemGet y (opC x y L).toNat j))
  .ok { m with cur := fpPut x rm 32 false (yTag y) (fun L => (elemMake y ((el L).map (·.1)), allFlags ((el L).map (·.2)))) m.cur }

/-- An element-wise instruction whose rounding mode is its mode. -/
def fpRound (g : Nat → Nat → Nat → FV → FV → Ex × BitVec 5) (x : Ctx) (m : Mach) : R Mach :=
  let rm := modeOf x.f
  fpElems rm (fun y r a b _ =>
    let e := g y rm r (decF (fmtOf y) a) (decF (fmtOf y) b)
    let q := roundEx (fmtOf y) rm r e.1
    (q.1, q.2 ||| e.2)) x m

/-- A binary32 function of A without a rounding mode. -/
def fpFun (g : FV → Nat × BitVec 5) (x : Ctx) (m : Mach) : R Mach := fpElems 0 (fun _ _ a _ _ => g (decF f32 a)) x m

/-- Run registers: write one register of a run in a lane. -/
def putRun (base : Nat) (t : Tag) (L : Nat) (vs : List Nat) (c : Crew) : Crew :=
  (vs.zip (List.range vs.length)).foldl (fun c e => vSetTag (vSet c (base + e.2) L (BitVec.ofNat 32 e.1)) (base + e.2) t) c

/-- Values of a run of n registers from A in a lane. -/
def runA (x : Ctx) (n L : Nat) : List Nat := (List.range n).map (fun j => (vGet x.ca (runBase x.f.a + j) L).toNat)

/-- Write n registers from D in every lane of E, with their flags. -/
def fpRunPut (x : Ctx) (rm : Nat) (t : Tag) (r : Nat → List (Nat × BitVec 5)) (c : Crew) : Crew :=
  let c := orFlags (x.lanes.foldl (fun c L => putRun (runBase x.f.d) t L ((r L).map (·.1)) c) c) (allFlags (x.lanes.flatMap (fun L => (r L).map (·.2))))
  if rm = 4 then { c with draw := c.draw + 1 } else c

/-! ### R335 to R343 -/

/-- `frnd`. -/
def frndV (rm r : Nat) (a : FV) : Nat × BitVec 5 :=
  match a with
  | .num n m e =>
    let (q, inex) := roundInt rm r n m e false
    ((roundEx f32 0 0 (.val n q.natAbs 0 false)).1, if inex then fNX else 0)
  | v => roundEx f32 rm r (exOf v)

/-- Bounds of an integer type. -/
def intLo (y : Nat) : Int := if isSigned y then -(2 ^ (tyBits y - 1)) else 0
def intHi (y : Nat) : Int := if isSigned y then 2 ^ (tyBits y - 1) - 1 else 2 ^ tyBits y - 1

/-- `ftoi`. -/
def ftoiV (y rm r : Nat) (a : FV) : Int × BitVec 5 :=
  match a with
  | .nan _ => (0, fNV)
  | .inf n => (if n then intLo y else intHi y, fNV)
  | .num n m e =>
    let (q, inex) := roundInt rm r n m e false
    if q < intLo y then (intLo y, fNV) else if intHi y < q then (intHi y, fNV) else (q, if inex then fNX else 0)

def ftoiBody (x : Ctx) (m : Mach) : R Mach :=
  let rm := modeOf x.f
  let r (L : Nat) : Nat × BitVec 5 :=
    let q := ftoiV x.y rm (drawOf (seedOf m) m.cur L 0) (decF f32 (opA x 3 L).toNat)
    (wrapTo 64 q.1, q.2)
  .ok { m with cur := fpPut x rm (tyBits x.y) (x.y == 1) (intTag x.y) r m.cur }

def itofBody (x : Ctx) (m : Mach) : R Mach :=
  let rm := modeOf x.f
  let r (L : Nat) : Nat × BitVec 5 := roundEx f32 rm (drawOf (seedOf m) m.cur L 0) (exOfInt (iVal x.y (opA x x.y L)) 0 false)
  .ok { m with cur := fpPut x rm 32 false tF32 r m.cur }

/-- The source type of `fcvt`. -/
def fcvtSrc (k : Nat) : Nat := match k / 8 with | 1 => 7 | 2 => 8 | 3 => 9 | 4 => 10 | _ => 3

/-- `fcvt`: widening of one element, or insertion of one (R336). -/
def fcvtBody (x : Ctx) (m : Mach) : R Mach :=
  let rm := modeOf x.f % 8
  let e := (match immOf x.f.b with | some k => k.toNat | none => 0)
  let sy := fcvtSrc (modeOf x.f)
  if x.y = 3 then
    .ok { m with cur := fpPut x rm 32 false tF32 (fun L => roundEx f32 0 0 (exOf (decF (fmtOf sy) (packGet sy (opA x sy L).toNat e)))) m.cur }
  else
    let r (L : Nat) : Nat × BitVec 5 :=
      let q := roundEx (fmtOf x.y) rm (drawOf (seedOf m) m.cur L e) (exOf (decF f32 (opA x 3 L).toNat))
      (packMake (packW x.y) (((List.range (packN x.y)).map (packGet x.y (opD x 0 L).toNat)).set e q.1), q.2)
    .ok { m with cur := fpPut x rm 32 false (yTag x.y) r m.cur }

def fpackBody (x : Ctx) (m : Mach) : R Mach :=
  let rm := modeOf x.f
  let r (L : Nat) : Nat × BitVec 5 :=
    let es := ((runA x (packN x.y) L).zip (List.range 8)).map (fun a => roundEx (fmtOf x.y) rm (drawOf (seedOf m) m.cur L a.2) (exOf (decF f32 a.1)))
    (packMake (packW x.y) (es.map (·.1)), allFlags (es.map (·.2)))
  .ok { m with cur := fpPut x rm 32 false (yTag x.y) r m.cur }

def funpkBody (x : Ctx) (c : Crew) : Crew :=
  fpRunPut x 0 tF32 (fun L => (List.range (packN x.y)).map (fun j =>
    roundEx f32 0 0 (exOf (decF (fmtOf x.y) (packGet x.y (opA x x.y L).toNat j))))) c

/-- One product of a dot product: a NaN element is invalid (R338). [DEDUCED, assumption log 17] -/
def dotTerm (a b : FV) : Ex := if isNan a || isNan b then .nan true else mulEx a b

/-- One lane of `fdot2` and `fdot4` (R338). [DEDUCED, assumption log 17] -/
def fdotLane (x : Ctx) (L : Nat) : Nat × BitVec 5 :=
  let y := x.y
  let el (v : Word) (j : Nat) : Nat := packGet y v.toNat j
  if y = 11 ∨ y = 12 then
    let val (n : Nat) : Int := if y = 11 then toSigned 8 n else n
    let s := (List.range 4).foldl (fun t j => t + val (el (opA x y L) j) * val (el (opB x y L) j)) (iVal (if y = 11 then 1 else 2) (opC x (if y = 11 then 1 else 2) L))
    (wrapTo 32 s, 0)
  else
    roundEx f32 0 0 (sumEx 0 (exOf (decF f32 (opC x 3 L).toNat) ::
      (List.range (packN y)).map (fun j => dotTerm (decF (fmtOf y) (el (opA x y L) j)) (decF (fmtOf y) (el (opB x y L) j)))))

def fdotBody (x : Ctx) (m : Mach) : R Mach :=
  .ok { m with cur := fpPut x 0 32 (x.y == 11) (if x.y = 11 then tI32 else if x.y = 12 then tN32 else tF32) (fdotLane x) m.cur }

/-- `fclass`. -/
def classOf (x : Nat) : Nat :=
  match decF f32 x with
  | .nan s => if s then 1 else 2
  | .inf n => if n then 4 else 512
  | .num n m _ => if m = 0 then (if n then 32 else 64) else if m < 2 ^ 23 then (if n then 16 else 128) else (if n then 8 else 256)

/-- `hist` (R340): a signalling NaN among its operands sets NV (R326). -/
def histBody (x : Ctx) (c : Crew) : Crew :=
  let n := modeOf x.f
  let vals := x.lanes.flatMap (fun L => (runA x n L).map (decF f32))
  let r : Int := (clipExp vals ((opB x 2 x.low).toNat % 256)).getD (-(2 ^ 31))
  orFlags (putRes x 32 true tI32 (fun _ => ofI r) c) (if vals.any isSig then fNV else 0)

def qscaleBody (x : Ctx) (c : Crew) : Crew :=
  putRes x 32 false tN32 (fun L => let a := (lo32 (opA x 1 L)).toInt; w64 (scaleOf x.y (if a = -(2 ^ 31) then none else some a))) c

def quantBody (x : Ctx) (m : Mach) : R Mach :=
  let rm := modeOf x.f
  let wide := x.y == 9 || x.y == 10
  let r (L : Nat) : Nat × BitVec 5 :=
    let es := ((runA x (if wide then 4 else 8) L).zip (List.range 8)).map (fun a =>
      quantElem x.y rm (drawOf (seedOf m) m.cur L a.2) (decF f32 a.1) ((opB x 2 L).toNat % 256))
    (packMake (if wide then 8 else 4) (es.map (·.1)), allFlags (es.map (·.2)))
  .ok { m with cur := fpPut x rm 32 false (if wide then yTag x.y else yTag 13) r m.cur }

def dquantBody (x : Ctx) (m : Mach) : R Mach :=
  let rm := modeOf x.f
  let r (L : Nat) : List (Nat × BitVec 5) := (List.range (packN x.y)).map (fun j =>
    dquantElem x.y rm (drawOf (seedOf m) m.cur L j) (packGet x.y (opA x x.y L).toNat j) ((opB x 2 L).toNat % 256))
  .ok { m with cur := fpRunPut x rm tF32 r m.cur }

/-! ### R344 to R346 -/

/-- The base table that C names (R344). -/
def tableOf (x : Ctx) : List Nat :=
  match x.f.c with
  | .s r => cbTable ((List.range 8).map (fun i => (sGet x.cc (r.toNat + i)).toNat))
  | _ => cbDefault

/-- Eight `i4` values of a packed register. -/
def vec4 (w : Word) : List Int := (List.range 8).map (fun j => toSigned 4 (packGet 13 w.toNat j))

def cbdecBody (x : Ctx) (c : Crew) : Crew :=
  let dec (L k : Nat) : Nat := packMake 4 ((cbDecode (tableOf x) (packGet 14 (opA x 14 L).toNat k)).map (wrapTo 4))
  x.lanes.foldl (fun c L => putRun (runBase x.f.d) (yTag 13) L [dec L 0, dec L 1] c) c

def cbencBody (x : Ctx) (c : Crew) : Crew :=
  putRes x 32 false (yTag 14) (fun L =>
    w64 (cbEncode (tableOf x) (vec4 (opA x 13 L)) + 2 ^ 16 * cbEncode (tableOf x) (vec4 (opB x 13 L)))) c

/-- `tagset`: a tag value from a register that the form does not allow raises FMTTAG (R345). -/
def tagsetBody (x : Ctx) (m : Mach) : R Mach :=
  let t := (opA x 2 x.low).toNat
  let ok := if x.y = 6 then t == 0 || t == 12 || t == 13 else decide (t ≤ 11)
  if !ok then .error (trapOf 0x03 none 1 (w64 t) (w64 (encodeCode x.f.a)) 0)
  else
    let tg : Tag := BitVec.ofNat 4 t
    .ok { m with cur := match x.f.d with
      | .v r => if x.y = 6 then vSetTag (vSetTag m.cur r.toNat tg) (r.toNat + 1) tg else vSetTag m.cur r.toNat tg
      | .s r => sSet m.cur r.toNat (sGet m.cur r.toNat) tg
      | _ => m.cur }

/-- The tag that `tagget` reads in a lane: that of the register A names, a predicate, a mask or a special with the tag it reads with (R136, R137,
R139, R346). [DEDUCED, assumption log 14] -/
def tagOfA (x : Ctx) (L : Nat) : Tag := (opTags x.ca 32 1 [L] x.f.a).headD tRAW

/-- The 5-bit mask of the flag forms of `tagset`. -/
def flagMask (x : Ctx) : BitVec 5 := BitVec.ofNat 5 (opA x 2 x.low).toNat

/-! ### The meanings -/

/-- `fadd`. -/
def execFadd (f : Fields) (s : State) : Host.Outcome State Fault Refusal := runInstr 0x40 (fpRound (fun _ rm _ a b => (addEx rm a b, 0))) f s
/-- `fsub`. -/
def execFsub (f : Fields) (s : State) : Host.Outcome State Fault Refusal := runInstr 0x41 (fpRound (fun _ rm _ a b => (addEx rm a (negFV b), 0))) f s
/-- `fmul`. -/
def execFmul (f : Fields) (s : State) : Host.Outcome State Fault Refusal := runInstr 0x42 (fpRound (fun _ _ _ a b => (mulEx a b, 0))) f s
/-- `ffma`: one rounding. -/
def execFfma (f : Fields) (s : State) : Host.Outcome State Fault Refusal :=
  runInstr 0x43 (fpElems 0 (fun y _ a b c => roundEx (fmtOf y) 0 0 (fmaEx 0 (decF (fmtOf y) a) (decF (fmtOf y) b) (decF (fmtOf y) c)))) f s
/-- `fmin`. -/
def execFmin (f : Fields) (s : State) : Host.Outcome State Fault Refusal := runInstr 0x44 (fpElems 0 (fun y _ a b _ => minMaxF (fmtOf y) false a b)) f s
/-- `fmax`. -/
def execFmax (f : Fields) (s : State) : Host.Outcome State Fault Refusal := runInstr 0x45 (fpElems 0 (fun y _ a b _ => minMaxF (fmtOf y) true a b)) f s
/-- `fabs`: the sign bit cleared. -/
def execFabs (f : Fields) (s : State) : Host.Outcome State Fault Refusal := runInstr 0x46 (fpElems 0 (fun y _ a _ _ => (a % 2 ^ ((fmtOf y).width - 1), 0))) f s
/-- `fneg`: the sign bit inverted. -/
def execFneg (f : Fields) (s : State) : Host.Outcome State Fault Refusal := runInstr 0x47 (fpElems 0 (fun y _ a _ _ => (a ^^^ 2 ^ ((fmtOf y).width - 1), 0))) f s
/-- `fcmp` (R332). -/
def execFcmp (f : Fields) (s : State) : Host.Outcome State Fault Refusal :=
  runInstr 0x48 (onCrew (fun x c =>
    let a (L : Nat) : FV := decF f32 (opA x 3 L).toNat
    let b (L : Nat) : FV := decF f32 (opB x 3 L).toNat
    orFlags (putPred x (fun L => fcmpMode (modeOf x.f) (a L) (b L)) c) (allFlags (x.lanes.map (fun L => fcmpFlags (modeOf x.f) (a L) (b L)))))) f s
/-- `frcp`: 1 / A. -/
def execFrcp (f : Fields) (s : State) : Host.Outcome State Fault Refusal :=
  runInstr 0x49 (fpFun (fun a => let e := divEx (.num false 1 0) a; let q := roundEx f32 0 0 e.1; (q.1, q.2 ||| e.2))) f s
/-- `frsq`: 1 / sqrt A. -/
def execFrsq (f : Fields) (s : State) : Host.Outcome State Fault Refusal :=
  runInstr 0x4A (fpFun (fun a => let e := rsqEx a; let q := roundEx f32 0 0 e.1; (q.1, q.2 ||| e.2))) f s
/-- `fsqrt`. -/
def execFsqrt (f : Fields) (s : State) : Host.Outcome State Fault Refusal := runInstr 0x4B (fpRound (fun _ _ _ a _ => (sqrtEx a, 0))) f s
/-- `fdiv`. -/
def execFdiv (f : Fields) (s : State) : Host.Outcome State Fault Refusal := runInstr 0x4C (fpRound (fun _ _ _ a b => divEx a b)) f s
/-- `fexp2`. -/
def execFexp2 (f : Fields) (s : State) : Host.Outcome State Fault Refusal := runInstr 0x4D (fpFun exp2F) f s
/-- `flog2`. -/
def execFlog2 (f : Fields) (s : State) : Host.Outcome State Fault Refusal := runInstr 0x4E (fpFun log2F) f s
/-- `fsin`. -/
def execFsin (f : Fields) (s : State) : Host.Outcome State Fault Refusal := runInstr 0x4F (fpFun (trigF false)) f s
/-- `fcos`. -/
def execFcos (f : Fields) (s : State) : Host.Outcome State Fault Refusal := runInstr 0x50 (fpFun (trigF true)) f s
/-- `ftanh`. -/
def execFtanh (f : Fields) (s : State) : Host.Outcome State Fault Refusal := runInstr 0x51 (fpFun tanhF) f s
/-- `frnd` (R335). -/
def execFrnd (f : Fields) (s : State) : Host.Outcome State Fault Refusal :=
  runInstr 0x52 (fun x m => fpElems (modeOf x.f) (fun _ r a _ _ => frndV (modeOf x.f) r (decF f32 a)) x m) f s
/-- `ftoi` (R335). -/
def execFtoi (f : Fields) (s : State) : Host.Outcome State Fault Refusal := runInstr 0x53 ftoiBody f s
/-- `itof` (R335). -/
def execItof (f : Fields) (s : State) : Host.Outcome State Fault Refusal := runInstr 0x54 itofBody f s
/-- `fcvt` (R336). -/
def execFcvt (f : Fields) (s : State) : Host.Outcome State Fault Refusal := runInstr 0x55 fcvtBody f s
/-- `fpack` (R337). -/
def execFpack (f : Fields) (s : State) : Host.Outcome State Fault Refusal := runInstr 0x56 fpackBody f s
/-- `funpk` (R337). -/
def execFunpk (f : Fields) (s : State) : Host.Outcome State Fault Refusal := runInstr 0x57 (onCrew funpkBody) f s
/-- `fdot2` (R338). -/
def execFdot2 (f : Fields) (s : State) : Host.Outcome State Fault Refusal := runInstr 0x58 fdotBody f s
/-- `fdot4` (R338). -/
def execFdot4 (f : Fields) (s : State) : Host.Outcome State Fault Refusal := runInstr 0x59 (fun x m => fdotBody x m) f s
/-- `fclass` (R339). -/
def execFclass (f : Fields) (s : State) : Host.Outcome State Fault Refusal :=
  runInstr 0x5A (onCrew (fun x c => putRes x 32 false tN32 (fun L => w64 (classOf (opA x 3 L).toNat)) c)) f s
/-- `hist` (R340). -/
def execHist (f : Fields) (s : State) : Host.Outcome State Fault Refusal := runInstr 0x5B (onCrew histBody) f s
/-- `qscale` (R341). -/
def execQscale (f : Fields) (s : State) : Host.Outcome State Fault Refusal := runInstr 0x5C (onCrew qscaleBody) f s
/-- `quant` (R342). -/
def execQuant (f : Fields) (s : State) : Host.Outcome State Fault Refusal := runInstr 0x5D quantBody f s
/-- `dquant` (R343). -/
def execDquant (f : Fields) (s : State) : Host.Outcome State Fault Refusal := runInstr 0x5E dquantBody f s
/-- `cbdec` (R344). -/
def execCbdec (f : Fields) (s : State) : Host.Outcome State Fault Refusal := runInstr 0x5F (onCrew cbdecBody) f s
/-- `cbenc` (R344). -/
def execCbenc (f : Fields) (s : State) : Host.Outcome State Fault Refusal := runInstr 0x60 (onCrew cbencBody) f s
/-- `tagset` (R345). -/
def execTagset (f : Fields) (s : State) : Host.Outcome State Fault Refusal := runInstr 0x62 tagsetBody f s
/-- `tagset.fclr` (R345). -/
def execTagsetFclr (f : Fields) (s : State) : Host.Outcome State Fault Refusal :=
  runInstr 0x62 (onCrew (fun x c => { c with flags := c.flags &&& ~~~ flagMask x })) f s
/-- `tagset.fset` (R345). -/
def execTagsetFset (f : Fields) (s : State) : Host.Outcome State Fault Refusal :=
  runInstr 0x62 (onCrew (fun x c => { c with flags := c.flags ||| flagMask x })) f s
/-- `tagget` (R346). -/
def execTagget (f : Fields) (s : State) : Host.Outcome State Fault Refusal :=
  runInstr 0x63 (onCrew (fun x c => putRes x 32 false tN32 (fun L => w64 (tagOfA x L).toNat) c)) f s
/-- `tagget.flags` (R346). -/
def execTaggetFlags (f : Fields) (s : State) : Host.Outcome State Fault Refusal :=
  runInstr 0x63 (onCrew (fun x c => putRes x 32 false tN32 (fun _ => w64 c.flags.toNat) c)) f s

end Sys2Proof.Machine
end

