-- ==== Sys2Proof/Machine/CellOps.lean ====
section
/-! DEFINITION. Tile-cell instructions, opcodes 0x90 to 0x93, and the service of their stalled issuers (R107, R193, R194, R363, R364). -/

namespace Sys2Proof.Machine

/-! ### Cell words and the order of service -/

/-- The cell that an instruction names, die and number, or PERM (R363). -/
def cellArg (m : Mach) (x : Ctx) (kind : Nat) : R (Nat × Nat) :=
  let w := (opA x 2 x.low).toNat
  let tile := match m.launch m.cur.launch with | some l => l.tile | none => 0
  if cellWordOk tile w then .ok (bits w 16 14, bits w 13 0) else .error (trapOf 0x21 none (w64 w) (w64 (kind * 256)) 0 0)

/-- May a task fill, or drain, a cell now (R107, R193)? -/
def canFill (x : Cell) (tid : Nat) : Bool := !x.full && (x.claim.isNone || x.claim == some tid)
def canDrain (x : Cell) (tid : Nat) : Bool := x.full && x.pins.all (· == tid)
def canAct (x : Cell) (e : Nat × Bool) : Bool := if e.2 then canDrain x e.1 else canFill x e.1

/-- Waiters that are still stalled at the cell. [DEDUCED, assumption log 20] -/
def cellQueue (m : Mach) (x : Cell) : List (Nat × Bool) :=
  x.queue.filter (fun e => match m.crew e.1 with | some c => c.stall == some .cell && c.status == .ready && !c.slots.isEmpty | none => false)

/-- A crew acts when its cell lets it and no earlier waiter could act. [DEDUCED, assumption log 20] -/
def cellTurn (m : Mach) (x : Cell) (e : Nat × Bool) : Bool :=
  canAct x e && !((cellQueue m x).takeWhile (fun q => q.1 != e.1)).any (canAct x)

/-- A crew waits at no cell any more. -/
def unqueue (m : Mach) (tid : Nat) : Mach :=
  { m with dies := m.dies.map (fun e => (e.1, { e.2 with cells := e.2.cells.map (fun x => { x with queue := x.queue.filter (fun q => q.1 != tid) }) })) }

/-- A crew takes its place among the waiters of a cell; `rel` says that its segment has ended first (R364). [DEDUCED, assumption log 11] -/
def cellWaitSide (die cell : Nat) (e : Nat × Bool) (rel : Bool) (m : Mach) : Mach :=
  let m := if rel then (match commit m with | .ok m => m | .error _ => m) else m
  let x := cellGet m die m.cur.launch cell
  if x.queue.any (fun q => q.1 == e.1) then m
  else
    let m := unqueue m e.1
    let x := cellGet m die m.cur.launch cell
    cellSet m die { x with queue := x.queue ++ [e] }

/-! ### The instructions -/

/-- The 4096 bytes of a window (R363). -/
def windowBytes (c : Crew) (first : Nat) : List Byte :=
  (List.range 32).flatMap (fun i => (List.range 32).flatMap (fun j => toBytes 4 (if j < c.width then (vGet c (first + i) j).toNat else 0)))

/-- Sparse bytes of a cell. -/
def cellBytes (bs : List Byte) : List (Nat × Byte) := ((List.range bs.length).zip bs).filter (fun e => e.2 != 0)

/-- `tfill` (R363, R364). [DEDUCED, assumption log 20] -/
def tfillBody (x : Ctx) (m : Mach) : R Mach := do
  let (die, cell) ← cellArg m x 2
  let e := (m.cur.tid, false)
  let bs := windowBytes x.cb (runBase x.f.b)
  let m ← commit m
  if cellTurn m (cellGet m die m.cur.launch cell) e then
    .ok (cellMod (unqueue m e.1) die m.cur.launch cell (fun q => { q with full := true, claim := none, bytes := cellBytes bs }))
  else .error (.stall .cell (cellWaitSide die cell e true))

def tdrainBody (x : Ctx) (m : Mach) : R Mach := do
  let (die, cell) ← cellArg m x 1
  let e := (m.cur.tid, true)
  let q := cellGet m die m.cur.launch cell
  if cellTurn m q e then
    let first := runBase x.f.d
    let n := min m.cur.width 32
    let word (i j : Nat) : Half := BitVec.ofNat 32 (ofBytes ((List.range 4).map (fun b => smGet 0 q.bytes (128 * i + 4 * j + b))))
    let c := (List.range 32).foldl (fun c i =>
      (List.range n).foldl (fun c j => vSet c (first + i) j (word i j)) (vSetTag c (first + i) tRAW)) m.cur
    .ok (cellMod (unqueue { m with cur := c } e.1) die c.launch cell (fun q => { q with full := false }))
  else .error (.stall .cell (cellWaitSide die cell e false))

def twaitBody (x : Ctx) (m : Mach) : R Mach := do
  let (die, cell) ← cellArg m x 1
  .ok (park m m.cur.tid (.cell die cell (modeOf x.f == 0)))

def tstatBody (x : Ctx) (m : Mach) : R Mach := do
  let (die, cell) ← cellArg m x 1
  let q := cellGet m die m.cur.launch cell
  let r := b2n q.full + 2 * b2n q.claim.isSome + 256 * min q.pins.length 255
  .ok { m with cur := putLane x 64 false tN32 x.f.d x.low (w64 r) m.cur }

/-! ### Service (R193) -/

/-- The instruction at which a stalled filler or drainer waits is carried out, when its crew still waits there. -/
def cellServeCrew (m : Mach) (tid : Nat) : Mach :=
  let was := m.cur.tid
  let f := m.focus tid
  match canIssue f.cur with
  | none => m
  | some pc =>
    match fetchInstr f f.cur pc with
    | .error _ => m
    | .ok (f', b) =>
      match decodeBytes b with
      | .ok (.tfill q, _) => (issueAt f' pc 0x90 q tfillBody).focus was
      | .ok (.tdrain q, _) => (issueAt f' pc 0x91 q tdrainBody).focus was
      | _ => m

/-- The first waiter that can act does; else a copy command whose channel waits for the cell (R193). -/
def cellServe (m : Mach) (die cell : Nat) : Mach :=
  ((m.die die).cells.filter (fun x => x.cell == cell)).foldl (fun m x =>
    let q := cellGet m die x.launch cell
    match (cellQueue m q).find? (canAct q) with
    | some e => cellServeCrew m e.1
    | none =>
      (m.dies.flatMap (fun d => (d.2.chans.filter (fun ch => match ch.2.queue with | k :: _ => !k.started && cmdNames k x.launch die cell | [] => false)).map
        (fun ch => (d.1, ch.1)))).foldl (fun m e => (bteStart m e.1 e.2 false).1) m) m

/-! ### The meanings -/

/-- `tfill`. -/
def execTfill (f : Fields) (s : State) : Host.Outcome State Fault Refusal := runInstr 0x90 tfillBody f s
/-- `tdrain`. -/
def execTdrain (f : Fields) (s : State) : Host.Outcome State Fault Refusal := runInstr 0x91 tdrainBody f s
/-- `twait`. -/
def execTwait (f : Fields) (s : State) : Host.Outcome State Fault Refusal := runInstr 0x92 twaitBody f s
/-- `tstat`. -/
def execTstat (f : Fields) (s : State) : Host.Outcome State Fault Refusal := runInstr 0x93 tstatBody f s
/-- A waiter of a cell is served (R193). -/
def execCellWaiterServed (die cell : Nat) (s : State) : Host.Outcome State Fault Refusal := runEvent (fun m => cellServe m die cell) s

end Sys2Proof.Machine
end

