-- ==== Sys2Proof/Machine/CrewOps.lean ====
section
/-! DEFINITION. Crew-level instructions, opcodes 0x20 to 0x27 (R303 to R307). -/

namespace Sys2Proof.Machine

/-- Operand A as lane j holds it, for the writing lane L (R303): 0 at or above the width. -/
def fromLane (x : Ctx) (L j : Nat) : Word :=
  if x.ca.width ≤ j then 0
  else
    match x.f.a with
    | .v r => vVal x.ca (tyBits x.y) r.toNat j
    | .ind r i => vVal x.ca (tyBits x.y) (effReg x.ca r i L) j
    | _ => 0

/-- Write lanes of D from lanes of A. -/
def permute (x : Ctx) (src : Nat → Nat) (c : Crew) : Crew :=
  putRes x (tyBits x.y) false (bitTagA x (tyBits x.y)) (fun L => fromLane x L (src L)) c

/-- A's truth value in a lane, for `vote`. -/
def truthA (x : Ctx) (L : Nat) : Bool := opA x 0 L != 0

/-- The release test of `msync` at every address where lanes wait (R313): when all live lanes of the register's value wait there, they go on. -/
def syncTest (c : Crew) : Crew :=
  let c := c.syncs.foldl (fun c s =>
    let M := c.live &&& mGet c s.2.1
    let ready := (lanesOf M).all (fun L => inM c.waiting L && pcOf c L == s.1)
    if M ≠ 0 ∧ ready then { setPcs c M (s.1 + w64 s.2.2) with waiting := c.waiting &&& ~~~ M } else c) c
  { c with syncs := c.syncs.filter (fun s => (lanesOf c.waiting).any (fun L => pcOf c L == s.1)) }

/-- `vote` (R304). -/
def voteBody (x : Ctx) (c : Crew) : Crew :=
  let on := x.lanes.filter (truthA x)
  let r := match modeOf x.f with
    | 1 => on.length == x.lanes.length
    | 2 => !on.isEmpty
    | _ => on.isEmpty || on.length == x.lanes.length
  if modeOf x.f = 0 then syncTest (putLane x 64 false tRAW x.f.d x.low (maskOf on) c)
  else
    match x.f.d with
    | .s _ => putLane x 64 false tN32 x.f.d x.low (w64 (b2n r)) c
    | _ => putPred x (fun _ => r) c

/-- `elect` (R304). -/
def electBody (x : Ctx) (c : Crew) : Crew :=
  match x.f.d with
  | .s _ => putLane x 32 false tN32 x.f.d x.low (w64 x.low) c
  | _ => putPred x (fun L => L == x.low) c

/-- Identity of a scan (R305). -/
def scanId (y op : Nat) : Word :=
  match op with
  | 1 => if y = 3 then 0x7F800000 else if y = 1 then 0x7FFFFFFF else if y = 2 then 0xFFFFFFFF else if y = 4 then 0x7FFFFFFFFFFFFFFF else 0xFFFFFFFFFFFFFFFF
  | 2 => if y = 3 then 0xFF800000 else if y = 1 then 0x80000000 else if y = 4 then 0x8000000000000000 else 0
  | 3 => if tyBits y = 64 then 0xFFFFFFFFFFFFFFFF else 0xFFFFFFFF
  | _ => 0

/-- One combination of a scan, with the flags it sets. -/
def scanOp (y op : Nat) (a b : Word) : Word × BitVec 5 :=
  if y = 3 then
    match op with
    | 0 => let r := roundEx f32 0 0 (addEx 0 (decF f32 a.toNat) (decF f32 b.toNat)); (w64 r.1, r.2)
    | 1 => let r := minMaxF f32 false a.toNat b.toNat; (w64 r.1, r.2)
    | _ => let r := minMaxF f32 true a.toNat b.toNat; (w64 r.1, r.2)
  else
    let cut (i : Int) : Word := if tyBits y = 64 then ofI i else zx (BitVec.ofInt 32 i)
    let p := iVal y a
    let q := iVal y b
    ((match op with
      | 0 => cut (p + q)
      | 1 => cut (if p ≤ q then p else q)
      | 2 => cut (if p ≤ q then q else p)
      | 3 => a &&& b
      | 4 => a ||| b
      | _ => a ^^^ b), 0)

/-- The results of a scan by lane, and its flags (R305). -/
def scanAll (y op : Nat) (excl : Bool) : List (Nat × Word) → Word → List (Nat × Word) × BitVec 5
  | [], _ => ([], 0)
  | (L, a) :: t, acc =>
    let (r, fl) := scanOp y op acc a
    let (rest, fr) := scanAll y op excl t r
    ((L, if excl then acc else r) :: rest, fl ||| fr)

def gscanBody (x : Ctx) (c : Crew) : Crew :=
  let m := modeOf x.f
  let (rs, fl) := scanAll x.y (m % 8) (decide (8 ≤ m)) (x.lanes.map (fun L => (L, opA x x.y L))) (scanId x.y (m % 8))
  orFlags (putRes x (tyBits x.y) false (if x.y = 3 then tF32 else intTag x.y) (fun L => (smFind rs L).getD 0) c) fl

/-- The lane that `shfl` reads (R306). -/
def shflLane (w mode n L : Nat) : Nat :=
  let j : Int := match mode with
    | 0 => (L : Int) - n
    | 1 => L + n
    | 2 => (L ^^^ n : Nat)
    | _ => ((L + n) % w : Nat)
  if 0 ≤ j ∧ j < w then j.toNat else L

/-- Write the lanes of a list, each from its source lane; lanes of E that are not written give an INVALID destination A's tag (R307). [DEDUCED, assumption log 14] -/
def moveLanes (x : Ctx) (l : List (Nat × Nat)) (c : Crew) : Crew :=
  let w := tyBits x.y
  let t := bitTagA x w
  let c := l.foldl (fun c e => putLane x w false t x.f.d e.1 (fromLane x e.1 e.2) c) c
  let fix (c : Crew) (r : Nat) : Crew := if vTag c r = tINV then vSetTag c r t else c
  x.lanes.foldl (fun c L =>
    let r := match x.f.d with | .v r => r.toNat | .ind r i => effReg x.cd r i L | _ => 0
    if w = 64 then fix (fix c r) (r + 1) else fix c r) c

/-- `vote`. -/
def execVote (f : Fields) (s : State) : Host.Outcome State Fault Refusal := runInstr 0x20 (onCrew voteBody) f s
/-- `elect`. -/
def execElect (f : Fields) (s : State) : Host.Outcome State Fault Refusal := runInstr 0x21 (onCrew electBody) f s
/-- `bcast`: every lane of E receives A from lane B (R304). -/
def execBcast (f : Fields) (s : State) : Host.Outcome State Fault Refusal :=
  runInstr 0x22 (onCrew (fun x c => permute x (fun _ => (opB x 2 x.low).toNat % 64) c)) f s
/-- `gscan` (R305). -/
def execGscan (f : Fields) (s : State) : Host.Outcome State Fault Refusal := runInstr 0x23 (onCrew gscanBody) f s
/-- `perm`: D[L] := A[B[L] mod 64] (R306). -/
def execPerm (f : Fields) (s : State) : Host.Outcome State Fault Refusal :=
  runInstr 0x24 (onCrew (fun x c => permute x (fun L => (opB x 2 L).toNat % 64) c)) f s
/-- `shfl` (R306). -/
def execShfl (f : Fields) (s : State) : Host.Outcome State Fault Refusal :=
  runInstr 0x25 (onCrew (fun x c => permute x (shflLane c.width (modeOf x.f) ((opB x 2 x.low).toNat % 64)) c)) f s
/-- `compact` (R307). -/
def execCompact (f : Fields) (s : State) : Host.Outcome State Fault Refusal :=
  runInstr 0x26 (onCrew (fun x c => moveLanes x (x.lanes.zip (x.lanes.filter (fun L => opB x 0 L == 1))) c)) f s
/-- `expand` (R307). -/
def execExpand (f : Fields) (s : State) : Host.Outcome State Fault Refusal :=
  runInstr 0x27 (onCrew (fun x c => moveLanes x ((x.lanes.filter (fun L => opB x 0 L == 1)).zip x.lanes) c)) f s

end Sys2Proof.Machine
end

