-- ==== Sys2Proof/Machine/Control.lean ====
section
/-! DEFINITION. Transfers of control, opcodes 0x30 to 0x39 (R308 to R315). -/

namespace Sys2Proof.Machine

/-- The target of a direct transfer (R308). -/
def directTarget (x : Ctx) : Word :=
  match x.f.a with
  | .imm k => x.pc + 8 * ofI k.toInt
  | _ => x.pc + sx x.f.lit

/-- BADTARGET for a lane (R253). -/
def badTarget (L : Nat) (t word : Word) : Halt := trapOf 0x01 (some L) t word 0 0

/-- Why a lane's target is refused before its translation is judged: misaligned, or a word that is no header, or no entry header (R282, R309). [DEDUCED, assumption log 15] -/
def targetBad (m : Mach) (entry : Bool) (e : Nat × Word) : Option Halt :=
  if e.2.toNat % 8 ≠ 0 then some (badTarget e.1 e.2 0)
  else
    match check1 m (whoOf m.cur) 4 false { lane := e.1, va := e.2.toNat, size := 8 } with
    | .ok o =>
      let w := memNum m.mem o.pa 8
      if !isHeader w || (entry && !hdrEntry w) then some (badTarget e.1 e.2 (w64 w)) else none
    | .error _ => none

/-- The check of a transfer for its lanes (R309); a direct target in the page was checked by the scanner. [DEDUCED, assumption log 15] -/
def checkTargets (m : Mach) (x : Ctx) (reg entry : Bool) (ts : List (Nat × Word)) : R Mach :=
  let ts := ts.filter (fun t => reg || t.2.toNat / 4096 != x.pc.toNat / 4096)
  let m := ts.foldl (fun m t => demandPage m m.cur.core m.cur.job t.2.toNat) m
  match ts.findSome? (targetBad m entry) with
  | some h => .error h
  | none =>
    match checkAll m (whoOf m.cur) 4 false (ts.map (fun t => { lane := t.1, va := t.2.toNat, size := 8 })) with
    | .ok (m, _) => .ok m
    | .error h => .error h

/-- The targets of all lanes of E are checked; then the lanes that `goes` admits go to theirs, after a link write (R309). -/
def transfer (reg entry : Bool) (link : Ctx → Crew → Crew) (ts : Ctx → List (Nat × Word)) (goes : Ctx → Nat → Bool) (x : Ctx) (m : Mach) : R Mach :=
  match checkTargets m x reg entry (ts x) with
  | .error h => .error h
  | .ok m => .ok { m with cur := ((ts x).filter (fun t => goes x t.1)).foldl (fun c t => setPc c t.1 t.2) (link x m.cur) }

/-- Every lane of E moves. -/
def allGo (_ : Ctx) (_ : Nat) : Bool := true

/-- All lanes of E to the direct target, or each to its register's value. -/
def toDirect (x : Ctx) : List (Nat × Word) := x.lanes.map (fun L => (L, directTarget x))
def toReg (x : Ctx) : List (Nat × Word) := x.lanes.map (fun L => (L, opA x 15 L))

/-- The link: the address after the instruction, tag ADDR (R310). -/
def linkWrite (x : Ctx) (c : Crew) : Crew := putRes x 64 false tADDR (fun _ => x.pc + w64 x.len) c

/-- The counter of `loop` after its decrement, by lane (R311): an `s` counter is one for the crew. -/
def loopVal (x : Ctx) (L : Nat) : Word :=
  let L := match x.f.d with | .s _ => x.low | _ => L
  let v := opD x x.y L - 1
  if tyBits x.y = 64 then v else zx (lo32 v)

/-- `exit` (R312): a failed final commit is this instruction's trap (R261). -/
def exitBody (x : Ctx) (m : Mach) : R Mach :=
  let m := { m with cur := syncTest { m.cur with live := m.cur.live &&& ~~~ x.e } }
  if m.cur.live = 0 then
    match commit m with
    | .error h => .error h
    | .ok m => .ok (taskEnds m m.cur.tid)
  else .ok m

/-- `msync` (R313). -/
def msyncBody (x : Ctx) (c : Crew) : Crew :=
  match x.f.a with
  | .m r =>
    let w := x.e &&& mGet c r.toNat
    if w = 0 then c
    else
      let site := (x.pc, r.toNat, x.len)
      syncTest { setPcs c w x.pc with waiting := c.waiting ||| w, syncs := if c.syncs.contains site then c.syncs else c.syncs ++ [site] }
  | _ => c

/-- `mset` (R314). -/
def msetBody (x : Ctx) (c : Crew) : Crew :=
  let a := opA x 6 x.low
  let b := opB x 6 x.low
  let v := match modeOf x.f with
    | 0 => a
    | 1 => a &&& b
    | 2 => a ||| b
    | 3 => a &&& ~~~ b
    | _ => x.e
  syncTest (putLane x 64 false tRAW x.f.d x.low v c)

/-- `yield` (R126, R315). -/
def yieldBody (_ : Ctx) (m : Mach) : R Mach :=
  if m.cur.pre.isSome then .ok (preemptOut m m.cur.tid) else .ok { m with cur := { m.cur with demoted := true } }

/-- `br`. -/
def execBr (f : Fields) (s : State) : Host.Outcome State Fault Refusal := runInstr 0x30 (transfer false false (fun _ c => c) toDirect allGo) f s
/-- `brx`. -/
def execBrx (f : Fields) (s : State) : Host.Outcome State Fault Refusal := runInstr 0x31 (transfer true false (fun _ c => c) toReg allGo) f s
/-- `call`. -/
def execCall (f : Fields) (s : State) : Host.Outcome State Fault Refusal := runInstr 0x32 (transfer false false linkWrite toDirect allGo) f s
/-- `callx`: the target header must be an entry. -/
def execCallx (f : Fields) (s : State) : Host.Outcome State Fault Refusal := runInstr 0x33 (transfer true true linkWrite toReg allGo) f s
/-- `ret`. -/
def execRet (f : Fields) (s : State) : Host.Outcome State Fault Refusal := runInstr 0x34 (transfer true false (fun _ c => c) toReg allGo) f s
/-- `loop` (R311): the target is checked for every lane of E, and the lanes whose counter is not zero go to it. -/
def execLoop (f : Fields) (s : State) : Host.Outcome State Fault Refusal :=
  runInstr 0x35 (transfer false false (fun x c => putRes x (tyBits x.y) (x.y == 1) (intTag x.y) (loopVal x) c)
    toDirect (fun x L => loopVal x L != 0)) f s
/-- `exit`. -/
def execExit (f : Fields) (s : State) : Host.Outcome State Fault Refusal := runInstr 0x36 exitBody f s
/-- `msync`. -/
def execMsync (f : Fields) (s : State) : Host.Outcome State Fault Refusal := runInstr 0x37 (onCrew msyncBody) f s
/-- `mset`. -/
def execMset (f : Fields) (s : State) : Host.Outcome State Fault Refusal := runInstr 0x38 (onCrew msetBody) f s
/-- `yield`. -/
def execYield (f : Fields) (s : State) : Host.Outcome State Fault Refusal := runInstr 0x39 yieldBody f s

end Sys2Proof.Machine
end

