-- ==== Sys2Proof/Machine/Collective.lean ====
section
/-! DEFINITION. The collective engine: contributions, their combination by tree or by arrival, completion, and segments between modules (R53,
R417 to R420). -/

namespace Sys2Proof.Machine

/-! ### Descriptors (R417) -/

structure CollDesc where
  key   : Word
  sbuf  : Nat
  dbuf  : Nat
  w     : Nat
  op    : Nat
  ty    : Nat
  l     : Nat
  level : Nat
  dom   : Bool
  block : Nat

def collDesc (b : List Byte) : CollDesc :=
  { key := w64 (fld b 0 8), sbuf := fld b 8 8, dbuf := fld b 16 8, w := fld b 24 4, op := fld b 28 1 % 8, ty := fld b 28 1 / 8 % 8, l := fld b 29 1,
    level := fld b 30 1, dom := bit (fld b 31 1) 0, block := fld b 32 8 }

/-- Byte offset of the first field that is out of range (R417, R418). -/
def collBad (b : List Byte) : Option Nat :=
  let d := collDesc b
  let tests : List (Nat × Bool) :=
    [(24, d.w == 0 || decide (16777216 < d.w)),
     (28, decide (64 ≤ fld b 28 1) || decide (5 < d.op) || decide (3 < d.ty) || (decide (3 ≤ d.op) != (d.ty == 3))),
     (29, decide (40 < d.l)),
     (30, decide (d.l < d.level)),
     (31, decide (1 < fld b 31 1)),
     (32, decide (2 ^ (d.l - d.level) ≤ d.block)),
     (40, !zeros b 40 24)]
  (tests.find? (·.2)).map (·.1)

/-- Bytes of an element. -/
def collSize (ty : Nat) : Nat := if ty ≤ 1 then 4 else 8

/-- Elements from their bytes, n of them. -/
def toElems (size : Nat) : Nat → List Byte → List Word
  | 0, _ => []
  | n + 1, bs => w64 (ofBytes (bs.take size)) :: toElems size n (bs.drop size)

def ofElems (size : Nat) (l : List Word) : List Byte := l.flatMap (fun x => toBytes size x.toNat)

/-! ### Combining (R418, R419) -/

/-- Combine two elements. -/
def collOp (op ty : Nat) (a b : Word) : Word :=
  match ty with
  | 0 => gredOp op 3 a b
  | 1 => zx (lo32 (gredOp op 4 (sx (lo32 a)) (sx (lo32 b))))
  | 2 => gredOp op 4 a b
  | _ => gredOp op 6 a b

def collZip (op ty : Nat) (a b : List Word) : List Word := List.zipWith (collOp op ty) a b

/-- The value of a node: as contributed, else from its two halves. -/
def collNode (op ty : Nat) (parts : List Contrib) : Nat → Nat → List Word
  | 0, b => match parts.find? (fun p => p.level == 0 && p.block == b) with | some p => p.data | none => []
  | l + 1, b =>
    match parts.find? (fun p => p.level == l + 1 && p.block == b) with
    | some p => p.data
    | none => collZip op ty (collNode op ty parts l (2 * b)) (collNode op ty parts l (2 * b + 1))

/-- Contributions combined in their order of arrival. -/
def collFold (op ty : Nat) : List Contrib → List Word
  | [] => []
  | p :: t => t.foldl (fun r q => collZip op ty r q.data) p.data

/-- The module whose engine combines a collective's contributions is this one. -/
def combinesHere (m : Mach) (job : Nat) (dom : Bool) : Bool :=
  !dom || (match m.job job with | some j => (match j.domain with | some d => Config.combiner d == m.modIn d | none => true) | none => true)

def collValue (m : Mach) (x : Coll) : List Word :=
  if !combinesHere m x.job x.dom then x.result
  else if x.arrival then collFold x.op x.ty x.parts
  else collNode x.op x.ty x.parts x.l 0

/-! ### Contributions arrive (R418, R420) -/

def sameColl (job : Nat) (key : Word) (x : Coll) : Bool := x.job == job && x.key == key

/-- Two contributed nodes share an index. -/
def nodesMeet (p q : Contrib) : Bool := decide (p.block * 2 ^ p.level < (q.block + 1) * 2 ^ q.level ∧ q.block * 2 ^ q.level < (p.block + 1) * 2 ^ p.level)

/-- Has a collective a contribution for every index? -/
def collFull (x : Coll) : Bool := x.parts.foldl (fun t p => t + 2 ^ p.level) 0 == 2 ^ x.l

/-- Put a collective back, and let its completion come when it is ready. [DEDUCED, assumption log 28] -/
def collPut (m : Mach) (x : Coll) : Mach :=
  let m : Mach := { m with colls := updFirst (fun y => sameColl x.job x.key y && !y.ready) (fun _ => x) m.colls }
  if x.ready then m.due (.collectiveComplete x.job x.key false) else m

/-- The collective in which a contribution of a key takes part; a new one when there is none. -/
def collOpen (m : Mach) (job : Nat) (arrival : Bool) (d : CollDesc) : Coll × Mach :=
  match m.colls.find? (fun x => sameColl job d.key x && !x.ready) with
  | some x => (x, m)
  | none =>
    let x : Coll := { job := job, key := d.key, arrival := arrival, w := d.w, op := d.op, ty := d.ty, l := d.l, dom := d.dom, status := 0, ready := false,
                      parts := [], coming := [], result := [] }
    (x, { m with colls := m.colls ++ [x] })

/-- A contribution is complete at the engine that combines it. -/
def collArrive (m : Mach) (job : Nat) (arrival : Bool) (d : CollDesc) (p : Contrib) : Mach :=
  let (x, m) := collOpen m job arrival d
  let differs := x.w != d.w || x.op != d.op || x.ty != d.ty || x.l != d.l || x.dom != d.dom || x.arrival != arrival
  let st := if differs then 2 else if x.parts.any (nodesMeet p) then 1 else 0
  let x : Coll := { x with parts := x.parts ++ [p], status := st }
  collPut m { x with ready := st != 0 || collFull x }

/-- A contribution of this module to a collective that another module combines waits for its result. -/
def collWait (m : Mach) (job : Nat) (arrival : Bool) (d : CollDesc) (p : Contrib) (down : Bool) : Mach :=
  let (x, m) := collOpen m job arrival d
  collPut m { x with parts := x.parts ++ [p], status := if down then 4 else 0, ready := down }

/-! ### Segments between modules (R53; their payload is PRESUMED, assumption log 5) -/

/-- The bytes in front of a segment's elements: the descriptor, its mode and whether it carries a result, and a status. [PRESUMED, assumption log 5] -/
def segHead (d : CollDesc) (arrival result : Bool) (status : Nat) : List Byte :=
  toBytes 8 d.key.toNat ++ List.replicate 16 0 ++ toBytes 4 d.w ++ toBytes 1 (d.op + 8 * d.ty) ++ toBytes 1 d.l ++ toBytes 1 d.level ++ toBytes 1 (b2n d.dom) ++
  toBytes 8 d.block ++ toBytes 1 (b2n arrival + 2 * b2n result) ++ toBytes 1 status ++ List.replicate 22 0

/-- Send a node's elements to a module, at most 8,128 bytes of them in each frame; false when the peer is down. -/
def segSend (dom dst cls : Nat) (head : List Byte) (oparg : Word) : Nat → List Byte → Mach → Mach × Bool
  | 0, _, m => (m, true)
  | n + 1, bs, m =>
    let last := decide (bs.length ≤ 8128)
    match vftSend m dom dst cls 0 3 (if last then flLast else 0) oparg (head ++ bs.take 8128) with
    | (m, true) => if last then (m, true) else segSend dom dst cls head oparg n (bs.drop 8128) m
    | r => r

/-- `OPARG` of a collective segment names its block index and tree level (R53). Where its bits put them is open: the level is bits [63:40], the block
index bits [39:0]. [DESIGN CHOICE, assumption log 5] -/
def segArg (level block : Nat) : Word := w64 (level * 2 ^ 40 + block)

/-- The level and the block index that a segment's `OPARG` names. -/
def argNode (oparg : Word) : Nat × Nat := (oparg.toNat / 2 ^ 40, oparg.toNat % 2 ^ 40)

/-- A contribution goes to the module that combines it; one that meets contributions of its key which stay on this module disagrees with them (R420). -/
def collSend (m : Mach) (job : Nat) (arrival : Bool) (d : CollDesc) (p : Contrib) : Mach :=
  if m.colls.any (fun x => sameColl job d.key x && !x.ready && x.dom != d.dom) then collArrive m job arrival d p
  else
  match m.job job with
  | some j =>
    match j.domain with
    | some dom =>
      let bs := if p.bad then [] else ofElems (collSize d.ty) p.data
      let r := segSend dom (Config.combiner dom) j.cls (segHead d arrival false (if p.bad then 3 else 0)) (segArg d.level d.block) (bs.length / 8128 + 1) bs m
      collWait r.1 job arrival d p (!r.2)
    | none => m
  | none => m

/-- The result goes back to a module that contributed. -/
def resultSend (x : Coll) (st : Nat) (vals : List Word) (m : Mach) (dst : Nat) : Mach :=
  match m.job x.job with
  | some j =>
    match j.domain with
    | some dom =>
      let d : CollDesc := { key := x.key, sbuf := 0, dbuf := 0, w := x.w, op := x.op, ty := x.ty, l := x.l, level := x.l, dom := x.dom, block := 0 }
      let bs := if st = 0 then ofElems (collSize x.ty) vals else []
      (segSend dom dst j.cls (segHead d x.arrival true st) (segArg x.l 0) (bs.length / 8128 + 1) bs m).1
    | none => m
  | none => m

/-! ### Completion (R420) -/

/-- A ticket of a crew has its status; a crew that waits for it goes on. -/
def ticketDone (st : Nat) (m : Mach) (p : Contrib) : Mach :=
  match m.crew p.tid with
  | none => m
  | some c =>
    let m := m.setCrew { c with tickets := c.tickets.map (fun t => if t.id = p.ticket then { t with status := some st } else t) }
    match c.status with
    | .parked (.coll t _) _ => if t = p.ticket then m.wakes p.tid else m
    | _ => m

/-- Modules in a list, each once. -/
def dedup (l : List Nat) : List Nat := l.foldl (fun t x => if t.contains x then t else t ++ [x]) []

/-- A collective that is ready completes: the result is written to every contributor's `DBUF`, then the tickets get their status. [DEDUCED, assumption log 38] -/
def collFinish (m : Mach) (job : Nat) (key : Word) (err : Bool) : Mach :=
  match m.colls.find? (fun x => sameColl job key x && x.ready) with
  | none => m
  | some x =>
    let mine := x.parts.filter (fun p => p.src.isNone)
    let die := match mine.head?.bind (fun p => m.crew p.tid) with | some c => dieOf c.core | none => 0
    let w : Who := { core := 352 + die, job := job, sup := false }
    let size := collSize x.ty
    let st := if x.status ≠ 0 then x.status else if err || x.parts.any (·.bad) then 3 else 0
    let held := if st = 0 then heldLines m w (mine.map (fun p => (p.dbuf, x.w * size))) else []
    if !held.isEmpty then snoopSide held m
    else if st = 0 && engineShort m w (mine.map (fun p => (p.dbuf, x.w * size))) then m.dueOnce (.collectiveComplete job key err)
    else
      let m : Mach := { m with colls := m.colls.eraseP (fun y => sameColl job key y && y.ready) }
      let vals := if st = 0 then collValue m x else []
      let put (acc : Mach × Bool) (p : Contrib) : Mach × Bool :=
        let r := engineWrite acc.1 w p.dbuf (ofElems size vals)
        (r.1, acc.2 && r.2)
      let r : Mach × Bool := if st = 0 then mine.foldl put (m, true) else (m, true)
      let st := if r.2 then st else 3
      let m := bteReleased (mine.foldl (ticketDone st) r.1) 8 0
      if combinesHere m job x.dom then (dedup (x.parts.filterMap (·.src))).foldl (resultSend x st vals) m else m

/-- A segment has come in order on its connection. One that comes before the job of its domain has been submitted here waits for it (R447). -/
def collSegment (m : Mach) (fr : Frame) : Mach :=
  let head := fr.payload.take 64
  let node := argNode fr.oparg
  let d : CollDesc := { collDesc head with level := node.1, block := node.2 }
  let arrival := bit (fld head 40 1) 0
  let st := fld head 41 1
  let size := collSize d.ty
  let bytes := fr.payload.drop 64
  let vals := toElems size (bytes.length / size) bytes
  let last := fr.flags % 2 == 1
  match m.jobs.find? (fun e => e.2.domain == some fr.domain && !e.2.ended) with
  | none => { m with collEarly := m.collEarly ++ [fr] }
  | some (job, _) =>
    if bit (fld head 40 1) 1 then
      match m.colls.find? (fun x => sameColl job d.key x && !x.ready) with
      | none => m
      | some x => collPut m { x with result := x.result ++ vals, status := st, ready := last }
    else
      let (x, m) := collOpen m job arrival d
      let isIt (p : Contrib) : Bool := p.src == some fr.src && p.level == d.level && p.block == d.block
      let old := match x.coming.find? isIt with | some p => p.data | none => []
      let p : Contrib := { op := 0, src := some fr.src, tid := 0, launch := 0, ticket := 0, level := d.level, block := d.block, dbuf := 0, bad := st != 0, data := old ++ vals }
      let m := collPut m { x with coming := x.coming.filter (fun q => !isIt q) ++ (if last then [] else [p]) }
      if last then collArrive m job arrival d p else m

/-- The segments that have come before the job of a domain take part once it is there. -/
def collReplay (m : Mach) (dom : Nat) : Mach :=
  (m.collEarly.filter (fun f => f.domain == dom)).foldl collSegment { m with collEarly := m.collEarly.filter (fun f => f.domain != dom) }

/-- A peer of some domains is down: their collectives across modules complete with status 4 (R420). -/
def collsDown (m : Mach) (doms : List Nat) : Mach :=
  m.colls.foldl (fun m x =>
    let hit := x.dom && !x.ready && (match m.job x.job with | some j => (match j.domain with | some d => doms.contains d | none => false) | none => false)
    if hit then collPut m { x with status := 4, ready := true } else m) m

end Sys2Proof.Machine
end

