-- ==== Sys2Proof/Machine/GroupOps.lean ====
section
/-! DEFINITION. Sync-group instructions, opcodes 0xA0 to 0xA8 (R365 to R371). -/

namespace Sys2Proof.Machine

/-- The group of a job with a name. -/
def groupNamed (m : Mach) (job : Nat) (name : Word) : Option Group := m.groups.find? (fun x => x.job == job && x.name == name)

/-- The table of the module (R365). -/
def groupCap : Nat := 8192

/-- Key of an observer (R371). -/
def keyObs : Nat := 0xFFFFFFFF

/-- The handle in the operand. -/
def handleOf (k : Crew) (o : Opd) : Word := match o with | .h r => hGet k r.toNat | _ => 0

/-- Write a handle register. -/
def putHandle (c : Crew) (o : Opd) (h : Word) : Crew := match o with | .h r => hSet c r.toNat h | _ => c

/-- Status of a join, none when it succeeds (R366). [DEDUCED, assumption log 16] -/
def joinStatus (m : Mach) (h name : Word) (key : Nat) : Option Nat :=
  let g := groupNamed m m.cur.job name
  if hValid h then some 4
  else if (match g with | some x => x.members.any (fun k => k.tid == m.cur.tid && (k.counted || joining k)) | none => false) then some 3
  else if g.isNone && decide (groupCap ≤ m.groups.length) then some 1
  else if (match g with | some x => decide (4096 ≤ x.members.length) | none => false) then some 2
  else if key = keyObs ∨ (match g with | some x => x.members.any (fun k => k.key == key) | none => false) = true then some 5
  else none

/-- The group of a name, made when there is none (R365). [DEDUCED, assumption log 16] -/
def groupMake (m : Mach) (job : Nat) (name : Word) : Nat × Mach :=
  match groupNamed m job name with
  | some x => (x.idx, m)
  | none =>
    let idx := ((List.range groupCap).find? (fun i => !m.groups.any (fun x => x.idx == i))).getD 0
    (idx, { m with groups := m.groups ++ [{ idx := idx, job := job, name := name, done := 0, fault := false, members := [], past := [] }] })

/-- Write `s`B and C of a join. -/
def joinOut (x : Ctx) (v : Word) (ok : Bool) (c : Crew) : Crew :=
  let c := match x.f.b with | .s r => sSet c r.toNat v tI64 | _ => c
  match x.f.c with
  | .p r => x.lanes.foldl (fun c L => pSetBit c r.val L ok) c
  | _ => c

def gjoinBody (x : Ctx) (m : Mach) : R Mach :=
  let a := match x.f.a with | .s r => r.toNat | _ => 0
  let name := sGet x.ca a
  let key := (lo32 (sGet x.ca (a + 1))).toNat
  match joinStatus m (handleOf m.cur x.f.d) name key with
  | some st => .ok { m with cur := joinOut x (w64 (2 ^ 63 + st)) false m.cur }
  | none =>
    let (g, m) := groupMake m m.cur.job name
    let k : Member := { tid := m.cur.tid, key := key, counted := false, pending := true, leaving := false, arr := 0, con := none }
    let m := match m.group g with | some q => m.setGroup { q with members := q.members ++ [k] } | none => m
    let phase := match m.job m.cur.job with | some j => j.phaseNo | none => 0
    .ok { m with cur := putHandle (joinOut x (w64 (phase + 1)) true m.cur) x.f.d (hMake true false g key) }

def gleaveBody (x : Ctx) (m : Mach) : R Mach :=
  let h := handleOf m.cur x.f.d
  if h.getLsbD 61 then .ok m
  else
    let m : Mach := { m with cur := putHandle m.cur x.f.d (hSetLeave h) }
    .ok (if hKey h = keyObs then m else memberStop m (hGroup h) (hKey h) false)

/-- An arrival with its contribution: the phase it returns and whether it was counted; a counted member whose phase has not completed waits. None:
the arrival must wait (R368). -/
def arriveAt (m : Mach) (h : Word) (con : Part) : Option (Nat × Mach) :=
  match m.group (hGroup h) with
  | none => some (0, m)
  | some g =>
    match memberOf g h with
    | some k =>
      if !k.counted then some (g.done, groupTest m g.idx)
      else if g.done < k.arr then none
      else
        let m := m.setGroup { g with members := g.members.map (fun y => if y.key = k.key then { y with arr := k.arr + 1, con := some { con with key := k.key } } else y) }
        some (k.arr, groupTest m g.idx)
    | none => some (g.done, groupTest m g.idx)

/-- The arrival of `garr`, `gbar`, `gvote` and `gred`: the segment commits before it is counted (R202, R368). [DEDUCED, assumption log 16] -/
def arrive (x : Ctx) (m : Mach) (con : Part) : R (Nat × Mach) := do
  let m ← commit m
  match arriveAt m (handleOf m.cur x.f.a) con with
  | some r => .ok r
  | none => .error (.stall .arrival (fun m => match commit m with | .ok m => m | .error _ => m))

/-- The contribution of an arrival that carries none. -/
def bareCon : Part := { key := 0, ins := 0, mode := 0, y := 0, val := 0 }

def garrBody (x : Ctx) (m : Mach) : R Mach := do
  let (p, m) ← arrive x m bareCon
  .ok (groupTidy { m with cur := putUniform m.cur x.f.d (w64 p) tI64 0 } (hGroup (handleOf x.ca x.f.a)))

def gwaitBody (x : Ctx) (m : Mach) : R Mach :=
  .ok (park m m.cur.tid (.group (hGroup (handleOf x.ca x.f.a)) (opB x 5 x.low) .wait x.e))

/-- An arrival followed by the wait for its phase. -/
def arriveWait (x : Ctx) (m : Mach) (con : Part) (act : GroupAct) : R Mach := do
  let (p, m) ← arrive x m con
  .ok (park m m.cur.tid (.group (hGroup (handleOf x.ca x.f.a)) (w64 p) act x.e))

def gbarBody (x : Ctx) (m : Mach) : R Mach := arriveWait x m bareCon (.bar x.f.d)

def gvoteBody (x : Ctx) (m : Mach) : R Mach :=
  arriveWait x m { key := 0, ins := 1, mode := modeOf x.f, y := 0, val := if opB x 6 x.low = 0 then 0 else 1 } (.vote x.f.d (modeOf x.f == 0))

def gredBody (x : Ctx) (m : Mach) : R Mach :=
  arriveWait x m { key := 0, ins := 2, mode := modeOf x.f, y := x.y, val := opB x x.y x.low } (.red x.f.d (modeOf x.f) x.y)

/-- The status word (R370). -/
def gstatWord (g : Group) (h : Word) : Nat :=
  let counted := match memberOf g h with | some k => k.counted | none => false
  g.done % 2 ^ 32 + (g.members.filter (·.counted)).length * 2 ^ 44 + b2n (h.getLsbD 61) * 2 ^ 60 + b2n (h.getLsbD 62) * 2 ^ 61 +
  b2n counted * 2 ^ 62 + b2n g.fault * 2 ^ 63

def gstatBody (x : Ctx) (m : Mach) : R Mach :=
  let h := handleOf x.ca x.f.a
  match m.group (hGroup h) with
  | none => .ok { m with cur := putLane x 64 false tRAW x.f.d x.low 0 m.cur }
  | some g =>
    let m : Mach := { m with cur := putLane x 64 false tRAW x.f.d x.low (w64 (gstatWord g h)) m.cur }
    .ok (if modeOf x.f = 1 then m.setGroup { g with fault := false } else m)

/-- `gfind` (R371). [DEDUCED, assumption log 16] -/
def gfindBody (x : Ctx) (m : Mach) : R Mach :=
  let name := match x.f.a with | .s r => sGet x.ca r.toNat | _ => 0
  let h : Word :=
    match groupNamed m m.cur.job name with
    | none => 0
    | some g =>
      let own := g.members.filter (fun k => k.tid == m.cur.tid)
      match own.find? (fun k => !k.leaving) with
      | some k => hMake k.pending false g.idx k.key
      | none =>
        match own with
        | k :: _ => hMake k.pending true g.idx k.key
        | [] => hMake false false g.idx keyObs
  .ok { m with cur := putHandle m.cur x.f.d h }

/-! ### The meanings -/

/-- `gjoin` (R366). -/
def execGjoin (f : Fields) (s : State) : Host.Outcome State Fault Refusal := runInstr 0xA0 gjoinBody f s
/-- `gleave` (R371). -/
def execGleave (f : Fields) (s : State) : Host.Outcome State Fault Refusal := runInstr 0xA1 gleaveBody f s
/-- `garr` (R368). -/
def execGarr (f : Fields) (s : State) : Host.Outcome State Fault Refusal := runInstr 0xA2 garrBody f s
/-- `gwait` (R368). -/
def execGwait (f : Fields) (s : State) : Host.Outcome State Fault Refusal := runInstr 0xA3 gwaitBody f s
/-- `gbar` (R368). -/
def execGbar (f : Fields) (s : State) : Host.Outcome State Fault Refusal := runInstr 0xA4 gbarBody f s
/-- `gvote` (R369). -/
def execGvote (f : Fields) (s : State) : Host.Outcome State Fault Refusal := runInstr 0xA5 gvoteBody f s
/-- `gred` (R369). -/
def execGred (f : Fields) (s : State) : Host.Outcome State Fault Refusal := runInstr 0xA6 gredBody f s
/-- `gstat` (R370). -/
def execGstat (f : Fields) (s : State) : Host.Outcome State Fault Refusal := runInstr 0xA7 gstatBody f s
/-- `gfind` (R371). -/
def execGfind (f : Fields) (s : State) : Host.Outcome State Fault Refusal := runInstr 0xA8 gfindBody f s

end Sys2Proof.Machine
end

