-- ==== Sys2Proof/Machine/MatrixOps.lean ====
section
/-! DEFINITION. Matrix instructions, opcodes 0xD0 to 0xD7, and the events of the sequencer (R397 to R410). -/

namespace Sys2Proof.Machine

/-- Control cores have no matrix unit. -/
def matrixCore (x : Ctx) (m : Mach) : R Unit := if isControl m.cur.core then .error (trapOf 0x21 none 0 0 0 0) else let _ := x; .ok ()

/-! ### Loads (R398 to R400) -/

/-- Alignment of a load's data: the address that fails and the size it must be aligned to (R400). [DEDUCED, assumption log 26] -/
def loadAlign (d : LoadDesc) : Option (Nat × Nat) :=
  let two := decide (d.fmt ≤ 1) || d.fmt == 6
  if d.layout = 1 ∧ d.saddr % 128 ≠ 0 then some (d.saddr, 128)
  else if two ∧ d.saddr % 2 ≠ 0 then some (d.saddr, 2)
  else if two ∧ d.cstr % 2 ≠ 0 then some (wrapTo 64 (d.saddr + d.cstr), 2)
  else none

/-- The smallest range that holds some ranges. [DEDUCED, assumption log 26] -/
def rangeHull (l : List (Nat × Nat)) : Nat × Nat :=
  match l with
  | [] => (0, 0)
  | r :: t =>
    let lo := t.foldl (fun b x => min b x.1) r.1
    let hi := t.foldl (fun b x => max b (x.1 + x.2)) (r.1 + r.2)
    (lo, hi - lo)

/-- Scoreboard ranges of a load: its data and its scale bytes. -/
def loadRanges (job : Nat) (d : LoadDesc) : List SbRange :=
  let data := loadRuns { d with scale := 0 }
  let scales := (loadRuns d).filter (fun r => !data.contains r)
  (if data.isEmpty then [] else let h := rangeHull data; [.mem job h.1 h.2]) ++
  (if d.scale = 0 ∨ scales.isEmpty then [] else let h := rangeHull scales; [.mem job h.1 h.2])

/-- A command that takes `n` scoreboard entries waits for an overlap of its regions with an earlier command's, or for free entries (R160, R243). -/
def sbRoom (m : Mach) (core : Nat) (rs : List SbRange) (n : Nat := rs.length) : R Unit :=
  if (sbConflict m core rs).isSome || decide (64 < (m.core core).sb.length + n) then .error (.stall .scoreboard id) else .ok ()

/-- Take scoreboard entries for a command. -/
def sbTake (m : Mach) (id : Nat) (pc : Word) (rs : List (Bool × SbRange)) : Mach :=
  m.modCore m.cur.core (fun k => { k with sb := k.sb ++ rs.map (fun r => { id := id, tid := m.cur.tid, pc := pc, src := r.1, range := r.2 }) })

/-- Two macro sets share a macro. -/
def setsMeet (f n f' n' : Nat) : Bool := decide (f < f' + n' ∧ f' < f + n)

/-- Completed loads that a macro or a waiting step still names. -/
def mdataLive (k : Core) : List MData :=
  k.mdata.filter (fun x => k.macros.any (fun e => e.2.load == x.load) || k.seqq.any (fun o => match o with | .step _ l _ _ _ _ _ => l == x.load | _ => false))

/-- Steps 2 to 4 of a load, its leave apart (R400): the answer is its operation number. `lane`: the lowest Active lane, which a fault reports (R173, R254). -/
def loadIssue (pc : Word) (lane : Nat) (desc : List Byte) (m : Mach) : R (Nat × Mach) := do
  let d := loadDesc desc
  let pages := runPages lane (loadRuns d)
  let first := pages.any (fun a => decide (2 ^ 57 ≤ a.va) || inBte a.va)
  match loadAlign d with
  | some (a, n) => do
    -- the address bits are checked before alignment (R173)
    let _ ← if first then (checkAll m (whoOf m.cur) 1 true pages).map (·.1) else .ok m
    .error (trapOf 0x22 none (w64 a) (w64 n) 0 0)
  | none =>
    let (m, _) ← checkAll m (whoOf m.cur) 1 true pages
    let rs := loadRanges m.cur.job d
    sbRoom m m.cur.core rs
    let (id, m) := m.newOp
    let tid := m.cur.tid
    let m := sbTake m id pc (rs.map (fun r => (true, r)))
    let mine (c : Crew) : Crew :=
      { c with loads := c.loads.filter (fun l => !setsMeet l.mfirst l.nmac d.mfirst d.nmac) ++ [{ id := id, mfirst := d.mfirst, nmac := d.nmac, desc := desc }] }
    let m : Mach := { m with cur := mine m.cur }
    let m := m.modCore m.cur.core (fun k =>
      let k := { k with macros := (List.range d.nmac).foldl (fun l i => smPut l (d.mfirst + i) { tid := tid, load := id, mark := none }) k.macros }
      { k with mdata := mdataLive k })
    .ok (id, seqPush (leeCharge m m.cur id false 4) m.cur.core (.load tid id pc desc))

/-- `mldb` (R398 to R400). [DEDUCED, assumption log 26] -/
def mldbBody (x : Ctx) (m : Mach) : R Mach := do
  matrixCore x m
  let desc := sRecord x.ca x.f.a 4
  let (_, _) ← loadIssue x.pc x.low desc m
  let m ← leeAsk m m.cur (leeExcess m m.cur false 4)
  let (_, m) ← loadIssue x.pc x.low desc m
  .ok m

/-! ### Steps (R401 to R403) -/

/-- What the step's window reads as it was before results that it came too early for; `c` is the crew before the step (R163). -/
def stepOld (c : Crew) (regs : List Nat) (ctr : Nat) : List Saved :=
  let early := if c.chk then [] else metOld c (regs.map (fun r => (0, r))) ctr
  let k := seeOld c early
  (early.map (fun q => savedReg q.saved)).eraseDups.map (saveReg k)

/-- Units of lee leave of a step (R28). -/
def stepUnits (d : StepDesc) : Nat := ((match fmtWidth d.fmt with | 16 => 20 | 8 => 24 | _ => 35) * d.nmac + 31) / 32

/-- The open batch closes (R406). -/
def closeBatch (c : Crew) : Crew :=
  match c.openB with
  | none => c
  | some b => { c with openB := none, closedB := if b.left = 0 then c.closedB else c.closedB ++ [b] }

/-- A full open batch closes before a step joins (R406). -/
def closeFull (c : Crew) : Crew :=
  match c.openB with
  | some b => if 16 ≤ b.steps then closeBatch c else c
  | none => c

/-- A step joins the open batch, which is opened when there is none. -/
def joinBatch (m : Mach) : Nat × Mach :=
  match m.cur.openB with
  | some b => (b.id, { m with cur := { m.cur with openB := some { b with steps := b.steps + 1, left := b.left + 1 } } })
  | none =>
    let (id, m) := m.newOp
    (id, { m with cur := { m.cur with openB := some { id := id, steps := 1, left := 1 } } })

/-- The macros of a set still hold the crew's load (R159, R402). [DEDUCED, assumption log 26] -/
def setHeld (m : Mach) (l : Load) : Bool :=
  (List.range l.nmac).all (fun i => match smFind (m.core m.cur.core).macros (l.mfirst + i) with | some q => q.tid == m.cur.tid && q.load == l.id | none => false)

/-- `mmas` (R401, R402, R404). [DEDUCED, assumption log 26] -/
def mmasBody (x : Ctx) (m : Mach) : R Mach := do
  matrixCore x m
  let pb := sRecord x.ca x.f.a 8
  let d := stepDesc pb
  let regs := stepRegs d
  let old := stepOld x.cd regs (x.free + 5)
  let seen := old.foldl restoreReg m.cur
  match regs.find? (fun r => vTag seen r != BitVec.ofNat 4 (tyTag (mfTy d.fmt))) with
  | some r => .error (fmtTag 1 (vTag seen r) (.v (BitVec.ofNat 9 r)))
  | none =>
    match stepLoad m.cur d with
    | none => .error (fieldBad (0x500 + d.mfirst))
    | some l =>
      let again := !setHeld m l
      -- the reload's own checks come first
      let (_, m') ← if again then loadIssue x.pc x.low l.desc m else .ok (l.id, m)
      let cost := leeExcess m' m'.cur true (stepUnits d) - leeCoreMax (m.die (dieOf m.cur.core)).lee.grants m.cur.core
      let win : SbRange := .win m.cur.tid d.awin d.awcnt
      sbRoom m' m.cur.core [win]
      let m : Mach := { m with cur := closeFull m.cur }
      if m.cur.openB.isNone && decide (8 ≤ coreBatches m m.cur.core) then
        .error (.stall .batch (fun m => { m with cur := closeFull m.cur }))
      else
        let m ← leeAsk m m.cur (cost + (if again then leeExcess m m.cur false 4 else 0))
        let (load, m) ← if again then loadIssue x.pc x.low l.desc m else .ok (l.id, m)
        let (batch, m) := joinBatch m
        let (id, m) := m.newOp
        let m := sbTake m id x.pc [(true, win)]
        .ok (seqPush (leeCharge m m.cur id true (stepUnits d)) m.cur.core (.step m.cur.tid load batch id old pb false))

/-! ### Batches (R406) -/

def mcommitBody (x : Ctx) (m : Mach) : R Mach := do
  matrixCore x m
  .ok { m with cur := closeBatch m.cur }

def mwaitBody (x : Ctx) (m : Mach) : R Mach := do
  matrixCore x m
  let n := match x.f.a with | .imm k => k.toNat | _ => 0
  let m : Mach := { m with cur := closeBatch m.cur }
  if crewBatches m.cur ≤ n then .ok m else .error (.stall .batch (fun m => { m with cur := closeBatch m.cur }))

/-! ### Accumulators (R407, R409, R410) -/

def accOf (o : Opd) : Nat := match o with | .acc a => a.toNat | _ => 0

/-- ACCBUSY (R407). -/
def accFree (m : Mach) (a : Nat) : R Unit :=
  if (busyAccs m m.cur.core m.cur.tid).contains a then .error (trapOf 0x05 none (w64 a) (w64 (crewBatches m.cur)) 0 0) else .ok ()

/-- First row and row count of an access. -/
def accRows (x : Ctx) : Nat × Nat := (match x.f.b with | .imm k => k.toNat | _ => 0, modeOf x.f)

/-- Rows and columns of an access, in order. -/
def accCells (n : Nat) : List (Nat × Nat) := (List.range n).flatMap (fun i => (List.range 64).map (fun col => (i, col)))

/-- `mrd`: its destination entry is held until the rows are read, within the one step (R243, R409). -/
def mrdBody (x : Ctx) (m : Mach) : R Mach := do
  matrixCore x m
  let a := accOf x.f.a
  accFree m a
  let (f, n) := accRows x
  let base := runBase x.f.d
  sbRoom m m.cur.core [.win m.cur.tid base (2 * n)]
  let w := min m.cur.width 32
  let c := (accCells n).foldl (fun c e => if e.2 % 32 < w then vSet c (base + 2 * e.1 + e.2 / 32) (e.2 % 32) (accGet m.cur a (f + e.1) e.2) else c) m.cur
  .ok { m with cur := (List.range (2 * n)).foldl (fun c i => vSetTag c (base + i) tF32) c }

/-- `mwr`: its source entry is held until the rows are written, within the one step (R243, R409). -/
def mwrBody (x : Ctx) (m : Mach) : R Mach := do
  matrixCore x m
  let a := accOf x.f.d
  accFree m a
  let (f, n) := accRows x
  let base := runBase x.f.a
  sbRoom m m.cur.core [.win m.cur.tid base (2 * n)]
  let val (e : Nat × Nat) : Half := if e.2 % 32 < x.ca.width then vGet x.ca (base + 2 * e.1 + e.2 / 32) (e.2 % 32) else 0
  .ok { m with cur := (accCells n).foldl (fun c e => accSet c a (f + e.1) e.2 (val e)) m.cur }

def mzeroBody (x : Ctx) (m : Mach) : R Mach := do
  matrixCore x m
  let a := accOf x.f.d
  accFree m a
  .ok { m with cur := { m.cur with acc := m.cur.acc.filter (fun e => !decide (4096 * a ≤ e.1 ∧ e.1 < 4096 * a + 4096)) } }

/-- The word of `mstat` (R410). -/
def mstatWord (m : Mach) (mode : Nat) : Nat :=
  let k := m.core m.cur.core
  let mask (p : Macro → Bool) : Nat := k.macros.foldl (fun t e => if e.2.tid = m.cur.tid ∧ p e.2 then t + 2 ^ e.1 else t) 0
  match mode with
  | 1 => mask (fun _ => true)
  | 2 => mask (fun q => q.mark.isSome)
  | _ => (match m.cur.openB with | some b => b.steps | none => 0) + 2 ^ 8 * crewBatches m.cur + 2 ^ 16 * coreBatches m m.cur.core + 2 ^ 32 * min k.fenced 255

/-- `mstat` (R410). [DEDUCED, assumption log 26] -/
def mstatBody (x : Ctx) (m : Mach) : R Mach := do
  matrixCore x m
  .ok { m with cur := sSet m.cur (runBase x.f.d) (w64 (mstatWord m (modeOf x.f))) tRAW }

/-! ### Events of the sequencer -/

/-- The load at the head of the sequencer completes; a line that the host may hold is asked for first, and one that another engine's command holds is
waited for (R36, R242, R400). [DEDUCED, assumption log 38] -/
def loadRetire (m : Mach) (core : Nat) (err : Option Nat) : Mach :=
  match (m.core core).seqq with
  | .load tid id _ desc :: _ =>
    let w : Who := { core := core, job := (match m.crew tid with | some c => c.job | none => 0), sup := false, op := id }
    let held := heldLines m w (loadRuns (loadDesc desc))
    if !held.isEmpty then snoopSide held m
    else if engineStops m w (loadRuns (loadDesc desc)) then m.dueOnce (.mldbRetire core none)
    else loadDone m core err
  | _ => m

/-! ### The meanings -/

/-- `mldb`. -/
def execMldb (f : Fields) (s : State) : Host.Outcome State Fault Refusal := runInstr 0xD0 mldbBody f s
/-- `mmas`. -/
def execMmas (f : Fields) (s : State) : Host.Outcome State Fault Refusal := runInstr 0xD1 mmasBody f s
/-- `mcommit`. -/
def execMcommit (f : Fields) (s : State) : Host.Outcome State Fault Refusal := runInstr 0xD2 mcommitBody f s
/-- `mwait`. -/
def execMwait (f : Fields) (s : State) : Host.Outcome State Fault Refusal := runInstr 0xD3 mwaitBody f s
/-- `mrd`. -/
def execMrd (f : Fields) (s : State) : Host.Outcome State Fault Refusal := runInstr 0xD4 mrdBody f s
/-- `mwr`. -/
def execMwr (f : Fields) (s : State) : Host.Outcome State Fault Refusal := runInstr 0xD5 mwrBody f s
/-- `mzero`. -/
def execMzero (f : Fields) (s : State) : Host.Outcome State Fault Refusal := runInstr 0xD6 mzeroBody f s
/-- `mstat`. -/
def execMstat (f : Fields) (s : State) : Host.Outcome State Fault Refusal := runInstr 0xD7 mstatBody f s
/-- The step at the head of a core's sequencer starts (R403). -/
def execMatrixStepStart (core : Nat) (s : State) : Host.Outcome State Fault Refusal := runEvent (fun m => stepStart m core) s
/-- The step at the head of a core's sequencer retires (R405, R406). -/
def execMatrixStepRetire (core : Nat) (s : State) : Host.Outcome State Fault Refusal := runEvent (fun m => stepDone m core) s
/-- The load at the head of a core's sequencer retires (R400). -/
def execMldbRetire (core : Nat) (err : Option Nat) (s : State) : Host.Outcome State Fault Refusal := runEvent (fun m => loadRetire m core err) s

end Sys2Proof.Machine
end

