-- ==== Sys2Proof/Machine/MemOps.lean ====
section
/-! DEFINITION. Loads, stores, atomics, fences, monitors, prefetch and cache maintenance, opcodes 0x80 to 0x8A, and `cbload` (R344, R348 to R362). -/

namespace Sys2Proof.Machine

/-! ### Addresses (R349) -/

/-- Are the address operands A and B all uniform? -/
def uniAddr (x : Ctx) : Bool := opdIsS x.f.a && (opdIsS x.f.b || opdIsNone x.f.b)

/-- The tag of a register operand in a lane. -/
def laneTag (k : Crew) (o : Opd) (L : Nat) : Tag :=
  match o with
  | .v r => vTag k r.toNat
  | .ind r i => vTag k (effReg k r i L)
  | .s r => sTag k r.toNat
  | _ => tINV

/-- The index of a lane: I64 as it stands, I32 sign-extended, N32 zero-extended. -/
def indexVal (x : Ctx) (L : Nat) : Word :=
  match x.f.b with
  | .none => 0
  | o =>
    let t := laneTag x.cb o L
    if t = tI64 then opB x 4 L else if t = tI32 then sx (lo32 (opB x 1 L)) else opB x 2 L

/-- addr[L]. -/
def addrOf (x : Ctx) (size L : Nat) : Word := opA x 15 L + indexVal x L * w64 size + opC x 4 L

/-- An indirect index tagged I64 needs an even register and its pair (R134, R349). -/
def indexCheck (x : Ctx) (ls : List Nat) : R Unit :=
  match x.f.b with
  | .ind r i =>
    let d := x.cb.decl
    let wide (L : Nat) : Bool := vTag x.cb (effReg x.cb r i L) == tI64
    (match ls.find? (fun L => wide L && (effReg x.cb r i L % 2 != 0 || decide (d.vregs < effReg x.cb r i L + 2))) with
     | some L => .error (regRange L (effReg x.cb r i L) d.vregs)
     | none =>
       match ls.find? (fun L => wide L && vTag x.cb (effReg x.cb r i L + 1) != tI64) with
       | some L => .error (fmtTag 2 (vTag x.cb (effReg x.cb r i L + 1)) x.f.b)
       | none => .ok ())
  | _ => .ok ()

/-! ### Values of an access size (R351) -/

/-- The register bits of a loaded value. -/
def extendTo (y : Nat) (bs : List Byte) : Nat :=
  let n := ofBytes bs
  if y = 16 then wrapTo 32 (toSigned 8 n) else if y = 18 then wrapTo 32 (toSigned 16 n) else n

/-- Is a loaded 32-bit value extended by its sign in an `s` register (R135)? -/
def loadSigned (y : Nat) : Bool := y == 1 || y == 16 || y == 18

/-- Write bytes of a type to a register operand in a lane; `k` holds the index registers. -/
def putBytes (k : Crew) (d : Opd) (y L : Nat) (bs : List Byte) (c : Crew) : Crew :=
  let t : Tag := BitVec.ofNat 4 (tyTag y)
  let n := extendTo y bs
  let words := if y = 22 then 4 else if tyBits y = 64 then 2 else 1
  let vs (c : Crew) (r : Nat) : Crew :=
    (List.range words).foldl (fun c i => vSetTag (vSet c (r + i) L (BitVec.ofNat 32 (n / 2 ^ (32 * i)))) (r + i) t) c
  match d with
  | .v r => vs c r.toNat
  | .ind r i => vs c (effReg k r i L)
  | .s r =>
    if y = 22 then sSet (sSet c r.toNat (w64 n) t) (r.toNat + 1) (w64 (n / 2 ^ 64)) t
    else sSet c r.toNat (if words = 1 ∧ loadSigned y then sx (BitVec.ofNat 32 n) else w64 n) t
  | _ => c

/-- The value of an operand of a type in a lane, of the access size. -/
def sizedVal (x : Ctx) (k : Crew) (y : Nat) (o : Opd) (L : Nat) : Nat :=
  if y = 22 then
    match o with
    | .v r => (List.range 4).foldl (fun t i => t + (vGet k (r.toNat + i) L).toNat * 2 ^ (32 * i)) 0
    | .ind r j => (List.range 4).foldl (fun t i => t + (vGet k (effReg k r j L + i) L).toNat * 2 ^ (32 * i)) 0
    | .s r => (sGet k r.toNat).toNat + (sGet k (r.toNat + 1)).toNat * 2 ^ 64
    | _ => 0
  else (srcVal x k y o L).toNat % 2 ^ (8 * tySize y)

/-! ### Loads (R352, R353) -/

/-- Own speculative lines that the accesses reach commit alone (R204). -/
def commitOwns : List Nat → Mach → R Mach
  | [], m => .ok m
  | l :: t, m =>
    match commitOwn m l with
    | .ok m => commitOwns t m
    | .error e => .error e

/-- PERM for an aperture access that the host refused, task-precise (R40, R253). -/
def refusedExc (pc va : Word) (kind leaf status : Nat) : Exc :=
  { code := 0x21, lane := none, info0 := va, info1 := w64 (kind * 256 + 0x1000 + leaf), info2 := w64 status, info3 := 0, commit := false, pc := pc, late := true }

/-- The number under which a crew's reads of the host aperture for a record are known. -/
def crewOp (c : Crew) : Nat := 2 ^ 48 + c.tid

/-- What the host has answered for the aperture pieces of a record: every one must have come (R39, R40). A refusal is met after the issue: the crew stops at the
boundary behind the instruction, which has had no other effect (R248, R250). [DEDUCED, assumption log 29] -/
def apPieces (x : Ctx) (op align : Nat) (oks : List Ok) (m : Mach) : R Unit :=
  let aps := oks.filter (fun o => isAperture o.pa)
  let unasked := aps.filter (fun o => match apLook m op (o.pa - apBase) with | .unasked => true | _ => false)
  if !unasked.isEmpty then .error (.stall .aperture (fun m0 => unasked.foldl (fun m o => apAsk m op (o.pa - apBase) align) m0))
  else if aps.any (fun o => match apLook m op (o.pa - apBase) with | .waiting => true | _ => false) then .error (.stall .aperture id)
  else
    match aps.findSome? (fun o => match apLook m op (o.pa - apBase) with | .refused st => some (o, st) | _ => none) with
    | some (o, st) =>
      .error (.after (refusedExc x.pc (w64 o.acc.va) 1 (lfInfo o.leaf) st) (fun m => let m := apUsed m op; { m with cur := retire m.cur x }))
    | none => .ok ()

/-- The race check of a crew's plain loads in a job's address space. In another job's (R434) the crew's strand has no serial number: it is unordered with every
strand of a running launch there, and it is not recorded (R210, R213). [DEDUCED, assumption log 31] -/
def raceRead (m : Mach) (job : Nat) (oks : List Ok) : R Mach :=
  if job = m.cur.job then raceCheck m false oks
  else
    match m.launch m.cur.launch with
    | none => .ok m
    | some l =>
      match (oks.filter (fun o => lfCHK o.leaf)).findSome? (fun o =>
        let words := wordMask o.acc.va o.acc.size
        let sr := shadowRec m job o.acc.va
        (raceHit m { l with job := job, lsn := 2 ^ 32, plsn := 0 } m.cur sr false words).map (fun h =>
          trapOf 0x10 (some o.acc.lane) (w64 (o.acc.va / 128 * 128)) (w64 (1 + words * 2 ^ 16 + srMask sr h.1 * 2 ^ 32)) h.2 (pdig m.cur.ped))) with
      | some h => .error h
      | none => .ok m

/-- A crew-uniform plain load of kind 1: n bytes at an address, checked in units of its alignment (R173, R201, R213, R225); from an aperture page the
bytes come from the host (R39). [DEDUCED, assumption log 18] -/
def loadRecord (m : Mach) (x : Ctx) (w : Who) (va n align : Nat) : R (Mach × List Byte) := do
  let accs : List Acc := (List.range (n / align)).map (fun i => { lane := x.low, va := va + align * i, size := align })
  if w.job = m.cur.job then sbStall m m.cur false accs else .ok ()
  let (m, oks) ← checkAll m w 1 true accs
  let m ← raceRead m w.job oks
  viewCheck m w.job x.cd.viewWait oks
  let op := crewOp m.cur
  apPieces x op align oks m
  let one (o : Ok) : List Byte :=
    if isAperture o.pa then (List.range align).map (fun i => match apLook m op (o.pa - apBase + i) with | .byte b => b | _ => 0) else taskRead m m.cur o.pa align
  .ok (apUsed m op, oks.flatMap one)

/-- A record in the crew's own address space. -/
def uniformLoad (m : Mach) (x : Ctx) (va n align : Nat) : R (Mach × List Byte) := loadRecord m x (whoOf m.cur) va n align

/-- The crew waits for the completions of its aperture accesses (R39, R40). The accesses of one instruction have one completion status, and `INFO0` of a
refusal is the address of the first of them in lane order: no rule says which. [DESIGN CHOICE, assumption log 18] -/
def apWait (x : Ctx) (kind : Nat) (dl : List (Nat × Nat)) (oks : List Ok) (m : Mach) : Mach :=
  match oks.filter (fun o => isAperture o.pa) with
  | [] => m
  | o :: _ =>
    -- place of a checked access among the aperture accesses
    let place (i : Nat) : Option Nat :=
      match oks[i]? with
      | some q => if isAperture q.pa then some ((oks.take i).filter (fun q => isAperture q.pa)).length else none
      | none => none
    let q : ApReq := { pc := x.pc, va := w64 o.acc.va, kind := kind, d := x.f.d, y := x.y, lanes := dl.filterMap (fun e => (place e.2).map (fun p => (e.1, p))),
                       size := tySize x.y, since := m.clk, leaf := lfInfo o.leaf }
    { m with cur := { m.cur with ap := some q } }

/-- Lanes of D, each with the place of its access. -/
def loadLanes (x : Ctx) (acc : List Nat) : List (Nat × Nat) :=
  (dLanes x x.f.d).map (fun L => (L, if acc.length = 1 then 0 else (acc.takeWhile (· != L)).length))

/-- `ld` (R349 to R353). [DEDUCED, assumption log 18] -/
def ldBody (x : Ctx) (m : Mach) : R Mach := do
  let y := x.y
  let size := tySize y
  let acq := x.f.ord == 1
  let ls := if uniAddr x then [x.low] else dLanes x x.f.d
  indexCheck x ls
  let accs : List Acc := ls.map (fun L => { lane := L, va := (addrOf x size L).toNat, size := size })
  sbStall m m.cur false accs
  let (m, oks) ← checkAll m (whoOf m.cur) 1 true accs
  let m ← if acq then .ok m else raceCheck m false oks
  viewCheck m m.cur.job x.cd.viewWait oks
  let m ← if acq then commitOwns ((oks.filter (fun o => !isAperture o.pa)).map (fun o => o.pa / 128)) m else .ok m
  let dl := loadLanes x ls
  let m := oks.foldl (fun m o => if isAperture o.pa then m.send (.apRead (o.pa - apBase) size) else m) m
  let c := dl.foldl (fun c e =>
    match oks[e.2]? with
    | some o => if isAperture o.pa then c else putBytes x.cd x.f.d y e.1 (taskRead m m.cur o.pa size) c
    | none => c) m.cur
  .ok (apWait x 1 dl oks { m with cur := c })

/-! ### Stores (R352 to R354) -/

/-- One lane of a store. -/
structure StItem where
  acc   : Acc
  bytes : List Byte
  ok    : Option Ok

/-- The state in which an instruction stalls after k of its parts, children or lanes, have acted: they stay, and it goes on with the others. [DEDUCED, assumption log 11;
DEDUCED, assumption log 21] -/
def partSide (k : Nat) (m before : Mach) : Mach :=
  let b := before.cur
  { m with cur := { m.cur with
      pcs := b.pcs, pend := b.pend, stamp := b.stamp, holdTo := b.holdTo, stall := b.stall, demoted := b.demoted, boostLeft := b.boostLeft, placed := k
      atHome := { m.cur.atHome with op := if b.stall = some .engine then b.atHome.op else m.cur.atHome.op } } }

/-- Must a lane's store wait for a command that a lower lane of its instruction has just issued: for its source (R243), or for a line that it holds (R242)? -/
def storeWaits (m : Mach) (i : StItem) (o : Ok) : R Unit := do
  sbStall m m.cur true [i.acc]
  if !isAperture o.pa && crewHeld m (o.pa / 128) && !m.cur.seg.any (fun q => q.pa == o.pa / 128) then .error (.stall .engine (queueAt [o.pa / 128])) else .ok ()

/-- One lane of a store acts: an aperture lane issues its command, another stores, directly when the store releases (R352, R354). -/
def storeItem (rel : Bool) (pc : Word) (i : StItem) (m : Mach) : R Mach :=
  match i.ok with
  | none => bteAccept pc i.acc.va (ofBytes i.bytes) m
  | some o =>
    match storeWaits m i o with
    | .error h => .error h
    | .ok _ => if rel && !isAperture o.pa then .ok (commitRun m o.pa i.bytes) else doStore m pc o i.bytes

/-- The lanes act in ascending order, k of them before the first here; one that has to wait, for room in a channel or a way, stalls the crew there. [DEDUCED, assumption log 11; DEDUCED, assumption log 18] -/
def storeItems (rel : Bool) (pc : Word) : Nat → List StItem → Mach → R Mach
  | _, [], m => .ok m
  | k, i :: t, m =>
    match storeItem rel pc i m with
    | .ok m => storeItems rel pc (k + 1) t m
    | .error (.stall r side) => .error (.stall r (fun b => partSide k (side m) b))
    | .error e => .error e

/-- May a store's lane at the BTE aperture issue (R354, R413)? -/
def bteLegal (m : Mach) (i : StItem) : Bool :=
  i.acc.va % 1024 == 0 && decide (ofBytes i.bytes < 2 ^ 56) &&
  (match m.launch m.cur.launch with | some l => (smFind l.tmpls (bteIdx (ofBytes i.bytes))).isSome | none => false)

/-- Give each lane its checked access, in order. -/
def pairOks : List StItem → List Ok → List StItem
  | [], _ => []
  | i :: t, oks =>
    if inBte i.acc.va then i :: pairOks t oks
    else
      match oks with
      | o :: r => { i with ok := some o } :: pairOks t r
      | [] => i :: pairOks t []

/-- `st` (R349 to R354). [DEDUCED, assumption log 18] -/
def stBody (x : Ctx) (m : Mach) : R Mach := do
  let y := x.y
  let size := tySize y
  let rel := x.f.ord == 2
  let k := x.cd.placed
  let ls := (if uniAddr x && opdIsS x.f.d then [x.low] else x.lanes).drop k
  indexCheck x ls
  let items : List StItem := ls.map (fun L =>
    { acc := { lane := L, va := (addrOf x size L).toNat, size := size }, bytes := toBytes size (sizedVal x x.cd y x.f.d L), ok := none })
  let isCmd (i : StItem) : Bool := y == 6 && inBte i.acc.va
  let cmds := items.filter isCmd
  let plain := (items.filter (fun i => !isCmd i)).map (·.acc)
  match cmds.find? (fun i => !bteLegal m i) with
  | some i => .error (trapOf 0x21 (some i.acc.lane) (w64 i.acc.va) 0x200 0 0)
  | none =>
    sbStall m m.cur true plain
    let (m, oks) ← checkAll m (whoOf m.cur) 2 true plain
    let m ← if rel then .ok m else raceCheck m true oks
    let units := cmds.foldl (fun t i =>
      t + (match m.launch m.cur.launch with | some l => (match smFind l.tmpls (bteIdx (ofBytes i.bytes)) with | some q => bteUnits m q | none => 0) | none => 0)) 0
    let m ← leeAsk m m.cur (leeExcess m m.cur false units)
    let m ← if rel then commit m else .ok m
    storeItems rel x.pc k (pairOks items oks) m

/-! ### Atomics (R355 to R357) -/

/-- New value of an operation on w bits. -/
def atomNew (mode y w old v : Nat) : Nat :=
  if mode = 6 then v
  else if y = 3 then
    match mode with
    | 0 => (roundEx f32 0 0 (addEx 0 (decF f32 old) (decF f32 v))).1
    | 1 => (minMaxF f32 false old v).1
    | _ => (minMaxF f32 true old v).1
  else
    let le : Bool := if y = 1 ∨ y = 4 then decide (toSigned w old ≤ toSigned w v) else decide (old ≤ v)
    match mode with
    | 0 => (old + v) % 2 ^ w
    | 1 => if le then old else v
    | 2 => if le then v else old
    | 3 => old &&& v
    | 4 => old ||| v
    | _ => old ^^^ v

/-- Lanes act on memory in ascending order: the old bytes of each, none for one that the host serves. -/
def rmwLanes (size : Nat) (f : Nat → Nat → Option Nat) (apOut : Nat → Ok → Out) : List Ok → Mach → List (List Byte) × Mach
  | [], m => ([], m)
  | o :: t, m =>
    let (old, m) :=
      if isAperture o.pa then ([], m.send (apOut o.acc.lane o))
      else
        let old := memRead m.mem o.pa size
        (old, match f o.acc.lane (ofBytes old) with | some n => commitRun m o.pa (toBytes size n) | none => m)
    let (rest, m) := rmwLanes size f apOut t m
    (old :: rest, m)

/-- An atomic over some lanes: every check before any lane acts (R185, R186, R200, R204, R356). -/
def rmw (x : Ctx) (ls : List Nat) (rel ap : Bool) (f : Nat → Nat → Option Nat) (apOut : Nat → Ok → Out) (m : Mach) : R (List Ok × List (List Byte) × Mach) := do
  let size := tySize x.y
  let accs : List Acc := ls.map (fun L => { lane := L, va := (opA x 15 L).toNat, size := size })
  sbStall m m.cur false accs
  sbStall m m.cur true accs
  let (m, oks) ← checkAll m (whoOf m.cur) 3 ap accs
  let m ← if rel then commit m else .ok m
  let m ← commitOwns ((oks.filter (fun o => !isAperture o.pa)).map (fun o => o.pa / 128)) m
  let (old, m) := rmwLanes size f apOut oks m
  .ok (oks, old, m)

/-- Deliver old values to D; the completions of the host deliver the others. -/
def rmwPut (x : Ctx) (ls : List Nat) (oks : List Ok) (old : List (List Byte)) (m : Mach) : Mach :=
  let dl := loadLanes x ls
  let c := dl.foldl (fun c e =>
    match oks[e.2]? with
    | some o => if isAperture o.pa then c else putBytes x.cd x.f.d x.y e.1 (old.getD e.2 []) c
    | none => c) m.cur
  apWait x 3 dl oks { m with cur := c }

/-- `atom` (R355, R356). [DEDUCED, assumption log 18] -/
def atomBody (x : Ctx) (m : Mach) : R Mach := do
  let mode := modeOf x.f
  let size := tySize x.y
  let ls := dLanes x x.f.d
  let v (L : Nat) : Nat := sizedVal x x.cb x.y x.f.b L
  let (oks, old, m) ← rmw x ls (decide (2 ≤ x.f.ord.toNat)) (m.atomicEn && (mode == 0 || mode == 6))
    (fun L o => some (atomNew mode x.y (8 * size) o (v L)))
    (fun L o => .apAtomic (o.pa - apBase) (if mode = 0 then 0 else 1) (toBytes size (v L))) m
  .ok (rmwPut x ls oks old m)

/-- `red` (R355, R356). [DEDUCED, assumption log 18] -/
def redBody (x : Ctx) (m : Mach) : R Mach := do
  let mode := modeOf x.f
  let size := tySize x.y
  let v (L : Nat) : Nat := sizedVal x x.cb x.y x.f.b L
  let (_, _, m) ← rmw x x.lanes (decide (2 ≤ x.f.ord.toNat)) false (fun L o => some (atomNew mode x.y (8 * size) o (v L))) (fun _ _ => .hostCmp) m
  .ok m

def casBody (x : Ctx) (m : Mach) : R Mach := do
  let size := tySize x.y
  let ls := dLanes x x.f.d
  let b (L : Nat) : Nat := sizedVal x x.cb x.y x.f.b L
  let n (L : Nat) : Nat := sizedVal x x.cc x.y x.f.c L
  let (oks, old, m) ← rmw x ls (decide (2 ≤ x.f.ord.toNat)) m.atomicEn (fun L o => if o = b L then some (n L) else none)
    (fun L o => .apAtomic (o.pa - apBase) 2 (toBytes size (b L) ++ toBytes size (n L))) m
  .ok (rmwPut x ls oks old m)

/-! ### Monitors, prefetch, cache maintenance (R359 to R362) -/

def monarmBody (x : Ctx) (m : Mach) : R Mach := do
  let size := tySize x.y
  let va := addrOf x size x.low
  let (m, oks) ← checkAll m (whoOf m.cur) 1 true [{ lane := x.low, va := va.toNat, size := size }]
  .ok { m with cur := { m.cur with monitor := { armed := true, addr := va, line := (oks.map (fun o => o.pa / 128)).headD 0, fired := false } } }

/-- `monwait` (R360). [DEDUCED, assumption log 18] -/
def monwaitBody (_ : Ctx) (m : Mach) : R Mach :=
  let m : Mach := { m with cur := { m.cur with demoted := true } }
  if m.cur.monitor.fired || !m.cur.monitor.armed then
    .ok { m with cur := { m.cur with monitor := { m.cur.monitor with armed := false, fired := false } } }
  else .ok (park m m.cur.tid .monitor)

/-- A line is brought in when its checks pass, and left out without a trap when they do not (R361). [DESIGN CHOICE, assumption log 7; DEDUCED, assumption log 18] -/
def prefBody (x : Ctx) (m : Mach) : R Mach :=
  let size := tySize x.y
  let w := whoOf m.cur
  let ls := if uniAddr x then [x.low] else x.lanes
  .ok (ls.foldl (fun m L =>
    match check1 m w 1 true { lane := L, va := (addrOf x size L).toNat, size := size } with
    | .ok o =>
      let m := fillTlb m w.core w.job o.acc.va false
      if isAperture o.pa || m.held.contains (o.pa / 128) || lfCP o.leaf == 3 || setFull m (o.pa / 128) then m
      else touchLine m (treatAt m o.leaf o.pa) (lfCP o.leaf) (o.pa / 128)
    | .error _ => m) m)

/-- The resident lines of a page from one physical address to another. -/
def residentIn (m : Mach) (lo hi : Nat) : List Nat := (m.lineKey.map (·.1)).filter (fun l => decide (lo / 128 ≤ l ∧ l ≤ hi / 128))

/-- What `cclean` and `cinval` do to a line: written to DRAM, and for `cinval` of mode 1 evicted, which fires monitors (R359). -/
def cleanLine (inval : Bool) (mode : Nat) (m : Mach) (line : Nat) : Mach :=
  if mode = 0 then m
  else if inval then fireMonitors (evictLine m line) line
  else cleanDram m line

/-- The resident lines of a page that an access names, up to the address `last`; none in the aperture or on a page of `CP` 11. -/
def cleanedLines (m : Mach) (last va : Nat) (oks : List Ok) : List Nat :=
  oks.flatMap (fun o => if isAperture o.pa || lfCP o.leaf == 3 then [] else residentIn m o.pa (o.pa + (min last (va / 4096 * 4096 + 4095) - va)))

/-- Page by page: a failing page raises its trap after the lines below it have been processed; lines that an engine holds are finished first (R362). -/
def cleanPages (inval : Bool) (mode : Nat) (w : Who) (last : Nat) (before : Mach → Mach) : List Acc → Mach → R Mach
  | [], m => .ok m
  | a :: t, m =>
    if inBte a.va then cleanPages inval mode w last before t m
    else
      match checkAll m w 1 true [a] with
      | .error (.trap e) => .error (.after e before)
      | .error h => .error h
      | .ok (m, oks) =>
        let act (m : Mach) : Mach := (cleanedLines m last a.va oks).foldl (cleanLine inval mode) m
        if (cleanedLines m last a.va oks).any (crewHeld m) then .error (.stall .engine (fun m => queueAt [] (before m)))
        else cleanPages inval mode w last (fun m => act (before m)) t (act m)

/-- `cclean` and `cinval` (R362). [DEDUCED, assumption log 18] -/
def cacheBody (inval : Bool) (x : Ctx) (m : Mach) : R Mach :=
  let a := (opA x 15 x.low).toNat
  let n := (opB x 5 x.low).toNat
  if n = 0 ∨ 2 ^ 40 < n then .ok m
  else cleanPages inval (modeOf x.f) (whoOf m.cur) (a + n - 1) id ((pagesOf a n).map (fun p => { p with lane := x.low })) m

/-- `cbload` (R344). -/
def cbloadBody (x : Ctx) (m : Mach) : R Mach := do
  let r := runBase x.f.d
  let put (ws : List Nat) (m : Mach) : Mach :=
    { m with cur := (List.range 8).foldl (fun c i => sSet c (r + i) (w64 (ws.getD i 0)) tRAW) m.cur }
  match x.f.a with
  | .none => .ok (put ((List.range 8).map (fun i => (List.range 4).foldl (fun t j => t + cbDefault.getD (4 * i + j) 0 * 2 ^ (16 * j)) 0)) m)
  | _ =>
    let (m, bs) ← uniformLoad m x (opA x 15 x.low).toNat 64 64
    .ok (put ((List.range 8).map (fun i => fld bs (8 * i) 8)) m)

/-! ### The meanings -/

/-- `ld` (R352). -/
def execLd (f : Fields) (s : State) : Host.Outcome State Fault Refusal := runInstr 0x80 ldBody f s
/-- `st` (R352, R354). -/
def execSt (f : Fields) (s : State) : Host.Outcome State Fault Refusal := runInstr 0x81 stBody f s
/-- `atom` (R356). -/
def execAtom (f : Fields) (s : State) : Host.Outcome State Fault Refusal := runInstr 0x82 atomBody f s
/-- `red` (R356). -/
def execRed (f : Fields) (s : State) : Host.Outcome State Fault Refusal := runInstr 0x83 redBody f s
/-- `cas` (R357). -/
def execCas (f : Fields) (s : State) : Host.Outcome State Fault Refusal := runInstr 0x84 casBody f s
/-- `fence` (R358): a release commits the segment. [DEDUCED, assumption log 8] -/
def execFence (f : Fields) (s : State) : Host.Outcome State Fault Refusal :=
  runInstr 0x85 (fun x m => if 2 ≤ x.f.ord.toNat then commit m else .ok m) f s
/-- `monarm` (R359). -/
def execMonarm (f : Fields) (s : State) : Host.Outcome State Fault Refusal := runInstr 0x86 monarmBody f s
/-- `monwait` (R360). -/
def execMonwait (f : Fields) (s : State) : Host.Outcome State Fault Refusal := runInstr 0x87 monwaitBody f s
/-- `pref` (R361). -/
def execPref (f : Fields) (s : State) : Host.Outcome State Fault Refusal := runInstr 0x88 prefBody f s
/-- `cclean` (R362). -/
def execCclean (f : Fields) (s : State) : Host.Outcome State Fault Refusal := runInstr 0x89 (cacheBody false) f s
/-- `cinval` (R362). -/
def execCinval (f : Fields) (s : State) : Host.Outcome State Fault Refusal := runInstr 0x8A (cacheBody true) f s
/-- `cbload` (R344). -/
def execCbload (f : Fields) (s : State) : Host.Outcome State Fault Refusal := runInstr 0x61 cbloadBody f s

end Sys2Proof.Machine
end

