-- ==== Sys2Proof/Machine/ViewOps.lean ====
section
/-! DEFINITION. View instructions, opcodes 0xC0 to 0xC6, and the view engine's step (R219, R220, R222, R223, R394, R395). -/

namespace Sys2Proof.Machine

/-- A refusal's result (R394). -/
def refused (st : Nat) : Word := w64 (2 ^ 63 + st)

/-- Write `s`D with tag I64. -/
def putI64 (x : Ctx) (v : Word) (m : Mach) : Mach := { m with cur := putLane x 64 false tI64 x.f.d x.low v m.cur }

/-- The master that an id names, with its die, when it is the job's. -/
def masterById (m : Mach) (job id : Nat) : Option (Nat × Master) :=
  match findMaster m (id / 256) (id % 256) with
  | some ms => if ms.job = job then some (id / 256, ms) else none
  | none => none

/-- The view that an id names. -/
def viewById (m : Mach) (job id : Nat) : Option (Nat × Master × View) :=
  match masterById m job (id / 8) with
  | some (d, ms) => (ms.views.find? (fun v => v.idx == id % 8)).map (fun v => (d, ms, v))
  | none => none

/-- Every leaf of a virtual range in order, as (address, bytes of the range in the page, leaf); none when a part is not mapped. -/
def leavesOf (m : Mach) (job : Nat) : Nat → Nat → Nat → Option (List (Nat × Nat × BitVec 128))
  | 0, _, _ => some []
  | n + 1, va, len =>
    if len = 0 then some []
    else if 2 ^ 57 ≤ va then none
    else
      match walk m job va with
      | .error _ => none
      | .ok (l, _) =>
        let k := min len (pageBytes (lfSIZE l) - va % pageBytes (lfSIZE l))
        match leavesOf m job n (va + k) (len - k) with
        | none => none
        | some t => some ((va, k, l) :: t)

def rangeLeaves (m : Mach) (job va len : Nat) : Option (List (Nat × Nat × BitVec 128)) := leavesOf m job (len / 4096 + 2) va len

/-- The pages of a master: writable, plain and of one home (R219, R394). -/
def masterPages (m : Mach) (job base len : Nat) : Option (Nat × List (Nat × Nat × Nat)) :=
  match rangeLeaves m job base len with
  | none => none
  | some [] => none
  | some ((va, n, l) :: t) =>
    let all := (va, n, l) :: t
    if all.all (fun e => lfW e.2.2 && !lfVIEW e.2.2 && lfHome e.2.2 == lfHome l && !isAperture (lfFrame e.2.2)) then
      some (lfHome l, all.map (fun e => (paOf e.2.2 e.1, e.2.1, e.1 - base)))
    else none

/-- The pages of a view's range (R220, R394). -/
def viewPagesOk (m : Mach) (job base len idx die : Nat) : Bool :=
  match rangeLeaves m job base len with
  | none => false
  | some l => l.all (fun e => lfR e.2.2 && lfVIEW e.2.2 && !lfW e.2.2 && lfVPI e.2.2 == idx && lfHome e.2.2 == die)

/-- Enter blocks in the dirty queue (R222, R395). -/
def touchBlocks (m : Mach) (die mi first n : Nat) : Mach :=
  m.modDie die (fun d => { d with dirty := (List.range n).foldl (fun l i => if l.contains (mi, first + i) then l else l ++ [(mi, first + i)]) d.dirty })

/-- Bytes of a master. -/
def masterLen (ms : Master) : Nat := ms.nblk * blockBytes ms

def vwregBody (x : Ctx) (m : Mach) : R Mach := do
  let (m, b) ← uniformLoad m x (opA x 15 x.low).toNat 16 8
  let job := m.cur.job
  let base := fld b 0 8
  let n := fld b 8 4
  let bf := bit (fld b 12 1) 0
  let sz := if bf then 512 else 1024
  let bad := n == 0 || decide (16777216 < n) || decide (4 ≤ fld b 12 1) || !zeros b 13 3 || base % sz != 0
  if bad then .ok (putI64 x (refused 2) m)
  else
    match masterPages m job base (n * sz) with
    | none => .ok (putI64 x (refused 3) m)
    | some (die, pages) =>
      if m.dies.any (fun e => e.2.masters.any (fun q => q.job == job && decide (q.base < base + n * sz ∧ base < q.base + masterLen q))) then .ok (putI64 x (refused 4) m)
      else
        match (List.range 256).find? (fun i => (findMaster m die i).isNone) with
        | none => .ok (putI64 x (refused 1) m)
        | some i =>
          let ms : Master := { idx := i, job := job, base := base, nblk := n, bf16 := bf, square := bit (fld b 12 1) 1, pages := pages, versions := [], views := [], faulted := false }
          .ok (putI64 x (w64 (256 * die + i)) (m.modDie die (fun d => { d with masters := d.masters ++ [ms] })))

/-- A view descriptor with a field out of range (R220, R394). -/
def viewDescBad (square : Bool) (b : List Byte) : Bool :=
  let f := fld b 16 1
  let fmt := bits f 2 0
  fld b 0 8 % 128 != 0 || fld b 8 8 % 8 != 0 || (fmt == 4 && fld b 8 8 != 0) || decide (4 < fmt) || decide (2 < bits f 4 3) || decide (2 < bits f 6 5) ||
  bit f 7 || decide (7 < fld b 17 1) || !zeros b 19 13 || (bits f 4 3 == 1 && !square)

/-- `vwadd` (R395). A view that is added to a FAULTED master is FAULTED with it (R227). [DEDUCED, assumption log 25] -/
def vwaddBody (x : Ctx) (m : Mach) : R Mach := do
  let (m, b) ← uniformLoad m x (opB x 15 x.low).toNat 32 8
  let job := m.cur.job
  match masterById m job (opA x 4 x.low).toNat with
  | none => .ok (putI64 x (refused 6) m)
  | some (die, ms) =>
    if viewDescBad ms.square b then .ok (putI64 x (refused 2) m)
    else
      match (List.range 8).find? (fun i => !ms.views.any (fun v => v.idx == i)) with
      | none => .ok (putI64 x (refused 5) m)
      | some i =>
        let f := fld b 16 1
        let fmt := bits f 2 0
        let vdie := fld b 17 1
        if !viewPagesOk m job (fld b 0 8) (ms.nblk * vfBytes fmt) i vdie || (fmt != 4 && !viewPagesOk m job (fld b 8 8) (8 * ms.nblk) i vdie) then
          .ok (putI64 x (refused 3) m)
        else
          let v : View := { idx := i, dbase := fld b 0 8, sbase := fld b 8 8, format := fmt, layout := bits f 4 3, pol := bits f 6 5, die := vdie,
                            clip := fld b 18 1, recs := [], faulted := ms.faulted }
          let m := touchBlocks (setMaster m die { ms with views := ms.views ++ [v] }) die ms.idx 0 ms.nblk
          .ok (putI64 x (w64 (viewId die ms.idx i)) m)

def vwdropBody (x : Ctx) (m : Mach) : R Mach :=
  let id := (opA x 4 x.low).toNat
  if modeOf x.f = 0 then
    match viewById m m.cur.job id with
    | none => .ok (putI64 x (refused 6) m)
    | some (die, ms, v) => .ok (putI64 x 0 (setMaster m die { ms with views := ms.views.filter (fun q => q.idx != v.idx) }))
  else
    match masterById m m.cur.job id with
    | none => .ok (putI64 x (refused 6) m)
    | some (die, ms) =>
      .ok (putI64 x 0 (m.modDie die (fun d => { d with masters := d.masters.filter (fun q => q.idx != ms.idx), dirty := d.dirty.filter (fun e => e.1 != ms.idx) })))

/-- Has a view published a version of every block at least the versions given, or is it faulted? -/
def viewCaught (m : Mach) (die mi : Nat) (vers : List (Nat × Nat)) (nblk vi : Nat) : Bool :=
  match findMaster m die mi with
  | none => true
  | some ms =>
    match ms.views.find? (fun v => v.idx == vi) with
    | none => true
    | some v => v.faulted || (List.range nblk).all (fun b => viewFresh v b (smGet 0 vers b))

/-- The views named by `vwsync` catch up with the versions read at issue; the engine works on meanwhile (R395).
An entry beyond every block number says that they have been read. [DEDUCED, assumption log 25] -/
def vwsyncBody (x : Ctx) (m : Mach) : R Mach :=
  let id := (opA x 4 x.low).toNat
  let named : Option (Nat × Master × List Nat) :=
    if modeOf x.f = 0 then (viewById m m.cur.job id).map (fun q => (q.1, q.2.1, [q.2.2.idx]))
    else (masterById m m.cur.job id).map (fun q => (q.1, q.2, q.2.views.map (·.idx)))
  match named with
  | none => .ok (putI64 x (refused 6) m)
  | some (die, ms, vs) =>
    let vers := if x.cd.viewWait.isEmpty then ms.versions else x.cd.viewWait
    let caught (m : Mach) : Bool := vs.all (viewCaught m die ms.idx vers ms.nblk)
    let n := (m.die die).dirty.length + 1
    let m := viewUntil die caught n m
    -- a block that waits for the host holds the crew up (R36)
    if !caught m then .error (.stall .view (fun m0 => let m0 := viewUntil die caught n m0; { m0 with cur := { m0.cur with viewWait := smPut vers (2 ^ 62) 1 } }))
    else
    let bad := match findMaster m die ms.idx with | some q => q.views.any (fun v => vs.contains v.idx && v.faulted) | none => false
    .ok (putI64 x (if bad then refused 7 else 0) m)

def vwverBody (x : Ctx) (m : Mach) : R Mach :=
  let b := (opB x 2 x.low).toNat
  match viewById m m.cur.job (opA x 4 x.low).toNat with
  | none => .ok (putI64 x (refused 6) m)
  | some (_, ms, v) =>
    if ms.nblk ≤ b then .ok (putI64 x (refused 8) m)
    else if modeOf x.f = 0 then .ok (putI64 x (w64 (smGet 0 ms.versions b)) m)
    else .ok (putI64 x (w64 ((match smFind v.recs b with | some r => r + 2 ^ 32 | none => 0) + b2n v.faulted * 2 ^ 33)) m)

def vwpolBody (x : Ctx) (m : Mach) : R Mach :=
  let n := (opB x 2 x.low).toNat
  match viewById m m.cur.job (opA x 4 x.low).toNat with
  | none => .ok (putI64 x (refused 6) m)
  | some (die, ms, v) =>
    if (if modeOf x.f = 0 then 2 else 255) < n then .ok (putI64 x (refused 2) m)
    else
      let old := if modeOf x.f = 0 then v.pol else v.clip
      let f (q : View) : View := if q.idx = v.idx then (if modeOf x.f = 0 then { q with pol := n } else { q with clip := n }) else q
      .ok (putI64 x (w64 old) (setMaster m die { ms with views := ms.views.map f }))

def vwtouchBody (x : Ctx) (m : Mach) : R Mach :=
  let b := (opB x 2 x.low).toNat
  let n := (opC x 2 x.low).toNat
  match masterById m m.cur.job (opA x 4 x.low).toNat with
  | none => .ok (putI64 x (refused 6) m)
  | some (die, ms) => if ms.nblk < b + n then .ok (putI64 x (refused 8) m) else .ok (putI64 x 0 (touchBlocks m die ms.idx b n))

/-- `vwreg`. -/
def execVwreg (f : Fields) (s : State) : Host.Outcome State Fault Refusal := runInstr 0xC0 vwregBody f s
/-- `vwadd`. -/
def execVwadd (f : Fields) (s : State) : Host.Outcome State Fault Refusal := runInstr 0xC1 vwaddBody f s
/-- `vwdrop`. -/
def execVwdrop (f : Fields) (s : State) : Host.Outcome State Fault Refusal := runInstr 0xC2 vwdropBody f s
/-- `vwsync`. -/
def execVwsync (f : Fields) (s : State) : Host.Outcome State Fault Refusal := runInstr 0xC3 vwsyncBody f s
/-- `vwver`. -/
def execVwver (f : Fields) (s : State) : Host.Outcome State Fault Refusal := runInstr 0xC4 vwverBody f s
/-- `vwpol`. -/
def execVwpol (f : Fields) (s : State) : Host.Outcome State Fault Refusal := runInstr 0xC5 vwpolBody f s
/-- `vwtouch`. -/
def execVwtouch (f : Fields) (s : State) : Host.Outcome State Fault Refusal := runInstr 0xC6 vwtouchBody f s
/-- A block is recomputed (R223). -/
def execViewRecompute (die err : Nat) (s : State) : Host.Outcome State Fault Refusal := runEvent (fun m => viewStep m die err) s

end Sys2Proof.Machine
end

