-- ==== Sys2Proof/Machine/EngineOps.lean ====
section
/-! DEFINITION. Copy templates, gathers, collectives, landing bindings and channel queries, opcodes 0xE0 to 0xE5, with the events of the engines
(R46, R411 to R422), and the completions of aperture accesses (R39, R40). -/

namespace Sys2Proof.Machine

/-! ### Templates (R412) -/

def btmplBody (x : Ctx) (m : Mach) : R Mach := do
  let idx := (opA x 6 x.low).toNat
  let (m, b) ← uniformLoad m x (opB x 15 x.low).toNat 128 64
  if 255 < idx then .ok (putI64 x (refused 1) m)
  else if tmplBad b then .ok (putI64 x (refused 2) m)
  else .ok (putI64 x 0 (m.modLaunch m.cur.launch (fun l => { l with tmpls := smPut l.tmpls idx b })))

/-! ### Gathers (R416) -/

/-- Virtual address of a lane's row of n words. -/
def rowAddr (x : Ctx) (n L : Nat) : Nat :=
  let i := if laneTag x.cb x.f.b L = tI32 then sx (lo32 (opB x 1 L)) else opB x 2 L
  (opA x 15 x.low + i * w64 (4 * n)).toNat

/-- The event that the gather at the head waits for. -/
def gathKick (m : Mach) (core : Nat) : Mach := if (m.core core).gaths.isEmpty then m else m.dueOnce (.gatherRetire core none)

def gathBody (x : Ctx) (m : Mach) : R Mach := do
  let n := modeOf x.f
  let first := runBase x.f.d
  let word (L i : Nat) : Nat := (rowAddr x n L + 4 * i) % 2 ^ 64
  let accs : List Acc := x.lanes.flatMap (fun L => (List.range n).map (fun i => { lane := L, va := word L i, size := 4 }))
  -- the gather engine of the die translates (R183)
  let (m, oks) ← checkAll m { whoOf m.cur with core := 344 + dieOf m.cur.core } 1 true accs
  viewCheck m m.cur.job x.cd.viewWait oks
  let win : SbRange := .win m.cur.tid first n
  sbRoom m m.cur.core (win :: x.lanes.map (fun L => .mem m.cur.job (rowAddr x n L) (4 * n))) 1
  let (id, m) := m.newOp
  let m := sbTake m id x.pc [(false, win)]
  let rows := (x.lanes.zip (List.range x.lanes.length)).map (fun e => (e.1, ((oks.drop (n * e.2)).take n).map (fun o => { pa := o.pa, va := o.acc.va, treat := treatAt m o.leaf o.pa })))
  let g : Gath := { id := id, tid := m.cur.tid, pc := x.pc, first := first, n := n, tag := yTag x.f.ty.toNat, rows := rows,
                    base := w64 ((oks.find? (fun o => isAperture o.pa)).elim 0 (·.acc.va)), leaf := (oks.find? (fun o => isAperture o.pa)).elim 0 (fun o => lfInfo o.leaf) }
  let empty := (m.core m.cur.core).gaths.isEmpty
  let m := m.modCore m.cur.core (fun k => { k with gaths := k.gaths ++ [g] })
  .ok (if empty then gathKick m m.cur.core else m)

/-- One word of a gather: the committed bytes, or what the host has answered. [DEDUCED, assumption log 28] -/
def gathWord (m : Mach) (op pa : Nat) : Half :=
  if isAperture pa then BitVec.ofNat 32 (ofBytes ((List.range 4).map (fun i => match apLook m op (pa - apBase + i) with | .byte b => b | _ => 0)))
  else BitVec.ofNat 32 (memNum m.mem pa 4)

/-- A lane's row goes to its registers. -/
def gathRow (op tid first L : Nat) : List GWord → Nat → Mach → Mach
  | [], _, m => m
  | w :: t, i, m => gathRow op tid first L t (i + 1) (m.modCrew tid (fun c => vSet c (first + i) L (gathWord m op w.pa)))

/-- The words of a gather, lane by lane. -/
def gathWords (g : Gath) : List GWord := g.rows.flatMap (·.2)

/-- What the host has answered for a gather's words: asked for when it has not been; true when all have come. -/
def gathHost (m : Mach) (g : Gath) : Mach × Bool :=
  (gathWords g).foldl (fun (acc : Mach × Bool) w =>
    if !isAperture w.pa then acc
    else
      match apLook acc.1 g.id (w.pa - apBase) with
      | .unasked => (apAsk acc.1 g.id (w.pa - apBase) 4, false)
      | .waiting => (acc.1, false)
      | _ => acc) (m, true)

/-- The status of the first word of a gather that the host has refused. -/
def gathRefused (m : Mach) (g : Gath) : Option Nat :=
  (gathWords g).findSome? (fun w => if isAperture w.pa then (match apLook m g.id (w.pa - apBase) with | .refused st => some st | _ => none) else none)

/-- KEYFAULT of the first word that its key treatment does not reach any more: its slot has been emptied, or its line stands under another (R56). [DEDUCED, assumption log 28] -/
def gathKey (m : Mach) (g : Gath) : Option Exc :=
  (gathWords g).findSome? (fun w =>
    if isAperture w.pa then none
    else (keyFails m w.treat (w.pa / 128)).map (fun rec =>
      { code := 0x23, lane := none, info0 := w64 w.va, info1 := w64 (if w.treat = 256 then 0x100 else w.treat), info2 := w64 rec, info3 := 0, commit := false,
        pc := g.pc, late := true }))

/-- Registers of which some row has a word in a line, with the line (R416). -/
def gathPoison (g : Gath) (pa : Nat) : List (Nat × Nat) :=
  (((g.rows.flatMap (fun r => r.2.zip (List.range g.n))).filter (fun e => e.1.pa / 128 == pa / 128)).map (fun e => g.first + e.2)).eraseDups.map
    (fun r => (r, 128 * (pa / 128)))

/-- The oldest gather of a core retires: its words, then the tags of the window. It waits for lines of the host and of other engines, for ways and for the
host's answers; a refused answer or an emptied key slot leaves the window as it was, and the task takes PERM or KEYFAULT (R40, R56). `err`: the
physical line that met an uncorrected error. [DEDUCED, assumption log 28; DEDUCED, assumption log 38] -/
def gathRetire (m : Mach) (core : Nat) (err : Option Nat) : Mach :=
  match (m.core core).gaths with
  | [] => m
  | g :: rest =>
    let lines := ((gathWords g).filter (fun w => !isAperture w.pa)).map (·.pa / 128)
    let held := lines.filter m.held.contains
    let (m, here) := gathHost m g
    if !held.isEmpty then snoopSide held m
    else if !here then m
    else if lines.any (engineHeld m g.id) || lines.any (fun l => (smFind m.lineKey l).isNone && setFull m l) then m.dueOnce (.gatherRetire core none)
    else
      let fin (m : Mach) : Mach := gathKick (sbRelease (apUsed (m.modCore core (fun k => { k with gaths := rest })) g.id) core g.id) core
      match ((gathRefused m g).map (refusedExc g.pc g.base 1 g.leaf)).or (gathKey m g) with
      | some e => fin (m.modCrew g.tid (fun c => { c with late := some (c.late.getD e) }))
      | none =>
        let m := g.rows.foldl (fun m r => gathRow g.id g.tid g.first r.1 r.2 0 m) m
        fin (m.modCrew g.tid (fun c =>
          let c := (List.range g.n).foldl (fun c i => vSetTag c (g.first + i) g.tag) c
          match err with
          | some pa => { c with poison := (gathPoison g pa).foldl (fun l e => smPut l e.1 e.2) c.poison }
          | none => c))

/-! ### Collectives (R418 to R420) -/

/-- The next ticket of a crew: which number it is is open; it is made of the launch's handle, the task's pedigree and the collectives that the crew has
begun, so that no schedule changes it (R2, R418). [DESIGN CHOICE, assumption log 28] -/
def ticketOf (c : Crew) : Nat := (digStep (digStep (w64 c.hnd) (pdig c.ped0)) 0).toNat % 2 ^ 40 * 2 ^ 20 + c.tickets.length % 2 ^ 20

/-- `coll` and `coll.arrival` (R417 to R419). [DEDUCED, assumption log 28] -/
def collBody (arrival : Bool) (x : Ctx) (m : Mach) : R Mach := do
  let (m, b) ← uniformLoad m x (opA x 15 x.low).toNat 64 8
  match collBad b with
  | some o => .error (fieldBad (0x400 + o))
  | none =>
    let d := collDesc b
    let size := collSize d.ty
    let len := d.w * size
    let buf (va : Nat) : List Acc := { lane := x.low, va := va, size := size } :: (pagesOf va len).map (fun a => { a with lane := x.low })
    let (m, _) ← checkAll m (whoOf m.cur) 1 true (buf d.sbuf)
    let (m, _) ← checkAll m (whoOf m.cur) 2 true (buf d.dbuf)
    let job := m.cur.job
    sbRoom m m.cur.core [.mem job d.sbuf len, .mem job d.dbuf len]
    let w : Who := { core := 352 + dieOf m.cur.core, job := job, sup := false, op := crewOp m.cur }
    let held := heldLines m w [(d.sbuf, len)]
    if 16 ≤ (m.cur.tickets.filter (fun t => t.status.isNone)).length then .error (.stall .tickets id)
    else if !held.isEmpty then .error (.stall .hostLine (snoopSide held))
    else if copyBusy m w [(d.sbuf, len), (d.dbuf, len)] then .error (.stall .engine (queueAt []))
    else
      let noDom := d.dom && (match m.job job with | some j => j.domain.isNone | none => true)
      match engineBytes w len m d.sbuf with
      | .later _ => .error (.stall .aperture (fun m0 => match engineBytes w len m0 d.sbuf with | .later m1 => m1 | _ => m0))
      | got =>
      let (bs, bad, m) := match got with | .data bs m => (bs, false, apUsed m w.op) | _ => ([], true, apUsed m w.op)
      let (op, m) := m.newOp
      let id := ticketOf m.cur
      let t : Ticket := { id := id, job := job, key := d.key, status := if noDom then some 6 else none, consumed := false }
      let m : Mach := { m with cur := sSet { m.cur with tickets := m.cur.tickets ++ [t] } (runBase x.f.d) (w64 id) tRAW }
      let p : Contrib := { op := op, src := none, tid := m.cur.tid, launch := m.cur.launch, ticket := id, level := d.level, block := d.block, dbuf := d.dbuf,
                           bad := bad, data := toElems size d.w bs }
      if noDom then .ok m
      else if combinesHere m job d.dom then .ok (collArrive m job arrival d p)
      else .ok (collSend m job arrival d p)

/-- `cwait` (R420). [DEDUCED, assumption log 28] -/
def cwaitBody (x : Ctx) (m : Mach) : R Mach :=
  let id := (opA x 6 x.low).toNat
  if m.cur.tickets.any (fun t => t.id == id && !t.consumed) then .ok (park m m.cur.tid (.coll id x.f.d)) else .ok (putI64 x (refused 5) m)

/-! ### Landing bindings (R421) and channel queries (R422) -/

/-- `lbase` (R421). [DEDUCED, assumption log 29] -/
def lbaseBody (x : Ctx) (m : Mach) : R Mach :=
  let k := match x.f.b with | .imm k => k.toNat | _ => 0
  let other := match (m.core m.cur.core).landing with | some b => b.tid != m.cur.tid | none => false
  match x.f.a with
  | .imm _ => .ok (if other then putI64 x (refused 1) m else putI64 x 0 (m.modCore m.cur.core (fun c => { c with landing := none })))
  | _ =>
    if other then .ok (putI64 x (refused 1) m)
    else .ok (putI64 x 0 (m.modCore m.cur.core (fun c => { c with landing := some { base := opA x 15 x.low, hnd := k, tid := m.cur.tid } })))

def bqueryBody (x : Ctx) (m : Mach) : R Mach :=
  let c := (opA x 6 x.low).toNat
  let q := chanGet m (c / 64) (c % 64)
  let v := if 511 < c then 0 else match modeOf x.f with | 0 => q.accepted | 1 => q.stamped | _ => q.queue.length
  .ok (putI64 x (w64 v) m)

/-- The first core, by number, whose landed payload can be counted: the arrival on the handle its crew has bound (R46, R421). Where the
binding has ended since the payload landed, the signal is dropped and the copy's stamp carries no error: R46 speaks of a binding that is absent when
the copy lands only. [DESIGN CHOICE, assumption log 29] -/
def landingStep (m : Mach) : Mach :=
  let try1 (core : Nat) : Option Mach :=
    match (m.core core).landed with
    | [] => none
    | (chan, op) :: rest =>
      let gone := m.modCore core (fun k => { k with landed := rest })
      let moved : Option Mach :=
        match (m.core core).landing with
        | none => some gone
        | some b =>
          match m.crew b.tid with
          | none => some gone
          | some c => (arriveAt gone (hGet c b.hnd) bareCon).map (fun r => groupTidy r.2 (hGroup (hGet c b.hnd)))
      moved.map (fun m =>
        let die := chan / 64
        let ch := chan % 64
        match (chanGet m die ch).queue with
        | k :: _ =>
          if k.op = op then
            let left := k.signals.filter (· != core)
            let m := headMod m die ch (fun k => { k with signals := left })
            if left.isEmpty then bteKick m die ch else m
          else m
        | [] => m)
  let m := (m.cores.findSome? (fun e => try1 e.1)).getD m
  -- an arrival that must wait for its phase is tried again
  if m.cores.any (fun e => !e.2.landed.isEmpty) then m.dueOnce .landingArrival else m

/-! ### Completions of aperture accesses (R39, R40) -/

/-! ### Lines that come back from the host (R36, R37) -/

/-- Every engine that may wait for a line looks again. -/
def kickAll (m : Mach) : Mach :=
  let m := m.cores.foldl (fun m e => gathKick (seqKick m e.1) e.1) m
  let m := m.dies.foldl (fun m e => e.2.chans.foldl (fun m c => bteKick m e.1 c.1) m) m
  m.colls.foldl (fun m x => if x.ready then m.due (.collectiveComplete x.job x.key false) else m) m

/-- A crew's aperture accesses complete: the data goes to its lanes, or the refusal becomes its trap. -/
def apComplete (m : Mach) (tid status : Nat) (data : List Byte) : Mach :=
  m.modCrew tid (fun c =>
    match c.ap with
    | none => c
    | some q =>
      let c := { c with ap := none, stamp := m.clk }
      if status = 0 then q.lanes.foldl (fun k e => putBytes c q.d q.y e.1 (slice data (q.size * e.2) q.size) k) c
      else { c with late := some (c.late.getD (refusedExc q.pc q.va q.kind q.leaf status)) })

/-- Numbers from here on name engines' reads of the host's memory, the read's number counted from it (PRESUMED, assumption log 5). -/
def engRead : Nat := 2 ^ 48

/-- An engine's read of the host's memory is answered, and what waits for it looks again. A number that no open read has is a late completion, which is
dropped and counted (R40). -/
def engComplete (m : Mach) (num status : Nat) (data : List Byte) : Mach :=
  if m.apEng.any (fun e => e.num == num && e.answer.isNone) then
    kickAll { m with apEng := m.apEng.map (fun e => if e.num = num then { e with answer := some (status, data) } else e) }
  else linkDrop m 16

/-- A completion that does not come in time is taken for status 3. -/
def engExpire (m : Mach) (num : Nat) : Mach :=
  if m.apEng.any (fun e => e.num == num && e.answer.isNone && decide (e.since + apLimit m ≤ m.clk)) then engComplete m num 3 [] else m

def apExpire (m : Mach) (tid : Nat) : Mach :=
  match m.crew tid with
  | some c => match c.ap with | some q => if q.since + apLimit m ≤ m.clk then apComplete m tid 3 [] else m | none => m
  | none => m

/-! ### The meanings -/

/-- `btmpl`. -/
def execBtmpl (f : Fields) (s : State) : Host.Outcome State Fault Refusal := runInstr 0xE0 btmplBody f s
/-- `gath`. -/
def execGath (f : Fields) (s : State) : Host.Outcome State Fault Refusal := runInstr 0xE1 gathBody f s
/-- `coll.ordered`. -/
def execCollOrdered (f : Fields) (s : State) : Host.Outcome State Fault Refusal := runInstr 0xE2 (collBody false) f s
/-- `coll.arrival`. -/
def execCollArrival (f : Fields) (s : State) : Host.Outcome State Fault Refusal := runInstr 0xE2 (collBody true) f s
/-- `cwait`. -/
def execCwait (f : Fields) (s : State) : Host.Outcome State Fault Refusal := runInstr 0xE3 cwaitBody f s
/-- `lbase`. -/
def execLbase (f : Fields) (s : State) : Host.Outcome State Fault Refusal := runInstr 0xE4 lbaseBody f s
/-- `bquery`. -/
def execBquery (f : Fields) (s : State) : Host.Outcome State Fault Refusal := runInstr 0xE5 bqueryBody f s

/-- The command at the head of a channel starts (R413). -/
def execBteCommandStart (die chan : Nat) (err : Bool) (s : State) : Host.Outcome State Fault Refusal := runEvent (fun m => (bteStart m die chan err).1) s
/-- The command at the head of a channel writes its stamp (R414). -/
def execBteStampWrite (die chan : Nat) (s : State) : Host.Outcome State Fault Refusal := runEvent (fun m => (bteStamp m die chan).1) s
/-- The oldest gather of a core retires (R416). -/
def execGatherRetire (core : Nat) (err : Option Nat) (s : State) : Host.Outcome State Fault Refusal := runEvent (fun m => gathRetire m core err) s
/-- A collective completes (R420). -/
def execCollectiveComplete (job : Nat) (key : Word) (err : Bool) (s : State) : Host.Outcome State Fault Refusal :=
  runEvent (fun m => collFinish m job key err) s
/-- A landed payload is signalled (R421). -/
def execLandingArrival (s : State) : Host.Outcome State Fault Refusal := runEvent landingStep s
/-- The host's completion of a crew's aperture accesses (R39, R40). -/
def execApertureCompletion (crew status : Nat) (data : List Byte) (s : State) : Host.Outcome State Fault Refusal :=
  runEvent (fun m => if engRead ≤ crew then engComplete m (crew - engRead) status data else apComplete m crew status data) s
/-- No completion came in time (R40). -/
def execApertureCompletionTimeout (crew : Nat) (s : State) : Host.Outcome State Fault Refusal := runEvent (fun m => if engRead ≤ crew then engExpire m (crew - engRead) else apExpire m crew) s
/-- A completion after its timeout is dropped and counted (R40), at the host link's unit, 16. [DESIGN CHOICE, assumption log 9] -/
def execLateCompletionDrop (s : State) : Host.Outcome State Fault Refusal := runEvent (fun m => linkDrop m 16) s
/-- The host refuses a posted write: Advanced Error Reporting, and Lennas logs it (R40). -/
def execPostedWriteRefusal (addr : Nat) (s : State) : Host.Outcome State Fault Refusal :=
  runEvent (fun m => (m.logged (.posted addr)).send (.aer addr)) s

end Sys2Proof.Machine
end

