-- ==== Sys2Proof/Machine/Links.lean ====
section
/-! DEFINITION. The Ethernet ports: frames that arrive, acknowledgements and resends, connections that move, peers that are lost, and the stages
from a fault to a resumed job (R32, R48 to R53, R64). -/

namespace Sys2Proof.Machine

/-! ### Acknowledgement (R49, R50) -/

/-- The die of a port (PRESUMED, assumption log 5). -/
def portDie (port : Nat) : Nat := port / 2 % 8

/-- The connection that a frame from a peer belongs to. -/
def connOf (fr : Frame) : Conn → Bool := connIs fr.domain fr.src fr.cls fr.chan

/-- Channels whose head waits for a peer's acknowledgement look again (R51). -/
def stampKick (m : Mach) : Mach :=
  m.dies.foldl (fun m e => e.2.chans.foldl (fun m ch =>
    match ch.2.queue with
    | k :: _ => if k.started && tDkind k.tmpl == 2 then m.due (.bteStampWrite e.1 ch.1) else m
    | [] => m) m) m

/-- Send frames of a connection again, or for the first time. -/
def sendAll (m : Mach) (c : Conn) (l : List Frame) : Mach := l.foldl (fun m f => m.sendFrame c.port { f with port := c.port, apsn := c.rpsn }) m

/-- Send again what a connection has sent and not had acknowledged, from a PSN or from the oldest. -/
def resendFrom (m : Mach) (c : Conn) (psn : Option Nat) : Mach :=
  sendAll m c ((c.unacked.take c.sent).dropWhile (fun f => match psn with | some p => f.psn != p | none => false))

/-- How many of a connection's frames a cumulative acknowledgement covers: none when it names a frame that has not gone out. -/
def ackedBy (c : Conn) (fr : Frame) : Nat :=
  match c.unacked with
  | [] => 0
  | h :: _ => let n := (fr.apsn + 2 ^ 32 - h.psn) % 2 ^ 32; if c.sent < n then 0 else n

/-- A frame of the peer: its cumulative acknowledgement and its credit; frames that waited for the window go out (R49, R50).
[PRESUMED, assumption log 5] -/
def ackConn (m : Mach) (fr : Frame) : Mach :=
  match m.conn (connOf fr) with
  | none => m
  | some c =>
    let n := ackedBy c fr
    let rest := c.unacked.drop n
    let left := c.sent - n
    let now := max left (min rest.length (min winFrames fr.credit))
    let c' : Conn := { c with unacked := rest, sent := now, credit := fr.credit, retries := if n = 0 then c.retries else 0
                              since := if n = 0 ∧ c.sent ≠ 0 then c.since else m.clk }
    let m := sendAll (m.modConn (connOf fr) (fun _ => c')) c' ((rest.take now).drop left)
    if n = 0 then m else stampKick m

/-- Acknowledge what a connection has received so far, or ask for the PSN it misses. Which field of a NACK names the NACKed PSN is open: it is `PSN`, and
the sender resends from the frame with it. [DESIGN CHOICE, assumption log 5] -/
def ackSend (m : Mach) (fr : Frame) (nack : Bool) : Mach :=
  match m.conn (connOf fr) with
  | some c => vftSendBare m c 0 (flLast + (if nack then flNack else 0)) c.rpsn
  | none => m

/-- A frame is dropped and counted (R49). [DEDUCED, assumption log 33] -/
def dropFrame (m : Mach) (fr : Frame) : Mach := linkDrop m fr.port

/-- Is a frame one that the engine looks at? [DEDUCED, assumption log 33] -/
def frameOk (m : Mach) (typ : Nat) (fr : Frame) : Bool :=
  fr.ver == 1 && fr.typ == typ && fr.dst == m.modIn fr.domain && decide (fr.payload.length ≤ 8192) && m.net.ports.contains fr.port

/-- A frame that carries a PSN: delivered in order and once. `deliver` answers false when the frame cannot be taken now; the
sender sends it again. [DEDUCED, assumption log 33] -/
def vftTake (typ : Nat) (fr : Frame) (deliver : Mach → Mach × Bool) (m : Mach) : Mach :=
  if !frameOk m typ fr || (m.net.fenced.contains fr.domain && typ != 7 && typ != 4) then dropFrame m fr
  else
    match openConn m fr.domain fr.src fr.cls fr.chan with
    | none => dropFrame m fr
    | some m =>
      let m := ackConn m fr
      match m.conn (connOf fr) with
      | none => m
      | some c =>
        let ahead := (fr.psn + 2 ^ 32 - c.rpsn) % 2 ^ 32
        if ahead = 0 then
          match deliver m with
          | (m, false) => m
          | (m, true) => ackSend (m.modConn (connOf fr) (fun c => { c with rpsn := (c.rpsn + 1) % 2 ^ 32 })) fr false
        else ackSend m fr (decide (ahead < 2 ^ 31))

/-! ### What frames bring (R49, R51, R53, R64) -/

/-- The job of a domain on this module. -/
def domJob (m : Mach) (dom : Nat) : Option Nat := (m.jobs.find? (fun e => e.2.domain == some dom && !e.2.ended)).map (·.1)

/-- Who writes what a peer sends: the VFT engine (R183). -/
def rxWho (job : Nat) : Who := { core := 385, job := job, sup := false }

/-- A frame's bytes cannot be written yet: lines that the host may hold are asked for first (R36), lines of another engine's command and ways are waited for
(R196, R242). [DEDUCED, assumption log 33] -/
def rxHeld (m : Mach) (w : Who) (va len : Nat) : Option Mach :=
  let held := heldLines m w [(va, len)]
  if !held.isEmpty then some (snoopSide held m) else if engineStops m w [(va, len)] then some m else none

/-- A copy's payload is written; bytes that fail mark the copy's stamp (PRESUMED, assumption log 5). -/
def copyPayload (fr : Frame) (m : Mach) : Mach × Bool :=
  match domJob m fr.domain with
  | none => (dropFrame m fr, true)
  | some j =>
    let w := rxWho j
    match rxHeld m w fr.oparg.toNat fr.payload.length with
    | some m => (m, false)
    | none =>
      match engineWrite m w fr.oparg.toNat fr.payload with
      | (m, true) => (m, true)
      | (m, false) => ({ m with net := { m.net with rxBad := m.net.rxBad ++ [(fr.domain, fr.src, fr.cls)] } }, true)

/-- A copy's stamp is written. [PRESUMED, assumption log 5] -/
def copyStamp (fr : Frame) (m : Mach) : Mach × Bool :=
  match domJob m fr.domain with
  | none => (dropFrame m fr, true)
  | some j =>
    let key := (fr.domain, fr.src, fr.cls)
    let w := rxWho j
    match rxHeld m w fr.oparg.toNat 8 with
    | some m => (m, false)
    | none =>
      let v := fld fr.payload 0 8
      let v := if m.net.rxBad.contains key then v % 2 ^ 63 + 2 ^ 63 else v
      let m : Mach := { m with net := { m.net with rxBad := m.net.rxBad.filter (· != key) } }
      ((engineWrite m w fr.oparg.toNat (toBytes 8 v)).1, true)

/-- A frame enters the Lennas receive queue of its port's die (R48). -/
def lennasRx (m : Mach) (port : Nat) (data : List Byte) : Mach :=
  wakeDie (m.modDie (portDie port) (fun d => { d with rx := d.rx ++ [data] })) (portDie port)

/-- Has a frame, given from its destination address on, two 802.1Q tags or more (R48)? Tag types 0x8100 and 0x88A8 are PRESUMED (assumption log 5). -/
def twoTags (data : List Byte) : Bool :=
  let tag (o : Nat) : Bool := let t := ofBytesBE (slice data o 2); t == 0x8100 || t == 0x88A8
  tag 12 && tag 16

/-- A frame that does not go to the VFT engine: accepted on a port that is up, up to 9,216 bytes, with at most one tag (R48). -/
def frameIn (m : Mach) (port : Nat) (data : List Byte) : Mach :=
  if !m.net.ports.contains port || decide (9216 < data.length) || twoTags data then m else lennasRx m port data

/-- The event that answers a request (R61): a reserved `OP` is refused as a SUBMIT. -/
def reqEvent (b : List Byte) (i : Nat) : Instr :=
  match fld b 0 2 with
  | 2 => .cancelRequest i
  | 3 => .query i
  | 4 => .load i
  | _ => .submit i

/-- Work from a peer (R64): a request waits for Lennas; a response or a notice goes to it. [DEDUCED, assumption log 33] -/
def handOff (fr : Frame) (m : Mach) : Mach :=
  match fr.payload.length with
  | 256 => (({ m with net := { m.net with peerReqs := m.net.peerReqs ++ [(fr.domain, fr.src, fr.payload)] } } : Mach).due (reqEvent fr.payload 8))
  | 128 => lennasRx m fr.port fr.payload
  | 8 => lennasRx m fr.port fr.payload
  | _ => dropFrame m fr

/-- A peer is heard. -/
def beat (m : Mach) (fr : Frame) : Mach :=
  if !frameOk m 6 fr then dropFrame m fr
  else
    let m := ackConn m fr
    { m with net := { m.net with heard := smPut m.net.heard fr.src m.clk } }

/-- A fault notice (R32): the domain's traffic is fenced and its job contained. [DEDUCED, assumption log 33] -/
def faultTold (fr : Frame) (m : Mach) : Mach :=
  let m : Mach := { m with net := { m.net with fenced := if m.net.fenced.contains fr.domain then m.net.fenced else m.net.fenced ++ [fr.domain] } }
  match domJob m fr.domain with | some j => jobFault m j | none => m

/-! ### Peers that are lost (R32, R50, R420) -/

/-- A peer is down: copies to it fail, collectives of its domains complete with status 4, their jobs are contained. [DEDUCED, assumption log 33] -/
def peerDown (m : Mach) (dst : Nat) : Mach :=
  let doms := (m.net.conns.filter (fun c => c.dst == dst && !c.down)).map (·.domain)
  let m : Mach := { m with net := { m.net with
    conns := m.net.conns.map (fun c => if c.dst = dst then { c with down := true, unacked := [], sent := 0, retries := 0 } else c)
    heard := smErase m.net.heard dst } }
  let hit (k : Cmd) : Bool := k.started && tDkind k.tmpl == 2 && fld k.tmpl 74 2 == dst &&
    (match m.job k.job with | some j => (match j.domain with | some d => doms.contains d | none => false) | none => false)
  let chan (c : Chan) : Chan := { c with queue := match c.queue with | k :: t => (if hit k then { k with err := true } else k) :: t | [] => [] }
  let m : Mach := { m with dies := m.dies.map (fun e => (e.1, { e.2 with chans := e.2.chans.map (fun c => (c.1, chan c.2)) })) }
  let jobs := (m.jobs.filter (fun e => !e.2.ended && (match e.2.domain with | some d => doms.contains d | none => false))).map (·.1)
  jobs.foldl jobFault (stampKick (collsDown m doms))

/-- A connection without progress is resent; after eight resends it moves to another up port (R50). [PRESUMED, assumption log 5] -/
def resendStep (m : Mach) (i : Nat) : Mach :=
  match m.net.conns[i]? with
  | none => m
  | some c =>
    let put (m : Mach) (k : Conn) : Mach := { m with net := { m.net with conns := m.net.conns.set i k } }
    if !connLate m c then m
    else if c.retries < 8 then
      let c := { c with retries := c.retries + 1, since := m.clk }
      resendFrom (put m c) c none
    else
      match pinPort (m.net.ports.filter (· != c.port)) [c.domain, c.src, c.dst, c.cls, c.chan] with
      | none => peerDown m c.dst
      | some p =>
        let c := { c with port := p, retries := 0, since := m.clk }
        resendFrom (put m c) c none

/-- A peer that has missed three heartbeats is lost (R32). -/
def lossStep (m : Mach) (peer : Nat) : Mach :=
  match m.net.heard.find? (fun e => e.1 == peer) with
  | some e => if peerLost m e then peerDown m peer else m
  | none => m

/-- A port goes down; without a port every peer is down (R50). -/
def portOff (m : Mach) (port : Nat) : Mach :=
  let m : Mach := { m with net := { m.net with ports := m.net.ports.filter (· != port) } }
  if m.net.ports.isEmpty then (m.net.conns.map (·.dst)).foldl peerDown m else m

/-- A port that is present comes up (R27). -/
def portOn (m : Mach) (port : Nat) : Mach :=
  if m.net.ports.contains port || !portsPresent.contains port then m
  else { m with net := { m.net with ports := m.net.ports.takeWhile (fun p => decide (p < port)) ++ port :: m.net.ports.dropWhile (fun p => decide (p < port)) } }

/-- A heartbeat goes to every peer (R49). -/
def beatAll (m : Mach) : Mach :=
  if m.clk < m.net.hbAt then m
  else
    let m : Mach := { m with net := { m.net with hbAt := m.clk + beatCycles } }
    (m.net.conns.foldl (fun (acc : List (Nat × Nat) × Mach) c =>
      if c.down || acc.1.contains (c.domain, c.dst) then acc else ((c.domain, c.dst) :: acc.1, vftSendBare acc.2 c 6 flLast c.psn)) ([], m)).2

/-- An SPDM message over VFT is answered on its connection (R20). -/
def spdmFrame (s : State) (fr : Frame) : State :=
  let ans := match spdmParse fr.payload with | some q => spdmAnswer s q | none => if s.boot.stage < 2 then none else some (spdmError 1)
  let deliver (m : Mach) : Mach × Bool :=
    match ans with
    | some b => ((vftSend { m with freeCtr := m.freeCtr + 4 } fr.domain fr.src fr.cls fr.chan 4 flLast 0 b).1, true)
    | none => (m, true)
  { s with m := vftTake 4 fr deliver s.m }

/-! ### The meanings -/

/-- An acknowledgement (R50). -/
def execAckFrame (fr : Frame) (s : State) : Host.Outcome State Fault Refusal :=
  runEvent (fun m => if frameOk m 0 fr && fr.flags / 2 % 2 == 0 then ackConn m fr else dropFrame m fr) s
/-- A NACK: the sender resends from the PSN it names, in order (R50). -/
def execNackFrame (fr : Frame) (s : State) : Host.Outcome State Fault Refusal :=
  runEvent (fun m =>
    if frameOk m 0 fr && fr.flags / 2 % 2 == 1 then
      let m := ackConn m fr
      match m.conn (connOf fr) with
      | some c => resendFrom m c (some fr.psn)
      | none => m
    else dropFrame m fr) s
/-- A copy payload frame (R51). -/
def execCopyPayloadFrame (fr : Frame) (s : State) : Host.Outcome State Fault Refusal := runEvent (vftTake 1 fr (copyPayload fr)) s
/-- A copy stamp frame (R51). -/
def execCopyStampFrame (fr : Frame) (s : State) : Host.Outcome State Fault Refusal := runEvent (vftTake 2 fr (copyStamp fr)) s
/-- A collective segment (R53). -/
def execCollectiveSegment (fr : Frame) (s : State) : Host.Outcome State Fault Refusal := runEvent (vftTake 3 fr (fun m => (collSegment m fr, true))) s
/-- An SPDM message (R20). -/
def execSpdmMessageFrame (fr : Frame) (s : State) : Host.Outcome State Fault Refusal := .next (spdmFrame s fr)
/-- A job hand-off (R64). -/
def execJobHandOff (fr : Frame) (s : State) : Host.Outcome State Fault Refusal := runEvent (vftTake 5 fr (fun m => (handOff fr m, true))) s
/-- A heartbeat (R32, R49). -/
def execHeartbeat (fr : Frame) (s : State) : Host.Outcome State Fault Refusal := runEvent (fun m => beat m fr) s
/-- A fault notice (R32). -/
def execFaultNotice (fr : Frame) (s : State) : Host.Outcome State Fault Refusal := runEvent (vftTake 7 fr (fun m => (faultTold fr m, true))) s
/-- A frame of a reserved type is dropped and counted (R49). -/
def execReservedVftFrame (fr : Frame) (s : State) : Host.Outcome State Fault Refusal := runEvent (fun m => dropFrame m fr) s
/-- A frame of another EtherType (R48). -/
def execNonVftFrame (port : Nat) (data : List Byte) (s : State) : Host.Outcome State Fault Refusal :=
  runEvent (fun m => frameIn m port data) s
/-- Nothing has been acknowledged for 50 microseconds (R50). -/
def execVftResendTimeout (conn : Nat) (s : State) : Host.Outcome State Fault Refusal := runEvent (fun m => resendStep m conn) s
/-- A peer has missed three heartbeats (R32). -/
def execHeartbeatLoss (peer : Nat) (s : State) : Host.Outcome State Fault Refusal := runEvent (fun m => lossStep m peer) s
/-- A fault that concerns a job is detected (R32). -/
def execFaultDetection (job : Nat) (s : State) : Host.Outcome State Fault Refusal := runEvent (fun m => jobFault m job) s
/-- The spare is chosen (R32). -/
def execRemap (job spare : Nat) (s : State) : Host.Outcome State Fault Refusal := runEvent (fun m => jobRemap m job spare) s
/-- The checkpoint is restored (R32). -/
def execRestore (job : Nat) (s : State) : Host.Outcome State Fault Refusal := runEvent (fun m => jobRestore m job) s
/-- The job restarts (R32). -/
def execRestart (job : Nat) (s : State) : Host.Outcome State Fault Refusal := runEvent (fun m => jobRestart m job) s
/-- A port's link goes down. -/
def execPortLinkDown (port : Nat) (s : State) : Host.Outcome State Fault Refusal := runEvent (fun m => portOff m port) s
/-- A port's link comes up. -/
def execPortLinkUp (port : Nat) (s : State) : Host.Outcome State Fault Refusal := runEvent (fun m => portOn m port) s
/-- A heartbeat is sent (R49). -/
def execHeartbeatTransmit (s : State) : Host.Outcome State Fault Refusal := runEvent beatAll s

end Sys2Proof.Machine
end

