-- ==== Sys2Proof/Machine/HostEvents.lean ====
section
/-! DEFINITION. The host endpoint: BAR 0, the mailbox's registers, MSI-X, the windows of CXL.mem and what follows when they close
(R33 to R37, R57 to R60, R63). -/

namespace Sys2Proof.Machine

/-! ### BAR 0 and the mailbox (R34, R57 to R60) -/

/-- Is an offset of BAR 0 mapped? -/
def barMapped (o : Nat) : Bool :=
  decide (o < 0x1010) || decide (0x1400 ≤ o ∧ o < 0x2000) || decide (0x10000 ≤ o ∧ o < 0x20408)

/-- Does the mailbox act (R60)? -/
def mbUp (s : State) : Bool := s.boot.ready && s.boot.err == 0

/-- A dropped mailbox write or doorbell is counted, saturating (R58). -/
def mbCount (h : HostIf) : HostIf := { h with mberr := min 0xFFFF (h.mberr + 1) }

/-- The 256 bytes of a request slot. -/
def slotBytes (h : HostIf) (i : Nat) : List Byte := smGet (List.replicate 256 0) h.reqs i

/-- The host writes to a request slot (R59); the endpoint holds the slots from the end of boot step 1 (R60). -/
def slotWrite (s : State) (i off : Nat) (data : List Byte) : State :=
  if 8 ≤ i ∨ 256 < off + data.length ∨ s.boot.stage = 0 then s
  else if s.host.owned.contains i then { s with host := mbCount s.host }
  else { s with host := { s.host with reqs := smPut s.host.reqs i (splice (slotBytes s.host i) off data) } }

/-- A write to `MBDOOR` (R58, R59); it wakes the control cores (R438). -/
def doorbell (s : State) (v : Nat) : State :=
  let i := v % 8
  if s.boot.stage = 0 then s
  else if 8 ≤ v ∨ mbUp s = false then { s with host := mbCount s.host }
  else if s.host.owned.contains i ∨ s.host.unread.contains i then { s with host := { mbCount s.host with dup := true } }
  else
    { s with host := { s.host with owned := s.host.owned ++ [i] }
             m := ((List.range 8).foldl wakeDie s.m).due (reqEvent (slotBytes s.host i) i) }

/-- The host has read responses: both slots of the index are its own again. -/
def respClear (s : State) (b : Byte) : State :=
  if mbUp s then { s with host := { s.host with unread := s.host.unread.filter (fun i => !b.getLsbD i) } } else s

/-- A read of `MBNOTE` removes the notice that it returns (R58). -/
def noteRead (s : State) : State :=
  if !mbUp s then { s with m := s.m.send (.barRead 0) }
  else
    match s.m.notices with
    | (kind, job) :: rest => { s with m := { s.m with notices := rest }.send (.barRead (2 ^ 31 + kind % 8 * 2 ^ 28 + job)) }
    | [] => { s with m := s.m.send (.barRead 0) }

/-- Bits of a list of slot numbers. -/
def slotBits (l : List Nat) : Nat := (List.range 8).foldl (fun t i => t + b2n (l.contains i) * 2 ^ i) 0

/-- `MBSTAT`: 0 while the mailbox does not act (R58, R60). -/
def mbStat (s : State) : Nat :=
  if mbUp s then b2n s.m.novf * 2 ^ 24 + slotBits s.host.unread * 2 ^ 16 + slotBits s.host.owned * 2 ^ 8 + b2n s.host.dup else 0

/-- A 32-bit word of the bytes that a slot holds. -/
def slotWord (b : List Byte) (o : Nat) : Nat := fld b o 4

/-- A word of the CXL component registers: the HDM decoder capability with its 8 decoders (R34, R35). [PRESUMED, assumption log 36] -/
def hdmWord (h : HostIf) (o : Nat) : Nat :=
  let i := (o - 0x1020) / 32
  let d := smGet { base := 0, size := 0, on := false } h.hdm i
  if o = 0x1000 then 0x01110001
  else if o = 0x1004 then 0x01030005
  else if o = 0x1010 then 4
  else if o = 0x1014 then 2
  else if o < 0x1020 ∨ 8 ≤ i then 0
  else
    match o % 32 / 4 with
    | 0 => d.base % 2 ^ 32
    | 1 => d.base / 2 ^ 32 % 2 ^ 32
    | 2 => d.size % 2 ^ 32
    | 3 => d.size / 2 ^ 32 % 2 ^ 32
    | 4 => if d.on then 0x600 else 0
    | _ => 0

/-- A word of the MSI-X table, message address, its upper half, message data, vector control, or of its pending bits (R34, R63). [PRESUMED, assumption log 5] -/
def msixWord (m : Mach) (o : Nat) : Nat :=
  if o < 0x20400 then (if o % 16 = 12 then b2n (smGet true m.msixMask ((o - 0x20000) / 16)) else (smGet 0 m.msixTab ((o - 0x20000) / 4)).toNat)
  else (List.range 32).foldl (fun t i => t + b2n (m.msixPend.contains (8 * (o - 0x20400) + i)) * 2 ^ i) 0

/-- What a read of the aligned word at an offset of BAR 0 returns (R21, R34, R57, R58): 0 where nothing is mapped. -/
def barWord (s : State) (off : Nat) : Nat :=
  let o := off / 4 * 4
  if o = 0 then bootStat s.boot
  else if o = 0x1004 then mbStat s
  else if o = 0x1008 then s.host.mberr
  else if 0x1400 ≤ o ∧ o < 0x1C00 then slotWord (slotBytes s.host ((o - 0x1400) / 256)) ((o - 0x1400) % 256)
  else if 0x1C00 ≤ o ∧ o < 0x2000 then slotWord (smGet (List.replicate 128 0) s.host.resps ((o - 0x1C00) / 128)) ((o - 0x1C00) % 128)
  else if 0x10000 ≤ o ∧ o < 0x20000 then hdmWord s.host (o - 0x10000)
  else if 0x20000 ≤ o ∧ o < 0x20408 then msixWord s.m o
  else 0

/-- The host reads a word of BAR 0; of `MBNOTE`, it takes the notice. -/
def barRead (s : State) (off : Nat) : State := if off / 4 * 4 = 0x100C then noteRead s else { s with m := s.m.send (.barRead (barWord s off)) }

/-- A response is posted (R59, step 3), or sent back to the peer that asked (R64). Requests of peers are answered in their order. -/
def respond (s : State) (req : Nat) (b : List Byte) : State :=
  if req < 8 then
    { s with host := { s.host with resps := smPut s.host.resps req b, unread := s.host.unread ++ [req], owned := s.host.owned.filter (· != req) }
             m := raiseMsix s.m 0 }
  else
    match s.m.net.peerReqs[req - 8]? with
    | none => s
    | some (dom, src, q) =>
      let m : Mach := { s.m with net := { s.m.net with peerReqs := s.m.net.peerReqs.eraseIdx (req - 8) } }
      { s with m := (vftSend m dom src (fld q 6 1 % 4) 0 5 flLast 0 b).1 }

/-- A request as Lennas reads it: its bytes and its submitter; none when no such request waits. -/
def requestOf (s : State) (req : Nat) : Option (List Byte × Option (Nat × Nat)) :=
  if req < 8 then (if s.host.owned.contains req then some (slotBytes s.host req, none) else none)
  else
    match s.m.net.peerReqs[req - 8]? with
    | some (dom, src, q) => some (q, some (dom, src))
    | none => none

/-! ### Configuration and MSI-X (R39, R40, R63) -/

/-- The end of a completion timeout range in microseconds, by its code in Device Control 2 (PRESUMED, assumption log 5). -/
def cplRange (v : Nat) : Option Nat :=
  match v % 16 with
  | 0 => some 50000
  | 1 => some 100
  | 2 => some 10000
  | 5 => some 55000
  | 6 => some 210000
  | 9 => some 900000
  | 10 => some 3500000
  | 13 => some 13000000
  | 14 => some 64000000
  | _ => none

/-- The value of a modelled configuration register: MSI-X enable and function mask, AtomicOp Requester Enable, the completion timeout's code.
[PRESUMED, assumption log 5] -/
def cfgRead (m : Mach) (reg : Nat) : Nat :=
  match reg with
  | 0 => b2n m.msixOn + 2 * b2n m.msixFn
  | 1 => b2n m.atomicEn
  | 2 => ((List.range 16).find? (fun v => cplRange v == some m.cplTimeout)).getD 0
  | _ => 0

/-- A configuration request: answered from the end of boot step 1 (R21). -/
def cfgStep (s : State) (reg : Nat) (w : Option Half) : State :=
  if s.boot.stage = 0 then s
  else
    match w with
    | none => { s with m := s.m.send (.barRead (cfgRead s.m reg)) }
    | some v =>
      match reg with
      | 0 => { s with m := msixFlush { s.m with msixOn := v.getLsbD 0, msixFn := v.getLsbD 1 } }
      | 1 => { s with m := { s.m with atomicEn := v.getLsbD 0 } }
      | 2 => { s with m := { s.m with cplTimeout := (cplRange v.toNat).getD s.m.cplTimeout } }
      | _ => s

/-- A word of the MSI-X table is written; a pending vector goes out when it is unmasked (R34, R63). [PRESUMED, assumption log 5] -/
def msixWrite (m : Mach) (off : Nat) (x : Half) : Mach :=
  if 1024 ≤ off then m
  else if off / 4 % 4 = 3 then msixFlush { m with msixMask := smSet true m.msixMask (off / 16) (x.getLsbD 0) }
  else { m with msixTab := smSet 0 m.msixTab (off / 4) (if off / 4 % 4 = 0 then x &&& 0xFFFFFFFC else x) }

/-! ### Host windows (R35 to R37) -/

/-- Where a host access through a window goes; none for one that R35 refuses. [DEDUCED, assumption log 36] -/
def winAddr (s : State) (w off len : Nat) (write : Bool) : Option (Nat × Nat) :=
  let e := (smGet 0 s.m.hostwin w).toNat
  let perm := bits e 62 61
  let pa := bits e 27 0 * 2 ^ 28 + off
  let treat := if bit e 60 then 256 else bits e 59 52
  let lines := (List.range ((pa + len - 1) / 128 + 1 - pa / 128)).map (fun i => pa / 128 + i)
  if !bit e 63 || bits e 51 28 * 2 ^ 28 < off + len || !(perm == 3 || (perm == 1 && !write)) || absentRange s.m pa len ||
     isAperture pa || lines.any (fun l => (keyFails s.m (if bypasses s.m (128 * l) then 256 else treat) l).isSome) then none
  else some (pa, treat)

/-- A CXL.mem request takes its place at the home of its lines (R36): a write is complete once it is written there. It waits while an engine's command
holds one of its lines (R242) or finds no way (R196). [DEDUCED, assumption log 36] -/
def hostAccess (s : State) (w off len : Nat) (write : Option (List Byte)) (hold : Bool) : State :=
  let dec := (smFind s.host.hdm w).any (fun d => d.on && decide (off + len ≤ d.size))
  if !s.host.cxl || !dec || len = 0 then s
  else
    match winAddr s w off len write.isSome with
    | none =>
      let m := s.m.logged (.hostAccess w off len write.isSome)
      { s with m := match write with | some _ => m.send .hostCmp | none => m.send (.hostData (List.replicate len 0xFF)) }
    | some (pa, treat) =>
      let ls := linesOf pa len
      if ls.any (engineHeld s.m 0) || ls.any (setFull s.m) then { s with m := s.m.due (.hostCxlMemRequest w off len write hold) }
      else
        let m := ls.foldl (fun m l => touchLine m (if bypasses m (128 * l) then 256 else treat) 0 l) s.m
        let m :=
          match write with
          | some bs => (commitRun m pa (bs.take len)).send .hostCmp
          | none => m.send (.hostData (memRead m.mem pa len))
        { s with m := if hold then { m with held := ls.foldl (fun l x => if l.contains x then l else l ++ [x]) m.held } else m }

/-- The host answers a BISnp; what it had modified is written at the line's home. -/
def bisnpAnswer (m : Mach) (line : Nat) (data : Option (List Byte)) : Mach :=
  if !m.snoops.contains line then m
  else
    let m : Mach := { m with snoops := m.snoops.filter (· != line), held := m.held.filter (· != line) }
    kickAll (match data with | some bs => commitRun m (128 * line) (bs.take 128) | none => m)

/-- The host windows that are active. -/
def windowsOn (m : Mach) : List Nat := (List.range 8).filter (fun w => bit (smGet 0 m.hostwin w).toNat 63)

/-- The host is taken to hold nothing, every window is closed, and Lennas logs which and how many lines (R37). [DEDUCED, assumption log 36] -/
def hostGone (m : Mach) : Mach :=
  kickAll (Mach.logged
    { m with held := [], snoops := [],
             hostwin := m.hostwin.filterMap (fun e => let v := e.2 &&& 0x7FFFFFFFFFFFFFFF; if v = 0 then none else some (e.1, v)) }
    (.hostGone (windowsOn m) m.held.length))

/-- CXL.mem stops: the host link is down, or below the minimum (R33, R37). -/
def cxlStop (s : State) : State := { s with host := { s.host with cxl := false }, m := if s.m.held.isEmpty then s.m else hostGone s.m }

/-! ### The meanings -/

/-- The host reads a word of BAR 0, or writes where no register takes a write: such a write is dropped (R34). -/
def execUnmappedBarAccess (off : Nat) (write : Bool) (s : State) : Host.Outcome State Fault Refusal := .next (if write then s else barRead s off)
/-- The host writes a request slot (R59). -/
def execRequestSlotWrite (slot off : Nat) (data : List Byte) (s : State) : Host.Outcome State Fault Refusal := .next (slotWrite s slot off data)
/-- The host rings the doorbell (R59). -/
def execMbdoor (value : Half) (s : State) : Host.Outcome State Fault Refusal := .next (doorbell s value.toNat)
/-- The host clears bits of `RESP` (R59). -/
def execMbstatRespClear (bits : Byte) (s : State) : Host.Outcome State Fault Refusal := .next (respClear s bits)
/-- The host clears `NOVF` (R58). -/
def execMbstatNovfClear (s : State) : Host.Outcome State Fault Refusal := .next (if mbUp s then { s with m := { s.m with novf := false } } else s)
/-- The host clears `DUP` (R58). -/
def execMbstatDupClear (s : State) : Host.Outcome State Fault Refusal := .next (if mbUp s then { s with host := { s.host with dup := false } } else s)
/-- The host reads `MBNOTE` (R58). -/
def execMbnoteRead (s : State) : Host.Outcome State Fault Refusal := .next (noteRead s)
/-- A configuration request (R21, R39, R40, R63). -/
def execConfigRequest (reg : Nat) (write : Option Half) (s : State) : Host.Outcome State Fault Refusal := .next (cfgStep s reg write)
/-- The host writes a word of the MSI-X table (R34, R63). -/
def execMsixTableWrite (off : Nat) (value : Half) (s : State) : Host.Outcome State Fault Refusal := runEvent (fun m => msixWrite m off value) s
/-- The host programs an HDM decoder (R35). -/
def execHdmDecoderProgram (decoder base size : Nat) (commit : Bool) (s : State) : Host.Outcome State Fault Refusal :=
  .next (if 8 ≤ decoder then s else { s with host := { s.host with hdm := smPut s.host.hdm decoder { base := base, size := size, on := commit } } })
/-- The host reads or writes module memory (R35, R36). -/
def execHostCxlMemRequest (window off len : Nat) (write : Option (List Byte)) (hold : Bool) (s : State) : Host.Outcome State Fault Refusal :=
  .next (hostAccess s window off len write hold)
/-- The host's response to a BISnp (R36). -/
def execBisnpResponse (line : Nat) (data : Option (List Byte)) (s : State) : Host.Outcome State Fault Refusal := runEvent (fun m => bisnpAnswer m line data) s
/-- The host has not answered a BISnp in 10 ms (R37). -/
def execBisnpTimeout (s : State) : Host.Outcome State Fault Refusal := runEvent (fun m => if snoopLate m then hostGone m else m) s
/-- CXL.mem becomes inactive (R33, R37). -/
def execCxlMemInactive (s : State) : Host.Outcome State Fault Refusal := .next (cxlStop s)
/-- The host link has trained (R33): CXL.mem runs when it meets the minimum. -/
def execCxlMemRetrain (ok : Bool) (s : State) : Host.Outcome State Fault Refusal := .next (if ok then { s with host := { s.host with cxl := true } } else cxlStop s)

end Sys2Proof.Machine
end

