-- ==== Sys2Proof/Machine/TaskOps.lean ====
section
/-! DEFINITION. Task, pedigree, random-number and arena instructions, opcodes 0xB0 to 0xB9 (R373 to R387). -/

namespace Sys2Proof.Machine

/-! ### Spawning (R380, R381) -/

/-- BADTARGET of a spawn. -/
def spawnTarget (decl reason : Nat) : Halt := trapOf 0x01 none (w64 decl) (w64 reason) 1 0

/-- PEDOVF: 0 step, 1 epoch, 2 depth. -/
def pedOvf (c : Crew) (what : Nat) : Halt := trapOf 0x07 none (w64 (pedDepth c.ped)) (w64 what) (pedWord c.ped 0) 0

/-- The stage of a pipeline launch whose declaration is this one (R111); where several stages have it, no rule says which: the first. [DESIGN CHOICE,
assumption log 21] -/
def stageOf (m : Mach) (launch decl : Nat) : Option Nat :=
  match m.launch launch with
  | some l => (List.range l.stages.length).find? (fun k => (l.stages.map (·.decl))[k]? == some decl)
  | none => none

/-- The parent once a child's record is placed (R374, R382, R390). -/
def spawned (tid : Nat) (c : Crew) : Crew :=
  { c with ped := pedStep c.ped, draw := 0, sid := 0, kseg := c.kseg + 1, kids := c.kids ++ [{ tid := tid, seg := c.kseg + 1, ended := false, views := [] }] }

/-- Put a record where its spawn sends it: that of a stage's declaration to its ring whatever the spawn, a `spawnd`'s cell words then naming nothing (R111, R380);
none when there is no room (R93, R100, R105). [DEDUCED, assumption log 21] -/
def placeRec (m : Mach) (core : Nat) (r : TaskRec) : Option Mach :=
  match stageOf m r.launch r.decl with
  | some k => stageSend m core k { r with cells := [] }
  | none =>
  if r.kind = .dataflow then
    let (die, seg) := segOfAff m r.aff
    if segCap ≤ segCount (m.die die) seg then none
    else
      let m := m.modDie die (fun d => let d := segEnter d seg r.tid; { d with pending := smSet [] d.pending seg (smGet [] d.pending seg ++ [{ r with enq := m.clk }]) })
      some (m.due (.dataflowEligibilityTest (32 * die + seg) r.tid))
  else if dqRoom (m.core core) then some (dequeIn m core r) else none

/-- One child of the current crew. -/
def spawnOne (m : Mach) (d : Decl) (arg : Word) (kind : TaskKind) (cells : List Half) : Option Mach :=
  let c := m.cur
  let t := m.nextTid
  let cls := match m.job c.job with | some j => j.cls | none => c.cls
  let r : TaskRec := { tid := t, parent := c.tid, ped := pedChild c.ped, decl := d.addr, arg := arg, launch := c.launch, aff := d.aff, kind := kind,
                       stage := 0, cls := cls, cells := cells, rrk := c.rrk, enq := 0 }
  match placeRec { m with nextTid := t + 1 } c.core r with
  | none => none
  | some m => some ({ m with cur := spawned t m.cur }.modLaunch c.launch (fun l => { l with counter := l.counter + 1 }))

/-- The children from the k-th on (R93, R100, R114). [DEDUCED, assumption log 11; DEDUCED, assumption log 21] -/
def spawnAll (d : Decl) (kind : TaskKind) (cells : List Half) : Nat → List Word → Mach → R Mach
  | _, [], m => .ok m
  | k, a :: t, m =>
    match spawnOne m d a kind cells with
    | some m => spawnAll d kind cells (k + 1) t m
    | none => .error (.stall (if (stageOf m m.cur.launch d.addr).isSome then .window else .queue) (partSide k m))

/-- The checks of R380, and the declaration. -/
def spawnCheck (m : Mach) (x : Ctx) (n : Nat) : R Decl :=
  let c := m.cur
  let a := (opA x 15 x.low).toNat
  if isControl c.core then .error (trapOf 0x21 none 0 0 0 0)
  else
    let decl : Option Decl := match m.job c.job with | some j => j.decls.find? (fun d => d.addr == a) | none => none
    match decl with
    | none => .error (spawnTarget a 0)
    | some d =>
      if d.piped ≠ 0 then .error (spawnTarget a 1)
      else if d.hdlr then .error (spawnTarget a 2)
      else if pedDepth c.ped = 15 then .error (pedOvf c 2)
      else if 1023 < entStep (pedOwn c.ped) + n then .error (pedOvf c 0)
      else .ok d

/-- Spawn children with these arguments. -/
def spawnBody (args : Ctx → List Word) (x : Ctx) (m : Mach) : R Mach := do
  let k := x.cd.placed
  let l := (args x).drop k
  let d ← spawnCheck m x l.length
  let m ← commit m
  spawnAll d .spawned [] k l m

/-- The cell words of `spawnd`, and the first that is bad (R381). -/
def spawnCells (x : Ctx) : List Half :=
  match x.f.c with
  | .s r => (List.range 3).flatMap (fun i => let w := sGet x.cc (r.toNat + i); [lo32 w, lo32 (w >>> 32)])
  | _ => []

/-- A word that `spawnd` refuses (R381, R90): a DIE above 7 sets a bit of the field that R90 keeps zero. [DEDUCED, assumption log 20] -/
def spawnCellBad (tile i : Nat) (w : Half) : Bool :=
  (cwValid w && (bits w.toNat 29 17 != 0 || decide (tile ≤ cwCell w))) || (decide (4 ≤ i) && cwConsume w)

/-- `spawnd` (R380, R381). [DEDUCED, assumption log 20; DEDUCED, assumption log 21] -/
def spawndBody (x : Ctx) (m : Mach) : R Mach := do
  let d ← spawnCheck m x 1
  let ws := spawnCells x
  let tile := match m.launch m.cur.launch with | some l => l.tile | none => 0
  match (ws.zip (List.range 6)).find? (fun e => spawnCellBad tile e.2 e.1) with
  | some e => .error (trapOf 0x21 none (zx e.1) 0 0 0)
  | none =>
    let m ← commit m
    spawnAll d .dataflow ws 0 [opB x 6 x.low] m

/-! ### Join and re-root (R382, R383) -/

def joinBody (_ : Ctx) (m : Mach) : R Mach := do
  if entEpoch (pedOwn m.cur.ped) = 63 then .error (pedOvf m.cur 1)
  else
    let m ← commit m
    .ok (park m m.cur.tid (.join .join))

def prerootBody (_ : Ctx) (m : Mach) : R Mach := do
  let m ← commit m
  .ok (park m m.cur.tid (.join .preroot))

/-! ### Pedigree and random numbers (R384, R385) -/

/-- What `pget` reads for an entry number. -/
def pgetVal (p : Ped) (j : Nat) : Nat := if j = 0 then bits p.toNat 255 240 else if j = 16 then pedOwn p else if j ≤ 15 then pedEntry p j else 0

/-- The entry number: a register's is taken modulo 32. -/
def pgetIdx (x : Ctx) (L : Nat) : Nat := (opA x 2 L).toNat % 32

/-- `pdig`. -/
def pdigBody (x : Ctx) (c : Crew) : Crew :=
  let p : Ped :=
    match x.f.a with
    | .s r => BitVec.ofNat 256 ((List.range 4).foldl (fun t i => t + (sGet x.ca (r.toNat + i)).toNat * 2 ^ (64 * i)) 0)
    | _ => c.ped
  putRes x 64 false tRAW (fun _ => pdig p) c

/-- The registers that `rng` writes in a lane. -/
def rngVals (x : Ctx) (seed : Nat) (c : Crew) (n L : Nat) : List Nat :=
  let b := philox (pdig c.ped).toNat c.draw.toNat (opA x 2 L).toNat (seed % 2 ^ 32) (seed / 2 ^ 32)
  (b.take n).map (fun v => if x.y = 3 then (roundEx f32 0 0 (.val false (v / 256) (-24) false)).1 else v)

def rngBody (x : Ctx) (m : Mach) : R Mach :=
  let n := modeOf x.f
  let t := if x.y = 3 then tF32 else tN32
  let seed := seedOf m
  let c := m.cur
  let put (k : Crew) (L : Nat) : Crew :=
    let vs := rngVals x seed c n L
    match x.f.d with
    | .v r => putRun r.toNat t L vs k
    | .ind r i => putRun (effReg x.cd r i L) t L vs k
    | .s r => (List.range n).foldl (fun k j => sSet k (r.toNat + j) (w64 (vs.getD j 0)) t) k
    | _ => k
  .ok { m with cur := { (dLanes x x.f.d).foldl put c with draw := c.draw + 1 } }

/-! ### Arenas (R386, R387) -/

/-- ALLOCSHAPE with its three INFO words (R253, R386). [DEDUCED, assumption log 23] -/
def allocShape (desc i1 i2 i3 : Nat) : Halt := trapOf 0x08 none (w64 desc) (w64 i1) (w64 i2) (w64 i3)

/-- A field of an arena descriptor is out of range or a reserved bit is set. [DEDUCED, assumption log 23] -/
def arenaBad (b : List Byte) : Bool :=
  let k := fld b 8 1
  decide (k < 6) || decide (20 < k) || fld b 9 1 == 0 || decide (15 < fld b 9 1) || decide (6 < fld b 10 1) || decide (10 < fld b 11 1) ||
  decide (32 < fld b 12 1) || !zeros b 13 19 || fld b 0 8 % 2 ^ k != 0

/-- The index above q: ROOT and the digits, or the level whose entry does not fit. -/
def arenaDigits (p : Ped) (l ew sw : Nat) : Except (Nat × Nat) Nat :=
  foldE (fun acc j =>
    let e := pedEntry p j
    if pedDepth p ≤ j then .ok (acc * 2 ^ (ew + sw + 1))
    else if 2 ^ ew ≤ entEpoch e ∨ 2 ^ sw ≤ entStep e then .error (j, e)
    else .ok (acc * 2 ^ (ew + sw + 1) + (1 + entEpoch e * 2 ^ sw + entStep e))) ((List.range l).map (· + 1)) (pedRoot p)

/-- An arena that a task of the job uses is a demand-paged region of the job (R260; DESIGN CHOICE, assumption log 6). [DEDUCED, assumption log 23] -/
def arenaRegion (m : Mach) (base len : Nat) : Mach :=
  m.modJob m.cur.job (fun j =>
    let r : Region := { base := base, len := len }
    if j.regions.contains r then j else { j with regions := j.regions ++ [r] })

/-- The addresses of the lanes of U, and the state after the descriptor's read. [DEDUCED, assumption log 23] -/
def arenaAddrs (x : Ctx) (u : List Nat) (m : Mach) : R (Mach × List Nat) := do
  let desc := (opA x 15 x.low).toNat
  let p := m.cur.ped
  if pedH p then .error (allocShape desc 0 0 0)
  else
    let (m, b) ← uniformLoad m x desc 32 32
    let k := fld b 8 1
    let l := fld b 9 1
    let ew := fld b 10 1
    let sw := fld b 11 1
    let qw := fld b 12 1
    if arenaBad b then .error (allocShape desc 3 0 (fld b 8 8))
    else if 40 < 8 + l * (ew + sw + 1) + qw then .error (allocShape desc 3 0 (8 + l * (ew + sw + 1) + qw))
    else if l < pedDepth p - 1 then .error (allocShape desc 1 (l + 1) (pedEntry p (l + 1)))
    else
      match arenaDigits p l ew sw with
      | .error (j, e) => .error (allocShape desc 1 j e)
      | .ok hi =>
        let q0 := m.cur.aseq.toNat
        match (List.range u.length).find? (fun i => decide (2 ^ qw ≤ q0 + i)) with
        | some i => .error (allocShape desc 2 0 (q0 + i))
        | none =>
          .ok (arenaRegion m (fld b 0 8) (2 ^ (8 + l * (ew + sw + 1) + qw + k)),
            (List.range u.length).map (fun i => (fld b 0 8 + (hi * 2 ^ qw + q0 + i) * 2 ^ k) % 2 ^ 64))

/-- Deliver the addresses and advance `%aseq`. -/
def arenaPut (x : Ctx) (u addrs : List Nat) (m : Mach) : Mach :=
  let c := (u.zip addrs).foldl (fun c e => putLane x 64 false tADDR x.f.d e.1 (w64 e.2) c) m.cur
  { m with cur := { c with aseq := c.aseq + w64 u.length } }

def pallocBody (x : Ctx) (m : Mach) : R Mach := do
  let u := dLanes x x.f.d
  let (m, as) ← arenaAddrs x u m
  .ok (arenaPut x u as m)

def plogBody (x : Ctx) (m : Mach) : R Mach := do
  let u := if opdIsS x.f.d || (opdIsNone x.f.d && opdIsS x.f.b) then [x.low] else x.lanes
  let (m, as) ← arenaAddrs x u m
  let st : List (Acc × List Byte) := (u.zip as).map (fun e => ({ lane := e.1, va := e.2, size := 8 }, toBytes 8 (opB x 6 e.1).toNat))
  sbStall m m.cur true (st.map (·.1))
  let m ← plainStores m x.pc st
  .ok (arenaPut x u as m)

/-! ### The meanings -/

/-- `spawn` (R380). -/
def execSpawn (f : Fields) (s : State) : Host.Outcome State Fault Refusal := runInstr 0xB0 (spawnBody (fun x => [opB x 6 x.low])) f s
/-- `spawnv` (R380). -/
def execSpawnv (f : Fields) (s : State) : Host.Outcome State Fault Refusal := runInstr 0xB1 (spawnBody (fun x => x.lanes.map (fun L => opB x 6 L))) f s
/-- `spawnd` (R381). -/
def execSpawnd (f : Fields) (s : State) : Host.Outcome State Fault Refusal := runInstr 0xB2 spawndBody f s
/-- `join` (R382). -/
def execJoin (f : Fields) (s : State) : Host.Outcome State Fault Refusal := runInstr 0xB3 joinBody f s
/-- `pget` (R384). -/
def execPget (f : Fields) (s : State) : Host.Outcome State Fault Refusal :=
  runInstr 0xB4 (onCrew (fun x c => putRes x 32 false tN32 (fun L => w64 (pgetVal c.ped (pgetIdx x L))) c)) f s
/-- `pdig` (R384). -/
def execPdig (f : Fields) (s : State) : Host.Outcome State Fault Refusal := runInstr 0xB5 (onCrew pdigBody) f s
/-- `preroot` (R383). -/
def execPreroot (f : Fields) (s : State) : Host.Outcome State Fault Refusal := runInstr 0xB6 prerootBody f s
/-- `rng` (R385). -/
def execRng (f : Fields) (s : State) : Host.Outcome State Fault Refusal := runInstr 0xB7 rngBody f s
/-- `palloc` (R387). -/
def execPalloc (f : Fields) (s : State) : Host.Outcome State Fault Refusal := runInstr 0xB8 pallocBody f s
/-- `plog` (R387). -/
def execPlog (f : Fields) (s : State) : Host.Outcome State Fault Refusal := runInstr 0xB9 plogBody f s

end Sys2Proof.Machine
end

