-- ==== Sys2Proof/Machine/ReduceOps.lean ====
section
/-! DEFINITION. Reducer instructions, opcodes 0xBA to 0xBC (R388 to R393). -/

namespace Sys2Proof.Machine

/-- `rview` (R391, R393). [DEDUCED, assumption log 24] -/
def rviewBody (x : Ctx) (m : Mach) : R Mach := do
  let (r, e) ← redArg m x
  let v := curView (redsOf m m.cur) m.cur r
  let val (L : Nat) : Word := if e.kind = 9 then w64 v.recs.length else redOut e.kind (rvGet e.kind v (redElem x L))
  .ok { m with cur := putRes x (if redWide e.kind then 64 else 32) (redTag e.kind == tI32) (redTag e.kind) val m.cur }

/-- The type by which a value of a kind is read (R389, R271). -/
def redTy (kind : Nat) : Nat := match kind with | 0 => 4 | 1 | 4 | 5 => 3 | 2 | 3 => 1 | _ => 6

/-- A record of a lane (R392). -/
def redRecord (x : Ctx) (n L : Nat) : List Byte :=
  let q := match x.f.c with | .v r => r.toNat | .ind r i => effReg x.cc r i L | _ => 0
  ((List.range ((n + 3) / 4)).flatMap (fun i => toBytes 4 (vGet x.cc (q + i) L).toNat)).take n

/-- Change the eddy of the current segment. -/
def eddyMod (c : Crew) (r : Nat) (f : RView → RView) : Crew :=
  let key := eddyKey c.kseg r
  { c with eddies := smSet viewEmpty c.eddies key (f (smGet viewEmpty c.eddies key)) }

def raccBody (x : Ctx) (m : Mach) : R Mach := do
  let (r, e) ← redArg m x
  if e.kind = 9 then
    .ok { m with cur := x.lanes.foldl (fun c L => eddyMod c r (fun v => { v with recs := v.recs ++ [redRecord x e.reclen L] })) m.cur }
  else
    let val (L : Nat) : Word := opC x (redTy e.kind) L
    .ok { m with cur := x.lanes.foldl (fun c L => eddyMod c r (fun v => rvAcc e.kind v (redElem x L) (redIn e.kind (val L)))) m.cur }

def rfinBody (x : Ctx) (m : Mach) : R Mach := do
  let (r, _) ← redArg m x
  if entEpoch (pedOwn m.cur.ped) = 63 then .error (pedOvf m.cur 1)
  else
    let m ← commit m
    .ok (park m m.cur.tid (.join (.rfin r x.pc x.active)))

/-- `rview` (R392). -/
def execRview (f : Fields) (s : State) : Host.Outcome State Fault Refusal := runInstr 0xBA rviewBody f s
/-- `racc` (R392). -/
def execRacc (f : Fields) (s : State) : Host.Outcome State Fault Refusal := runInstr 0xBB raccBody f s
/-- `rfin` (R393). -/
def execRfin (f : Fields) (s : State) : Host.Outcome State Fault Refusal := runInstr 0xBC rfinBody f s

end Sys2Proof.Machine
end

