-- ==== Sys2Proof/Machine/Loader.lean ====
section
/-! DEFINITION. Job images and code objects: their structure, relocation, declarations and executable scanning (R66, R67, R82 to R86, R283,
R286, R444, R448). -/

namespace Sys2Proof.Machine

/-- Bytes of an image: the number in n bytes at an offset. -/
abbrev Rd := Nat → Nat → Nat

/-- Offsets at which a test fails. -/
def fails (l : List (Nat × Bool)) : List Nat := (l.filter (·.2)).map (·.1)

/-- Is a run of bytes zero? -/
def zeroRun (rd : Rd) (o n : Nat) : Bool := rd o n == 0

/-! ### Graphs (R66, R67) -/

def nodeSucc (rd : Rd) (at_ : Nat) : List Nat := (List.range (min (rd (at_ + 1) 1) 16)).map (fun k => rd (at_ + 64 + 2 * k) 2)

/-- The failing fields of a node (R67). An `ADDR` of 2^57 or more, which no page can hold, counts as failing: R67 names its alignment only.
[DESIGN CHOICE, assumption log 34] -/
def nodeBad (rd : Rd) (n j at_ : Nat) : List Nat :=
  let cond := rd at_ 1 == 2
  let ns := rd (at_ + 1) 1
  let su := nodeSucc rd at_
  fails
    [(at_, !(rd at_ 1 == 1 || cond)), (at_ + 1, decide (16 < ns) || (cond && ns == 0)), (at_ + 2, !zeroRun rd (at_ + 2) 6),
     (at_ + 8, rd (at_ + 8) 8 % (if cond then 8 else 64) != 0 || decide (2 ^ 57 ≤ rd (at_ + 8) 8)),
     (at_ + 16, if cond then rd (at_ + 16) 2 != 0 else rd (at_ + 16) 2 == 0 || decide (256 < rd (at_ + 16) 2)),
     (at_ + 18, cond && rd (at_ + 18) 2 != 0), (at_ + 20, if cond then rd (at_ + 20) 4 != 0 else decide (16384 < rd (at_ + 20) 4)),
     (at_ + 24, cond && !zeroRun rd (at_ + 24) 8), (at_ + 32, cond && !zeroRun rd (at_ + 32) 8), (at_ + 40, !zeroRun rd (at_ + 40) 24)] ++
  (List.range 16).filterMap (fun k =>
    let v := rd (at_ + 64 + 2 * k) 2
    let bad := if k < ns then decide (n ≤ v) || v == j || (su.take k).contains v else v != 0
    if bad then some (at_ + 64 + 2 * k) else none) ++
  fails [(at_ + 96, !zeroRun rd (at_ + 96) 32)]

/-- The nodes reached from some, n steps on. -/
def reachFrom (succ : Nat → List Nat) : Nat → List Nat → List Nat
  | 0, l => l
  | n + 1, l => reachFrom succ n (l ++ (l.flatMap succ).filter (fun x => !l.contains x)).eraseDups

/-- The failing fields of a graph of n nodes: of each node, and the successor entries that lie on a cycle. [DEDUCED, assumption log 34] -/
def graphBad (rd : Rd) (g n : Nat) : List Nat :=
  let succ (j : Nat) : List Nat := (nodeSucc rd (g + 128 * j)).filter (fun k => decide (k < n))
  (List.range n).flatMap (fun j => nodeBad rd n j (g + 128 * j)) ++
  (List.range n).flatMap (fun j =>
    let su := nodeSucc rd (g + 128 * j)
    (List.range su.length).filterMap (fun i =>
      let k := su.getD i 0
      if k < n ∧ (reachFrom succ n [k]).contains j then some (g + 128 * j + 64 + 2 * i) else none))

/-- The failing fields of a job image's header, tables and graphs. [DEDUCED, assumption log 34] -/
def imageBad (rd : Rd) (len : Nat) : List Nat :=
  if len < 64 then [0]
  else
    let no := rd 4 2
    let np := rd 6 2
    let ot := rd 8 8
    let pt := rd 16 8
    let hd := fails
      [(0, rd 0 4 != 0x424F4A47), (4, no == 0 || decide (16 < no)), (6, np == 0 || decide (256 < np)), (8, decide (len < ot + 16 * no)),
       (16, decide (len < pt + 16 * np)), (24, !zeroRun rd 24 40)]
    let objs := if len < ot + 16 * no then [] else
      (List.range no).flatMap (fun k => fails [(ot + 16 * k, decide (len < rd (ot + 16 * k) 8 + rd (ot + 16 * k + 8) 8))])
    let phs := if len < pt + 16 * np then [] else
      (List.range np).flatMap (fun p =>
        let a := pt + 16 * p
        let n := rd (a + 12) 2
        if n = 0 ∨ 4096 < n then [a + 12] else
          fails [(a, decide (len < rd a 8 + 128 * n)), (a + 14, rd (a + 14) 2 != 0)] ++ (if len < rd a 8 + 128 * n then [] else graphBad rd (rd a 8) n))
    hd ++ objs ++ phs

/-- A node as the graph runs it. -/
def parseNode (rd : Rd) (a : Nat) : Node :=
  { cond := rd a 1 == 2, addr := rd (a + 8) 8, nroot := rd (a + 16) 2, affbase := rd (a + 18) 2, tile := rd (a + 20) 4, seed := w64 (rd (a + 24) 8),
    hints := rd (a + 32) 8, succ := nodeSucc rd a }

def parsePhases (rd : Rd) : List Phase :=
  (List.range (rd 6 2)).map (fun p =>
    let a := rd 16 8 + 16 * p
    { repeats := rd (a + 8) 4, nodes := (List.range (rd (a + 12) 2)).map (fun j => parseNode rd (rd a 8 + 128 * j)) })

/-! ### Code objects (R82, R83; the ELF64 layout is PRESUMED, assumption log 5) -/

/-- A loadable segment: its program header's offset, and its place in the object and in memory. -/
structure LSeg where
  hdr  : Nat
  foff : Nat
  va   : Nat
  fsz  : Nat
  msz  : Nat
  flg  : Nat
  deriving DecidableEq, Repr

/-- A code object of an image: its bytes from `off`, and the bytes that relocation has changed, by address. -/
structure LObj where
  idx   : Nat
  off   : Nat
  len   : Nat
  segs  : List LSeg
  patch : List (Nat × Byte)
  deriving DecidableEq, Repr

def sgX (s : LSeg) : Bool := bit s.flg 0
def sgW (s : LSeg) : Bool := bit s.flg 1
def sgChk (s : LSeg) : Bool := bit s.flg 20
def sgView (s : LSeg) : Bool := bit s.flg 21
def sgMaster (s : LSeg) : Bool := bit s.flg 22

/-- The failing fields of an object's ELF header. [PRESUMED, assumption log 5] -/
def elfBad (rd : Rd) (o len : Nat) : List Nat :=
  if len < 64 then [o]
  else
    fails
      [(o, rd o 4 != 0x464C457F), (o + 4, rd (o + 4) 1 != 2), (o + 5, rd (o + 5) 1 != 1), (o + 6, rd (o + 6) 1 != 1), (o + 7, rd (o + 7) 1 != 0xDA),
       (o + 8, rd (o + 8) 1 != 1), (o + 16, rd (o + 16) 2 != 2), (o + 18, rd (o + 18) 2 != 0xD32A), (o + 20, rd (o + 20) 4 != 1),
       (o + 32, decide (len < rd (o + 32) 8 + 56 * rd (o + 56) 2)), (o + 40, decide (len < rd (o + 40) 8 + 64 * rd (o + 60) 2)),
       (o + 48, rd (o + 48) 4 != 0), (o + 54, rd (o + 54) 2 != 56), (o + 58, rd (o + 58) 2 != 64), (o + 62, decide (rd (o + 60) 2 ≤ rd (o + 62) 2))]

/-- The loadable segments of an object. -/
def parseSegs (rd : Rd) (o : Nat) : List LSeg :=
  (List.range (rd (o + 56) 2)).filterMap (fun i =>
    let h := o + rd (o + 32) 8 + 56 * i
    if rd h 4 = 1 then some { hdr := h, foff := rd (h + 8) 8, va := rd (h + 16) 8, fsz := rd (h + 32) 8, msz := rd (h + 40) 8, flg := rd (h + 4) 4 } else none)

/-- The failing fields of a segment (R70, R83, R444, R448); W with X is the next check's. -/
def segBad (len : Nat) (s : LSeg) : List Nat :=
  let odd (n : Nat) : Bool := sgX s && n % 4096 != 0
  let flagsBad := !bit s.flg 2 || s.flg &&& 0xFF8FFFF8 != 0 || (sgChk s && (!sgW s || sgX s)) || (sgView s && (sgW s || sgX s)) ||
    (sgMaster s && (sgX s || !sgW s)) || (sgView s && sgMaster s) || ((sgView s || sgMaster s) && sgChk s)
  fails
    [(s.hdr + 4, flagsBad), (s.hdr + 8, decide (len < s.foff + s.fsz) || odd s.foff),
     (s.hdr + 16, decide (2 ^ 57 < s.va + s.msz) || odd s.va || (s.msz != 0 && decide (s.va < ctlPage + 0x10000 ∧ ctlPage < s.va + s.msz))),
     (s.hdr + 32, decide (s.msz < s.fsz) || odd s.fsz), (s.hdr + 40, odd s.msz)]

/-- Do two address ranges share a 4 KiB page? -/
def pagesMeet (a n b k : Nat) : Bool := n != 0 && k != 0 && decide (a / 4096 ≤ (b + k - 1) / 4096 ∧ b / 4096 ≤ (a + n - 1) / 4096)

/-- Segments that share a page with one before them or with one of the job (R82). -/
def overlapBad (had : List Seg) : List LSeg → List LSeg → List Nat
  | _, [] => []
  | seen, s :: t =>
    let hit := seen.any (fun q => pagesMeet q.va q.msz s.va s.msz) || had.any (fun q => pagesMeet q.base q.len s.va s.msz)
    (if hit then [s.hdr + 16] else []) ++ overlapBad had (s :: seen) t

/-! ### Sections -/

/-- The headers of an object's sections. -/
def sections (rd : Rd) (o : Nat) : List Nat := (List.range (rd (o + 60) 2)).map (fun i => o + rd (o + 40) 8 + 64 * i)
def shType (rd : Rd) (h : Nat) : Nat := rd (h + 4) 4
def shAddr (rd : Rd) (h : Nat) : Nat := rd (h + 16) 8
def shOff (rd : Rd) (o h : Nat) : Nat := o + rd (h + 24) 8
def shSize (rd : Rd) (h : Nat) : Nat := rd (h + 32) 8

/-- Does a name stand at an offset, with its end? -/
def nameAt (rd : Rd) (o : Nat) (name : String) : Bool :=
  let l := name.toList.map (fun c => c.toNat)
  ((List.range l.length).zip l).all (fun e => rd (o + e.1) 1 == e.2) && rd (o + l.length) 1 == 0

/-- The section of a name. -/
def findSect (rd : Rd) (o : Nat) (name : String) : Option Nat :=
  let strs := shOff rd o (o + rd (o + 40) 8 + 64 * rd (o + 62) 2)
  (sections rd o).find? (fun h => nameAt rd (strs + rd h 4) name)

/-- Do a section's bytes lie in its object? -/
def sectIn (rd : Rd) (len h : Nat) : Bool := shType rd h == 8 || decide (rd (h + 24) 8 + shSize rd h ≤ len)

/-- The failing fields of an object's sections. [DEDUCED, assumption log 34] R84's relocations carry addends and the spec names no other form of section for
them: one of type SHT_REL (9) fails at its type field. [DESIGN CHOICE, assumption log 34] -/
def sectBad (rd : Rd) (o len : Nat) (segs : List LSeg) : List Nat :=
  let out := (sections rd o).flatMap (fun h => fails [(h + 24, !sectIn rd len h), (h + 4, shType rd h == 9)])
  let need := fails ([".brix.depths", ".brix.tasks", ".brix.linkage"].map (fun n => (o + 40, (findSect rd o n).isNone)))
  let inSeg (h : Nat) (w : Bool) : Bool :=
    shSize rd h == 0 || segs.any (fun s => decide (s.va ≤ shAddr rd h ∧ shAddr rd h + shSize rd h ≤ s.va + s.msz) && sgW s == w && (w || !sgX s))
  let tasks := match findSect rd o ".brix.tasks" with
    | some h => fails [(h + 16, shAddr rd h % 64 != 0 || !inSeg h false), (h + 32, shSize rd h % 64 != 0)]
    | none => []
  let link := match findSect rd o ".brix.linkage" with
    | some h => fails [(h + 16, shAddr rd h % 8 != 0 || !inSeg h true), (h + 32, shSize rd h % 8 != 0)]
    | none => []
  out ++ need ++ tasks ++ link

/-! ### Bytes of an object as loaded, and relocation (R84) -/

/-- The segment that holds n bytes at an address. -/
def segOf (o : LObj) (va n : Nat) : Option LSeg := o.segs.find? (fun s => decide (s.va ≤ va ∧ va + n ≤ s.va + s.msz))

/-- The file offset, from `IMAGE`, of an address. -/
def fileAt (o : LObj) (va : Nat) : Option Nat :=
  match segOf o va 1 with
  | some s => if va < s.va + s.fsz ∧ s.foff + (va - s.va) < o.len then some (o.off + s.foff + (va - s.va)) else none
  | none => none

/-- A byte as loaded. -/
def objByte (rd : Rd) (o : LObj) (va : Nat) : Nat :=
  match smFind o.patch va with
  | some b => b.toNat
  | none => match fileAt o va with | some a => rd a 1 | none => 0

def objNum (rd : Rd) (o : LObj) (va n : Nat) : Nat := (List.range n).foldl (fun t i => t + objByte rd o (va + i) * 256 ^ i) 0

def patchAt (o : LObj) (va : Nat) (bs : List Byte) : LObj :=
  { o with patch := ((List.range bs.length).zip bs).foldl (fun l e => smPut l (va + e.1) e.2) o.patch }

/-- The address of an object's resolver stub (R442). -/
def stubOf (rd : Rd) (o : Nat) : Option Nat :=
  (sections rd o).findSome? (fun h =>
    if shType rd h = 2 then
      let strs := shOff rd o (o + rd (o + 40) 8 + 64 * rd (h + 40) 4)
      ((List.range (shSize rd h / 24)).find? (fun i =>
        let s := shOff rd o h + 24 * i
        rd (s + 6) 2 != 0 && nameAt rd (strs + rd s 4) "__brix_resolve")).map (fun i => rd (shOff rd o h + 24 * i + 8) 8)
    else none)

/-- The relocation entries of an object, each with its symbol table's header. -/
def relocs (rd : Rd) (o len : Nat) : List (Nat × Nat) :=
  (sections rd o).flatMap (fun h =>
    if shType rd h = 4 ∧ sectIn rd len h then (List.range (shSize rd h / 24)).map (fun i => (shOff rd o h + 24 * i, o + rd (o + 40) 8 + 64 * rd (h + 40) 4)) else [])

/-- One relocation: the object with it applied, or the field that fails. [DEDUCED, assumption log 34] -/
def relocOne (rd : Rd) (stub : Option Nat) (o : LObj) (e : Nat × Nat) : Except Nat LObj :=
  let p := rd e.1 8
  let typ := rd (e.1 + 8) 4
  let sym := rd (e.1 + 12) 4
  let add := rd (e.1 + 16) 8
  let sa := shOff rd o.off e.2 + 24 * sym
  let v := rd (sa + 8) 8 + add
  let rel := toSigned 64 ((v + 2 ^ 64 - p) % 2 ^ 64)
  if (segOf o p (if typ = 2 ∨ typ = 3 then 16 else 8)).isNone then .error e.1
  else if typ = 0 ∨ 4 < typ then .error (e.1 + 8)
  else if shSize rd e.2 / 24 ≤ sym ∨ (typ ≠ 4 ∧ sym ≠ 0 ∧ rd (sa + 6) 2 = 0) ∨ (typ = 4 ∧ stub.isNone) then .error (e.1 + 12)
  else
    match typ with
    | 1 => .ok (patchAt o p (toBytes 8 (v % 2 ^ 64)))
    | 2 => .ok (patchAt o (p + 12) (toBytes 4 (v % 2 ^ 32)))
    | 3 => if rel < -(2 ^ 31) ∨ 2 ^ 31 ≤ rel then .error (e.1 + 16) else .ok (patchAt o (p + 12) (toBytes 4 (wrapTo 32 rel)))
    | _ => .ok (patchAt o p (toBytes 8 (stub.getD 0)))

/-- All of an object's relocations in order. -/
def relocAll (rd : Rd) (o : LObj) : LObj × List Nat :=
  (relocs rd o.off o.len).foldl (fun acc e => match relocOne rd (stubOf rd o.off) acc.1 e with | .ok o => (o, acc.2) | .error a => (acc.1, acc.2 ++ [a])) (o, [])

/-- Undefined symbols that no BRX_LINK entry names. [DEDUCED, assumption log 34] -/
def undefBad (rd : Rd) (o len : Nat) : List Nat :=
  let linked := ((relocs rd o len).filter (fun e => rd (e.1 + 8) 4 == 4)).map (fun e => shOff rd o e.2 + 24 * rd (e.1 + 12) 4)
  (sections rd o).flatMap (fun h =>
    if shType rd h = 2 ∧ sectIn rd len h then
      (List.range (shSize rd h / 24)).filterMap (fun i =>
        let s := shOff rd o h + 24 * i
        if i ≠ 0 ∧ rd (s + 6) 2 = 0 ∧ !linked.contains s then some (s + 6) else none)
    else [])

/-! ### Executable scanning (R85, R86, R283) -/

/-- The first failing word of a page: its offset, the reason and the word. -/
structure ScanFail where
  off    : Nat
  reason : Nat
  word   : Nat

/-- The headers of a page of `len` bytes, found block by block, n blocks at most. -/
def pageHeads (rd : Nat → Nat) (len : Nat) : Nat → Nat → List Nat
  | 0, _ => []
  | n + 1, o =>
    let w := rd o
    if len ≤ o ∨ !isHeader w ∨ bits w 54 43 = 0 then [] else o :: pageHeads rd len n (o + 8 * (bits w 54 43 + 1))

/-- Is an operand code or the guard one of check 6? -/
def check6 (w : Nat) : Bool :=
  let res (c : Nat) : Bool := decide (0x2E1 ≤ c ∧ c ≤ 0x2FF)
  decide (12 ≤ bits w 47 44 ∧ bits w 47 44 ≤ 14) || res (bits w 39 30) || res (bits w 29 20) || res (bits w 19 10) || res (bits w 9 0)

/-- The direct target of an instruction, as an offset in its page of `len` bytes; none when it has none or it lies outside. -/
def pageTarget (len op : Nat) (f : Fields) (o : Nat) : Option Nat :=
  let d : Option Int :=
    if op = 0x30 ∨ op = 0x32 ∨ op = 0x35 then
      (match f.a with | .imm k => some (8 * k.toInt) | .lit => some f.lit.toInt | _ => none)
    else none
  match d with
  | some d => let t := (o : Int) + d; if 0 ≤ t ∧ t < len then some t.toNat else none
  | none => none

/-- One instruction of a block that ends at `stop`, in a page of `page` bytes: where it fails and why. [DEDUCED, assumption log 34] -/
def scanWord (page : Nat) (heads : List Nat) (o stop w x : Nat) : Option (Nat × Nat) :=
  let op := bits w 62 55
  let wide := bit w 63
  let len := if wide then 16 else 8
  let blank : Fields := { wide := false, stall := 0, reuse := 0, guard := none, neg := false, ty := 0, d := .none, a := .none, b := .none, c := .none, lit := 0, sc := 0, ord := 0, aux := 0 }
  if (mkInstr op blank).isNone then some (o, 1)
  else if wide ∧ stop ≤ o + 8 then some (o, 5)
  else if check6 w then some (o, 6)
  else
    let judge (x : Nat) : Option (Nat × Nat) :=
      match decodeWords w x with
      | .error .notInstruction => some (o, 1)
      | .error .reservedField => some (o + 8, 7)
      | .error .reservedScope => some (o + 8, 7)
      | .error _ => some (o, 8)
      | .ok i =>
        match i.parts with
        | none => some (o, 8)
        | some (op, f) =>
          let farBad := match pageTarget page op f o with | some t => !heads.contains t | none => false
          if !i.wf || farBad || ((op == 0x32 || op == 0x33) && o + len != stop) then some (o, 8) else none
    match judge x with
    | some (a, 7) =>
      -- the first word's own failure stands before the second word's
      match judge (x - bits x 17 16 * 2 ^ 16 - (if 4 < bits x 24 22 then bits x 24 22 * 2 ^ 22 else 0)) with
      | some (_, 8) => some (o, 8)
      | _ => some (a, 7)
    | r => r

/-- The words of a block. [DEDUCED, assumption log 34] -/
def scanBlock (rd : Nat → Nat) (page : Nat) (heads : List Nat) (stop : Nat) : Nat → Nat → Option (Nat × Nat)
  | 0, _ => none
  | n + 1, o =>
    if stop ≤ o then none
    else
      match scanWord page heads o stop (rd o) (rd (o + 8)) with
      | some r => some r
      | none => scanBlock rd page heads stop n (o + (if bit (rd o) 63 then 16 else 8))

/-- The blocks of a page of `len` bytes. A word with `OP` 0xFF and `W` 1 where a header is expected has REASON 0x03 at the page's first word too (R279). -/
def scanFrom (rd : Nat → Nat) (len : Nat) (heads : List Nat) : Nat → Nat → Option (Nat × Nat)
  | 0, _ => none
  | n + 1, o =>
    if len ≤ o then none
    else
      let w := rd o
      let stop := o + 8 * (bits w 54 43 + 1)
      let t := (o : Int) + 8 * hdrReconv w
      if !isHeader w then some (o, if o = 0 ∧ bits w 63 55 ≠ 0x1FF then 2 else 3)
      else if bits w 54 43 = 0 ∨ bits w 5 0 ≠ 0 ∨ len < stop then some (o, 3)
      else if hdrReconv w ≠ 0 ∧ 0 ≤ t ∧ t < len ∧ !heads.contains t.toNat then some (o, 4)
      else
        match scanBlock rd len heads stop 4096 (o + 8) with
        | some r => some r
        | none => scanFrom rd len heads n stop

/-- Scan a page of `len` bytes whose word at an offset `rd` gives. -/
def scanPage (rd : Nat → Nat) (len : Nat) : Option ScanFail :=
  (scanFrom rd len (pageHeads rd len (len / 16) 0) (len / 16) 0).map (fun e => { off := e.1, reason := e.2, word := rd e.1 })

/-- The failure record of R86. -/
def scanRecord (page obj : Nat) (f : ScanFail) : List Byte :=
  toBytes 8 page ++ toBytes 4 f.off ++ toBytes 4 f.reason ++ toBytes 8 f.word ++ toBytes 1 obj ++ List.replicate 7 0

/-! ### Declarations (R285, R286) -/

/-- A word of the job's address space: of the objects that are loaded together, else of what the job has mapped already. -/
def jobWord (m : Mach) (job : Option Nat) (rd : Rd) (os : List LObj) (va : Nat) : Nat :=
  match os.find? (fun o => (segOf o va 8).isSome) with
  | some o => objNum rd o va 8
  | none => match job with | some j => (match jobRead m j 8 va with | some b => ofBytes b | none => 0) | none => 0

/-- The read-only loadable segments of a job, and its executable ones, as address ranges. -/
def roHas (had : List Seg) (os : List LObj) (a : Nat) : Bool :=
  os.any (fun o => o.segs.any (fun s => !sgW s && !sgX s && decide (s.va ≤ a ∧ a < s.va + s.msz))) ||
  had.any (fun s => !s.w && !s.x && decide (s.base ≤ a ∧ a < s.base + s.len))
def xHas (had : List Seg) (os : List LObj) (a : Nat) : Bool :=
  os.any (fun o => o.segs.any (fun s => sgX s && decide (s.va ≤ a ∧ a < s.va + s.msz))) || had.any (fun s => s.x && decide (s.base ≤ a ∧ a < s.base + s.len))

/-- The failing fields of a declaration, as offsets in the record; `w` reads words of the job. -/
def declBad (w : Nat → Nat) (had : List Seg) (os : List LObj) (b : List Byte) : List Nat :=
  let entry := fld b 0 8
  let page := entry / 4096 * 4096
  let isHead := entry % 8 == 0 && xHas had os entry && (pageHeads (fun o => w (page + o)) 4096 256 0).contains (entry % 4096)
  let hw := w entry
  let form (o : Nat) : Bool := fld b o 8 != 0 && (fld b o 8 % 64 != 0 || decide (2 ^ 57 ≤ fld b o 8))
  let ro (o : Nat) : Bool := fld b o 8 != 0 && !roHas had os (fld b o 8)
  fails
    [(0, !isHead || !hdrEntry hw), (8, decide (6 < fld b 8 1)), (9, decide (3 < fld b 9 1) || (isHead && hdrHandler hw != bit (fld b 9 1) 1)),
     (10, fld b 10 2 == 0 || decide (512 < fld b 10 2)), (12, fld b 12 1 == 0 || decide (128 < fld b 12 1)), (13, decide (16 < fld b 13 1)),
     (14, decide (8 < fld b 14 1)), (15, decide (8 < fld b 15 1)), (18, !zeros b 18 6), (24, form 24), (32, form 32 || ro 32), (40, form 40 || ro 40),
     (48, !zeros b 48 16)]

/-- The addresses of an object's declarations. -/
def declAddrs (rd : Rd) (o : LObj) : List Nat :=
  match findSect rd o.off ".brix.tasks" with
  | some h => if sectIn rd o.len h then (List.range (shSize rd h / 64)).map (fun i => shAddr rd h + 64 * i) else []
  | none => []

def declBytes (rd : Rd) (o : LObj) (va : Nat) : List Byte := (List.range 64).map (fun i => BitVec.ofNat 8 (objByte rd o (va + i)))

/-! ### The checks of an object list, in the order of R65 -/

/-- Why a request fails: its status, `INFO` and the scan record. -/
structure LoadErr where
  status : Nat
  info   : Nat
  scan   : List Byte
  deriving DecidableEq, Repr

def minOff (l : List Nat) : Option Nat := l.foldl (fun b x => match b with | none => some x | some y => some (Nat.min x y)) none

/-- Objects of an image: (offset, length). -/
def objSpans (rd : Rd) (len : Nat) : List (Nat × Nat) :=
  if len < 64 ∨ 16 < rd 4 2 ∨ len < rd 8 8 + 16 * rd 4 2 then []
  else ((List.range (rd 4 2)).map (fun k => (rd (rd 8 8 + 16 * k) 8, rd (rd 8 8 + 16 * k + 8) 8))).filter (fun s => decide (s.1 + s.2 ≤ len))

/-- Check the structure of objects and relocate them; `had` is what the job has loaded, `pre` what failed before. [DEDUCED, assumption log 34] -/
def loadObjs (m : Mach) (job : Option Nat) (had : List Seg) (rd : Rd) (pre : List Nat) (spans : List (Nat × Nat)) : Except LoadErr (List LObj) :=
  let heads := spans.flatMap (fun s => elfBad rd s.1 s.2)
  let good := spans.zip (List.range spans.length) |>.filter (fun s => (elfBad rd s.1.1 s.1.2).isEmpty)
  let raw : List LObj := good.map (fun s => { idx := s.2, off := s.1.1, len := s.1.2, segs := parseSegs rd s.1.1, patch := [] })
  let meet := overlapBad had [] (raw.flatMap (·.segs))
  let shapeBad (o : LObj) : List Nat := o.segs.flatMap (segBad o.len) ++ sectBad rd o.off o.len o.segs
  -- of an object whose segments or sections fail, the other fields are judged as far as they stand in the image
  let rel := raw.map (relocAll rd)
  let os := rel.map (·.1)
  let w := jobWord m job rd os
  let decls := os.flatMap (fun o => (declAddrs rd o).flatMap (fun va => (declBad w had os (declBytes rd o va)).filterMap (fun k =>
    if (shapeBad o).isEmpty then some ((fileAt o (va + k)).getD 0) else fileAt o (va + k))))
  match minOff (pre ++ heads ++ raw.flatMap shapeBad ++ meet ++ rel.flatMap (·.2) ++ os.flatMap (fun o => undefBad rd o.off o.len) ++ decls) with
  | some a => .error { status := 5, info := a, scan := [] }
  | none =>
    match minOff (os.flatMap (fun o => (o.segs.filter (fun s => sgW s && sgX s)).map (fun s => s.hdr + 4))) with
    | some a => .error { status := 8, info := a, scan := [] }
    | none =>
      let depth (o : LObj) : List Nat :=
        match findSect rd o.off ".brix.depths" with
        | some h =>
          if shSize rd h ≠ 32 then [h + 32]
          else ((List.range 32).filter (fun i => rd (shOff rd o.off h + i) 1 != (depthsEntry.getD i 0).toNat)).map (fun i => shOff rd o.off h + i)
        | none => []
      match minOff (os.flatMap depth) with
      | some a => .error { status := 7, info := a, scan := [] }
      | none =>
        let bad := os.flatMap (fun o => (o.segs.filter sgX).flatMap (fun s =>
          (List.range (s.msz / 4096)).filterMap (fun k =>
            let page := s.va + 4096 * k
            (scanPage (fun a => objNum rd o (page + a) 8) 4096).map (fun f => ((fileAt o (page + f.off)).getD 0, scanRecord page o.idx f)))))
        match bad.foldl (fun b x => match b with | none => some x | some y => if x.1 < y.1 then some x else some y) (none : Option (Nat × List Byte)) with
        | some x => .error { status := 6, info := x.1, scan := x.2 }
        | none => .ok os

/-! ### Mapping (R82, R260, R444, R448, R457) -/

/-- Write a page's bytes into its frame. -/
def fillFrame (m : Mach) (treat f : Nat) (bs : List Byte) : Mach :=
  let m := (List.range 32).foldl (fun m i => if (slice bs (128 * i) 128).any (· != 0) then touchLine m treat 0 (f / 128 + i) else m) m
  commitRun m f bs

/-- Map one page of a segment of a job; none when no frame is left. -/
def mapPage (rd : Rd) (o : LObj) (s : LSeg) (job va : Nat) (m : Mach) : Option Mach :=
  match allocFrame m 0 with
  | none => none
  | some (f, m) =>
    let treat := jobTreat m job
    let bs := (List.range 4096).map (fun i => BitVec.ofNat 8 (objByte rd o (va + i)))
    let leaf := mkLeaf 0 treat true (sgW s) (sgX s) false (sgChk s) f + (if sgView s then 2 ^ 122 else 0)
    mapFrom (fillFrame (setHome m f 1 0) treat f bs) 0 va leaf 5 (ptrootOf m job)

/-- Is a page of a segment sparse: beyond its bytes in the file, and plainly writable (DESIGN CHOICE, assumption log 6)? -/
def sparse (s : LSeg) (va : Nat) : Bool := sgW s && !sgChk s && !sgMaster s && decide (s.va + s.fsz ≤ va)

/-- The demand-paged regions of a job with one page more. -/
def addRegion (va : Nat) : List Region → List Region
  | [] => [{ base := va, len := 4096 }]
  | r :: t => if r.base + r.len = va then { r with len := r.len + 4096 } :: t else r :: addRegion va t

/-- Is a page of a segment written by a relocation (R84)? -/
def patched (o : LObj) (va : Nat) : Bool := o.patch.any (fun e => decide (va ≤ e.1 ∧ e.1 < va + 4096))

/-- Map the pages of a segment, n of them from an address; sparse pages that no relocation writes are mapped on demand. -/
def mapSeg (rd : Rd) (o : LObj) (s : LSeg) (job : Nat) : Nat → Nat → Mach → Option Mach
  | 0, _, m => some m
  | n + 1, va, m =>
    if sparse s va && !o.patch.any (fun e => decide (va ≤ e.1 ∧ e.1 < va + 4096 * (n + 1))) then
      some (m.modJob job (fun j => { j with regions := j.regions ++ [{ base := va, len := 4096 * (n + 1) }] }))
    else if sparse s va && !patched o va then mapSeg rd o s job n (va + 4096) (m.modJob job (fun j => { j with regions := addRegion va j.regions }))
    else
      match mapPage rd o s job va m with
      | some m => mapSeg rd o s job n (va + 4096) m
      | none => none

/-- Map every segment of some objects. -/
def mapObjs (rd : Rd) (job : Nat) : List (LObj × LSeg) → Mach → Option Mach
  | [], m => some m
  | (o, s) :: t, m =>
    let n := if s.msz = 0 then 0 else (s.va + s.msz - 1) / 4096 + 1 - s.va / 4096
    match mapSeg rd o s job n (s.va / 4096 * 4096) m with
    | some m => mapObjs rd job t m
    | none => none

/-- The shadow region of a job that brings its first checked segment: 2^55 bytes that no mapping of the job uses (R444). [DESIGN CHOICE, assumption log 6] -/
def shvPick (j : Job) : Option Nat :=
  let used := j.segs.map (fun s => (s.base, s.len)) ++ j.regions.map (fun r => (r.base, r.len)) ++ j.maps.map (fun p => (p.1, p.2.1))
  [1, 2, 0].find? (fun k => !used.any (fun s => decide (s.1 < (k + 1) * 2 ^ 55 ∧ k * 2 ^ 55 < s.1 + s.2)))

/-- Objects that have passed join a job: their pages, segments and declarations; none when memory is exhausted. -/
def joinObjs (rd : Rd) (job : Nat) (os : List LObj) (m : Mach) : Option Mach :=
  let ls := os.flatMap (fun o => o.segs.map (fun s => (o, s)))
  let segs : List Seg := (ls.filter (fun e => e.2.msz != 0)).map (fun e => { base := e.2.va, len := e.2.msz, x := sgX e.2, w := sgW e.2, obj := e.1.idx })
  let decls := os.flatMap (fun o => (declAddrs rd o).map (fun va => parseDecl va (declBytes rd o va)))
  match mapObjs rd job ls m with
  | none => none
  | some m =>
    let m := m.modJob job (fun j => { j with segs := j.segs ++ segs, decls := j.decls ++ decls })
    match m.job job with
    | none => some m
    | some j =>
      if ls.any (fun e => sgChk e.2) && !j.chkDone then (shvPick j).map (fun k => m.setJob job { j with shvbase := w64 (k * 2 ^ 55), chkDone := true })
      else some m

end Sys2Proof.Machine
end

