-- ==== Sys2Proof/Machine/SystemOps.lean ====
section
/-! DEFINITION. System instructions, opcodes 0xF0 to 0xFC (R424 to R440). -/

namespace Sys2Proof.Machine

/-- An instruction that only a control core may issue (R424). -/
def supOnly (x : Ctx) (m : Mach) : R Unit := if isControl m.cur.core then .ok () else .error (permOp x)

/-- The values of the operands A and B, of 64 bits (R424). -/
def sysA (x : Ctx) : Word := opA x 6 x.low
def sysB (x : Ctx) : Word := opB x 6 x.low

/-- Write the `s` register D. -/
def putS (x : Ctx) (v : Word) (t : Tag) (m : Mach) : Mach := { m with cur := sSet m.cur (runBase x.f.d) v t }

/-! ### `trap`, `brk`, `eret` (R425 to R427) -/

def trapBody (x : Ctx) (_ : Mach) : R Mach := .error (trapOf 0x50 none (sysA x) (sysB x) (opC x 6 x.low) 0)

def brkBody (x : Ctx) (_ : Mach) : R Mach := .error (trapOf 0x51 none (w64 (numOf x.f)) 0 0 0)

/-- Apply an action to a trapped task (R257). -/
def applyAction (m : Mach) (r : RecRef) (action : Nat) : Mach := if action = 2 then endTrapped m r.tid else resumeTrapped m r (action == 1)

/-- `eret` (R257, R427, R440). [DEDUCED, assumption log 30] -/
def eretBody (mode : Nat) (x : Ctx) (m : Mach) : R Mach := do
  if !isControl m.cur.core && !pedH m.cur.ped then .error (permOp x)
  else
    let a := (sysA x).toNat
    match findRecord m m.cur a with
    | none =>
      let m ← if (logAt m a).isSome then .ok m else (uniformLoad m x a 128 8).map (·.1)
      .ok (putI64 x (refused 1) m)
    | some r =>
      let m ← commit m
      let action := eretAction mode r.bytes
      .ok (applyAction (putI64 x (w64 action) (markAnswered m m.cur a)) r action)

/-! ### System registers (R428 to R431) -/

/-- The job that the core's `JOBSEL` names. -/
def jobSel (m : Mach) : Nat := (m.core m.cur.core).jobsel.toNat % 65536

/-- The value of a readable register. [DEDUCED, assumption log 30] -/
def sysRead (b : Boot) (m : Mach) (r : Nat) : Word :=
  let k := m.core m.cur.core
  let j := jobSel m
  match r with
  | 0x00 => w64 (Config.partNumber.toNat * 2 ^ 32 + Config.stepping.toNat * 2 ^ 16 + bootStat b / 2 ^ 16)
  | 0x10 => k.jobsel
  | 0x11 => if j = 0 then m.ptroot0 else match m.job j with | some q => q.ptroot | none => smGet 0 m.ptroots j
  | 0x12 => if j = 0 then m.shvbase0 else match m.job j with | some q => q.shvbase | none => smGet 0 m.shvbases j
  | 0x2A => k.keystat
  | 0x30 => m.rsidx
  | 0x40 => let d := dieOf m.cur.core; w64 ((m.die d).lee.budget + 2 ^ 16 * (leeUsed m d % 1024))
  | r => if 0x31 ≤ r ∧ r ≤ 0x34 then smGet 0 k.rsdata (r - 0x31) else if 0x60 ≤ r ∧ r ≤ 0x67 then smGet 0 m.hostwin (r - 0x60) else 0

def sysrBody (b : Boot) (x : Ctx) (m : Mach) : R Mach := do
  supOnly x m
  .ok (putS x (sysRead b m (numOf x.f)) tRAW m)

/-- A `sysw` is performed after the crew's earlier accesses, as a system-scope release orders it (R428). [DEDUCED, assumption log 30] -/
def sysOrder (x : Ctx) (m : Mach) : R Mach := do
  supOnly x m
  commit m

/-- Reserved bits of `PTROOT` and `SHVBASE` (R429). -/
def rootBad (v : Nat) : Bool := v / 2 ^ 52 != 0 || v % 2 ^ 9 != 0
def shvBad (v : Nat) : Bool := v / 2 ^ 57 != 0 || v % 2 ^ 55 != 0

/-- The effect of a write to a register that has no constructor of its own. [DEDUCED, assumption log 30] -/
def sysWrite (m : Mach) (r : Nat) (v : Word) : Mach :=
  let j := jobSel m
  let own (f : Core → Core) : Mach := m.modCore m.cur.core f
  match r with
  | 0x10 => own (fun k => { k with jobsel := w64 (v.toNat % 65536) })
  | 0x11 =>
    if rootBad v.toNat then m else if j = 0 then { m with ptroot0 := v }
    else match m.job j with | some q => m.setJob j { q with ptroot := v } | none => { m with ptroots := smSet 0 m.ptroots j v }
  | 0x12 =>
    if shvBad v.toNat then m else if j = 0 then { m with shvbase0 := v }
    else match m.job j with | some q => m.setJob j { q with shvbase := v } | none => { m with shvbases := smSet 0 m.shvbases j v }
  | r =>
    if 0x20 ≤ r ∧ r ≤ 0x27 then own (fun k => { k with keydata := smSet 0 k.keydata (r - 0x20) v })
    else if 0x31 ≤ r ∧ r ≤ 0x34 then own (fun k => { k with rsdata := smSet 0 k.rsdata (r - 0x31) v })
    else if 0x60 ≤ r ∧ r ≤ 0x67 then { m with hostwin := smSet 0 m.hostwin (r - 0x60) v }
    else m

def syswBody (x : Ctx) (m : Mach) : R Mach := do
  let m ← sysOrder x m
  .ok (sysWrite m (numOf x.f) (sysB x))

/-- Four staged words as a key (R428). -/
def keyOf (k : Core) (first : Nat) : BitVec 256 :=
  BitVec.ofNat 256 ((List.range 4).foldl (fun t i => t + (smGet 0 k.keydata (first + i)).toNat * 2 ^ (64 * i)) 0)

def keyldBody (x : Ctx) (m : Mach) : R Mach := do
  let m ← sysOrder x m
  let slot := (sysB x).toNat % 256
  let k := m.core m.cur.core
  let free := (smFind m.keys slot).isNone
  let m : Mach := if free then { m with keys := smPut m.keys slot (keyOf k 0, keyOf k 4) } else m
  .ok (m.modCore m.cur.core (fun k => { k with keydata := [], keystat := w64 ((if free then 1 else 2) * 256 + slot) }))

/-- A crew loses its lines of a key slot: a trap that it takes at the first boundary it reaches (R56, R250). [DEDUCED, assumption log 30] -/
def keyLost (slot : Nat) (c : Crew) : Crew :=
  match c.seg.filter (fun q => q.treat == slot) with
  | [] => c
  | l :: t =>
    let low := t.foldl (fun b q => if q.va < b.va then q else b) l
    let e : Exc := { code := 0x23, lane := none, info0 := w64 (128 * low.va), info1 := w64 slot, info2 := 0x1FF, info3 := 0, commit := false, pc := low.pc, late := true }
    { c with seg := c.seg.filter (fun q => q.treat != slot), keyDrop := c.keyDrop + (l :: t).length, late := some (c.late.getD e) }

/-- Clearing a key slot (R55, R56, R430): its lines leave the L2 without write-back, so that one that had been written since it was cleaned is lost; what
DRAM holds under the slot's keys stays there. A monitor on a line that leaves fires (R359). [DEDUCED, assumption log 30] -/
def keyClear (m : Mach) (slot : Nat) : Mach :=
  let lines := (m.lineKey.filter (fun e => e.2 == slot)).map (·.1)
  let gone := lines.filter m.dirtyL2.contains
  let m := lines.foldl fireMonitors (m.mapCrews (keyLost slot))
  { m with keys := smErase m.keys slot, lineKey := m.lineKey.filter (fun e => e.2 != slot), dirtyL2 := m.dirtyL2.filter (fun l => !gone.contains l),
           dramKey := gone.foldl (fun l n => smPut l n .lost) m.dramKey }

def keyclrBody (x : Ctx) (m : Mach) : R Mach := do
  let m ← sysOrder x m
  let slot := (sysB x).toNat % 256
  .ok ((keyClear m slot).modCore m.cur.core (fun k => { k with keystat := w64 (0x300 + slot) }))

/-- A retention-schedule entry that is refused (R195). -/
def rsBad (b : List Byte) : Bool := fld b 0 8 % 128 != 0 || fld b 8 8 % 128 != 0 || bits (fld b 22 1) 6 3 != 0 || !zeros b 23 9

def rsidxBody (x : Ctx) (m : Mach) : R Mach := do
  let m ← sysOrder x m
  let i := (sysB x).toNat % 64
  let b := (List.range 4).flatMap (fun n => toBytes 8 (smGet 0 (m.core m.cur.core).rsdata n).toNat)
  if rsBad b then .ok { m with rsidx := w64 (2 ^ 63 + m.rsidx.toNat % 64) }
  else .ok { m with rsidx := w64 i, rsched := smPut m.rsched i b }

def wakeBody (x : Ctx) (m : Mach) : R Mach := do
  let m ← sysOrder x m
  let v := (sysB x).toNat
  .ok ((List.range 16).foldl (fun m k => if bit v k then wakeCore m (320 + k) else m) m)

/-! ### `icinv` and `tlbinv` (R176, R432, R433) -/

/-- No instruction cache is modelled (DESIGN CHOICE, assumption log 7): what goes is the record of the `RECONV` targets in the range that have been
read. -/
def icinvBody (x : Ctx) (m : Mach) : R Mach := do
  supOnly x m
  .ok (reconvDrop m m.cur.job (sysA x).toNat ((sysA x).toNat + (sysB x).toNat))

/-- `tlbinv` (R176, R433). [DEDUCED, assumption log 30] -/
def tlbinvBody (x : Ctx) (m : Mach) : R Mach := do
  supOnly x m
  let job := (sysA x).toNat
  let all := opdIsNone x.f.c
  let len := (opC x 6 x.low).toNat
  let b := (sysB x).toNat
  if 65535 < job ∨ (!all ∧ 2 ^ 57 < len) then .ok m
  else if holdsTranslation m job then .error (.stall .engine (queueAt []))
  else
    let lo := if all then 0 else b / 4096 * 4096
    let hi := if all then 2 ^ 64 else (b + len + 4095) / 4096 * 4096
    .ok (if !all && len == 0 then m else tlbDrop m job lo hi)

/-! ### Launches and counters (R434 to R436) -/

/-- The refusal of a launch record, or none (R434). -/
def launchRefused (m : Mach) (job : Nat) (b : List Byte) : Option Nat :=
  let nroot := fld b 16 2
  if fld b 0 1 ≠ 1 ∨ fld b 1 1 ≠ 0 ∨ !zeros b 2 6 ∨ fld b 8 8 % 64 ≠ 0 ∨ nroot = 0 ∨ 256 < nroot ∨ fld b 32 8 ≠ 0 ∨ !zeros b 40 88 then some 1
  else
    let ds : List Decl := match m.job job with | some j => j.decls | none => []
    match ds.find? (fun d => d.addr == fld b 8 8) with
    | none => some 2
    | some d => if d.hdlr then some 2 else if 16384 < fld b 20 4 then some 3 else none

/-- The node of a job's current graph that a record names, still to be started. [DEDUCED, assumption log 31] -/
def launchNode (j : Job) (b : List Byte) : Option Nat :=
  (List.range (graphNodes j).length).find? (fun n =>
    match nodeAt j n, nodeState j n with
    | some q, .waiting => !q.cond && q.addr == fld b 8 8 && q.nroot == fld b 16 2 && q.affbase == fld b 18 2 && q.tile == fld b 20 4 && q.seed == w64 (fld b 24 8)
    | _, _ => false)

/-- The record that a `launch` reads: in the crew's address space, or from a control core in the job's that B names. -/
def launchRecord (m : Mach) (x : Ctx) : R (Mach × List Byte) :=
  let va := (sysA x).toNat
  if opdIsNone x.f.b then uniformLoad m x va 128 8
  else loadRecord m x { core := m.cur.core, job := (sysB x).toNat % 65536, sup := true } va 128 8

/-- `launch` (R434). [DEDUCED, assumption log 31] -/
def launchBody (x : Ctx) (m : Mach) : R Mach := do
  let byNode := !opdIsNone x.f.b
  if byNode && !isControl m.cur.core then .error (permOp x)
  else
    let (m, b) ← launchRecord m x
    let job := if byNode then (sysB x).toNat % 65536 else m.cur.job
    match launchRefused m job b, m.job job with
    | some st, _ => .ok (putS x (refused st) tRAW m)
    | none, none => .ok (putS x (refused 2) tRAW m)
    | none, some j =>
      let m ← commit m
      let c := m.cur
      let lsn := match m.launch c.launch with | some l => l.lsn | none => 0
      let node := if byNode then launchNode j b else none
      let q : LaunchReq :=
        { addr := fld b 8 8, nroot := fld b 16 2, affbase := fld b 18 2, tile := fld b 20 4, seed := w64 (fld b 24 8), node := node,
          issuer := if byNode then none else some c.launch, byTid := c.tid, iped := if byNode then 0 else c.ped, plsn := if byNode then 0 else lsn,
          irrk := if byNode then 0 else c.rrk, ilseq := if byNode then 0 else c.lseq }
      let m := if byNode then m else
        let m := m.modLaunch c.launch (fun l => { l with counter := l.counter + 1 })
        { m with cur := { c with lseq := c.lseq + 1, sid := 0 } }
      let (h, m) := makeLaunch m j q
      let m := match node with
        | some n => m.modJob job (fun j => { setNode j n .running with nodeH := smPut j.nodeH n (launchHnd m h) })
        | none => m
      .ok (putS x (w64 (launchHnd m h)) tRAW m)

/-- An object of a job by its handle. -/
inductive ObjRef where
  | launch (h : Nat)
  | job (j : Nat)
  | phase (j : Nat)
  | graph (j : Nat)
  | finished (j : Nat)
  deriving DecidableEq, Repr

/-- The object that a handle names, and its job (R75). -/
def objectOf (m : Mach) (h : Nat) : Option (Nat × ObjRef) :=
  match m.launches.find? (fun e => e.2.hnd == h) with
  | some e => some (e.2.job, .launch e.1)
  | none =>
    m.jobs.findSome? (fun e =>
      let j := e.2
      if j.handle = h then some (j.id, .job j.id) else if j.phaseH = h then some (j.id, .phase j.id) else if j.graphH = h then some (j.id, .graph j.id)
      else if j.oldH.contains h then some (j.id, .finished j.id) else none)

/-- An object's completion counter: a launch's reads 0 when the launch has completed, its `AUTO` results written (R73, R75). -/
def counterOf (m : Mach) (o : ObjRef) : Nat :=
  match o with
  | .launch h => match m.launch h with | some l => if l.done then 0 else max l.counter 1 | none => 0
  | .job j => match m.job j with | some q => q.counter | none => 0
  | .phase j => match m.job j with | some q => q.phaseCtr | none => 0
  | .graph j => match m.job j with | some q => q.graphCtr | none => 0
  | .finished _ => 0

/-- Has an object completed, or been cancelled (R78)? -/
def objectOver (m : Mach) (o : ObjRef) : Bool :=
  match o with
  | .launch h => match m.launch h with | some l => l.done || l.cancelled | none => true
  | .job j => match m.job j with | some q => q.ended || q.cancelled || q.counter == 0 | none => true
  | .phase j => match m.job j with | some q => q.phaseCtr == 0 || q.phaseCancelled | none => true
  | .graph j => match m.job j with | some q => q.graphCtr == 0 || q.graphCancelled | none => true
  | .finished _ => true

/-- Cancel an object and everything in it (R76, R77). -/
def cancelObject (m : Mach) (o : ObjRef) : Mach :=
  match o with
  | .launch h => cancelLaunch m h
  | .job j => cancelJob m j
  | .phase j => cancelPhase m j
  | .graph j => cancelGraph m j
  | .finished _ => m

/-- `hcount` (R435). [DEDUCED, assumption log 31] -/
def hcountBody (x : Ctx) (m : Mach) : R Mach :=
  let o := (objectOf m (sysA x).toNat).filter (fun e => isControl m.cur.core || e.1 == m.cur.job)
  let v := match o with | some e => counterOf m e.2 | none => 0
  let c := sSet m.cur (runBase x.f.d) (w64 v) tI64
  .ok { m with cur := match x.f.c with | .p r => x.lanes.foldl (fun c L => pSetBit c r.val L o.isSome) c | _ => c }

/-- `cancel` (R436). [DEDUCED, assumption log 31] -/
def cancelBody (x : Ctx) (m : Mach) : R Mach :=
  match (objectOf m (sysA x).toNat).filter (fun e => e.1 == m.cur.job) with
  | none => .ok (putI64 x (refused 2) m)
  | some e => if objectOver m e.2 then .ok (putI64 x (refused 1) m) else .ok (cancelObject (putI64 x 0 m) e.2)

/-! ### `leave`, `halt`, `mon` (R437 to R439) -/

/-- `leave.hold` (R437). [DEDUCED, assumption log 27] -/
def leaveHoldBody (x : Ctx) (m : Mach) : R Mach :=
  let units := (sysA x).toNat
  if (m.die (dieOf m.cur.core)).lee.budget < units then .ok (putI64 x (refused 1) (leeWithdraw m m.cur))
  else
    match leeAsk m m.cur units with
    | .error h => .error h
    | .ok m =>
      let n := m.cur.leeHeld + units
      .ok (putI64 x (w64 n) { m with cur := { m.cur with leeHeld := n } })

/-- `leave.free` (R437). [DEDUCED, assumption log 27] -/
def leaveFreeBody (x : Ctx) (m : Mach) : R Mach :=
  let n := m.cur.leeHeld - (sysA x).toNat
  .ok (putI64 x (w64 n) { m with cur := { m.cur with leeHeld := n } })

def haltBody (x : Ctx) (m : Mach) : R Mach := do
  supOnly x m
  if (m.core m.cur.core).pendWake then .ok (m.modCore m.cur.core (fun k => { k with pendWake := false }))
  else .ok { m with cur := { m.cur with status := .halted } }

/-- Ten registers from D. -/
def putTen (x : Ctx) (ws : List Word) (m : Mach) : Mach :=
  { m with cur := ((List.range 10).zip ws).foldl (fun c e => sSet c (runBase x.f.d + e.1) e.2 tRAW) m.cur }

/-- `mon` (R439). [DEDUCED, assumption log 31] -/
def monBody (mode : Nat) (x : Ctx) (m : Mach) : R Mach := do
  if mode ≠ 0 then supOnly x m else .ok ()
  let sel := (sysA x).toNat
  let key := bits sel 23 0
  let qty := bits sel 31 24
  if !Config.monPresent (bits sel 7 0) (bits sel 23 8) qty then .ok (if mode = 2 then m else putTen x (List.replicate 10 0) m)
  else if mode = 2 then .ok (capturePut m { key := key, qty := qty, bytes := captureReset })
  else
    let r := captureRead m key
    let m : Mach := putTen x ((List.range 10).map (fun i => w64 (fld r (8 * i) 8))) { m with freeCtr := m.freeCtr + 18 }
    .ok (captureKeep m key (if mode = 1 then captureReset else r))

/-! ### The meanings -/

/-- `trap`. -/
def execTrap (f : Fields) (s : State) : Host.Outcome State Fault Refusal := runInstr 0xF0 trapBody f s
/-- `eret.retry`. -/
def execEretRetry (f : Fields) (s : State) : Host.Outcome State Fault Refusal := runInstr 0xF1 (eretBody 0) f s
/-- `eret.next`. -/
def execEretNext (f : Fields) (s : State) : Host.Outcome State Fault Refusal := runInstr 0xF1 (eretBody 1) f s
/-- `eret.end`. -/
def execEretEnd (f : Fields) (s : State) : Host.Outcome State Fault Refusal := runInstr 0xF1 (eretBody 2) f s
/-- `sysr`. -/
def execSysr (f : Fields) (s : State) : Host.Outcome State Fault Refusal := runInstr 0xF2 (sysrBody s.boot) f s
/-- `sysw` to a register that has no constructor of its own. -/
def execSysw (f : Fields) (s : State) : Host.Outcome State Fault Refusal := runInstr 0xF3 syswBody f s
/-- `sysw` to `KEYLD`. -/
def execKeyld (f : Fields) (s : State) : Host.Outcome State Fault Refusal := runInstr 0xF3 keyldBody f s
/-- `sysw` to `KEYCLR`. -/
def execKeyclr (f : Fields) (s : State) : Host.Outcome State Fault Refusal := runInstr 0xF3 keyclrBody f s
/-- `sysw` to `RSIDX`. -/
def execRsidx (f : Fields) (s : State) : Host.Outcome State Fault Refusal := runInstr 0xF3 rsidxBody f s
/-- `sysw` to `WAKE`. -/
def execWake (f : Fields) (s : State) : Host.Outcome State Fault Refusal := runInstr 0xF3 wakeBody f s
/-- `icinv`. -/
def execIcinv (f : Fields) (s : State) : Host.Outcome State Fault Refusal := runInstr 0xF4 icinvBody f s
/-- `tlbinv`. -/
def execTlbinv (f : Fields) (s : State) : Host.Outcome State Fault Refusal := runInstr 0xF5 tlbinvBody f s
/-- `launch`. -/
def execLaunch (f : Fields) (s : State) : Host.Outcome State Fault Refusal := runInstr 0xF6 launchBody f s
/-- `cancel`. -/
def execCancel (f : Fields) (s : State) : Host.Outcome State Fault Refusal := runInstr 0xF7 cancelBody f s
/-- `leave.hold`. -/
def execLeaveHold (f : Fields) (s : State) : Host.Outcome State Fault Refusal := runInstr 0xF8 leaveHoldBody f s
/-- `leave.free`. -/
def execLeaveFree (f : Fields) (s : State) : Host.Outcome State Fault Refusal := runInstr 0xF8 leaveFreeBody f s
/-- `hcount`. -/
def execHcount (f : Fields) (s : State) : Host.Outcome State Fault Refusal := runInstr 0xF9 hcountBody f s
/-- `halt`. -/
def execHalt (f : Fields) (s : State) : Host.Outcome State Fault Refusal := runInstr 0xFA haltBody f s
/-- `brk`. -/
def execBrk (f : Fields) (s : State) : Host.Outcome State Fault Refusal := runInstr 0xFB brkBody f s
/-- `mon.read`. -/
def execMonRead (f : Fields) (s : State) : Host.Outcome State Fault Refusal := runInstr 0xFC (monBody 0) f s
/-- `mon.rdclr`. -/
def execMonRdclr (f : Fields) (s : State) : Host.Outcome State Fault Refusal := runInstr 0xFC (monBody 1) f s
/-- `mon.sel`. -/
def execMonSel (f : Fields) (s : State) : Host.Outcome State Fault Refusal := runInstr 0xFC (monBody 2) f s

end Sys2Proof.Machine
end

