-- ==== Sys2Proof/Machine/Requests.lean ====
section
/-! DEFINITION. The four requests that Lennas answers: SUBMIT, CANCEL, QUERY and LOAD (R57 to R68, R76 to R78, R84, R286). -/

namespace Sys2Proof.Machine

/-! ### Fields and responses (R61, R62) -/

def rqOp (q : List Byte) : Nat := fld q 0 2
def rqTag (q : List Byte) : Nat := fld q 2 2
def rqJob (q : List Byte) : Nat := fld q 4 2
def rqCls (q : List Byte) : Nat := fld q 6 1
def rqCkpt (q : List Byte) : Nat := fld q 7 1
def rqYdl (q : List Byte) : Nat := fld q 8 4
def rqDomain (q : List Byte) : Nat := fld q 12 2
def rqNkey (q : List Byte) : Nat := fld q 14 2
def rqKeys (q : List Byte) : List Nat := (List.range (min (rqNkey q) 16)).map (fun i => fld q (16 + i) 1)
def rqImage (q : List Byte) : Nat := fld q 32 8
def rqLen (q : List Byte) : Nat := fld q 40 8
def rqObj (q : List Byte) : Nat := fld q 48 8
def rqPt (q : List Byte) : Nat := fld q 56 8

/-- A response. -/
def response (q : List Byte) (status job count info : Nat) (scan : List Byte) : List Byte :=
  toBytes 2 status ++ toBytes 2 (rqTag q) ++ toBytes 2 job ++ [0, 0] ++ toBytes 8 count ++ toBytes 8 info ++
  (if scan.isEmpty then List.replicate 32 0 else scan) ++ List.replicate 72 0

/-- Fields that every `OP` but SUBMIT and LOAD leaves zero, and those that only SUBMIT uses. -/
def submitOnlyBad (q : List Byte) : Bool := !zeros q 6 26 || rqPt q != 0 || !zeros q 64 192
def imageFieldsBad (q : List Byte) : Bool := rqImage q % 8 != 0 || decide (2 ^ 32 < rqLen q)

/-- A field of a SUBMIT is reserved, out of range or non-zero where zero is required. -/
def submitBad (q : List Byte) : Bool :=
  rqJob q != 0 || decide (3 < rqCls q) || decide (2 < rqCkpt q) || decide (1000 < rqYdl q) || decide (16 < rqNkey q) ||
  !zeros q (16 + min (rqNkey q) 16) (16 - min (rqNkey q) 16) || imageFieldsBad q || rqObj q != 0 || decide (1 < rqPt q) || !zeros q 64 192

/-- Who may submit what (R65): the VFT domain of a peer, or none for the mailbox. -/
def keysDenied (m : Mach) (dom : Option Nat) (ks : List Nat) : Bool :=
  ks.any (fun k => (smFind m.keys k).isNone || !Config.cfgKeyGranted dom k || decide (1 < (ks.filter (· == k)).length))

/-- Reads of the bytes at a physical address. -/
def imgRd (m : Mach) (base : Nat) : Rd := fun o n => memNum m.mem (base + o) n

/-- A live job of a submitter. [DEDUCED, assumption log 31] -/
def liveJob (m : Mach) (j : Nat) (sub : Option (Nat × Nat)) : Option Job :=
  match m.job j with
  | some x => if x.ended ∨ x.submitter ≠ sub then none else some x
  | none => none

/-- Lines of an image that the host may hold are asked for first, and the request waits (R36). [DESIGN CHOICE, assumption log 6] -/
def imageHeld (m : Mach) (base len : Nat) : Option Mach :=
  let ls := m.held.filter (fun l => decide (base / 128 ≤ l ∧ l ≤ (base + len) / 128))
  if ls.isEmpty then none else some (snoopSide ls m)

/-! ### SUBMIT (R65, R68) -/

/-- The next free job number from one on, rising and wrapping to 1 (R68). [DESIGN CHOICE, assumption log 6] -/
def freeJob (m : Mach) : Nat → Nat → Option Nat
  | 0, _ => none
  | n + 1, j => if (m.job j).any (fun x => !x.ended) then freeJob m n (if j = 0xFFFF then 1 else j + 1) else some j

/-- A job as it is created, before its pages. -/
def jobOf (q : List Byte) (id h : Nat) (root : Nat) (sub : Option (Nat × Nat)) (ps : List Phase) : Job :=
  { id := id, cls := rqCls q, keys := rqKeys q, ydl := if rqYdl q = 0 then 20 else rqYdl q, ckpt := rqCkpt q,
    domain := if rqDomain q = 0xFFFF then none else some (rqDomain q), ptallow := rqPt q == 1, submitter := sub, handle := h, ptroot := w64 root,
    shvbase := 0, phases := ps, phase := 0, runs := 0, phaseNo := 0,
    counter := if ps.any (fun p => p.repeats == 0) then 2 ^ 64 - 1 else ps.foldl (fun t p => t + p.repeats) 0,
    phaseH := 0, phaseCtr := 0, graphH := 0, graphCtr := 0, graphCancelled := false, phaseCancelled := false, states := [], nodeH := [], nextLsn := 1,
    decls := [], segs := [], regions := [], ended := false, cancelled := false, oldH := [], recovery := 0, spare := 0, image := [], yieldForced := 0,
    maps := [], chkDone := false }

/-- The job with its pages, or none when memory or tables are exhausted. -/
def createJob (m : Mach) (q : List Byte) (sub : Option (Nat × Nat)) (rd : Rd) (os : List LObj) : Option (Nat × Mach) :=
  match freeJob m 0xFFFF m.nextJob, allocFrame m 0 with
  | some id, some (root, m) =>
    let h := jobHandle id
    let m : Mach := { m with nextJob := if id = 0xFFFF then 1 else id + 1, launches := m.launches.filter (fun e => e.2.job != id) }
    let m := m.setJob id (jobOf q id h root sub (parsePhases rd))
    match joinObjs rd id os m with
    | none => none
    | some m => (mapReadOnly id 0 ctlPage 16 m).map (fun m => (id, m))
  | _, _ => none

/-- The outcome of a SUBMIT: the response and the machine after it. [DEDUCED, assumption log 33] The response to one that fails carries JOBID 0,
whatever the request's field holds, since R62 gives the field as the new job; an IMAGE range that reaches absent memory is IMAGEBAD with INFO 0, since
no rule names a status for it. [DESIGN CHOICE, assumption log 33] -/
def submitRun (m : Mach) (q : List Byte) (sub : Option (Nat × Nat)) : List Byte × Mach :=
  let dom := sub.map (·.1)
  let no (st info : Nat) (scan : List Byte) : List Byte × Mach := (response q st 0 0 info scan, m)
  let rd := imgRd m (rqImage q)
  if rqOp q ≠ 1 then (response q 1 (rqJob q) 0 0 [], m)
  else if submitBad q then no 2 0 []
  else if Config.cfgMaxClass dom < rqCls q then no 3 0 []
  else if keysDenied m dom (rqKeys q) then no 4 0 []
  else if absentRange m (rqImage q) (rqLen q) then no 5 0 []
  else
    match loadObjs m none [] rd (imageBad rd (rqLen q)) (objSpans rd (rqLen q)) with
    | .error e => no e.status e.info e.scan
    | .ok os =>
      match createJob m q sub rd os with
      | none => no 11 0 []
      | some (id, m) =>
        let m := checkpoint (startPhase m id) id
        -- collective segments that peers have sent already take part now (R447)
        (response q 0 id 0 0 [], if rqDomain q = 0xFFFF then m else collReplay m (rqDomain q))

/-! ### LOAD (R61) -/

def loadRun (m : Mach) (q : List Byte) (sub : Option (Nat × Nat)) : List Byte × Mach :=
  let no (st info : Nat) (scan : List Byte) : List Byte × Mach := (response q st (rqJob q) 0 info scan, m)
  let rd := imgRd m (rqImage q)
  if submitOnlyBad q || rqObj q != 0 || imageFieldsBad q then no 2 0 []
  else
    match liveJob m (rqJob q) sub with
    | none => no 9 0 []
    | some j =>
      if absentRange m (rqImage q) (rqLen q) then no 5 0 []
      else
        match loadObjs m (some j.id) j.segs rd [] [(0, rqLen q)] with
        | .error e => no e.status e.info e.scan
        | .ok os =>
          match joinObjs rd j.id os m with
          | none => no 11 0 []
          | some m => (response q 0 j.id 0 0 [], m)

/-! ### CANCEL and QUERY (R61, R76, R78) -/

def cancelRun (m : Mach) (q : List Byte) (sub : Option (Nat × Nat)) : List Byte × Mach :=
  let no (st : Nat) : List Byte × Mach := (response q st (rqJob q) 0 0 [], m)
  if submitOnlyBad q || rqImage q != 0 || rqLen q != 0 then no 2
  else
    match liveJob m (rqJob q) sub with
    | none => no 9
    | some j =>
      match (if rqObj q = 0 then some (.job j.id) else ((objectOf m (rqObj q)).filter (fun e => e.1 == j.id)).map (·.2)) with
      | none => no 2
      | some o => if objectOver m o then no 10 else (response q 0 j.id 0 0 [], cancelObject m o)

def queryRun (m : Mach) (q : List Byte) (sub : Option (Nat × Nat)) : List Byte × Mach :=
  let no (st : Nat) : List Byte × Mach := (response q st (rqJob q) 0 0 [], m)
  if submitOnlyBad q || rqImage q != 0 || rqLen q != 0 || rqObj q != 0 then no 2
  else
    match liveJob m (rqJob q) sub with
    | none => no 9
    | some j => (response q 0 j.id j.counter 0 [], m)

/-! ### Serving a request -/

/-- Serve a waiting request of some `OP`s; one whose image the host may hold waits for it. -/
def serve (s : State) (req : Nat) (ev : Instr) (mine : Nat → Bool) (image : Bool) (run : Mach → List Byte → Option (Nat × Nat) → List Byte × Mach) : State :=
  match requestOf s req with
  | none => s
  | some (q, sub) =>
    if !mine (rqOp q) then s
    else
      match (if image then imageHeld s.m (rqImage q) (rqLen q) else none) with
      | some m => { s with m := m.due ev }
      | none =>
        let r := run s.m q sub
        respond { s with m := r.2 } req r.1

/-- A SUBMIT is checked in the order of R65 and creates a job, or fails with a status; a reserved `OP` is refused here. -/
def execSubmit (req : Nat) (s : State) : Host.Outcome State Fault Refusal :=
  .next (serve s req (.submit req) (fun op => !(op == 2 || op == 3 || op == 4)) true submitRun)
/-- A CANCEL request (R61, R76). -/
def execCancelRequest (req : Nat) (s : State) : Host.Outcome State Fault Refusal := .next (serve s req (.cancelRequest req) (· == 2) false cancelRun)
/-- A QUERY request (R61, R62). -/
def execQuery (req : Nat) (s : State) : Host.Outcome State Fault Refusal := .next (serve s req (.query req) (· == 3) false queryRun)
/-- A LOAD request (R61). -/
def execLoad (req : Nat) (s : State) : Host.Outcome State Fault Refusal := .next (serve s req (.load req) (· == 4) true loadRun)

end Sys2Proof.Machine
end

