-- ==== Sys2Proof/Machine/SchedEvents.lean ====
section
/-! DEFINITION. The events of the schedulers, of the walkers, of traps and of the lee controllers (R29, R30, R72, R74, R80, R97, R98, R102 to R104,
R106, R110, R117, R118, R123, R125, R148, R175, R188, R256, R260, R264, R265, R438). -/

namespace Sys2Proof.Machine

/-! ### Slots (R97, R98, R265) -/

/-- A core reclaims a parked slot; the crew keeps its wait (R97). -/
def reclaimStep (m : Mach) (core : Nat) : Mach :=
  match reclaimPlan m core with
  | some t => switchOut m t
  | none => m

/-- A resumable crew takes a slot of another core of its die (R98, R264). -/
def migrateStep (m : Mach) (crew core : Nat) : Mach :=
  match migratePlan m crew core with
  | some s => s.take m
  | none => m

/-- A message for a migrated crew passes the old core: its forwarding entry lives on (R265). -/
def forwardStep (m : Mach) (core crew : Nat) : Mach :=
  m.modCore core (fun k => { k with fwd := k.fwd.map (fun f => if f.tid = crew then { f with since := m.clk } else f) })

/-- Has a forwarding entry seen no message for 4 096 cycles? -/
def fwdOver (m : Mach) (f : Fwd) : Bool := decide (f.since + 4096 ≤ m.clk)

/-- The lowest-numbered core with expired forwarding entries frees them (R265). -/
def fwdExpire (m : Mach) : Mach :=
  match m.cores.find? (fun e => e.2.fwd.any (fwdOver m)) with
  | some (c, _) => m.modCore c (fun k => { k with fwd := k.fwd.filter (fun f => !fwdOver m f) })
  | none => m

/-! ### Stealing (R102 to R104) -/

/-- A core asks the next victim of its sequence. -/
def stealAsk (m : Mach) (core : Nat) : Mach :=
  let vs := victimSeq m core
  let k := m.core core
  if maySteal m core = false ∨ vs = [] then m
  else
    let m := m.setCore core { k with asked := k.asked ++ [vs.getD (k.victim % vs.length) core], victim := (k.victim + 1) % vs.length }
    m.due (.stealAnswer core)

/-- A record that a core has received: it starts in a free slot that holds it, or, where none holds it, stands at the newest
end of the core's own deque (R102 does not say where it waits). [DESIGN CHOICE, assumption log 22] -/
def stealKeep (m : Mach) (core : Nat) (r : TaskRec) : Mach := if recFits m core r then startTask m core r else dequeIn m core r

/-- An empty answer: after 319 of them the core waits 256 cycles. -/
def stealEmpty (clk : Nat) (k : Core) : Core :=
  if k.empties + 1 = 319 then { k with empties := 0, backoff := some (clk + 256) } else { k with empties := k.empties + 1 }

/-- The oldest request of a core is answered: the victim's oldest record, out of its overflow area, else its spill area, else its on-chip part, or empty
(R102). -/
def stealReply (m : Mach) (core : Nat) : Mach :=
  match (m.core core).asked with
  | [] => m
  | v :: rest =>
    let m := m.modCore core (fun k => { k with asked := rest })
    match (m.core v).deque with
    | r :: _ => stealKeep ((m.modCore v (fun k => dqTake k r.tid)).modCore core (fun k => { k with empties := 0 })) core r
    | [] => m.modCore core (stealEmpty m.clk)

/-- The lowest-numbered core whose wait has run out may ask again. -/
def stealWake (m : Mach) : Mach :=
  match m.cores.find? (fun e => e.2.backoff.any (fun t => decide (t ≤ m.clk))) with
  | some (c, _) => m.modCore c (fun k => { k with backoff := none })
  | none => m

/-! ### Pre-emption (R80, R125, R263) -/

/-- Deadline of a crew's job in cycles: `YDL` microseconds at 1.8 GHz (R4, R80). -/
def ydlCycles (m : Mach) (job : Nat) : Nat := match m.job job with | some j => 1800 * j.ydl | none => 0

/-- A die's best record asks for a slot; a parked or polling victim is switched out at once (R263). [DEDUCED, assumption log 22] -/
def preemptStep (m : Mach) (die : Nat) : Mach :=
  match preemptPlan m die with
  | none => m
  | some (r, c) =>
    let p : PreReq := { cycle := m.clk, deadline := m.clk + ydlCycles m c.job, byTid := r.tid, byCls := r.cls }
    let m := (m.modDie die (fun d => { d with prePtr := (d.prePtr + 1) % 40 })).setCrew { c with pre := some p }
    match c.status with
    | .parked _ _ => preemptOut m c.tid
    | .polling _ _ => preemptOut m c.tid
    | _ => m

/-- `YIELDFORCED` (R80, R253). -/
def yieldExc (clk : Nat) (p : PreReq) (pc : Word) : Exc :=
  { code := 0x40, lane := none, info0 := w64 p.cycle, info1 := w64 clk, info2 := w64 p.byCls, info3 := 0, commit := false, pc := pc, late := false }

/-- A crew that has not yielded by its deadline is stopped; a trap that it has to take at the boundary where it stands goes first (R250, R255). -/
def yieldForce (m : Mach) (tid : Nat) : Mach :=
  match m.crew tid with
  | none => m
  | some c =>
    match c.pre with
    | none => m
    | some p =>
      if m.clk ≤ p.deadline ∨ c.slots = [] then m
      else
        match (if (canIssue c).isSome then c.late else none) with
        | some e => takeTrap m tid e
        | none => takeTrap m tid (yieldExc m.clk p ((issueAddr c).getD 0))

/-! ### Traps (R250, R256, R260, R261) -/

/-- The first crew with a trap detected late that stands at a boundary takes it (R250); one that waits, is switched out or has trapped stands at none. -/
def lateStep (m : Mach) : Mach :=
  match m.crews.find? (fun c => c.late.isSome && (canIssue c).isSome) with
  | none => m
  | some c => match c.late with | some e => takeTrap m c.tid e | none => m

/-- `ECCFATAL` (R253): the physical line, the source of R261 and the virtual address. -/
def eccExc (source line va : Nat) (pc : Word) : Exc :=
  { code := 0x30, lane := none, info0 := w64 line, info1 := w64 source, info2 := w64 va, info3 := 0, commit := false, pc := pc, late := false }

/-- The instruction at an address of a crew's job, when its page translates: opcode and fields. -/
def instrAt (m : Mach) (c : Crew) (pc : Word) : Option (Nat × Fields) :=
  match walk m c.job pc.toNat with
  | .error _ => none
  | .ok (l, _) =>
    let b := memRead m.mem (paOf l pc.toNat) 16
    match decodeBytes (b.take (if bit (fld b 0 8) 63 then 16 else 8)) with
    | .ok (i, _) => i.parts
    | .error _ => none

/-- The registers that the operands of an instruction name: kinds 0 `v`, 1 `s`, 2 `p`, 3 `m`, 4 `h`. -/
def namedRegs (m : Mach) (c : Crew) (pc : Word) (op : Nat) (f : Fields) : List (Nat × Nat) :=
  let e := entryFor m c op f
  let x := mkCtx m c pc op f e
  let handle (o : Opd) : List (Nat × Nat) := match o with | .h r => [(4, r.toNat)] | _ => []
  (positions x e).flatMap (fun p => indexRegs p.2.2.1 ++ (if p.2.1.src || p.2.1.dst then handle p.2.2.1 ++ regsOf c p.2.1 x.lanes p.2.2.1 else []))

/-- The register lines of a crew's images that hold a register (R144, R145, R156). -/
def regLines (c : Crew) (r : Nat × Nat) : List Nat :=
  let both (o : Nat) : List Nat := [(c.imgBase + o) / 128 * 128] ++ (if c.pairBase = 0 then [] else [(c.pairBase + o) / 128 * 128])
  match r.1 with
  | 0 => both (128 * r.2)
  | 1 => [(c.imgBase + 0x10100 + 8 * r.2) / 128 * 128]
  | 2 => both (0x10640 + 4 * r.2)
  | 3 => [(c.imgBase + 0x10680 + 8 * r.2) / 128 * 128]
  | _ => [(c.imgBase + 0x106C0 + 8 * r.2) / 128 * 128]

/-- Does an instruction issue with no lane in E (R278)? -/
def noLanes (m : Mach) (c : Crew) (pc : Word) (op : Nat) (f : Fields) : Bool := (mkCtx m c pc op f (entryFor m c op f)).e == 0

/-- Does a virtual address stand for a physical line of a job? -/
def onLine (m : Mach) (job va line : Nat) : Bool := match walk m job va with | .ok (l, _) => paOf l va / 128 * 128 == line | .error _ => false

/-- The physical lines of the page-table entries that the walk of an address reads. -/
def walkLines (m : Mach) (va : Nat) : Nat → Nat → List Nat
  | level, tb =>
    let ea := tb + 16 * vaIndex level va
    let e := memNum m.mem ea 16
    let here := ea / 128 * 128
    match level with
    | 0 => [here]
    | l + 1 => if bit e 63 && !bit e 62 then here :: walkLines m va l (bits e 51 12 * 4096) else [here]

/-- Opcodes of instructions that read data lines by a load or an atomic: `cbload`, `ld`, `atom`, `red`, `cas`, and those that read a record or a
descriptor (`palloc`, `plog`, `vwreg`, `vwadd`, `btmpl`, `coll`, `eret`, `launch`). -/
def readsData : List Nat := [0x61, 0x80, 0x82, 0x83, 0x84, 0xB8, 0xB9, 0xC0, 0xC1, 0xE0, 0xE2, 0xF1, 0xF6]

/-- Opcodes whose instructions end the segment whatever their ordering (R202): barrier arrivals, `tfill`, spawns, joins, `exit`, and those that act as a
release (R382, R383, R393, R427, R428, R434). -/
def commitsAlways : List Nat := [0x36, 0x90, 0xA2, 0xA4, 0xA5, 0xA6, 0xB0, 0xB1, 0xB2, 0xB3, 0xB6, 0xBC, 0xF1, 0xF3, 0xF6]

/-- Is an instruction a commit point of the task (R202)? -/
def commitPoint (op : Nat) (f : Fields) : Bool := commitsAlways.contains op || (decide (0x81 ≤ op ∧ op ≤ 0x85) && decide (2 ≤ f.ord.toNat))

/-- Can an uncorrected error in a line be met by the instruction at an address, from the source that R261 numbers: a register line of an operand (0), a
data line (1), a speculative line that it reads, or that it commits (2), the instruction's word (3), a shadow record (4), a page-table entry (5)? With E
empty, only its own word and the walk of its fetch can meet one (R278). -/
def eccMeets (m : Mach) (c : Crew) (pc : Word) (source line va : Nat) : Bool :=
  let i := instrAt m c pc
  let reads := match i with | some (op, _) => readsData.contains op | none => false
  let ends := match i with | some (op, f) => commitPoint op f | none => false
  let idle := match i with | some (op, f) => noLanes m c pc op f | none => false
  let own := decide (va ≤ pc.toNat + 15 ∧ pc.toNat ≤ va)
  match source with
  | 0 => !idle && va == 0 && c.imgBase != 0 && (match i with | some (op, f) => (namedRegs m c pc op f).any (fun r => (regLines c r).contains line) | none => false)
  | 1 => !idle && reads && onLine m c.job va line
  | 2 => !idle && (reads || ends) && c.seg.any (fun l => 128 * l.pa == line && l.va == va / 128)
  | 3 => own && onLine m c.job va line
  | 4 => !idle && onLine m c.job (shadowVa m c.job va) line
  | 5 => (!idle || own) && (walkLines m va 5 (ptrootOf m c.job)).contains line
  | _ => false

/-- An uncorrected error stops the crew at the instruction that meets it (R154, R261); a program-level trap that it has to take goes first, and the system
trap is not raised (R255). [DEDUCED, assumption log 38] -/
def eccStep (m : Mach) (tid source line va : Nat) : Mach :=
  match m.crew tid with
  | none => m
  | some c =>
    match canIssue c with
    | none => m
    | some pc =>
      match c.late with
      | some e => takeTrap m tid e
      | none => if eccMeets m c pc source line va then takeTrap m tid (eccExc source line va pc) else m

/-- Does a control core's crew halt while a wake stands? -/
def haltOver (m : Mach) (c : Crew) : Bool := c.status == .halted && (m.core c.core).pendWake

/-- The halted crew of the lowest-numbered core with a wake goes on (R438). -/
def wakeStep (m : Mach) : Mach :=
  match (m.crews.filter (haltOver m)).foldl (fun b c => match b with | none => some c | some x => if c.core < x.core then some c else some x) (none : Option Crew) with
  | none => m
  | some c => (m.setCrew { c with status := .ready, stamp := m.clk }).modCore c.core (fun k => { k with pendWake := false })

/-- A walk completes for an access that passes checks 3 and 4 of R173: TLB entries, `A` and `D` (R172). -/
def walkFill (m : Mach) (core job va : Nat) (write : Bool) : Mach :=
  let passes (kind : Nat) : Bool :=
    match check1 m { core := core, job := job, sup := isControl core } kind true { lane := 0, va := va, size := 1 } with
    | .ok _ => true
    | .error (n, _) => n == 5
  if (if write then passes 2 else passes 1 || passes 4) then fillTlb m core job va write else m

/-! ### Power (R30), boost (R123) and self-test (R408) -/

/-- Every die's budget changes, and the lee monitor class counts it; grants that are held stay (R30). -/
def setBudget (m : Mach) (hot : Bool) : Mach :=
  let b := if hot then 700 else 1000
  (List.range 8).foldl (fun m d =>
    if (m.die d).lee.budget = b then m else monCount (m.modLee d (fun l => { l with budget := b })) .leeBudget d) { m with hot := hot }

/-- Boost ends 2 048 cycles after it was granted. -/
def boostOver (clk : Nat) (c : Crew) : Crew := if c.boostAt + 2048 ≤ clk then { c with boostLeft := 0 } else c

/-! ### The meanings -/

/-- The lee controller of a die grants (R29). -/
def execLeeGrant (die : Nat) (s : State) : Host.Outcome State Fault Refusal := runEvent (fun m => leeGrantOne m die) s
/-- A launch starts (R110, R191). -/
def execLaunchStart (launch : Nat) (s : State) : Host.Outcome State Fault Refusal := runEvent (fun m => launchStartStep m launch) s
/-- A condition node reads its word (R72). -/
def execConditionNodeRead (job node : Nat) (s : State) : Host.Outcome State Fault Refusal := runEvent (fun m => conditionRead m job node) s
/-- A phase boundary (R74), with the checkpoint that the job's policy asks for (R32). -/
def execPhaseBoundary (job : Nat) (s : State) : Host.Outcome State Fault Refusal := runEvent (fun m => boundaryStep m job) s
/-- A parked slot is reclaimed (R97). -/
def execParkedSlotReclaim (core : Nat) (s : State) : Host.Outcome State Fault Refusal := runEvent (fun m => reclaimStep m core) s
/-- A crew migrates (R98). -/
def execCrewMigration (crew core : Nat) (s : State) : Host.Outcome State Fault Refusal := runEvent (fun m => migrateStep m crew core) s
/-- A message is forwarded (R265). -/
def execForwardMessage (core crew : Nat) (s : State) : Host.Outcome State Fault Refusal := runEvent (fun m => forwardStep m core crew) s
/-- Forwarding entries expire (R265). -/
def execForwardingEntryExpiry (s : State) : Host.Outcome State Fault Refusal := runEvent fwdExpire s
/-- A steal request (R102). -/
def execStealRequest (core : Nat) (s : State) : Host.Outcome State Fault Refusal := runEvent (fun m => stealAsk m core) s
/-- Its answer (R102, R104). -/
def execStealAnswer (core : Nat) (s : State) : Host.Outcome State Fault Refusal := runEvent (fun m => stealReply m core) s
/-- The wait after 319 empty answers ends (R102). -/
def execStealBackoffExpiry (s : State) : Host.Outcome State Fault Refusal := runEvent stealWake s
/-- A pre-emption request (R125). -/
def execPreemptionRequest (die : Nat) (s : State) : Host.Outcome State Fault Refusal := runEvent (fun m => preemptStep m die) s
/-- A deadline missed (R80). -/
def execYieldforced (crew : Nat) (s : State) : Host.Outcome State Fault Refusal := runEvent (fun m => yieldForce m crew) s
/-- A wait ends (R117). -/
def execWaitEvent (crew : Nat) (s : State) : Host.Outcome State Fault Refusal := runEvent (fun m => waitEventStep m crew) s
/-- A polling crew tests its condition (R118). -/
def execWaitPoll (crew : Nat) (s : State) : Host.Outcome State Fault Refusal := runEvent (fun m => waitPollStep m crew) s
/-- A pending dataflow record is tested (R106). -/
def execDataflowEligibilityTest (seg task : Nat) (s : State) : Host.Outcome State Fault Refusal := runEvent (fun m => eligTest m seg task) s
/-- A walk completes: it fills the TLBs and sets `A` and `D` for an access that may proceed (R172, R175). -/
def execWalkComplete (core job : Nat) (va : Word) (write : Bool) (s : State) : Host.Outcome State Fault Refusal :=
  runEvent (fun m => walkFill m core job va.toNat write) s
/-- Lennas moves a page's home online (R188). -/
def execPageMigration (job : Nat) (page : Word) (die : Nat) (moveFrame : Bool) (s : State) : Host.Outcome State Fault Refusal :=
  runEvent (fun m => migrateOnline m job page.toNat die moveFrame) s
/-- A system trap for an uncorrected error (R260, R261). -/
def execSystemTrap (crew source line va : Nat) (s : State) : Host.Outcome State Fault Refusal := runEvent (fun m => eccStep m crew source line va) s
/-- A trap detected late is delivered (R250, R256). -/
def execTrapDelivery (s : State) : Host.Outcome State Fault Refusal := runEvent lateStep s
/-- A halted control core wakes (R438). -/
def execHaltWake (s : State) : Host.Outcome State Fault Refusal := runEvent wakeStep s
/-- The coolant is too warm (R30). -/
def execCoolantOvertemp (s : State) : Host.Outcome State Fault Refusal := runEvent (fun m => setBudget m true) s
/-- The coolant has been cool for a second (R30). -/
def execCoolantRecovery (s : State) : Host.Outcome State Fault Refusal := runEvent (fun m => setBudget m false) s
/-- Boost runs out (R123). -/
def execBoostExpiry (s : State) : Host.Outcome State Fault Refusal := runEvent (fun m => m.mapCrews (boostOver m.clk)) s
/-- A register miss changes no architectural state but the register-miss monitor class (R148). [DESIGN CHOICE, assumption log 7] -/
def execRegisterMiss (s : State) : Host.Outcome State Fault Refusal := runEvent (fun m => monCount m .registerMiss m.cur.core) s

end Sys2Proof.Machine
end

