-- ==== Sys2Proof/Machine/Dispatch.lean ====
section
/-! DEFINITION. The dispatcher: one arm per constructor of `Instr`, each a call of that row's meaning. -/

namespace Sys2Proof.Machine

/-- What a row of the opcode table does to the machine. -/
def exec (i : Instr) (s : State) : Host.Outcome State Fault Refusal :=
  match i with
  | .nop f => Sys2Proof.Machine.execNop f s
  | .mov f => Sys2Proof.Machine.execMov f s
  | .add f => Sys2Proof.Machine.execAdd f s
  | .sub f => Sys2Proof.Machine.execSub f s
  | .mul f => Sys2Proof.Machine.execMul f s
  | .mulh f => Sys2Proof.Machine.execMulh f s
  | .mad f => Sys2Proof.Machine.execMad f s
  | .div f => Sys2Proof.Machine.execDiv f s
  | .rem f => Sys2Proof.Machine.execRem f s
  | .min f => Sys2Proof.Machine.execMin f s
  | .max f => Sys2Proof.Machine.execMax f s
  | .abs f => Sys2Proof.Machine.execAbs f s
  | .neg f => Sys2Proof.Machine.execNeg f s
  | .and_ f => Sys2Proof.Machine.execAnd f s
  | .or_ f => Sys2Proof.Machine.execOr f s
  | .xor f => Sys2Proof.Machine.execXor f s
  | .not_ f => Sys2Proof.Machine.execNot f s
  | .shl f => Sys2Proof.Machine.execShl f s
  | .shr f => Sys2Proof.Machine.execShr f s
  | .sar f => Sys2Proof.Machine.execSar f s
  | .rot f => Sys2Proof.Machine.execRot f s
  | .bfx f => Sys2Proof.Machine.execBfx f s
  | .bfi f => Sys2Proof.Machine.execBfi f s
  | .popc f => Sys2Proof.Machine.execPopc f s
  | .clz f => Sys2Proof.Machine.execClz f s
  | .brev f => Sys2Proof.Machine.execBrev f s
  | .sel f => Sys2Proof.Machine.execSel f s
  | .cmp f => Sys2Proof.Machine.execCmp f s
  | .pbool f => Sys2Proof.Machine.execPbool f s
  | .addc f => Sys2Proof.Machine.execAddc f s
  | .lea f => Sys2Proof.Machine.execLea f s
  | .cvti f => Sys2Proof.Machine.execCvti f s
  | .vote f => Sys2Proof.Machine.execVote f s
  | .elect f => Sys2Proof.Machine.execElect f s
  | .bcast f => Sys2Proof.Machine.execBcast f s
  | .gscan f => Sys2Proof.Machine.execGscan f s
  | .perm f => Sys2Proof.Machine.execPerm f s
  | .shfl f => Sys2Proof.Machine.execShfl f s
  | .compact f => Sys2Proof.Machine.execCompact f s
  | .expand f => Sys2Proof.Machine.execExpand f s
  | .br f => Sys2Proof.Machine.execBr f s
  | .brx f => Sys2Proof.Machine.execBrx f s
  | .call f => Sys2Proof.Machine.execCall f s
  | .callx f => Sys2Proof.Machine.execCallx f s
  | .ret f => Sys2Proof.Machine.execRet f s
  | .loop f => Sys2Proof.Machine.execLoop f s
  | .exit f => Sys2Proof.Machine.execExit f s
  | .msync f => Sys2Proof.Machine.execMsync f s
  | .mset f => Sys2Proof.Machine.execMset f s
  | .yield f => Sys2Proof.Machine.execYield f s
  | .fadd f => Sys2Proof.Machine.execFadd f s
  | .fsub f => Sys2Proof.Machine.execFsub f s
  | .fmul f => Sys2Proof.Machine.execFmul f s
  | .ffma f => Sys2Proof.Machine.execFfma f s
  | .fmin f => Sys2Proof.Machine.execFmin f s
  | .fmax f => Sys2Proof.Machine.execFmax f s
  | .fabs f => Sys2Proof.Machine.execFabs f s
  | .fneg f => Sys2Proof.Machine.execFneg f s
  | .fcmp f => Sys2Proof.Machine.execFcmp f s
  | .frcp f => Sys2Proof.Machine.execFrcp f s
  | .frsq f => Sys2Proof.Machine.execFrsq f s
  | .fsqrt f => Sys2Proof.Machine.execFsqrt f s
  | .fdiv f => Sys2Proof.Machine.execFdiv f s
  | .fexp2 f => Sys2Proof.Machine.execFexp2 f s
  | .flog2 f => Sys2Proof.Machine.execFlog2 f s
  | .fsin f => Sys2Proof.Machine.execFsin f s
  | .fcos f => Sys2Proof.Machine.execFcos f s
  | .ftanh f => Sys2Proof.Machine.execFtanh f s
  | .frnd f => Sys2Proof.Machine.execFrnd f s
  | .ftoi f => Sys2Proof.Machine.execFtoi f s
  | .itof f => Sys2Proof.Machine.execItof f s
  | .fcvt f => Sys2Proof.Machine.execFcvt f s
  | .fpack f => Sys2Proof.Machine.execFpack f s
  | .funpk f => Sys2Proof.Machine.execFunpk f s
  | .fdot2 f => Sys2Proof.Machine.execFdot2 f s
  | .fdot4 f => Sys2Proof.Machine.execFdot4 f s
  | .fclass f => Sys2Proof.Machine.execFclass f s
  | .hist f => Sys2Proof.Machine.execHist f s
  | .qscale f => Sys2Proof.Machine.execQscale f s
  | .quant f => Sys2Proof.Machine.execQuant f s
  | .dquant f => Sys2Proof.Machine.execDquant f s
  | .cbdec f => Sys2Proof.Machine.execCbdec f s
  | .cbenc f => Sys2Proof.Machine.execCbenc f s
  | .cbload f => Sys2Proof.Machine.execCbload f s
  | .tagset f => Sys2Proof.Machine.execTagset f s
  | .tagsetFclr f => Sys2Proof.Machine.execTagsetFclr f s
  | .tagsetFset f => Sys2Proof.Machine.execTagsetFset f s
  | .tagget f => Sys2Proof.Machine.execTagget f s
  | .taggetFlags f => Sys2Proof.Machine.execTaggetFlags f s
  | .ld f => Sys2Proof.Machine.execLd f s
  | .st f => Sys2Proof.Machine.execSt f s
  | .atom f => Sys2Proof.Machine.execAtom f s
  | .red f => Sys2Proof.Machine.execRed f s
  | .cas f => Sys2Proof.Machine.execCas f s
  | .fence f => Sys2Proof.Machine.execFence f s
  | .monarm f => Sys2Proof.Machine.execMonarm f s
  | .monwait f => Sys2Proof.Machine.execMonwait f s
  | .pref f => Sys2Proof.Machine.execPref f s
  | .cclean f => Sys2Proof.Machine.execCclean f s
  | .cinval f => Sys2Proof.Machine.execCinval f s
  | .tfill f => Sys2Proof.Machine.execTfill f s
  | .tdrain f => Sys2Proof.Machine.execTdrain f s
  | .twait f => Sys2Proof.Machine.execTwait f s
  | .tstat f => Sys2Proof.Machine.execTstat f s
  | .gjoin f => Sys2Proof.Machine.execGjoin f s
  | .gleave f => Sys2Proof.Machine.execGleave f s
  | .garr f => Sys2Proof.Machine.execGarr f s
  | .gwait f => Sys2Proof.Machine.execGwait f s
  | .gbar f => Sys2Proof.Machine.execGbar f s
  | .gvote f => Sys2Proof.Machine.execGvote f s
  | .gred f => Sys2Proof.Machine.execGred f s
  | .gstat f => Sys2Proof.Machine.execGstat f s
  | .gfind f => Sys2Proof.Machine.execGfind f s
  | .spawn f => Sys2Proof.Machine.execSpawn f s
  | .spawnv f => Sys2Proof.Machine.execSpawnv f s
  | .spawnd f => Sys2Proof.Machine.execSpawnd f s
  | .join f => Sys2Proof.Machine.execJoin f s
  | .pget f => Sys2Proof.Machine.execPget f s
  | .pdig f => Sys2Proof.Machine.execPdig f s
  | .preroot f => Sys2Proof.Machine.execPreroot f s
  | .rng f => Sys2Proof.Machine.execRng f s
  | .palloc f => Sys2Proof.Machine.execPalloc f s
  | .plog f => Sys2Proof.Machine.execPlog f s
  | .rview f => Sys2Proof.Machine.execRview f s
  | .racc f => Sys2Proof.Machine.execRacc f s
  | .rfin f => Sys2Proof.Machine.execRfin f s
  | .vwreg f => Sys2Proof.Machine.execVwreg f s
  | .vwadd f => Sys2Proof.Machine.execVwadd f s
  | .vwdrop f => Sys2Proof.Machine.execVwdrop f s
  | .vwsync f => Sys2Proof.Machine.execVwsync f s
  | .vwver f => Sys2Proof.Machine.execVwver f s
  | .vwpol f => Sys2Proof.Machine.execVwpol f s
  | .vwtouch f => Sys2Proof.Machine.execVwtouch f s
  | .mldb f => Sys2Proof.Machine.execMldb f s
  | .mmas f => Sys2Proof.Machine.execMmas f s
  | .mcommit f => Sys2Proof.Machine.execMcommit f s
  | .mwait f => Sys2Proof.Machine.execMwait f s
  | .mrd f => Sys2Proof.Machine.execMrd f s
  | .mwr f => Sys2Proof.Machine.execMwr f s
  | .mzero f => Sys2Proof.Machine.execMzero f s
  | .mstat f => Sys2Proof.Machine.execMstat f s
  | .btmpl f => Sys2Proof.Machine.execBtmpl f s
  | .gath f => Sys2Proof.Machine.execGath f s
  | .collOrdered f => Sys2Proof.Machine.execCollOrdered f s
  | .collArrival f => Sys2Proof.Machine.execCollArrival f s
  | .cwait f => Sys2Proof.Machine.execCwait f s
  | .lbase f => Sys2Proof.Machine.execLbase f s
  | .bquery f => Sys2Proof.Machine.execBquery f s
  | .trap f => Sys2Proof.Machine.execTrap f s
  | .eretRetry f => Sys2Proof.Machine.execEretRetry f s
  | .eretNext f => Sys2Proof.Machine.execEretNext f s
  | .eretEnd f => Sys2Proof.Machine.execEretEnd f s
  | .sysr f => Sys2Proof.Machine.execSysr f s
  | .sysw f => Sys2Proof.Machine.execSysw f s
  | .keyld f => Sys2Proof.Machine.execKeyld f s
  | .keyclr f => Sys2Proof.Machine.execKeyclr f s
  | .rsidx f => Sys2Proof.Machine.execRsidx f s
  | .wake f => Sys2Proof.Machine.execWake f s
  | .icinv f => Sys2Proof.Machine.execIcinv f s
  | .tlbinv f => Sys2Proof.Machine.execTlbinv f s
  | .launch f => Sys2Proof.Machine.execLaunch f s
  | .cancel f => Sys2Proof.Machine.execCancel f s
  | .leaveHold f => Sys2Proof.Machine.execLeaveHold f s
  | .leaveFree f => Sys2Proof.Machine.execLeaveFree f s
  | .hcount f => Sys2Proof.Machine.execHcount f s
  | .halt f => Sys2Proof.Machine.execHalt f s
  | .brk f => Sys2Proof.Machine.execBrk f s
  | .monRead f => Sys2Proof.Machine.execMonRead f s
  | .monRdclr f => Sys2Proof.Machine.execMonRdclr f s
  | .monSel f => Sys2Proof.Machine.execMonSel f s
  | .linkTraining ok errata => Sys2Proof.Machine.execLinkTraining ok errata s
  | .measurementExtend slot digest => Sys2Proof.Machine.execMeasurementExtend slot digest s
  | .negotiateAlgorithms hash asym => Sys2Proof.Machine.execNegotiateAlgorithms hash asym s
  | .getCertificate slot off len => Sys2Proof.Machine.execGetCertificate slot off len s
  | .challenge slot nonce => Sys2Proof.Machine.execChallenge slot nonce s
  | .getMeasurements index nonce => Sys2Proof.Machine.execGetMeasurements index nonce s
  | .unmappedBarAccess off write => Sys2Proof.Machine.execUnmappedBarAccess off write s
  | .requestSlotWrite slot off data => Sys2Proof.Machine.execRequestSlotWrite slot off data s
  | .mbdoor value => Sys2Proof.Machine.execMbdoor value s
  | .mbstatRespClear bits => Sys2Proof.Machine.execMbstatRespClear bits s
  | .submit req => Sys2Proof.Machine.execSubmit req s
  | .cancelRequest req => Sys2Proof.Machine.execCancelRequest req s
  | .query req => Sys2Proof.Machine.execQuery req s
  | .load req => Sys2Proof.Machine.execLoad req s
  | .hostCxlMemRequest window off len write hold => Sys2Proof.Machine.execHostCxlMemRequest window off len write hold s
  | .bisnpResponse line data => Sys2Proof.Machine.execBisnpResponse line data s
  | .apertureCompletion crew status data => Sys2Proof.Machine.execApertureCompletion crew status data s
  | .apertureCompletionTimeout crew => Sys2Proof.Machine.execApertureCompletionTimeout crew s
  | .postedWriteRefusal addr => Sys2Proof.Machine.execPostedWriteRefusal addr s
  | .laneRepairExhausted link => Sys2Proof.Machine.execLaneRepairExhausted link s
  | .ackFrame fr => Sys2Proof.Machine.execAckFrame fr s
  | .nackFrame fr => Sys2Proof.Machine.execNackFrame fr s
  | .copyPayloadFrame fr => Sys2Proof.Machine.execCopyPayloadFrame fr s
  | .copyStampFrame fr => Sys2Proof.Machine.execCopyStampFrame fr s
  | .collectiveSegment fr => Sys2Proof.Machine.execCollectiveSegment fr s
  | .spdmMessageFrame fr => Sys2Proof.Machine.execSpdmMessageFrame fr s
  | .jobHandOff fr => Sys2Proof.Machine.execJobHandOff fr s
  | .heartbeat fr => Sys2Proof.Machine.execHeartbeat fr s
  | .faultNotice fr => Sys2Proof.Machine.execFaultNotice fr s
  | .reservedVftFrame fr => Sys2Proof.Machine.execReservedVftFrame fr s
  | .nonVftFrame port data => Sys2Proof.Machine.execNonVftFrame port data s
  | .vftResendTimeout conn => Sys2Proof.Machine.execVftResendTimeout conn s
  | .heartbeatLoss peer => Sys2Proof.Machine.execHeartbeatLoss peer s
  | .faultDetection job => Sys2Proof.Machine.execFaultDetection job s
  | .remap job spare => Sys2Proof.Machine.execRemap job spare s
  | .restore job => Sys2Proof.Machine.execRestore job s
  | .restart job => Sys2Proof.Machine.execRestart job s
  | .leeGrant die => Sys2Proof.Machine.execLeeGrant die s
  | .launchStart launch => Sys2Proof.Machine.execLaunchStart launch s
  | .conditionNodeRead job node => Sys2Proof.Machine.execConditionNodeRead job node s
  | .phaseBoundary job => Sys2Proof.Machine.execPhaseBoundary job s
  | .parkedSlotReclaim core => Sys2Proof.Machine.execParkedSlotReclaim core s
  | .crewMigration crew core => Sys2Proof.Machine.execCrewMigration crew core s
  | .forwardMessage core crew => Sys2Proof.Machine.execForwardMessage core crew s
  | .stealRequest core => Sys2Proof.Machine.execStealRequest core s
  | .stealAnswer core => Sys2Proof.Machine.execStealAnswer core s
  | .preemptionRequest die => Sys2Proof.Machine.execPreemptionRequest die s
  | .yieldforced crew => Sys2Proof.Machine.execYieldforced crew s
  | .waitEvent crew => Sys2Proof.Machine.execWaitEvent crew s
  | .waitPoll crew => Sys2Proof.Machine.execWaitPoll crew s
  | .stageItemArrival core => Sys2Proof.Machine.execStageItemArrival core s
  | .stageItemAck core => Sys2Proof.Machine.execStageItemAck core s
  | .stageResend core => Sys2Proof.Machine.execStageResend core s
  | .governorSample launch => Sys2Proof.Machine.execGovernorSample launch s
  | .dataflowEligibilityTest seg task => Sys2Proof.Machine.execDataflowEligibilityTest seg task s
  | .cellWaiterServed die cell => Sys2Proof.Machine.execCellWaiterServed die cell s
  | .walkComplete core job va write => Sys2Proof.Machine.execWalkComplete core job va write s
  | .pageMigration job page die moveFrame => Sys2Proof.Machine.execPageMigration job page die moveFrame s
  | .viewRecompute die err => Sys2Proof.Machine.execViewRecompute die err s
  | .bteCommandStart die chan err => Sys2Proof.Machine.execBteCommandStart die chan err s
  | .bteStampWrite die chan => Sys2Proof.Machine.execBteStampWrite die chan s
  | .gatherRetire core err => Sys2Proof.Machine.execGatherRetire core err s
  | .collectiveComplete job key err => Sys2Proof.Machine.execCollectiveComplete job key err s
  | .matrixStepStart core => Sys2Proof.Machine.execMatrixStepStart core s
  | .matrixStepRetire core => Sys2Proof.Machine.execMatrixStepRetire core s
  | .mldbRetire core err => Sys2Proof.Machine.execMldbRetire core err s
  | .selfTest core fail => Sys2Proof.Machine.execSelfTest core fail s
  | .systemTrap crew source line va => Sys2Proof.Machine.execSystemTrap crew source line va s
  | .cxlMemRetrain ok => Sys2Proof.Machine.execCxlMemRetrain ok s
  | .portLinkDown port => Sys2Proof.Machine.execPortLinkDown port s
  | .portLinkUp port => Sys2Proof.Machine.execPortLinkUp port s
  | .configRequest reg write => Sys2Proof.Machine.execConfigRequest reg write s
  | .msixTableWrite off value => Sys2Proof.Machine.execMsixTableWrite off value s
  | .hdmDecoderProgram decoder base size commit => Sys2Proof.Machine.execHdmDecoderProgram decoder base size commit s
  | .powerOnReset => Sys2Proof.Machine.execPowerOnReset s
  | .getVersion => Sys2Proof.Machine.execGetVersion s
  | .getCapabilities => Sys2Proof.Machine.execGetCapabilities s
  | .getDigests => Sys2Proof.Machine.execGetDigests s
  | .mbstatNovfClear => Sys2Proof.Machine.execMbstatNovfClear s
  | .mbstatDupClear => Sys2Proof.Machine.execMbstatDupClear s
  | .mbnoteRead => Sys2Proof.Machine.execMbnoteRead s
  | .bisnpTimeout => Sys2Proof.Machine.execBisnpTimeout s
  | .cxlMemInactive => Sys2Proof.Machine.execCxlMemInactive s
  | .lateCompletionDrop => Sys2Proof.Machine.execLateCompletionDrop s
  | .coolantOvertemp => Sys2Proof.Machine.execCoolantOvertemp s
  | .coolantRecovery => Sys2Proof.Machine.execCoolantRecovery s
  | .forwardingEntryExpiry => Sys2Proof.Machine.execForwardingEntryExpiry s
  | .stealBackoffExpiry => Sys2Proof.Machine.execStealBackoffExpiry s
  | .boostExpiry => Sys2Proof.Machine.execBoostExpiry s
  | .registerMiss => Sys2Proof.Machine.execRegisterMiss s
  | .landingArrival => Sys2Proof.Machine.execLandingArrival s
  | .trapDelivery => Sys2Proof.Machine.execTrapDelivery s
  | .haltWake => Sys2Proof.Machine.execHaltWake s
  | .heartbeatTransmit => Sys2Proof.Machine.execHeartbeatTransmit s

end Sys2Proof.Machine
end

