-- ==== Sys2Proof/Machine/Place.lean ====
section
/-! DEFINITION. How an instruction comes to stand where the next step fetches: a job, its launch, a page of code and a crew (DESIGN CHOICE, assumption log 1). -/

namespace Sys2Proof.Machine

/-- Where the placed program stands: its tables, its page of code, its virtual address, and the tid and handle of its crew and launch. -/
def placeTables : Nat := 0x100000
def placeFrame : Nat := 0x10000
def placeVa : Nat := 0x10000

/-- The entry that makes a leaf of the page stand for its address below tables 0x1000 bytes apart (R168, R169). -/
def placeTable (l : List Host.Cell) (level : Nat) : List Host.Cell :=
  memWrite l (placeTables + 4096 * (5 - level) + 16 * vaIndex level placeVa)
    (toBytes 16 (if level = 0 then mkLeaf 0 256 true false true false false placeFrame else 2 ^ 63 + placeTables + 4096 * (6 - level)))

def placeJob : Job :=
  { id := 1, cls := 2, keys := [], ydl := 20, ckpt := 0, domain := none, ptallow := true, submitter := none, handle := jobHandle 1,
    ptroot := w64 placeTables, shvbase := 0, phases := [{ repeats := 1, nodes := [] }], phase := 0, runs := 0, phaseNo := 0, counter := 1,
    phaseH := phaseHandle 1 0, phaseCtr := 2, graphH := phaseHandle 1 0 + 1, graphCtr := 1, graphCancelled := false, phaseCancelled := false, states := [.running], nodeH := [],
    nextLsn := 2, decls := [], segs := [{ base := placeVa, len := 4096, x := true, w := false, obj := 0 }], regions := [], ended := false, cancelled := false,
    oldH := [], recovery := 0, spare := 0, image := [], yieldForced := 0, maps := [], chkDone := false }

/-- The declaration of the placed program: everything a task may use (R140, R285). -/
def placeDecl : Decl :=
  { Decl.zero with addr := 0x20000, entry := placeVa, width := 4, vregs := 512, sregs := 128, handles := 16, masks := 8, accs := 8 }

def placeLaunch : Launch :=
  { handle := 4, hnd := nodeHandle 1 0 0, lsn := 1, job := 1, counter := 1, started := true, done := false, cancelled := false, node := some 0, issuer := none, byTid := 0, queued := 1,
    declAddr := 0x20000, nroot := 1, affbase := 0, tile := 0, seed := 0, decl := some placeDecl, iped := 0, plsn := 0, irrk := 0, ilseq := 0,
    tmpls := [], nextSid := 1, strands := [], trapBase := trapArea 4, trapSeq := 1, traps := [], reds := [], rootViews := [], stages := [],
    pool := 0, backoffC := 256, govint := 0, govAt := 0 }

/-- A crew of four lanes at an address, on compute core 0 (R143). -/
def placeCrew (pc : Word) : Crew :=
  { Crew.empty with
    tid := 1, launch := 4, hnd := nodeHandle 1 0 0, job := 1, cls := 2, core := 0, slots := [0], status := .ready, decl := placeDecl,
    pcs := List.replicate 4 pc, live := lanesBelow 4, m := smSet 0 [] 0 (lanesBelow 4), stag := smSet tINV [] 0 tRAW,
    ped := pedOfRoot 0, ped0 := pedOfRoot 0 }

/-- The machine with an instruction of `nbits` bits, the bits above them zero, at the address that its crew issues from next. [DESIGN CHOICE, assumption log 1] -/
def placeWord (m : Mach) (nbits w : Nat) : Mach :=
  { m with
    agenda := [], todo := [], cur := placeCrew (w64 placeVa), others := [], nextTid := 2, nextHandle := 5, nextJob := 2
    mem := memWrite ([5, 4, 3, 2, 1, 0].foldl placeTable m.mem) placeFrame (toBytes 16 (w % 2 ^ nbits))
    lineKey := [], dramKey := [], dirtyL2 := [], held := [], snoops := [], released := 3, evLeft := 0, picks := none, coresOff := [], stacksOff := [], frameHome := [], apEng := []
    jobs := [(1, placeJob)], launches := [(4, placeLaunch)], cores := [], dies := [] }

end Sys2Proof.Machine
end

