-- ==== Sys2Proof/Machine/Lennas.lean ====
section
/-! DEFINITION. What Lennas does at the request of a running task: to map a page, and to change a page from X to W or from W to X (R68, R86, R88, R89).
How a task's request comes to Lennas is open: it is a turn of the agenda (DESIGN CHOICE, assumption log 6). -/

namespace Sys2Proof.Machine

/-- Lennas answers a task's request, with the status of R62 and the failure record of R86; a refusal also enters its log. -/
def mapAnswer (m : Mach) (tid job va status : Nat) (rec : List Byte) : Mach :=
  let m := { m with mapReplies := m.mapReplies ++ [{ tid := tid, va := va, status := status, record := rec }] }
  if status = 0 then m else m.logged (.mapRefused job va status rec)

/-- May a task of the job have a page under this treatment (R68)? -/
def treatAllowed (j : Job) (treat : Nat) : Bool := if treat = 256 then j.ptallow else j.keys.contains treat

/-- The words of a page as they stand committed, by offset. -/
def pageWord (m : Mach) (frame o : Nat) : Nat := memNum m.mem (frame + o) 8

/-- The code object that an address of a job belongs to, by its index in its image (R86); 0, which the spec leaves open, for a page of no code object.
[DESIGN CHOICE, assumption log 6] -/
def objectAt (j : Job) (va : Nat) : Nat := ((j.segs.find? (fun s => decide (s.base / 4096 * 4096 ≤ va ∧ va < s.base + s.len))).map (·.obj)).getD 0

/-- A fresh page for a running task (R68, R86, R457): refused for a treatment that the job may not use, and for a page that fails the scan. Which status
a refusal carries is open (DESIGN CHOICE, assumption log 6): KEYDENIED, BADFIELD for a page that is mapped already or asks for W and X, SCANFAIL. -/
def taskMap (m : Mach) (tid va treat : Nat) (w x : Bool) : Mach :=
  match m.crew tid with
  | none => m
  | some c =>
    let page := va / 4096 * 4096
    match m.job c.job with
    | none => m
    | some j =>
      let no (status : Nat) (rec : List Byte) : Mach := mapAnswer m tid c.job page status rec
      if !treatAllowed j treat then no 4 []
      else if decide (2 ^ 57 ≤ va) || (w && x) || (match walk m c.job page with | .ok _ => true | .error _ => false) then no 2 []
      else
        match (if x then scanPage (fun _ => 0) 4096 else none) with
        | some f => no 6 (scanRecord page (objectAt j page) f)
        | none =>
          match mapUnder m c.job page (dieOf c.core) treat true w x false false with
          | none => no 11 []
          | some m => mapAnswer (m.modJob c.job (fun j => { j with maps := j.maps ++ [(page, 4096, treat)] })) tid c.job page 0 []

/-- Is the PC of a live lane in a page? -/
def pcInPage (va len : Nat) (c : Crew) : Bool := (lanesOf c.live).any (fun L => decide (va ≤ (pcOf c L).toNat ∧ (pcOf c L).toNat < va + len))

/-- The page that a task asks to change: its leaf, where it stands, its base and its length. -/
def taskPage (m : Mach) (tid va : Nat) : Option (Crew × BitVec 128 × Nat × Nat × Nat) :=
  match m.crew tid with
  | none => none
  | some c =>
    match walk m c.job va with
    | .error _ => none
    | .ok (l, ea) =>
      let n := pageBytes (lfSIZE l)
      some (c, l, ea - 16 * (vaIndex (lfSIZE l / 4) va % 4 ^ (lfSIZE l % 4)), va / n * n, n)

/-- The act is made again a cycle later. -/
def lennasAgain (m : Mach) (a : LennasAct) : Mach := { m with agenda := m.agenda ++ [(1, .lennas a)] }

/-- A leaf's bits with other permissions to write and to execute. -/
def withWX (w x : Bool) (e : Nat) : Nat := e - b2n (bit e 60) * 2 ^ 60 - b2n (bit e 59) * 2 ^ 59 + b2n w * 2 ^ 60 + b2n x * 2 ^ 59

/-- From X to W (R88): the X mapping goes, once the shootdown can complete; every crew whose PC lies in the page is pre-empted; then the page is mapped W. -/
def pageToWrite (m : Mach) (tid va : Nat) : Mach :=
  match taskPage m tid va with
  | none => m
  | some (c, l, ea, base, len) =>
    if !lfX l then mapAnswer m tid c.job base 2 []
    else if holdsTranslation m c.job then lennasAgain m (.toWrite tid va)
    else
      let m := tlbDrop (putLeaf m ea (lfSIZE l) (fun _ => 0)) c.job base (base + len)
      let m := ((m.crews.filter (fun k => k.job == c.job && pcInPage base len k)).map (·.tid)).foldl switchOut m
      let m := reconvDrop m c.job base (base + len)
      mapAnswer (putLeaf m ea (lfSIZE l) (fun _ => withWX true false l.toNat)) tid c.job base 0 []

/-- The failure record of a page of a job that fails the scan, whatever its size (R85, R86). -/
def scanRange (m : Mach) (job base frame len : Nat) : Option (List Byte) :=
  (scanPage (pageWord m frame) len).map (scanRecord base (match m.job job with | some j => objectAt j base | none => 0))

/-- From W to X (R86, R89): the W mapping goes, once the shootdown can complete; the page's lines are cleaned, what instruction caches hold of it goes,
and it is mapped X when it passes the scan. A page that fails stays unmapped. -/
def pageToExec (m : Mach) (tid va : Nat) : Mach :=
  match taskPage m tid va with
  | none => m
  | some (c, l, ea, base, len) =>
    let lines := (m.lineKey.map (·.1)).filter (fun n => decide (lfFrame l / 128 ≤ n ∧ n < (lfFrame l + len) / 128))
    let held := lines.filter m.held.contains
    if !lfW l then mapAnswer m tid c.job base 2 []
    else if !held.isEmpty then lennasAgain (snoopSide held m) (.toExec tid va)
    else if holdsTranslation m c.job then lennasAgain m (.toExec tid va)
    else
      let m := tlbDrop (putLeaf m ea (lfSIZE l) (fun _ => 0)) c.job base (base + len)
      let m := reconvDrop (lines.foldl cleanDram m) c.job base (base + len)
      match scanRange m c.job base (lfFrame l) len with
      | some rec => mapAnswer m tid c.job base 6 rec
      | none => mapAnswer (putLeaf m ea (lfSIZE l) (fun _ => withWX false true l.toNat)) tid c.job base 0 []

/-- Lennas's act for a running task, or with what a peer has sent it. [DESIGN CHOICE, assumption log 6] -/
def lennasStep (a : LennasAct) (m : Mach) : Mach :=
  match a with
  | .map tid va treat w x => taskMap m tid va treat w x
  | .toWrite tid va => pageToWrite m tid va
  | .toExec tid va => pageToExec m tid va
  | .pulled job image => imagePulled m job image

end Sys2Proof.Machine
end

