-- ==== Sys2Proof/Machine/Turn.lean ====
section
/-! DEFINITION. What moves next: the turn that the agenda names, the events of a cycle, and the crews that each core issues in it (R29, R120 to R125,
R130, R184, R456). -/

namespace Sys2Proof.Machine

/-! ### Ports (R130) -/

/-- The port of an opcode: integer 0, vector 1, special-function 2, permute 3, memory and engine 4; 5 for none. -/
def portOf (op : Nat) : Nat :=
  if 0x30 ≤ op ∧ op ≤ 0x39 then 5
  else if op ≤ 0x21 ∨ op = 0x62 ∨ op = 0x63 then 0
  else if op ≤ 0x27 then 3
  else if 0x49 ≤ op ∧ op ≤ 0x51 then 2
  else if 0x40 ≤ op ∧ op ≤ 0x60 then 1
  else 4

/-- Halves of a port that a cycle has, and that a crew takes: the vector port takes two crews, or one pair. -/
def portRoom (port : Nat) : Nat := if port = 1 then 2 else 1
def portTakes (port : Nat) (pair : Bool) : Nat := if port = 1 && pair then 2 else 1

/-- Cycles for which an instruction keeps its port. -/
def portCycles (port : Nat) (pair : Bool) : Nat := if port = 2 then (if pair then 4 else 2) else if (port = 0 || port = 3) && pair then 2 else 1

/-! ### The crews that a core issues (R120, R121) -/

/-- How a step runs an instruction. -/
abbrev Runs := Instr → Mach → Option Mach

/-- What a crew would do in this cycle: its port, whether it is a `cancel`, whether it would stall, and whether it would ask its lee controller for units. -/
structure Look where
  crew   : Crew
  port   : Nat
  cancel : Bool
  stalls : Option Stall
  lee    : Bool

/-- Look at what a crew would do; when it is alone in the module, whether it stalls and asks makes no difference to which crews issue. -/
def lookAt (run : Runs) (m : Mach) (alone : Bool) (c : Crew) : Look :=
  match fetchTurn 3 (m.focus c.tid) with
  | .run i m' =>
    let port := match i.parts with | some (op, _) => portOf op | none => 5
    let plain : Look := { crew := c, port := port, cancel := (match i.parts with | some (op, _) => op == 0xF7 | none => false), stalls := none, lee := false }
    if alone then plain
    else
      match run i m' with
      | none => plain
      | some t =>
        let d := dieOf c.core
        { plain with stalls := (match t.crew c.tid with | some k => (if k.status = .ready then k.stall else none) | none => none),
                     lee := (t.die d).lee != (m.die d).lee }
  | _ => { crew := c, port := 5, cancel := false, stalls := none, lee := false }

/-- Insert a crew by rank. -/
def byRank (clk : Nat) (l : Look) (s : List Look) : List Look :=
  s.takeWhile (fun x => !lexLt (rankKeys clk l.crew) (rankKeys clk x.crew)) ++ l :: s.dropWhile (fun x => !lexLt (rankKeys clk l.crew) (rankKeys clk x.crew))

/-- The one or two crews that a core issues, from its ready crews in their rank. Where the second- and the third-ranked are both pairs, which R121 does not say,
the place goes on to the fourth and later [DESIGN CHOICE, assumption log 22]: the place of a pair that comes second, and of a crew whose port is taken,
passes to the next (R121, R130). `places` are the issue places left, `used` the ports taken. -/
def placeCrews (busy : Nat → Bool) : Nat → List Nat → List Look → List Look
  | 0, _, _ => []
  | _, _, [] => []
  | places + 1, used, l :: t =>
    let pair := decide (l.crew.slots.length = 2)
    let room := decide ((used.filter (· == l.port)).length + portTakes l.port pair ≤ portRoom l.port) && !busy l.port
    if (pair && places = 0) || (l.port ≠ 5 && !room) then placeCrews busy (places + 1) used t
    else if pair then [l]
    else l :: placeCrews busy places (used ++ [l.port]) t

/-- Has a crew's access come to its line's home and waits there: for the host, for an engine, or for a way (R36, R196, R242)? -/
def waitsHome (s : Option Stall) : Bool := s == some .hostLine || s == some .engine || s == some .way || s == some .specWay

/-- A crew that was held and can issue again has become ready (R120); one whose access waits at a line's home keeps its place there until it is served. -/
def becomesReady (clk : Nat) (l : Look) (c : Crew) : Crew :=
  if l.stalls.isNone && c.stall.isSome then { c with stall := if waitsHome c.stall then c.stall else none, stamp := clk } else c

/-- The crews of the module that try to issue in this cycle: on each core the one or two of highest rank, and besides them those that stay held and
make their requests anew. Accesses that have waited at their lines' homes and can be served come first, in the order in which they came (R184, R242). Those
that ask for leave are next, in class order and from the per-cycle pointer (R29, R456); the others follow in the order in which the slices serve them (R184), a
`cancel` after all of them, so that what its object completes in this cycle stands (R78). [DEDUCED, assumption log 8] -/
def pickAll (run : Runs) (m : Mach) : Mach × List Nat :=
  let cands := m.crews.filter (isReady m)
  let looks := cands.map (lookAt run m (decide (cands.length = 1)))
  let m := looks.foldl (fun m l => m.modCrew l.crew.tid (becomesReady m.clk l)) m
  let fresh := looks.map (fun l => { l with crew := becomesReady m.clk l l.crew })
  let cores := (fresh.map (·.crew.core)).eraseDups
  let busy (core port : Nat) : Bool := decide (m.clk < smGet 0 (m.core core).ports port)
  let served := fresh.filter (fun l => l.stalls.isNone && waitsHome l.crew.stall)
  let go := cores.flatMap (fun k =>
    placeCrews (busy k) 2 [] (((fresh.filter (fun l => l.crew.core == k && l.stalls.isNone && !waitsHome l.crew.stall))).foldl (fun s l => byRank m.clk l s) []))
  let m := go.foldl (fun m l =>
    let n := portCycles l.port (decide (l.crew.slots.length = 2))
    if n = 1 then m else m.modCore l.crew.core (fun k => { k with ports := smPut k.ports l.port (m.clk + n) })) m
  let all := go ++ fresh.filter (fun l => l.stalls.isSome)
  let asks := all.filter (fun l => l.lee || l.stalls == some .lee)
  let rest := all.filter (fun l => !(l.lee || l.stalls == some .lee))
  let before (a b : Look) : Bool := decide (a.crew.cls < b.crew.cls ∨ (a.crew.cls = b.crew.cls ∧ fromPtr m a.crew.core < fromPtr m b.crew.core))
  let ins (lt : Look → Look → Bool) (s : List Look) (l : Look) : List Look := s.takeWhile (fun x => !lt l x) ++ l :: s.dropWhile (fun x => !lt l x)
  let came (l : Look) : List Nat := [l.crew.waitAt, (l.crew.core + 386 - l.crew.waitAt % 386) % 386]
  let order := served.foldl (ins (fun a b => lexLt (came a) (came b))) [] ++ asks.foldl (ins before) [] ++
    rest.foldl (ins (fun a b => lexLt [b2n a.cancel, fromSlicePtr m a.crew.core] [b2n b.cancel, fromSlicePtr m b.crew.core])) []
  (m, order.map (·.crew.tid))

/-! ### Turns -/

/-- A crew's turn to issue. -/
def crewTurn (m : Mach) (t : Nat) : Turned := fetchTurn 3 (m.focus t)

/-- The turn of one of the module's own agents: what is left of the events that were due, then the crews that the cores have chosen, then the next cycle.
[DESIGN CHOICE, assumption log 1] -/
def ownTurn (run : Runs) (m : Mach) : Turned :=
  match m.evLeft, m.todo with
  | n + 1, i :: rest => eventTurn i { m with evLeft := n, todo := rest }
  | _, _ =>
    match m.picks with
    | some (t :: l) => crewTurn { m with picks := some l } t
    | some [] => .done (newCycle 1 m)
    | none =>
      match pickAll run m with
      | (m, t :: l) => crewTurn { m with picks := some l } t
      | (m, []) => .done (newCycle 1 m)

/-- The cycles that an entry of the agenda lets go by. -/
def pass (dt : Nat) (m : Mach) : Mach := if dt = 0 then m else newCycle dt m

/-- The cycle in which a crew's stall count lets it issue (R120). -/
def untilReady (m : Mach) (t : Nat) : Mach := match m.crew t with | some c => { m with clk := max m.clk c.holdTo } | none => m

/-- The turn of a step: what the agenda says, else one of the module's own agents. [DESIGN CHOICE, assumption log 1; DESIGN CHOICE, assumption log 9] -/
def turn (run : Runs) (m : Mach) : Turned :=
  match m.agenda with
  | (dt, .event i) :: rest => eventTurn i (pass dt { m with agenda := rest })
  | (dt, .issue t) :: rest => crewTurn (untilReady (pass dt { m with agenda := rest }) t) t
  | (dt, .lennas a) :: rest => .done (lennasStep a (pass dt { m with agenda := rest }))
  | [] => ownTurn run m

end Sys2Proof.Machine
end

