-- ==== Sys2Proof/Machine/Step.lean ====
section
/-! DEFINITION. One step of the machine, and how a word is placed where the next step fetches. -/

namespace Sys2Proof.Machine

/-- What an instruction makes of the machine, when it answers a next state. -/
def runOf (s : State) : Runs := fun i m => match exec i { s with m := m } with | .next t => some t.m | _ => none

/-- One step: an instruction of a crew, an event of one of the part's agents, or a cycle in which nothing moves. -/
def step (s : State) : Host.Outcome State Fault Refusal :=
  match turn (runOf s) s.m with
  | .run i m => exec i { s with m := m }
  | .done m => .next { s with m := m }
  | .unscanned => .fault .unscannedWord

/-- The state with an instruction stored where `step` fetches its next one. [DESIGN CHOICE, assumption log 1] -/
def State.withFetchWord (s : State) (nbits w : Nat) : State := { s with m := placeWord s.m nbits w }

end Sys2Proof.Machine
end

