-- ==== Sys2Proof/Safety.lean ====
section
/-! DEFINITION. What a safe run is, and the terms in which claims speak of an instruction: when it issues with its checks passed, what it
delivers, and what it leaves as it was. -/

namespace Sys2Proof.Machine

/-- The step at a state answers a next state: the machine neither stops at a word that no scan has passed nor meets an unmodelled row. -/
def SafeStep (s : State) : Prop := ∃ t, step s = .next t

/-- The first n steps from a state all answer next states. -/
def SafeRun : Nat → State → Prop
  | 0, _ => True
  | n + 1, s => ∃ t, step s = .next t ∧ SafeRun n t

/-! ### When an instruction has its effect -/

/-- The current crew can issue at `pc`, no trap of its is waiting to be delivered (R250), some lane passes the guard (R277), and the checks of
R254, items 3 to 5, pass. -/
structure Issues (s : State) (op : Nat) (f : Fields) (pc : Word) : Prop where
  ready  : canIssue s.m.cur = some pc
  noLate : s.m.cur.late = none
  lanes  : (issueCtx s.m pc op f).e ≠ 0
  checks : preCheck s.m s.m.cur (issueCtx s.m pc op f) (entryFor s.m s.m.cur op f) = .ok ()

/-! ### What an instruction delivers -/

/-- Registers that a destination of `n` items of `w` bits names in a lane, as (kind, number): kind 0 `v`, 1 `s`, 2 `p`, 3 `m` (R132). -/
def destRegs (x : Ctx) (w n L : Nat) : List (Nat × Nat) := regsOf x.cd { cls := 0, bits := w, n := n } [L] x.f.d

/-- The destination holds the result: in the lanes of E a `v` register or pair with the tag, or a `p` register's bit; once for the crew an `s`
register, extended by sign or by zeros (R135), or an `m` register's bits below the width (R137). -/
def Delivered (x : Ctx) (w : Nat) (sgn : Bool) (t : Tag) (val : Nat → Word) (c : Crew) : Prop :=
  let inV (L q : Nat) : Prop :=
    if w = 64 then vGet64 c q L = val L ∧ vTag c q = t ∧ vTag c (q + 1) = t else vGet c q L = lo32 (val L) ∧ vTag c q = t
  match x.f.d with
  | .v r => ∀ L ∈ x.lanes, inV L r.toNat
  | .ind r k => ∀ L ∈ x.lanes, inV L (effReg x.cd r k L)
  | .s r => sGet c r.toNat = (if w = 64 then val x.low else if sgn then sx (lo32 (val x.low)) else zx (lo32 (val x.low))) ∧ sTag c r.toNat = t
  | .p r => ∀ L ∈ x.lanes, pBit c r.val L = (if w = 64 then val L != 0 else lo32 (val L) != 0)
  | .m r => w = 64 → mGet c r.toNat = val x.low &&& lanesBelow c.width
  | _ => True

/-- A predicate result: the bit of a `p` register in the lanes of E; `pt` discards it (R132, R297). -/
def DeliveredP (x : Ctx) (val : Nat → Bool) (c : Crew) : Prop :=
  match x.f.d with
  | .p r => ∀ L ∈ x.lanes, pBit c r.val L = val L
  | _ => True

/-! ### What it leaves as it was -/

/-- The registers of two crews agree, but for those that `dst` names in a lane of the list. -/
structure RegsKept (lanes : List Nat) (dst : Nat → List (Nat × Nat)) (c c' : Crew) : Prop where
  v    : ∀ r L, L < 64 → ¬ (L ∈ lanes ∧ (0, r) ∈ dst L) → vGet c' r L = vGet c r L
  vtag : ∀ r, (∀ L ∈ lanes, (0, r) ∉ dst L) → vTag c' r = vTag c r
  s    : ∀ r, (∀ L ∈ lanes, (1, r) ∉ dst L) → sGet c' r = sGet c r ∧ sTag c' r = sTag c r
  p    : ∀ r L, ¬ (L ∈ lanes ∧ (2, r) ∈ dst L) → pBit c' r L = pBit c r L
  m    : ∀ r, (∀ L ∈ lanes, (3, r) ∉ dst L) → mGet c' r = mGet c r
  h    : c'.h = c.h
  acc  : c'.acc = c.acc

/-- Everything else of the crew is as it was, but for what an issue itself changes: PCs, the counts of R162, the errors that overwriting clears
(R416), the cycles of issue and of the stall count's end, the stall with what it keeps, and boost and demotion (R120, R123, R267). The sticky flags and the draw index are the ones given. -/
def CrewKept (c c' : Crew) (flags : BitVec 5) (draw : Half) : Prop :=
  c' = { c with v := c'.v, vtag := c'.vtag, s := c'.s, stag := c'.stag, p := c'.p, m := c'.m, pcs := c'.pcs, pend := c'.pend, poison := c'.poison,
                stamp := c'.stamp, holdTo := c'.holdTo, stall := none, demoted := false, placed := 0, viewWait := [], atHome := c'.atHome, boostLeft := c'.boostLeft,
                flags := flags, draw := draw }

/-- The Active lanes have moved past the instruction, the others stand where they stood (R267). -/
def PcsPast (x : Ctx) (c c' : Crew) : Prop :=
  c'.pcs.length = c.pcs.length ∧ ∀ L, L < c.pcs.length → pcOf c' L = if inM x.active L then x.pc + w64 x.len else pcOf c L

/-- Nothing but the current crew and the counter of free values has changed; every byte of memory reads as before. -/
structure OnlyCrew (s t : State) : Prop where
  boot : t.boot = s.boot
  host : t.host = s.host
  mach : t.m = { s.m with cur := t.m.cur, freeCtr := t.m.freeCtr }
  mem  : ∀ a, memGet t.m.mem a = memGet s.m.mem a

/-- The frame of an instruction that writes registers only: the destination, and the flags and the draw index given. -/
structure RegStep (s t : State) (x : Ctx) (dst : Nat → List (Nat × Nat)) (flags : BitVec 5) (draw : Half) : Prop where
  only : OnlyCrew s t
  crew : CrewKept s.m.cur t.m.cur flags draw
  regs : RegsKept x.lanes dst s.m.cur t.m.cur
  pcs  : PcsPast x s.m.cur t.m.cur

/-- `i` completes with a result per lane in D, of `w` bits with a tag, and changes no other register and no flag. -/
def Gives (s : State) (i : Instr) (op : Nat) (f : Fields) (pc : Word) (w : Nat) (sgn : Bool) (t : Ctx → Tag) (val : Ctx → Nat → Word) : Prop :=
  let x := issueCtx s.m pc op f
  ∃ u, exec i s = .next u ∧ Delivered x w sgn (t x) (val x) u.m.cur ∧
    RegStep s u x (destRegs x w 1) s.m.cur.flags s.m.cur.draw

/-- `i` completes with a predicate result per lane in D. -/
def GivesP (s : State) (i : Instr) (op : Nat) (f : Fields) (pc : Word) (val : Ctx → Nat → Bool) : Prop :=
  let x := issueCtx s.m pc op f
  ∃ u, exec i s = .next u ∧ DeliveredP x (val x) u.m.cur ∧ RegStep s u x (destRegs x 32 1) s.m.cur.flags s.m.cur.draw

/-! ### The terms of the integer rules (R292 to R298), on words -/

/-- The type codes of the integer instructions. -/
def IntType (f : Fields) : Prop := f.ty = 1 ∨ f.ty = 2 ∨ f.ty = 4 ∨ f.ty = 5

/-- A result of an integer type: signed types extend by sign in an `s` register (R293). -/
def GivesI (s : State) (i : Instr) (op : Nat) (f : Fields) (pc : Word) (t : Ctx → Tag) (val : Ctx → Nat → Word) : Prop :=
  Gives s i op f pc (tyBits f.ty.toNat) (f.ty.toNat == 1) t val

/-- A bit-pattern result. -/
def GivesB (s : State) (i : Instr) (op : Nat) (f : Fields) (pc : Word) (t : Ctx → Tag) (val : Ctx → Nat → Word) : Prop :=
  Gives s i op f pc (tyBits f.ty.toNat) false t val

/-- Tags of a bit-pattern result (R142 rule 2): over A, over A and B, over the old D and A. -/
def patA (x : Ctx) : Tag := commonTag (opTags x.ca (tyBits x.y) 1 (dLanes x x.f.d) x.f.a)
def patAB (x : Ctx) : Tag := commonTag (opTags x.ca (tyBits x.y) 1 (dLanes x x.f.d) x.f.a ++ opTags x.cb (tyBits x.y) 1 (dLanes x x.f.d) x.f.b)
def patDA (x : Ctx) : Tag := commonTag (opTags x.cd (tyBits x.y) 1 (dLanes x x.f.d) x.f.d ++ opTags x.ca (tyBits x.y) 1 (dLanes x x.f.d) x.f.a)

/-- Is a value of an integer type negative? -/
def negAt (y : Nat) (a : Word) : Bool := if y = 1 then (lo32 a).msb else if y = 4 then a.msb else false

/-- Order of two values of an integer type: signed for types 1 and 4. -/
def leAt (y : Nat) (a b : Word) : Bool :=
  if y = 1 then (lo32 a).sle (lo32 b) else if y = 2 then (lo32 a).ule (lo32 b) else if y = 4 then a.sle b else a.ule b

/-- Equality of two values of a type. -/
def eqAt (y : Nat) (a b : Word) : Bool := if tyBits y = 64 then a == b else lo32 a == lo32 b

/-- The high half of the exact product. -/
def mulHigh (y : Nat) (a b : Word) : Word :=
  match y with
  | 1 => (sx (lo32 a) * sx (lo32 b)) >>> 32
  | 2 => (zx (lo32 a) * zx (lo32 b)) >>> 32
  | 4 => ((a.signExtend 128 * b.signExtend 128) >>> 64).setWidth 64
  | _ => ((a.setWidth 128 * b.setWidth 128) >>> 64).setWidth 64

/-- Quotient and remainder of two values of an integer type, the divisor not zero: truncated toward zero, the remainder's sign that of A. -/
def quoAt (y : Nat) (a b : Word) : Word :=
  match y with
  | 1 => zx ((lo32 a).sdiv (lo32 b))
  | 2 => zx (lo32 a / lo32 b)
  | 4 => a.sdiv b
  | _ => a / b

def remAt (y : Nat) (a b : Word) : Word :=
  match y with
  | 1 => zx ((lo32 a).srem (lo32 b))
  | 2 => zx (lo32 a % lo32 b)
  | 4 => a.srem b
  | _ => a % b

/-- Is a value of a type zero? -/
def zeroAt (y : Nat) (a : Word) : Bool := if tyBits y = 64 then a == 0 else lo32 a == 0

/-- Shifts by an unsigned 32-bit count, of any size. -/
def shlAt (y : Nat) (a : Word) (n : Nat) : Word := if tyBits y = 64 then a <<< n else zx (lo32 a <<< n)
def shrAt (y : Nat) (a : Word) (n : Nat) : Word := if tyBits y = 64 then a >>> n else zx (lo32 a >>> n)
def sarAt (y : Nat) (a : Word) (n : Nat) : Word := if tyBits y = 64 then a.sshiftRight n else zx ((lo32 a).sshiftRight n)
def rolAt (y : Nat) (a : Word) (n : Nat) : Word := if tyBits y = 64 then a.rotateLeft n else zx ((lo32 a).rotateLeft n)
def revAt (y : Nat) (a : Word) : Word := if tyBits y = 64 then a.reverse else zx (lo32 a).reverse

/-! ### Control (R308 to R315) -/

/-- Where the lanes go: the lanes that `ts` names to their targets, the other Active lanes past the instruction, the rest nowhere. -/
def PcsGo (x : Ctx) (ts : Nat → Option Word) (c c' : Crew) : Prop :=
  c'.pcs.length = c.pcs.length ∧
  ∀ L, L < c.pcs.length → pcOf c' L = match ts L with | some t => t | none => if inM x.active L then x.pc + w64 x.len else pcOf c L

/-- Between two machines only the bookkeeping of translation and of line fills differs: TLBs, `A` and `D` bits and demand-paged tables in memory,
the treatment recorded with lines and what DRAM holds of them, Lennas's free frames with their homes, the captures that sample the lines' homes, and the
counter of free values (R31, R172, R174, R180, R198, R199, R260). -/
def TransKept (m m' : Mach) : Prop :=
  m' = { m with mem := m'.mem, lineKey := m'.lineKey, dramKey := m'.dramKey, dirtyL2 := m'.dirtyL2, cores := m'.cores, dies := m'.dies,
                frames := m'.frames, frameHome := m'.frameHome, captures := m'.captures, freeCtr := m'.freeCtr }

/-- A crew after an issue and a transfer: registers kept but for the link or counter, PCs as `PcsGo` says. -/
structure Moved (s t : State) (x : Ctx) (dst : Nat → List (Nat × Nat)) (ts : Nat → Option Word) : Prop where
  boot  : t.boot = s.boot
  host  : t.host = s.host
  trans : TransKept { s.m with cur := t.m.cur } t.m
  crew  : CrewKept s.m.cur t.m.cur s.m.cur.flags s.m.cur.draw
  regs  : RegsKept x.lanes dst s.m.cur t.m.cur
  pcs   : PcsGo x ts s.m.cur t.m.cur

/-- The state with the release test of `msync` made (R313). -/
def tested (u : State) : State := { u with m := { u.m with cur := syncTest u.m.cur } }

/-! ### Floating point (R324 to R346) -/

/-- r_j of a lane under stochastic rounding, 0 under the other modes (R325). -/
def rsBits (s : State) (rm L j : Nat) : Nat := if rm = 4 then drawOf (seedOf s.m) s.m.cur L j else 0

/-- The draw index after an instruction with a rounding mode (R325). -/
def drawAfter (s : State) (rm : Nat) : Half := if rm = 4 then s.m.cur.draw + 1 else s.m.cur.draw

/-- `i` completes with a result and flags per lane: D of `w` bits, the sticky flags of every written lane, the draw index after `rm`. -/
def GivesF (s : State) (i : Instr) (op : Nat) (f : Fields) (pc : Word) (rm w : Nat) (sgn : Bool) (t : Tag) (res : Ctx → Nat → Nat × BitVec 5) : Prop :=
  let x := issueCtx s.m pc op f
  ∃ u, exec i s = .next u ∧ Delivered x w sgn t (fun L => w64 (res x L).1) u.m.cur ∧
    RegStep s u x (destRegs x w 1) (s.m.cur.flags ||| allFlags ((dLanes x f.d).map (fun L => (res x L).2))) (drawAfter s rm)

/-- ... element by element of its type: `g` gives the result and flags of element j of lane L from the elements of A, B and C. -/
def GivesE (s : State) (i : Instr) (op : Nat) (f : Fields) (pc : Word) (rm : Nat) (g : Nat → Nat → Nat → Nat → Nat → Nat × BitVec 5) : Prop :=
  let y := f.ty.toNat
  let el (x : Ctx) (L : Nat) : List (Nat × BitVec 5) := (List.range (elemN y)).map (fun j =>
    g L j (elemGet y (opA x y L).toNat j) (elemGet y (opB x y L).toNat j) (elemGet y (opC x y L).toNat j))
  GivesF s i op f pc rm 32 false (yTag y) (fun x L => (elemMake y ((el x L).map (·.1)), allFlags ((el x L).map (·.2))))

/-- ... into n registers from D on, in every lane of E. -/
def GivesRun (s : State) (i : Instr) (op : Nat) (f : Fields) (pc : Word) (rm n : Nat) (t : Tag) (res : Ctx → Nat → Nat → Nat × BitVec 5) : Prop :=
  let x := issueCtx s.m pc op f
  ∀ r, f.d = .v r → ∃ u, exec i s = .next u ∧
    (∀ L ∈ x.lanes, ∀ j, j < n → vGet u.m.cur (r.toNat + j) L = BitVec.ofNat 32 (res x L j).1 ∧ vTag u.m.cur (r.toNat + j) = t) ∧
    RegStep s u x (destRegs x 32 n) (s.m.cur.flags ||| allFlags (x.lanes.flatMap (fun L => (List.range n).map (fun j => (res x L j).2)))) (drawAfter s rm)

/-- A rounded exact result, with flags of its own. -/
def roundTo (y rm r : Nat) (e : Ex × BitVec 5) : Nat × BitVec 5 :=
  let q := roundEx (fmtOf y) rm r e.1
  (q.1, q.2 ||| e.2)

/-! ### Memory (R200 to R207, R348 to R362) -/

/-- A loaded value stands in a lane of D: `v` registers word by word, an `s` register extended by its type (R135, R351). -/
def LoadedIn (x : Ctx) (L : Nat) (bs : List Byte) (c : Crew) : Prop :=
  let n := extendTo x.y bs
  let t : Tag := BitVec.ofNat 4 (tyTag x.y)
  let words := tyBits x.y / 32
  let inV (q : Nat) : Prop := ∀ j, j < words → vGet c (q + j) L = BitVec.ofNat 32 (n / 2 ^ (32 * j)) ∧ vTag c (q + j) = t
  match x.f.d with
  | .v r => inV r.toNat
  | .ind r k => inV (effReg x.cd r k L)
  | .s r =>
    if x.y = 22 then sGet c r.toNat = w64 n ∧ sGet c (r.toNat + 1) = w64 (n / 2 ^ 64) ∧ sTag c r.toNat = t ∧ sTag c (r.toNat + 1) = t
    else sGet c r.toNat = (if words = 1 ∧ loadSigned x.y then sx (BitVec.ofNat 32 n) else w64 n) ∧ sTag c r.toNat = t
  | _ => True

/-- From a machine whose accesses have been checked, D receives per lane the bytes that `val` gives for the lane's access; an access of the host
aperture leaves the crew waiting for its completion instead, and no other register changes. `src` names the lane whose address serves a lane of D. -/
structure Loads (x : Ctx) (kind : Nat) (src : Nat → Nat) (oks : List Ok) (val : Nat → Ok → List Byte) (m : Mach) (c : Crew) : Prop where
  val  : ∀ L ∈ dLanes x x.f.d, ∀ (j : Nat) (o : Ok), oks[j]? = some o → o.acc.lane = src L → isAperture o.pa = false → LoadedIn x L (val j o) c
  regs : RegsKept x.lanes (destRegs x (tyBits x.y) 1) m.cur c
  rest : c = { m.cur with v := c.v, vtag := c.vtag, s := c.s, stag := c.stag, ap := c.ap }
  none : (∀ o ∈ oks, isAperture o.pa = false) → c.ap = m.cur.ap
  wait : (∃ o ∈ oks, isAperture o.pa = true) → ∃ q, c.ap = some q ∧ q.pc = x.pc ∧ q.kind = kind ∧ q.d = x.f.d ∧ q.y = x.y ∧ q.size = tySize x.y ∧
    q.lanes.map (·.1) = (dLanes x x.f.d).filter (fun L => oks.any (fun o => o.acc.lane == src L && isAperture o.pa))

/-- The lanes that give a load's addresses, and the lane whose address serves a lane of D. -/
def ldLanes (x : Ctx) : List Nat := if uniAddr x then [x.low] else dLanes x x.f.d
def ldSrc (x : Ctx) (L : Nat) : Nat := if uniAddr x then x.low else L

/-- The accesses of an instruction whose addresses are those of R349, and of an atomic. -/
def memAccs (x : Ctx) (ls : List Nat) : List Acc := ls.map (fun L => { lane := L, va := (addrOf x (tySize x.y) L).toNat, size := tySize x.y })
def atomAccs (x : Ctx) (ls : List Nat) : List Acc := ls.map (fun L => { lane := L, va := (opA x 15 L).toNat, size := tySize x.y })

/-- The committed lines that accesses reach. -/
def reachedLines (oks : List Ok) : List Nat := (oks.filter (fun o => !isAperture o.pa)).map (fun o => o.pa / 128)

/-- A segment as R201 describes it: one speculative line per line, a byte at most once, all within the line. -/
def SegWf (c : Crew) : Prop := (c.seg.map (·.pa)).Nodup ∧ ∀ l ∈ c.seg, (l.bytes.map (·.1)).Nodup ∧ ∀ e ∈ l.bytes, e.1 < 128

/-- The registers, PCs and status of a crew are those of another; segment, strand and marks may differ. -/
def RegsSame (c c' : Crew) : Prop :=
  c' = { c with seg := c'.seg, hardened := c'.hardened, sid := c'.sid, monitor := c'.monitor }

end Sys2Proof.Machine
end

