-- ==== Sys2Proof/Certificates/Slice0/Obligations.lean ====
section
/-! DEFINITION. The statements about the G320 that the provers are asked to prove, each from the numbered rules of spec/. -/

open Sys2Proof Sys2Proof.Machine

/-! ### The machine as a whole -/

/-- R119, R267, R280: when it is the turn of a crew that can issue, and the words at its issue address, read through the page tables, are no block
header and decode to a well-formed instruction, the step is exec of that instruction at that state; a header is passed first, in the same step. The
turn is the agenda's, or falls to the crew because its core has chosen it for the cycle; the step adds the cycles that have gone by, makes the crew
the current one and fills the TLBs for the fetch. An event whose turn it is, the agenda's or one that is due, runs as itself; with nothing left a
cycle passes. Where the rules leave a point open, the model's choice stands (assumption log 1). -/
def Obligations.StepRunsDecodedInstruction : Prop :=
  (∀ (s : State) (dt t : Nat) (rest : List (Nat × Turn)) (m : Mach) (pc : Word) (b : List Byte) (i : Instr) (n : Nat),
    s.m.agenda = (dt, .issue t) :: rest →
    let f := (untilReady (pass dt { s.m with agenda := rest }) t).focus t
    canIssue f.cur = some pc → f.cur.late = none → fetchInstr f f.cur pc = .ok (m, b) → isHeader (fld b 0 8) = false →
    decodeBytes b = .ok (i, n) → i.wf = true → step s = exec i { s with m := m }) ∧
  (∀ (s : State) (t : Nat) (l : List Nat) (m : Mach) (pc : Word) (b : List Byte) (i : Instr) (n : Nat),
    s.m.agenda = [] → (s.m.evLeft = 0 ∨ s.m.todo = []) →
    ∀ g : Mach, (s.m.picks = some (t :: l) ∧ g = s.m ∨ s.m.picks = none ∧ pickAll (runOf s) s.m = (g, t :: l)) →
    let f := ({ g with picks := some l }).focus t
    canIssue f.cur = some pc → f.cur.late = none → fetchInstr f f.cur pc = .ok (m, b) → isHeader (fld b 0 8) = false →
    decodeBytes b = .ok (i, n) → i.wf = true → step s = exec i { s with m := m }) ∧
  (∀ (f m m' : Mach) (pc pc' : Word) (b b' : List Byte) (i : Instr) (n k : Nat),
    canIssue f.cur = some pc → f.cur.late = none → fetchInstr f f.cur pc = .ok (m, b) → isHeader (fld b 0 8) = true →
    let g := passHeader m pc (fld b 0 8)
    canIssue g.cur = some pc' → g.cur.late = none → fetchInstr g g.cur pc' = .ok (m', b') → isHeader (fld b' 0 8) = false →
    decodeBytes b' = .ok (i, n) → i.wf = true → fetchTurn (k + 2) f = .run i m') ∧
  (∀ (f m : Mach) (c : Crew) (pc : Word) (o : Ok) (l : List Ok),
    checkAll f (whoOf c) 4 false [{ lane := lowLane (activeLanes c), va := pc.toNat, size := 8 }] = .ok (m, o :: l) →
    bit (ofBytes (memRead m.mem o.pa 8)) 63 = false → fetchInstr f c pc = .ok (m, memRead m.mem o.pa 8)) ∧
  (∀ (s : State) (dt : Nat) (rest : List (Nat × Turn)) (i : Instr), s.m.agenda = (dt, .event i) :: rest → i.isEvent = true →
    step s = exec i { s with m := pass dt { s.m with agenda := rest } }) ∧
  (∀ (s : State) (n : Nat) (rest : List Instr) (i : Instr), s.m.agenda = [] → s.m.evLeft = n + 1 → s.m.todo = i :: rest → i.isEvent = true →
    step s = exec i { s with m := { s.m with evLeft := n, todo := rest } }) ∧
  (∀ s : State, s.m.agenda = [] → (s.m.evLeft = 0 ∨ s.m.todo = []) → s.m.picks = some [] → step s = .next { s with m := newCycle 1 s.m })

/-- The words of an instruction in memory, little-endian (R6, R267). -/
def Obligations.WordsDecode : Prop :=
  let f : Fields := { wide := false, stall := 1, reuse := 0, guard := none, neg := false, ty := 0, d := .none, a := .none, b := .none, c := .none,
                      lit := 0, sc := 0, ord := 0, aux := 0 }
  -- add.i32 v4, v5, v2
  decodeBytes (toBytes 8 (2 ^ 55 * 0x02 + 2 ^ 51 * 1 + 2 ^ 44 * 15 + 2 ^ 40 * 1 + 2 ^ 30 * 4 + 2 ^ 20 * 5 + 2 ^ 10 * 2 + 0x2E0)) =
    .ok (.add { f with ty := 1, d := .v 4, a := .v 5, b := .v 2 }, 8) ∧
  -- mov.b32 s3, v[v7 + 2], under not p3: the descriptor of A in the second word
  decodeBytes (toBytes 8 (2 ^ 63 + 2 ^ 55 * 0x01 + 2 ^ 51 * 1 + 2 ^ 44 * 3 + 2 ^ 43 + 2 ^ 30 * 0x203 + 2 ^ 20 * 7 + 2 ^ 10 * 0x2E0 + 0x2E0) ++
      toBytes 8 (2 ^ 8 * (8 + 2))) =
    .ok (.mov { f with wide := true, guard := some 3, neg := true, d := .s 3, a := .ind 7 2 }, 16) ∧
  -- ld.f32.acq.crew v1, [s2 + v3 + 16], the offset a literal
  decodeBytes (toBytes 8 (2 ^ 63 + 2 ^ 55 * 0x80 + 2 ^ 51 * 1 + 2 ^ 44 * 15 + 2 ^ 40 * 3 + 2 ^ 30 * 1 + 2 ^ 20 * 0x202 + 2 ^ 10 * 3 + 0x2E0) ++
      toBytes 8 (2 ^ 32 * 16 + 2 ^ 30 * 3 + 2 ^ 20 * 1)) =
    .ok (.ld { f with wide := true, ty := 3, d := .v 1, a := .s 2, b := .v 3, c := .lit, lit := 16, ord := 1 }, 16) ∧
  -- the reserved guard code 12, the reserved operand code 0x2E1 and a block header are no instructions
  decodeBytes (toBytes 8 (2 ^ 55 * 0x02 + 2 ^ 44 * 12)) = .error .reservedGuard ∧
  decodeBytes (toBytes 8 (2 ^ 55 * 0x02 + 2 ^ 44 * 15 + 2 ^ 30 * 0x2E1)) = .error .reservedOperand ∧
  decodeBytes (toBytes 8 (2 ^ 55 * 0xFF + 2 ^ 44 * 15)) = .error .notInstruction

/-- R131, R267 to R273: every well-formed instruction decodes from its words to itself, with every operand, literal, guard and mode as it was, and in
as many bytes as it has words; what follows it does not matter. -/
def Obligations.EncodeDecodeRoundTrip : Prop :=
  ∀ (i : Instr) (rest : List Byte), i.wf = true → decodeBytes (encodeBytes i ++ rest) = .ok (i, 8 * (encode i).length)

/-- R267 to R273: whatever decodes is the encoding of what it decodes to: no bit of a word is dropped, and no two words decode alike. -/
def Obligations.DecodedWordsAreEncodings : Prop :=
  ∀ (l : List Byte) (i : Instr) (n : Nat), decodeBytes l = .ok (i, n) → encodeBytes i = l.take n

/-- The boot state's fields agree (R17, R21): a part that accepts jobs has completed step 6 without an error, ROMDONE stands once step 4 is completed, and an
error stops the boot before the last step. -/
def BootInv (b : Boot) : Prop :=
  b.stage ≤ 6 ∧ (b.romdone = true ↔ 4 ≤ b.stage) ∧ (b.ready = true ↔ b.stage = 6) ∧ (b.stage = 6 → b.err = 0)

/-- R17, R21: every step keeps the agreement of READY, ROMDONE, STAGE and ERR, from any state that has it; the module after reset has it. -/
def Obligations.StepKeepsBootStages : Prop :=
  BootInv State.reset.boot ∧ ∀ s t : State, BootInv s.boot → step s = .next t → BootInv t.boot

/-- R6, R167: every step keeps memory in its canonical form, so that equal memories are equal data. Where the rules leave a point open, the model's
choice stands (assumption log 2). -/
def Obligations.StepKeepsMemoryCanonical : Prop :=
  ∀ s t : State, Memory.wf s.m.mem = true → step s = .next t → Memory.wf t.m.mem = true

/-- R21, R58, R139, R197, R428: after reset no boot step is done and no error shows, the mailbox is empty, `%clk` is 0, memory lists no byte, the TLBs
are empty with their sequence at 0xACE1, and PTROOT and SHVBASE are 0. That MSI-X is off then is the model's choice and no value of the spec (log
5), as is what memory that nothing has written reads as (log 2). Where the rules leave a point open, the model's choice stands (assumption log 2,
3, 5). -/
def Obligations.ResetState : Prop :=
  let s := State.reset
  s.boot = { ready := false, romdone := false, stage := 0, err := 0, meas := [] } ∧
  s.host.owned = [] ∧ s.host.unread = [] ∧ s.host.dup = false ∧ s.host.mberr = 0 ∧ s.m.novf = false ∧ s.m.notices = [] ∧ s.m.clk = 0 ∧
  Memory.wf s.m.mem = true ∧ (∀ a, memGet s.m.mem a = 0) ∧
  (∀ c, (s.m.core c).l1 = { ents := [], lfsr := 0xACE1 } ∧ (s.m.core c).jobsel = 0 ∧ (s.m.core c).keydata = [] ∧ (s.m.core c).keystat = 0) ∧
  (∀ d, (s.m.die d).tlb = { ents := [], lfsr := 0xACE1 }) ∧ s.m.ptroot0 = 0 ∧ s.m.shvbase0 = 0 ∧ s.m.msixOn = false ∧ s.m.jobs = []

/-- R277, R278: an instruction of the opcode map whose guard no Active lane passes completes, moves the PCs past it, and changes no register, flag,
memory byte or other part of the machine; the counter of free values may move on (log 9: the guard's own read may be a free one, R163). -/
def Statement.EmptyGuardOnlyAdvances : Prop :=
  ∀ (i : Instr) (op : Nat) (f : Fields) (s : State) (pc : Word), i.parts = some (op, f) → canIssue s.m.cur = some pc → s.m.cur.late = none →
    (issueCtx s.m pc op f).e = 0 →
    ∃ u, exec i s = .next u ∧ u.boot = s.boot ∧ u.host = s.host ∧ u.m = { s.m with cur := u.m.cur, freeCtr := u.m.freeCtr } ∧
      CrewKept s.m.cur u.m.cur s.m.cur.flags s.m.cur.draw ∧ RegsKept [] (fun _ => []) s.m.cur u.m.cur ∧ PcsPast (issueCtx s.m pc op f) s.m.cur u.m.cur

/-- R248, R254: an instruction of the opcode map whose checks fail has none of its effect: the next state is that of the trap, or of the stall, taken
from the machine as it was before it. -/
def Statement.FailedCheckHasNoEffect : Prop :=
  ∀ (i : Instr) (op : Nat) (f : Fields) (s : State) (pc : Word) (h : Halt), i.parts = some (op, f) → canIssue s.m.cur = some pc →
    s.m.cur.late = none → (issueCtx s.m pc op f).e ≠ 0 → preCheck s.m s.m.cur (issueCtx s.m pc op f) (entryFor s.m s.m.cur op f) = .error h →
    exec i s = .next { s with m := halted s.m s.m.cur.tid pc h }

/-- R250: a trap detected late is delivered at the next instruction boundary, before whatever instruction stands there has any effect. -/
def Statement.LateTrapDeliveredFirst : Prop :=
  ∀ (i : Instr) (op : Nat) (f : Fields) (s : State) (pc : Word) (e : Exc), i.parts = some (op, f) → canIssue s.m.cur = some pc →
    s.m.cur.late = some e → exec i s = .next { s with m := takeTrap s.m s.m.cur.tid e }

/-- R248, R250, R254, R278: what holds of every instruction of the opcode map before its own effect: with E empty it only moves past itself, a failed
check leaves the machine to the trap or the stall, and a trap detected late comes first. Where the rules leave a point open, the model's choice
stands (assumption log 11, 37). -/
def Obligations.IssueRules : Prop := Statement.EmptyGuardOnlyAdvances ∧ Statement.FailedCheckHasNoEffect ∧ Statement.LateTrapDeliveredFirst

/-! ### Integer and logic instructions (R291 to R302) -/

/-- R294: `add`, `sub`, `mul`, `mad`, `neg`, `abs`, `min` and `max` complete with the sum, difference, low product, product plus C, negative,
magnitude, and smaller or larger operand, modulo 2^w, in the lanes of E, with the tag of R292; they change nothing else. -/
def Statement.SumAndProductResults : Prop :=
  ∀ (s : State) (f : Fields) (pc : Word), IntType f →
    (Issues s 0x02 f pc → GivesI s (.add f) 0x02 f pc addTag (fun x L => opA x x.y L + opB x x.y L)) ∧
    (Issues s 0x03 f pc → GivesI s (.sub f) 0x03 f pc addTag (fun x L => opA x x.y L - opB x x.y L)) ∧
    (Issues s 0x04 f pc → GivesI s (.mul f) 0x04 f pc plainTag (fun x L => opA x x.y L * opB x x.y L)) ∧
    (Issues s 0x06 f pc → GivesI s (.mad f) 0x06 f pc addTag (fun x L => opA x x.y L * opB x x.y L + opC x x.y L)) ∧
    (Issues s 0x0C f pc → GivesI s (.neg f) 0x0C f pc plainTag (fun x L => -opA x x.y L)) ∧
    (Issues s 0x0B f pc → GivesI s (.abs f) 0x0B f pc plainTag (fun x L => if negAt x.y (opA x x.y L) then -opA x x.y L else opA x x.y L)) ∧
    (Issues s 0x09 f pc → GivesI s (.min f) 0x09 f pc plainTag (fun x L => if leAt x.y (opA x x.y L) (opB x x.y L) then opA x x.y L else opB x x.y L)) ∧
    (Issues s 0x0A f pc → GivesI s (.max f) 0x0A f pc plainTag (fun x L => if leAt x.y (opA x x.y L) (opB x x.y L) then opB x x.y L else opA x x.y L))

/-- R294: `mulh` completes with bits [2w-1:w] of the exact product, signed or unsigned by its type. -/
def Statement.MultiplyHighResult : Prop :=
  ∀ (s : State) (f : Fields) (pc : Word), IntType f → Issues s 0x05 f pc →
    GivesI s (.mulh f) 0x05 f pc plainTag (fun x L => mulHigh x.y (opA x x.y L) (opB x x.y L))

/-- R294: the arithmetic of the integer types: sums, differences, products low and high, and the rest. -/
def Obligations.IntegerArithmeticResults : Prop := Statement.SumAndProductResults ∧ Statement.MultiplyHighResult

/-- R295: `div` and `rem` complete on any operand values: by zero with all ones and with A, and else with the truncated quotient and the remainder that
takes A's sign (the overflowing quotient wraps to itself, with remainder 0). -/
def Obligations.DivideResults : Prop :=
  ∀ (s : State) (f : Fields) (pc : Word), IntType f →
    (Issues s 0x07 f pc → GivesI s (.div f) 0x07 f pc plainTag
      (fun x L => if zeroAt x.y (opB x x.y L) then BitVec.allOnes 64 else quoAt x.y (opA x x.y L) (opB x x.y L))) ∧
    (Issues s 0x08 f pc → GivesI s (.rem f) 0x08 f pc plainTag
      (fun x L => if zeroAt x.y (opB x x.y L) then opA x x.y L else remAt x.y (opA x x.y L) (opB x x.y L)))

/-- R294, R302: `mov`, `and`, `or`, `xor`, `not`, `brev` and `sel` complete with the bit pattern of the rule and the tag of R142 rule 2; `popc` and
`clz` complete with a count, 32 bits, tag N32; `nop` completes with no effect. -/
def Statement.BitPatternResults : Prop :=
  ∀ (s : State) (f : Fields) (pc : Word), f.ty = 0 ∨ f.ty = 6 →
    (Issues s 0x01 f pc → GivesB s (.mov f) 0x01 f pc patA (fun x L => opA x x.y L)) ∧
    (Issues s 0x0D f pc → GivesB s (.and_ f) 0x0D f pc patAB (fun x L => opA x x.y L &&& opB x x.y L)) ∧
    (Issues s 0x0E f pc → GivesB s (.or_ f) 0x0E f pc patAB (fun x L => opA x x.y L ||| opB x x.y L)) ∧
    (Issues s 0x0F f pc → GivesB s (.xor f) 0x0F f pc patAB (fun x L => opA x x.y L ^^^ opB x x.y L)) ∧
    (Issues s 0x10 f pc → GivesB s (.not_ f) 0x10 f pc patA (fun x L => ~~~ opA x x.y L)) ∧
    (Issues s 0x19 f pc → GivesB s (.brev f) 0x19 f pc patA (fun x L => revAt x.y (opA x x.y L))) ∧
    (Issues s 0x1A f pc → GivesB s (.sel f) 0x1A f pc patAB (fun x L => if opC x 0 L = 1 then opA x x.y L else opB x x.y L)) ∧
    (Issues s 0x17 f pc → Gives s (.popc f) 0x17 f pc 32 false (fun _ => tN32) (fun x L => w64 (countM (opA x x.y L)))) ∧
    (Issues s 0x18 f pc → Gives s (.clz f) 0x18 f pc 32 false (fun _ => tN32)
      (fun x L => if tyBits x.y = 64 then (opA x x.y L).clz else (lo32 (opA x x.y L)).clz.setWidth 64)) ∧
    (Issues s 0x00 f pc → ∃ u, exec (.nop f) s = .next u ∧ RegStep s u (issueCtx s.m pc 0x00 f) (fun _ => []) s.m.cur.flags s.m.cur.draw)

/-- R296: shifts, rotates and bit fields complete with the values of the rule, counts of any size included. -/
def Statement.ShiftAndFieldResults : Prop :=
  ∀ (s : State) (f : Fields) (pc : Word),
    (f.ty = 0 ∨ f.ty = 6 →
      (Issues s 0x11 f pc → GivesB s (.shl f) 0x11 f pc patA (fun x L => shlAt x.y (opA x x.y L) (opB x 2 L).toNat)) ∧
      (Issues s 0x12 f pc → GivesB s (.shr f) 0x12 f pc patA (fun x L => shrAt x.y (opA x x.y L) (opB x 2 L).toNat)) ∧
      (Issues s 0x14 f pc → GivesB s (.rot f) 0x14 f pc patA (fun x L => rolAt x.y (opA x x.y L) (opB x 2 L).toNat)) ∧
      (Issues s 0x16 f pc → GivesB s (.bfi f) 0x16 f pc patDA (fun x L =>
        let w := tyBits x.y
        let p := min ((opB x 2 L).toNat % 256) w
        let k := shlAt x.y (w64 (2 ^ min ((opC x 2 L).toNat % 256) (w - p) - 1)) p
        (opD x x.y L &&& ~~~ k) ||| (shlAt x.y (opA x x.y L) p &&& k)))) ∧
    (f.ty = 1 ∨ f.ty = 4 → Issues s 0x13 f pc → GivesI s (.sar f) 0x13 f pc plainTag (fun x L => sarAt x.y (opA x x.y L) (opB x 2 L).toNat)) ∧
    (IntType f → Issues s 0x15 f pc → GivesI s (.bfx f) 0x15 f pc plainTag (fun x L =>
      let w := tyBits x.y
      let p := min ((opB x 2 L).toNat % 256) w
      let l := min ((opC x 2 L).toNat % 256) (w - p)
      let field := shrAt x.y (opA x x.y L) p &&& w64 (2 ^ l - 1)
      if l = 0 then 0
      else if (x.y = 1 ∨ x.y = 4) ∧ field.getLsbD (l - 1) = true then field ||| ~~~ w64 (2 ^ l - 1) else field))

/-- R294, R296, R302: bit patterns, counts, shifts, rotates, bit fields and `nop`. -/
def Obligations.BitAndShiftResults : Prop := Statement.BitPatternResults ∧ Statement.ShiftAndFieldResults

/-- R297: `cmp` completes with the comparison that its mode names, signed or unsigned by its type; `pbool` with bit 2a + b of its table. Both write a
`p` register in the lanes of E, or nothing for `pt`. The other modes, other destinations, and a `pbool` whose A or B is no `p` register and not
`pt`, are not well-formed. -/
def Obligations.CompareResults : Prop :=
  ∀ (s : State) (f : Fields) (pc : Word),
    (IntType f → modeOf f ≤ 5 → Issues s 0x1B f pc → GivesP s (.cmp f) 0x1B f pc (fun x L =>
      let a := opA x x.y L
      let b := opB x x.y L
      match modeOf f with
      | 0 => eqAt x.y a b
      | 1 => !eqAt x.y a b
      | 2 => !leAt x.y b a
      | 3 => leAt x.y a b
      | 4 => !leAt x.y a b
      | _ => leAt x.y b a)) ∧
    (Issues s 0x1C f pc → GivesP s (.pbool f) 0x1C f pc (fun x L =>
      (modeOf f).testBit (if opA x 0 L = 1 then (if opB x 0 L = 1 then 3 else 2) else (if opB x 0 L = 1 then 1 else 0)))) ∧
    ((Instr.cmp f).wf = true → modeOf f ≤ 5 ∧ (f.d = .pt ∨ ∃ r, f.d = .p r)) ∧
    ((Instr.pbool f).wf = true → modeOf f ≤ 15 ∧ (f.d = .pt ∨ ∃ r, f.d = .p r) ∧ (f.a = .pt ∨ ∃ r, f.a = .p r) ∧ (f.b = .pt ∨ ∃ r, f.b = .p r))

/-- R298, R299, R300: `addc` completes with A + B + c, and writes the carry to the `p` register that C names; `lea` with A plus the shifted index, tag
ADDR; `cvti` with the wrapped or saturated value of its source. Where the rules leave a point open, the model's choice stands (assumption log 14).
-/
def Obligations.CarryAddressConvertResults : Prop :=
  ∀ (s : State) (f : Fields) (pc : Word),
    (f.ty = 2 ∨ f.ty = 5 → Issues s 0x1D f pc →
      let x := issueCtx s.m pc 0x1D f
      ∃ u, exec (.addc f) s = .next u ∧
        (f.d ≠ f.c → Delivered x (tyBits x.y) false (plainTag x) (fun L => opA x x.y L + opB x x.y L + opC x 0 L) u.m.cur) ∧
        (∀ r, f.c = .p r → ∀ L ∈ dLanes x f.d,
          pBit u.m.cur r.val L = decide (2 ^ tyBits x.y ≤ (opA x x.y L).toNat + (opB x x.y L).toNat + (opC x 0 L).toNat)) ∧
        RegStep s u x (fun L => destRegs x (tyBits x.y) 1 L ++ (match f.c with | .p r => [(2, r.val)] | _ => [])) s.m.cur.flags s.m.cur.draw) ∧
    (f.ty = 1 ∨ f.ty = 2 ∨ f.ty = 4 → Issues s 0x1E f pc → Gives s (.lea f) 0x1E f pc 64 false (fun _ => tADDR) (fun x L =>
      opA x 4 L + (if x.y = 1 then sx (lo32 (opB x 1 L)) else opB x x.y L) <<< modeOf f)) ∧
    (Issues s 0x1F f pc → Gives s (.cvti f) 0x1F f pc (tyBits f.ty.toNat) (f.ty == 1) (fun x => cvtTag x.y) (fun x L =>
      let k := modeOf f % 64
      let v := (opA x k L).toNat
      ofI (cvtTo x.y (decide (64 ≤ modeOf f)) (if cvtSigned k then toSigned (cvtW k) v else (v % 2 ^ cvtW k : Nat)))))
/-! ### Crew-level instructions (R303 to R307) -/

/-- R303, R304, R306: `bcast`, `perm` and `shfl` complete: each lane of E receives A as the lane that the rule names held it, 0 from a lane at or
above the width; every other lane and register is as it was. -/
def Statement.LaneExchangeResults : Prop :=
  ∀ (s : State) (f : Fields) (pc : Word), f.ty = 0 ∨ f.ty = 6 →
    (Issues s 0x22 f pc → GivesB s (.bcast f) 0x22 f pc patA (fun x L => fromLane x L ((opB x 2 x.low).toNat % 64))) ∧
    (Issues s 0x24 f pc → GivesB s (.perm f) 0x24 f pc patA (fun x L => fromLane x L ((opB x 2 L).toNat % 64))) ∧
    (Issues s 0x25 f pc → modeOf f ≤ 3 → GivesB s (.shfl f) 0x25 f pc patA (fun x L =>
      let n := (opB x 2 x.low).toNat % 64
      let w := s.m.cur.width
      fromLane x L (match modeOf f with
        | 0 => if n ≤ L ∧ L - n < w then L - n else L
        | 1 => if L + n < w then L + n else L
        | 2 => if L ^^^ n < w then L ^^^ n else L
        | _ => if 0 < w then (L + n) % w else L)))

/-- R307: `compact` and `expand` complete: with e the lanes of E and k those whose B is 1, both ascending, `compact` gives the i-th of e A of the
i-th of k, `expand` the i-th of k A of the i-th of e; every other lane keeps D. -/
def Statement.CompactExpandResults : Prop :=
  ∀ (s : State) (f : Fields) (pc : Word) (r : BitVec 9), f.ty = 0 → f.d = .v r →
    (Issues s 0x26 f pc →
      let x := issueCtx s.m pc 0x26 f
      let sel := x.lanes.filter (fun L => opB x 0 L == 1)
      ∃ u, exec (.compact f) s = .next u ∧ RegStep s u x (destRegs x 32 1) s.m.cur.flags s.m.cur.draw ∧
        (∀ e ∈ x.lanes.zip sel, vGet u.m.cur r.toNat e.1 = lo32 (fromLane x e.1 e.2) ∧ vTag u.m.cur r.toNat = patA x) ∧
        (∀ L ∈ x.lanes, L ∉ (x.lanes.zip sel).map (·.1) → vGet u.m.cur r.toNat L = vGet s.m.cur r.toNat L)) ∧
    (Issues s 0x27 f pc →
      let x := issueCtx s.m pc 0x27 f
      let sel := x.lanes.filter (fun L => opB x 0 L == 1)
      ∃ u, exec (.expand f) s = .next u ∧ RegStep s u x (destRegs x 32 1) s.m.cur.flags s.m.cur.draw ∧
        (∀ e ∈ sel.zip x.lanes, vGet u.m.cur r.toNat e.1 = lo32 (fromLane x e.1 e.2) ∧ vTag u.m.cur r.toNat = patA x) ∧
        (∀ L ∈ x.lanes, L ∉ sel → vGet u.m.cur r.toNat L = vGet s.m.cur r.toNat L))

/-- R304, R305: `vote` completes with the ballot of E, followed by the release test of R313, or with the agreement of its lanes; `elect` with the
lowest lane of E; `gscan` with the prefix in ascending lane order from the identity, each step one combination of the type. -/
def Statement.VoteElectScanResults : Prop :=
  ∀ (s : State) (f : Fields) (pc : Word),
    (Issues s 0x20 f pc →
      let x := issueCtx s.m pc 0x20 f
      let on := x.lanes.filter (fun L => opA x 0 L != 0)
      let r := if modeOf f = 1 then decide (∀ L ∈ x.lanes, opA x 0 L ≠ 0) else if modeOf f = 2 then decide (∃ L ∈ x.lanes, opA x 0 L ≠ 0)
        else decide (∀ L ∈ x.lanes, ∀ K ∈ x.lanes, (opA x 0 L ≠ 0 ↔ opA x 0 K ≠ 0))
      (modeOf f = 0 → (∃ r, f.d = .s r) ∨ (∃ r, f.d = .m r) → ∃ u, exec (.vote f) s = .next (tested u) ∧
        Delivered x 64 false tRAW (fun _ => maskOf on) u.m.cur ∧ RegStep s u x (destRegs x 64 1) s.m.cur.flags s.m.cur.draw) ∧
      (modeOf f = 1 ∨ modeOf f = 2 ∨ modeOf f = 3 → (∃ r, f.d = .s r) →
        Gives s (.vote f) 0x20 f pc 64 false (fun _ => tN32) (fun _ _ => if r then 1 else 0)) ∧
      (modeOf f = 1 ∨ modeOf f = 2 ∨ modeOf f = 3 → (∃ r, f.d = .p r) ∨ f.d = .pt → GivesP s (.vote f) 0x20 f pc (fun _ _ => r))) ∧
    (Issues s 0x21 f pc →
      ((∃ r, f.d = .s r) → Gives s (.elect f) 0x21 f pc 32 false (fun _ => tN32) (fun x _ => w64 x.low)) ∧
      ((∃ r, f.d = .p r) ∨ f.d = .pt → GivesP s (.elect f) 0x21 f pc (fun x L => L == x.low))) ∧
    (f.ty = 1 ∨ f.ty = 2 ∨ f.ty = 3 ∨ f.ty = 4 ∨ f.ty = 5 → Issues s 0x23 f pc →
      let x := issueCtx s.m pc 0x23 f
      let y := f.ty.toNat
      let op := modeOf f % 8
      let sum (ls : List Nat) : Word := ls.foldl (fun a K => (scanOp y op a (opA x y K)).1) (scanId y op)
      ∃ u fl, exec (.gscan f) s = .next u ∧ (y ≠ 3 → fl = s.m.cur.flags) ∧
        Delivered x (tyBits y) false (if y = 3 then tF32 else plainTag x)
          (fun L => sum (x.lanes.filter (fun K => if 8 ≤ modeOf f then decide (K < L) else decide (K ≤ L)))) u.m.cur ∧
        RegStep s u x (destRegs x (tyBits y) 1) fl s.m.cur.draw)

/-- R303 to R307: the instructions that move values between the lanes of a crew, and `vote`, `elect` and `gscan`. Where the rules leave a point open,
the model's choice stands (assumption log 14). -/
def Obligations.CrewExchangeResults : Prop := Statement.LaneExchangeResults ∧ Statement.CompactExpandResults ∧ Statement.VoteElectScanResults

/-! ### Transfers of control (R308 to R315) -/

/-- R308, R310, R311: when the targets pass the checks of R309, `br`, `brx`, `call`, `callx`, `ret` and `loop` complete: the lanes of E go to their
targets (for `loop`, whose target is checked for every lane of E, those whose counter is not 0 after its decrement), the other Active lanes past the instruction; `call` and `callx` leave the
return address with tag ADDR in their link, `loop` the decremented counter; no other register changes. -/
def Statement.TransfersMoveTheirLanes : Prop :=
  ∀ (s : State) (f : Fields) (pc : Word),
    (∀ m, Issues s 0x30 f pc → let x := issueCtx s.m pc 0x30 f
      checkTargets (issued s.m pc 0x30 f) x false false (toDirect x) = .ok m →
      ∃ u, exec (.br f) s = .next u ∧ Moved s u x (fun _ => []) (fun L => if inM x.e L then some (directTarget x) else none)) ∧
    (∀ m, Issues s 0x31 f pc → let x := issueCtx s.m pc 0x31 f
      checkTargets (issued s.m pc 0x31 f) x true false (toReg x) = .ok m →
      ∃ u, exec (.brx f) s = .next u ∧ Moved s u x (fun _ => []) (fun L => if inM x.e L then some (opA x 15 L) else none)) ∧
    (∀ m, Issues s 0x34 f pc → let x := issueCtx s.m pc 0x34 f
      checkTargets (issued s.m pc 0x34 f) x true false (toReg x) = .ok m →
      ∃ u, exec (.ret f) s = .next u ∧ Moved s u x (fun _ => []) (fun L => if inM x.e L then some (opA x 15 L) else none)) ∧
    (∀ m, Issues s 0x32 f pc → let x := issueCtx s.m pc 0x32 f
      checkTargets (issued s.m pc 0x32 f) x false false (toDirect x) = .ok m →
      ∃ u, exec (.call f) s = .next u ∧ Delivered x 64 false tADDR (fun _ => pc + w64 (lenOf f)) u.m.cur ∧
        Moved s u x (destRegs x 64 1) (fun L => if inM x.e L then some (directTarget x) else none)) ∧
    (∀ m, Issues s 0x33 f pc → let x := issueCtx s.m pc 0x33 f
      checkTargets (issued s.m pc 0x33 f) x true true (toReg x) = .ok m →
      ∃ u, exec (.callx f) s = .next u ∧ Delivered x 64 false tADDR (fun _ => pc + w64 (lenOf f)) u.m.cur ∧
        Moved s u x (destRegs x 64 1) (fun L => if inM x.e L then some (opA x 15 L) else none)) ∧
    (∀ m, IntType f → Issues s 0x35 f pc → let x := issueCtx s.m pc 0x35 f
      let y := f.ty.toNat
      let left (L : Nat) : Word := opD x y (match f.d with | .s _ => x.low | _ => L) - 1
      let more (L : Nat) : Bool := if tyBits y = 64 then left L != 0 else lo32 (left L) != 0
      checkTargets (issued s.m pc 0x35 f) x false false (toDirect x) = .ok m →
      ∃ u, exec (.loop f) s = .next u ∧ Delivered x (tyBits y) (y == 1) (plainTag x) left u.m.cur ∧
        Moved s u x (destRegs x (tyBits y) 1) (fun L => if inM x.e L && more L then some (directTarget x) else none))

/-- R308 to R311: a transfer of any kind whose check fails moves no lane: the state is that of the trap, or of the stall, taken from the machine as it was. A
register target of `brx`, `ret` and `callx` that is misaligned raises BADTARGET of a lane of E, as does the word of a target that is no header, or for `callx`
no entry header; so does a target word outside the page for the direct transfers. -/
def Statement.TransferCheckFails : Prop :=
  ∀ (s : State) (f : Fields) (pc : Word),
    let cx (op : Nat) : Ctx := issueCtx s.m pc op f
    let fails (i : Instr) (op : Nat) (reg entry : Bool) (ts : List (Nat × Word)) : Prop := Issues s op f pc →
      ∀ h, checkTargets (issued s.m pc op f) (cx op) reg entry ts = .error h → exec i s = .next { s with m := halted s.m s.m.cur.tid pc h }
    -- a lane whose target is misaligned, or leads to a word that is no header, in an address space that maps the targets
    let bad (m : Mach) (entry : Bool) (t : Word) : Prop := t.toNat % 8 ≠ 0 ∨
      ∃ o, check1 m (whoOf m.cur) 4 false { lane := 0, va := t.toNat, size := 8 } = .ok o ∧
        (isHeader (memNum m.mem o.pa 8) = false ∨ entry = true ∧ hdrEntry (memNum m.mem o.pa 8) = false)
    let traps (i : Instr) (op : Nat) (entry : Bool) (ts : List (Nat × Word)) : Prop := Issues s op f pc →
      (∃ t ∈ ts, bad (ts.foldl (fun m t => demandPage m m.cur.core m.cur.job t.2.toNat) (issued s.m pc op f)) entry t.2) →
      ∃ t ∈ ts, ∃ w, exec i s = .next { s with m := halted s.m s.m.cur.tid pc (badTarget t.1 t.2 w) }
    fails (.br f) 0x30 false false (toDirect (cx 0x30)) ∧ fails (.brx f) 0x31 true false (toReg (cx 0x31)) ∧
    fails (.call f) 0x32 false false (toDirect (cx 0x32)) ∧ fails (.callx f) 0x33 true true (toReg (cx 0x33)) ∧
    fails (.ret f) 0x34 true false (toReg (cx 0x34)) ∧ fails (.loop f) 0x35 false false (toDirect (cx 0x35)) ∧
    traps (.brx f) 0x31 false (toReg (cx 0x31)) ∧ traps (.callx f) 0x33 true (toReg (cx 0x33)) ∧ traps (.ret f) 0x34 false (toReg (cx 0x34)) ∧
    ((directTarget (cx 0x30)).toNat / 4096 ≠ pc.toNat / 4096 → traps (.br f) 0x30 false (toDirect (cx 0x30))) ∧
    ((directTarget (cx 0x32)).toNat / 4096 ≠ pc.toNat / 4096 → traps (.call f) 0x32 false (toDirect (cx 0x32))) ∧
    ((directTarget (cx 0x35)).toNat / 4096 ≠ pc.toNat / 4096 → traps (.loop f) 0x35 false (toDirect (cx 0x35)))

/-- R308 to R311: where the transfers of control send their lanes, and that a failed check of the target moves none. Where the rules leave a point
open, the model's choice stands (assumption log 15). -/
def Obligations.TransferResults : Prop := Statement.TransfersMoveTheirLanes ∧ Statement.TransferCheckFails

/-- R312, R313, R314, R315: `exit` takes the lanes of E from the live set, and with the last one commits the segment and ends the task; `msync` makes
the lanes of E that are in its mask wait at it; `mset` writes the mask of its mode, the bits at or above the width cleared; all three make the
release test. `yield` demotes the crew, or switches it out for a pending pre-emption. -/
def Obligations.ExitSyncYieldResults : Prop :=
  ∀ (s : State) (f : Fields) (pc : Word),
    (Issues s 0x36 f pc →
      let x := issueCtx s.m pc 0x36 f
      let c := (issued s.m pc 0x36 f).cur
      let left := syncTest { c with live := s.m.cur.live &&& ~~~ x.e }
      (s.m.cur.live &&& ~~~ x.e ≠ 0 → ∃ u, exec (.exit f) s = .next u ∧ u.m.cur = left ∧ OnlyCrew s u ∧ u.m.cur.live = s.m.cur.live &&& ~~~ x.e ∧
        RegsKept x.lanes (fun _ => []) s.m.cur u.m.cur) ∧
      (s.m.cur.live &&& ~~~ x.e = 0 → ∀ m, commit { issued s.m pc 0x36 f with cur := left } = .ok m →
        exec (.exit f) s = .next { s with m := park m m.cur.tid (.join .taskEnd) }) ∧
      (s.m.cur.live &&& ~~~ x.e = 0 → ∀ h, commit { issued s.m pc 0x36 f with cur := left } = .error h →
        exec (.exit f) s = .next { s with m := halted s.m s.m.cur.tid pc h })) ∧
    (∀ r, f.a = .m r → Issues s 0x37 f pc →
      let x := issueCtx s.m pc 0x37 f
      let w := x.e &&& mGet s.m.cur r.toNat
      ∃ u, exec (.msync f) s = .next u ∧ OnlyCrew s u ∧ RegsKept x.lanes (fun _ => []) s.m.cur u.m.cur ∧
        (w = 0 → PcsPast x s.m.cur u.m.cur ∧ u.m.cur.waiting = s.m.cur.waiting) ∧
        (w ≠ 0 → ∃ c, u.m.cur = syncTest c ∧ c.waiting = s.m.cur.waiting ||| w ∧
          (∀ L, L < s.m.cur.pcs.length → inM w L = true → pcOf c L = pc) ∧ (pc, r.toNat, lenOf f) ∈ c.syncs)) ∧
    (∀ r, f.d = .m r → Issues s 0x38 f pc →
      let x := issueCtx s.m pc 0x38 f
      let v := match modeOf f with
        | 0 => opA x 6 x.low
        | 1 => opA x 6 x.low &&& opB x 6 x.low
        | 2 => opA x 6 x.low ||| opB x 6 x.low
        | 3 => opA x 6 x.low &&& ~~~ opB x 6 x.low
        | _ => x.e
      ∃ u, exec (.mset f) s = .next (tested u) ∧ mGet u.m.cur r.toNat = v &&& lanesBelow s.m.cur.width ∧
        RegStep s u x (destRegs x 64 1) s.m.cur.flags s.m.cur.draw) ∧
    (Issues s 0x39 f pc →
      (s.m.cur.pre = none → ∃ u, exec (.yield f) s = .next u ∧ u.m.cur.demoted = true ∧ OnlyCrew s u ∧
        RegsKept [] (fun _ => []) s.m.cur u.m.cur) ∧
      (s.m.cur.pre ≠ none → exec (.yield f) s = .next { s with m := preemptOut (issued s.m pc 0x39 f) s.m.cur.tid }))

/-! ### Floating point and number formats (R317 to R346) -/

/-- R324 to R331: `fadd`, `fsub`, `fmul`, `ffma`, `fdiv` and `fsqrt` complete: per lane and element the exact result, rounded once by the mode (to
nearest for `ffma`), with the tag of the type; the sticky flags gather, and the draw index advances under stochastic rounding alone. -/
def Obligations.FloatArithmeticResults : Prop :=
  ∀ (s : State) (f : Fields) (pc : Word), f.ty = 3 ∨ f.ty = 7 ∨ f.ty = 8 →
    let y := f.ty.toNat
    let rm := modeOf f
    let d := decF (fmtOf y)
    (Issues s 0x40 f pc → GivesE s (.fadd f) 0x40 f pc rm (fun L j a b _ => roundTo y rm (rsBits s rm L j) (addEx rm (d a) (d b), 0))) ∧
    (Issues s 0x41 f pc → GivesE s (.fsub f) 0x41 f pc rm (fun L j a b _ => roundTo y rm (rsBits s rm L j) (addEx rm (d a) (negFV (d b)), 0))) ∧
    (Issues s 0x42 f pc → GivesE s (.fmul f) 0x42 f pc rm (fun L j a b _ => roundTo y rm (rsBits s rm L j) (mulEx (d a) (d b), 0))) ∧
    (Issues s 0x43 f pc → GivesE s (.ffma f) 0x43 f pc 0 (fun _ _ a b c => roundEx (fmtOf y) 0 0 (fmaEx 0 (d a) (d b) (d c)))) ∧
    (Issues s 0x4C f pc → GivesE s (.fdiv f) 0x4C f pc rm (fun L j a b _ => roundTo y rm (rsBits s rm L j) (divEx (d a) (d b)))) ∧
    (Issues s 0x4B f pc → GivesE s (.fsqrt f) 0x4B f pc rm (fun L j a _ _ => roundTo y rm (rsBits s rm L j) (sqrtEx (d a), 0)))

/-- R331: `fabs` and `fneg` clear and invert the sign bit of every element and set no flag; `fmin` and `fmax` give a number when one operand is a
number, the canonical NaN when both are NaN, and set a flag only for a signalling NaN. -/
def Statement.SignAndMinMax : Prop :=
  ∀ (s : State) (f : Fields) (pc : Word), f.ty = 3 ∨ f.ty = 7 ∨ f.ty = 8 →
    let y := f.ty.toNat
    let w := if y = 3 then 32 else 16
    (Issues s 0x46 f pc → GivesE s (.fabs f) 0x46 f pc 0 (fun _ _ a _ _ => (a % 2 ^ (w - 1), 0))) ∧
    (Issues s 0x47 f pc → GivesE s (.fneg f) 0x47 f pc 0 (fun _ _ a _ _ => (if a < 2 ^ (w - 1) then a + 2 ^ (w - 1) else a - 2 ^ (w - 1), 0))) ∧
    (Issues s 0x44 f pc → GivesE s (.fmin f) 0x44 f pc 0 (fun _ _ a b _ => minMaxF (fmtOf y) false a b)) ∧
    (Issues s 0x45 f pc → GivesE s (.fmax f) 0x45 f pc 0 (fun _ _ a b _ => minMaxF (fmtOf y) true a b)) ∧
    ∀ a b, a < 2 ^ w → b < 2 ^ w →
      (isNan (decF (fmtOf y) a) = true → isNan (decF (fmtOf y) b) = true → ∀ hi, (minMaxF (fmtOf y) hi a b).1 = (fmtOf y).nan) ∧
      (isNan (decF (fmtOf y) a) = true → isNan (decF (fmtOf y) b) = false → ∀ hi, (minMaxF (fmtOf y) hi a b).1 = b ∧ (minMaxF (fmtOf y) hi b a).1 = b)

/-- R318, R327: an operation on a NaN operand gives the canonical NaN: the exact sum, product, fused product, quotient and root of a NaN are NaN, and
a NaN rounds to the canonical encoding of the format. -/
def Statement.NanIsCanonical : Prop :=
  ∀ (v w z : FV) (fmt : Fmt) (rm r : Nat),
    (isNan v = true ∨ isNan w = true →
      (∃ n, addEx rm v w = .nan n) ∧ (∃ n, mulEx v w = .nan n) ∧ (∃ n, (divEx v w).1 = .nan n) ∧ (∃ n, fmaEx rm v w z = .nan n) ∧
      (∃ n, fmaEx rm z v w = .nan n)) ∧
    (isNan v = true → ∃ n, sqrtEx v = .nan n) ∧ ∀ n, (roundEx fmt rm r (.nan n)).1 = fmt.nan

/-- R318, R327, R331: signs, minima and maxima, and the canonical NaN. -/
def Obligations.SignAndMinMaxResults : Prop := Statement.SignAndMinMax ∧ Statement.NanIsCanonical

/-- R332: `fcmp` completes with the relation of its mode, false for a NaN operand but for `.ne` and `.un`, and sets NV for any NaN under the ordered
modes and for a signalling one under the others; no other flag changes. Other modes are not well-formed. -/
def Obligations.FloatCompareResult : Prop :=
  (∀ (s : State) (f : Fields) (pc : Word), modeOf f ≤ 7 → Issues s 0x48 f pc →
    let x := issueCtx s.m pc 0x48 f
    let a (L : Nat) : FV := decF f32 (opA x 3 L).toNat
    let b (L : Nat) : FV := decF f32 (opB x 3 L).toNat
    let nan (L : Nat) : Bool := isNan (a L) || isNan (b L)
    let ord := decide (2 ≤ modeOf f ∧ modeOf f ≤ 5)
    ∃ u, exec (.fcmp f) s = .next u ∧
      DeliveredP x (fun L =>
        match modeOf f with
        | 0 => !nan L && cmpFV (a L) (b L) == 0
        | 1 => nan L || cmpFV (a L) (b L) != 0
        | 2 => !nan L && decide (cmpFV (a L) (b L) < 0)
        | 3 => !nan L && decide (cmpFV (a L) (b L) ≤ 0)
        | 4 => !nan L && decide (0 < cmpFV (a L) (b L))
        | 5 => !nan L && decide (0 ≤ cmpFV (a L) (b L))
        | 6 => nan L
        | _ => !nan L) u.m.cur ∧
      RegStep s u x (destRegs x 32 1)
        (s.m.cur.flags ||| (if ∃ L ∈ x.lanes, (ord && nan L || isSig (a L) || isSig (b L)) = true then fNV else 0)) s.m.cur.draw) ∧
  ∀ f, (Instr.fcmp f).wf = true → modeOf f ≤ 7 ∧ (f.d = .pt ∨ ∃ r, f.d = .p r)

/-- R333, R334: `frcp`, `frsq`, `fexp2`, `flog2`, `fsin`, `fcos` and `ftanh` complete on any operand, with the value and flags of the function, tag F32. -/
def Statement.FunctionResults : Prop :=
  ∀ (s : State) (f : Fields) (pc : Word), f.ty = 3 →
    (Issues s 0x49 f pc → GivesE s (.frcp f) 0x49 f pc 0 (fun _ _ a _ _ => roundTo 3 0 0 (divEx (.num false 1 0) (decF f32 a)))) ∧
    (Issues s 0x4A f pc → GivesE s (.frsq f) 0x4A f pc 0 (fun _ _ a _ _ => roundTo 3 0 0 (rsqEx (decF f32 a)))) ∧
    (Issues s 0x4D f pc → GivesE s (.fexp2 f) 0x4D f pc 0 (fun _ _ a _ _ => exp2F (decF f32 a))) ∧
    (Issues s 0x4E f pc → GivesE s (.flog2 f) 0x4E f pc 0 (fun _ _ a _ _ => log2F (decF f32 a))) ∧
    (Issues s 0x4F f pc → GivesE s (.fsin f) 0x4F f pc 0 (fun _ _ a _ _ => trigF false (decF f32 a))) ∧
    (Issues s 0x50 f pc → GivesE s (.fcos f) 0x50 f pc 0 (fun _ _ a _ _ => trigF true (decF f32 a))) ∧
    (Issues s 0x51 f pc → GivesE s (.ftanh f) 0x51 f pc 0 (fun _ _ a _ _ => tanhF (decF f32 a)))

/-- R335, R336, R337, R339: `frnd`, `ftoi`, `itof`, `fcvt`, `fpack`, `funpk` and `fclass` complete with the converted value, its tag and its flags; a
conversion to an integer saturates to the bounds of its type, and gives 0 for a NaN. -/
def Statement.ConversionResults : Prop :=
  ∀ (s : State) (f : Fields) (pc : Word),
    let y := f.ty.toNat
    let rm := modeOf f
    (f.ty = 3 → Issues s 0x52 f pc → GivesE s (.frnd f) 0x52 f pc rm (fun L j a _ _ => frndV rm (rsBits s rm L j) (decF f32 a))) ∧
    (IntType f → Issues s 0x53 f pc → GivesF s (.ftoi f) 0x53 f pc rm (tyBits y) (y == 1) (intTag y) (fun x L =>
      let q := ftoiV y rm (drawOf (seedOf s.m) s.m.cur L 0) (decF f32 (opA x 3 L).toNat)
      (wrapTo 64 q.1, q.2))) ∧
    (IntType f → ∀ r v, intLo y ≤ (ftoiV y rm r v).1 ∧ (ftoiV y rm r v).1 ≤ intHi y ∧ (isNan v = true → ftoiV y rm r v = (0, fNV))) ∧
    (IntType f → Issues s 0x54 f pc → GivesF s (.itof f) 0x54 f pc rm 32 false tF32 (fun x L =>
      roundEx f32 rm (drawOf (seedOf s.m) s.m.cur L 0) (exOfInt (iVal y (opA x y L)) 0 false))) ∧
    (Issues s 0x55 f pc →
      let k := fcvtSrc rm
      let e := match immOf f.b with | some q => q.toNat | none => 0
      (f.ty = 3 → GivesF s (.fcvt f) 0x55 f pc (rm % 8) 32 false tF32 (fun x L => roundEx f32 0 0 (exOf (decF (fmtOf k) (packGet k (opA x k L).toNat e))))) ∧
      (f.ty ≠ 3 → GivesF s (.fcvt f) 0x55 f pc (rm % 8) 32 false (yTag y) (fun x L =>
        let q := roundEx (fmtOf y) (rm % 8) (drawOf (seedOf s.m) s.m.cur L e) (exOf (decF f32 (opA x 3 L).toNat))
        (packMake (packW y) (((List.range (packN y)).map (packGet y (opD x 0 L).toNat)).set e q.1), q.2)))) ∧
    (Issues s 0x56 f pc → GivesF s (.fpack f) 0x56 f pc rm 32 false (yTag y) (fun x L =>
      let es := ((runA x (packN y) L).zip (List.range 8)).map (fun a =>
        roundEx (fmtOf y) rm (drawOf (seedOf s.m) s.m.cur L a.2) (exOf (decF f32 a.1)))
      (packMake (packW y) (es.map (·.1)), allFlags (es.map (·.2))))) ∧
    (Issues s 0x57 f pc → GivesRun s (.funpk f) 0x57 f pc 0 (packN y) tF32 (fun x L j =>
      roundEx f32 0 0 (exOf (decF (fmtOf y) (packGet y (opA x y L).toNat j))))) ∧
    (Issues s 0x5A f pc → Gives s (.fclass f) 0x5A f pc 32 false (fun _ => tN32) (fun x L => w64 (classOf (opA x 3 L).toNat)))

/-- R333 to R337, R339: the functions of F32 and the conversions between formats. Where the rules leave a point open, the model's choice stands
(assumption log 10). -/
def Obligations.FunctionAndConversionResults : Prop := Statement.FunctionResults ∧ Statement.ConversionResults

/-- R338, R340 to R344: `fdot2`, `fdot4`, `hist`, `qscale`, `quant`, `dquant`, `cbdec` and `cbenc` complete with the dot product rounded once, the
exponent that clips the rank given (with NV for a signalling NaN among its operands), the block scale, the quantised and dequantised elements, and
the decoded and encoded codebook values. Where the rules leave a point open, the model's choice stands (assumption log 17). -/
def Obligations.DotQuantCodebookResults : Prop :=
  ∀ (s : State) (f : Fields) (pc : Word),
    let y := f.ty.toNat
    let rm := modeOf f
    (Issues s 0x58 f pc → GivesF s (.fdot2 f) 0x58 f pc 0 32 (y == 11) (if y = 11 then tI32 else if y = 12 then tN32 else tF32) fdotLane) ∧
    (Issues s 0x59 f pc → GivesF s (.fdot4 f) 0x59 f pc 0 32 (y == 11) (if y = 11 then tI32 else if y = 12 then tN32 else tF32) fdotLane) ∧
    (Issues s 0x5B f pc → GivesF s (.hist f) 0x5B f pc 0 32 true tI32 (fun x _ =>
      let es := x.lanes.flatMap (fun L => (runA x rm L).map (decF f32))
      ((ofI ((clipExp es ((opB x 2 x.low).toNat % 256)).getD (-(2 ^ 31)))).toNat, if es.any isSig then fNV else 0))) ∧
    (Issues s 0x5C f pc → Gives s (.qscale f) 0x5C f pc 32 false (fun _ => tN32) (fun x L =>
      w64 (scaleOf y (if opA x 1 L = 0x80000000 then none else some (lo32 (opA x 1 L)).toInt)))) ∧
    (Issues s 0x5D f pc → GivesF s (.quant f) 0x5D f pc rm 32 false (if y = 9 ∨ y = 10 then yTag y else yTag 13) (fun x L =>
      let n := if y = 9 ∨ y = 10 then 4 else 8
      let es := ((runA x n L).zip (List.range 8)).map (fun a =>
        quantElem y rm (drawOf (seedOf s.m) s.m.cur L a.2) (decF f32 a.1) ((opB x 2 L).toNat % 256))
      (packMake (if y = 9 ∨ y = 10 then 8 else 4) (es.map (·.1)), allFlags (es.map (·.2))))) ∧
    (Issues s 0x5E f pc → GivesRun s (.dquant f) 0x5E f pc rm (packN y) tF32 (fun x L j =>
      dquantElem y rm (drawOf (seedOf s.m) s.m.cur L j) (packGet y (opA x y L).toNat j) ((opB x 2 L).toNat % 256))) ∧
    (Issues s 0x5F f pc → GivesRun s (.cbdec f) 0x5F f pc 0 2 (yTag 13) (fun x L j =>
      (packMake 4 ((cbDecode (tableOf x) (packGet 14 (opA x 14 L).toNat j)).map (wrapTo 4)), 0))) ∧
    (Issues s 0x60 f pc → Gives s (.cbenc f) 0x60 f pc 32 false (fun _ => yTag 14) (fun x L =>
      w64 (cbEncode (tableOf x) (vec4 (opA x 13 L)) + 2 ^ 16 * cbEncode (tableOf x) (vec4 (opB x 13 L)))))

/-- R345, R346: `tagset` completes by giving D's registers the tag of A and leaving their values; a tag that the form does not allow raises FMTTAG.
`tagget` reads the tag of A's register, and the forms for the sticky flags clear, set and read them. Where the rules leave a point open, the
model's choice stands (assumption log 14). -/
def Obligations.TagAndFlagResults : Prop :=
  ∀ (s : State) (f : Fields) (pc : Word),
    (Issues s 0x62 f pc →
      let x := issueCtx s.m pc 0x62 f
      let t := (opA x 2 x.low).toNat
      (f.ty = 0 → t ≤ 11 → ∀ r, f.d = .v r → ∃ u, exec (.tagset f) s = .next u ∧ vTag u.m.cur r.toNat = BitVec.ofNat 4 t ∧
        (∀ q L, L < 64 → vGet u.m.cur q L = vGet s.m.cur q L) ∧ RegStep s u x (destRegs x 32 1) s.m.cur.flags s.m.cur.draw) ∧
      (f.ty = 6 → t = 0 ∨ t = 12 ∨ t = 13 → ∀ r, f.d = .v r → ∃ u, exec (.tagset f) s = .next u ∧ vTag u.m.cur r.toNat = BitVec.ofNat 4 t ∧
        vTag u.m.cur (r.toNat + 1) = BitVec.ofNat 4 t ∧ (∀ q L, L < 64 → vGet u.m.cur q L = vGet s.m.cur q L) ∧
        RegStep s u x (destRegs x 64 1) s.m.cur.flags s.m.cur.draw) ∧
      (∀ r, f.d = .s r → (if f.ty = 6 then t = 0 ∨ t = 12 ∨ t = 13 else t ≤ 11) → ∃ u, exec (.tagset f) s = .next u ∧
        sTag u.m.cur r.toNat = BitVec.ofNat 4 t ∧ (∀ q, sGet u.m.cur q = sGet s.m.cur q) ∧
        RegStep s u x (destRegs x 32 1) s.m.cur.flags s.m.cur.draw) ∧
      (¬ (if f.ty = 6 then t = 0 ∨ t = 12 ∨ t = 13 else t ≤ 11) →
        exec (.tagset f) s = .next { s with m := halted s.m s.m.cur.tid pc (trapOf 0x03 none 1 (w64 t) (w64 (encodeCode f.a)) 0) }) ∧
      (∃ u, exec (.tagsetFclr f) s = .next u ∧ RegStep s u x (fun _ => []) (s.m.cur.flags &&& ~~~ BitVec.ofNat 5 t) s.m.cur.draw) ∧
      (∃ u, exec (.tagsetFset f) s = .next u ∧ RegStep s u x (fun _ => []) (s.m.cur.flags ||| BitVec.ofNat 5 t) s.m.cur.draw)) ∧
    (Issues s 0x63 f pc →
      Gives s (.tagget f) 0x63 f pc 32 false (fun _ => tN32) (fun x L => w64 (match f.a with
        | .v r => vTag x.ca r.toNat
        | .ind r k => vTag x.ca (effReg x.ca r k L)
        | .s r => sTag x.ca r.toNat
        | .p _ => tN32
        | .spec r => specTag r.toNat
        | _ => tRAW).toNat) ∧
      Gives s (.taggetFlags f) 0x63 f pc 32 false (fun _ => tN32) (fun _ _ => w64 s.m.cur.flags.toNat))

/-! ### Memory, segments and atomics (R173, R200 to R207, R348 to R362) -/

/-- R172, R173: when the checks of a list of accesses pass, every access is in the 57-bit space, outside the BTE aperture and aligned, its leaf gives
its address and allows its kind, and it reaches the host aperture only where the operation may; besides TLBs, `A` and `D` bits, line fills and pages
that Lennas maps, the machine is as it was. -/
def Statement.PassedChecks : Prop :=
  ∀ (m m' : Mach) (w : Who) (kind : Nat) (ap : Bool) (l : List Acc) (oks : List Ok), checkAll m w kind ap l = .ok (m', oks) →
    TransKept m m' ∧ oks.map (·.acc) = l ∧
    ∀ o ∈ oks, inBte o.acc.va = false ∧ o.acc.va < 2 ^ 57 ∧ o.acc.va % o.acc.size = 0 ∧ o.pa = paOf o.leaf o.acc.va ∧
      (kind = 1 ∨ kind = 3 → lfR o.leaf = true) ∧ (kind = 2 ∨ kind = 3 → lfW o.leaf = true) ∧ (kind = 4 → lfX o.leaf = true) ∧
      (lfSUP o.leaf = true → w.sup = true) ∧ (kind = 3 → lfVIEW o.leaf = false) ∧ (isAperture o.pa = true → ap = true)

/-- R173, R253: an access that no page can serve traps by the first check it fails: beyond 57 bits XLATE, misaligned ALIGN, both with the lane and
the address. -/
def Statement.AddressFaults : Prop :=
  ∀ (m : Mach) (w : Who) (kind : Nat) (ap : Bool) (a : Acc), inBte a.va = false →
    (2 ^ 57 ≤ a.va → check1 m w kind ap a = .error (1, trapOf 0x20 (some a.lane) (w64 a.va) (w64 (kind * 256 + 6)) 0 0)) ∧
    (a.va < 2 ^ 57 → a.va % a.size ≠ 0 → check1 m w kind ap a = .error (2, trapOf 0x22 (some a.lane) (w64 a.va) (w64 a.size) 0 0))

/-- R172, R173, R253: what the checks of an access let pass, and how the address faults are reported. Where the rules leave a point open, the model's
choice stands (assumption log 7). -/
def Obligations.AccessChecks : Prop := Statement.PassedChecks ∧ Statement.AddressFaults

/-- R196, R201, R205: a plain store of bytes within a line, while the segment and the line's set have room, leaves committed memory as it is; the task reads the bytes there and
every other byte as before; the segment keeps its form. -/
def Statement.PlainStoreIsHeldBack : Prop :=
  ∀ (m : Mach) (pc : Word) (va pa : Nat) (bs : List Byte),
    (m.cur.seg.length < segMax ∧ setFull m (pa / 128) = false) ∨ (segFind m.cur (pa / 128)).isSome = true →
    bs ≠ [] → pa % 128 + bs.length ≤ 128 → ∃ m', storePlain m pc va pa bs = .ok m' ∧ m'.mem = m.mem ∧ m' = { m with cur := { m.cur with seg := m'.cur.seg } } ∧
      taskRead m' m'.cur pa bs.length = bs ∧ (∀ a, a < pa ∨ pa + bs.length ≤ a → taskByte m' m'.cur a = taskByte m m.cur a) ∧
      (SegWf m.cur → SegWf m'.cur)

/-- R202, R203: `Commit()` of a segment whose lines pass their recheck, and which neither the host nor an engine holds, makes every byte of memory what
the task saw there, and empties the segment; if a line fails, no line of it is committed. -/
def Statement.CommitMergesTheSegment : Prop :=
  ∀ (m : Mach), SegWf m.cur → (∀ l ∈ m.cur.seg, m.held.contains l.pa = false ∧ crewHeld m l.pa = false) →
    ((∀ l ∈ m.cur.seg, prepare m m.cur.job l = .ok l.pa) → ∃ m', commit m = .ok m' ∧ m'.cur.seg = [] ∧ m'.cur.hardened = false ∧
      (∀ a, memGet m'.mem a = taskByte m m.cur a) ∧ (∀ r, vTag m'.cur r = vTag m.cur r) ∧ m'.cur.pcs = m.cur.pcs) ∧
    ((∃ l ∈ m.cur.seg, ∃ e, prepare m m.cur.job l = .error e) → ∃ e, commit m = .error (.trap e) ∧ e.commit = true)

/-- R201 to R205: a plain store is held back in the segment, and `Commit()` merges the segment into memory, whole or not at all. -/
def Obligations.SegmentsHoldAndCommit : Prop := Statement.PlainStoreIsHeldBack ∧ Statement.CommitMergesTheSegment

/-- R135, R201, R349, R352, R353: a plain `ld` whose checks pass completes: D receives per lane the task's view of the bytes at the lane's address,
extended by the type. An acquire `ld` commits the task's own lines that it reaches first, and reads what is committed. Memory is read, not written. -/
def Statement.LoadResults : Prop :=
  ∀ (s : State) (f : Fields) (pc : Word) (m₁ m₂ : Mach) (oks : List Ok), Issues s 0x80 f pc →
    let x := issueCtx s.m pc 0x80 f
    let i := issued s.m pc 0x80 f
    let accs := memAccs x (ldLanes x)
    indexCheck x (ldLanes x) = .ok () → sbStall i i.cur false accs = .ok () → checkAll i (whoOf i.cur) 1 true accs = .ok (m₁, oks) →
    (if f.ord = 1 then viewCheck m₁ m₁.cur.job x.cd.viewWait oks = .ok () ∧ commitOwns (reachedLines oks) m₁ = .ok m₂
     else raceCheck m₁ false oks = .ok m₂ ∧ viewCheck m₂ m₂.cur.job x.cd.viewWait oks = .ok ()) →
    ∃ c o, exec (.ld f) s = .next { s with m := { m₂ with cur := c, outbox := m₂.outbox ++ o } } ∧
      Loads x 1 (ldSrc x) oks (fun _ o => taskRead m₂ m₂.cur o.pa (tySize f.ty.toNat)) m₂ c ∧
      o = (oks.filter (fun o => isAperture o.pa)).map (fun o => .apRead (o.pa - apBase) (tySize f.ty.toNat))

/-- R352, R353: an `st` to memory whose checks pass completes with the stores of its lanes in ascending order, those that have acted before a stall left
out, each where no engine command stands in its way: a plain lane's bytes into the segment, a release's straight to memory after `Commit()`, a lane in the host
aperture as a posted write. -/
def Statement.StoreResults : Prop :=
  ∀ (s : State) (f : Fields) (pc : Word) (m₁ m₂ m₃ m₄ m₅ : Mach) (oks : List Ok), Issues s 0x81 f pc →
    let x := issueCtx s.m pc 0x81 f
    let i := issued s.m pc 0x81 f
    let size := tySize f.ty.toNat
    let ls := (if uniAddr x && opdIsS f.d then [x.low] else x.lanes).drop x.cd.placed
    let accs := memAccs x ls
    let rel : Bool := f.ord == 2
    (∀ a ∈ accs, inBte a.va = false) → indexCheck x ls = .ok () → sbStall i i.cur true accs = .ok () →
    checkAll i (whoOf i.cur) 2 true accs = .ok (m₁, oks) → (if rel then .ok m₁ else raceCheck m₁ true oks) = .ok m₂ →
    leeAsk m₂ m₂.cur (leeExcess m₂ m₂.cur false 0) = .ok m₃ → (if rel then commit m₃ else .ok m₃) = .ok m₄ →
    (oks.foldlM (fun m o =>
      let bs := toBytes size (sizedVal x x.cd f.ty.toNat f.d o.acc.lane)
      match storeWaits m { acc := o.acc, bytes := bs, ok := some o } o with
      | .error h => .error h
      | .ok _ =>
        if isAperture o.pa then .ok (m.send (.apWrite (o.pa - apBase) bs))
        else if rel then .ok (commitRun m o.pa bs) else storePlain m pc o.acc.va o.pa bs) m₄ : R Mach) = .ok m₅ →
    exec (.st f) s = .next { s with m := m₅ }

/-- R135, R201, R349 to R353: `ld` and `st` of memory. Where the rules leave a point open, the model's choice stands (assumption log 8, 18). -/
def Obligations.PlainLoadAndStoreResults : Prop := Statement.LoadResults ∧ Statement.StoreResults

/-- R160, R243, R354, R413: an `st.b64` to the BTE aperture with a legal address, legal data and a template that is defined, when its channel has room and
no earlier command of its core reaches its regions, is accepted as a command of the channel that address bits [18:10] name, with the template and argument
that its data names and the next sequence number; a channel that holds 16 commands stalls the crew. -/
def Statement.ApertureStoreIssuesCommand : Prop :=
  ∀ (m : Mach) (pc : Word) (va data : Nat) (l : Launch) (t : List Byte),
    m.launch m.cur.launch = some l → smFind l.tmpls (bits data 55 48) = some t →
    let ch (m : Mach) : Chan := chanGet m (bits va 18 16) (bits va 15 10)
    let ranges := (bteRanges m.cur.job m.cur.launch t (bits data 47 0)).map (·.2)
    (bteWaits m m.cur.core (bits va 18 16) (bits va 15 10) ranges = none →
      ∃ u k, bteAccept pc va data m = .ok u ∧ (ch u).queue = (ch m).queue ++ [k] ∧ (ch u).accepted = k.seq ∧ k.seq = seqAfter (ch m).accepted ∧
        k.tmpl = t ∧ k.arg = bits data 47 0 ∧ k.job = m.cur.job ∧ k.launch = m.cur.launch ∧ k.core = m.cur.core ∧ k.started = false ∧
        u.mem = m.mem ∧ u.cur = m.cur) ∧
    (16 ≤ (ch m).queue.length → ∃ side, bteAccept pc va data m = .error (.stall .channel side)) ∧
    ((ch m).queue.length < 16 → (sbConflict m m.cur.core ranges).isSome = true → ∃ side, bteAccept pc va data m = .error (.stall .scoreboard side))

/-- The lanes of a store that have not acted before a stall, their addresses, and the data of a 64-bit lane (R349, R352). -/
def storeLanes (x : Ctx) : List Nat := (if uniAddr x && opdIsS x.f.d then [x.low] else x.lanes).drop x.cd.placed
def storeVa (x : Ctx) (L : Nat) : Nat := (addrOf x (tySize x.y) L).toNat
def storeData (x : Ctx) (L : Nat) : Nat := sizedVal x x.cd 6 x.f.d L

/-- May a lane's 64-bit store at the BTE aperture issue: its address is the place of a channel, the data bits [63:56] are zero, and the template that it names
is defined (R354, R413)? -/
def cmdLegal (s : State) (x : Ctx) (L : Nat) : Prop :=
  storeVa x L % 1024 = 0 ∧ storeData x L < 2 ^ 56 ∧ ∃ l t, s.m.launch s.m.cur.launch = some l ∧ smFind l.tmpls (bits (storeData x L) 55 48) = some t

/-- R160, R243, R354, R413: an `st.b64` whose lanes all address the BTE aperture legally completes: once the lee units of its copies are there, and a release's
segment has committed, its lanes issue their commands in ascending order. With one lane, a channel that has room and no earlier command of the core in the way,
the channel that address bits [18:10] name has one command more, with the next sequence number and the template and argument that the data names. -/
def Statement.ApertureStoreCompletes : Prop :=
  ∀ (s : State) (f : Fields) (pc : Word), Issues s 0x81 f pc → f.ty = 6 →
    let x := issueCtx s.m pc 0x81 f
    let i := issued s.m pc 0x81 f
    indexCheck x (storeLanes x) = .ok () → (∀ L ∈ storeLanes x, inBte (storeVa x L) = true ∧ cmdLegal s x L) →
    let units := (storeLanes x).foldl (fun n L => n + (match s.m.launch s.m.cur.launch with
      | some l => (match smFind l.tmpls (bits (storeData x L) 55 48) with | some t => bteUnits i t | none => 0)
      | none => 0)) 0
    ∀ m₁ m₂, leeAsk i i.cur (leeExcess i i.cur false units) = .ok m₁ → (if f.ord = 2 then commit m₁ else .ok m₁) = .ok m₂ →
      (∀ m₃, ((storeLanes x).foldlM (fun m L => bteAccept pc (storeVa x L) (storeData x L) m) m₂ : R Mach) = .ok m₃ →
        exec (.st f) s = .next { s with m := m₃ }) ∧
      (∀ L l t, storeLanes x = [L] → s.m.launch s.m.cur.launch = some l → smFind l.tmpls (bits (storeData x L) 55 48) = some t →
        let die := bits (storeVa x L) 18 16
        let ch := bits (storeVa x L) 15 10
        let ranges := (bteRanges m₂.cur.job m₂.cur.launch t (bits (storeData x L) 47 0)).map (·.2)
        bteWaits m₂ m₂.cur.core die ch ranges = none →
        ∃ u k, exec (.st f) s = .next u ∧ (chanGet u.m die ch).queue = (chanGet m₂ die ch).queue ++ [k] ∧ k.seq = seqAfter (chanGet m₂ die ch).accepted ∧
          k.tmpl = t ∧ k.arg = bits (storeData x L) 47 0 ∧ u.m.mem = m₂.mem)

/-- R254, R354: an `st` with a lane that addresses the BTE aperture illegally raises PERM for the lowest such lane, whatever its other lanes address, and no lane
stores or issues: of a 64-bit store the lanes whose address is no channel's place, whose data has reserved bits set, or whose template is not defined; of a store
of another type every lane that addresses the aperture. -/
def Statement.IllegalApertureStoreTraps : Prop :=
  ∀ (s : State) (f : Fields) (pc : Word), Issues s 0x81 f pc →
    let x := issueCtx s.m pc 0x81 f
    let i := issued s.m pc 0x81 f
    indexCheck x (storeLanes x) = .ok () → ∀ (L : Nat) (before after : List Nat), storeLanes x = before ++ L :: after → inBte (storeVa x L) = true →
      (f.ty = 6 ∧ ¬ cmdLegal s x L ∧ (∀ K ∈ before, inBte (storeVa x K) = true → cmdLegal s x K) ∨
       f.ty ≠ 6 ∧ sbStall i i.cur true (memAccs x (storeLanes x)) = .ok () ∧ ∀ K ∈ before, inBte (storeVa x K) = false) →
      exec (.st f) s = .next { s with m := halted s.m s.m.cur.tid pc (trapOf 0x21 (some L) (w64 (storeVa x L)) 0x200 0 0) }

/-- R254, R354, R413: stores to the BTE aperture, legal and not. Where the rules leave a point open, the model's choice stands (assumption log 18, 19).
-/
def Obligations.ApertureStores : Prop := Statement.ApertureStoreIssuesCommand ∧ Statement.ApertureStoreCompletes ∧ Statement.IllegalApertureStoreTraps

/-- R355 to R357: `atom`, `red` and `cas` whose checks pass complete: a release form commits first, own speculative lines that they reach are
committed, and the lanes act in ascending order; `atom` and `cas` leave the old value of each lane in D. -/
def Statement.AtomicsComplete : Prop :=
  ∀ (s : State) (f : Fields) (pc : Word) (m₁ m₂ m₃ : Mach) (oks : List Ok),
    let y := f.ty.toNat
    let w := 8 * tySize y
    let rel : Bool := decide (2 ≤ f.ord.toNat)
    let pass (x : Ctx) (i : Mach) (ap : Bool) (ls : List Nat) : Prop :=
      sbStall i i.cur false (atomAccs x ls) = .ok () ∧ sbStall i i.cur true (atomAccs x ls) = .ok () ∧
      checkAll i (whoOf i.cur) 3 ap (atomAccs x ls) = .ok (m₁, oks) ∧ (if rel then commit m₁ else .ok m₁) = .ok m₂ ∧
      commitOwns (reachedLines oks) m₂ = .ok m₃
    (Issues s 0x82 f pc → let x := issueCtx s.m pc 0x82 f
      let i := issued s.m pc 0x82 f
      let v (L : Nat) : Nat := sizedVal x x.cb y f.b L
      pass x i (i.atomicEn && (modeOf f == 0 || modeOf f == 6)) (dLanes x f.d) →
      let r := rmwLanes (tySize y) (fun L o => some (atomNew (modeOf f) y w o (v L)))
        (fun L o => .apAtomic (o.pa - apBase) (if modeOf f = 0 then 0 else 1) (toBytes (tySize y) (v L))) oks m₃
      ∃ c, exec (.atom f) s = .next { s with m := { r.2 with cur := c } } ∧ Loads x 3 (fun L => L) oks (fun j _ => r.1.getD j []) r.2 c) ∧
    (Issues s 0x83 f pc → let x := issueCtx s.m pc 0x83 f
      let i := issued s.m pc 0x83 f
      pass x i false x.lanes →
      exec (.red f) s = .next { s with m := (rmwLanes (tySize y) (fun L o => some (atomNew (modeOf f) y w o (sizedVal x x.cb y f.b L)))
        (fun _ _ => .hostCmp) oks m₃).2 }) ∧
    (Issues s 0x84 f pc → let x := issueCtx s.m pc 0x84 f
      let i := issued s.m pc 0x84 f
      let b (L : Nat) : Nat := sizedVal x x.cb y f.b L
      let n (L : Nat) : Nat := sizedVal x x.cc y f.c L
      pass x i i.atomicEn (dLanes x f.d) →
      let r := rmwLanes (tySize y) (fun L o => if o = b L then some (n L) else none)
        (fun L o => .apAtomic (o.pa - apBase) 2 (toBytes (tySize y) (b L) ++ toBytes (tySize y) (n L))) oks m₃
      ∃ c, exec (.cas f) s = .next { s with m := { r.2 with cur := c } } ∧ Loads x 3 (fun L => L) oks (fun j _ => r.1.getD j []) r.2 c)

/-- R356, R357: what one lane does: it reads the old bytes, and leaves the new value, or memory as it was when there is none; every byte outside it is
as before. Later lanes act on what earlier lanes left. The new value of each operation is that of its name. -/
def Statement.AtomicLanes : Prop :=
  (∀ (size : Nat) (g : Nat → Nat → Option Nat) (out : Nat → Ok → Out) (o : Ok) (m : Mach), isAperture o.pa = false → 0 < size →
    let r := rmwLanes size g out [o] m
    r.1 = [memRead m.mem o.pa size] ∧
    memRead r.2.mem o.pa size = (match g o.acc.lane (ofBytes (memRead m.mem o.pa size)) with | some n => toBytes size n | none => memRead m.mem o.pa size) ∧
    ∀ a, a < o.pa ∨ o.pa + size ≤ a → memGet r.2.mem a = memGet m.mem a) ∧
  (∀ (size : Nat) (g : Nat → Nat → Option Nat) (out : Nat → Ok → Out) (o : Ok) (t : List Ok) (m : Mach),
    let r := rmwLanes size g out [o] m
    rmwLanes size g out (o :: t) m = (r.1 ++ (rmwLanes size g out t r.2).1, (rmwLanes size g out t r.2).2)) ∧
  (∀ (y w a b : Nat), a < 2 ^ w → b < 2 ^ w → y ≠ 3 →
    atomNew 0 y w a b = (a + b) % 2 ^ w ∧ atomNew 3 y w a b = a &&& b ∧ atomNew 4 y w a b = a ||| b ∧ atomNew 5 y w a b = a ^^^ b ∧
    atomNew 6 y w a b = b ∧ (atomNew 1 y w a b = a ∨ atomNew 1 y w a b = b) ∧
    (y = 2 ∨ y = 5 → atomNew 1 y w a b = min a b ∧ atomNew 2 y w a b = max a b) ∧
    (y = 1 ∨ y = 4 → toSigned w (atomNew 1 y w a b) = min (toSigned w a) (toSigned w b) ∧ toSigned w (atomNew 2 y w a b) = max (toSigned w a) (toSigned w b)))

/-- R355 to R357: `atom`, `red` and `cas`, and what one lane of them does. Where the rules leave a point open, the model's choice stands (assumption
log 8, 18). -/
def Obligations.AtomicResults : Prop := Statement.AtomicsComplete ∧ Statement.AtomicLanes

/-- R358, R359, R360: a `fence` without release completes and has no effect of its own; one with release completes when its segment's lines pass their
recheck and neither the host nor an engine holds them: then every byte of memory is what the task saw there, and the segment is empty. `monarm` of an
address that passes the checks of a load completes with the crew's monitor armed on its line, unfired. `monwait` completes, demoted and with the
monitor disarmed, when the monitor has fired or none is armed; while an armed one has not fired the crew waits for it. -/
def Statement.FenceAndMonitorResults : Prop :=
  ∀ (s : State) (f : Fields) (pc : Word),
    (Issues s 0x85 f pc → let i := issued s.m pc 0x85 f
      (f.ord.toNat < 2 → ∃ u, exec (.fence f) s = .next u ∧ RegStep s u (issueCtx s.m pc 0x85 f) (fun _ => []) s.m.cur.flags s.m.cur.draw) ∧
      (2 ≤ f.ord.toNat → SegWf i.cur →
        (∀ l ∈ i.cur.seg, prepare i i.cur.job l = .ok l.pa ∧ i.held.contains l.pa = false ∧ crewHeld i l.pa = false) →
        ∃ u, exec (.fence f) s = .next u ∧ u.boot = s.boot ∧ u.host = s.host ∧ u.m.cur.seg = [] ∧ u.m.cur.hardened = false ∧
          (∀ a, memGet u.m.mem a = taskByte s.m s.m.cur a) ∧ RegsKept [] (fun _ => []) s.m.cur u.m.cur ∧ PcsPast (issueCtx s.m pc 0x85 f) s.m.cur u.m.cur) ∧
      (2 ≤ f.ord.toNat → ∀ e, commit i = .error (.trap e) → exec (.fence f) s = .next { s with m := halted s.m s.m.cur.tid pc (.trap e) })) ∧
    (Issues s 0x86 f pc → let x := issueCtx s.m pc 0x86 f
      let i := issued s.m pc 0x86 f
      ∀ m o, checkAll i (whoOf i.cur) 1 true (memAccs x [x.low]) = .ok (m, [o]) →
        exec (.monarm f) s = .next { s with m := { m with cur := { m.cur with
          monitor := { armed := true, addr := addrOf x (tySize f.ty.toNat) x.low, line := o.pa / 128, fired := false } } } }) ∧
    (Issues s 0x87 f pc →
      (s.m.cur.monitor.fired = true ∨ s.m.cur.monitor.armed = false → ∃ u, exec (.monwait f) s = .next u ∧ OnlyCrew s u ∧ u.m.cur.demoted = true ∧
        u.m.cur.monitor.armed = false ∧ u.m.cur.status = s.m.cur.status ∧ RegsKept [] (fun _ => []) s.m.cur u.m.cur ∧
        PcsPast (issueCtx s.m pc 0x87 f) s.m.cur u.m.cur) ∧
      (s.m.cur.monitor.fired = false → s.m.cur.monitor.armed = true → exec (.monwait f) s =
        .next { s with m := park { issued s.m pc 0x87 f with cur := { (issued s.m pc 0x87 f).cur with demoted := true } } s.m.cur.tid .monitor }))

/-- R359, R361, R362: `pref` completes on any operands, and changes nothing but TLBs and line fills; `cclean` and `cinval` over no bytes, or over more
than 2^40, complete and do nothing; over pages that pass their checks they complete with the lines of those pages cleaned, and no byte of memory, as
the task sees it, changes. Cleaning a line leaves DRAM what the line's treatment makes of it, and `cinval` of mode 1 takes it out of the L2 and fires the
monitors armed on it. -/
def Statement.CacheMaintenanceResults : Prop :=
  ∀ (s : State) (f : Fields) (pc : Word),
    (Issues s 0x88 f pc → ∃ u, exec (.pref f) s = .next u ∧ u.boot = s.boot ∧ u.host = s.host ∧ TransKept (issued s.m pc 0x88 f) u.m) ∧
    (∀ inv : Bool, let op := if inv then 0x8A else 0x89
      Issues s op f pc →
      let x := issueCtx s.m pc op f
      let i := issued s.m pc op f
      let a := (opA x 15 x.low).toNat
      let n := (opB x 5 x.low).toNat
      let ex := if inv then exec (.cinval f) s else exec (.cclean f) s
      (n = 0 ∨ 2 ^ 40 < n → ∃ u, ex = .next u ∧ RegStep s u x (fun _ => []) s.m.cur.flags s.m.cur.draw) ∧
      (n ≠ 0 → n ≤ 2 ^ 40 → ∀ m, cleanPages inv (modeOf f) (whoOf i.cur) (a + n - 1) id ((pagesOf a n).map (fun p => { p with lane := x.low })) i = .ok m →
        ex = .next { s with m := m })) ∧
    (∀ (inv : Bool) (mode : Nat) (m : Mach) (line : Nat), let u := cleanLine inv mode m line
      u.mem = m.mem ∧ (mode = 0 → u = m) ∧ (inv = false → u.cur = m.cur ∧ u.lineKey = m.lineKey) ∧
      (mode ≠ 0 → ∀ t, smFind m.lineKey line = some t → smFind u.dramKey line = some (dramOf m t) ∧ line ∉ u.dirtyL2) ∧
      (inv = true → mode ≠ 0 → smFind u.lineKey line = none ∧
        ∀ c ∈ m.crews, c.monitor.armed = true → c.monitor.line = line → ∃ c' ∈ u.crews, c'.tid = c.tid ∧ c'.monitor.fired = true))

/-- R344: `cbload` completes with the default table, or, when its address is on a line boundary of 64 bytes and passes the checks of a plain load, with the
64 bytes of its table as the task sees them, in eight `s` registers with tag RAW. -/
def Statement.CodebookLoadResults : Prop :=
  ∀ (s : State) (f : Fields) (pc : Word) (r : BitVec 7), f.d = .s r → r.toNat + 8 ≤ 128 → Issues s 0x61 f pc →
    let x := issueCtx s.m pc 0x61 f
    let i := issued s.m pc 0x61 f
    let eight (_ : Nat) : List (Nat × Nat) := (List.range 8).map (fun j => (1, r.toNat + j))
    (f.a = .none → ∃ u, exec (.cbload f) s = .next u ∧
      (∀ j, j < 8 → ∀ k, k < 4 → (sGet u.m.cur (r.toNat + j)).toNat / 2 ^ (16 * k) % 2 ^ 16 = cbDefault.getD (4 * j + k) 0 ∧ sTag u.m.cur (r.toNat + j) = tRAW) ∧
      RegStep s u x eight s.m.cur.flags s.m.cur.draw) ∧
    (f.a ≠ .none → let acc : Acc := { lane := x.low, va := (opA x 15 x.low).toNat, size := 64 }
      ∀ m₁ m₂ o, sbStall i i.cur false [acc] = .ok () → checkAll i (whoOf i.cur) 1 true [acc] = .ok (m₁, [o]) → raceCheck m₁ false [o] = .ok m₂ →
        viewCheck m₂ m₂.cur.job x.cd.viewWait [o] = .ok () → isAperture o.pa = false →
        ∃ u, exec (.cbload f) s = .next u ∧ u.boot = s.boot ∧ u.host = s.host ∧ u.m.mem = m₂.mem ∧
          (∀ j, j < 8 → sGet u.m.cur (r.toNat + j) = w64 (fld (taskRead m₂ m₂.cur o.pa 64) (8 * j) 8) ∧ sTag u.m.cur (r.toNat + j) = tRAW) ∧
          RegsKept x.lanes eight m₂.cur u.m.cur ∧ u.m.cur = { m₂.cur with s := u.m.cur.s, stag := u.m.cur.stag })

/-- R344, R358 to R362: fences, monitors, cache maintenance and `cbload`. Where the rules leave a point open, the model's choice stands (assumption log
7, 8, 18). -/
def Obligations.FenceMonitorAndCacheResults : Prop := Statement.FenceAndMonitorResults ∧ Statement.CacheMaintenanceResults ∧ Statement.CodebookLoadResults

/-! ### Waits, tile cells and sync groups (R116 to R118, R193, R363 to R371) -/

/-- R116, R118: a wait whose condition holds ends at once; otherwise the crew parks while its die's wait table has one of its 2048 entries, and polls,
first after 2048 cycles, when it has none. A capture may sample the table's occupancy (R31). -/
def Statement.WaitsParkPollOrGoOn : Prop :=
  ∀ (m : Mach) (w : Wait),
    (waitHolds m m.cur w = true → park m m.cur.tid w = waitFinish m m.cur.tid w) ∧
    (waitHolds m m.cur w = false → tableUsed m (dieOf m.cur.core) < 2048 →
      ∃ cs, park m m.cur.tid w = { m with cur := { m.cur with status := .parked w m.clk, woken := false }, captures := cs }) ∧
    (waitHolds m m.cur w = false → 2048 ≤ tableUsed m (dieOf m.cur.core) →
      park m m.cur.tid w = { m with cur := { m.cur with status := .polling w (m.clk + 2048) } })

/-- R368, R374, R382, R383, R391: what a wait does when it ends, for a crew in its slots: the crew goes on ready; a join merges its views and enters
the next epoch with no children, a re-root the re-rooted pedigree; a group wait delivers its result; a monitor wait disarms. -/
def Statement.WaitsEnd : Prop :=
  ∀ (m : Mach), m.cur.slots ≠ [] →
    let on (f : Crew → Crew) : Mach := { m with cur := { f { m.cur with status := .ready, stamp := m.clk, woken := false } with slots := m.cur.slots } }
    (∃ c, waitFinish m m.cur.tid (.join .join) = { m with cur := c } ∧ c.status = .ready ∧ c.ped = pedJoin m.cur.ped ∧ c.kids = [] ∧ c.kseg = 0 ∧
      c.eddies = [] ∧ c.merged = joinViews (redsOf m m.cur) m.cur ∧ c.draw = 0 ∧ c.rrk = m.cur.rrk ∧ c.pcs = m.cur.pcs ∧
      RegsKept [] (fun _ => []) m.cur c) ∧
    (∃ c, waitFinish m m.cur.tid (.join .preroot) = { m with cur := c } ∧ c.status = .ready ∧ c.ped = pedReroot m.cur.ped ∧ c.kids = [] ∧ c.kseg = 0 ∧
      c.merged = joinViews (redsOf m m.cur) m.cur ∧ c.draw = 0 ∧ c.rrk = lo32 (pdig m.cur.ped) ∧ RegsKept [] (fun _ => []) m.cur c) ∧
    (∀ d k b, waitFinish m m.cur.tid (.cell d k b) = on id) ∧
    (waitFinish m m.cur.tid .monitor = on (fun c => { c with demoted := true, monitor := { c.monitor with armed := false, fired := false } })) ∧
    (∀ g p act lanes, waitFinish m m.cur.tid (.group g p act lanes) =
      groupTidy (on (groupResult (match m.group g with | some x => (smFind x.past p.toNat).getD [] | none => []) p act lanes)) g)

/-- R116, R118, R368, R374, R382, R383, R391: how a crew starts to wait, and what the end of a wait does. -/
def Obligations.WaitRules : Prop := Statement.WaitsParkPollOrGoOn ∧ Statement.WaitsEnd

/-- R369: `gbar` delivers its phase with tag I64, `gvote` whether all, or any, of the contributors gave 1, and `gred` the contributions in ascending
member key that have its mode and type, combined pairwise level by level, with the tag of the type. -/
def Statement.GroupResults : Prop :=
  (∀ (parts : List Part) (p : Word) (r : BitVec 7) (lanes : Mask) (c : Crew),
    sGet (groupResult parts p (.bar (.s r)) lanes c) r.toNat = p ∧ sTag (groupResult parts p (.bar (.s r)) lanes c) r.toNat = tI64 ∧
    sGet (groupResult parts p (.vote (.s r) true) lanes c) r.toNat = (if ∀ q ∈ parts, q.ins = 1 → q.val ≠ 0 then 1 else 0) ∧
    sGet (groupResult parts p (.vote (.s r) false) lanes c) r.toNat = (if ∃ q ∈ parts, q.ins = 1 ∧ q.val ≠ 0 then 1 else 0) ∧
    sTag (groupResult parts p (.vote (.s r) true) lanes c) r.toNat = tN32) ∧
  (∀ (parts : List Part) (p : Word) (r : Fin 12) (lanes : Mask) (c : Crew) (L : Nat), L < 64 →
    pBit (groupResult parts p (.vote (.p r) true) lanes c) r.val L =
      (if inM lanes L then decide (∀ q ∈ parts, q.ins = 1 → q.val ≠ 0) else pBit c r.val L)) ∧
  (∀ (parts : List Part) (p : Word) (r : BitVec 7) (mode y : Nat) (lanes : Mask) (c : Crew),
    let vs := byKey (parts.filter (fun q => q.ins == 2 && q.mode == mode && q.y == y))
    let u := groupResult parts p (.red (.s r) mode y) lanes c
    sGet u r.toNat = treeFold (gredOp mode y) (gredId mode y) vs.length (vs.map (·.val)) ∧ sTag u r.toNat = BitVec.ofNat 4 (tyTag y) ∧
    (∀ q, q ≠ r.toNat → sGet u q = sGet c q)) ∧
  (∀ l : List Part, (byKey l).length = l.length ∧ (byKey l).Pairwise (fun a b => a.key ≤ b.key) ∧ ∀ q, q ∈ byKey l ↔ q ∈ l) ∧
  (∀ (op : Word → Word → Word) (z a b c d e : Word), treeFold op z 0 [] = z ∧ treeFold op z 1 [a] = a ∧ treeFold op z 2 [a, b] = op a b ∧
    treeFold op z 3 [a, b, c] = op (op a b) c ∧ treeFold op z 5 [a, b, c, d, e] = op (op (op a b) (op c d)) e) ∧
  (∀ a b : Word, gredOp 0 5 a b = a + b ∧ gredOp 3 5 a b = a &&& b ∧ gredOp 4 5 a b = a ||| b ∧ gredOp 5 5 a b = a ^^^ b)

/-- R363: a cell word without VALID, with CONSUME or a reserved bit, or with a cell not below TILE raises PERM with the word. -/
def Statement.CellWordFaults : Prop :=
  ∀ (s : State) (f : Fields) (pc : Word) (l : Launch), s.m.launch s.m.cur.launch = some l →
    let w (x : Ctx) : Nat := (opA x 2 x.low).toNat
    let perm (x : Ctx) (kind : Nat) : State := { s with m := halted s.m s.m.cur.tid pc (trapOf 0x21 none (w64 (w x)) (w64 (kind * 256)) 0 0) }
    (Issues s 0x90 f pc → cellWordOk l.tile (w (issueCtx s.m pc 0x90 f)) = false → exec (.tfill f) s = .next (perm (issueCtx s.m pc 0x90 f) 2)) ∧
    (Issues s 0x91 f pc → cellWordOk l.tile (w (issueCtx s.m pc 0x91 f)) = false → exec (.tdrain f) s = .next (perm (issueCtx s.m pc 0x91 f) 1)) ∧
    (Issues s 0x92 f pc → cellWordOk l.tile (w (issueCtx s.m pc 0x92 f)) = false → exec (.twait f) s = .next (perm (issueCtx s.m pc 0x92 f) 1)) ∧
    (Issues s 0x93 f pc → cellWordOk l.tile (w (issueCtx s.m pc 0x93 f)) = false → exec (.tstat f) s = .next (perm (issueCtx s.m pc 0x93 f) 1)) ∧
    ∀ t n, cellWordOk t n = true ↔ bit n 31 = true ∧ bit n 30 = false ∧ bits n 29 17 = 0 ∧ bits n 13 0 < t

/-- R193, R363, R364: `tfill`, when its cell lets it, commits the segment and fills the cell with its window, lanes beyond the width as 0; `tdrain`
empties a full cell into its window, tag RAW; `twait` waits for the state it names, and `tstat` reads full, claimed and the pin count. -/
def Statement.CellResults : Prop :=
  ∀ (s : State) (f : Fields) (pc : Word) (die cell : Nat),
    (Issues s 0x90 f pc → let x := issueCtx s.m pc 0x90 f
      ∀ m r, f.b = .v r → cellArg (issued s.m pc 0x90 f) x 2 = .ok (die, cell) → commit (issued s.m pc 0x90 f) = .ok m →
        cellTurn m (cellGet m die m.cur.launch cell) (s.m.cur.tid, false) = true →
        ∃ u, exec (.tfill f) s = .next u ∧ u.m.mem = m.mem ∧ u.m.cur = m.cur ∧
          let q := cellGet u.m die m.cur.launch cell
          q.full = true ∧ q.claim = none ∧
          ∀ i j b, i < 32 → j < 32 → b < 4 → smGet 0 q.bytes (128 * i + 4 * j + b) =
            (if j < x.cb.width then BitVec.ofNat 8 ((vGet x.cb (r.toNat + i) j).toNat / 256 ^ b) else 0)) ∧
    (Issues s 0x91 f pc → let x := issueCtx s.m pc 0x91 f
      let i := issued s.m pc 0x91 f
      ∀ r, f.d = .v r → 0 < s.m.cur.width → cellArg i x 1 = .ok (die, cell) →
        cellTurn i (cellGet i die s.m.cur.launch cell) (s.m.cur.tid, true) = true →
        ∃ u, exec (.tdrain f) s = .next u ∧ u.m.mem = s.m.mem ∧ (cellGet u.m die s.m.cur.launch cell).full = false ∧
          (∀ k j, k < 32 → j < min s.m.cur.width 32 → vGet u.m.cur (r.toNat + k) j = BitVec.ofNat 32 (ofBytes ((List.range 4).map (fun b =>
            smGet 0 (cellGet s.m die s.m.cur.launch cell).bytes (128 * k + 4 * j + b)))) ∧ vTag u.m.cur (r.toNat + k) = tRAW) ∧
          CrewKept s.m.cur u.m.cur s.m.cur.flags s.m.cur.draw ∧ PcsPast x s.m.cur u.m.cur ∧
          RegsKept (List.range (min s.m.cur.width 32)) (fun _ => (List.range 32).map (fun k => (0, r.toNat + k))) s.m.cur u.m.cur) ∧
    (Issues s 0x92 f pc → cellArg (issued s.m pc 0x92 f) (issueCtx s.m pc 0x92 f) 1 = .ok (die, cell) →
      exec (.twait f) s = .next { s with m := park (issued s.m pc 0x92 f) s.m.cur.tid (.cell die cell (modeOf f == 0)) }) ∧
    (Issues s 0x93 f pc → let x := issueCtx s.m pc 0x93 f
      ∀ r, f.d = .s r → cellArg (issued s.m pc 0x93 f) x 1 = .ok (die, cell) →
        let q := cellGet s.m die s.m.cur.launch cell
        ∃ u, exec (.tstat f) s = .next u ∧ sTag u.m.cur r.toNat = tN32 ∧
          sGet u.m.cur r.toNat = w64 (b2n q.full + 2 * b2n q.claim.isSome + 256 * min q.pins.length 255) ∧
          RegStep s u x (destRegs x 64 1) s.m.cur.flags s.m.cur.draw)

/-- R193, R363, R364: the tile-cell instructions, with a good cell word and a bad one. Where the rules leave a point open, the model's choice stands
(assumption log 20). -/
def Obligations.TileCellResults : Prop := Statement.CellWordFaults ∧ Statement.CellResults

/-- R366: `gjoin` completes: refused, with the status of its table in B, C clear and D as it was; or accepted, with the phase at whose boundary the
join takes effect in B (tag I64), C set, and in D a handle that is VALID and PEND with the member's key. -/
def Statement.GroupJoinResults : Prop :=
  ∀ (s : State) (f : Fields) (pc : Word) (a b : BitVec 7) (p : Fin 12) (h : BitVec 4), f.a = .s a → f.b = .s b → f.c = .p p → f.d = .h h →
    Issues s 0xA0 f pc →
    let x := issueCtx s.m pc 0xA0 f
    let i := issued s.m pc 0xA0 f
    let name := sGet x.ca a.toNat
    let key := (lo32 (sGet x.ca (a.toNat + 1))).toNat
    (∀ st, joinStatus i (hGet s.m.cur h.toNat) name key = some st → ∃ u, exec (.gjoin f) s = .next u ∧ sGet u.m.cur b.toNat = w64 (2 ^ 63 + st) ∧
      sTag u.m.cur b.toNat = tI64 ∧ (∀ L ∈ x.lanes, pBit u.m.cur p.val L = false) ∧ (∀ r, hGet u.m.cur r = hGet s.m.cur r) ∧ u.m.groups = s.m.groups ∧
      RegStep s u x (fun _ => [(1, b.toNat), (2, p.val)]) s.m.cur.flags s.m.cur.draw) ∧
    (joinStatus i (hGet s.m.cur h.toNat) name key = none → ∃ u, exec (.gjoin f) s = .next u ∧ u.m.mem = s.m.mem ∧
      sGet u.m.cur b.toNat = w64 ((match s.m.job s.m.cur.job with | some j => j.phaseNo | none => 0) + 1) ∧ sTag u.m.cur b.toNat = tI64 ∧
      (∀ L ∈ x.lanes, pBit u.m.cur p.val L = true) ∧ hGet u.m.cur h.toNat = hMake true false (groupMake i s.m.cur.job name).1 key ∧
      (∀ r, r ≠ h.toNat → hGet u.m.cur r = hGet s.m.cur r) ∧ (∀ r, vTag u.m.cur r = vTag s.m.cur r) ∧
      (∀ q, groupNamed s.m s.m.cur.job name = some q → (s.m.groups.map (·.idx)).Nodup → (u.m.group q.idx).map (·.members) =
        some (q.members ++ [{ tid := s.m.cur.tid, key := key, counted := false, pending := true, leaving := false, arr := 0, con := none }])))

/-- R366: the order in which a join is refused: an occupied D, a crew that is a member, a full table, a full group, a key that is taken. -/
def Statement.GroupJoinRefusals : Prop :=
  ∀ (m : Mach) (h name : Word) (key : Nat),
    let g := groupNamed m m.cur.job name
    let mine : Prop := ∃ x, g = some x ∧ ∃ k ∈ x.members, k.tid = m.cur.tid ∧ (k.counted = true ∨ k.pending = true ∧ k.leaving = false)
    (hValid h = true → joinStatus m h name key = some 4) ∧
    (hValid h = false → mine → joinStatus m h name key = some 3) ∧
    (hValid h = false → g = none → 8192 ≤ m.groups.length → joinStatus m h name key = some 1) ∧
    (hValid h = false → ¬ mine → ∀ x, g = some x → 4096 ≤ x.members.length → joinStatus m h name key = some 2) ∧
    (hValid h = false → ¬ mine → ∀ x, g = some x → x.members.length < 4096 → (∃ k ∈ x.members, k.key = key) → joinStatus m h name key = some 5) ∧
    (hValid h = false → ¬ mine → (∀ x, g = some x → x.members.length < 4096) → (g = none → m.groups.length < 8192) → key = 0xFFFFFFFF →
      joinStatus m h name key = some 5)

/-- R366: `gjoin` accepted and refused. Where the rules leave a point open, the model's choice stands (assumption log 16). -/
def Obligations.GroupJoins : Prop := Statement.GroupJoinResults ∧ Statement.GroupJoinRefusals

/-- R202, R368: an arrival commits the segment first, and a counted member may not arrive beyond a phase that is not complete: `garr` completes with the
phase it arrived at in D; `gwait`, `gbar`, `gvote` and `gred` wait for their phase, the latter with their contribution. -/
def Statement.GroupArrivalResults : Prop :=
  ∀ (s : State) (f : Fields) (pc : Word) (h : BitVec 4) (m m' : Mach) (p : Nat), f.a = .h h →
    let g := hGroup (hGet s.m.cur h.toNat)
    let arr (op : Nat) (con : Part) : Prop := Issues s op f pc ∧ commit (issued s.m pc op f) = .ok m ∧ arriveAt m (hGet m.cur h.toNat) con = some (p, m')
    (∀ r, f.d = .s r → arr 0xA2 bareCon → ∃ u, exec (.garr f) s = .next u ∧ sGet u.m.cur r.toNat = w64 p ∧ sTag u.m.cur r.toNat = tI64 ∧ u.m.mem = m'.mem ∧
      (∀ q, q ≠ r.toNat → sGet u.m.cur q = sGet m'.cur q)) ∧
    (let x := issueCtx s.m pc 0xA3 f
     Issues s 0xA3 f pc →
     exec (.gwait f) s = .next { s with m := park (issued s.m pc 0xA3 f) s.m.cur.tid (.group g (opB x 5 x.low) .wait x.e) } ) ∧
    (arr 0xA4 bareCon → exec (.gbar f) s = .next { s with m := park m' m'.cur.tid (.group g (w64 p) (.bar f.d) (issueCtx s.m pc 0xA4 f).e) }) ∧
    (let x := issueCtx s.m pc 0xA5 f
     arr 0xA5 { bareCon with ins := 1, mode := modeOf f, val := if opB x 6 x.low = 0 then 0 else 1 } →
      exec (.gvote f) s = .next { s with m := park m' m'.cur.tid (.group g (w64 p) (.vote f.d (modeOf f == 0)) x.e) }) ∧
    (let x := issueCtx s.m pc 0xA6 f
     arr 0xA6 { bareCon with ins := 2, mode := modeOf f, y := f.ty.toNat, val := opB x f.ty.toNat x.low } →
      exec (.gred f) s = .next { s with m := park m' m'.cur.tid (.group g (w64 p) (.red f.d (modeOf f) f.ty.toNat) x.e) })

/-- R368: what an arrival does to its group: a counted member whose last phase is complete arrives one phase further; a member that is not counted
arrives at DONE; a counted member whose phase is not complete waits. The phase completes when every counted member has arrived beyond it. -/
def Statement.ArrivalsAndCompletion : Prop :=
  ∀ (m : Mach) (h : Word) (con : Part) (g : Group), m.group (hGroup h) = some g →
    (∀ k, memberOf g h = some k → k.counted = true → g.done < k.arr → arriveAt m h con = none) ∧
    (∀ k, memberOf g h = some k → k.counted = true → k.arr ≤ g.done → ∃ m', arriveAt m h con = some (k.arr, m')) ∧
    ((memberOf g h = none ∨ ∃ k, memberOf g h = some k ∧ k.counted = false) → arriveAt m h con = some (g.done, groupTest m g.idx)) ∧
    (groupFull g = true ↔ ∀ k ∈ g.members, k.counted = true → g.done < k.arr) ∧
    (groupFull g = true → ((groupTest m g.idx).group g.idx).map (·.done) = some (g.done + 1)) ∧
    (groupFull g = false → groupTest m g.idx = m)

/-- R202, R368, R369: arrivals at a phase, its completion, and what the barrier, the vote and the reduction deliver. Where the rules leave a point
open, the model's choice stands (assumption log 16). -/
def Obligations.GroupArrivals : Prop := Statement.GroupResults ∧ Statement.ArrivalsAndCompletion ∧ Statement.GroupArrivalResults

/-- R370, R371: `gstat` reads the status word of its group, and mode 1 clears FAULT after it; `gleave` marks its handle and stops the member, and does
nothing to a handle that is marked; `gfind` gives the crew's own handle, an observer's, or 0 when there is no such group. Where the rules leave a
point open, the model's choice stands (assumption log 16). -/
def Obligations.GroupStatusResults : Prop :=
  ∀ (s : State) (f : Fields) (pc : Word),
    (∀ r h g, f.d = .s r → f.a = .h h → Issues s 0xA7 f pc → s.m.group (hGroup (hGet s.m.cur h.toNat)) = some g →
      ∃ u, exec (.gstat f) s = .next u ∧ sTag u.m.cur r.toNat = tRAW ∧ u.m.mem = s.m.mem ∧
        sGet u.m.cur r.toNat = w64 (gstatWord g (hGet s.m.cur h.toNat)) ∧
        (modeOf f ≠ 1 → RegStep s u (issueCtx s.m pc 0xA7 f) (destRegs (issueCtx s.m pc 0xA7 f) 64 1) s.m.cur.flags s.m.cur.draw) ∧
        (modeOf f = 1 → u.m.groups = s.m.groups.map (fun q => if q.idx = g.idx then { g with fault := false } else q))) ∧
    (∀ h, f.d = .h h → Issues s 0xA1 f pc →
      let v := hGet s.m.cur h.toNat
      let i := issued s.m pc 0xA1 f
      let m := { i with cur := hSet i.cur h.toNat (hSetLeave v) }
      (v.getLsbD 61 = true → ∃ u, exec (.gleave f) s = .next u ∧ RegStep s u (issueCtx s.m pc 0xA1 f) (fun _ => []) s.m.cur.flags s.m.cur.draw) ∧
      (v.getLsbD 61 = false → exec (.gleave f) s = .next { s with m := if hKey v = 0xFFFFFFFF then m else memberStop m (hGroup v) (hKey v) false })) ∧
    (∀ h a, f.d = .h h → f.a = .s a → Issues s 0xA8 f pc →
      let x := issueCtx s.m pc 0xA8 f
      let g := groupNamed s.m s.m.cur.job (sGet x.ca a.toNat)
      let mine : List Member := (match g with | some q => q.members | none => ([] : List Member)).filter (fun k => k.tid == s.m.cur.tid)
      ∃ u, exec (.gfind f) s = .next u ∧ OnlyCrew s u ∧ PcsPast x s.m.cur u.m.cur ∧ (∀ r, r ≠ h.toNat → hGet u.m.cur r = hGet s.m.cur r) ∧
        (g = none → hGet u.m.cur h.toNat = 0) ∧
        (∀ q, g = some q → mine = [] → hGet u.m.cur h.toNat = hMake false false q.idx 0xFFFFFFFF) ∧
        (∀ q k, g = some q → mine = [k] → hGet u.m.cur h.toNat = hMake k.pending k.leaving q.idx k.key))

/-! ### Tasks, pedigrees, arenas and reducers (R373 to R393) -/

/-- R253, R380: a spawn on a control core, of a declaration that is none, that belongs to a pipeline or that is a handler, at depth 15 or beyond step 1023,
traps in that order, the PERM of a control core with `INFO1` to `INFO3` zero, and has no effect. -/
def Statement.SpawnFaults : Prop :=
  ∀ (m : Mach) (x : Ctx) (n : Nat),
    let a := (opA x 15 x.low).toNat
    let decl : Option Decl := (m.job m.cur.job).bind (fun j => j.decls.find? (fun d => d.addr == a))
    let bad (reason : Nat) : R Decl := .error (trapOf 0x01 none (w64 a) (w64 reason) 1 0)
    (isControl m.cur.core = true → spawnCheck m x n = .error (trapOf 0x21 none 0 0 0 0)) ∧
    (isControl m.cur.core = false → decl = none → spawnCheck m x n = bad 0) ∧
    ∀ d, isControl m.cur.core = false → decl = some d →
      (d.piped ≠ 0 → spawnCheck m x n = bad 1) ∧
      (d.piped = 0 → d.hdlr = true → spawnCheck m x n = bad 2) ∧
      (d.piped = 0 → d.hdlr = false → pedDepth m.cur.ped = 15 → spawnCheck m x n = .error (pedOvf m.cur 2)) ∧
      (d.piped = 0 → d.hdlr = false → pedDepth m.cur.ped ≠ 15 → 1023 < entStep (pedOwn m.cur.ped) + n → spawnCheck m x n = .error (pedOvf m.cur 0)) ∧
      (d.piped = 0 → d.hdlr = false → pedDepth m.cur.ped ≠ 15 → entStep (pedOwn m.cur.ped) + n ≤ 1023 → spawnCheck m x n = .ok d)

/-- R374, R380, R382, R390: a child that is placed has the pedigree one level deeper, the declaration, argument, launch, affinity and class of the rule;
the parent takes one step, opens a reducer segment for it, counts it among its children, and the launch counter is one higher. -/
def Statement.SpawnedChild : Prop :=
  ∀ (m m' : Mach) (d : Decl) (arg : Word) (kind : TaskKind) (cells : List Half) (j : Job), m.job m.cur.job = some j →
    placeRec { m with nextTid := m.nextTid + 1 } m.cur.core
      { tid := m.nextTid, parent := m.cur.tid, ped := pedChild m.cur.ped, decl := d.addr, arg := arg, launch := m.cur.launch, aff := d.aff,
        kind := kind, stage := 0, cls := j.cls, cells := cells, rrk := m.cur.rrk, enq := 0 } = some m' →
    ∃ u, spawnOne m d arg kind cells = some u ∧ u.mem = m'.mem ∧ u.cur.ped = pedStep m'.cur.ped ∧ u.cur.draw = 0 ∧ u.cur.sid = 0 ∧
      u.cur.kseg = m'.cur.kseg + 1 ∧ u.cur.kids = m'.cur.kids ++ [{ tid := m.nextTid, seg := m'.cur.kseg + 1, ended := false, views := [] }] ∧
      ∀ l, m'.launch m.cur.launch = some l → u.launch m.cur.launch = some { l with counter := l.counter + 1 }

/-- R374, R380, R382, R390: the checks of a spawn, and the child that it places. -/
def Obligations.Spawning : Prop := Statement.SpawnFaults ∧ Statement.SpawnedChild

/-- R376: the digest of a pedigree of four words: they are mixed in from the highest down, each by the exclusive or, the product modulo 2^64 and the
exclusive or with itself shifted right by 31. -/
def Obligations.PedigreeDigest : Prop :=
  ∀ w3 w2 w1 w0 : Nat, w3 < 2 ^ 64 → w2 < 2 ^ 64 → w1 < 2 ^ 64 → w0 < 2 ^ 64 →
    let mix (h w : Nat) : Nat :=
      let p := ((h ^^^ w) * 0xBF58476D1CE4E5B9) % 2 ^ 64
      p ^^^ (p >>> 31)
    (pdig (BitVec.ofNat 256 (w3 * 2 ^ 192 + w2 * 2 ^ 128 + w1 * 2 ^ 64 + w0))).toNat = mix (mix (mix (mix 0x9E3779B97F4A7C15 w3) w2) w1) w0

/-- R374, R375: a child's pedigree is one level deeper with the own point (0, 0), its parent's after the spawn is one step further, and after a join
the next epoch with step 0; the child and what precedes its spawn are ordered, siblings are not. -/
def Obligations.PedigreePoints : Prop :=
  ∀ (root : Nat) (es : List Nat) (e : Nat), es.length < 14 → (∀ x ∈ es, x < 2 ^ 16) → e < 2 ^ 16 - 1 → entStep e < 1023 → entEpoch e < 63 →
    let p := pedMake (es.length + 1) false false root (es ++ [e])
    pedDepth p = es.length + 1 ∧ pedOwn p = e ∧ pedDepth (pedChild p) = es.length + 2 ∧ pedOwn (pedChild p) = 0 ∧
    (∀ j, j ≤ es.length + 1 → pedEntry (pedChild p) j = pedEntry p j) ∧
    pedDepth (pedStep p) = pedDepth p ∧ pedOwn (pedStep p) = e + 1 ∧ entEpoch (pedOwn (pedJoin p)) = entEpoch e + 1 ∧ entStep (pedOwn (pedJoin p)) = 0 ∧
    pedOrder p (pedStep p) = .before ∧ pedOrder p (pedJoin p) = .before ∧ pedOrder p (pedChild p) = .before ∧
    pedOrder (pedChild p) (pedChild (pedStep p)) = .unordered ∧ pedOrder (pedChild p) (pedJoin p) = .before ∧
    pedOrder (pedChild p) (pedStep p) = .unordered

/-- R202, R374, R380 to R383, R393: when their checks pass, `spawn`, `spawnv` and `spawnd` commit the segment and place their children in order, one
for the crew or one for each lane of E; `join`, `preroot` and `rfin` commit it and wait for the children; an epoch of 63 raises PEDOVF. Where the
rules leave a point open, the model's choice stands (assumption log 20, 21, 22). -/
def Obligations.TaskResults : Prop :=
  ∀ (s : State) (f : Fields) (pc : Word) (m m' : Mach) (d : Decl), s.m.cur.placed = 0 →
    (∀ op args i, (op = 0xB0 ∧ i = .spawn f ∧ args = [opB (issueCtx s.m pc op f) 6 (issueCtx s.m pc op f).low]) ∨
        (op = 0xB1 ∧ i = .spawnv f ∧ args = (issueCtx s.m pc op f).lanes.map (fun L => opB (issueCtx s.m pc op f) 6 L)) →
      Issues s op f pc → spawnCheck (issued s.m pc op f) (issueCtx s.m pc op f) args.length = .ok d → commit (issued s.m pc op f) = .ok m →
      args.foldl (fun r a => r.bind (fun m => spawnOne m d a .spawned [])) (some m) = some m' → exec i s = .next { s with m := m' }) ∧
    (let x := issueCtx s.m pc 0xB2 f
     let i := issued s.m pc 0xB2 f
     Issues s 0xB2 f pc → spawnCheck i x 1 = .ok d →
     (∀ c ∈ (spawnCells x).zip (List.range 6), spawnCellBad (match s.m.launch s.m.cur.launch with | some l => l.tile | none => 0) c.2 c.1 = false) →
     commit i = .ok m → spawnOne m d (opB x 6 x.low) .dataflow (spawnCells x) = some m' → exec (.spawnd f) s = .next { s with m := m' }) ∧
    (Issues s 0xB3 f pc → (entEpoch (pedOwn s.m.cur.ped) = 63 → exec (.join f) s = .next { s with m := halted s.m s.m.cur.tid pc (pedOvf s.m.cur 1) }) ∧
      (entEpoch (pedOwn s.m.cur.ped) ≠ 63 → commit (issued s.m pc 0xB3 f) = .ok m → exec (.join f) s = .next { s with m := park m m.cur.tid (.join .join) })) ∧
    (Issues s 0xB6 f pc → commit (issued s.m pc 0xB6 f) = .ok m → exec (.preroot f) s = .next { s with m := park m m.cur.tid (.join .preroot) }) ∧
    (Issues s 0xBC f pc → let x := issueCtx s.m pc 0xBC f
      (entEpoch (pedOwn s.m.cur.ped) = 63 → exec (.rfin f) s = .next { s with m := halted s.m s.m.cur.tid pc (pedOvf s.m.cur 1) }) ∧
      (entEpoch (pedOwn s.m.cur.ped) ≠ 63 → commit (issued s.m pc 0xBC f) = .ok m →
        exec (.rfin f) s = .next { s with m := park m m.cur.tid (.join (.rfin (redIndex x.ca f) pc x.active)) }))

/-- R376, R377, R384, R385: `pget` reads the header, an entry or the own entry of the pedigree, `pdig` its digest or that of four registers, both
changing nothing else; `rng` writes n words of the generator keyed by the pedigree, or their fractions, and advances the draw index by one. -/
def Obligations.PedigreeAndRandomResults : Prop :=
  ∀ (s : State) (f : Fields) (pc : Word),
    (Issues s 0xB4 f pc → Gives s (.pget f) 0xB4 f pc 32 false (fun _ => tN32) (fun x L =>
      let j := (opA x 2 L).toNat % 32
      w64 (if j = 0 then bits s.m.cur.ped.toNat 255 240 else if j = 16 then pedOwn s.m.cur.ped else if j ≤ 15 then pedEntry s.m.cur.ped j else 0))) ∧
    (Issues s 0xB5 f pc → Gives s (.pdig f) 0xB5 f pc 64 false (fun _ => tRAW) (fun x _ =>
      match f.a with
      | .s r => pdig (BitVec.ofNat 256 ((sGet x.ca r.toNat).toNat + (sGet x.ca (r.toNat + 1)).toNat * 2 ^ 64 +
          (sGet x.ca (r.toNat + 2)).toNat * 2 ^ 128 + (sGet x.ca (r.toNat + 3)).toNat * 2 ^ 192))
      | _ => pdig s.m.cur.ped)) ∧
    (Issues s 0xB7 f pc → f.ty = 2 ∨ f.ty = 3 → modeOf f ≤ 4 →
      let x := issueCtx s.m pc 0xB7 f
      let seed := (seedOf s.m)
      let word (L j : Nat) : Nat := (philox (pdig s.m.cur.ped).toNat s.m.cur.draw.toNat (opA x 2 L).toNat (seed % 2 ^ 32) (seed / 2 ^ 32)).getD j 0
      let val (L j : Nat) : Nat := if f.ty = 3 then (roundEx f32 0 0 (.val false (word L j / 256) (-24) false)).1 else word L j
      let t : Tag := if f.ty = 3 then tF32 else tN32
      (∀ r, f.d = .v r → ∃ u, exec (.rng f) s = .next u ∧
        (∀ L ∈ x.lanes, ∀ j, j < modeOf f → vGet u.m.cur (r.toNat + j) L = BitVec.ofNat 32 (val L j) ∧ vTag u.m.cur (r.toNat + j) = t) ∧
        RegStep s u x (destRegs x 32 (modeOf f)) s.m.cur.flags (s.m.cur.draw + 1)) ∧
      (∀ r, f.d = .s r → ∃ u, exec (.rng f) s = .next u ∧
        (∀ j, j < modeOf f → sGet u.m.cur (r.toNat + j) = w64 (val x.low j) ∧ sTag u.m.cur (r.toNat + j) = t) ∧
        RegStep s u x (destRegs x 32 (modeOf f)) s.m.cur.flags (s.m.cur.draw + 1)) ∧
      (∀ r k, f.d = .ind r k → modeOf f = 1 → ∃ u, exec (.rng f) s = .next u ∧
        (∀ L ∈ x.lanes, vGet u.m.cur (effReg x.cd r k L) L = BitVec.ofNat 32 (val L 0) ∧ vTag u.m.cur (effReg x.cd r k L) = t) ∧
        RegStep s u x (destRegs x 32 1) s.m.cur.flags (s.m.cur.draw + 1)))

/-- R386, R387: `palloc` and `plog` form one address per lane of U from the descriptor, the pedigree's digits and `%aseq`; `palloc` delivers them with
tag ADDR, `plog` also stores B there, and both advance `%aseq` by the lanes of U. Where the rules leave a point open, the model's choice stands
(assumption log 6, 23). -/
def Obligations.ArenaResults : Prop :=
  ∀ (s : State) (f : Fields) (pc : Word) (m m₁ : Mach) (b : List Byte) (hi : Nat),
    let u (x : Ctx) (log : Bool) : List Nat := if log then (if opdIsS f.d || (opdIsNone f.d && opdIsS f.b) then [x.low] else x.lanes) else dLanes x f.d
    let field (x : Ctx) (i : Mach) (log : Bool) : Prop :=
      pedH s.m.cur.ped = false ∧ uniformLoad i x (opA x 15 x.low).toNat 32 32 = .ok (m, b) ∧ m.cur.ped = s.m.cur.ped ∧ arenaBad b = false ∧
      8 + fld b 9 1 * (fld b 10 1 + fld b 11 1 + 1) + fld b 12 1 ≤ 40 ∧ pedDepth s.m.cur.ped - 1 ≤ fld b 9 1 ∧
      arenaDigits s.m.cur.ped (fld b 9 1) (fld b 10 1) (fld b 11 1) = .ok hi ∧ m.cur.aseq.toNat + (u x log).length ≤ 2 ^ fld b 12 1
    let addr (k : Nat) : Nat := (fld b 0 8 + (hi * 2 ^ fld b 12 1 + m.cur.aseq.toNat + k) * 2 ^ fld b 8 1) % 2 ^ 64
    let m₀ := arenaRegion m (fld b 0 8) (2 ^ (8 + fld b 9 1 * (fld b 10 1 + fld b 11 1 + 1) + fld b 12 1 + fld b 8 1))
    (Issues s 0xB8 f pc → let x := issueCtx s.m pc 0xB8 f
      field x (issued s.m pc 0xB8 f) false → ∃ c, exec (.palloc f) s = .next { s with m := { m₀ with cur := c } } ∧
        c.aseq = m.cur.aseq + w64 (u x false).length ∧
        (∀ r, f.d = .v r → ∀ k L, (u x false)[k]? = some L → vGet64 c r.toNat L = w64 (addr k) ∧ vTag c r.toNat = tADDR ∧ vTag c (r.toNat + 1) = tADDR) ∧
        (∀ q j, f.d = .ind q j → ∀ k L, (u x false)[k]? = some L → vGet64 c (effReg x.cd q j L) L = w64 (addr k)) ∧
        (∀ r, f.d = .s r → sGet c r.toNat = w64 (addr 0) ∧ sTag c r.toNat = tADDR) ∧ RegsKept x.lanes (destRegs x 64 1) m.cur c) ∧
    (Issues s 0xB9 f pc → let x := issueCtx s.m pc 0xB9 f
      let st : List (Acc × List Byte) := ((u x true).zip (List.range (u x true).length)).map (fun e =>
        ({ lane := e.1, va := addr e.2, size := 8 }, toBytes 8 (opB x 6 e.1).toNat))
      field x (issued s.m pc 0xB9 f) true → sbStall m₀ m₀.cur true (st.map (·.1)) = .ok () → plainStores m₀ pc st = .ok m₁ →
      ∃ c, exec (.plog f) s = .next { s with m := { m₁ with cur := c } } ∧ c.aseq = m₁.cur.aseq + w64 (u x true).length ∧
        (∀ r, f.d = .s r → sGet c r.toNat = w64 (addr 0) ∧ sTag c r.toNat = tADDR) ∧ (f.d = .none → c = { m₁.cur with aseq := c.aseq }) ∧
        RegsKept x.lanes (destRegs x 64 1) m₁.cur c)

/-- R392, R396: a reducer that the launch does not bind, a 64-bit value in an odd `v` register and an element beyond the reducer's raise REGRANGE for the
lowest lane concerned, before any tag is looked at. -/
def Statement.ReducerBounds : Prop :=
  ∀ (s : State) (f : Fields) (pc : Word) (op : Nat) (i : Instr),
    (op = 0xBA ∧ i = .rview f) ∨ (op = 0xBB ∧ i = .racc f) ∨ (op = 0xBC ∧ i = .rfin f) →
    let reds := redsOf s.m s.m.cur
    let x := issueCtx s.m pc op f
    let e := entryFor s.m s.m.cur op f
    let r := redIndex x.ca f
    let traps (h : Halt) : Prop := exec i s = .next { s with m := halted s.m s.m.cur.tid pc h }
    canIssue s.m.cur = some pc → s.m.cur.late = none → x.e ≠ 0 → checkShort s.m s.m.cur x e = .ok () →
    (∀ L ∈ x.rlanes e, firstErr (fun p => checkRange x [L] p.2.1 p.2.2.1 p.2.2.2) (positions x e) = .ok ()) →
    (reds.length ≤ r → traps (redRange x r reds.length)) ∧
    (∀ (k : RedEnt) (pre : List Nat) (L : Nat) (post : List Nat), reds[r]? = some k → op ≠ 0xBC → x.rlanes e = pre ++ L :: post →
      (∀ q, redOpd x = .v q → redWide k.kind = true → q.toNat % 2 = 1 → pre = [] → traps (regRange L q.toNat s.m.cur.decl.vregs)) ∧
      ((∀ q, redOpd x = .v q → redWide k.kind = true → q.toNat % 2 = 0) → ¬ (op = 0xBB ∧ k.kind = 9) → (∀ K ∈ pre, redElem x K < k.nelem) → k.nelem ≤ redElem x L → traps (regRange L (redElem x L) k.nelem)))

/-- R389, R391, R392: `rview` reads an element of the task's current view, an append reducer's record count; `racc` combines each lane's value into its
element of the current segment's eddy, lanes in ascending order, or appends each lane's record. -/
def Statement.ReducerValueResults : Prop :=
  ∀ (s : State) (f : Fields) (pc : Word) (e : RedEnt),
    let reds := redsOf s.m s.m.cur
    (Issues s 0xBA f pc → let x := issueCtx s.m pc 0xBA f
      reds[redIndex x.ca f]? = some e →
      Gives s (.rview f) 0xBA f pc (if redWide e.kind then 64 else 32) (redTag e.kind == tI32) (fun _ => redTag e.kind) (fun x L =>
        let v := curView reds s.m.cur (redIndex x.ca f)
        if e.kind = 9 then w64 v.recs.length else redOut e.kind (rvGet e.kind v (redElem x L)))) ∧
    (Issues s 0xBB f pc → let x := issueCtx s.m pc 0xBB f
      let r := redIndex x.ca f
      let key := eddyKey s.m.cur.kseg r
      let v := smGet viewEmpty s.m.cur.eddies key
      reds[r]? = some e →
      ∃ u, exec (.racc f) s = .next u ∧ u.m.mem = s.m.mem ∧ u.m = { s.m with cur := u.m.cur, freeCtr := u.m.freeCtr } ∧
        PcsPast x s.m.cur u.m.cur ∧ RegsKept [] (fun _ => []) s.m.cur u.m.cur ∧
        (∀ k, k ≠ key → smGet viewEmpty u.m.cur.eddies k = smGet viewEmpty s.m.cur.eddies k) ∧
        let v' := smGet viewEmpty u.m.cur.eddies key
        (e.kind ≠ 9 → v'.recs = v.recs ∧ ∀ n, rvGet e.kind v' n =
          (x.lanes.filter (fun L => redElem x L == n)).foldl (fun a L => redOp e.kind a (redIn e.kind (opC x (redTy e.kind) L))) (rvGet e.kind v n)) ∧
        (e.kind = 9 → v'.recs = v.recs ++ x.lanes.map (redRecord x e.reclen)))

/-- R389, R391, R392, R396: the reducer instructions, and the bounds whose violation raises REGRANGE. Where the rules leave a point open, the model's
choice stands (assumption log 12, 24). -/
def Obligations.ReducerResults : Prop := Statement.ReducerBounds ∧ Statement.ReducerValueResults

/-! ### Views, the matrix unit and the engines (R219 to R227, R394, R395, R397 to R422) -/

/-- R219, R220, R222, R394, R395: what each view instruction answers in `s`D, with tag I64: a refusal sets bit 63 and has its status, tested in the
order of R394, and changes nothing else; `vwreg` takes the lowest free entry of its pages' die, `vwadd` the lowest free index of its master, and
enters every block in the dirty queue; `vwdrop` removes; `vwver` reads; `vwpol` sets and answers the old value; `vwtouch` enters blocks. Where the
rules leave a point open, the model's choice stands (assumption log 25). -/
def Obligations.ViewResults : Prop :=
  ∀ (s : State) (f : Fields) (pc : Word) (r : BitVec 7), f.d = .s r →
    let answers (i : Instr) (m : Mach) (v : Nat) : Prop := exec i s = .next { s with m := { m with cur := sSet m.cur r.toNat (w64 v) tI64 } }
    let refuses (i : Instr) (m : Mach) (st : Nat) : Prop := answers i m (2 ^ 63 + st)
    let ctx (op : Nat) : Ctx := issueCtx s.m pc op f
    let a (op : Nat) : Nat := (opA (ctx op) 4 (ctx op).low).toNat
    let b (op : Nat) : Nat := (opB (ctx op) 2 (ctx op).low).toNat
    let on (op : Nat) : Mach := issued s.m pc op f
    let mast (op : Nat) : Option (Nat × Master) := masterById (on op) s.m.cur.job (a op)
    let view (op : Nat) : Option (Nat × Master × View) := viewById (on op) s.m.cur.job (a op)
    (∀ m bs, Issues s 0xC0 f pc → uniformLoad (on 0xC0) (ctx 0xC0) (opA (ctx 0xC0) 15 (ctx 0xC0).low).toNat 16 8 = .ok (m, bs) →
      let base := fld bs 0 8
      let n := fld bs 8 4
      let len := n * (if bit (fld bs 12 1) 0 then 512 else 1024)
      let good : Prop := 0 < n ∧ n ≤ 16777216 ∧ fld bs 12 1 < 4 ∧ zeros bs 13 3 = true ∧ base % (if bit (fld bs 12 1) 0 then 512 else 1024) = 0
      let apart : Prop := ∀ e ∈ m.dies, ∀ q ∈ e.2.masters, q.job = m.cur.job → base + len ≤ q.base ∨ q.base + masterLen q ≤ base
      (¬ good → refuses (.vwreg f) m 2) ∧
      (good → masterPages m m.cur.job base len = none → refuses (.vwreg f) m 3) ∧
      ∀ die pages, masterPages m m.cur.job base len = some (die, pages) →
        (good → ¬ apart → refuses (.vwreg f) m 4) ∧
        (good → apart → (∀ i, i < 256 → (findMaster m die i).isSome = true) → refuses (.vwreg f) m 1) ∧
        (∀ i, good → apart → i < 256 → findMaster m die i = none → (∀ j, j < i → (findMaster m die j).isSome = true) →
          answers (.vwreg f) (m.modDie die (fun d => { d with masters := d.masters ++
            [{ idx := i, job := m.cur.job, base := base, nblk := n, bf16 := bit (fld bs 12 1) 0, square := bit (fld bs 12 1) 1, pages := pages, versions := [],
               views := [], faulted := false }] })) (256 * die + i))) ∧
    (∀ m bs, Issues s 0xC1 f pc → uniformLoad (on 0xC1) (ctx 0xC1) (opB (ctx 0xC1) 15 (ctx 0xC1).low).toNat 32 8 = .ok (m, bs) →
      (masterById m m.cur.job (a 0xC1) = none → refuses (.vwadd f) m 6) ∧
      ∀ die ms, masterById m m.cur.job (a 0xC1) = some (die, ms) →
        let has (i : Nat) : Prop := ∃ v ∈ ms.views, v.idx = i
        let fmt := fld bs 16 1 % 8
        let pages (i : Nat) : Bool := viewPagesOk m m.cur.job (fld bs 0 8) (ms.nblk * vfBytes fmt) i (fld bs 17 1) &&
          (fmt == 4 || viewPagesOk m m.cur.job (fld bs 8 8) (8 * ms.nblk) i (fld bs 17 1))
        (viewDescBad ms.square bs = true → refuses (.vwadd f) m 2) ∧
        (viewDescBad ms.square bs = false → (∀ i, i < 8 → has i) → refuses (.vwadd f) m 5) ∧
        ∀ i, viewDescBad ms.square bs = false → i < 8 → ¬ has i → (∀ j, j < i → has j) →
          (pages i = false → refuses (.vwadd f) m 3) ∧
          (pages i = true → answers (.vwadd f) (touchBlocks (setMaster m die { ms with views := ms.views ++
            [{ idx := i, dbase := fld bs 0 8, sbase := fld bs 8 8, format := fmt, layout := fld bs 16 1 / 8 % 4, pol := fld bs 16 1 / 32 % 4,
               die := fld bs 17 1, clip := fld bs 18 1, recs := [], faulted := ms.faulted }] }) die ms.idx 0 ms.nblk) (8 * (256 * die + ms.idx) + i))) ∧
    (Issues s 0xC2 f pc →
      (modeOf f = 0 → view 0xC2 = none → refuses (.vwdrop f) (on 0xC2) 6) ∧ (modeOf f ≠ 0 → mast 0xC2 = none → refuses (.vwdrop f) (on 0xC2) 6) ∧
      (∀ die ms v, modeOf f = 0 → view 0xC2 = some (die, ms, v) →
        answers (.vwdrop f) (setMaster (on 0xC2) die { ms with views := ms.views.filter (fun q => q.idx != v.idx) }) 0) ∧
      (∀ die ms, modeOf f ≠ 0 → mast 0xC2 = some (die, ms) → answers (.vwdrop f) ((on 0xC2).modDie die (fun d =>
        { d with masters := d.masters.filter (fun q => q.idx != ms.idx), dirty := d.dirty.filter (fun e => e.1 != ms.idx) })) 0)) ∧
    (Issues s 0xC3 f pc →
      -- the versions that a `vwsync` which has waited read when it first issued
      let vers (ms : Master) : List (Nat × Nat) := if s.m.cur.viewWait = [] then ms.versions else s.m.cur.viewWait
      (modeOf f = 0 → view 0xC3 = none → refuses (.vwsync f) (on 0xC3) 6) ∧ (modeOf f ≠ 0 → mast 0xC3 = none → refuses (.vwsync f) (on 0xC3) 6) ∧
      (∀ die ms v, modeOf f = 0 → view 0xC3 = some (die, ms, v) → v.faulted = false → (∀ k, k < ms.nblk → viewFresh v k (smGet 0 (vers ms) k) = true) →
        findMaster (on 0xC3) die ms.idx = some ms → (∀ w ∈ ms.views, w.idx = v.idx → w = v) → answers (.vwsync f) (on 0xC3) 0) ∧
      (∀ die ms, modeOf f ≠ 0 → mast 0xC3 = some (die, ms) → (∀ v ∈ ms.views, v.faulted = false ∧
        ∀ k, k < ms.nblk → viewFresh v k (smGet 0 (vers ms) k) = true) → answers (.vwsync f) (on 0xC3) 0) ∧
      (∀ die ms, modeOf f ≠ 0 → mast 0xC3 = some (die, ms) → (∃ v ∈ ms.views, v.faulted = true) → (∀ v ∈ ms.views, v.faulted = true ∨
        ∀ k, k < ms.nblk → viewFresh v k (smGet 0 (vers ms) k) = true) → refuses (.vwsync f) (on 0xC3) 7) ∧
      (∀ die ms v, modeOf f = 0 → view 0xC3 = some (die, ms, v) → v.faulted = true → findMaster (on 0xC3) die ms.idx = some ms → v ∈ ms.views →
        (∀ w ∈ ms.views, w.idx = v.idx → w = v) → refuses (.vwsync f) (on 0xC3) 7)) ∧
    (Issues s 0xC4 f pc →
      (view 0xC4 = none → refuses (.vwver f) (on 0xC4) 6) ∧
      (∀ die ms v, view 0xC4 = some (die, ms, v) → (ms.nblk ≤ b 0xC4 → refuses (.vwver f) (on 0xC4) 8) ∧
        (b 0xC4 < ms.nblk → modeOf f = 0 → answers (.vwver f) (on 0xC4) (smGet 0 ms.versions (b 0xC4))) ∧
        (b 0xC4 < ms.nblk → modeOf f ≠ 0 → answers (.vwver f) (on 0xC4)
          ((match smFind v.recs (b 0xC4) with | some q => q + 2 ^ 32 | none => 0) + (if v.faulted then 2 ^ 33 else 0))))) ∧
    (Issues s 0xC5 f pc →
      (view 0xC5 = none → refuses (.vwpol f) (on 0xC5) 6) ∧
      (∀ die ms v, view 0xC5 = some (die, ms, v) →
        ((if modeOf f = 0 then 2 else 255) < b 0xC5 → refuses (.vwpol f) (on 0xC5) 2) ∧
        (modeOf f = 0 → b 0xC5 ≤ 2 → answers (.vwpol f) (setMaster (on 0xC5) die
          { ms with views := ms.views.map (fun q => if q.idx = v.idx then { q with pol := b 0xC5 } else q) }) v.pol) ∧
        (modeOf f ≠ 0 → b 0xC5 ≤ 255 → answers (.vwpol f) (setMaster (on 0xC5) die
          { ms with views := ms.views.map (fun q => if q.idx = v.idx then { q with clip := b 0xC5 } else q) }) v.clip))) ∧
    (Issues s 0xC6 f pc → let n := (opC (ctx 0xC6) 2 (ctx 0xC6).low).toNat
      (mast 0xC6 = none → refuses (.vwtouch f) (on 0xC6) 6) ∧
      (∀ die ms, mast 0xC6 = some (die, ms) → (ms.nblk < b 0xC6 + n → refuses (.vwtouch f) (on 0xC6) 8) ∧
        (b 0xC6 + n ≤ ms.nblk → answers (.vwtouch f) (touchBlocks (on 0xC6) die ms.idx (b 0xC6) n) 0)))

/-- R36, R222, R223, R227, R242: the engine takes the block at the head of its dirty queue, once the host and the commands of other engines hold no
line of it; without an error every view that is not faulted and can be written gets its derived bytes and records the version that the block had,
and the block leaves the queue; an uncorrected error in the block faults the master and all of its views, one in a view's own lines that view
alone. Entering blocks keeps their order and lists none twice. Where the rules leave a point open, the model's choice stands (assumption log 25).
-/
def Obligations.ViewEngineSteps : Prop :=
  (∀ (s : State) (die mi b : Nat) (rest : List (Nat × Nat)) (ms : Master), (s.m.die die).dirty = (mi, b) :: rest → findMaster s.m die mi = some ms →
    (∀ err, viewHeld s.m die ≠ [] → ∃ u, exec (.viewRecompute die err) s = .next u ∧ (u.m.die die).dirty = (mi, b) :: rest ∧ u.m.mem = s.m.mem ∧
      u.m.cur = s.m.cur ∧ ∀ l ∈ viewHeld s.m die, l ∈ u.m.held → l ∈ u.m.snoops) ∧
    (∀ err, ms.faulted = true → exec (.viewRecompute die err) s = .next { s with m := s.m.modDie die (fun d => { d with dirty := rest }) }) ∧
    (∀ err, viewHeld s.m die = [] → viewStops s.m die = true → exec (.viewRecompute die err) s = .next s) ∧
    (∀ bs m₁, ms.faulted = false → viewHeld s.m die = [] → viewStops s.m die = false →
      viewSnap (viewAgent die ms.job) (ms.base + b * blockBytes ms) (blockBytes ms / 128) (s.m.modDie die (fun d => { d with dirty := rest })) = some (bs, m₁) →
      let xs := masterElems ms.bf16 bs
      let ver := smGet 0 ms.versions b
      (∀ err, err ≠ 1 → exec (.viewRecompute die err) s =
        .next { s with m := ms.views.foldl (fun m v => recomputeView m die mi b ver xs v (err == v.idx + 2)) m₁ }) ∧
      (ms.views = [] → (m₁.die die).dirty = rest → findMaster m₁ die mi = some ms → ∃ u, exec (.viewRecompute die 0) s = .next u ∧ (u.m.die die).dirty = rest ∧
        findMaster u.m die mi = some ms) ∧
      (∀ v m₂ m₃, ms.views = [v] → v.faulted = false → findMaster m₁ die mi = some ms →
        let d := deriveBlock ms.square v xs
        writeView (viewAgent die ms.job) m₁ (v.dbase + b * vfBytes v.format) (chunks 64 (d.1.length / 64) d.1) = some m₂ →
        (v.format = 4 → m₃ = m₂) → (v.format ≠ 4 → writeView (viewAgent die ms.job) m₂ (v.sbase + 8 * b) [d.2] = some m₃) →
        (m₃.die die).dirty = rest → findMaster m₃ die mi = some ms →
        ∃ u, exec (.viewRecompute die 0) s = .next u ∧ u.m.mem = m₃.mem ∧ u.m.cur = m₃.cur ∧ (u.m.die die).dirty = rest ∧
          findMaster u.m die mi = some { ms with views := [{ v with recs := smPut v.recs b ver }] })) ∧
    (ms.faulted = false → viewHeld s.m die = [] → viewStops s.m die = false → ∃ u, exec (.viewRecompute die 1) s = .next u ∧ u.m.mem = s.m.mem ∧ u.m.cur = s.m.cur ∧ (u.m.die die).dirty = rest ∧
      findMaster u.m die mi = some { ms with faulted := true, views := ms.views.map (fun v => { v with faulted := true }) })) ∧
  (∀ (m : Mach) (die mi b ver : Nat) (xs : List FV) (v : View) (ms : Master), findMaster m die mi = some ms → ms.idx = mi → v ∈ ms.views → v.faulted = false →
    let d := deriveBlock ms.square v xs
    (recomputeView m die mi b ver xs v true).mem = m.mem ∧ findMaster (recomputeView m die mi b ver xs v true) die mi =
      some { ms with views := ms.views.map (fun w => if w.idx = v.idx then { w with faulted := true } else w) } ∧
    ∀ m₁ m', v.format ≠ 4 → writeView (viewAgent die ms.job) m (v.dbase + b * vfBytes v.format) (chunks 64 (d.1.length / 64) d.1) = some m₁ →
      writeView (viewAgent die ms.job) m₁ (v.sbase + 8 * b) [d.2] = some m' → findMaster m' die mi = some ms →
      (recomputeView m die mi b ver xs v false).mem = m'.mem ∧ findMaster (recomputeView m die mi b ver xs v false) die mi =
        some { ms with views := ms.views.map (fun w => if w.idx = v.idx then { w with recs := smPut w.recs b ver } else w) }) ∧
  (∀ (sq : Bool) (v : View) (xs : List FV), v.format < 5 → (deriveBlock sq v xs).1.length = vfBytes v.format ∧
    (deriveBlock sq v xs).2.length = (if v.format = 4 then 0 else 8)) ∧
  (∀ (m : Mach) (die mi first n : Nat), ((m.die die).dirty).Nodup → let d := ((touchBlocks m die mi first n).die die).dirty
    d.Nodup ∧ (m.die die).dirty <+: d ∧ ∀ e, e ∈ d ↔ e ∈ (m.die die).dirty ∨ (e.1 = mi ∧ first ≤ e.2 ∧ e.2 < first + n))

/-- R397 to R400, R402, R406, R407, R409, R410: the matrix instructions on a core with a matrix unit. `mldb` enters its load, `mmas` its step, into the
core's sequencer; `mcommit` closes the open batch, and `mwait` does too and waits while more batches than its count are open; `mrd`, `mwr` and
`mzero` move rows between an accumulator and registers once no step of the crew uses it, and raise ACCBUSY before; `mstat` reads the unit's status.
Where the rules leave a point open, the model's choice stands (assumption log 9, 26, 27). -/
def Obligations.MatrixResults : Prop :=
  ∀ (s : State) (f : Fields) (pc : Word), isControl s.m.cur.core = false →
    let ctx (op : Nat) : Ctx := issueCtx s.m pc op f
    let on (op : Nat) : Mach := issued s.m pc op f
    let traps (i : Instr) (h : Halt) : Prop := exec i s = .next { s with m := halted s.m s.m.cur.tid pc h }
    let blocked (op : Nat) : Prop := canIssue s.m.cur = some pc ∧ s.m.cur.late = none ∧ (ctx op).e ≠ 0 ∧
      checkShort s.m s.m.cur (ctx op) (entryFor s.m s.m.cur op f) = .ok () ∧ ∀ L ∈ (ctx op).rlanes (entryFor s.m s.m.cur op f),
        firstErr (fun p => checkRange (ctx op) [L] p.2.1 p.2.2.1 p.2.2.2) (positions (ctx op) (entryFor s.m s.m.cur op f)) = .ok ()
    (blocked 0xD0 → ∀ o, loadBad (sRecord (ctx 0xD0).ca f.a 4) = some o → traps (.mldb f) (trapOf 0x02 none 0 (w64 (0x400 + o)) 0 0)) ∧
    (Issues s 0xD0 f pc → let desc := sRecord (ctx 0xD0).ca f.a 4
      let L := (ctx 0xD0).low
      (∀ m₁ id m, leeAsk (on 0xD0) (on 0xD0).cur (leeExcess (on 0xD0) (on 0xD0).cur false 4) = .ok m₁ → (∃ q, loadIssue pc L desc (on 0xD0) = .ok q) →
        loadIssue pc L desc m₁ = .ok (id, m) → exec (.mldb f) s = .next { s with m := m } ∧
        ∃ rest, (m.core m.cur.core).seqq = rest ++ [.load m.cur.tid id pc desc] ∧
          ∃ l ∈ m.cur.loads, l.id = id ∧ l.mfirst = (loadDesc desc).mfirst ∧ l.nmac = (loadDesc desc).nmac)) ∧
    (blocked 0xD1 → ∀ info, stepBad s.m.cur (sRecord (ctx 0xD1).ca f.a 8) = some info → traps (.mmas f) (trapOf 0x02 none 0 (w64 info) 0 0)) ∧
    (Issues s 0xD1 f pc → let pb := sRecord (ctx 0xD1).ca f.a 8
      let d := stepDesc pb
      let i := on 0xD1
      let k := closeFull i.cur
      (∀ l m, s.m.cur.pend = [] →
        (∀ q ∈ stepRegs d, vTag i.cur q = BitVec.ofNat 4 (tyTag (mfTy d.fmt))) → stepLoad i.cur d = some l → setHeld i l = true →
        sbRoom i i.cur.core [.win i.cur.tid d.awin d.awcnt] = .ok () → (k.openB = none → coreBatches { i with cur := k } i.cur.core < 8) →
        leeAsk { i with cur := k } k (leeExcess i i.cur true (stepUnits d) - leeCoreMax (i.die (dieOf i.cur.core)).lee.grants i.cur.core) = .ok m →
        ∃ u batch id, exec (.mmas f) s = .next u ∧ (u.m.core i.cur.core).seqq = (i.core i.cur.core).seqq ++ [.step i.cur.tid l.id batch id [] pb false] ∧
          u.m.cur.closedB = k.closedB ∧
          (match u.m.cur.openB with
            | some b => b.id = batch ∧ (match k.openB with | some b' => b = { b' with steps := b'.steps + 1, left := b'.left + 1 } | none => b.steps = 1 ∧ b.left = 1)
            | none => False))) ∧
    (canIssue s.m.cur = some pc → s.m.cur.late = none → (ctx 0xD1).e ≠ 0 → s.m.cur.poison = [] →
      ∀ line, setMark s.m s.m.cur (stepDesc (sRecord (ctx 0xD1).ca f.a 8)) = some line → traps (.mmas f) (trapOf 0x30 none (w64 line) 1 0 0)) ∧
    (Issues s 0xD2 f pc → exec (.mcommit f) s = .next { s with m := { on 0xD2 with cur := closeBatch (on 0xD2).cur } }) ∧
    (Issues s 0xD3 f pc → ∀ k, f.a = .imm k → let c := closeBatch (on 0xD3).cur
      (crewBatches c ≤ k.toNat → exec (.mwait f) s = .next { s with m := { on 0xD3 with cur := c } }) ∧
      (k.toNat < crewBatches c → ∃ u, exec (.mwait f) s = .next u ∧ u.m.cur = stalledAt s.m.clk .batch (closeBatch s.m.cur))) ∧
    (∀ c : Crew, (closeBatch c).openB = none ∧ (closeBatch c).closedB =
      c.closedB ++ (match c.openB with | some b => if b.left = 0 then [] else [b] | none => [])) ∧
    (∀ op i o, (op = 0xD4 ∧ i = .mrd f ∧ o = f.a) ∨ (op = 0xD5 ∧ i = .mwr f ∧ o = f.d) ∨ (op = 0xD6 ∧ i = .mzero f ∧ o = f.d) → Issues s op f pc →
      ∀ k : BitVec 3, o = .acc k → k.toNat ∈ busyAccs s.m s.m.cur.core s.m.cur.tid →
        traps i (trapOf 0x05 none (w64 k.toNat) (w64 (crewBatches s.m.cur)) 0 0)) ∧
    (Issues s 0xD4 f pc → ∀ (k : BitVec 3) (r : BitVec 9) (n : Byte), f.a = .acc k → f.d = .v r → f.b = .imm n → k.toNat ∉ busyAccs s.m s.m.cur.core s.m.cur.tid →
      0 < s.m.cur.width → sbRoom (on 0xD4) s.m.cur.core [.win s.m.cur.tid r.toNat (2 * modeOf f)] = .ok () → ∃ u, exec (.mrd f) s = .next u ∧
        (∀ i j, i < modeOf f → j < 64 → j % 32 < s.m.cur.width → vGet u.m.cur (r.toNat + 2 * i + j / 32) (j % 32) = accGet s.m.cur k.toNat (n.toNat + i) j) ∧
        (∀ i, i < 2 * modeOf f → vTag u.m.cur (r.toNat + i) = tF32) ∧ OnlyCrew s u ∧ CrewKept s.m.cur u.m.cur s.m.cur.flags s.m.cur.draw ∧
        PcsPast (ctx 0xD4) s.m.cur u.m.cur ∧
        RegsKept (List.range (min s.m.cur.width 32)) (fun _ => (List.range (2 * modeOf f)).map (fun i => (0, r.toNat + i))) s.m.cur u.m.cur) ∧
    (Issues s 0xD5 f pc → ∀ (k : BitVec 3) (r : BitVec 9) (n : Byte), f.d = .acc k → f.a = .v r → f.b = .imm n → k.toNat ∉ busyAccs s.m s.m.cur.core s.m.cur.tid →
      n.toNat + modeOf f ≤ 64 → sbRoom (on 0xD5) s.m.cur.core [.win s.m.cur.tid r.toNat (2 * modeOf f)] = .ok () → ∃ u, exec (.mwr f) s = .next u ∧
        (∀ q row col, row < 64 → col < 64 → accGet u.m.cur q row col =
          if q = k.toNat ∧ n.toNat ≤ row ∧ row < n.toNat + modeOf f then
            (if col % 32 < (ctx 0xD5).ca.width then vGet (ctx 0xD5).ca (r.toNat + 2 * (row - n.toNat) + col / 32) (col % 32) else 0)
          else accGet s.m.cur q row col) ∧
        OnlyCrew s u ∧ RegsKept [] (fun _ => []) s.m.cur { u.m.cur with acc := s.m.cur.acc } ∧
        CrewKept s.m.cur { u.m.cur with acc := s.m.cur.acc } s.m.cur.flags s.m.cur.draw ∧ PcsPast (ctx 0xD5) s.m.cur u.m.cur) ∧
    (Issues s 0xD6 f pc → ∀ k : BitVec 3, f.d = .acc k → k.toNat ∉ busyAccs s.m s.m.cur.core s.m.cur.tid → ∃ u, exec (.mzero f) s = .next u ∧
      (∀ q row col, row < 64 → col < 64 → accGet u.m.cur q row col = if q = k.toNat then 0 else accGet s.m.cur q row col) ∧
      OnlyCrew s u ∧ RegsKept [] (fun _ => []) s.m.cur { u.m.cur with acc := s.m.cur.acc } ∧
        CrewKept s.m.cur { u.m.cur with acc := s.m.cur.acc } s.m.cur.flags s.m.cur.draw ∧ PcsPast (ctx 0xD6) s.m.cur u.m.cur) ∧
    (Issues s 0xD7 f pc → ∀ r, f.d = .s r → ∃ u, exec (.mstat f) s = .next u ∧ sTag u.m.cur r.toNat = tRAW ∧
      sGet u.m.cur r.toNat = w64 (mstatWord (on 0xD7) (modeOf f)) ∧ RegStep s u (ctx 0xD7) (destRegs (ctx 0xD7) 64 1) s.m.cur.flags s.m.cur.draw)

/-- R412, R416, R421, R422: `btmpl` checks the index, then the template, and defines it for the launch; `gath` whose checks pass queues the gather,
with the addresses of its rows, and its registers change when it retires, word by word and with its tag; `lbase` binds, or unbinds, the core's
landing pages to a handle of the crew, unless another crew's binding stands; `bquery` reads a channel's counts of commands accepted, stamped and
outstanding. Where the rules leave a point open, the model's choice stands (assumption log 19, 28, 29). -/
def Obligations.EngineResults : Prop :=
  ∀ (s : State) (f : Fields) (pc : Word),
    let ctx (op : Nat) : Ctx := issueCtx s.m pc op f
    let on (op : Nat) : Mach := issued s.m pc op f
    (∀ r, f.d = .s r →
      let answers (i : Instr) (m : Mach) (v : Nat) : Prop := exec i s = .next { s with m := { m with cur := sSet m.cur r.toNat (w64 v) tI64 } }
      (∀ m bs, Issues s 0xE0 f pc → uniformLoad (on 0xE0) (ctx 0xE0) (opB (ctx 0xE0) 15 (ctx 0xE0).low).toNat 128 64 = .ok (m, bs) →
        let idx := (opA (ctx 0xE0) 6 (ctx 0xE0).low).toNat
        (255 < idx → answers (.btmpl f) m (2 ^ 63 + 1)) ∧ (idx ≤ 255 → tmplBad bs = true → answers (.btmpl f) m (2 ^ 63 + 2)) ∧
        (idx ≤ 255 → tmplBad bs = false → answers (.btmpl f) (m.modLaunch m.cur.launch (fun l => { l with tmpls := smPut l.tmpls idx bs })) 0)) ∧
      (Issues s 0xE4 f pc → let bound := ((on 0xE4).core s.m.cur.core).landing
        let other : Prop := ∃ b, bound = some b ∧ b.tid ≠ s.m.cur.tid
        (∀ k, f.a = .imm k → (other → answers (.lbase f) (on 0xE4) (2 ^ 63 + 1)) ∧
          (¬ other → answers (.lbase f) ((on 0xE4).modCore s.m.cur.core (fun c => { c with landing := none })) 0)) ∧
        (∀ q (k : Byte), f.a = .s q → f.b = .imm k →
          (other → answers (.lbase f) (on 0xE4) (2 ^ 63 + 1)) ∧ (¬ other → answers (.lbase f) ((on 0xE4).modCore s.m.cur.core (fun c =>
            { c with landing := some { base := sGet (ctx 0xE4).ca q.toNat, hnd := k.toNat, tid := s.m.cur.tid } })) 0))) ∧
      (canIssue s.m.cur = some pc → s.m.cur.late = none → (ctx 0xE4).e ≠ 0 → checkShort s.m s.m.cur (ctx 0xE4) (entryFor s.m s.m.cur 0xE4 f) = .ok () →
        (∀ L ∈ (ctx 0xE4).rlanes (entryFor s.m s.m.cur 0xE4 f),
          firstErr (fun p => checkRange (ctx 0xE4) [L] p.2.1 p.2.2.1 p.2.2.2) (positions (ctx 0xE4) (entryFor s.m s.m.cur 0xE4 f)) = .ok ()) →
        ∀ q (k : Byte), f.a = .s q → f.b = .imm k →
          let h := hGet s.m.cur k.toNat
          let traps (why : Nat) : Prop := exec (.lbase f) s = .next { s with m := halted s.m s.m.cur.tid pc (trapOf 0x06 none (w64 k.toNat) h (w64 why) 0) }
          (s.m.cur.decl.handles ≤ k.toNat → traps 0) ∧ (k.toNat < s.m.cur.decl.handles → hValid h = false → traps 1)) ∧
      (Issues s 0xE5 f pc → let c := (opA (ctx 0xE5) 6 (ctx 0xE5).low).toNat
        let q := chanGet s.m (c / 64) (c % 64)
        (511 < c → answers (.bquery f) (on 0xE5) 0) ∧
        (c ≤ 511 → answers (.bquery f) (on 0xE5) (if modeOf f = 0 then q.accepted else if modeOf f = 1 then q.stamped else q.queue.length)))) ∧
    (∀ r m₁ oks, f.d = .v r → Issues s 0xE1 f pc → let x := ctx 0xE1
      let n := modeOf f
      let word (L i : Nat) : Nat := (rowAddr x n L + 4 * i) % 2 ^ 64
      checkAll (on 0xE1) { whoOf (on 0xE1).cur with core := 344 + dieOf s.m.cur.core } 1 true (x.lanes.flatMap (fun L => (List.range n).map (fun i => { lane := L, va := word L i, size := 4 }))) =
        .ok (m₁, oks) →
      viewCheck m₁ m₁.cur.job x.cd.viewWait oks = .ok () →
      sbRoom m₁ m₁.cur.core (.win m₁.cur.tid r.toNat n :: x.lanes.map (fun L => .mem m₁.cur.job (rowAddr x n L) (4 * n))) 1 = .ok () →
      ∃ u g, exec (.gath f) s = .next u ∧ u.m.cur = m₁.cur ∧ u.m.mem = m₁.mem ∧ (u.m.core m₁.cur.core).gaths = (m₁.core m₁.cur.core).gaths ++ [g] ∧
        g.tid = m₁.cur.tid ∧ g.pc = pc ∧ g.first = r.toNat ∧ g.n = n ∧ g.tag = yTag f.ty.toNat ∧ g.rows.map (·.1) = x.lanes ∧
        (gathWords g).map (·.pa) = oks.map (·.pa)) ∧
    (∀ core g rest c, (s.m.core core).gaths = g :: rest → s.m.crew g.tid = some c → c.tid = g.tid → (g.rows.map (·.1)).Nodup →
      g.rows ≠ [] → (∀ row ∈ g.rows, row.1 < 64 ∧ row.2.length = g.n ∧ ∀ w ∈ row.2, isAperture w.pa = false ∧ s.m.held.contains (w.pa / 128) = false ∧
        engineHeld s.m g.id (w.pa / 128) = false ∧ (smFind s.m.lineKey (w.pa / 128) = none → setFull s.m (w.pa / 128) = false)) → gathKey s.m g = none →
      ∃ u c', exec (.gatherRetire core none) s = .next u ∧ u.m.crew g.tid = some c' ∧ u.m.mem = s.m.mem ∧ (u.m.core core).gaths = rest ∧
        (∀ row ∈ g.rows, ∀ i w, row.2[i]? = some w → vGet c' (g.first + i) row.1 = BitVec.ofNat 32 (memNum s.m.mem w.pa 4)) ∧
        (∀ i, i < g.n → vTag c' (g.first + i) = g.tag) ∧ c' = { c with v := c'.v, vtag := c'.vtag } ∧
        RegsKept (g.rows.map (·.1)) (fun _ => (List.range g.n).map (fun i => (0, g.first + i))) c c') ∧
    (∀ core g rest c e, (s.m.core core).gaths = g :: rest → s.m.crew g.tid = some c → c.tid = g.tid → c.late = none →
      (∀ w ∈ gathWords g, isAperture w.pa = false ∧ s.m.held.contains (w.pa / 128) = false ∧
        engineHeld s.m g.id (w.pa / 128) = false ∧ (smFind s.m.lineKey (w.pa / 128) = none → setFull s.m (w.pa / 128) = false)) → gathKey s.m g = some e →
      ∃ u, exec (.gatherRetire core none) s = .next u ∧ u.m.crew g.tid = some { c with late := some e } ∧ u.m.mem = s.m.mem ∧ (u.m.core core).gaths = rest)

/-- R417 to R420: `coll` whose checks pass takes a ticket, in `s`D with tag RAW, and contributes the elements of its buffer: without the domain it
names the ticket is done with status 6; `cwait` parks on a ticket that stands, and answers status 5 for another; a collective that fails gives
every ticket its status and writes nothing, one that succeeds writes the result to every contributor's `DBUF` and gives status 0; contributions in
tree order give the same result in whatever order they came. Where the rules leave a point open, the model's choice stands (assumption log 4, 28).
-/
def Obligations.CollectiveResults : Prop :=
  (∀ (s : State) (f : Fields) (pc : Word) (r : BitVec 7) (i : Instr) (arr : Bool) (m m₁ m₂ : Mach) (bs data : List Byte) (o₁ o₂ : List Ok),
    f.d = .s r → (i = .collOrdered f ∧ arr = false) ∨ (i = .collArrival f ∧ arr = true) → Issues s 0xE2 f pc →
    let x := issueCtx s.m pc 0xE2 f
    let d := collDesc bs
    let len := d.w * collSize d.ty
    let buf (va : Nat) : List Acc := { lane := x.low, va := va, size := collSize d.ty } :: (pagesOf va len).map (fun a => { a with lane := x.low })
    let w : Who := { core := 352 + dieOf m₂.cur.core, job := m₂.cur.job, sup := false, op := crewOp m₂.cur }
    let noDom : Prop := d.dom = true ∧ ∀ j, m₂.job m₂.cur.job = some j → j.domain = none
    uniformLoad (issued s.m pc 0xE2 f) x (opA x 15 x.low).toNat 64 8 = .ok (m, bs) →
    (∀ o, collBad bs = some o → exec i s = .next { s with m := halted s.m s.m.cur.tid pc (trapOf 0x02 none 0 (w64 (0x400 + o)) 0 0) }) ∧
    (collBad bs = none → checkAll m (whoOf m.cur) 1 true (buf d.sbuf) = .ok (m₁, o₁) → checkAll m₁ (whoOf m₁.cur) 2 true (buf d.dbuf) = .ok (m₂, o₂) →
      sbRoom m₂ m₂.cur.core [.mem m₂.cur.job d.sbuf len, .mem m₂.cur.job d.dbuf len] = .ok () →
      (m₂.cur.tickets.filter (fun t => t.status.isNone)).length < 16 → heldLines m₂ w [(d.sbuf, len)] = [] →
      copyBusy m₂ w [(d.sbuf, len), (d.dbuf, len)] = false →
      ∀ m', engineBytes w len m₂ d.sbuf = .data data m' → let m₃ := apUsed m' w.op
        let t : Ticket := { id := ticketOf m₃.cur, job := m₂.cur.job, key := d.key, status := none, consumed := false }
        let ticket (t : Ticket) : Mach :=
          { m₃ with nextOp := m₃.nextOp + 1, cur := sSet { m₃.cur with tickets := m₃.cur.tickets ++ [t] } r.toNat (w64 t.id) tRAW }
        (noDom → exec i s = .next { s with m := ticket { t with status := some 6 } }) ∧
        (¬ noDom → ∃ p : Contrib, p.op = m₃.nextOp ∧ p.src = none ∧ p.ticket = t.id ∧ p.level = d.level ∧ p.block = d.block ∧ p.dbuf = d.dbuf ∧ p.bad = false ∧
          p.data = toElems (collSize d.ty) d.w data ∧ p.tid = m₃.cur.tid ∧
          (combinesHere m₃ t.job d.dom = true → exec i s = .next { s with m := collArrive (ticket t) t.job arr d p }) ∧
          (combinesHere m₃ t.job d.dom = false → exec i s = .next { s with m := collSend (ticket t) t.job arr d p })))) ∧
  (∀ (s : State) (f : Fields) (pc : Word) (r : BitVec 7), f.d = .s r → Issues s 0xE3 f pc →
    let x := issueCtx s.m pc 0xE3 f
    let i := issued s.m pc 0xE3 f
    let id := (opA x 6 x.low).toNat
    ((∃ t ∈ s.m.cur.tickets, t.id = id ∧ t.consumed = false) → exec (.cwait f) s = .next { s with m := park i s.m.cur.tid (.coll id f.d) }) ∧
    ((∀ t ∈ s.m.cur.tickets, t.id = id → t.consumed = true) →
      exec (.cwait f) s = .next { s with m := { i with cur := sSet i.cur r.toNat (w64 (2 ^ 63 + 5)) tI64 } })) ∧
  (∀ (m : Mach) (id st : Nat) (t : Ticket) (r : BitVec 7), m.cur.slots ≠ [] → m.cur.tickets.find? (fun x => x.id == id) = some t → t.status = some st →
    let c := (waitFinish m m.cur.tid (.coll id (.s r))).cur
    sGet c r.toNat = (if st = 0 then 0 else w64 (2 ^ 63 + st)) ∧ sTag c r.toNat = tI64 ∧ c.status = .ready ∧
      c.tickets = m.cur.tickets.map (fun x => if x.id = id then { x with consumed := true } else x)) ∧
  (∀ (s : State) (job : Nat) (key : Word) (err : Bool) (x : Coll), s.m.colls.find? (fun y => sameColl job key y && y.ready) = some x →
    x.status ≠ 0 ∨ err = true → (∀ p ∈ x.parts, p.src = none ∧ ∀ c, s.m.crew p.tid = some c → c.tid = p.tid) →
    let st := if x.status ≠ 0 then x.status else 3
    ∃ u, exec (.collectiveComplete job key err) s = .next u ∧ u.m.mem = s.m.mem ∧
      u.m.colls = s.m.colls.eraseP (fun y => sameColl job key y && y.ready) ∧
      ∀ p ∈ x.parts, ∀ c, s.m.crew p.tid = some c → ∃ c', u.m.crew p.tid = some c' ∧ c'.tickets.map (·.id) = c.tickets.map (·.id) ∧
        ∀ t ∈ c'.tickets, t.id = p.ticket → t.status = some st) ∧
  (∀ (s : State) (job : Nat) (key : Word) (x : Coll) (m' : Mach), s.m.colls.find? (fun y => sameColl job key y && y.ready) = some x →
    x.status = 0 → (∀ p ∈ x.parts, p.src = none ∧ p.bad = false) →
    let len := x.w * collSize x.ty
    let die := match x.parts.head?.bind (fun p => s.m.crew p.tid) with | some c => dieOf c.core | none => 0
    let w : Who := { core := 352 + die, job := job, sup := false }
    let bufs := x.parts.map (fun p => (p.dbuf, len))
    let m₀ : Mach := { s.m with colls := s.m.colls.eraseP (fun y => sameColl job key y && y.ready) }
    let vals := if combinesHere s.m job x.dom then (if x.arrival then collFold x.op x.ty x.parts else collNode x.op x.ty x.parts x.l 0) else x.result
    heldLines s.m w bufs = [] → engineShort s.m w bufs = false →
    x.parts.foldl (fun (a : Mach × Bool) p => let r := engineWrite a.1 w p.dbuf (ofElems (collSize x.ty) vals); (r.1, a.2 && r.2)) (m₀, true) = (m', true) →
    (∀ p ∈ x.parts, ∀ c, m'.crew p.tid = some c → c.tid = p.tid) →
    ∃ u, exec (.collectiveComplete job key false) s = .next u ∧ u.m.mem = m'.mem ∧ u.m.colls = m'.colls ∧
      ∀ p ∈ x.parts, ∀ c, m'.crew p.tid = some c → ∃ c', u.m.crew p.tid = some c' ∧ c'.tickets.map (·.id) = c.tickets.map (·.id) ∧
        ∀ t ∈ c'.tickets, t.id = p.ticket → t.status = some 0) ∧
  (∀ (op ty l b : Nat) (ps qs : List Contrib), ps.Perm qs → ps.Pairwise (fun p q => nodesMeet p q = false) →
    collNode op ty ps l b = collNode op ty qs l b) ∧
  (∀ (op ty : Nat) (p q : Contrib), p.level = 0 → q.level = 0 → p.block = 0 → q.block = 1 →
    collNode op ty [q, p] 1 0 = collZip op ty p.data q.data ∧ collFold op ty [q, p] = collZip op ty q.data p.data)

/-! ### Traps and system instructions (R248 to R263, R424 to R440) -/

/-- R251, R253, R425, R426: `trap` raises SOFT with its three values and `brk` BREAK with its number, at their own address; a record is 128 bytes with
the code, its flags, the sequence number, the lines discarded, the addresses, the task's digest, the launch, the four values and the cycle, at the
offsets of R251. -/
def Obligations.TrapsAndTheirRecords : Prop :=
  (∀ (s : State) (f : Fields) (pc : Word),
    (Issues s 0xF0 f pc → let x := issueCtx s.m pc 0xF0 f
      exec (.trap f) s = .next { s with m := takeTrap { s.m with cur := { s.m.cur with stall := none } } s.m.cur.tid <|
        { code := 0x50, lane := none, info0 := opA x 6 x.low, info1 := opB x 6 x.low, info2 := opC x 6 x.low, info3 := 0, commit := false, pc := pc, late := false } }) ∧
    (Issues s 0xFB f pc → exec (.brk f) s = .next { s with m := takeTrap { s.m with cur := { s.m.cur with stall := none } } s.m.cur.tid <|
        { code := 0x51, lane := none, info0 := w64 (numOf f), info1 := 0, info2 := 0, info3 := 0, commit := false, pc := pc, late := false } })) ∧
  ∀ (m : Mach) (c : Crew) (e : Exc) (dest : Bool) (seq : Nat),
    let b := trapRecord m c e dest seq
    let sys := systemCode e.code
    let hard := !sys && c.hardened
    let flags := fld b 1 1
    b.length = 128 ∧ fld b 0 1 = e.code % 256 ∧ bits flags 1 0 = (if hard || engBusy m c then 2 else if e.late then 1 else 0) ∧
    bit flags 2 = hard ∧ bit flags 3 = e.lane.isSome ∧ bit flags 4 = dest ∧ bit flags 5 = engBusy m c ∧ bit flags 6 = e.commit ∧ bit flags 7 = false ∧
    fld b 2 1 = e.lane.getD 0 % 256 ∧ fld b 3 1 = 0 ∧ fld b 4 4 = seq % 2 ^ 32 ∧ fld b 8 4 = (if sys then 0 else (c.seg.length + c.keyDrop) % 2 ^ 32) ∧ fld b 12 4 = 0 ∧
    fld b 16 8 = e.pc.toNat ∧ fld b 24 8 = (if e.late then (issueAddr c).getD e.pc else e.pc).toNat ∧ fld b 32 8 = (pdig c.ped).toNat ∧ fld b 40 8 = c.hnd % 2 ^ 64 ∧
    fld b 48 8 = e.info0.toNat ∧ fld b 56 8 = e.info1.toNat ∧ fld b 64 8 = e.info2.toNat ∧ fld b 72 8 = e.info3.toNat ∧ fld b 80 8 = m.clk % 2 ^ 64 ∧
    zeros b 88 40 = true

/-- R80, R249, R251, R252, R256, R259, R260 to R262: a program-level trap with a usable handler and a free entry puts its record into the lowest one,
discards the segment, stops the crew's sync memberships unless it is SOFT, leaves the crew trapped and without slots, counts the handler in the
launch and pushes its task, whose argument is the record's address, at the newest end of the core's deque. Without one the record goes to the die's
Lennas log, the launch is cancelled and a faulted notice is queued. A system trap goes to the log too and keeps the segment: after BREAK the task
stays trapped, ECCFATAL faults its job besides, and YIELDFORCED counts for the job and pre-empts the task. A crew leaves its slots only once its
aperture access is complete. Where the rules leave a point open, the model's choice stands (assumption log 6, 11). -/
def Obligations.TakingATrap : Prop :=
  ∀ (m : Mach) (e : Exc), let c := m.cur
    (∀ l d idx, systemCode e.code = false → m.launch c.launch = some l → l.handle = c.launch → handlerOf m l = some d → freeEntry l = some idx → pedH c.ped = false →
      let addr := l.trapBase + 128 * idx
      ∃ (t₀ t : Mach) (r : TaskRec), takeTrap m c.tid e = dequeIn (jobPut (switchOut t c.tid) c.job addr (trapRecord m c e false l.trapSeq)) c.core r ∧
        r.arg = w64 addr ∧ r.decl = d.addr ∧ r.kind = .root ∧ r.launch = c.launch ∧ r.tid = m.nextTid ∧ r.ped = pedOfHandler (pedRoot c.ped) ∧
        t = (if e.code = 0x50 then t₀ else memberStopAll t₀ c.tid true) ∧
        t₀.cur = { c with status := .trapped addr, seg := [], hardened := false, keyDrop := 0, late := none, stall := none, pre := none, preBy := none, resumable := false } ∧
        t.cur = { t₀.cur with h := t.cur.h } ∧ t.mem = m.mem ∧ t.nextTid = m.nextTid + 1 ∧
        t.launch c.launch = some
          { l with trapSeq := l.trapSeq + 1, counter := l.counter + 1, traps := l.traps ++ [{ idx := idx, tid := c.tid, handler := m.nextTid, answered := false }] }) ∧
    (∀ l, systemCode e.code = false → m.launch c.launch = some l → handlerOf m l = none ∨ freeEntry l = none ∨ pedH c.ped = true →
      let die := dieOf c.core
      let addr := logBase die + 128 * (m.die die).log.length
      ∃ t : Mach, takeTrap m c.tid e = notice (cancelLaunch t c.launch) 3 c.job ∧ t.mem = m.mem ∧
        t.cur = { c with status := .trapped addr, seg := [], hardened := false, keyDrop := 0, late := none, stall := none, pre := none, preBy := none, resumable := false } ∧
        t.launch c.launch = some { l with trapSeq := l.trapSeq + 1 } ∧
        (t.die die).log = (m.die die).log ++ [{ tid := c.tid, record := trapRecord m c e true l.trapSeq, answered := false }]) ∧
    (∀ l, systemCode e.code = true → m.launch c.launch = some l →
      let die := dieOf c.core
      ∃ t : Mach, t.mem = m.mem ∧ t.launch c.launch = some { l with trapSeq := l.trapSeq + 1 } ∧
        (t.die die).log = (m.die die).log ++ [{ tid := c.tid, record := trapRecord m c e true l.trapSeq, answered := false }] ∧
        (e.code ≠ 0x40 → t.cur = { c with status := .trapped (logBase die + 128 * (m.die die).log.length), stall := none, late := none }) ∧
        (e.code = 0x51 → takeTrap m c.tid e = switchOut t c.tid) ∧ (e.code = 0x30 → takeTrap m c.tid e = jobFault (switchOut t c.tid) c.job) ∧
        (e.code = 0x40 → t.cur = { c with stall := none } ∧ takeTrap m c.tid e = preemptOut t c.tid ∧
          ∀ j, m.job c.job = some j → t.job c.job = some { j with yieldForced := j.yieldForced + 1 })) ∧
    (∀ l i, freeEntry l = some i → i < 4096 ∧ (∀ t ∈ l.traps, t.idx ≠ i) ∧ ∀ j, j < i → ∃ t ∈ l.traps, t.idx = j) ∧
    (c.slots = [] → switchOut m c.tid = m) ∧
    (c.slots ≠ [] → hasSteps m c.core c.tid = false → c.ap ≠ none → (switchOut m c.tid).mem = m.mem ∧
      (switchOut m c.tid).cur = { c with leaving := true, stall := none, pre := none, leeHeld := 0, viewWait := [] }) ∧
    (c.slots ≠ [] → hasSteps m c.core c.tid = false → c.ap = none → let t := switchOut m c.tid
      let k := settle m.clk { c with slots := [], leaving := false, stall := none, pre := none, leeHeld := 0, viewWait := [], openB := none, closedB := [],
                                     pend := if c.chk then c.pend else [] }
      t.mem = m.mem ∧ t.cur = { k with resumable := t.cur.resumable, resAt := t.cur.resAt } ∧ (c.preBy = none → t.cur = k) ∧
        (c.preBy ≠ none → t.cur.resumable = false)) ∧
    (∀ p, c.pre = some p → c.slots ≠ [] → hasSteps m c.core c.tid = false → (preemptOut m c.tid).cur.preBy = some p ∧ (preemptOut m c.tid).cur.resumable = false ∧
      (preemptOut m c.tid).cur.seg = c.seg ∧ (preemptOut m c.tid).mem = m.mem)

/-- R252, R257, R427: `eret` off a control core needs the handler flag, else PERM; a record that is not in use, or answered, or another's answers
status 1 and changes nothing; else the segment is committed, the record marked answered, so that no later `eret` finds it, and the action taken:
END instead of RETRY or NEXT when stores would be lost. RETRY makes the crew ready where it stood; NEXT moves its Active lanes past the
instruction. Where the rules leave a point open, the model's choice stands (assumption log 30). -/
def Obligations.ReturnFromTrap : Prop :=
  (∀ (s : State) (f : Fields) (pc : Word) (r : BitVec 7) (mode : Nat) (i : Instr), f.d = .s r →
    (mode = 0 ∧ i = .eretRetry f) ∨ (mode = 1 ∧ i = .eretNext f) ∨ (mode = 2 ∧ i = .eretEnd f) → Issues s 0xF1 f pc →
    let x := issueCtx s.m pc 0xF1 f
    let n := issued s.m pc 0xF1 f
    let a := (opA x 6 x.low).toNat
    (isControl s.m.cur.core = false → pedH s.m.cur.ped = false → exec i s = .next { s with m := halted s.m s.m.cur.tid pc (trapOf 0x21 none 0 0xF1 0 0) }) ∧
    (isControl s.m.cur.core = true ∨ pedH s.m.cur.ped = true →
      (∀ m, findRecord n n.cur a = none → ((logAt n a).isSome = true ∧ m = n) ∨ (logAt n a = none ∧ ∃ b, uniformLoad n x a 128 8 = .ok (m, b)) →
        exec i s = .next { s with m := { m with cur := sSet m.cur r.toNat (w64 (2 ^ 63 + 1)) tI64 } }) ∧
      (∀ q h, findRecord n n.cur a = some q → commit n = .error h → exec i s = .next { s with m := halted s.m s.m.cur.tid pc h }) ∧
      (∀ q m, findRecord n n.cur a = some q → commit n = .ok m →
        let action := if mode < 2 ∧ fld q.bytes 8 4 ≠ 0 then 2 else mode
        let t := markAnswered m m.cur a
        let t := { t with cur := sSet t.cur r.toNat (w64 action) tI64 }
        exec i s = .next { s with m := if action = 2 then endTrapped t q.tid else resumeTrapped t q (action == 1) }))) ∧
  (∀ (m : Mach) (c : Crew) (a : Nat), findRecord (markAnswered m c a) c a = none) ∧
  (∀ (m : Mach) (q : RecRef) (next : Bool) (c : Crew) (k : Nat), m.crew q.tid = some c → c.tid = q.tid → c.status = .trapped k →
    let t := resumeTrapped m q next
    ∃ c', t.mem = m.mem ∧ t.crew q.tid = some c' ∧ c'.status = .ready ∧
      c' = { c with status := .ready, pcs := c'.pcs, placed := c'.placed, viewWait := [], resumable := c'.resumable, resAt := c'.resAt } ∧
      let skip : Prop := next = true ∧ (fld q.bytes 1 1 % 4 = 0 ∨ (fld q.bytes 1 1 % 4 = 2 ∧ fld q.bytes 24 8 = fld q.bytes 16 8))
      (¬ skip → c'.pcs = c.pcs ∧ c'.placed = c.placed) ∧
      (skip → c'.placed = 0 ∧ ∀ L, L < c.pcs.length → pcOf c' L =
        if inM (activeLanes c) L then w64 (fld q.bytes 16 8 + instrLen m c.job (fld q.bytes 16 8)) else pcOf c L))

/-- R424, R439, R440: off a control core an instruction that only supervisor privilege may issue raises PERM with the opcode and has no effect. -/
def Statement.SupervisorInstructionsAreChecked : Prop :=
  ∀ (s : State) (f : Fields) (pc : Word) (op : Nat) (i : Instr), isControl s.m.cur.core = false →
    (op, i) ∈ [(0xF2, .sysr f), (0xF3, .sysw f), (0xF3, .keyld f), (0xF3, .keyclr f), (0xF3, .rsidx f), (0xF3, .wake f), (0xF4, .icinv f),
      (0xF5, Instr.tlbinv f), (0xFA, .halt f), (0xFC, .monRdclr f), (0xFC, .monSel f)] ∨ (op = 0xF6 ∧ i = .launch f ∧ f.b ≠ .none) →
    Issues s op f pc → exec i s = .next { s with m := halted s.m s.m.cur.tid pc (trapOf 0x21 none 0 (w64 op) 0 0) }

/-- R428 to R431: on a control core `sysr` reads the register that it names into `s`D with tag RAW; a `sysw` acts after the crew's segment is
committed, and the register then reads as it was written, but for bits that are not there and for `PTROOT` and `SHVBASE` with a reserved bit, which
keep their value; no other register changes with it, except what `JOBSEL` selects. -/
def Statement.SystemRegistersReadAndWrite : Prop :=
  (∀ (s : State) (f : Fields) (pc : Word), isControl s.m.cur.core = true →
    (Issues s 0xF2 f pc → ∀ r, f.d = .s r → let i := issued s.m pc 0xF2 f
      exec (.sysr f) s = .next { s with m := { i with cur := sSet i.cur r.toNat (sysRead s.boot i (numOf f)) tRAW } }) ∧
    (Issues s 0xF3 f pc → ∀ m, commit (issued s.m pc 0xF3 f) = .ok m →
      let x := issueCtx s.m pc 0xF3 f
      exec (.sysw f) s = .next { s with m := sysWrite m (numOf f) (opB x 6 x.low) })) ∧
  ∀ (b : Boot) (m : Mach) (v : Word),
    let j := (m.core m.cur.core).jobsel.toNat % 65536
    sysRead b (sysWrite m 0x10 v) 0x10 = w64 (v.toNat % 65536) ∧
    sysRead b (sysWrite m 0x11 v) 0x11 = (if v.toNat / 2 ^ 52 = 0 ∧ v.toNat % 2 ^ 9 = 0 then v else sysRead b m 0x11) ∧
    sysRead b (sysWrite m 0x12 v) 0x12 = (if v.toNat / 2 ^ 57 = 0 ∧ v.toNat % 2 ^ 55 = 0 then v else sysRead b m 0x12) ∧
    (∀ k, k < 4 → sysRead b (sysWrite m (0x31 + k) v) (0x31 + k) = v) ∧
    (∀ k, k < 8 → sysRead b (sysWrite m (0x60 + k) v) (0x60 + k) = v) ∧
    (∀ k, k < 8 → ∀ q, smGet 0 ((sysWrite m (0x20 + k) v).core m.cur.core).keydata q = if q = k then v else smGet 0 (m.core m.cur.core).keydata q) ∧
    (∀ r r', r ≠ 0x10 → r' ≠ r → sysRead b (sysWrite m r v) r' = sysRead b m r') ∧
    (∀ r, (sysWrite m r v).mem = m.mem ∧ (sysWrite m r v).cur = m.cur) ∧
    (j ≠ 0 → ∀ q, m.job j = some q → sysRead b m 0x11 = q.ptroot ∧ sysRead b m 0x12 = q.shvbase)

/-- R424, R428 to R431, R439, R440: the privilege check of the supervisor instructions, and the system registers. Where the rules leave a point open,
the model's choice stands (assumption log 30). -/
def Obligations.SystemRegisterResults : Prop := Statement.SupervisorInstructionsAreChecked ∧ Statement.SystemRegistersReadAndWrite

/-- R55, R195, R430 to R433, R438: the writes with an effect of their own. `KEYLD` loads an empty slot from the staged words and refuses a full one;
either way the staged words go to zero. `KEYCLR` empties the slot. `RSIDX` loads the staged entry or sets `REFUSED`. `WAKE` readies the halted
control cores it names and notes the wake on the others; a `halt` that finds one noted returns at once. Where the rules leave a point open, the
model's choice stands (assumption log 7, 30). -/
def Obligations.SystemWriteResults : Prop :=
  ∀ (s : State) (f : Fields) (pc : Word), isControl s.m.cur.core = true →
    (Issues s 0xF3 f pc → ∀ m, commit (issued s.m pc 0xF3 f) = .ok m →
      let x := issueCtx s.m pc 0xF3 f
      let v := (opB x 6 x.low).toNat
      let core := m.cur.core
      let k := m.core core
      (∃ u, exec (.keyld f) s = .next { s with m := u } ∧ u.mem = m.mem ∧ u.cur = m.cur ∧ (u.core core).keydata = [] ∧
        (∀ n, n ≠ v % 256 → smFind u.keys n = smFind m.keys n) ∧
        (smFind m.keys (v % 256) = none → smFind u.keys (v % 256) = some (keyOf k 0, keyOf k 4) ∧ (u.core core).keystat = w64 (0x100 + v % 256)) ∧
        (∀ q, smFind m.keys (v % 256) = some q → smFind u.keys (v % 256) = some q ∧ (u.core core).keystat = w64 (0x200 + v % 256))) ∧
      (∃ u, exec (.keyclr f) s = .next { s with m := u } ∧ u.mem = m.mem ∧ smFind u.keys (v % 256) = none ∧ (u.core core).keystat = w64 (0x300 + v % 256) ∧
        (∀ n, n ≠ v % 256 → smFind u.keys n = smFind m.keys n) ∧ (∀ line, smFind u.lineKey line ≠ some (v % 256))) ∧
      (let b := (List.range 4).flatMap (fun n => toBytes 8 (smGet 0 k.rsdata n).toNat)
       let refused : Prop := fld b 0 8 % 128 ≠ 0 ∨ fld b 8 8 % 128 ≠ 0 ∨ bits (fld b 22 1) 6 3 ≠ 0 ∨ zeros b 23 9 = false
       (refused → exec (.rsidx f) s = .next { s with m := { m with rsidx := w64 (2 ^ 63 + m.rsidx.toNat % 64) } }) ∧
       (¬ refused → exec (.rsidx f) s = .next { s with m := { m with rsidx := w64 (v % 64), rsched := smPut m.rsched (v % 64) b } })) ∧
      (∃ u, exec (.wake f) s = .next { s with m := u } ∧ u.mem = m.mem ∧ RegsKept [] (fun _ => []) m.cur u.cur ∧ ∀ n, n < 16 →
        (bit v n = false → (u.core (320 + n)).pendWake = (m.core (320 + n)).pendWake) ∧
        (bit v n = true → (∀ c ∈ m.crews, c.core = 320 + n → c.status ≠ .halted) → (u.core (320 + n)).pendWake = true) ∧
        (bit v n = true → ∀ c ∈ u.crews, c.core = 320 + n → c.status ≠ .halted))) ∧
    (Issues s 0xFA f pc → let i := issued s.m pc 0xFA f
      ((i.core s.m.cur.core).pendWake = true → exec (.halt f) s = .next { s with m := i.modCore s.m.cur.core (fun k => { k with pendWake := false }) }) ∧
      ((i.core s.m.cur.core).pendWake = false → exec (.halt f) s = .next { s with m := { i with cur := { i.cur with status := .halted } } })) ∧
    (Issues s 0xF4 f pc → let x := issueCtx s.m pc 0xF4 f
      ((opB x 6 x.low).toNat = 0 → exec (.icinv f) s = .next { s with m := issued s.m pc 0xF4 f }) ∧
      ((opB x 6 x.low).toNat ≠ 0 → let a := (opA x 6 x.low).toNat
        ∃ u, exec (.icinv f) s = .next u ∧ u.m.mem = s.m.mem ∧
        (∀ t c, (issued s.m pc 0xF4 f).crew t = some c → ∃ c', u.m.crew t = some c' ∧ c' = { c with reconvOk := c'.reconvOk } ∧
          ∀ e, e ∈ c'.reconvOk ↔ e ∈ c.reconvOk ∧ ¬ (c.job = s.m.cur.job ∧ e.2 < a + (opB x 6 x.low).toNat ∧ a < e.2 + 8)) ∧
        RegsKept [] (fun _ => []) s.m.cur u.m.cur ∧ PcsPast x s.m.cur u.m.cur)) ∧
    (Issues s 0xF5 f pc → let x := issueCtx s.m pc 0xF5 f
      let i := issued s.m pc 0xF5 f
      let job := (opA x 6 x.low).toNat
      let len := (opC x 6 x.low).toNat
      let b := (opB x 6 x.low).toNat
      (65535 < job ∨ (f.c ≠ .none ∧ 2 ^ 57 < len) ∨ (f.c ≠ .none ∧ len = 0 ∧ holdsTranslation i job = false) → exec (.tlbinv f) s = .next { s with m := i }) ∧
      (job ≤ 65535 → f.c = .none ∨ (0 < len ∧ len ≤ 2 ^ 57) → holdsTranslation i job = false → ∃ u, exec (.tlbinv f) s = .next u ∧ u.m.mem = s.m.mem ∧
        u.m.cur = i.cur ∧ ∀ t e, (∃ k ∈ u.m.cores, t = k.2.l1) ∨ (∃ k ∈ u.m.dies, t = k.2.tlb) → e ∈ t.ents → e.job = job → e.base < 2 ^ 64 →
          f.c ≠ .none ∧ (b + len ≤ e.base ∨ e.base + pageBytes e.n ≤ b)))

/-- R31, R75 to R78, R434 to R437, R439: `launch` refuses a record with a status and no effect, else commits, makes the launch, counts it in the
caller's and answers its handle; by a control core it reads the record of any job and starts the node that it names; `cancel` answers its status
and cancels an object of its own job; `hcount` reads an object's counter; `leave` answers the units held, and a hold beyond the budget is refused;
`mon` reads ten words of a capture, zeros where there is none, and `mon.sel` writes no register. Where the rules leave a point open, the model's
choice stands (assumption log 4, 9, 27, 31). -/
def Obligations.LaunchAndMonitorResults : Prop :=
  ∀ (s : State) (f : Fields) (pc : Word) (r : BitVec 7), f.d = .s r →
    let on (op : Nat) : Mach := issued s.m pc op f
    let a (op : Nat) : Nat := (opA (issueCtx s.m pc op f) 6 (issueCtx s.m pc op f).low).toNat
    let gives (i : Instr) (m : Mach) (v : Nat) (t : Tag) : Prop := exec i s = .next { s with m := { m with cur := sSet m.cur r.toNat (w64 v) t } }
    let own : Option (Nat × ObjRef) := (objectOf (on 0xF7) (a 0xF7)).filter (fun e => e.1 == s.m.cur.job)
    let object (op : Nat) : Option (Nat × ObjRef) := (objectOf (on op) (a op)).filter (fun e => isControl s.m.cur.core || e.1 == s.m.cur.job)
    (∀ m b, Issues s 0xF6 f pc → f.b = .none → uniformLoad (on 0xF6) (issueCtx s.m pc 0xF6 f) (a 0xF6) 128 8 = .ok (m, b) →
      (∀ st, launchRefused m m.cur.job b = some st → gives (.launch f) m (2 ^ 63 + st) tRAW) ∧
      (∀ j m₁, launchRefused m m.cur.job b = none → m.job m.cur.job = some j → commit m = .ok m₁ →
        ∃ q h m₂, makeLaunch { m₁.modLaunch m₁.cur.launch (fun l => { l with counter := l.counter + 1 }) with
              cur := { m₁.cur with lseq := m₁.cur.lseq + 1, sid := 0 } } j q = (h, m₂) ∧
          q.addr = fld b 8 8 ∧ q.nroot = fld b 16 2 ∧ q.affbase = fld b 18 2 ∧ q.tile = fld b 20 4 ∧ q.seed = w64 (fld b 24 8) ∧
          q.node = none ∧ q.issuer = some m₁.cur.launch ∧ q.iped = m₁.cur.ped ∧ gives (.launch f) m₂ (launchHnd m₂ h) tRAW)) ∧
    (∀ m b, Issues s 0xF6 f pc → f.b ≠ .none → isControl s.m.cur.core = true →
      let job := (opB (issueCtx s.m pc 0xF6 f) 6 (issueCtx s.m pc 0xF6 f).low).toNat % 65536
      loadRecord (on 0xF6) (issueCtx s.m pc 0xF6 f) { core := s.m.cur.core, job := job, sup := true } (a 0xF6) 128 8 = .ok (m, b) →
      (∀ st, launchRefused m job b = some st → gives (.launch f) m (2 ^ 63 + st) tRAW) ∧
      (∀ j m₁, launchRefused m job b = none → m.job job = some j → commit m = .ok m₁ →
        ∃ q h m₂, makeLaunch m₁ j q = (h, m₂) ∧ q.addr = fld b 8 8 ∧ q.nroot = fld b 16 2 ∧ q.affbase = fld b 18 2 ∧ q.tile = fld b 20 4 ∧
          q.seed = w64 (fld b 24 8) ∧ q.node = launchNode j b ∧ q.issuer = none ∧
          (launchNode j b = none → gives (.launch f) m₂ (launchHnd m₂ h) tRAW) ∧
          (∀ n, launchNode j b = some n → ∃ m₃, gives (.launch f) m₃ (launchHnd m₂ h) tRAW ∧ m₃ = m₂.modJob job (fun j => { setNode j n .running with
            nodeH := smPut j.nodeH n (launchHnd m₂ h) })))) ∧
    (∀ (m m₂ : Mach) (j : Job) (q : LaunchReq) (h : Nat), makeLaunch m j q = (h, m₂) → m₂.mem = m.mem ∧ m₂.cur = m.cur ∧
      ∃ l, m₂.launch h = some l ∧ l.handle = h ∧ l.hnd = launchHandle m j q ∧ (j.nextLsn ≤ 0xFFFFFFFF → l.lsn = j.nextLsn) ∧ l.job = j.id ∧ l.counter = q.nroot ∧ l.issuer = q.issuer ∧ l.started = false) ∧
    (Issues s 0xF7 f pc →
      (own = none → gives (.cancel f) (on 0xF7) (2 ^ 63 + 2) tI64) ∧
      (∀ e, own = some e → objectOver (on 0xF7) e.2 = true → gives (.cancel f) (on 0xF7) (2 ^ 63 + 1) tI64) ∧
      (∀ e, own = some e → objectOver (on 0xF7) e.2 = false →
        exec (.cancel f) s = .next { s with m := cancelObject { on 0xF7 with cur := sSet (on 0xF7).cur r.toNat 0 tI64 } e.2 })) ∧
    (Issues s 0xF9 f pc → ∃ u, exec (.hcount f) s = .next u ∧ sTag u.m.cur r.toNat = tI64 ∧
      sGet u.m.cur r.toNat = (match object 0xF9 with | some e => w64 (counterOf (on 0xF9) e.2) | none => 0) ∧
      (∀ p L, f.c = .p p → L ∈ (issueCtx s.m pc 0xF9 f).lanes → pBit u.m.cur p.val L = (object 0xF9).isSome) ∧
      RegStep s u (issueCtx s.m pc 0xF9 f) (fun L => (1, r.toNat) :: regsOf s.m.cur { cls := 0 } [L] f.c) s.m.cur.flags s.m.cur.draw) ∧
    (Issues s 0xF8 f pc →
      ((((on 0xF8).die (dieOf s.m.cur.core)).lee.budget < a 0xF8 → gives (.leaveHold f) (leeWithdraw (on 0xF8) (on 0xF8).cur) (2 ^ 63 + 1) tI64) ∧
       (∀ m, a 0xF8 ≤ ((on 0xF8).die (dieOf s.m.cur.core)).lee.budget → leeAsk (on 0xF8) (on 0xF8).cur (a 0xF8) = .ok m →
         gives (.leaveHold f) { m with cur := { m.cur with leeHeld := m.cur.leeHeld + a 0xF8 } } (m.cur.leeHeld + a 0xF8) tI64) ∧
       gives (.leaveFree f) { on 0xF8 with cur := { (on 0xF8).cur with leeHeld := s.m.cur.leeHeld - a 0xF8 } } (s.m.cur.leeHeld - a 0xF8) tI64)) ∧
    (Issues s 0xFC f pc → let sel := a 0xFC
      let key := bits sel 23 0
      let there := Config.monPresent (bits sel 7 0) (bits sel 23 8) (bits sel 31 24)
      (∀ i mode, (i = .monRead f ∧ mode = 0) ∨ (i = .monRdclr f ∧ mode = 1 ∧ isControl s.m.cur.core = true) → ∃ u, exec i s = .next u ∧ u.m.mem = s.m.mem ∧
        (∀ k, k < 10 → sTag u.m.cur (r.toNat + k) = tRAW ∧ (there = false → sGet u.m.cur (r.toNat + k) = 0)) ∧
        (there = false → u.m.captures = s.m.captures) ∧
        (there = true → let b := captureRead (on 0xFC) key
          (∀ k, k < 10 → sGet u.m.cur (r.toNat + k) = w64 (fld b (8 * k) 8)) ∧
          u.m.captures = s.m.captures.map (fun c => if c.key = key then { c with bytes := if mode = 1 then captureReset else b } else c) ∧
          (∀ c, s.m.captures.find? (fun c => c.key == key) = some c → monCounted key c.qty = true → b = c.bytes) ∧
          (s.m.captures.find? (fun c => c.key == key) = none → b = captureReset)) ∧
        RegsKept [0] (fun _ => (List.range 10).map (fun k => (1, r.toNat + k))) s.m.cur u.m.cur) ∧
      (isControl s.m.cur.core = true → ∃ u, exec (.monSel f) s = .next u ∧ u.m.mem = s.m.mem ∧ RegsKept [] (fun _ => []) s.m.cur u.m.cur ∧
        (there = false → u.m.captures = s.m.captures) ∧
        (there = true → u.m.captures = s.m.captures.filter (fun c => c.key != key) ++ [{ key := key, qty := bits sel 31 24, bytes := captureReset }])))

/-! ### Events outside the crews (R17 to R78, R80 to R127, R172 to R193, R256 to R266, R403 to R421) -/

/-- R17, R19 to R22, R25, R26, R408: module reset leaves everything at reset, copies the capability table to address 0, and stops with an error when a
signature fails, else measures and releases the loader; training ends the boot or stops it; Lennas extends slots 5 to 7; the SPDM requests are
answered from the boot state, and not before step 2; a sub-array that fails is fenced. Where the rules leave a point open, the model's choice
stands (assumption log 4, 5, 32). -/
def Obligations.BootAndAttestation : Prop :=
  ∀ (s : State),
    (∃ u, exec .powerOnReset s = .next u ∧ u.boot.ready = false ∧ u.host = State.reset.host ∧ u.m.jobs = [] ∧ u.m.launches = [] ∧ u.m.cur = Crew.empty ∧
      u.m.others = [] ∧ u.m.keys = [] ∧ u.m.hostwin = [] ∧ u.m.cores = [] ∧
      (∀ a, a < min capTable.length 65536 → memGet u.m.mem a = capTable.getD a 0) ∧
      (capSignatureOk = false → u.boot.err = 3 ∧ u.boot.stage = 1 ∧ u.boot.romdone = false) ∧
      (capSignatureOk = true → Config.flashOk = false → u.boot.err = 4 ∧ u.boot.stage = 2 ∧ u.boot.romdone = false) ∧
      (capSignatureOk = true → Config.flashOk = true → u.boot.err = 0 ∧ u.boot.stage = 5 ∧ u.boot.romdone = true ∧
        measOf u.boot 0 = some romDigest ∧ measOf u.boot 1 = some (sha384 capTable) ∧
        measOf u.boot 2 = some (sha384 Config.bootLoaderImage) ∧ measOf u.boot 3 = some (sha384 Config.lennasImage) ∧
        measOf u.boot 4 = some (sha384 Config.lennasConfig))) ∧
    (∀ errata, (s.boot.stage ≠ 5 ∨ s.boot.err ≠ 0 → ∀ ok, exec (.linkTraining ok errata) s = .next s) ∧
      (s.boot.stage = 5 → s.boot.err = 0 → exec (.linkTraining false errata) s = .next { s with boot := { s.boot with err := 5 }, m := raiseMsix s.m 2 }) ∧
      (s.boot.stage = 5 → s.boot.err = 0 → ∃ u, exec (.linkTraining true errata) s = .next u ∧ u.boot = { s.boot with stage := 6, ready := true } ∧
        u.m.net.ports = portsPresent)) ∧
    (∀ slot digest,
      (5 ≤ slot → slot ≤ 7 → 5 ≤ s.boot.stage → digest.length = 48 → exec (.measurementExtend slot digest) s =
        .next { s with boot := { s.boot with meas := smPut s.boot.meas slot (sha384 ((smFind s.boot.meas slot).getD (List.replicate 48 0) ++ digest)) } }) ∧
      (slot < 5 ∨ 7 < slot ∨ s.boot.stage < 5 → exec (.measurementExtend slot digest) s = .next s)) ∧
    (let answers (i : Instr) (b : List Byte) : Prop := exec i s = .next { s with m := { s.m with freeCtr := s.m.freeCtr + 4, outbox := s.m.outbox ++ [.spdm b] } }
     let error (code : Byte) : List Byte := [0x13, 0x7F, code, 0]
     (s.boot.stage < 2 → exec .getVersion s = .next s ∧ exec .getCapabilities s = .next s ∧ exec .getDigests s = .next s ∧
       (∀ h a, exec (.negotiateAlgorithms h a) s = .next s) ∧ (∀ k o n, exec (.getCertificate k o n) s = .next s) ∧
       (∀ k n, exec (.challenge k n) s = .next s) ∧ ∀ k n, exec (.getMeasurements k n) s = .next s) ∧
     (2 ≤ s.boot.stage →
       answers .getVersion [0x10, 0x04, 0, 0, 0, 1, 0x00, 0x13] ∧ (∃ b, answers .getCapabilities b ∧ b.take 2 = [0x13, 0x61]) ∧
       answers .getDigests ([0x13, 0x01, 0, 1] ++ sha384 certChain) ∧
       (∀ h a : Half, ∃ b, answers (.negotiateAlgorithms h a) b ∧ b.take 2 = [0x13, 0x63] ∧ fld b 12 4 = a.toNat &&& 0x80 ∧ fld b 16 4 = h.toNat &&& 2) ∧
       (∀ k o n, (k ≠ 0 ∨ certChain.length < o → answers (.getCertificate k o n) (error 1)) ∧
         (k = 0 → o ≤ certChain.length → ∃ b, answers (.getCertificate k o n) b ∧ b.take 2 = [0x13, 0x02] ∧ b.drop 8 = (certChain.drop o).take n)) ∧
       (∀ k n, (k ≠ 0 → answers (.challenge k n) (error 1)) ∧ (k = 0 → ∃ l, answers (.challenge k n) (l ++ deviceSign l) ∧ l.take 2 = [0x13, 0x03])) ∧
       (∀ k n, (k = 0 → ∃ b, answers (.getMeasurements k n) b ∧ b.take 3 = [0x13, 0x60, 8]) ∧ (8 < k → k ≠ 255 → answers (.getMeasurements k n) (error 1)) ∧
         (∀ v, 0 < k → k ≤ 8 → measOf s.boot (k - 1) = some v → ∃ l, answers (.getMeasurements k n) (l ++ deviceSign l) ∧
           (l.drop 8).take (measBlock (k - 1) v).length = measBlock (k - 1) v) ∧
         (0 < k → k ≤ 8 → measOf s.boot (k - 1) = none → answers (.getMeasurements k n) (error 3))))) ∧
    (∀ core, exec (.selfTest core false) s = .next s ∧ ∃ u, exec (.selfTest core true) s = .next u ∧ (u.m.core core).fenced = (s.m.core core).fenced + 1) ∧
    (∀ d, ∃ u, exec (.laneRepairExhausted d) s = .next u ∧ (u.m.die d).linkFull = false)

/-- R21, R34, R35, R39, R40, R57 to R60, R63: the host's accesses to BAR 0, the mailbox, configuration space, the MSI-X table and the decoders. A
request slot is written while the host owns it; a doorbell hands the slot over and makes its request's event due; what comes too early, out of
range or for a slot in use is dropped and counted; the response, overflow and duplicate bits are cleared by the host, and `MBNOTE` gives the oldest
notice. Where the rules leave a point open, the model's choice stands (assumption log 3, 5). -/
def Obligations.MailboxAndConfiguration : Prop :=
  ∀ (s : State),
    let up : Prop := s.boot.ready = true ∧ s.boot.err = 0
    -- the message of a vector: the address and the data of its table entry
    let message (m : Mach) (v : Nat) : Out :=
      let w (i : Nat) : Nat := (smGet 0 m.msixTab (4 * v + i)).toNat
      .msix v (w 0 + w 1 * 2 ^ 32) (w 2)
    let counted : HostIf := { s.host with mberr := min 0xFFFF (s.host.mberr + 1) }
    (∀ i off data, (8 ≤ i ∨ 256 < off + data.length ∨ s.boot.stage = 0 → exec (.requestSlotWrite i off data) s = .next s) ∧
      (i < 8 → off + data.length ≤ 256 → s.boot.stage ≠ 0 → i ∈ s.host.owned → exec (.requestSlotWrite i off data) s = .next { s with host := counted }) ∧
      (i < 8 → off + data.length ≤ 256 → s.boot.stage ≠ 0 → i ∉ s.host.owned → ∃ u, exec (.requestSlotWrite i off data) s = .next u ∧
        u.m = s.m ∧ u.host = { s.host with reqs := u.host.reqs } ∧ ∀ j k, j < 8 → k < 256 → (slotBytes u.host j).getD k 0 =
          if j = i ∧ off ≤ k ∧ k < off + data.length then data.getD (k - off) 0 else (slotBytes s.host j).getD k 0)) ∧
    (∀ v : Half, let n := v.toNat
      (s.boot.stage = 0 → exec (.mbdoor v) s = .next s) ∧
      (s.boot.stage ≠ 0 → 8 ≤ n ∨ ¬ up → exec (.mbdoor v) s = .next { s with host := counted }) ∧
      (s.boot.stage ≠ 0 → n < 8 → up → n ∈ s.host.owned ∨ n ∈ s.host.unread → exec (.mbdoor v) s = .next { s with host := { counted with dup := true } }) ∧
      (s.boot.stage ≠ 0 → n < 8 → up → n ∉ s.host.owned → n ∉ s.host.unread → ∃ u i, exec (.mbdoor v) s = .next u ∧
        u.host = { s.host with owned := s.host.owned ++ [n] } ∧ u.m.mem = s.m.mem ∧ u.m.todo = s.m.todo ++ [i] ∧
        let op := fld (slotBytes s.host n) 0 2
        i = if op = 2 then .cancelRequest n else if op = 3 then .query n else if op = 4 then .load n else .submit n)) ∧
    (∀ b : Byte, (¬ up → exec (.mbstatRespClear b) s = .next s) ∧
      (up → exec (.mbstatRespClear b) s = .next { s with host := { s.host with unread := s.host.unread.filter (fun i => !b.getLsbD i) } })) ∧
    (up → exec .mbstatNovfClear s = .next { s with m := { s.m with novf := false } } ∧
      exec .mbstatDupClear s = .next { s with host := { s.host with dup := false } }) ∧
    (¬ up → exec .mbstatNovfClear s = .next s ∧ exec .mbstatDupClear s = .next s) ∧
    (∀ k j rest, up → s.m.notices = (k, j) :: rest → exec .mbnoteRead s =
      .next { s with m := { s.m with notices := rest, outbox := s.m.outbox ++ [.barRead (2 ^ 31 + k % 8 * 2 ^ 28 + j)] } }) ∧
    (¬ up ∨ s.m.notices = [] → exec .mbnoteRead s = .next { s with m := { s.m with outbox := s.m.outbox ++ [.barRead 0] } }) ∧
    (∀ off, exec (.unmappedBarAccess off true) s = .next s ∧ (off / 4 * 4 ≠ 0x100C →
      exec (.unmappedBarAccess off false) s = .next { s with m := { s.m with outbox := s.m.outbox ++ [.barRead (barWord s off)] } }) ∧
      (barMapped off = false → barWord s off = 0)) ∧
    (barWord s 0 = bootStat s.boot ∧ barWord s 0x1000 = 0 ∧ barWord s 0x1008 = s.host.mberr ∧ (¬ up → barWord s 0x1004 = 0) ∧
      (up → let w := barWord s 0x1004
        (bit w 0 = s.host.dup ∧ bit w 24 = s.m.novf ∧ w < 2 ^ 25 ∧ bits w 7 1 = 0 ∧ ∀ i, i < 8 →
          (bit w (8 + i) = s.host.owned.contains i ∧ bit w (16 + i) = s.host.unread.contains i))) ∧
      ∀ i k, i < 8 → k < 64 → barWord s (0x1400 + 256 * i + 4 * k) = fld (slotBytes s.host i) (4 * k) 4) ∧
    (∀ v : Half, s.boot.stage ≠ 0 →
      exec (.configRequest 0 (some v)) s = .next { s with m := msixFlush { s.m with msixOn := v.getLsbD 0, msixFn := v.getLsbD 1 } } ∧
      exec (.configRequest 1 (some v)) s = .next { s with m := { s.m with atomicEn := v.getLsbD 0 } } ∧
      (∀ n, cplRange v.toNat = some n → exec (.configRequest 2 (some v)) s = .next { s with m := { s.m with cplTimeout := n } }) ∧
      ∀ r, exec (.configRequest r none) s = .next { s with m := { s.m with outbox := s.m.outbox ++ [.barRead (cfgRead s.m r)] } }) ∧
    (s.boot.stage = 0 → ∀ r w, exec (.configRequest r w) s = .next s) ∧
    (let sent (m : Mach) : List Out := (m.msixPend.filter (msixOpen m)).map (message m)
      ∀ m : Mach, (msixFlush m).outbox = m.outbox ++ sent m ∧ (msixFlush m).msixPend = m.msixPend.filter (fun v => !msixOpen m v)) ∧
    (∀ off x, (1024 ≤ off → exec (.msixTableWrite off x) s = .next s) ∧
      (off < 1024 → off / 4 % 4 ≠ 3 → let y := if off / 4 % 4 = 0 then x &&& 0xFFFFFFFC else x
        ∃ u, exec (.msixTableWrite off x) s = .next u ∧ u.host = s.host ∧ u.m = { s.m with msixTab := u.m.msixTab } ∧
          (∀ k, smGet 0 u.m.msixTab k = if k = off / 4 then y else smGet 0 s.m.msixTab k) ∧ barWord u (0x20000 + off) = y.toNat)) ∧
    (∀ v (x : Half), v < 64 → let mask := x.getLsbD 0
      (∀ w ∈ s.m.msixPend, msixOpen s.m w = false) → s.m.msixPend.Nodup → ∃ u, exec (.msixTableWrite (16 * v + 12) x) s = .next u ∧ u.m.msixTab = s.m.msixTab ∧
      smGet true u.m.msixMask v = mask ∧ (∀ w, w ≠ v → smGet true u.m.msixMask w = smGet true s.m.msixMask w) ∧
      (if mask = false ∧ s.m.msixOn = true ∧ s.m.msixFn = false ∧ v ∈ s.m.msixPend then u.m.msixPend = s.m.msixPend.filter (· != v) ∧
          u.m.outbox = s.m.outbox ++ [message s.m v]
       else u.m.msixPend = s.m.msixPend ∧ u.m.outbox = s.m.outbox)) ∧
    (∀ v, (s.m.msixOn = false → raiseMsix s.m v = s.m) ∧
      (msixOpen s.m v = true → raiseMsix s.m v = { s.m with outbox := s.m.outbox ++ [message s.m v] }) ∧
      (s.m.msixOn = true → msixOpen s.m v = false → v ∈ (raiseMsix s.m v).msixPend ∧ (raiseMsix s.m v).outbox = s.m.outbox)) ∧
    (∀ d base size on, d < 8 → exec (.hdmDecoderProgram d base size on) s =
      .next { s with host := { s.host with hdm := smPut s.host.hdm d { base := base, size := size, on := on } } })

/-- R59, R61 to R65, R68, R76, R78: a request of the mailbox is answered in its slot, which goes back to the host, and vector 0 is raised; the response
has the status, the request's tag, the job and the count. SUBMIT fails by the first check that fails, in the order of R65, and creates a job
otherwise; CANCEL and QUERY know the submitter's live jobs only. Where the rules leave a point open, the model's choice stands (assumption log 6,
31, 34). -/
def Obligations.RequestsAreAnswered : Prop :=
  (∀ (s : State) (req : Nat) (q : List Byte), req < 8 → requestOf s req = some (q, none) →
    let done (r : List Byte × Mach) : State :=
      { s with m := raiseMsix r.2 0
               host := { s.host with resps := smPut s.host.resps req r.1, unread := s.host.unread ++ [req], owned := s.host.owned.filter (· != req) } }
    (rqOp q = 2 → exec (.cancelRequest req) s = .next (done (cancelRun s.m q none))) ∧
    (rqOp q = 3 → exec (.query req) s = .next (done (queryRun s.m q none))) ∧
    (rqOp q = 4 → imageHeld s.m (rqImage q) (rqLen q) = none → exec (.load req) s = .next (done (loadRun s.m q none))) ∧
    (rqOp q < 2 ∨ 4 < rqOp q → imageHeld s.m (rqImage q) (rqLen q) = none → exec (.submit req) s = .next (done (submitRun s.m q none)))) ∧
  (∀ (s : State) (req : Nat), requestOf s req = none → exec (.submit req) s = .next s ∧ exec (.load req) s = .next s ∧ exec (.query req) s = .next s ∧
    exec (.cancelRequest req) s = .next s) ∧
  (∀ (q : List Byte) (st job count info : Nat), let r := response q st job count info []
    r.length = 128 ∧ fld r 0 2 = st % 2 ^ 16 ∧ fld r 2 2 = rqTag q ∧ fld r 4 2 = job % 2 ^ 16 ∧ fld r 8 8 = count % 2 ^ 64 ∧ fld r 16 8 = info % 2 ^ 64) ∧
  (∀ (m : Mach) (q : List Byte) (sub : Option (Nat × Nat)),
    let fails (run : Mach → List Byte → Option (Nat × Nat) → List Byte × Mach) (st job : Nat) : Prop := run m q sub = (response q st job 0 0 [], m)
    let image : Prop := rqImage q = 0 ∧ rqLen q = 0
    let live (j : Job) : Prop := m.job (rqJob q) = some j ∧ j.ended = false ∧ j.submitter = sub
    let plain : Prop := submitOnlyBad q = false
    (∀ run, run = cancelRun ∨ run = queryRun → (¬ plain ∨ ¬ image → fails run 2 (rqJob q)) ∧
      (plain → image → (run = queryRun → rqObj q = 0) → (∀ j, ¬ live j) → fails run 9 (rqJob q))) ∧
    (∀ j, plain → image → rqObj q = 0 → live j → queryRun m q sub = (response q 0 j.id j.counter 0 [], m)) ∧
    (∀ j, plain → image → rqObj q = 0 → live j → (objectOver m (.job j.id) = true → fails cancelRun 10 (rqJob q)) ∧
      (objectOver m (.job j.id) = false → cancelRun m q sub = (response q 0 j.id 0 0 [], cancelJob m j.id))) ∧
    (rqOp q ≠ 1 → fails submitRun 1 (rqJob q)) ∧
    (rqOp q = 1 →
      (submitBad q = true → fails submitRun 2 0) ∧
      (submitBad q = false → Config.cfgMaxClass (sub.map (·.1)) < rqCls q → fails submitRun 3 0) ∧
      (submitBad q = false → rqCls q ≤ Config.cfgMaxClass (sub.map (·.1)) →
        (keysDenied m (sub.map (·.1)) (rqKeys q) = true → fails submitRun 4 0) ∧
        (keysDenied m (sub.map (·.1)) (rqKeys q) = false →
          (absentRange m (rqImage q) (rqLen q) = true → fails submitRun 5 0) ∧
          (absentRange m (rqImage q) (rqLen q) = false →
            let rd := imgRd m (rqImage q)
            let objs := loadObjs m none [] rd (imageBad rd (rqLen q)) (objSpans rd (rqLen q))
            (∀ e, objs = .error e → submitRun m q sub = (response q e.status 0 0 e.info e.scan, m)) ∧
            (∀ os, objs = .ok os → createJob m q sub rd os = none → fails submitRun 11 0) ∧
            (∀ os id m', objs = .ok os → createJob m q sub rd os = some (id, m') →
              let ck := checkpoint (startPhase m' id) id
              submitRun m q sub = (response q 0 id 0 0 [], if rqDomain q = 0xFFFF then ck else collReplay ck (rqDomain q)))))))) ∧
  (∀ (m : Mach) (n j k : Nat), freeJob m n j = some k → ∀ x, m.job k = some x → x.ended = true)

/-- R33, R35 to R37, R39, R40: a host access through a committed decoder and a window that admits it reads or writes the line's home, and the host may
then hold the lines; a refused read returns all ones and a refused write is dropped, both logged; a line that an engine's command holds, or that
finds no way, makes it wait. The answer to a snoop writes what the host had modified; when the host is lost it holds nothing and every window is
closed. A completion delivers an aperture read's bytes, or the crew's PERM. Where the rules leave a point open, the model's choice stands
(assumption log 36). -/
def Obligations.HostMemoryAndAperture : Prop :=
  ∀ (s : State),
    (∀ w off len write hold,
      let decoded : Prop := ∃ d, smFind s.host.hdm w = some d ∧ d.on = true ∧ off + len ≤ d.size
      (s.host.cxl = false ∨ ¬ decoded ∨ len = 0 → exec (.hostCxlMemRequest w off len write hold) s = .next s) ∧
      (s.host.cxl = true → decoded → len ≠ 0 → winAddr s w off len write.isSome = none → exec (.hostCxlMemRequest w off len write hold) s =
        .next { s with m := (s.m.logged (.hostAccess w off len write.isSome)).send (match write with | some _ => .hostCmp | none => .hostData (List.replicate len 0xFF)) }) ∧
      (∀ pa treat, s.host.cxl = true → decoded → len ≠ 0 → winAddr s w off len write.isSome = some (pa, treat) →
        let lines := linesOf pa len
        let waits : Prop := ∃ l ∈ lines, engineHeld s.m 0 l = true ∨ setFull s.m l = true
        (waits → exec (.hostCxlMemRequest w off len write hold) s = .next { s with m := { s.m with todo := s.m.todo ++ [.hostCxlMemRequest w off len write hold] } }) ∧
        (¬ waits → let m := lines.foldl (fun m l => touchLine m (if bypasses m (128 * l) then 256 else treat) 0 l) s.m
          ∃ u, exec (.hostCxlMemRequest w off len write hold) s = .next u ∧ RegsKept [] (fun _ => []) s.m.cur u.m.cur ∧
            (∀ l, l ∈ u.m.held ↔ l ∈ s.m.held ∨ (hold = true ∧ pa / 128 ≤ l ∧ l ≤ (pa + len - 1) / 128)) ∧
            (write = none → u.m.mem = m.mem ∧ u.m.outbox = m.outbox ++ [.hostData (memRead m.mem pa len)]) ∧
            (∀ bs, write = some bs → u.m.outbox = m.outbox ++ [.hostCmp] ∧ ∀ a, memGet u.m.mem a =
              if pa ≤ a ∧ a < pa + min len bs.length then bs.getD (a - pa) 0 else memGet m.mem a)))) ∧
    (∀ line data, (line ∉ s.m.snoops → exec (.bisnpResponse line data) s = .next s) ∧
      (line ∈ s.m.snoops → ∃ u, exec (.bisnpResponse line data) s = .next u ∧ line ∉ u.m.snoops ∧ line ∉ u.m.held ∧ RegsKept [] (fun _ => []) s.m.cur u.m.cur ∧
        (data = none → u.m.mem = s.m.mem) ∧ (∀ bs, data = some bs → ∀ a, memGet u.m.mem a =
          if 128 * line ≤ a ∧ a < 128 * line + min 128 bs.length then bs.getD (a - 128 * line) 0 else memGet s.m.mem a))) ∧
    (let gone (u : State) : Prop := u.m.held = [] ∧ u.m.snoops = [] ∧ u.m.mem = s.m.mem ∧ (∀ w, (smGet 0 u.m.hostwin w).msb = false) ∧
        u.m.lennasLog = s.m.lennasLog ++ [.hostGone (windowsOn s.m) s.m.held.length]
      let stopped (i : Instr) : Prop := ∃ u, exec i s = .next u ∧ u.host = { s.host with cxl := false } ∧ (s.m.held = [] → u.m = s.m) ∧ (s.m.held ≠ [] → gone u)
      (snoopLate s.m = false → exec .bisnpTimeout s = .next s) ∧ (snoopLate s.m = true → ∃ u, exec .bisnpTimeout s = .next u ∧ u.host = s.host ∧ gone u) ∧
      stopped .cxlMemInactive ∧ stopped (.cxlMemRetrain false) ∧ exec (.cxlMemRetrain true) s = .next { s with host := { s.host with cxl := true } }) ∧
    (∀ q, s.m.cur.ap = some q → s.m.cur.tid < 2 ^ 48 →
      let got : Crew := { s.m.cur with ap := none, stamp := s.m.clk }
      let on (c : Crew) : Host.Outcome State Fault Refusal := .next { s with m := { s.m with cur := c } }
      let perm (st : Nat) : Exc := { code := 0x21, lane := none, info0 := q.va, info1 := w64 (q.kind * 256 + 0x1000 + q.leaf), info2 := w64 st, info3 := 0, commit := false, pc := q.pc, late := true }
      (∀ data, exec (.apertureCompletion s.m.cur.tid 0 data) s =
        on (q.lanes.foldl (fun k e => putBytes got q.d q.y e.1 (slice data (q.size * e.2) q.size) k) got)) ∧
      (∀ st data, st ≠ 0 → s.m.cur.late = none → exec (.apertureCompletion s.m.cur.tid st data) s = on { got with late := some (perm st) }) ∧
      (s.m.clk < q.since + apLimit s.m → exec (.apertureCompletionTimeout s.m.cur.tid) s = .next s) ∧
      (q.since + apLimit s.m ≤ s.m.clk → s.m.cur.late = none → exec (.apertureCompletionTimeout s.m.cur.tid) s = on { got with late := some (perm 3) })) ∧
    (∀ num st data, let reads (e : ApEng) : Prop := e.num = num ∧ e.answer = none
      ((∃ e ∈ s.m.apEng, reads e) → ∃ u, exec (.apertureCompletion (2 ^ 48 + num) st data) s = .next u ∧ u.m.mem = s.m.mem ∧ u.m.cur = s.m.cur ∧
        u.m.apEng = s.m.apEng.map (fun e => if e.num = num then { e with answer := some (st, data) } else e)) ∧
      ((∀ e ∈ s.m.apEng, ¬ reads e) → exec (.apertureCompletion (2 ^ 48 + num) st data) s = .next { s with m := linkDrop s.m 16 }) ∧
      ((∀ e ∈ s.m.apEng, reads e → s.m.clk < e.since + apLimit s.m) → exec (.apertureCompletionTimeout (2 ^ 48 + num)) s = .next s)) ∧
    exec .lateCompletionDrop s = .next { s with m := linkDrop s.m 16 } ∧
    (∀ a, exec (.postedWriteRefusal a) s = .next { s with m := (s.m.logged (.posted a)).send (.aer a) })

/-- R32, R48 to R53, R64: a port's waiting frames go out class by class, and within a class from one connection after the other. A frame that is not
for this module, or of a reserved type, or of a fenced domain, is dropped and counted; on a connection the frame with the next PSN is delivered
once and acknowledged, an older one is acknowledged again and a later one is answered by a NACK, neither delivered. Acknowledgements take frames
from the window, whose size the peer's credit bounds; a NACK, and 50 microseconds without progress, send them again. On the wire a frame is its
header of 32 bytes and its payload. Where the rules leave a point open, the model's choice stands (assumption log 5, 33). -/
def Obligations.FramesAreDelivered : Prop :=
  (∀ fr : Frame, (frameHead fr).length = 32 ∧ (fr.ver < 16 → fr.typ < 16 → fr.cls < 4 → fr.flags < 64 → fr.domain < 2 ^ 16 → fr.src < 2 ^ 16 → fr.dst < 2 ^ 16 →
    fr.psn < 2 ^ 32 → fr.apsn < 2 ^ 32 → fr.chan < 2 ^ 16 → fr.credit < 2 ^ 32 → fr.payload.length < 2 ^ 16 → frameOf fr.port (frameHead fr ++ fr.payload) = some fr)) ∧
  ∀ (s : State) (fr : Frame),
    let dropped : State := { s with m := dropFrame s.m fr }
    -- a frame as it waits for the connection's port
    let wire (c : Conn) (f : Frame) : Frame := { f with port := c.port, apsn := c.rpsn }
    let waits (m : Mach) (l : List Frame) : Mach := { m with net := { m.net with txq := m.net.txq ++ l } }
    let spdm (m : Mach) : Mach × Bool := match (match spdmParse fr.payload with | some q => spdmAnswer s q | none => if s.boot.stage < 2 then none else some [0x13, 0x7F, 1, 0]) with
      | some b => ((vftSend { m with freeCtr := m.freeCtr + 4 } fr.domain fr.src fr.cls fr.chan 4 1 0 b).1, true)
      | none => (m, true)
    let kinds : List (Instr × Nat × (Mach → Mach × Bool)) := [(.copyPayloadFrame fr, 1, copyPayload fr), (.copyStampFrame fr, 2, copyStamp fr),
      (.collectiveSegment fr, 3, fun m => (collSegment m fr, true)), (.spdmMessageFrame fr, 4, spdm), (.jobHandOff fr, 5, fun m => (handOff fr m, true)),
      (.faultNotice fr, 7, fun m => (faultTold fr m, true))]
    let mine (c : Conn) : Prop := s.m.conn (connOf fr) = some c ∧ c.down = false
    exec (.reservedVftFrame fr) s = .next dropped ∧
    (∀ k ∈ kinds, frameOk s.m k.2.1 fr = false ∨ (fr.domain ∈ s.m.net.fenced ∧ k.2.1 ≠ 7 ∧ k.2.1 ≠ 4) → exec k.1 s = .next dropped) ∧
    (∀ k ∈ kinds, ∀ c, frameOk s.m k.2.1 fr = true → fr.domain ∉ s.m.net.fenced → mine c → c.unacked = [] → c.sent = 0 → c.rpsn < 2 ^ 32 → fr.psn < 2 ^ 32 →
      let told : Mach := s.m.modConn (connOf fr) (fun c => { c with credit := fr.credit, since := s.m.clk })
      (∀ m, fr.psn = c.rpsn → k.2.2 told = (m, true) → exec k.1 s =
        .next { s with m := ackSend (m.modConn (connOf fr) (fun c => { c with rpsn := (c.rpsn + 1) % 2 ^ 32 })) fr false }) ∧
      (∀ m, fr.psn = c.rpsn → k.2.2 told = (m, false) → exec k.1 s = .next { s with m := m }) ∧
      (fr.psn ≠ c.rpsn → ∃ a, exec k.1 s = .next { s with m := waits told [wire c a] } ∧ a.typ = 0 ∧ a.psn = c.rpsn ∧
        (a.flags = 3 ↔ 0 < (fr.psn + 2 ^ 32 - c.rpsn) % 2 ^ 32 ∧ (fr.psn + 2 ^ 32 - c.rpsn) % 2 ^ 32 < 2 ^ 31))) ∧
    (frameOk s.m 0 fr = false ∨ fr.flags / 2 % 2 = 1 → exec (.ackFrame fr) s = .next dropped) ∧
    (frameOk s.m 0 fr = false ∨ fr.flags / 2 % 2 = 0 → exec (.nackFrame fr) s = .next dropped) ∧
    (∀ c h t, frameOk s.m 0 fr = true → mine c → c.unacked = h :: t → let n := (fr.apsn + 2 ^ 32 - h.psn) % 2 ^ 32
      let goes (l : List Frame) (left : Nat) : Nat := max left (min l.length (min winFrames fr.credit))
      (fr.flags / 2 % 2 = 0 → 0 < n → n ≤ c.sent → ∃ u, exec (.ackFrame fr) s = .next u ∧ u.m.mem = s.m.mem ∧ u.m.cur = s.m.cur ∧
        let rest := c.unacked.drop n
        let now := goes rest (c.sent - n)
        u.m.net.txq = s.m.net.txq ++ ((rest.take now).drop (c.sent - n)).map (wire c) ∧
        u.m.conn (connOf fr) = some { c with unacked := rest, sent := now, credit := fr.credit, retries := 0, since := s.m.clk }) ∧
      (fr.flags / 2 % 2 = 1 → n = 0 → ∃ u, exec (.nackFrame fr) s = .next u ∧ u.m.mem = s.m.mem ∧ u.m.cur = s.m.cur ∧
        let now := goes c.unacked c.sent
        u.m.net.txq = s.m.net.txq ++ (((c.unacked.take now).drop c.sent) ++ (c.unacked.take now).dropWhile (fun f => f.psn != fr.psn)).map (wire c))) ∧
    (frameOk s.m 6 fr = false → exec (.heartbeat fr) s = .next dropped) ∧
    (frameOk s.m 6 fr = true → ∃ u, exec (.heartbeat fr) s = .next u ∧ u.m.mem = s.m.mem ∧ smFind u.m.net.heard fr.src = some s.m.clk) ∧
    (∀ port data, let good : Prop := port ∈ s.m.net.ports ∧ data.length ≤ 9216 ∧ twoTags data = false
      (¬ good → exec (.nonVftFrame port data) s = .next s) ∧ (good → ∃ u, exec (.nonVftFrame port data) s = .next u ∧
        u.m.mem = s.m.mem ∧ (u.m.die (portDie port)).rx = (s.m.die (portDie port)).rx ++ [data])) ∧
    (∀ (i : Nat) (c : Conn), s.m.net.conns[i]? = some c →
      (connLate s.m c = false → exec (.vftResendTimeout i) s = .next s) ∧
      (connLate s.m c = true → c.retries < 8 → ∃ u, exec (.vftResendTimeout i) s = .next u ∧
        u.m.net.conns = s.m.net.conns.set i { c with retries := c.retries + 1, since := s.m.clk } ∧
        u.m.net.txq = s.m.net.txq ++ (c.unacked.take c.sent).map (wire c))) ∧
    (∀ p t, s.m.net.heard.find? (fun e => e.1 == p) = some (p, t) → (s.m.clk < t + 1350000 → exec (.heartbeatLoss p) s = .next s) ∧
      (t + 1350000 ≤ s.m.clk → exec (.heartbeatLoss p) s = .next { s with m := peerDown s.m p })) ∧
    (∀ p, (s.m.net.ports.filter (· != p) ≠ [] → exec (.portLinkDown p) s =
        .next { s with m := { s.m with net := { s.m.net with ports := s.m.net.ports.filter (· != p) } } }) ∧
      (∃ u, exec (.portLinkUp p) s = .next u ∧ u.m.mem = s.m.mem ∧ u.m.cur = s.m.cur ∧ ∀ q, q ∈ u.m.net.ports ↔ q ∈ s.m.net.ports ∨ (q = p ∧ p ∈ portsPresent))) ∧
    (s.m.clk < s.m.net.hbAt → exec .heartbeatTransmit s = .next s) ∧
    (s.m.net.hbAt ≤ s.m.clk → ∃ u, exec .heartbeatTransmit s = .next u ∧ u.m.net = { s.m.net with hbAt := s.m.clk + 450000, txq := u.m.net.txq } ∧ u.m.mem = s.m.mem ∧
      u.m.cur = s.m.cur ∧ ∃ l, u.m.net.txq = s.m.net.txq ++ l ∧ ∀ f ∈ l, f.typ = 6) ∧
    (∀ port, ∀ f ∈ s.m.net.txq, f.port = port → f.cls < 4 → ∃ g, portNext s.m.net.served port s.m.net.txq = some g ∧ g ∈ s.m.net.txq ∧ g.port = port ∧ g.cls ≤ f.cls ∧
      (f.cls = g.cls → (∀ k, smFind s.m.net.served (4 * port + g.cls) = some k → k < connKey f → k < connKey g ∧ connKey g ≤ connKey f) ∧
        ((∀ k, smFind s.m.net.served (4 * port + g.cls) = some k → connKey g ≤ k) → connKey g ≤ connKey f)) ∧
      portSend port 1 s.m = { s.m with outbox := s.m.outbox ++ [.frame port g (frameHead g ++ g.payload)]
                                       net := { s.m.net with txq := s.m.net.txq.erase g, served := smPut s.m.net.served (4 * port + g.cls) (connKey g) } })

/-- R32, R58, R80, R250, R253, R260, R261: the stages from a fault to a resumed job, each from the one before; a fault without a checkpoint cancels the
job and queues a faulted notice; after a remap the image comes from peer memory; the restored pages hold the image and no other byte changes. A
trap detected late, an uncorrected error, and a yield deadline that has passed are taken at a boundary of the crew. Where the rules leave a point
open, the model's choice stands (assumption log 12, 22). -/
def Obligations.RecoveryAndLateTraps : Prop :=
  ∀ (s : State),
    (∀ job, s.m.job job = none → exec (.faultDetection job) s = .next s ∧ exec (.restore job) s = .next s ∧ exec (.restart job) s = .next s ∧
      ∀ n, exec (.remap job n) s = .next s) ∧
    (∀ job j, s.m.job job = some j →
      (j.ended = true ∨ j.recovery ≠ 0 → exec (.faultDetection job) s = .next s) ∧
      (j.ended = false → j.recovery = 0 → j.ckpt = 0 → exec (.faultDetection job) s = .next { s with m := notice (cancelJob (faultSpread s.m j) job) 3 job }) ∧
      (j.ended = false → j.recovery = 0 → j.ckpt ≠ 0 →
        let t := cancelGraph ((faultSpread s.m j).setJob job { j with phaseCtr := 0, phaseCancelled := true }) job
        exec (.faultDetection job) s = .next { s with m := t.modJob job (fun j => { j with graphCtr := 0, recovery := 1 }) }) ∧
      (∀ n, (j.recovery = 1 → j.ckpt = 2 → ∃ u, exec (.remap job n) s = .next u ∧ u.m.job job = some { j with recovery := 2, spare := n } ∧ u.m.mem = s.m.mem) ∧
        (j.recovery ≠ 1 ∨ j.ckpt ≠ 2 → exec (.remap job n) s = .next s)) ∧
      (∀ img, j.recovery = 2 → lennasStep (.pulled job img) s.m = s.m.setJob job { j with recovery := 3, image := img }) ∧
      (j.recovery = 3 ∨ (j.recovery = 1 ∧ j.ckpt = 1) → ∃ u, exec (.restore job) s = .next u ∧ u.m.job job = some { j with recovery := 4 } ∧
        (∀ a, (∀ p ∈ jobPages s.m job, a < p.2.1 ∨ p.2.1 + p.2.2 ≤ a) → memGet u.m.mem a = memGet s.m.mem a) ∧
        ((j.image.map (·.1)).Nodup → (jobPages s.m job).Pairwise (fun p q => p.2.1 + p.2.2 ≤ q.2.1 ∨ q.2.1 + q.2.2 ≤ p.2.1) →
          ∀ p ∈ jobPages s.m job, ∀ k, k < p.2.2 → memGet u.m.mem (p.2.1 + k) = memGet j.image (p.1 + k))) ∧
      (j.recovery ≠ 3 → j.recovery ≠ 1 ∨ j.ckpt ≠ 1 → exec (.restore job) s = .next s) ∧
      (j.recovery ≠ 4 → exec (.restart job) s = .next s) ∧
      (j.recovery = 4 → ∃ t : Mach, exec (.restart job) s = .next { s with m := notice (startPhase (groupBoundary t job) job) 4 job } ∧ t.mem = s.m.mem ∧
        t.job job = some { j with recovery := 0 } ∧ ∀ d, j.domain = some d → d ∉ t.net.fenced)) ∧
    ((∀ c ∈ s.m.crews, c.late = none ∨ canIssue c = none) → exec .trapDelivery s = .next s) ∧
    (∀ e pc, s.m.cur.late = some e → canIssue s.m.cur = some pc → exec .trapDelivery s = .next { s with m := takeTrap s.m s.m.cur.tid e }) ∧
    (∀ source line va, let t := s.m.cur.tid
      let met (pc : Word) : Prop := eccMeets s.m s.m.cur pc source line va = true
      (canIssue s.m.cur = none → exec (.systemTrap t source line va) s = .next s) ∧
      (∀ pc, canIssue s.m.cur = some pc → (∀ e, s.m.cur.late = some e → exec (.systemTrap t source line va) s = .next { s with m := takeTrap s.m t e }) ∧
        (s.m.cur.late = none → ¬ met pc → exec (.systemTrap t source line va) s = .next s) ∧
        (s.m.cur.late = none → met pc → exec (.systemTrap t source line va) s = .next { s with m := takeTrap s.m t <|
          { code := 0x30, lane := none, info0 := w64 line, info1 := w64 source, info2 := w64 va, info3 := 0, commit := false, pc := pc, late := false } }))) ∧
    (∀ p, s.m.cur.pre = some p → let t := s.m.cur.tid
      (s.m.clk ≤ p.deadline ∨ s.m.cur.slots = [] → exec (.yieldforced t) s = .next s) ∧
      (∀ e, p.deadline < s.m.clk → s.m.cur.slots ≠ [] → s.m.cur.late = some e → canIssue s.m.cur ≠ none →
        exec (.yieldforced t) s = .next { s with m := takeTrap s.m t e }) ∧
      (p.deadline < s.m.clk → s.m.cur.slots ≠ [] → s.m.cur.late = none ∨ canIssue s.m.cur = none → exec (.yieldforced t) s = .next { s with m := takeTrap s.m t <|
        { code := 0x40, lane := none, info0 := w64 p.cycle, info1 := w64 s.m.clk, info2 := w64 p.byCls, info3 := 0, commit := false,
          pc := (issueAddr s.m.cur).getD 0, late := false } }))

/-- R29, R30, R97, R98, R102 to R104, R106, R113 to R118, R123, R125, R148, R193, R264, R265, R438: what the schedulers' events do: leave is granted to
the first request when it fits; parked slots are reclaimed, crews migrate, and forwarding entries expire after 4096 cycles; a steal takes the
oldest record of the victim, and 319 empty answers wait 256 cycles; a wait that holds ends and a poll that fails comes again after 2048 cycles; an
eligible record claims its outputs and pins its inputs; an item enters its ring in order, or is NACKed and sent again. Where the rules leave a
point open, the model's choice stands (assumption log 1, 9, 20). -/
def Obligations.SchedulerEvents : Prop :=
  ∀ (s : State),
    (∀ die, let l := (s.m.die die).lee
      (l.waiting = [] → exec (.leeGrant die) s = .next s) ∧
      (∀ r, leeFirst l = some r → (l.budget < leeUsed s.m die + r.units → exec (.leeGrant die) s = .next s) ∧
        (leeUsed s.m die + r.units ≤ l.budget → r ∈ l.waiting ∧ (∀ q ∈ l.waiting, r.cls ≤ q.cls) ∧
          -- the time from the request to the grant is measured (R31)
          let t := monSample (s.m.modLee die (fun l => { l with waiting := l.waiting.filter (fun x => x.tid != r.tid), granted := l.granted ++ [r] })) .leeGrant die (s.m.clk - r.since)
          exec (.leeGrant die) s = .next { s with m := t }))) ∧
    (∀ core, (reclaimPlan s.m core = none → exec (.parkedSlotReclaim core) s = .next s) ∧
      (∀ t, reclaimPlan s.m core = some t → exec (.parkedSlotReclaim core) s = .next { s with m := switchOut s.m t } ∧
        ∃ c w since, c ∈ residents s.m core ∧ c.tid = t ∧ c.status = .parked w since ∧ since + 2048 ≤ s.m.clk)) ∧
    (∀ t core, (migratePlan s.m t core = none → exec (.crewMigration t core) s = .next s) ∧
      (∀ p, migratePlan s.m t core = some p → exec (.crewMigration t core) s = .next { s with m := p.take s.m })) ∧
    (∀ core t, ∃ u, exec (.forwardMessage core t) s = .next u ∧ u.m.mem = s.m.mem ∧ (u.m.core core).fwd =
      (s.m.core core).fwd.map (fun f => if f.tid = t then { f with since := s.m.clk } else f)) ∧
    ((∀ e ∈ s.m.cores, ∀ f ∈ e.2.fwd, s.m.clk < f.since + 4096) → exec .forwardingEntryExpiry s = .next s) ∧
    (∀ core k t, s.m.cores = (core, k) :: t → (∃ f ∈ k.fwd, f.since + 4096 ≤ s.m.clk) → ∃ u, exec .forwardingEntryExpiry s = .next u ∧
      (u.m.core core).fwd = k.fwd.filter (fun f => decide (s.m.clk < f.since + 4096))) ∧
    (∀ core, (maySteal s.m core = false ∨ victimSeq s.m core = [] → exec (.stealRequest core) s = .next s) ∧
      (maySteal s.m core = true → victimSeq s.m core ≠ [] → ∃ u v, exec (.stealRequest core) s = .next u ∧ v ∈ victimSeq s.m core ∧ v ≠ core ∧
        (u.m.core core).asked = (s.m.core core).asked ++ [v] ∧ u.m.todo = s.m.todo ++ [.stealAnswer core])) ∧
    (∀ core v rest, (s.m.core core).asked = v :: rest → v ≠ core →
      (∀ r old, (s.m.core v).deque = r :: old → ∃ t : Mach, exec (.stealAnswer core) s = .next { s with m := if recFits t core r then startTask t core r else dequeIn t core r } ∧ (t.core v).deque = old.filter (fun q => q.tid != r.tid) ∧
        (t.core core).asked = rest ∧ (t.core core).empties = 0) ∧
      ((s.m.core v).deque = [] → ∃ u, exec (.stealAnswer core) s = .next u ∧ (u.m.core core).asked = rest ∧
        (if (s.m.core core).empties + 1 = 319 then (u.m.core core).empties = 0 ∧ (u.m.core core).backoff = some (s.m.clk + 256)
         else (u.m.core core).empties = (s.m.core core).empties + 1 ∧ (u.m.core core).backoff = (s.m.core core).backoff))) ∧
    ((∀ e ∈ s.m.cores, ∀ t, e.2.backoff = some t → s.m.clk < t) → exec .stealBackoffExpiry s = .next s) ∧
    (∀ core k t n, s.m.cores = (core, k) :: t → k.backoff = some n → n ≤ s.m.clk → ∃ u, exec .stealBackoffExpiry s = .next u ∧ (u.m.core core).backoff = none) ∧
    (∀ die, (preemptPlan s.m die = none → exec (.preemptionRequest die) s = .next s) ∧
      (∀ r c, preemptPlan s.m die = some (r, c) → c = s.m.cur → c.status = .ready → ∃ u, exec (.preemptionRequest die) s = .next u ∧ r.cls < c.cls ∧
        u.m.cur = { c with pre := some { cycle := s.m.clk, deadline := s.m.clk + ydlCycles s.m c.job, byTid := r.tid, byCls := r.cls } })) ∧
    (let t := s.m.cur.tid
     -- the event passes the cores that the crew has migrated from, and renews their forwarding entries
     (∀ w n, s.m.cur.status = .parked w n → let p := passOn s.m t
       (s.m.cur.woken = true ∨ waitHolds p s.m.cur w = true → exec (.waitEvent t) s = .next { s with m := waitFinish p t w }) ∧
       (s.m.cur.woken = false → waitHolds p s.m.cur w = false → exec (.waitEvent t) s = .next { s with m := p })) ∧
     (∀ c, ((passOn s.m t).core c).fwd = (s.m.core c).fwd.map (fun f => if f.tid = t then { f with since := s.m.clk } else f)) ∧
     (∀ w n, s.m.cur.status = .polling w n →
       -- the poll is counted by the wait-table monitor class
       let p := monCount s.m .waitPoll (dieOf s.m.cur.core)
       let goes (c : Status) : Host.Outcome State Fault Refusal := .next { s with m := { p with cur := { s.m.cur with status := c } } }
       (s.m.clk < n → exec (.waitPoll t) s = .next s) ∧
       (n ≤ s.m.clk → waitHolds p s.m.cur w = true → exec (.waitPoll t) s = .next { s with m := waitFinish p t w }) ∧
       (n ≤ s.m.clk → waitHolds p s.m.cur w = false → tableUsed p (dieOf s.m.cur.core) < 2048 → exec (.waitPoll t) s = .next { s with m := parkAt p s.m.cur w }) ∧
       (n ≤ s.m.clk → waitHolds p s.m.cur w = false → 2048 ≤ tableUsed p (dieOf s.m.cur.core) → exec (.waitPoll t) s = goes (.polling w (n + 2048))))) ∧
    (∀ seg t r, (smGet [] (s.m.die (seg / 32)).pending (seg % 32)).find? (fun r => r.tid == t) = some r →
      (eligible s.m r = false → exec (.dataflowEligibilityTest seg t) s = .next s) ∧
      (eligible s.m r = true → ∃ m : Mach, exec (.dataflowEligibilityTest seg t) s = .next { s with m := queueIn m (seg / 32) (seg % 32) r } ∧
        (∀ w ∈ cellOuts r.cells, (cellGet m (cwDie w) r.launch (cwCell w)).claim = some t) ∧
        (∀ w ∈ cellIns r.cells, t ∈ (cellGet m (cwDie w) r.launch (cwCell w)).pins) ∧
        ∀ q ∈ smGet [] (m.die (seg / 32)).pending (seg % 32), q.tid ≠ t)) ∧
    (∀ die cell, ((∀ x ∈ (s.m.die die).cells, x.cell ≠ cell) → exec (.cellWaiterServed die cell) s = .next s) ∧
      (∀ x e, (s.m.die die).cells = [x] → x.cell = cell → (cellQueue s.m x).find? (canAct x) = some e →
        exec (.cellWaiterServed die cell) s = .next { s with m := cellServeCrew s.m e.1 })) ∧
    (∀ core w l st, (s.m.core core).window.find? (fun w => !w.nacked && !w.accepted) = some w → s.m.launch w.launch = some l → l.stages[w.ring]? = some st →
      let room : Prop := smGet 0 st.expect core = w.seq ∧ (st.items.length - st.borrowed.length < st.ring ∨ poolUsed l < l.pool)
      (room → ∃ (t : Mach) (l' : Launch) (st' : Stage), exec (.stageItemArrival core) s = .next { s with m := t } ∧
        t.launch w.launch = some l' ∧ l'.stages[w.ring]? = some st' ∧ st'.items = st.items ++ [w.task] ∧ smGet 0 st'.expect core = w.seq + 1 ∧
        t.todo = s.m.todo ++ [.stageItemAck core]) ∧
      (¬ room → ∃ u, exec (.stageItemArrival core) s = .next u ∧ u.m.launch w.launch = some l ∧ (u.m.core core).window = (s.m.core core).window.map (fun v =>
        if v.launch = w.launch ∧ v.ring = w.ring ∧ v.seq = w.seq then { v with nacked := true } else v))) ∧
    (∀ core a w b, (s.m.core core).window = a ++ w :: b → (∀ v ∈ a, v.accepted = false) → w.accepted = true → ∃ u, exec (.stageItemAck core) s = .next u ∧
      (u.m.core core).window = a ++ b) ∧
    (∀ core, ((∀ e ∈ (s.m.core core).resendAt, s.m.clk < e.2) → exec (.stageResend core) s = .next s) ∧
      (∀ key at', (s.m.core core).resendAt.find? (fun e => decide (e.2 ≤ s.m.clk)) = some (key, at') → ∃ u, exec (.stageResend core) s = .next u ∧
        smFind (u.m.core core).resendAt key = none ∧ ∀ v ∈ (u.m.core core).window, ringKey v.launch v.ring = key → v.nacked = false)) ∧
    (∀ h l, s.m.launch h = some l → (l.govint = 0 ∨ l.done = true ∨ l.started = false → exec (.governorSample h) s = .next s) ∧
      (l.govint ≠ 0 → l.done = false → l.started = true → (∀ st ∈ l.stages, 100 * st.items.length < st.hi * st.ring) →
        exec (.governorSample h) s = .next { s with m := s.m.modLaunch h (fun l => { l with govAt := s.m.clk + 1024 * l.govint }) })) ∧
    (∃ u, exec .boostExpiry s = .next u ∧ (∀ c ∈ u.m.crews, c.boostAt + 2048 ≤ s.m.clk → c.boostLeft = 0) ∧ RegsKept [] (fun _ => []) s.m.cur u.m.cur) ∧
    exec .registerMiss s = .next { s with m := monCount s.m .registerMiss s.m.cur.core } ∧
    ((∀ c ∈ s.m.crews, haltOver s.m c = false) → exec .haltWake s = .next s) ∧
    (s.m.others = [] → haltOver s.m s.m.cur = true → ∃ u, exec .haltWake s = .next u ∧ u.m.cur = { s.m.cur with status := .ready, stamp := s.m.clk } ∧
      (u.m.core s.m.cur.core).pendWake = false) ∧
    (∃ u, exec .coolantOvertemp s = .next u ∧ u.m.cur = s.m.cur ∧ u.m.mem = s.m.mem ∧ ∀ d, d < 8 → (u.m.die d).lee = { (s.m.die d).lee with budget := 700 }) ∧
    (∃ u, exec .coolantRecovery s = .next u ∧ u.m.cur = s.m.cur ∧ u.m.mem = s.m.mem ∧ ∀ d, d < 8 → (u.m.die d).lee = { (s.m.die d).lee with budget := 1000 })

/-- R71 to R75, R110, R172, R173, R188, R191: a launch whose declaration is none or a handler's, or whose map or pipeline is malformed, faults at its
start; one whose set-aside fits, with no earlier launch that waits for its own, starts, with its map of reducers and its stages, and its roots
enter in order; a condition node takes the successor that its word names, the last one at most; a phase boundary waits for the job's engines, then
starts the next phase run, or ends the job with a completed notice; a page's home moves, with its translations dropped; a walk fills TLBs for an
access that may proceed only. Where the rules leave a point open, the model's choice stands (assumption log 6, 35). -/
def Obligations.JobAndPageEvents : Prop :=
  ∀ (s : State),
    (∀ h l, s.m.launch h = some l →
      (l.done = true → exec (.launchStart h) s = .next s) ∧
      (l.done = false → l.started = true → l.counter ≠ 0 → exec (.launchStart h) s = .next { s with m := queueOn s.m h }) ∧
      (l.done = false → l.started = true → l.counter = 0 → exec (.launchStart h) s = .next { s with m := launchDone 65536 s.m h }) ∧
      (l.done = false → l.started = false →
        (∀ cause, launchPlan s.m l = .error cause → exec (.launchStart h) s = .next { s with m := launchFault s.m h cause }) ∧
        (∀ j d reds p, launchPlan s.m l = .ok (j, d, reds, p) → s.m.job l.job = some j ∧ d ∈ j.decls ∧ d.addr = l.declAddr ∧ d.hdlr = false ∧
          (asideWaits s.m h l.tile p = true → exec (.launchStart h) s = .next s) ∧
          (asideWaits s.m h l.tile p = false → ∃ (t : Mach) (l' : Launch) (evs : List Instr),
            exec (.launchStart h) s = .next { s with m := { queueOn t h with todo := (queueOn t h).todo ++ evs } } ∧
            (∀ i ∈ evs, ∃ k, i = .launchStart k) ∧ t.launch h = some l' ∧ l'.started = true ∧ l'.decl = some d ∧ l'.counter = l.counter ∧ l'.reds = reds ∧
            l'.stages = (match p with | some x => x.stages | none => []))) ∧
        (∀ j, s.m.job l.job = some j →
          ((∀ d ∈ j.decls, d.addr = l.declAddr → d.hdlr = true) → launchPlan s.m l = .error 1) ∧
          (∀ d, j.decls.find? (fun d => d.addr == l.declAddr) = some d → d.hdlr = false →
            (d.redmap ≠ 0 → redMap s.m j.id d.redmap = none → launchPlan s.m l = .error 2) ∧
            (d.redmap = 0 → d.piped ≠ 0 → pipeDesc s.m j.id d.piped = none → launchPlan s.m l = .error 3) ∧
            (d.redmap = 0 → d.piped = 0 → launchPlan s.m l = .ok (j, d, [], none)))))) ∧
    (∀ h t, (∀ e ∈ s.m.launches, h ≤ e.1 ∨ e.2.started = true ∨ e.2.done = true) → asideWaits s.m h t none = (takesAside t none && !asideFits s.m t none)) ∧
    (∀ (l : Launch) (j : Job) (d : Decl) (t i : Nat), let r := rootRec l j d t i
      r.aff = (l.affbase + i) % 65536 ∧ r.ped = pedOfRoot i ∧ r.arg = 0 ∧ r.decl = d.addr ∧ r.cls = j.cls ∧ r.launch = l.handle) ∧
    (∀ job n j nd, s.m.job job = some j → nodeAt j n = some nd →
      (nd.cond = false ∨ (nodeState j n ≠ .running ∧ nodeState j n ≠ .failed) → exec (.conditionNodeRead job n) s = .next s) ∧
      (nd.cond = true → nodeState j n = .failed → exec (.conditionNodeRead job n) s = .next { s with m := notice (cancelGraph s.m job) 3 job }) ∧
      (nd.cond = true → nodeState j n = .running → exec (.conditionNodeRead job n) s = .next { s with m := graphAdvance (condNode s.m job n j nd) job }) ∧
      (let g := s.m.setJob job (setNode j n .running)
       heldLines g { core := 320, job := job, sup := false } [(nd.addr, 8)] = [] →
        (∀ b m, condFetch g job n nd.addr = .data b m → condNode s.m job n j nd =
          (apUsed m (condOp job n)).modJob job (fun j => setNode j n (.taken (nd.succ[min (ofBytes b) (nd.succ.length - 1)]?)))) ∧
        (∀ m, condFetch g job n nd.addr = .later m → condNode s.m job n j nd = { m with todo := m.todo ++ [.conditionNodeRead job n] }))) ∧
    (∀ job j, s.m.job job = some j →
      (j.phaseCtr ≠ 1 → j.ended = false → exec (.phaseBoundary job) s = .next s) ∧
      ((j.ended = true ∧ enginesBusy s.m job = true) ∨ (j.phaseCtr = 1 ∧ j.ended = false ∧ (enginesBusy s.m job = true ∨ liveLaunches s.m job ≠ [])) → exec (.phaseBoundary job) s =
        .next { s with m := { s.m with todo := s.m.todo ++ [.phaseBoundary job] } }) ∧
      (j.ended = true → enginesBusy s.m job = false → exec (.phaseBoundary job) s = .next { s with m := unmapJob s.m job }) ∧
      (j.phaseCtr = 1 → j.ended = false → enginesBusy s.m job = false → liveLaunches s.m job = [] → hintHeld s.m j = [] → ∃ t j',
        (exec (.phaseBoundary job) s = .next { s with m := t } ∨ exec (.phaseBoundary job) s = .next { s with m := checkpoint t job }) ∧
        j'.phaseNo = j.phaseNo + 1 ∧ j'.counter = j.counter - 1 ∧ j'.phaseCtr = 0 ∧
        (∀ p, j.phases[j.phase]? = some p → if p.repeats = 0 ∨ j.runs + 1 < p.repeats then j'.phase = j.phase ∧ j'.runs = j.runs + 1
          else j'.phase = j.phase + 1 ∧ j'.runs = 0) ∧
        ∃ m : Mach, m.job job = some j' ∧ t = (if j'.phase < j.phases.length then startPhase m job else endJob m job 1))) ∧
    (∀ job (page : Word) die move, let va := page.toNat
      let again (m : Mach) : Host.Outcome State Fault Refusal := .next { s with m := { m with todo := m.todo ++ [.pageMigration job page die move] } }
      let held := pageHeld s.m job va
      let busy : Prop := holdsTranslation s.m job = true ∨ ∃ r ∈ heldRanges s.m, r.2.1 = job
      (held ≠ [] → exec (.pageMigration job page die move) s = again (snoopSide held s.m)) ∧
      (held = [] → busy → exec (.pageMigration job page die move) s = again s.m) ∧
      (held = [] → ¬ busy →
        (pageBase s.m job va = none → exec (.pageMigration job page die move) s = .next s) ∧
        (∀ l ea, pageBase s.m job va = some (l, ea) → let len := pageBytes (lfSIZE l)
          let homed (x : Nat) : Nat := x - bits x 127 125 * 2 ^ 125 + die * 2 ^ 125
          (lfHome l = die ∨ viewPage s.m job va len = true ∨ 8 ≤ die → exec (.pageMigration job page die move) s = .next s) ∧
          (lfHome l ≠ die → viewPage s.m job va len = false → die < 8 → move = false → exec (.pageMigration job page die move) s =
            .next { s with m := tlbDrop (setHome (putLeaf s.m ea (lfSIZE l) homed) (lfFrame l) (len / 4096) die) job va (va + len) }) ∧
          (die < 8 → ∀ x, x < 2 ^ 128 → lfHome (BitVec.ofNat 128 (homed x)) = die ∧ homed x % 2 ^ 125 = x % 2 ^ 125)))) ∧
    (∀ core job (va : Word) (write : Bool), let w : Who := { core := core, job := job, sup := isControl core }
      let a : Acc := { lane := 0, va := va.toNat, size := 1 }
      let fills : Prop := exec (.walkComplete core job va write) s = .next { s with m := fillTlb s.m core job va.toNat write }
      (∀ o, write = true → check1 s.m w 2 true a = .ok o → fills) ∧ (∀ o, write = false → check1 s.m w 1 true a = .ok o → fills) ∧
      (∀ n h, write = true → check1 s.m w 2 true a = .error (n, h) → n ≠ 5 → exec (.walkComplete core job va write) s = .next s))

/-- R46, R400, R403, R404, R406, R413, R414, R421: the engines' events. A matrix step that starts releases its window and adds its groups to the
elements that it targets, in ascending order from the value each held, or from zero; retiring it takes it from its batch. A copy that starts moves
its rows or records an error; its stamp carries the command's number, with bit 63 set after an error, and the command leaves its channel. Where the
rules leave a point open, the model's choice stands (assumption log 4, 9, 19, 26, 29). -/
def Obligations.EngineEvents : Prop :=
  ∀ (s : State) (core : Nat),
    ((s.m.core core).seqq = [] → exec (.matrixStepStart core) s = .next s ∧ exec (.matrixStepRetire core) s = .next s ∧ ∀ e, exec (.mldbRetire core e) s = .next s) ∧
    (∀ t load batch id pb rest g, (s.m.core core).seqq = .step t load batch id [] pb false :: rest → t = s.m.cur.tid →
      (s.m.core core).mdata.find? (fun x => x.load == load) = some g → let d := stepDesc pb
      ∃ u, exec (.matrixStepStart core) s = .next u ∧ u.m.mem = s.m.mem ∧ (u.m.core core).seqq = .step t load batch id [] pb true :: rest ∧
        (∀ e ∈ (u.m.core core).sb, e.id ≠ id) ∧ RegsKept [] (fun _ => []) s.m.cur { u.m.cur with acc := s.m.cur.acc } ∧
        ∀ i j, i < d.m → j < d.n → let k := stepAcc d i j
          accGet u.m.cur k.1 k.2.1 k.2.2 = BitVec.ofNat 32 (stepElem s.m.cur d g.groups (accGet s.m.cur k.1 k.2.1 k.2.2).toNat i (d.n0 + j))) ∧
    groupAdd 0 (alignGroup 0 ([0x5400, 0x3C01, 0, 0, 0, 0, 0, 0].map (fun x => mElem 0 x none)))
      (alignGroup 0 ([0x3C00, 0x3C00, 0, 0, 0, 0, 0, 0].map (fun x => mElem 0 x none))) = 0x42820000 ∧
    (∀ t load batch id old pb rest, (s.m.core core).seqq = .step t load batch id old pb true :: rest → t = s.m.cur.tid →
      ∃ u, exec (.matrixStepRetire core) s = .next u ∧ u.m.mem = s.m.mem ∧ (u.m.core core).seqq = rest ∧ u.m.cur = batchDrop batch s.m.cur) ∧
    (∀ t id pc desc rest, (s.m.core core).seqq = .load t id pc desc :: rest → t = s.m.cur.tid →
      let w : Who := { core := core, job := s.m.cur.job, sup := false, op := id }
      let held := heldLines s.m w (loadRuns (loadDesc desc))
      let busy := engineStops s.m w (loadRuns (loadDesc desc))
      (held ≠ [] → ∀ e, exec (.mldbRetire core e) s = .next { s with m := snoopSide held s.m }) ∧
      (held = [] → busy = true → ∀ e, exec (.mldbRetire core e) s = .next { s with m := s.m.dueOnce (.mldbRetire core none) }) ∧
      (held = [] → busy = false →
        (∀ pa, ∃ u, exec (.mldbRetire core (some pa)) s = .next u ∧ u.m.mem = s.m.mem ∧ u.m.cur = s.m.cur ∧ (u.m.core core).seqq = rest ∧
          (∀ e ∈ (u.m.core core).sb, e.id ≠ id) ∧ ∀ e ∈ (u.m.core core).macros, e.2.load = id → e.2.mark = some pa) ∧
        (∀ gs m, loadAll w (loadDesc desc) s.m = .ok (gs, m) → ∃ u, exec (.mldbRetire core none) s = .next u ∧ u.m.mem = m.mem ∧ u.m.cur = m.cur ∧
          { load := id, groups := gs } ∈ (u.m.core core).mdata ∧ ∀ e ∈ (u.m.core core).sb, e.id ≠ id))) ∧
    (∀ die ch err, (chanGet s.m die ch).queue = [] → exec (.bteCommandStart die ch err) s = .next s ∧ exec (.bteStampWrite die ch) s = .next s) ∧
    (∀ die ch (k : Cmd) t, (chanGet s.m die ch).queue = k :: t → let w : Who := { core := 336 + die, job := k.job, sup := false, op := k.op }
      let T := k.tmpl
      let rows := bteRows T k.arg
      let held := heldLines s.m w ((if tSkind T = 0 then [srcHull T k.arg] else []) ++ [dstHull T k.arg])
      let waits (m : Mach) : State := { s with m := m.dueOnce (.bteCommandStart die ch false) }
      let busy := engineStops s.m w ((if tSkind T = 0 then rows.map (fun r => (wrapTo 64 (fld T 0 8 + r.1), fld T 24 4)) else []) ++ bteDests s.m k)
      (k.started = true → ∀ err, exec (.bteCommandStart die ch err) s = .next s) ∧
      (k.started = false → bteDst s.m k = .mem → tSkind T ≠ 1 →
        (held ≠ [] → ∀ err, exec (.bteCommandStart die ch err) s = .next { s with m := snoopSide held s.m }) ∧
        (held = [] → busy = true → ∀ err, exec (.bteCommandStart die ch err) s = .next (waits s.m)) ∧
        (held = [] → busy = false →
          exec (.bteCommandStart die ch true) s = .next { s with m := bteCopied (monCount s.m .engineError die) die ch k true [] } ∧
          (bteRead w T none rows s.m = .bad → exec (.bteCommandStart die ch false) s = .next { s with m := bteCopied s.m die ch k true [] }) ∧
          (∀ m, bteRead w T none rows s.m = .later m → exec (.bteCommandStart die ch false) s = .next (waits m)) ∧
          (∀ l m m' done, bteRead w T none rows s.m = .rows l m →
            bteWrite (fun m d bs => engineWrite m w (wrapTo 64 (fld T 8 8 + d)) bs) l m = (m', done) →
            exec (.bteCommandStart die ch false) s = .next { s with m := bteCopied m' die ch k (!done) [] }))) ∧
      (∀ (err : Bool) (sg : List Nat), let v := bteCopied s.m die ch k err sg
        v.mem = s.m.mem ∧ v.cur = s.m.cur ∧ (chanGet v die ch).queue = { k with started := true, err := err, signals := sg } :: t) ∧
      (k.started = false ∨ k.signals ≠ [] → exec (.bteStampWrite die ch) s = .next s) ∧
      (k.started = true → k.signals = [] → tDkind T ≠ 2 →
        let line := heldLines s.m w [(fld T 16 8, 8)]
        (line ≠ [] → exec (.bteStampWrite die ch) s = .next { s with m := snoopSide line s.m }) ∧
        (line = [] → engineStops s.m w [(fld T 16 8, 8)] = true → exec (.bteStampWrite die ch) s = .next { s with m := s.m.dueOnce (.bteStampWrite die ch) }) ∧
        (line = [] → engineStops s.m w [(fld T 16 8, 8)] = false → ∀ m done,
          engineWrite s.m w (fld T 16 8) (toBytes 8 (k.seq + (if k.err then 2 ^ 63 else 0))) = (m, done) → ∃ u, exec (.bteStampWrite die ch) s = .next u ∧
            u.m.mem = m.mem ∧ (chanGet u.m die ch).queue = t ∧ (done = true → (chanGet u.m die ch).stamped = k.seq) ∧ ∀ e ∈ (u.m.core k.core).sb, e.id ≠ k.op)) ∧
      -- the peer is down: the stamp with its error bit is written in the job's space here
      (∀ j dom, k.started = true → k.signals = [] → tDkind T = 2 → s.m.job k.job = some j → j.domain = some dom → peerGone s.m dom (fld T 74 2) j.cls = true →
        peerWaits s.m dom (fld T 74 2) j.cls = false → heldLines s.m w [(fld T 16 8, 8)] = [] → engineStops s.m w [(fld T 16 8, 8)] = false → ∀ m done,
          engineWrite s.m w (fld T 16 8) (toBytes 8 (k.seq + 2 ^ 63)) = (m, done) → ∃ u, exec (.bteStampWrite die ch) s = .next u ∧
            u.m.mem = m.mem ∧ (chanGet u.m die ch).queue = t ∧ (done = true → (chanGet u.m die ch).stamped = k.seq) ∧ ∀ e ∈ (u.m.core k.core).sb, e.id ≠ k.op)) ∧
    ((∀ e ∈ s.m.cores, e.2.landed = []) → exec .landingArrival s = .next s) ∧
    (∀ k rest chan op, s.m.cores = (core, k) :: rest → k.landed = [(chan, op)] → k.landing = none → ∃ u, exec .landingArrival s = .next u ∧ u.m.mem = s.m.mem ∧
      (u.m.core core).landed = [] ∧ ∀ (c : Cmd) t, (chanGet s.m (chan / 64) (chan % 64)).queue = c :: t → c.op = op →
        (chanGet u.m (chan / 64) (chan % 64)).queue = { c with signals := c.signals.filter (· != core) } :: t)
end

