-- ==== Sys2Proof/Laws/State.lean ====
section
/-! SUPPORT. What each named update of the state leaves alone: one lemma per field and update, so that no proof unfolds a record update. -/

namespace Sys2Proof.Laws

open Sys2Proof.Machine

/-! ### `Mach.setCore` -/

@[simp] theorem setCore_clk (m : Mach) (c : Nat) (x : Core) : (m.setCore c x).clk = m.clk := rfl
@[simp] theorem setCore_agenda (m : Mach) (c : Nat) (x : Core) : (m.setCore c x).agenda = m.agenda := rfl
@[simp] theorem setCore_todo (m : Mach) (c : Nat) (x : Core) : (m.setCore c x).todo = m.todo := rfl
@[simp] theorem setCore_cur (m : Mach) (c : Nat) (x : Core) : (m.setCore c x).cur = m.cur := rfl
@[simp] theorem setCore_others (m : Mach) (c : Nat) (x : Core) : (m.setCore c x).others = m.others := rfl
@[simp] theorem setCore_nextTid (m : Mach) (c : Nat) (x : Core) : (m.setCore c x).nextTid = m.nextTid := rfl
@[simp] theorem setCore_freeCtr (m : Mach) (c : Nat) (x : Core) : (m.setCore c x).freeCtr = m.freeCtr := rfl
@[simp] theorem setCore_mem (m : Mach) (c : Nat) (x : Core) : (m.setCore c x).mem = m.mem := rfl
@[simp] theorem setCore_lineKey (m : Mach) (c : Nat) (x : Core) : (m.setCore c x).lineKey = m.lineKey := rfl
@[simp] theorem setCore_dramKey (m : Mach) (c : Nat) (x : Core) : (m.setCore c x).dramKey = m.dramKey := rfl
@[simp] theorem setCore_keys (m : Mach) (c : Nat) (x : Core) : (m.setCore c x).keys = m.keys := rfl
@[simp] theorem setCore_dies (m : Mach) (c : Nat) (x : Core) : (m.setCore c x).dies = m.dies := rfl
@[simp] theorem setCore_jobs (m : Mach) (c : Nat) (x : Core) : (m.setCore c x).jobs = m.jobs := rfl
@[simp] theorem setCore_launches (m : Mach) (c : Nat) (x : Core) : (m.setCore c x).launches = m.launches := rfl
@[simp] theorem setCore_shadow (m : Mach) (c : Nat) (x : Core) : (m.setCore c x).shadow = m.shadow := rfl
@[simp] theorem setCore_groups (m : Mach) (c : Nat) (x : Core) : (m.setCore c x).groups = m.groups := rfl
@[simp] theorem setCore_colls (m : Mach) (c : Nat) (x : Core) : (m.setCore c x).colls = m.colls := rfl
@[simp] theorem setCore_notices (m : Mach) (c : Nat) (x : Core) : (m.setCore c x).notices = m.notices := rfl
@[simp] theorem setCore_coresOff (m : Mach) (c : Nat) (x : Core) : (m.setCore c x).coresOff = m.coresOff := rfl
@[simp] theorem setCore_stacksOff (m : Mach) (c : Nat) (x : Core) : (m.setCore c x).stacksOff = m.stacksOff := rfl
@[simp] theorem setCore_net (m : Mach) (c : Nat) (x : Core) : (m.setCore c x).net = m.net := rfl
@[simp] theorem setCore_outbox (m : Mach) (c : Nat) (x : Core) : (m.setCore c x).outbox = m.outbox := rfl
@[simp] theorem setCore_frames (m : Mach) (c : Nat) (x : Core) : (m.setCore c x).frames = m.frames := rfl
@[simp] theorem setCore_evLeft (m : Mach) (c : Nat) (x : Core) : (m.setCore c x).evLeft = m.evLeft := rfl
@[simp] theorem setCore_picks (m : Mach) (c : Nat) (x : Core) : (m.setCore c x).picks = m.picks := rfl
@[simp] theorem setCore_nextHandle (m : Mach) (c : Nat) (x : Core) : (m.setCore c x).nextHandle = m.nextHandle := rfl
@[simp] theorem setCore_nextJob (m : Mach) (c : Nat) (x : Core) : (m.setCore c x).nextJob = m.nextJob := rfl
@[simp] theorem setCore_nextOp (m : Mach) (c : Nat) (x : Core) : (m.setCore c x).nextOp = m.nextOp := rfl
@[simp] theorem setCore_dirtyL2 (m : Mach) (c : Nat) (x : Core) : (m.setCore c x).dirtyL2 = m.dirtyL2 := rfl
@[simp] theorem setCore_held (m : Mach) (c : Nat) (x : Core) : (m.setCore c x).held = m.held := rfl
@[simp] theorem setCore_owed (m : Mach) (c : Nat) (x : Core) : (m.setCore c x).owed = m.owed := rfl
@[simp] theorem setCore_engKept (m : Mach) (c : Nat) (x : Core) : (m.setCore c x).engKept = m.engKept := rfl
@[simp] theorem setCore_collEarly (m : Mach) (c : Nat) (x : Core) : (m.setCore c x).collEarly = m.collEarly := rfl
@[simp] theorem setCore_msixTab (m : Mach) (c : Nat) (x : Core) : (m.setCore c x).msixTab = m.msixTab := rfl

/-! ### `Mach.setDie` -/

@[simp] theorem setDie_clk (m : Mach) (d : Nat) (x : Die) : (m.setDie d x).clk = m.clk := rfl
@[simp] theorem setDie_agenda (m : Mach) (d : Nat) (x : Die) : (m.setDie d x).agenda = m.agenda := rfl
@[simp] theorem setDie_todo (m : Mach) (d : Nat) (x : Die) : (m.setDie d x).todo = m.todo := rfl
@[simp] theorem setDie_cur (m : Mach) (d : Nat) (x : Die) : (m.setDie d x).cur = m.cur := rfl
@[simp] theorem setDie_others (m : Mach) (d : Nat) (x : Die) : (m.setDie d x).others = m.others := rfl
@[simp] theorem setDie_nextTid (m : Mach) (d : Nat) (x : Die) : (m.setDie d x).nextTid = m.nextTid := rfl
@[simp] theorem setDie_freeCtr (m : Mach) (d : Nat) (x : Die) : (m.setDie d x).freeCtr = m.freeCtr := rfl
@[simp] theorem setDie_mem (m : Mach) (d : Nat) (x : Die) : (m.setDie d x).mem = m.mem := rfl
@[simp] theorem setDie_lineKey (m : Mach) (d : Nat) (x : Die) : (m.setDie d x).lineKey = m.lineKey := rfl
@[simp] theorem setDie_dramKey (m : Mach) (d : Nat) (x : Die) : (m.setDie d x).dramKey = m.dramKey := rfl
@[simp] theorem setDie_keys (m : Mach) (d : Nat) (x : Die) : (m.setDie d x).keys = m.keys := rfl
@[simp] theorem setDie_cores (m : Mach) (d : Nat) (x : Die) : (m.setDie d x).cores = m.cores := rfl
@[simp] theorem setDie_jobs (m : Mach) (d : Nat) (x : Die) : (m.setDie d x).jobs = m.jobs := rfl
@[simp] theorem setDie_launches (m : Mach) (d : Nat) (x : Die) : (m.setDie d x).launches = m.launches := rfl
@[simp] theorem setDie_shadow (m : Mach) (d : Nat) (x : Die) : (m.setDie d x).shadow = m.shadow := rfl
@[simp] theorem setDie_groups (m : Mach) (d : Nat) (x : Die) : (m.setDie d x).groups = m.groups := rfl
@[simp] theorem setDie_colls (m : Mach) (d : Nat) (x : Die) : (m.setDie d x).colls = m.colls := rfl
@[simp] theorem setDie_notices (m : Mach) (d : Nat) (x : Die) : (m.setDie d x).notices = m.notices := rfl
@[simp] theorem setDie_coresOff (m : Mach) (d : Nat) (x : Die) : (m.setDie d x).coresOff = m.coresOff := rfl
@[simp] theorem setDie_stacksOff (m : Mach) (d : Nat) (x : Die) : (m.setDie d x).stacksOff = m.stacksOff := rfl
@[simp] theorem setDie_net (m : Mach) (d : Nat) (x : Die) : (m.setDie d x).net = m.net := rfl
@[simp] theorem setDie_outbox (m : Mach) (d : Nat) (x : Die) : (m.setDie d x).outbox = m.outbox := rfl
@[simp] theorem setDie_frames (m : Mach) (d : Nat) (x : Die) : (m.setDie d x).frames = m.frames := rfl
@[simp] theorem setDie_evLeft (m : Mach) (d : Nat) (x : Die) : (m.setDie d x).evLeft = m.evLeft := rfl
@[simp] theorem setDie_picks (m : Mach) (d : Nat) (x : Die) : (m.setDie d x).picks = m.picks := rfl
@[simp] theorem setDie_nextHandle (m : Mach) (d : Nat) (x : Die) : (m.setDie d x).nextHandle = m.nextHandle := rfl
@[simp] theorem setDie_nextJob (m : Mach) (d : Nat) (x : Die) : (m.setDie d x).nextJob = m.nextJob := rfl
@[simp] theorem setDie_nextOp (m : Mach) (d : Nat) (x : Die) : (m.setDie d x).nextOp = m.nextOp := rfl
@[simp] theorem setDie_dirtyL2 (m : Mach) (d : Nat) (x : Die) : (m.setDie d x).dirtyL2 = m.dirtyL2 := rfl
@[simp] theorem setDie_held (m : Mach) (d : Nat) (x : Die) : (m.setDie d x).held = m.held := rfl
@[simp] theorem setDie_owed (m : Mach) (d : Nat) (x : Die) : (m.setDie d x).owed = m.owed := rfl
@[simp] theorem setDie_engKept (m : Mach) (d : Nat) (x : Die) : (m.setDie d x).engKept = m.engKept := rfl
@[simp] theorem setDie_collEarly (m : Mach) (d : Nat) (x : Die) : (m.setDie d x).collEarly = m.collEarly := rfl
@[simp] theorem setDie_msixTab (m : Mach) (d : Nat) (x : Die) : (m.setDie d x).msixTab = m.msixTab := rfl

/-! ### `Mach.setJob` -/

@[simp] theorem setJob_clk (m : Mach) (j : Nat) (x : Job) : (m.setJob j x).clk = m.clk := rfl
@[simp] theorem setJob_agenda (m : Mach) (j : Nat) (x : Job) : (m.setJob j x).agenda = m.agenda := rfl
@[simp] theorem setJob_todo (m : Mach) (j : Nat) (x : Job) : (m.setJob j x).todo = m.todo := rfl
@[simp] theorem setJob_cur (m : Mach) (j : Nat) (x : Job) : (m.setJob j x).cur = m.cur := rfl
@[simp] theorem setJob_others (m : Mach) (j : Nat) (x : Job) : (m.setJob j x).others = m.others := rfl
@[simp] theorem setJob_nextTid (m : Mach) (j : Nat) (x : Job) : (m.setJob j x).nextTid = m.nextTid := rfl
@[simp] theorem setJob_freeCtr (m : Mach) (j : Nat) (x : Job) : (m.setJob j x).freeCtr = m.freeCtr := rfl
@[simp] theorem setJob_mem (m : Mach) (j : Nat) (x : Job) : (m.setJob j x).mem = m.mem := rfl
@[simp] theorem setJob_lineKey (m : Mach) (j : Nat) (x : Job) : (m.setJob j x).lineKey = m.lineKey := rfl
@[simp] theorem setJob_dramKey (m : Mach) (j : Nat) (x : Job) : (m.setJob j x).dramKey = m.dramKey := rfl
@[simp] theorem setJob_keys (m : Mach) (j : Nat) (x : Job) : (m.setJob j x).keys = m.keys := rfl
@[simp] theorem setJob_cores (m : Mach) (j : Nat) (x : Job) : (m.setJob j x).cores = m.cores := rfl
@[simp] theorem setJob_dies (m : Mach) (j : Nat) (x : Job) : (m.setJob j x).dies = m.dies := rfl
@[simp] theorem setJob_launches (m : Mach) (j : Nat) (x : Job) : (m.setJob j x).launches = m.launches := rfl
@[simp] theorem setJob_shadow (m : Mach) (j : Nat) (x : Job) : (m.setJob j x).shadow = m.shadow := rfl
@[simp] theorem setJob_groups (m : Mach) (j : Nat) (x : Job) : (m.setJob j x).groups = m.groups := rfl
@[simp] theorem setJob_colls (m : Mach) (j : Nat) (x : Job) : (m.setJob j x).colls = m.colls := rfl
@[simp] theorem setJob_notices (m : Mach) (j : Nat) (x : Job) : (m.setJob j x).notices = m.notices := rfl
@[simp] theorem setJob_coresOff (m : Mach) (j : Nat) (x : Job) : (m.setJob j x).coresOff = m.coresOff := rfl
@[simp] theorem setJob_stacksOff (m : Mach) (j : Nat) (x : Job) : (m.setJob j x).stacksOff = m.stacksOff := rfl
@[simp] theorem setJob_net (m : Mach) (j : Nat) (x : Job) : (m.setJob j x).net = m.net := rfl
@[simp] theorem setJob_outbox (m : Mach) (j : Nat) (x : Job) : (m.setJob j x).outbox = m.outbox := rfl
@[simp] theorem setJob_frames (m : Mach) (j : Nat) (x : Job) : (m.setJob j x).frames = m.frames := rfl
@[simp] theorem setJob_evLeft (m : Mach) (j : Nat) (x : Job) : (m.setJob j x).evLeft = m.evLeft := rfl
@[simp] theorem setJob_picks (m : Mach) (j : Nat) (x : Job) : (m.setJob j x).picks = m.picks := rfl
@[simp] theorem setJob_nextHandle (m : Mach) (j : Nat) (x : Job) : (m.setJob j x).nextHandle = m.nextHandle := rfl
@[simp] theorem setJob_nextJob (m : Mach) (j : Nat) (x : Job) : (m.setJob j x).nextJob = m.nextJob := rfl
@[simp] theorem setJob_nextOp (m : Mach) (j : Nat) (x : Job) : (m.setJob j x).nextOp = m.nextOp := rfl
@[simp] theorem setJob_dirtyL2 (m : Mach) (j : Nat) (x : Job) : (m.setJob j x).dirtyL2 = m.dirtyL2 := rfl
@[simp] theorem setJob_held (m : Mach) (j : Nat) (x : Job) : (m.setJob j x).held = m.held := rfl
@[simp] theorem setJob_owed (m : Mach) (j : Nat) (x : Job) : (m.setJob j x).owed = m.owed := rfl
@[simp] theorem setJob_engKept (m : Mach) (j : Nat) (x : Job) : (m.setJob j x).engKept = m.engKept := rfl
@[simp] theorem setJob_collEarly (m : Mach) (j : Nat) (x : Job) : (m.setJob j x).collEarly = m.collEarly := rfl
@[simp] theorem setJob_msixTab (m : Mach) (j : Nat) (x : Job) : (m.setJob j x).msixTab = m.msixTab := rfl

/-! ### `Mach.setLaunch` -/

@[simp] theorem setLaunch_clk (m : Mach) (h : Nat) (x : Launch) : (m.setLaunch h x).clk = m.clk := rfl
@[simp] theorem setLaunch_agenda (m : Mach) (h : Nat) (x : Launch) : (m.setLaunch h x).agenda = m.agenda := rfl
@[simp] theorem setLaunch_todo (m : Mach) (h : Nat) (x : Launch) : (m.setLaunch h x).todo = m.todo := rfl
@[simp] theorem setLaunch_cur (m : Mach) (h : Nat) (x : Launch) : (m.setLaunch h x).cur = m.cur := rfl
@[simp] theorem setLaunch_others (m : Mach) (h : Nat) (x : Launch) : (m.setLaunch h x).others = m.others := rfl
@[simp] theorem setLaunch_nextTid (m : Mach) (h : Nat) (x : Launch) : (m.setLaunch h x).nextTid = m.nextTid := rfl
@[simp] theorem setLaunch_freeCtr (m : Mach) (h : Nat) (x : Launch) : (m.setLaunch h x).freeCtr = m.freeCtr := rfl
@[simp] theorem setLaunch_mem (m : Mach) (h : Nat) (x : Launch) : (m.setLaunch h x).mem = m.mem := rfl
@[simp] theorem setLaunch_lineKey (m : Mach) (h : Nat) (x : Launch) : (m.setLaunch h x).lineKey = m.lineKey := rfl
@[simp] theorem setLaunch_dramKey (m : Mach) (h : Nat) (x : Launch) : (m.setLaunch h x).dramKey = m.dramKey := rfl
@[simp] theorem setLaunch_keys (m : Mach) (h : Nat) (x : Launch) : (m.setLaunch h x).keys = m.keys := rfl
@[simp] theorem setLaunch_cores (m : Mach) (h : Nat) (x : Launch) : (m.setLaunch h x).cores = m.cores := rfl
@[simp] theorem setLaunch_dies (m : Mach) (h : Nat) (x : Launch) : (m.setLaunch h x).dies = m.dies := rfl
@[simp] theorem setLaunch_jobs (m : Mach) (h : Nat) (x : Launch) : (m.setLaunch h x).jobs = m.jobs := rfl
@[simp] theorem setLaunch_shadow (m : Mach) (h : Nat) (x : Launch) : (m.setLaunch h x).shadow = m.shadow := rfl
@[simp] theorem setLaunch_groups (m : Mach) (h : Nat) (x : Launch) : (m.setLaunch h x).groups = m.groups := rfl
@[simp] theorem setLaunch_colls (m : Mach) (h : Nat) (x : Launch) : (m.setLaunch h x).colls = m.colls := rfl
@[simp] theorem setLaunch_notices (m : Mach) (h : Nat) (x : Launch) : (m.setLaunch h x).notices = m.notices := rfl
@[simp] theorem setLaunch_coresOff (m : Mach) (h : Nat) (x : Launch) : (m.setLaunch h x).coresOff = m.coresOff := rfl
@[simp] theorem setLaunch_stacksOff (m : Mach) (h : Nat) (x : Launch) : (m.setLaunch h x).stacksOff = m.stacksOff := rfl
@[simp] theorem setLaunch_net (m : Mach) (h : Nat) (x : Launch) : (m.setLaunch h x).net = m.net := rfl
@[simp] theorem setLaunch_outbox (m : Mach) (h : Nat) (x : Launch) : (m.setLaunch h x).outbox = m.outbox := rfl
@[simp] theorem setLaunch_frames (m : Mach) (h : Nat) (x : Launch) : (m.setLaunch h x).frames = m.frames := rfl
@[simp] theorem setLaunch_evLeft (m : Mach) (h : Nat) (x : Launch) : (m.setLaunch h x).evLeft = m.evLeft := rfl
@[simp] theorem setLaunch_picks (m : Mach) (h : Nat) (x : Launch) : (m.setLaunch h x).picks = m.picks := rfl
@[simp] theorem setLaunch_nextHandle (m : Mach) (h : Nat) (x : Launch) : (m.setLaunch h x).nextHandle = m.nextHandle := rfl
@[simp] theorem setLaunch_nextJob (m : Mach) (h : Nat) (x : Launch) : (m.setLaunch h x).nextJob = m.nextJob := rfl
@[simp] theorem setLaunch_nextOp (m : Mach) (h : Nat) (x : Launch) : (m.setLaunch h x).nextOp = m.nextOp := rfl
@[simp] theorem setLaunch_dirtyL2 (m : Mach) (h : Nat) (x : Launch) : (m.setLaunch h x).dirtyL2 = m.dirtyL2 := rfl
@[simp] theorem setLaunch_held (m : Mach) (h : Nat) (x : Launch) : (m.setLaunch h x).held = m.held := rfl
@[simp] theorem setLaunch_owed (m : Mach) (h : Nat) (x : Launch) : (m.setLaunch h x).owed = m.owed := rfl
@[simp] theorem setLaunch_engKept (m : Mach) (h : Nat) (x : Launch) : (m.setLaunch h x).engKept = m.engKept := rfl
@[simp] theorem setLaunch_collEarly (m : Mach) (h : Nat) (x : Launch) : (m.setLaunch h x).collEarly = m.collEarly := rfl
@[simp] theorem setLaunch_msixTab (m : Mach) (h : Nat) (x : Launch) : (m.setLaunch h x).msixTab = m.msixTab := rfl

/-! ### `Mach.due` -/

@[simp] theorem due_clk (m : Mach) (i : Instr) : (m.due i).clk = m.clk := rfl
@[simp] theorem due_agenda (m : Mach) (i : Instr) : (m.due i).agenda = m.agenda := rfl
@[simp] theorem due_cur (m : Mach) (i : Instr) : (m.due i).cur = m.cur := rfl
@[simp] theorem due_others (m : Mach) (i : Instr) : (m.due i).others = m.others := rfl
@[simp] theorem due_nextTid (m : Mach) (i : Instr) : (m.due i).nextTid = m.nextTid := rfl
@[simp] theorem due_freeCtr (m : Mach) (i : Instr) : (m.due i).freeCtr = m.freeCtr := rfl
@[simp] theorem due_mem (m : Mach) (i : Instr) : (m.due i).mem = m.mem := rfl
@[simp] theorem due_lineKey (m : Mach) (i : Instr) : (m.due i).lineKey = m.lineKey := rfl
@[simp] theorem due_dramKey (m : Mach) (i : Instr) : (m.due i).dramKey = m.dramKey := rfl
@[simp] theorem due_keys (m : Mach) (i : Instr) : (m.due i).keys = m.keys := rfl
@[simp] theorem due_cores (m : Mach) (i : Instr) : (m.due i).cores = m.cores := rfl
@[simp] theorem due_dies (m : Mach) (i : Instr) : (m.due i).dies = m.dies := rfl
@[simp] theorem due_jobs (m : Mach) (i : Instr) : (m.due i).jobs = m.jobs := rfl
@[simp] theorem due_launches (m : Mach) (i : Instr) : (m.due i).launches = m.launches := rfl
@[simp] theorem due_shadow (m : Mach) (i : Instr) : (m.due i).shadow = m.shadow := rfl
@[simp] theorem due_groups (m : Mach) (i : Instr) : (m.due i).groups = m.groups := rfl
@[simp] theorem due_colls (m : Mach) (i : Instr) : (m.due i).colls = m.colls := rfl
@[simp] theorem due_notices (m : Mach) (i : Instr) : (m.due i).notices = m.notices := rfl
@[simp] theorem due_coresOff (m : Mach) (i : Instr) : (m.due i).coresOff = m.coresOff := rfl
@[simp] theorem due_stacksOff (m : Mach) (i : Instr) : (m.due i).stacksOff = m.stacksOff := rfl
@[simp] theorem due_net (m : Mach) (i : Instr) : (m.due i).net = m.net := rfl
@[simp] theorem due_outbox (m : Mach) (i : Instr) : (m.due i).outbox = m.outbox := rfl
@[simp] theorem due_frames (m : Mach) (i : Instr) : (m.due i).frames = m.frames := rfl
@[simp] theorem due_evLeft (m : Mach) (i : Instr) : (m.due i).evLeft = m.evLeft := rfl
@[simp] theorem due_picks (m : Mach) (i : Instr) : (m.due i).picks = m.picks := rfl
@[simp] theorem due_nextHandle (m : Mach) (i : Instr) : (m.due i).nextHandle = m.nextHandle := rfl
@[simp] theorem due_nextJob (m : Mach) (i : Instr) : (m.due i).nextJob = m.nextJob := rfl
@[simp] theorem due_nextOp (m : Mach) (i : Instr) : (m.due i).nextOp = m.nextOp := rfl
@[simp] theorem due_dirtyL2 (m : Mach) (i : Instr) : (m.due i).dirtyL2 = m.dirtyL2 := rfl
@[simp] theorem due_held (m : Mach) (i : Instr) : (m.due i).held = m.held := rfl
@[simp] theorem due_owed (m : Mach) (i : Instr) : (m.due i).owed = m.owed := rfl
@[simp] theorem due_engKept (m : Mach) (i : Instr) : (m.due i).engKept = m.engKept := rfl
@[simp] theorem due_collEarly (m : Mach) (i : Instr) : (m.due i).collEarly = m.collEarly := rfl
@[simp] theorem due_msixTab (m : Mach) (i : Instr) : (m.due i).msixTab = m.msixTab := rfl

/-! ### `Mach.send` -/

@[simp] theorem send_clk (m : Mach) (o : Out) : (m.send o).clk = m.clk := rfl
@[simp] theorem send_agenda (m : Mach) (o : Out) : (m.send o).agenda = m.agenda := rfl
@[simp] theorem send_todo (m : Mach) (o : Out) : (m.send o).todo = m.todo := rfl
@[simp] theorem send_cur (m : Mach) (o : Out) : (m.send o).cur = m.cur := rfl
@[simp] theorem send_others (m : Mach) (o : Out) : (m.send o).others = m.others := rfl
@[simp] theorem send_nextTid (m : Mach) (o : Out) : (m.send o).nextTid = m.nextTid := rfl
@[simp] theorem send_freeCtr (m : Mach) (o : Out) : (m.send o).freeCtr = m.freeCtr := rfl
@[simp] theorem send_mem (m : Mach) (o : Out) : (m.send o).mem = m.mem := rfl
@[simp] theorem send_lineKey (m : Mach) (o : Out) : (m.send o).lineKey = m.lineKey := rfl
@[simp] theorem send_dramKey (m : Mach) (o : Out) : (m.send o).dramKey = m.dramKey := rfl
@[simp] theorem send_keys (m : Mach) (o : Out) : (m.send o).keys = m.keys := rfl
@[simp] theorem send_cores (m : Mach) (o : Out) : (m.send o).cores = m.cores := rfl
@[simp] theorem send_dies (m : Mach) (o : Out) : (m.send o).dies = m.dies := rfl
@[simp] theorem send_jobs (m : Mach) (o : Out) : (m.send o).jobs = m.jobs := rfl
@[simp] theorem send_launches (m : Mach) (o : Out) : (m.send o).launches = m.launches := rfl
@[simp] theorem send_shadow (m : Mach) (o : Out) : (m.send o).shadow = m.shadow := rfl
@[simp] theorem send_groups (m : Mach) (o : Out) : (m.send o).groups = m.groups := rfl
@[simp] theorem send_colls (m : Mach) (o : Out) : (m.send o).colls = m.colls := rfl
@[simp] theorem send_notices (m : Mach) (o : Out) : (m.send o).notices = m.notices := rfl
@[simp] theorem send_coresOff (m : Mach) (o : Out) : (m.send o).coresOff = m.coresOff := rfl
@[simp] theorem send_stacksOff (m : Mach) (o : Out) : (m.send o).stacksOff = m.stacksOff := rfl
@[simp] theorem send_net (m : Mach) (o : Out) : (m.send o).net = m.net := rfl
@[simp] theorem send_frames (m : Mach) (o : Out) : (m.send o).frames = m.frames := rfl
@[simp] theorem send_evLeft (m : Mach) (o : Out) : (m.send o).evLeft = m.evLeft := rfl
@[simp] theorem send_picks (m : Mach) (o : Out) : (m.send o).picks = m.picks := rfl
@[simp] theorem send_nextHandle (m : Mach) (o : Out) : (m.send o).nextHandle = m.nextHandle := rfl
@[simp] theorem send_nextJob (m : Mach) (o : Out) : (m.send o).nextJob = m.nextJob := rfl
@[simp] theorem send_nextOp (m : Mach) (o : Out) : (m.send o).nextOp = m.nextOp := rfl
@[simp] theorem send_dirtyL2 (m : Mach) (o : Out) : (m.send o).dirtyL2 = m.dirtyL2 := rfl
@[simp] theorem send_held (m : Mach) (o : Out) : (m.send o).held = m.held := rfl
@[simp] theorem send_owed (m : Mach) (o : Out) : (m.send o).owed = m.owed := rfl
@[simp] theorem send_engKept (m : Mach) (o : Out) : (m.send o).engKept = m.engKept := rfl
@[simp] theorem send_collEarly (m : Mach) (o : Out) : (m.send o).collEarly = m.collEarly := rfl
@[simp] theorem send_msixTab (m : Mach) (o : Out) : (m.send o).msixTab = m.msixTab := rfl

/-! ### `Mach.modCore` -/

@[simp] theorem modCore_clk (m : Mach) (c : Nat) (f : Core → Core) : (m.modCore c f).clk = m.clk := rfl
@[simp] theorem modCore_agenda (m : Mach) (c : Nat) (f : Core → Core) : (m.modCore c f).agenda = m.agenda := rfl
@[simp] theorem modCore_todo (m : Mach) (c : Nat) (f : Core → Core) : (m.modCore c f).todo = m.todo := rfl
@[simp] theorem modCore_cur (m : Mach) (c : Nat) (f : Core → Core) : (m.modCore c f).cur = m.cur := rfl
@[simp] theorem modCore_others (m : Mach) (c : Nat) (f : Core → Core) : (m.modCore c f).others = m.others := rfl
@[simp] theorem modCore_nextTid (m : Mach) (c : Nat) (f : Core → Core) : (m.modCore c f).nextTid = m.nextTid := rfl
@[simp] theorem modCore_freeCtr (m : Mach) (c : Nat) (f : Core → Core) : (m.modCore c f).freeCtr = m.freeCtr := rfl
@[simp] theorem modCore_mem (m : Mach) (c : Nat) (f : Core → Core) : (m.modCore c f).mem = m.mem := rfl
@[simp] theorem modCore_lineKey (m : Mach) (c : Nat) (f : Core → Core) : (m.modCore c f).lineKey = m.lineKey := rfl
@[simp] theorem modCore_dramKey (m : Mach) (c : Nat) (f : Core → Core) : (m.modCore c f).dramKey = m.dramKey := rfl
@[simp] theorem modCore_keys (m : Mach) (c : Nat) (f : Core → Core) : (m.modCore c f).keys = m.keys := rfl
@[simp] theorem modCore_dies (m : Mach) (c : Nat) (f : Core → Core) : (m.modCore c f).dies = m.dies := rfl
@[simp] theorem modCore_jobs (m : Mach) (c : Nat) (f : Core → Core) : (m.modCore c f).jobs = m.jobs := rfl
@[simp] theorem modCore_launches (m : Mach) (c : Nat) (f : Core → Core) : (m.modCore c f).launches = m.launches := rfl
@[simp] theorem modCore_shadow (m : Mach) (c : Nat) (f : Core → Core) : (m.modCore c f).shadow = m.shadow := rfl
@[simp] theorem modCore_groups (m : Mach) (c : Nat) (f : Core → Core) : (m.modCore c f).groups = m.groups := rfl
@[simp] theorem modCore_colls (m : Mach) (c : Nat) (f : Core → Core) : (m.modCore c f).colls = m.colls := rfl
@[simp] theorem modCore_notices (m : Mach) (c : Nat) (f : Core → Core) : (m.modCore c f).notices = m.notices := rfl
@[simp] theorem modCore_coresOff (m : Mach) (c : Nat) (f : Core → Core) : (m.modCore c f).coresOff = m.coresOff := rfl
@[simp] theorem modCore_stacksOff (m : Mach) (c : Nat) (f : Core → Core) : (m.modCore c f).stacksOff = m.stacksOff := rfl
@[simp] theorem modCore_net (m : Mach) (c : Nat) (f : Core → Core) : (m.modCore c f).net = m.net := rfl
@[simp] theorem modCore_outbox (m : Mach) (c : Nat) (f : Core → Core) : (m.modCore c f).outbox = m.outbox := rfl
@[simp] theorem modCore_frames (m : Mach) (c : Nat) (f : Core → Core) : (m.modCore c f).frames = m.frames := rfl
@[simp] theorem modCore_evLeft (m : Mach) (c : Nat) (f : Core → Core) : (m.modCore c f).evLeft = m.evLeft := rfl
@[simp] theorem modCore_picks (m : Mach) (c : Nat) (f : Core → Core) : (m.modCore c f).picks = m.picks := rfl
@[simp] theorem modCore_nextHandle (m : Mach) (c : Nat) (f : Core → Core) : (m.modCore c f).nextHandle = m.nextHandle := rfl
@[simp] theorem modCore_nextJob (m : Mach) (c : Nat) (f : Core → Core) : (m.modCore c f).nextJob = m.nextJob := rfl
@[simp] theorem modCore_nextOp (m : Mach) (c : Nat) (f : Core → Core) : (m.modCore c f).nextOp = m.nextOp := rfl
@[simp] theorem modCore_dirtyL2 (m : Mach) (c : Nat) (f : Core → Core) : (m.modCore c f).dirtyL2 = m.dirtyL2 := rfl
@[simp] theorem modCore_held (m : Mach) (c : Nat) (f : Core → Core) : (m.modCore c f).held = m.held := rfl
@[simp] theorem modCore_owed (m : Mach) (c : Nat) (f : Core → Core) : (m.modCore c f).owed = m.owed := rfl
@[simp] theorem modCore_engKept (m : Mach) (c : Nat) (f : Core → Core) : (m.modCore c f).engKept = m.engKept := rfl
@[simp] theorem modCore_collEarly (m : Mach) (c : Nat) (f : Core → Core) : (m.modCore c f).collEarly = m.collEarly := rfl
@[simp] theorem modCore_msixTab (m : Mach) (c : Nat) (f : Core → Core) : (m.modCore c f).msixTab = m.msixTab := rfl

/-! ### `Mach.modDie` -/

@[simp] theorem modDie_clk (m : Mach) (d : Nat) (f : Die → Die) : (m.modDie d f).clk = m.clk := rfl
@[simp] theorem modDie_agenda (m : Mach) (d : Nat) (f : Die → Die) : (m.modDie d f).agenda = m.agenda := rfl
@[simp] theorem modDie_todo (m : Mach) (d : Nat) (f : Die → Die) : (m.modDie d f).todo = m.todo := rfl
@[simp] theorem modDie_cur (m : Mach) (d : Nat) (f : Die → Die) : (m.modDie d f).cur = m.cur := rfl
@[simp] theorem modDie_others (m : Mach) (d : Nat) (f : Die → Die) : (m.modDie d f).others = m.others := rfl
@[simp] theorem modDie_nextTid (m : Mach) (d : Nat) (f : Die → Die) : (m.modDie d f).nextTid = m.nextTid := rfl
@[simp] theorem modDie_freeCtr (m : Mach) (d : Nat) (f : Die → Die) : (m.modDie d f).freeCtr = m.freeCtr := rfl
@[simp] theorem modDie_mem (m : Mach) (d : Nat) (f : Die → Die) : (m.modDie d f).mem = m.mem := rfl
@[simp] theorem modDie_lineKey (m : Mach) (d : Nat) (f : Die → Die) : (m.modDie d f).lineKey = m.lineKey := rfl
@[simp] theorem modDie_dramKey (m : Mach) (d : Nat) (f : Die → Die) : (m.modDie d f).dramKey = m.dramKey := rfl
@[simp] theorem modDie_keys (m : Mach) (d : Nat) (f : Die → Die) : (m.modDie d f).keys = m.keys := rfl
@[simp] theorem modDie_cores (m : Mach) (d : Nat) (f : Die → Die) : (m.modDie d f).cores = m.cores := rfl
@[simp] theorem modDie_jobs (m : Mach) (d : Nat) (f : Die → Die) : (m.modDie d f).jobs = m.jobs := rfl
@[simp] theorem modDie_launches (m : Mach) (d : Nat) (f : Die → Die) : (m.modDie d f).launches = m.launches := rfl
@[simp] theorem modDie_shadow (m : Mach) (d : Nat) (f : Die → Die) : (m.modDie d f).shadow = m.shadow := rfl
@[simp] theorem modDie_groups (m : Mach) (d : Nat) (f : Die → Die) : (m.modDie d f).groups = m.groups := rfl
@[simp] theorem modDie_colls (m : Mach) (d : Nat) (f : Die → Die) : (m.modDie d f).colls = m.colls := rfl
@[simp] theorem modDie_notices (m : Mach) (d : Nat) (f : Die → Die) : (m.modDie d f).notices = m.notices := rfl
@[simp] theorem modDie_coresOff (m : Mach) (d : Nat) (f : Die → Die) : (m.modDie d f).coresOff = m.coresOff := rfl
@[simp] theorem modDie_stacksOff (m : Mach) (d : Nat) (f : Die → Die) : (m.modDie d f).stacksOff = m.stacksOff := rfl
@[simp] theorem modDie_net (m : Mach) (d : Nat) (f : Die → Die) : (m.modDie d f).net = m.net := rfl
@[simp] theorem modDie_outbox (m : Mach) (d : Nat) (f : Die → Die) : (m.modDie d f).outbox = m.outbox := rfl
@[simp] theorem modDie_frames (m : Mach) (d : Nat) (f : Die → Die) : (m.modDie d f).frames = m.frames := rfl
@[simp] theorem modDie_evLeft (m : Mach) (d : Nat) (f : Die → Die) : (m.modDie d f).evLeft = m.evLeft := rfl
@[simp] theorem modDie_picks (m : Mach) (d : Nat) (f : Die → Die) : (m.modDie d f).picks = m.picks := rfl
@[simp] theorem modDie_nextHandle (m : Mach) (d : Nat) (f : Die → Die) : (m.modDie d f).nextHandle = m.nextHandle := rfl
@[simp] theorem modDie_nextJob (m : Mach) (d : Nat) (f : Die → Die) : (m.modDie d f).nextJob = m.nextJob := rfl
@[simp] theorem modDie_nextOp (m : Mach) (d : Nat) (f : Die → Die) : (m.modDie d f).nextOp = m.nextOp := rfl
@[simp] theorem modDie_dirtyL2 (m : Mach) (d : Nat) (f : Die → Die) : (m.modDie d f).dirtyL2 = m.dirtyL2 := rfl
@[simp] theorem modDie_held (m : Mach) (d : Nat) (f : Die → Die) : (m.modDie d f).held = m.held := rfl
@[simp] theorem modDie_owed (m : Mach) (d : Nat) (f : Die → Die) : (m.modDie d f).owed = m.owed := rfl
@[simp] theorem modDie_engKept (m : Mach) (d : Nat) (f : Die → Die) : (m.modDie d f).engKept = m.engKept := rfl
@[simp] theorem modDie_collEarly (m : Mach) (d : Nat) (f : Die → Die) : (m.modDie d f).collEarly = m.collEarly := rfl
@[simp] theorem modDie_msixTab (m : Mach) (d : Nat) (f : Die → Die) : (m.modDie d f).msixTab = m.msixTab := rfl

/-! ### `Mach.modJob` -/

@[simp] theorem modJob_clk (m : Mach) (j : Nat) (f : Job → Job) : (m.modJob j f).clk = m.clk := by unfold Mach.modJob; split <;> rfl
@[simp] theorem modJob_agenda (m : Mach) (j : Nat) (f : Job → Job) : (m.modJob j f).agenda = m.agenda := by unfold Mach.modJob; split <;> rfl
@[simp] theorem modJob_todo (m : Mach) (j : Nat) (f : Job → Job) : (m.modJob j f).todo = m.todo := by unfold Mach.modJob; split <;> rfl
@[simp] theorem modJob_cur (m : Mach) (j : Nat) (f : Job → Job) : (m.modJob j f).cur = m.cur := by unfold Mach.modJob; split <;> rfl
@[simp] theorem modJob_others (m : Mach) (j : Nat) (f : Job → Job) : (m.modJob j f).others = m.others := by unfold Mach.modJob; split <;> rfl
@[simp] theorem modJob_nextTid (m : Mach) (j : Nat) (f : Job → Job) : (m.modJob j f).nextTid = m.nextTid := by unfold Mach.modJob; split <;> rfl
@[simp] theorem modJob_freeCtr (m : Mach) (j : Nat) (f : Job → Job) : (m.modJob j f).freeCtr = m.freeCtr := by unfold Mach.modJob; split <;> rfl
@[simp] theorem modJob_mem (m : Mach) (j : Nat) (f : Job → Job) : (m.modJob j f).mem = m.mem := by unfold Mach.modJob; split <;> rfl
@[simp] theorem modJob_lineKey (m : Mach) (j : Nat) (f : Job → Job) : (m.modJob j f).lineKey = m.lineKey := by unfold Mach.modJob; split <;> rfl
@[simp] theorem modJob_dramKey (m : Mach) (j : Nat) (f : Job → Job) : (m.modJob j f).dramKey = m.dramKey := by unfold Mach.modJob; split <;> rfl
@[simp] theorem modJob_keys (m : Mach) (j : Nat) (f : Job → Job) : (m.modJob j f).keys = m.keys := by unfold Mach.modJob; split <;> rfl
@[simp] theorem modJob_cores (m : Mach) (j : Nat) (f : Job → Job) : (m.modJob j f).cores = m.cores := by unfold Mach.modJob; split <;> rfl
@[simp] theorem modJob_dies (m : Mach) (j : Nat) (f : Job → Job) : (m.modJob j f).dies = m.dies := by unfold Mach.modJob; split <;> rfl
@[simp] theorem modJob_launches (m : Mach) (j : Nat) (f : Job → Job) : (m.modJob j f).launches = m.launches := by unfold Mach.modJob; split <;> rfl
@[simp] theorem modJob_shadow (m : Mach) (j : Nat) (f : Job → Job) : (m.modJob j f).shadow = m.shadow := by unfold Mach.modJob; split <;> rfl
@[simp] theorem modJob_groups (m : Mach) (j : Nat) (f : Job → Job) : (m.modJob j f).groups = m.groups := by unfold Mach.modJob; split <;> rfl
@[simp] theorem modJob_colls (m : Mach) (j : Nat) (f : Job → Job) : (m.modJob j f).colls = m.colls := by unfold Mach.modJob; split <;> rfl
@[simp] theorem modJob_notices (m : Mach) (j : Nat) (f : Job → Job) : (m.modJob j f).notices = m.notices := by unfold Mach.modJob; split <;> rfl
@[simp] theorem modJob_coresOff (m : Mach) (j : Nat) (f : Job → Job) : (m.modJob j f).coresOff = m.coresOff := by unfold Mach.modJob; split <;> rfl
@[simp] theorem modJob_stacksOff (m : Mach) (j : Nat) (f : Job → Job) : (m.modJob j f).stacksOff = m.stacksOff := by unfold Mach.modJob; split <;> rfl
@[simp] theorem modJob_net (m : Mach) (j : Nat) (f : Job → Job) : (m.modJob j f).net = m.net := by unfold Mach.modJob; split <;> rfl
@[simp] theorem modJob_outbox (m : Mach) (j : Nat) (f : Job → Job) : (m.modJob j f).outbox = m.outbox := by unfold Mach.modJob; split <;> rfl
@[simp] theorem modJob_frames (m : Mach) (j : Nat) (f : Job → Job) : (m.modJob j f).frames = m.frames := by unfold Mach.modJob; split <;> rfl
@[simp] theorem modJob_evLeft (m : Mach) (j : Nat) (f : Job → Job) : (m.modJob j f).evLeft = m.evLeft := by unfold Mach.modJob; split <;> rfl
@[simp] theorem modJob_picks (m : Mach) (j : Nat) (f : Job → Job) : (m.modJob j f).picks = m.picks := by unfold Mach.modJob; split <;> rfl
@[simp] theorem modJob_nextHandle (m : Mach) (j : Nat) (f : Job → Job) : (m.modJob j f).nextHandle = m.nextHandle := by unfold Mach.modJob; split <;> rfl
@[simp] theorem modJob_nextJob (m : Mach) (j : Nat) (f : Job → Job) : (m.modJob j f).nextJob = m.nextJob := by unfold Mach.modJob; split <;> rfl
@[simp] theorem modJob_nextOp (m : Mach) (j : Nat) (f : Job → Job) : (m.modJob j f).nextOp = m.nextOp := by unfold Mach.modJob; split <;> rfl
@[simp] theorem modJob_dirtyL2 (m : Mach) (j : Nat) (f : Job → Job) : (m.modJob j f).dirtyL2 = m.dirtyL2 := by unfold Mach.modJob; split <;> rfl
@[simp] theorem modJob_held (m : Mach) (j : Nat) (f : Job → Job) : (m.modJob j f).held = m.held := by unfold Mach.modJob; split <;> rfl
@[simp] theorem modJob_owed (m : Mach) (j : Nat) (f : Job → Job) : (m.modJob j f).owed = m.owed := by unfold Mach.modJob; split <;> rfl
@[simp] theorem modJob_engKept (m : Mach) (j : Nat) (f : Job → Job) : (m.modJob j f).engKept = m.engKept := by unfold Mach.modJob; split <;> rfl
@[simp] theorem modJob_collEarly (m : Mach) (j : Nat) (f : Job → Job) : (m.modJob j f).collEarly = m.collEarly := by unfold Mach.modJob; split <;> rfl
@[simp] theorem modJob_msixTab (m : Mach) (j : Nat) (f : Job → Job) : (m.modJob j f).msixTab = m.msixTab := by unfold Mach.modJob; split <;> rfl

/-! ### `Mach.modLaunch` -/

@[simp] theorem modLaunch_clk (m : Mach) (h : Nat) (f : Launch → Launch) : (m.modLaunch h f).clk = m.clk := by unfold Mach.modLaunch; split <;> rfl
@[simp] theorem modLaunch_agenda (m : Mach) (h : Nat) (f : Launch → Launch) : (m.modLaunch h f).agenda = m.agenda := by unfold Mach.modLaunch; split <;> rfl
@[simp] theorem modLaunch_todo (m : Mach) (h : Nat) (f : Launch → Launch) : (m.modLaunch h f).todo = m.todo := by unfold Mach.modLaunch; split <;> rfl
@[simp] theorem modLaunch_cur (m : Mach) (h : Nat) (f : Launch → Launch) : (m.modLaunch h f).cur = m.cur := by unfold Mach.modLaunch; split <;> rfl
@[simp] theorem modLaunch_others (m : Mach) (h : Nat) (f : Launch → Launch) : (m.modLaunch h f).others = m.others := by unfold Mach.modLaunch; split <;> rfl
@[simp] theorem modLaunch_nextTid (m : Mach) (h : Nat) (f : Launch → Launch) : (m.modLaunch h f).nextTid = m.nextTid := by unfold Mach.modLaunch; split <;> rfl
@[simp] theorem modLaunch_freeCtr (m : Mach) (h : Nat) (f : Launch → Launch) : (m.modLaunch h f).freeCtr = m.freeCtr := by unfold Mach.modLaunch; split <;> rfl
@[simp] theorem modLaunch_mem (m : Mach) (h : Nat) (f : Launch → Launch) : (m.modLaunch h f).mem = m.mem := by unfold Mach.modLaunch; split <;> rfl
@[simp] theorem modLaunch_lineKey (m : Mach) (h : Nat) (f : Launch → Launch) : (m.modLaunch h f).lineKey = m.lineKey := by unfold Mach.modLaunch; split <;> rfl
@[simp] theorem modLaunch_dramKey (m : Mach) (h : Nat) (f : Launch → Launch) : (m.modLaunch h f).dramKey = m.dramKey := by unfold Mach.modLaunch; split <;> rfl
@[simp] theorem modLaunch_keys (m : Mach) (h : Nat) (f : Launch → Launch) : (m.modLaunch h f).keys = m.keys := by unfold Mach.modLaunch; split <;> rfl
@[simp] theorem modLaunch_cores (m : Mach) (h : Nat) (f : Launch → Launch) : (m.modLaunch h f).cores = m.cores := by unfold Mach.modLaunch; split <;> rfl
@[simp] theorem modLaunch_dies (m : Mach) (h : Nat) (f : Launch → Launch) : (m.modLaunch h f).dies = m.dies := by unfold Mach.modLaunch; split <;> rfl
@[simp] theorem modLaunch_jobs (m : Mach) (h : Nat) (f : Launch → Launch) : (m.modLaunch h f).jobs = m.jobs := by unfold Mach.modLaunch; split <;> rfl
@[simp] theorem modLaunch_shadow (m : Mach) (h : Nat) (f : Launch → Launch) : (m.modLaunch h f).shadow = m.shadow := by unfold Mach.modLaunch; split <;> rfl
@[simp] theorem modLaunch_groups (m : Mach) (h : Nat) (f : Launch → Launch) : (m.modLaunch h f).groups = m.groups := by unfold Mach.modLaunch; split <;> rfl
@[simp] theorem modLaunch_colls (m : Mach) (h : Nat) (f : Launch → Launch) : (m.modLaunch h f).colls = m.colls := by unfold Mach.modLaunch; split <;> rfl
@[simp] theorem modLaunch_notices (m : Mach) (h : Nat) (f : Launch → Launch) : (m.modLaunch h f).notices = m.notices := by unfold Mach.modLaunch; split <;> rfl
@[simp] theorem modLaunch_coresOff (m : Mach) (h : Nat) (f : Launch → Launch) : (m.modLaunch h f).coresOff = m.coresOff := by unfold Mach.modLaunch; split <;> rfl
@[simp] theorem modLaunch_stacksOff (m : Mach) (h : Nat) (f : Launch → Launch) : (m.modLaunch h f).stacksOff = m.stacksOff := by unfold Mach.modLaunch; split <;> rfl
@[simp] theorem modLaunch_net (m : Mach) (h : Nat) (f : Launch → Launch) : (m.modLaunch h f).net = m.net := by unfold Mach.modLaunch; split <;> rfl
@[simp] theorem modLaunch_outbox (m : Mach) (h : Nat) (f : Launch → Launch) : (m.modLaunch h f).outbox = m.outbox := by unfold Mach.modLaunch; split <;> rfl
@[simp] theorem modLaunch_frames (m : Mach) (h : Nat) (f : Launch → Launch) : (m.modLaunch h f).frames = m.frames := by unfold Mach.modLaunch; split <;> rfl
@[simp] theorem modLaunch_evLeft (m : Mach) (h : Nat) (f : Launch → Launch) : (m.modLaunch h f).evLeft = m.evLeft := by unfold Mach.modLaunch; split <;> rfl
@[simp] theorem modLaunch_picks (m : Mach) (h : Nat) (f : Launch → Launch) : (m.modLaunch h f).picks = m.picks := by unfold Mach.modLaunch; split <;> rfl
@[simp] theorem modLaunch_nextHandle (m : Mach) (h : Nat) (f : Launch → Launch) : (m.modLaunch h f).nextHandle = m.nextHandle := by unfold Mach.modLaunch; split <;> rfl
@[simp] theorem modLaunch_nextJob (m : Mach) (h : Nat) (f : Launch → Launch) : (m.modLaunch h f).nextJob = m.nextJob := by unfold Mach.modLaunch; split <;> rfl
@[simp] theorem modLaunch_nextOp (m : Mach) (h : Nat) (f : Launch → Launch) : (m.modLaunch h f).nextOp = m.nextOp := by unfold Mach.modLaunch; split <;> rfl
@[simp] theorem modLaunch_dirtyL2 (m : Mach) (h : Nat) (f : Launch → Launch) : (m.modLaunch h f).dirtyL2 = m.dirtyL2 := by unfold Mach.modLaunch; split <;> rfl
@[simp] theorem modLaunch_held (m : Mach) (h : Nat) (f : Launch → Launch) : (m.modLaunch h f).held = m.held := by unfold Mach.modLaunch; split <;> rfl
@[simp] theorem modLaunch_owed (m : Mach) (h : Nat) (f : Launch → Launch) : (m.modLaunch h f).owed = m.owed := by unfold Mach.modLaunch; split <;> rfl
@[simp] theorem modLaunch_engKept (m : Mach) (h : Nat) (f : Launch → Launch) : (m.modLaunch h f).engKept = m.engKept := by unfold Mach.modLaunch; split <;> rfl
@[simp] theorem modLaunch_collEarly (m : Mach) (h : Nat) (f : Launch → Launch) : (m.modLaunch h f).collEarly = m.collEarly := by unfold Mach.modLaunch; split <;> rfl
@[simp] theorem modLaunch_msixTab (m : Mach) (h : Nat) (f : Launch → Launch) : (m.modLaunch h f).msixTab = m.msixTab := by unfold Mach.modLaunch; split <;> rfl

/-! ### `Mach.setCrew` -/

@[simp] theorem setCrew_clk (m : Mach) (c : Crew) : (m.setCrew c).clk = m.clk := by unfold Mach.setCrew; split <;> rfl
@[simp] theorem setCrew_agenda (m : Mach) (c : Crew) : (m.setCrew c).agenda = m.agenda := by unfold Mach.setCrew; split <;> rfl
@[simp] theorem setCrew_todo (m : Mach) (c : Crew) : (m.setCrew c).todo = m.todo := by unfold Mach.setCrew; split <;> rfl
@[simp] theorem setCrew_nextTid (m : Mach) (c : Crew) : (m.setCrew c).nextTid = m.nextTid := by unfold Mach.setCrew; split <;> rfl
@[simp] theorem setCrew_freeCtr (m : Mach) (c : Crew) : (m.setCrew c).freeCtr = m.freeCtr := by unfold Mach.setCrew; split <;> rfl
@[simp] theorem setCrew_mem (m : Mach) (c : Crew) : (m.setCrew c).mem = m.mem := by unfold Mach.setCrew; split <;> rfl
@[simp] theorem setCrew_lineKey (m : Mach) (c : Crew) : (m.setCrew c).lineKey = m.lineKey := by unfold Mach.setCrew; split <;> rfl
@[simp] theorem setCrew_dramKey (m : Mach) (c : Crew) : (m.setCrew c).dramKey = m.dramKey := by unfold Mach.setCrew; split <;> rfl
@[simp] theorem setCrew_keys (m : Mach) (c : Crew) : (m.setCrew c).keys = m.keys := by unfold Mach.setCrew; split <;> rfl
@[simp] theorem setCrew_cores (m : Mach) (c : Crew) : (m.setCrew c).cores = m.cores := by unfold Mach.setCrew; split <;> rfl
@[simp] theorem setCrew_dies (m : Mach) (c : Crew) : (m.setCrew c).dies = m.dies := by unfold Mach.setCrew; split <;> rfl
@[simp] theorem setCrew_jobs (m : Mach) (c : Crew) : (m.setCrew c).jobs = m.jobs := by unfold Mach.setCrew; split <;> rfl
@[simp] theorem setCrew_launches (m : Mach) (c : Crew) : (m.setCrew c).launches = m.launches := by unfold Mach.setCrew; split <;> rfl
@[simp] theorem setCrew_shadow (m : Mach) (c : Crew) : (m.setCrew c).shadow = m.shadow := by unfold Mach.setCrew; split <;> rfl
@[simp] theorem setCrew_groups (m : Mach) (c : Crew) : (m.setCrew c).groups = m.groups := by unfold Mach.setCrew; split <;> rfl
@[simp] theorem setCrew_colls (m : Mach) (c : Crew) : (m.setCrew c).colls = m.colls := by unfold Mach.setCrew; split <;> rfl
@[simp] theorem setCrew_notices (m : Mach) (c : Crew) : (m.setCrew c).notices = m.notices := by unfold Mach.setCrew; split <;> rfl
@[simp] theorem setCrew_coresOff (m : Mach) (c : Crew) : (m.setCrew c).coresOff = m.coresOff := by unfold Mach.setCrew; split <;> rfl
@[simp] theorem setCrew_stacksOff (m : Mach) (c : Crew) : (m.setCrew c).stacksOff = m.stacksOff := by unfold Mach.setCrew; split <;> rfl
@[simp] theorem setCrew_net (m : Mach) (c : Crew) : (m.setCrew c).net = m.net := by unfold Mach.setCrew; split <;> rfl
@[simp] theorem setCrew_outbox (m : Mach) (c : Crew) : (m.setCrew c).outbox = m.outbox := by unfold Mach.setCrew; split <;> rfl
@[simp] theorem setCrew_frames (m : Mach) (c : Crew) : (m.setCrew c).frames = m.frames := by unfold Mach.setCrew; split <;> rfl
@[simp] theorem setCrew_evLeft (m : Mach) (c : Crew) : (m.setCrew c).evLeft = m.evLeft := by unfold Mach.setCrew; split <;> rfl
@[simp] theorem setCrew_picks (m : Mach) (c : Crew) : (m.setCrew c).picks = m.picks := by unfold Mach.setCrew; split <;> rfl
@[simp] theorem setCrew_nextHandle (m : Mach) (c : Crew) : (m.setCrew c).nextHandle = m.nextHandle := by unfold Mach.setCrew; split <;> rfl
@[simp] theorem setCrew_nextJob (m : Mach) (c : Crew) : (m.setCrew c).nextJob = m.nextJob := by unfold Mach.setCrew; split <;> rfl
@[simp] theorem setCrew_nextOp (m : Mach) (c : Crew) : (m.setCrew c).nextOp = m.nextOp := by unfold Mach.setCrew; split <;> rfl
@[simp] theorem setCrew_dirtyL2 (m : Mach) (c : Crew) : (m.setCrew c).dirtyL2 = m.dirtyL2 := by unfold Mach.setCrew; split <;> rfl
@[simp] theorem setCrew_held (m : Mach) (c : Crew) : (m.setCrew c).held = m.held := by unfold Mach.setCrew; split <;> rfl
@[simp] theorem setCrew_owed (m : Mach) (c : Crew) : (m.setCrew c).owed = m.owed := by unfold Mach.setCrew; split <;> rfl
@[simp] theorem setCrew_engKept (m : Mach) (c : Crew) : (m.setCrew c).engKept = m.engKept := by unfold Mach.setCrew; split <;> rfl
@[simp] theorem setCrew_collEarly (m : Mach) (c : Crew) : (m.setCrew c).collEarly = m.collEarly := by unfold Mach.setCrew; split <;> rfl
@[simp] theorem setCrew_msixTab (m : Mach) (c : Crew) : (m.setCrew c).msixTab = m.msixTab := by unfold Mach.setCrew; split <;> rfl

/-! ### `Mach.modCrew` -/

@[simp] theorem modCrew_clk (m : Mach) (t : Nat) (f : Crew → Crew) : (m.modCrew t f).clk = m.clk := by unfold Mach.modCrew; split <;> simp
@[simp] theorem modCrew_agenda (m : Mach) (t : Nat) (f : Crew → Crew) : (m.modCrew t f).agenda = m.agenda := by unfold Mach.modCrew; split <;> simp
@[simp] theorem modCrew_todo (m : Mach) (t : Nat) (f : Crew → Crew) : (m.modCrew t f).todo = m.todo := by unfold Mach.modCrew; split <;> simp
@[simp] theorem modCrew_nextTid (m : Mach) (t : Nat) (f : Crew → Crew) : (m.modCrew t f).nextTid = m.nextTid := by unfold Mach.modCrew; split <;> simp
@[simp] theorem modCrew_freeCtr (m : Mach) (t : Nat) (f : Crew → Crew) : (m.modCrew t f).freeCtr = m.freeCtr := by unfold Mach.modCrew; split <;> simp
@[simp] theorem modCrew_mem (m : Mach) (t : Nat) (f : Crew → Crew) : (m.modCrew t f).mem = m.mem := by unfold Mach.modCrew; split <;> simp
@[simp] theorem modCrew_lineKey (m : Mach) (t : Nat) (f : Crew → Crew) : (m.modCrew t f).lineKey = m.lineKey := by unfold Mach.modCrew; split <;> simp
@[simp] theorem modCrew_dramKey (m : Mach) (t : Nat) (f : Crew → Crew) : (m.modCrew t f).dramKey = m.dramKey := by unfold Mach.modCrew; split <;> simp
@[simp] theorem modCrew_keys (m : Mach) (t : Nat) (f : Crew → Crew) : (m.modCrew t f).keys = m.keys := by unfold Mach.modCrew; split <;> simp
@[simp] theorem modCrew_cores (m : Mach) (t : Nat) (f : Crew → Crew) : (m.modCrew t f).cores = m.cores := by unfold Mach.modCrew; split <;> simp
@[simp] theorem modCrew_dies (m : Mach) (t : Nat) (f : Crew → Crew) : (m.modCrew t f).dies = m.dies := by unfold Mach.modCrew; split <;> simp
@[simp] theorem modCrew_jobs (m : Mach) (t : Nat) (f : Crew → Crew) : (m.modCrew t f).jobs = m.jobs := by unfold Mach.modCrew; split <;> simp
@[simp] theorem modCrew_launches (m : Mach) (t : Nat) (f : Crew → Crew) : (m.modCrew t f).launches = m.launches := by unfold Mach.modCrew; split <;> simp
@[simp] theorem modCrew_shadow (m : Mach) (t : Nat) (f : Crew → Crew) : (m.modCrew t f).shadow = m.shadow := by unfold Mach.modCrew; split <;> simp
@[simp] theorem modCrew_groups (m : Mach) (t : Nat) (f : Crew → Crew) : (m.modCrew t f).groups = m.groups := by unfold Mach.modCrew; split <;> simp
@[simp] theorem modCrew_colls (m : Mach) (t : Nat) (f : Crew → Crew) : (m.modCrew t f).colls = m.colls := by unfold Mach.modCrew; split <;> simp
@[simp] theorem modCrew_notices (m : Mach) (t : Nat) (f : Crew → Crew) : (m.modCrew t f).notices = m.notices := by unfold Mach.modCrew; split <;> simp
@[simp] theorem modCrew_coresOff (m : Mach) (t : Nat) (f : Crew → Crew) : (m.modCrew t f).coresOff = m.coresOff := by unfold Mach.modCrew; split <;> simp
@[simp] theorem modCrew_stacksOff (m : Mach) (t : Nat) (f : Crew → Crew) : (m.modCrew t f).stacksOff = m.stacksOff := by unfold Mach.modCrew; split <;> simp
@[simp] theorem modCrew_net (m : Mach) (t : Nat) (f : Crew → Crew) : (m.modCrew t f).net = m.net := by unfold Mach.modCrew; split <;> simp
@[simp] theorem modCrew_outbox (m : Mach) (t : Nat) (f : Crew → Crew) : (m.modCrew t f).outbox = m.outbox := by unfold Mach.modCrew; split <;> simp
@[simp] theorem modCrew_frames (m : Mach) (t : Nat) (f : Crew → Crew) : (m.modCrew t f).frames = m.frames := by unfold Mach.modCrew; split <;> simp
@[simp] theorem modCrew_evLeft (m : Mach) (t : Nat) (f : Crew → Crew) : (m.modCrew t f).evLeft = m.evLeft := by unfold Mach.modCrew; split <;> simp
@[simp] theorem modCrew_picks (m : Mach) (t : Nat) (f : Crew → Crew) : (m.modCrew t f).picks = m.picks := by unfold Mach.modCrew; split <;> simp
@[simp] theorem modCrew_nextHandle (m : Mach) (t : Nat) (f : Crew → Crew) : (m.modCrew t f).nextHandle = m.nextHandle := by unfold Mach.modCrew; split <;> simp
@[simp] theorem modCrew_nextJob (m : Mach) (t : Nat) (f : Crew → Crew) : (m.modCrew t f).nextJob = m.nextJob := by unfold Mach.modCrew; split <;> simp
@[simp] theorem modCrew_nextOp (m : Mach) (t : Nat) (f : Crew → Crew) : (m.modCrew t f).nextOp = m.nextOp := by unfold Mach.modCrew; split <;> simp
@[simp] theorem modCrew_dirtyL2 (m : Mach) (t : Nat) (f : Crew → Crew) : (m.modCrew t f).dirtyL2 = m.dirtyL2 := by unfold Mach.modCrew; split <;> simp
@[simp] theorem modCrew_held (m : Mach) (t : Nat) (f : Crew → Crew) : (m.modCrew t f).held = m.held := by unfold Mach.modCrew; split <;> simp
@[simp] theorem modCrew_owed (m : Mach) (t : Nat) (f : Crew → Crew) : (m.modCrew t f).owed = m.owed := by unfold Mach.modCrew; split <;> simp
@[simp] theorem modCrew_engKept (m : Mach) (t : Nat) (f : Crew → Crew) : (m.modCrew t f).engKept = m.engKept := by unfold Mach.modCrew; split <;> simp
@[simp] theorem modCrew_collEarly (m : Mach) (t : Nat) (f : Crew → Crew) : (m.modCrew t f).collEarly = m.collEarly := by unfold Mach.modCrew; split <;> simp
@[simp] theorem modCrew_msixTab (m : Mach) (t : Nat) (f : Crew → Crew) : (m.modCrew t f).msixTab = m.msixTab := by unfold Mach.modCrew; split <;> simp

/-! ### `Mach.wakes` -/

@[simp] theorem wakes_clk (m : Mach) (t : Nat) : (m.wakes t).clk = m.clk := by simp [Mach.wakes]
@[simp] theorem wakes_agenda (m : Mach) (t : Nat) : (m.wakes t).agenda = m.agenda := by simp [Mach.wakes]
@[simp] theorem wakes_nextTid (m : Mach) (t : Nat) : (m.wakes t).nextTid = m.nextTid := by simp [Mach.wakes]
@[simp] theorem wakes_freeCtr (m : Mach) (t : Nat) : (m.wakes t).freeCtr = m.freeCtr := by simp [Mach.wakes]
@[simp] theorem wakes_mem (m : Mach) (t : Nat) : (m.wakes t).mem = m.mem := by simp [Mach.wakes]
@[simp] theorem wakes_lineKey (m : Mach) (t : Nat) : (m.wakes t).lineKey = m.lineKey := by simp [Mach.wakes]
@[simp] theorem wakes_dramKey (m : Mach) (t : Nat) : (m.wakes t).dramKey = m.dramKey := by simp [Mach.wakes]
@[simp] theorem wakes_keys (m : Mach) (t : Nat) : (m.wakes t).keys = m.keys := by simp [Mach.wakes]
@[simp] theorem wakes_cores (m : Mach) (t : Nat) : (m.wakes t).cores = m.cores := by simp [Mach.wakes]
@[simp] theorem wakes_dies (m : Mach) (t : Nat) : (m.wakes t).dies = m.dies := by simp [Mach.wakes]
@[simp] theorem wakes_jobs (m : Mach) (t : Nat) : (m.wakes t).jobs = m.jobs := by simp [Mach.wakes]
@[simp] theorem wakes_launches (m : Mach) (t : Nat) : (m.wakes t).launches = m.launches := by simp [Mach.wakes]
@[simp] theorem wakes_shadow (m : Mach) (t : Nat) : (m.wakes t).shadow = m.shadow := by simp [Mach.wakes]
@[simp] theorem wakes_groups (m : Mach) (t : Nat) : (m.wakes t).groups = m.groups := by simp [Mach.wakes]
@[simp] theorem wakes_colls (m : Mach) (t : Nat) : (m.wakes t).colls = m.colls := by simp [Mach.wakes]
@[simp] theorem wakes_notices (m : Mach) (t : Nat) : (m.wakes t).notices = m.notices := by simp [Mach.wakes]
@[simp] theorem wakes_coresOff (m : Mach) (t : Nat) : (m.wakes t).coresOff = m.coresOff := by simp [Mach.wakes]
@[simp] theorem wakes_stacksOff (m : Mach) (t : Nat) : (m.wakes t).stacksOff = m.stacksOff := by simp [Mach.wakes]
@[simp] theorem wakes_net (m : Mach) (t : Nat) : (m.wakes t).net = m.net := by simp [Mach.wakes]
@[simp] theorem wakes_outbox (m : Mach) (t : Nat) : (m.wakes t).outbox = m.outbox := by simp [Mach.wakes]
@[simp] theorem wakes_frames (m : Mach) (t : Nat) : (m.wakes t).frames = m.frames := by simp [Mach.wakes]
@[simp] theorem wakes_evLeft (m : Mach) (t : Nat) : (m.wakes t).evLeft = m.evLeft := by simp [Mach.wakes]
@[simp] theorem wakes_picks (m : Mach) (t : Nat) : (m.wakes t).picks = m.picks := by simp [Mach.wakes]
@[simp] theorem wakes_nextHandle (m : Mach) (t : Nat) : (m.wakes t).nextHandle = m.nextHandle := by simp [Mach.wakes]
@[simp] theorem wakes_nextJob (m : Mach) (t : Nat) : (m.wakes t).nextJob = m.nextJob := by simp [Mach.wakes]
@[simp] theorem wakes_nextOp (m : Mach) (t : Nat) : (m.wakes t).nextOp = m.nextOp := by simp [Mach.wakes]
@[simp] theorem wakes_dirtyL2 (m : Mach) (t : Nat) : (m.wakes t).dirtyL2 = m.dirtyL2 := by simp [Mach.wakes]
@[simp] theorem wakes_held (m : Mach) (t : Nat) : (m.wakes t).held = m.held := by simp [Mach.wakes]
@[simp] theorem wakes_owed (m : Mach) (t : Nat) : (m.wakes t).owed = m.owed := by simp [Mach.wakes]
@[simp] theorem wakes_engKept (m : Mach) (t : Nat) : (m.wakes t).engKept = m.engKept := by simp [Mach.wakes]
@[simp] theorem wakes_collEarly (m : Mach) (t : Nat) : (m.wakes t).collEarly = m.collEarly := by simp [Mach.wakes]
@[simp] theorem wakes_msixTab (m : Mach) (t : Nat) : (m.wakes t).msixTab = m.msixTab := by simp [Mach.wakes]

/-! ### `Mach.mapCrews` -/

@[simp] theorem mapCrews_clk (m : Mach) (f : Crew → Crew) : (m.mapCrews f).clk = m.clk := rfl
@[simp] theorem mapCrews_agenda (m : Mach) (f : Crew → Crew) : (m.mapCrews f).agenda = m.agenda := rfl
@[simp] theorem mapCrews_todo (m : Mach) (f : Crew → Crew) : (m.mapCrews f).todo = m.todo := rfl
@[simp] theorem mapCrews_nextTid (m : Mach) (f : Crew → Crew) : (m.mapCrews f).nextTid = m.nextTid := rfl
@[simp] theorem mapCrews_freeCtr (m : Mach) (f : Crew → Crew) : (m.mapCrews f).freeCtr = m.freeCtr := rfl
@[simp] theorem mapCrews_mem (m : Mach) (f : Crew → Crew) : (m.mapCrews f).mem = m.mem := rfl
@[simp] theorem mapCrews_lineKey (m : Mach) (f : Crew → Crew) : (m.mapCrews f).lineKey = m.lineKey := rfl
@[simp] theorem mapCrews_dramKey (m : Mach) (f : Crew → Crew) : (m.mapCrews f).dramKey = m.dramKey := rfl
@[simp] theorem mapCrews_keys (m : Mach) (f : Crew → Crew) : (m.mapCrews f).keys = m.keys := rfl
@[simp] theorem mapCrews_cores (m : Mach) (f : Crew → Crew) : (m.mapCrews f).cores = m.cores := rfl
@[simp] theorem mapCrews_dies (m : Mach) (f : Crew → Crew) : (m.mapCrews f).dies = m.dies := rfl
@[simp] theorem mapCrews_jobs (m : Mach) (f : Crew → Crew) : (m.mapCrews f).jobs = m.jobs := rfl
@[simp] theorem mapCrews_launches (m : Mach) (f : Crew → Crew) : (m.mapCrews f).launches = m.launches := rfl
@[simp] theorem mapCrews_shadow (m : Mach) (f : Crew → Crew) : (m.mapCrews f).shadow = m.shadow := rfl
@[simp] theorem mapCrews_groups (m : Mach) (f : Crew → Crew) : (m.mapCrews f).groups = m.groups := rfl
@[simp] theorem mapCrews_colls (m : Mach) (f : Crew → Crew) : (m.mapCrews f).colls = m.colls := rfl
@[simp] theorem mapCrews_notices (m : Mach) (f : Crew → Crew) : (m.mapCrews f).notices = m.notices := rfl
@[simp] theorem mapCrews_coresOff (m : Mach) (f : Crew → Crew) : (m.mapCrews f).coresOff = m.coresOff := rfl
@[simp] theorem mapCrews_stacksOff (m : Mach) (f : Crew → Crew) : (m.mapCrews f).stacksOff = m.stacksOff := rfl
@[simp] theorem mapCrews_net (m : Mach) (f : Crew → Crew) : (m.mapCrews f).net = m.net := rfl
@[simp] theorem mapCrews_outbox (m : Mach) (f : Crew → Crew) : (m.mapCrews f).outbox = m.outbox := rfl
@[simp] theorem mapCrews_frames (m : Mach) (f : Crew → Crew) : (m.mapCrews f).frames = m.frames := rfl
@[simp] theorem mapCrews_evLeft (m : Mach) (f : Crew → Crew) : (m.mapCrews f).evLeft = m.evLeft := rfl
@[simp] theorem mapCrews_picks (m : Mach) (f : Crew → Crew) : (m.mapCrews f).picks = m.picks := rfl
@[simp] theorem mapCrews_nextHandle (m : Mach) (f : Crew → Crew) : (m.mapCrews f).nextHandle = m.nextHandle := rfl
@[simp] theorem mapCrews_nextJob (m : Mach) (f : Crew → Crew) : (m.mapCrews f).nextJob = m.nextJob := rfl
@[simp] theorem mapCrews_nextOp (m : Mach) (f : Crew → Crew) : (m.mapCrews f).nextOp = m.nextOp := rfl
@[simp] theorem mapCrews_dirtyL2 (m : Mach) (f : Crew → Crew) : (m.mapCrews f).dirtyL2 = m.dirtyL2 := rfl
@[simp] theorem mapCrews_held (m : Mach) (f : Crew → Crew) : (m.mapCrews f).held = m.held := rfl
@[simp] theorem mapCrews_owed (m : Mach) (f : Crew → Crew) : (m.mapCrews f).owed = m.owed := rfl
@[simp] theorem mapCrews_engKept (m : Mach) (f : Crew → Crew) : (m.mapCrews f).engKept = m.engKept := rfl
@[simp] theorem mapCrews_collEarly (m : Mach) (f : Crew → Crew) : (m.mapCrews f).collEarly = m.collEarly := rfl
@[simp] theorem mapCrews_msixTab (m : Mach) (f : Crew → Crew) : (m.mapCrews f).msixTab = m.msixTab := rfl

/-! ### `Mach.dropCrew` -/

@[simp] theorem dropCrew_clk (m : Mach) (t : Nat) : (m.dropCrew t).clk = m.clk := by unfold Mach.dropCrew; split <;> rfl
@[simp] theorem dropCrew_agenda (m : Mach) (t : Nat) : (m.dropCrew t).agenda = m.agenda := by unfold Mach.dropCrew; split <;> rfl
@[simp] theorem dropCrew_todo (m : Mach) (t : Nat) : (m.dropCrew t).todo = m.todo := by unfold Mach.dropCrew; split <;> rfl
@[simp] theorem dropCrew_nextTid (m : Mach) (t : Nat) : (m.dropCrew t).nextTid = m.nextTid := by unfold Mach.dropCrew; split <;> rfl
@[simp] theorem dropCrew_freeCtr (m : Mach) (t : Nat) : (m.dropCrew t).freeCtr = m.freeCtr := by unfold Mach.dropCrew; split <;> rfl
@[simp] theorem dropCrew_mem (m : Mach) (t : Nat) : (m.dropCrew t).mem = m.mem := by unfold Mach.dropCrew; split <;> rfl
@[simp] theorem dropCrew_lineKey (m : Mach) (t : Nat) : (m.dropCrew t).lineKey = m.lineKey := by unfold Mach.dropCrew; split <;> rfl
@[simp] theorem dropCrew_dramKey (m : Mach) (t : Nat) : (m.dropCrew t).dramKey = m.dramKey := by unfold Mach.dropCrew; split <;> rfl
@[simp] theorem dropCrew_keys (m : Mach) (t : Nat) : (m.dropCrew t).keys = m.keys := by unfold Mach.dropCrew; split <;> rfl
@[simp] theorem dropCrew_cores (m : Mach) (t : Nat) : (m.dropCrew t).cores = m.cores := by unfold Mach.dropCrew; split <;> rfl
@[simp] theorem dropCrew_dies (m : Mach) (t : Nat) : (m.dropCrew t).dies = m.dies := by unfold Mach.dropCrew; split <;> rfl
@[simp] theorem dropCrew_jobs (m : Mach) (t : Nat) : (m.dropCrew t).jobs = m.jobs := by unfold Mach.dropCrew; split <;> rfl
@[simp] theorem dropCrew_launches (m : Mach) (t : Nat) : (m.dropCrew t).launches = m.launches := by unfold Mach.dropCrew; split <;> rfl
@[simp] theorem dropCrew_shadow (m : Mach) (t : Nat) : (m.dropCrew t).shadow = m.shadow := by unfold Mach.dropCrew; split <;> rfl
@[simp] theorem dropCrew_groups (m : Mach) (t : Nat) : (m.dropCrew t).groups = m.groups := by unfold Mach.dropCrew; split <;> rfl
@[simp] theorem dropCrew_colls (m : Mach) (t : Nat) : (m.dropCrew t).colls = m.colls := by unfold Mach.dropCrew; split <;> rfl
@[simp] theorem dropCrew_notices (m : Mach) (t : Nat) : (m.dropCrew t).notices = m.notices := by unfold Mach.dropCrew; split <;> rfl
@[simp] theorem dropCrew_coresOff (m : Mach) (t : Nat) : (m.dropCrew t).coresOff = m.coresOff := by unfold Mach.dropCrew; split <;> rfl
@[simp] theorem dropCrew_stacksOff (m : Mach) (t : Nat) : (m.dropCrew t).stacksOff = m.stacksOff := by unfold Mach.dropCrew; split <;> rfl
@[simp] theorem dropCrew_net (m : Mach) (t : Nat) : (m.dropCrew t).net = m.net := by unfold Mach.dropCrew; split <;> rfl
@[simp] theorem dropCrew_outbox (m : Mach) (t : Nat) : (m.dropCrew t).outbox = m.outbox := by unfold Mach.dropCrew; split <;> rfl
@[simp] theorem dropCrew_frames (m : Mach) (t : Nat) : (m.dropCrew t).frames = m.frames := by unfold Mach.dropCrew; split <;> rfl
@[simp] theorem dropCrew_evLeft (m : Mach) (t : Nat) : (m.dropCrew t).evLeft = m.evLeft := by unfold Mach.dropCrew; split <;> rfl
@[simp] theorem dropCrew_picks (m : Mach) (t : Nat) : (m.dropCrew t).picks = m.picks := by unfold Mach.dropCrew; split <;> rfl
@[simp] theorem dropCrew_nextHandle (m : Mach) (t : Nat) : (m.dropCrew t).nextHandle = m.nextHandle := by unfold Mach.dropCrew; split <;> rfl
@[simp] theorem dropCrew_nextJob (m : Mach) (t : Nat) : (m.dropCrew t).nextJob = m.nextJob := by unfold Mach.dropCrew; split <;> rfl
@[simp] theorem dropCrew_nextOp (m : Mach) (t : Nat) : (m.dropCrew t).nextOp = m.nextOp := by unfold Mach.dropCrew; split <;> rfl
@[simp] theorem dropCrew_dirtyL2 (m : Mach) (t : Nat) : (m.dropCrew t).dirtyL2 = m.dirtyL2 := by unfold Mach.dropCrew; split <;> rfl
@[simp] theorem dropCrew_held (m : Mach) (t : Nat) : (m.dropCrew t).held = m.held := by unfold Mach.dropCrew; split <;> rfl
@[simp] theorem dropCrew_owed (m : Mach) (t : Nat) : (m.dropCrew t).owed = m.owed := by unfold Mach.dropCrew; split <;> rfl
@[simp] theorem dropCrew_engKept (m : Mach) (t : Nat) : (m.dropCrew t).engKept = m.engKept := by unfold Mach.dropCrew; split <;> rfl
@[simp] theorem dropCrew_collEarly (m : Mach) (t : Nat) : (m.dropCrew t).collEarly = m.collEarly := by unfold Mach.dropCrew; split <;> rfl
@[simp] theorem dropCrew_msixTab (m : Mach) (t : Nat) : (m.dropCrew t).msixTab = m.msixTab := by unfold Mach.dropCrew; split <;> rfl

/-! ### `Mach.addCrew` -/

@[simp] theorem addCrew_clk (m : Mach) (c : Crew) : (m.addCrew c).clk = m.clk := by unfold Mach.addCrew; split <;> rfl
@[simp] theorem addCrew_agenda (m : Mach) (c : Crew) : (m.addCrew c).agenda = m.agenda := by unfold Mach.addCrew; split <;> rfl
@[simp] theorem addCrew_todo (m : Mach) (c : Crew) : (m.addCrew c).todo = m.todo := by unfold Mach.addCrew; split <;> rfl
@[simp] theorem addCrew_nextTid (m : Mach) (c : Crew) : (m.addCrew c).nextTid = m.nextTid := by unfold Mach.addCrew; split <;> rfl
@[simp] theorem addCrew_freeCtr (m : Mach) (c : Crew) : (m.addCrew c).freeCtr = m.freeCtr := by unfold Mach.addCrew; split <;> rfl
@[simp] theorem addCrew_mem (m : Mach) (c : Crew) : (m.addCrew c).mem = m.mem := by unfold Mach.addCrew; split <;> rfl
@[simp] theorem addCrew_lineKey (m : Mach) (c : Crew) : (m.addCrew c).lineKey = m.lineKey := by unfold Mach.addCrew; split <;> rfl
@[simp] theorem addCrew_dramKey (m : Mach) (c : Crew) : (m.addCrew c).dramKey = m.dramKey := by unfold Mach.addCrew; split <;> rfl
@[simp] theorem addCrew_keys (m : Mach) (c : Crew) : (m.addCrew c).keys = m.keys := by unfold Mach.addCrew; split <;> rfl
@[simp] theorem addCrew_cores (m : Mach) (c : Crew) : (m.addCrew c).cores = m.cores := by unfold Mach.addCrew; split <;> rfl
@[simp] theorem addCrew_dies (m : Mach) (c : Crew) : (m.addCrew c).dies = m.dies := by unfold Mach.addCrew; split <;> rfl
@[simp] theorem addCrew_jobs (m : Mach) (c : Crew) : (m.addCrew c).jobs = m.jobs := by unfold Mach.addCrew; split <;> rfl
@[simp] theorem addCrew_launches (m : Mach) (c : Crew) : (m.addCrew c).launches = m.launches := by unfold Mach.addCrew; split <;> rfl
@[simp] theorem addCrew_shadow (m : Mach) (c : Crew) : (m.addCrew c).shadow = m.shadow := by unfold Mach.addCrew; split <;> rfl
@[simp] theorem addCrew_groups (m : Mach) (c : Crew) : (m.addCrew c).groups = m.groups := by unfold Mach.addCrew; split <;> rfl
@[simp] theorem addCrew_colls (m : Mach) (c : Crew) : (m.addCrew c).colls = m.colls := by unfold Mach.addCrew; split <;> rfl
@[simp] theorem addCrew_notices (m : Mach) (c : Crew) : (m.addCrew c).notices = m.notices := by unfold Mach.addCrew; split <;> rfl
@[simp] theorem addCrew_coresOff (m : Mach) (c : Crew) : (m.addCrew c).coresOff = m.coresOff := by unfold Mach.addCrew; split <;> rfl
@[simp] theorem addCrew_stacksOff (m : Mach) (c : Crew) : (m.addCrew c).stacksOff = m.stacksOff := by unfold Mach.addCrew; split <;> rfl
@[simp] theorem addCrew_net (m : Mach) (c : Crew) : (m.addCrew c).net = m.net := by unfold Mach.addCrew; split <;> rfl
@[simp] theorem addCrew_outbox (m : Mach) (c : Crew) : (m.addCrew c).outbox = m.outbox := by unfold Mach.addCrew; split <;> rfl
@[simp] theorem addCrew_frames (m : Mach) (c : Crew) : (m.addCrew c).frames = m.frames := by unfold Mach.addCrew; split <;> rfl
@[simp] theorem addCrew_evLeft (m : Mach) (c : Crew) : (m.addCrew c).evLeft = m.evLeft := by unfold Mach.addCrew; split <;> rfl
@[simp] theorem addCrew_picks (m : Mach) (c : Crew) : (m.addCrew c).picks = m.picks := by unfold Mach.addCrew; split <;> rfl
@[simp] theorem addCrew_nextHandle (m : Mach) (c : Crew) : (m.addCrew c).nextHandle = m.nextHandle := by unfold Mach.addCrew; split <;> rfl
@[simp] theorem addCrew_nextJob (m : Mach) (c : Crew) : (m.addCrew c).nextJob = m.nextJob := by unfold Mach.addCrew; split <;> rfl
@[simp] theorem addCrew_nextOp (m : Mach) (c : Crew) : (m.addCrew c).nextOp = m.nextOp := by unfold Mach.addCrew; split <;> rfl
@[simp] theorem addCrew_dirtyL2 (m : Mach) (c : Crew) : (m.addCrew c).dirtyL2 = m.dirtyL2 := by unfold Mach.addCrew; split <;> rfl
@[simp] theorem addCrew_held (m : Mach) (c : Crew) : (m.addCrew c).held = m.held := by unfold Mach.addCrew; split <;> rfl
@[simp] theorem addCrew_owed (m : Mach) (c : Crew) : (m.addCrew c).owed = m.owed := by unfold Mach.addCrew; split <;> rfl
@[simp] theorem addCrew_engKept (m : Mach) (c : Crew) : (m.addCrew c).engKept = m.engKept := by unfold Mach.addCrew; split <;> rfl
@[simp] theorem addCrew_collEarly (m : Mach) (c : Crew) : (m.addCrew c).collEarly = m.collEarly := by unfold Mach.addCrew; split <;> rfl
@[simp] theorem addCrew_msixTab (m : Mach) (c : Crew) : (m.addCrew c).msixTab = m.msixTab := by unfold Mach.addCrew; split <;> rfl

/-! ### `Mach.focus` -/

@[simp] theorem focus_clk (m : Mach) (t : Nat) : (m.focus t).clk = m.clk := by unfold Mach.focus; split; rfl; split <;> rfl
@[simp] theorem focus_agenda (m : Mach) (t : Nat) : (m.focus t).agenda = m.agenda := by unfold Mach.focus; split; rfl; split <;> rfl
@[simp] theorem focus_todo (m : Mach) (t : Nat) : (m.focus t).todo = m.todo := by unfold Mach.focus; split; rfl; split <;> rfl
@[simp] theorem focus_nextTid (m : Mach) (t : Nat) : (m.focus t).nextTid = m.nextTid := by unfold Mach.focus; split; rfl; split <;> rfl
@[simp] theorem focus_freeCtr (m : Mach) (t : Nat) : (m.focus t).freeCtr = m.freeCtr := by unfold Mach.focus; split; rfl; split <;> rfl
@[simp] theorem focus_mem (m : Mach) (t : Nat) : (m.focus t).mem = m.mem := by unfold Mach.focus; split; rfl; split <;> rfl
@[simp] theorem focus_lineKey (m : Mach) (t : Nat) : (m.focus t).lineKey = m.lineKey := by unfold Mach.focus; split; rfl; split <;> rfl
@[simp] theorem focus_dramKey (m : Mach) (t : Nat) : (m.focus t).dramKey = m.dramKey := by unfold Mach.focus; split; rfl; split <;> rfl
@[simp] theorem focus_keys (m : Mach) (t : Nat) : (m.focus t).keys = m.keys := by unfold Mach.focus; split; rfl; split <;> rfl
@[simp] theorem focus_cores (m : Mach) (t : Nat) : (m.focus t).cores = m.cores := by unfold Mach.focus; split; rfl; split <;> rfl
@[simp] theorem focus_dies (m : Mach) (t : Nat) : (m.focus t).dies = m.dies := by unfold Mach.focus; split; rfl; split <;> rfl
@[simp] theorem focus_jobs (m : Mach) (t : Nat) : (m.focus t).jobs = m.jobs := by unfold Mach.focus; split; rfl; split <;> rfl
@[simp] theorem focus_launches (m : Mach) (t : Nat) : (m.focus t).launches = m.launches := by unfold Mach.focus; split; rfl; split <;> rfl
@[simp] theorem focus_shadow (m : Mach) (t : Nat) : (m.focus t).shadow = m.shadow := by unfold Mach.focus; split; rfl; split <;> rfl
@[simp] theorem focus_groups (m : Mach) (t : Nat) : (m.focus t).groups = m.groups := by unfold Mach.focus; split; rfl; split <;> rfl
@[simp] theorem focus_colls (m : Mach) (t : Nat) : (m.focus t).colls = m.colls := by unfold Mach.focus; split; rfl; split <;> rfl
@[simp] theorem focus_notices (m : Mach) (t : Nat) : (m.focus t).notices = m.notices := by unfold Mach.focus; split; rfl; split <;> rfl
@[simp] theorem focus_coresOff (m : Mach) (t : Nat) : (m.focus t).coresOff = m.coresOff := by unfold Mach.focus; split; rfl; split <;> rfl
@[simp] theorem focus_stacksOff (m : Mach) (t : Nat) : (m.focus t).stacksOff = m.stacksOff := by unfold Mach.focus; split; rfl; split <;> rfl
@[simp] theorem focus_net (m : Mach) (t : Nat) : (m.focus t).net = m.net := by unfold Mach.focus; split; rfl; split <;> rfl
@[simp] theorem focus_outbox (m : Mach) (t : Nat) : (m.focus t).outbox = m.outbox := by unfold Mach.focus; split; rfl; split <;> rfl
@[simp] theorem focus_frames (m : Mach) (t : Nat) : (m.focus t).frames = m.frames := by unfold Mach.focus; split; rfl; split <;> rfl
@[simp] theorem focus_evLeft (m : Mach) (t : Nat) : (m.focus t).evLeft = m.evLeft := by unfold Mach.focus; split; rfl; split <;> rfl
@[simp] theorem focus_picks (m : Mach) (t : Nat) : (m.focus t).picks = m.picks := by unfold Mach.focus; split; rfl; split <;> rfl
@[simp] theorem focus_nextHandle (m : Mach) (t : Nat) : (m.focus t).nextHandle = m.nextHandle := by unfold Mach.focus; split; rfl; split <;> rfl
@[simp] theorem focus_nextJob (m : Mach) (t : Nat) : (m.focus t).nextJob = m.nextJob := by unfold Mach.focus; split; rfl; split <;> rfl
@[simp] theorem focus_nextOp (m : Mach) (t : Nat) : (m.focus t).nextOp = m.nextOp := by unfold Mach.focus; split; rfl; split <;> rfl
@[simp] theorem focus_dirtyL2 (m : Mach) (t : Nat) : (m.focus t).dirtyL2 = m.dirtyL2 := by unfold Mach.focus; split; rfl; split <;> rfl
@[simp] theorem focus_held (m : Mach) (t : Nat) : (m.focus t).held = m.held := by unfold Mach.focus; split; rfl; split <;> rfl
@[simp] theorem focus_owed (m : Mach) (t : Nat) : (m.focus t).owed = m.owed := by unfold Mach.focus; split; rfl; split <;> rfl
@[simp] theorem focus_engKept (m : Mach) (t : Nat) : (m.focus t).engKept = m.engKept := by unfold Mach.focus; split; rfl; split <;> rfl
@[simp] theorem focus_collEarly (m : Mach) (t : Nat) : (m.focus t).collEarly = m.collEarly := by unfold Mach.focus; split; rfl; split <;> rfl
@[simp] theorem focus_msixTab (m : Mach) (t : Nat) : (m.focus t).msixTab = m.msixTab := by unfold Mach.focus; split; rfl; split <;> rfl

/-! ### `vSet` -/

@[simp] theorem vSet_tid (c : Crew) (r L : Nat) (x : Half) : (vSet c r L x).tid = c.tid := rfl
@[simp] theorem vSet_launch (c : Crew) (r L : Nat) (x : Half) : (vSet c r L x).launch = c.launch := rfl
@[simp] theorem vSet_job (c : Crew) (r L : Nat) (x : Half) : (vSet c r L x).job = c.job := rfl
@[simp] theorem vSet_core (c : Crew) (r L : Nat) (x : Half) : (vSet c r L x).core = c.core := rfl
@[simp] theorem vSet_slots (c : Crew) (r L : Nat) (x : Half) : (vSet c r L x).slots = c.slots := rfl
@[simp] theorem vSet_status (c : Crew) (r L : Nat) (x : Half) : (vSet c r L x).status = c.status := rfl
@[simp] theorem vSet_stall (c : Crew) (r L : Nat) (x : Half) : (vSet c r L x).stall = c.stall := rfl
@[simp] theorem vSet_decl (c : Crew) (r L : Nat) (x : Half) : (vSet c r L x).decl = c.decl := rfl
@[simp] theorem vSet_pcs (c : Crew) (r L : Nat) (x : Half) : (vSet c r L x).pcs = c.pcs := rfl
@[simp] theorem vSet_live (c : Crew) (r L : Nat) (x : Half) : (vSet c r L x).live = c.live := rfl
@[simp] theorem vSet_waiting (c : Crew) (r L : Nat) (x : Half) : (vSet c r L x).waiting = c.waiting := rfl
@[simp] theorem vSet_vtag (c : Crew) (r L : Nat) (x : Half) : (vSet c r L x).vtag = c.vtag := rfl
@[simp] theorem vSet_s (c : Crew) (r L : Nat) (x : Half) : (vSet c r L x).s = c.s := rfl
@[simp] theorem vSet_stag (c : Crew) (r L : Nat) (x : Half) : (vSet c r L x).stag = c.stag := rfl
@[simp] theorem vSet_p (c : Crew) (r L : Nat) (x : Half) : (vSet c r L x).p = c.p := rfl
@[simp] theorem vSet_m (c : Crew) (r L : Nat) (x : Half) : (vSet c r L x).m = c.m := rfl
@[simp] theorem vSet_h (c : Crew) (r L : Nat) (x : Half) : (vSet c r L x).h = c.h := rfl
@[simp] theorem vSet_acc (c : Crew) (r L : Nat) (x : Half) : (vSet c r L x).acc = c.acc := rfl
@[simp] theorem vSet_ped (c : Crew) (r L : Nat) (x : Half) : (vSet c r L x).ped = c.ped := rfl
@[simp] theorem vSet_flags (c : Crew) (r L : Nat) (x : Half) : (vSet c r L x).flags = c.flags := rfl
@[simp] theorem vSet_chk (c : Crew) (r L : Nat) (x : Half) : (vSet c r L x).chk = c.chk := rfl
@[simp] theorem vSet_seg (c : Crew) (r L : Nat) (x : Half) : (vSet c r L x).seg = c.seg := rfl
@[simp] theorem vSet_pend (c : Crew) (r L : Nat) (x : Half) : (vSet c r L x).pend = c.pend := rfl
@[simp] theorem vSet_late (c : Crew) (r L : Nat) (x : Half) : (vSet c r L x).late = c.late := rfl
@[simp] theorem vSet_ap (c : Crew) (r L : Nat) (x : Half) : (vSet c r L x).ap = c.ap := rfl
@[simp] theorem vSet_kids (c : Crew) (r L : Nat) (x : Half) : (vSet c r L x).kids = c.kids := rfl
@[simp] theorem vSet_hnd (c : Crew) (r L : Nat) (x : Half) : (vSet c r L x).hnd = c.hnd := rfl
@[simp] theorem vSet_hardened (c : Crew) (r L : Nat) (x : Half) : (vSet c r L x).hardened = c.hardened := rfl
@[simp] theorem vSet_keyDrop (c : Crew) (r L : Nat) (x : Half) : (vSet c r L x).keyDrop = c.keyDrop := rfl
@[simp] theorem vSet_leaving (c : Crew) (r L : Nat) (x : Half) : (vSet c r L x).leaving = c.leaving := rfl
@[simp] theorem vSet_woken (c : Crew) (r L : Nat) (x : Half) : (vSet c r L x).woken = c.woken := rfl
@[simp] theorem vSet_viewWait (c : Crew) (r L : Nat) (x : Half) : (vSet c r L x).viewWait = c.viewWait := rfl
@[simp] theorem vSet_waitAt (c : Crew) (r L : Nat) (x : Half) : (vSet c r L x).waitAt = c.waitAt := rfl
@[simp] theorem vSet_atHome (c : Crew) (r L : Nat) (x : Half) : (vSet c r L x).atHome = c.atHome := rfl
@[simp] theorem vSet_openB (c : Crew) (r L : Nat) (x : Half) : (vSet c r L x).openB = c.openB := rfl
@[simp] theorem vSet_closedB (c : Crew) (r L : Nat) (x : Half) : (vSet c r L x).closedB = c.closedB := rfl

/-! ### `vSetTag` -/

@[simp] theorem vSetTag_tid (c : Crew) (r : Nat) (t : Tag) : (vSetTag c r t).tid = c.tid := rfl
@[simp] theorem vSetTag_launch (c : Crew) (r : Nat) (t : Tag) : (vSetTag c r t).launch = c.launch := rfl
@[simp] theorem vSetTag_job (c : Crew) (r : Nat) (t : Tag) : (vSetTag c r t).job = c.job := rfl
@[simp] theorem vSetTag_core (c : Crew) (r : Nat) (t : Tag) : (vSetTag c r t).core = c.core := rfl
@[simp] theorem vSetTag_slots (c : Crew) (r : Nat) (t : Tag) : (vSetTag c r t).slots = c.slots := rfl
@[simp] theorem vSetTag_status (c : Crew) (r : Nat) (t : Tag) : (vSetTag c r t).status = c.status := rfl
@[simp] theorem vSetTag_stall (c : Crew) (r : Nat) (t : Tag) : (vSetTag c r t).stall = c.stall := rfl
@[simp] theorem vSetTag_decl (c : Crew) (r : Nat) (t : Tag) : (vSetTag c r t).decl = c.decl := rfl
@[simp] theorem vSetTag_pcs (c : Crew) (r : Nat) (t : Tag) : (vSetTag c r t).pcs = c.pcs := rfl
@[simp] theorem vSetTag_live (c : Crew) (r : Nat) (t : Tag) : (vSetTag c r t).live = c.live := rfl
@[simp] theorem vSetTag_waiting (c : Crew) (r : Nat) (t : Tag) : (vSetTag c r t).waiting = c.waiting := rfl
@[simp] theorem vSetTag_v (c : Crew) (r : Nat) (t : Tag) : (vSetTag c r t).v = c.v := rfl
@[simp] theorem vSetTag_s (c : Crew) (r : Nat) (t : Tag) : (vSetTag c r t).s = c.s := rfl
@[simp] theorem vSetTag_stag (c : Crew) (r : Nat) (t : Tag) : (vSetTag c r t).stag = c.stag := rfl
@[simp] theorem vSetTag_p (c : Crew) (r : Nat) (t : Tag) : (vSetTag c r t).p = c.p := rfl
@[simp] theorem vSetTag_m (c : Crew) (r : Nat) (t : Tag) : (vSetTag c r t).m = c.m := rfl
@[simp] theorem vSetTag_h (c : Crew) (r : Nat) (t : Tag) : (vSetTag c r t).h = c.h := rfl
@[simp] theorem vSetTag_acc (c : Crew) (r : Nat) (t : Tag) : (vSetTag c r t).acc = c.acc := rfl
@[simp] theorem vSetTag_ped (c : Crew) (r : Nat) (t : Tag) : (vSetTag c r t).ped = c.ped := rfl
@[simp] theorem vSetTag_flags (c : Crew) (r : Nat) (t : Tag) : (vSetTag c r t).flags = c.flags := rfl
@[simp] theorem vSetTag_chk (c : Crew) (r : Nat) (t : Tag) : (vSetTag c r t).chk = c.chk := rfl
@[simp] theorem vSetTag_seg (c : Crew) (r : Nat) (t : Tag) : (vSetTag c r t).seg = c.seg := rfl
@[simp] theorem vSetTag_pend (c : Crew) (r : Nat) (t : Tag) : (vSetTag c r t).pend = c.pend := rfl
@[simp] theorem vSetTag_late (c : Crew) (r : Nat) (t : Tag) : (vSetTag c r t).late = c.late := rfl
@[simp] theorem vSetTag_ap (c : Crew) (r : Nat) (t : Tag) : (vSetTag c r t).ap = c.ap := rfl
@[simp] theorem vSetTag_kids (c : Crew) (r : Nat) (t : Tag) : (vSetTag c r t).kids = c.kids := rfl
@[simp] theorem vSetTag_hnd (c : Crew) (r : Nat) (t : Tag) : (vSetTag c r t).hnd = c.hnd := rfl
@[simp] theorem vSetTag_hardened (c : Crew) (r : Nat) (t : Tag) : (vSetTag c r t).hardened = c.hardened := rfl
@[simp] theorem vSetTag_keyDrop (c : Crew) (r : Nat) (t : Tag) : (vSetTag c r t).keyDrop = c.keyDrop := rfl
@[simp] theorem vSetTag_leaving (c : Crew) (r : Nat) (t : Tag) : (vSetTag c r t).leaving = c.leaving := rfl
@[simp] theorem vSetTag_woken (c : Crew) (r : Nat) (t : Tag) : (vSetTag c r t).woken = c.woken := rfl
@[simp] theorem vSetTag_viewWait (c : Crew) (r : Nat) (t : Tag) : (vSetTag c r t).viewWait = c.viewWait := rfl
@[simp] theorem vSetTag_waitAt (c : Crew) (r : Nat) (t : Tag) : (vSetTag c r t).waitAt = c.waitAt := rfl
@[simp] theorem vSetTag_atHome (c : Crew) (r : Nat) (t : Tag) : (vSetTag c r t).atHome = c.atHome := rfl
@[simp] theorem vSetTag_openB (c : Crew) (r : Nat) (t : Tag) : (vSetTag c r t).openB = c.openB := rfl
@[simp] theorem vSetTag_closedB (c : Crew) (r : Nat) (t : Tag) : (vSetTag c r t).closedB = c.closedB := rfl

/-! ### `vSet64` -/

@[simp] theorem vSet64_tid (c : Crew) (r L : Nat) (x : Word) : (vSet64 c r L x).tid = c.tid := rfl
@[simp] theorem vSet64_launch (c : Crew) (r L : Nat) (x : Word) : (vSet64 c r L x).launch = c.launch := rfl
@[simp] theorem vSet64_job (c : Crew) (r L : Nat) (x : Word) : (vSet64 c r L x).job = c.job := rfl
@[simp] theorem vSet64_core (c : Crew) (r L : Nat) (x : Word) : (vSet64 c r L x).core = c.core := rfl
@[simp] theorem vSet64_slots (c : Crew) (r L : Nat) (x : Word) : (vSet64 c r L x).slots = c.slots := rfl
@[simp] theorem vSet64_status (c : Crew) (r L : Nat) (x : Word) : (vSet64 c r L x).status = c.status := rfl
@[simp] theorem vSet64_stall (c : Crew) (r L : Nat) (x : Word) : (vSet64 c r L x).stall = c.stall := rfl
@[simp] theorem vSet64_decl (c : Crew) (r L : Nat) (x : Word) : (vSet64 c r L x).decl = c.decl := rfl
@[simp] theorem vSet64_pcs (c : Crew) (r L : Nat) (x : Word) : (vSet64 c r L x).pcs = c.pcs := rfl
@[simp] theorem vSet64_live (c : Crew) (r L : Nat) (x : Word) : (vSet64 c r L x).live = c.live := rfl
@[simp] theorem vSet64_waiting (c : Crew) (r L : Nat) (x : Word) : (vSet64 c r L x).waiting = c.waiting := rfl
@[simp] theorem vSet64_vtag (c : Crew) (r L : Nat) (x : Word) : (vSet64 c r L x).vtag = c.vtag := rfl
@[simp] theorem vSet64_s (c : Crew) (r L : Nat) (x : Word) : (vSet64 c r L x).s = c.s := rfl
@[simp] theorem vSet64_stag (c : Crew) (r L : Nat) (x : Word) : (vSet64 c r L x).stag = c.stag := rfl
@[simp] theorem vSet64_p (c : Crew) (r L : Nat) (x : Word) : (vSet64 c r L x).p = c.p := rfl
@[simp] theorem vSet64_m (c : Crew) (r L : Nat) (x : Word) : (vSet64 c r L x).m = c.m := rfl
@[simp] theorem vSet64_h (c : Crew) (r L : Nat) (x : Word) : (vSet64 c r L x).h = c.h := rfl
@[simp] theorem vSet64_acc (c : Crew) (r L : Nat) (x : Word) : (vSet64 c r L x).acc = c.acc := rfl
@[simp] theorem vSet64_ped (c : Crew) (r L : Nat) (x : Word) : (vSet64 c r L x).ped = c.ped := rfl
@[simp] theorem vSet64_flags (c : Crew) (r L : Nat) (x : Word) : (vSet64 c r L x).flags = c.flags := rfl
@[simp] theorem vSet64_chk (c : Crew) (r L : Nat) (x : Word) : (vSet64 c r L x).chk = c.chk := rfl
@[simp] theorem vSet64_seg (c : Crew) (r L : Nat) (x : Word) : (vSet64 c r L x).seg = c.seg := rfl
@[simp] theorem vSet64_pend (c : Crew) (r L : Nat) (x : Word) : (vSet64 c r L x).pend = c.pend := rfl
@[simp] theorem vSet64_late (c : Crew) (r L : Nat) (x : Word) : (vSet64 c r L x).late = c.late := rfl
@[simp] theorem vSet64_ap (c : Crew) (r L : Nat) (x : Word) : (vSet64 c r L x).ap = c.ap := rfl
@[simp] theorem vSet64_kids (c : Crew) (r L : Nat) (x : Word) : (vSet64 c r L x).kids = c.kids := rfl
@[simp] theorem vSet64_hnd (c : Crew) (r L : Nat) (x : Word) : (vSet64 c r L x).hnd = c.hnd := rfl
@[simp] theorem vSet64_hardened (c : Crew) (r L : Nat) (x : Word) : (vSet64 c r L x).hardened = c.hardened := rfl
@[simp] theorem vSet64_keyDrop (c : Crew) (r L : Nat) (x : Word) : (vSet64 c r L x).keyDrop = c.keyDrop := rfl
@[simp] theorem vSet64_leaving (c : Crew) (r L : Nat) (x : Word) : (vSet64 c r L x).leaving = c.leaving := rfl
@[simp] theorem vSet64_woken (c : Crew) (r L : Nat) (x : Word) : (vSet64 c r L x).woken = c.woken := rfl
@[simp] theorem vSet64_viewWait (c : Crew) (r L : Nat) (x : Word) : (vSet64 c r L x).viewWait = c.viewWait := rfl
@[simp] theorem vSet64_waitAt (c : Crew) (r L : Nat) (x : Word) : (vSet64 c r L x).waitAt = c.waitAt := rfl
@[simp] theorem vSet64_atHome (c : Crew) (r L : Nat) (x : Word) : (vSet64 c r L x).atHome = c.atHome := rfl
@[simp] theorem vSet64_openB (c : Crew) (r L : Nat) (x : Word) : (vSet64 c r L x).openB = c.openB := rfl
@[simp] theorem vSet64_closedB (c : Crew) (r L : Nat) (x : Word) : (vSet64 c r L x).closedB = c.closedB := rfl

/-! ### `sSet` -/

@[simp] theorem sSet_tid (c : Crew) (r : Nat) (x : Word) (t : Tag) : (sSet c r x t).tid = c.tid := rfl
@[simp] theorem sSet_launch (c : Crew) (r : Nat) (x : Word) (t : Tag) : (sSet c r x t).launch = c.launch := rfl
@[simp] theorem sSet_job (c : Crew) (r : Nat) (x : Word) (t : Tag) : (sSet c r x t).job = c.job := rfl
@[simp] theorem sSet_core (c : Crew) (r : Nat) (x : Word) (t : Tag) : (sSet c r x t).core = c.core := rfl
@[simp] theorem sSet_slots (c : Crew) (r : Nat) (x : Word) (t : Tag) : (sSet c r x t).slots = c.slots := rfl
@[simp] theorem sSet_status (c : Crew) (r : Nat) (x : Word) (t : Tag) : (sSet c r x t).status = c.status := rfl
@[simp] theorem sSet_stall (c : Crew) (r : Nat) (x : Word) (t : Tag) : (sSet c r x t).stall = c.stall := rfl
@[simp] theorem sSet_decl (c : Crew) (r : Nat) (x : Word) (t : Tag) : (sSet c r x t).decl = c.decl := rfl
@[simp] theorem sSet_pcs (c : Crew) (r : Nat) (x : Word) (t : Tag) : (sSet c r x t).pcs = c.pcs := rfl
@[simp] theorem sSet_live (c : Crew) (r : Nat) (x : Word) (t : Tag) : (sSet c r x t).live = c.live := rfl
@[simp] theorem sSet_waiting (c : Crew) (r : Nat) (x : Word) (t : Tag) : (sSet c r x t).waiting = c.waiting := rfl
@[simp] theorem sSet_v (c : Crew) (r : Nat) (x : Word) (t : Tag) : (sSet c r x t).v = c.v := rfl
@[simp] theorem sSet_vtag (c : Crew) (r : Nat) (x : Word) (t : Tag) : (sSet c r x t).vtag = c.vtag := rfl
@[simp] theorem sSet_p (c : Crew) (r : Nat) (x : Word) (t : Tag) : (sSet c r x t).p = c.p := rfl
@[simp] theorem sSet_m (c : Crew) (r : Nat) (x : Word) (t : Tag) : (sSet c r x t).m = c.m := rfl
@[simp] theorem sSet_h (c : Crew) (r : Nat) (x : Word) (t : Tag) : (sSet c r x t).h = c.h := rfl
@[simp] theorem sSet_acc (c : Crew) (r : Nat) (x : Word) (t : Tag) : (sSet c r x t).acc = c.acc := rfl
@[simp] theorem sSet_ped (c : Crew) (r : Nat) (x : Word) (t : Tag) : (sSet c r x t).ped = c.ped := rfl
@[simp] theorem sSet_flags (c : Crew) (r : Nat) (x : Word) (t : Tag) : (sSet c r x t).flags = c.flags := rfl
@[simp] theorem sSet_chk (c : Crew) (r : Nat) (x : Word) (t : Tag) : (sSet c r x t).chk = c.chk := rfl
@[simp] theorem sSet_seg (c : Crew) (r : Nat) (x : Word) (t : Tag) : (sSet c r x t).seg = c.seg := rfl
@[simp] theorem sSet_pend (c : Crew) (r : Nat) (x : Word) (t : Tag) : (sSet c r x t).pend = c.pend := rfl
@[simp] theorem sSet_late (c : Crew) (r : Nat) (x : Word) (t : Tag) : (sSet c r x t).late = c.late := rfl
@[simp] theorem sSet_ap (c : Crew) (r : Nat) (x : Word) (t : Tag) : (sSet c r x t).ap = c.ap := rfl
@[simp] theorem sSet_kids (c : Crew) (r : Nat) (x : Word) (t : Tag) : (sSet c r x t).kids = c.kids := rfl
@[simp] theorem sSet_hnd (c : Crew) (r : Nat) (x : Word) (t : Tag) : (sSet c r x t).hnd = c.hnd := rfl
@[simp] theorem sSet_hardened (c : Crew) (r : Nat) (x : Word) (t : Tag) : (sSet c r x t).hardened = c.hardened := rfl
@[simp] theorem sSet_keyDrop (c : Crew) (r : Nat) (x : Word) (t : Tag) : (sSet c r x t).keyDrop = c.keyDrop := rfl
@[simp] theorem sSet_leaving (c : Crew) (r : Nat) (x : Word) (t : Tag) : (sSet c r x t).leaving = c.leaving := rfl
@[simp] theorem sSet_woken (c : Crew) (r : Nat) (x : Word) (t : Tag) : (sSet c r x t).woken = c.woken := rfl
@[simp] theorem sSet_viewWait (c : Crew) (r : Nat) (x : Word) (t : Tag) : (sSet c r x t).viewWait = c.viewWait := rfl
@[simp] theorem sSet_waitAt (c : Crew) (r : Nat) (x : Word) (t : Tag) : (sSet c r x t).waitAt = c.waitAt := rfl
@[simp] theorem sSet_atHome (c : Crew) (r : Nat) (x : Word) (t : Tag) : (sSet c r x t).atHome = c.atHome := rfl
@[simp] theorem sSet_openB (c : Crew) (r : Nat) (x : Word) (t : Tag) : (sSet c r x t).openB = c.openB := rfl
@[simp] theorem sSet_closedB (c : Crew) (r : Nat) (x : Word) (t : Tag) : (sSet c r x t).closedB = c.closedB := rfl

/-! ### `pSet` -/

@[simp] theorem pSet_tid (c : Crew) (r : Nat) (x : Mask) : (pSet c r x).tid = c.tid := rfl
@[simp] theorem pSet_launch (c : Crew) (r : Nat) (x : Mask) : (pSet c r x).launch = c.launch := rfl
@[simp] theorem pSet_job (c : Crew) (r : Nat) (x : Mask) : (pSet c r x).job = c.job := rfl
@[simp] theorem pSet_core (c : Crew) (r : Nat) (x : Mask) : (pSet c r x).core = c.core := rfl
@[simp] theorem pSet_slots (c : Crew) (r : Nat) (x : Mask) : (pSet c r x).slots = c.slots := rfl
@[simp] theorem pSet_status (c : Crew) (r : Nat) (x : Mask) : (pSet c r x).status = c.status := rfl
@[simp] theorem pSet_stall (c : Crew) (r : Nat) (x : Mask) : (pSet c r x).stall = c.stall := rfl
@[simp] theorem pSet_decl (c : Crew) (r : Nat) (x : Mask) : (pSet c r x).decl = c.decl := rfl
@[simp] theorem pSet_pcs (c : Crew) (r : Nat) (x : Mask) : (pSet c r x).pcs = c.pcs := rfl
@[simp] theorem pSet_live (c : Crew) (r : Nat) (x : Mask) : (pSet c r x).live = c.live := rfl
@[simp] theorem pSet_waiting (c : Crew) (r : Nat) (x : Mask) : (pSet c r x).waiting = c.waiting := rfl
@[simp] theorem pSet_v (c : Crew) (r : Nat) (x : Mask) : (pSet c r x).v = c.v := rfl
@[simp] theorem pSet_vtag (c : Crew) (r : Nat) (x : Mask) : (pSet c r x).vtag = c.vtag := rfl
@[simp] theorem pSet_s (c : Crew) (r : Nat) (x : Mask) : (pSet c r x).s = c.s := rfl
@[simp] theorem pSet_stag (c : Crew) (r : Nat) (x : Mask) : (pSet c r x).stag = c.stag := rfl
@[simp] theorem pSet_m (c : Crew) (r : Nat) (x : Mask) : (pSet c r x).m = c.m := rfl
@[simp] theorem pSet_h (c : Crew) (r : Nat) (x : Mask) : (pSet c r x).h = c.h := rfl
@[simp] theorem pSet_acc (c : Crew) (r : Nat) (x : Mask) : (pSet c r x).acc = c.acc := rfl
@[simp] theorem pSet_ped (c : Crew) (r : Nat) (x : Mask) : (pSet c r x).ped = c.ped := rfl
@[simp] theorem pSet_flags (c : Crew) (r : Nat) (x : Mask) : (pSet c r x).flags = c.flags := rfl
@[simp] theorem pSet_chk (c : Crew) (r : Nat) (x : Mask) : (pSet c r x).chk = c.chk := rfl
@[simp] theorem pSet_seg (c : Crew) (r : Nat) (x : Mask) : (pSet c r x).seg = c.seg := rfl
@[simp] theorem pSet_pend (c : Crew) (r : Nat) (x : Mask) : (pSet c r x).pend = c.pend := rfl
@[simp] theorem pSet_late (c : Crew) (r : Nat) (x : Mask) : (pSet c r x).late = c.late := rfl
@[simp] theorem pSet_ap (c : Crew) (r : Nat) (x : Mask) : (pSet c r x).ap = c.ap := rfl
@[simp] theorem pSet_kids (c : Crew) (r : Nat) (x : Mask) : (pSet c r x).kids = c.kids := rfl
@[simp] theorem pSet_hnd (c : Crew) (r : Nat) (x : Mask) : (pSet c r x).hnd = c.hnd := rfl
@[simp] theorem pSet_hardened (c : Crew) (r : Nat) (x : Mask) : (pSet c r x).hardened = c.hardened := rfl
@[simp] theorem pSet_keyDrop (c : Crew) (r : Nat) (x : Mask) : (pSet c r x).keyDrop = c.keyDrop := rfl
@[simp] theorem pSet_leaving (c : Crew) (r : Nat) (x : Mask) : (pSet c r x).leaving = c.leaving := rfl
@[simp] theorem pSet_woken (c : Crew) (r : Nat) (x : Mask) : (pSet c r x).woken = c.woken := rfl
@[simp] theorem pSet_viewWait (c : Crew) (r : Nat) (x : Mask) : (pSet c r x).viewWait = c.viewWait := rfl
@[simp] theorem pSet_waitAt (c : Crew) (r : Nat) (x : Mask) : (pSet c r x).waitAt = c.waitAt := rfl
@[simp] theorem pSet_atHome (c : Crew) (r : Nat) (x : Mask) : (pSet c r x).atHome = c.atHome := rfl
@[simp] theorem pSet_openB (c : Crew) (r : Nat) (x : Mask) : (pSet c r x).openB = c.openB := rfl
@[simp] theorem pSet_closedB (c : Crew) (r : Nat) (x : Mask) : (pSet c r x).closedB = c.closedB := rfl

/-! ### `pSetBit` -/

@[simp] theorem pSetBit_tid (c : Crew) (r L : Nat) (b : Bool) : (pSetBit c r L b).tid = c.tid := rfl
@[simp] theorem pSetBit_launch (c : Crew) (r L : Nat) (b : Bool) : (pSetBit c r L b).launch = c.launch := rfl
@[simp] theorem pSetBit_job (c : Crew) (r L : Nat) (b : Bool) : (pSetBit c r L b).job = c.job := rfl
@[simp] theorem pSetBit_core (c : Crew) (r L : Nat) (b : Bool) : (pSetBit c r L b).core = c.core := rfl
@[simp] theorem pSetBit_slots (c : Crew) (r L : Nat) (b : Bool) : (pSetBit c r L b).slots = c.slots := rfl
@[simp] theorem pSetBit_status (c : Crew) (r L : Nat) (b : Bool) : (pSetBit c r L b).status = c.status := rfl
@[simp] theorem pSetBit_stall (c : Crew) (r L : Nat) (b : Bool) : (pSetBit c r L b).stall = c.stall := rfl
@[simp] theorem pSetBit_decl (c : Crew) (r L : Nat) (b : Bool) : (pSetBit c r L b).decl = c.decl := rfl
@[simp] theorem pSetBit_pcs (c : Crew) (r L : Nat) (b : Bool) : (pSetBit c r L b).pcs = c.pcs := rfl
@[simp] theorem pSetBit_live (c : Crew) (r L : Nat) (b : Bool) : (pSetBit c r L b).live = c.live := rfl
@[simp] theorem pSetBit_waiting (c : Crew) (r L : Nat) (b : Bool) : (pSetBit c r L b).waiting = c.waiting := rfl
@[simp] theorem pSetBit_v (c : Crew) (r L : Nat) (b : Bool) : (pSetBit c r L b).v = c.v := rfl
@[simp] theorem pSetBit_vtag (c : Crew) (r L : Nat) (b : Bool) : (pSetBit c r L b).vtag = c.vtag := rfl
@[simp] theorem pSetBit_s (c : Crew) (r L : Nat) (b : Bool) : (pSetBit c r L b).s = c.s := rfl
@[simp] theorem pSetBit_stag (c : Crew) (r L : Nat) (b : Bool) : (pSetBit c r L b).stag = c.stag := rfl
@[simp] theorem pSetBit_m (c : Crew) (r L : Nat) (b : Bool) : (pSetBit c r L b).m = c.m := rfl
@[simp] theorem pSetBit_h (c : Crew) (r L : Nat) (b : Bool) : (pSetBit c r L b).h = c.h := rfl
@[simp] theorem pSetBit_acc (c : Crew) (r L : Nat) (b : Bool) : (pSetBit c r L b).acc = c.acc := rfl
@[simp] theorem pSetBit_ped (c : Crew) (r L : Nat) (b : Bool) : (pSetBit c r L b).ped = c.ped := rfl
@[simp] theorem pSetBit_flags (c : Crew) (r L : Nat) (b : Bool) : (pSetBit c r L b).flags = c.flags := rfl
@[simp] theorem pSetBit_chk (c : Crew) (r L : Nat) (b : Bool) : (pSetBit c r L b).chk = c.chk := rfl
@[simp] theorem pSetBit_seg (c : Crew) (r L : Nat) (b : Bool) : (pSetBit c r L b).seg = c.seg := rfl
@[simp] theorem pSetBit_pend (c : Crew) (r L : Nat) (b : Bool) : (pSetBit c r L b).pend = c.pend := rfl
@[simp] theorem pSetBit_late (c : Crew) (r L : Nat) (b : Bool) : (pSetBit c r L b).late = c.late := rfl
@[simp] theorem pSetBit_ap (c : Crew) (r L : Nat) (b : Bool) : (pSetBit c r L b).ap = c.ap := rfl
@[simp] theorem pSetBit_kids (c : Crew) (r L : Nat) (b : Bool) : (pSetBit c r L b).kids = c.kids := rfl
@[simp] theorem pSetBit_hnd (c : Crew) (r L : Nat) (b : Bool) : (pSetBit c r L b).hnd = c.hnd := rfl
@[simp] theorem pSetBit_hardened (c : Crew) (r L : Nat) (b : Bool) : (pSetBit c r L b).hardened = c.hardened := rfl
@[simp] theorem pSetBit_keyDrop (c : Crew) (r L : Nat) (b : Bool) : (pSetBit c r L b).keyDrop = c.keyDrop := rfl
@[simp] theorem pSetBit_leaving (c : Crew) (r L : Nat) (b : Bool) : (pSetBit c r L b).leaving = c.leaving := rfl
@[simp] theorem pSetBit_woken (c : Crew) (r L : Nat) (b : Bool) : (pSetBit c r L b).woken = c.woken := rfl
@[simp] theorem pSetBit_viewWait (c : Crew) (r L : Nat) (b : Bool) : (pSetBit c r L b).viewWait = c.viewWait := rfl
@[simp] theorem pSetBit_waitAt (c : Crew) (r L : Nat) (b : Bool) : (pSetBit c r L b).waitAt = c.waitAt := rfl
@[simp] theorem pSetBit_atHome (c : Crew) (r L : Nat) (b : Bool) : (pSetBit c r L b).atHome = c.atHome := rfl
@[simp] theorem pSetBit_openB (c : Crew) (r L : Nat) (b : Bool) : (pSetBit c r L b).openB = c.openB := rfl
@[simp] theorem pSetBit_closedB (c : Crew) (r L : Nat) (b : Bool) : (pSetBit c r L b).closedB = c.closedB := rfl

/-! ### `mSet` -/

@[simp] theorem mSet_tid (c : Crew) (r : Nat) (x : Word) : (mSet c r x).tid = c.tid := rfl
@[simp] theorem mSet_launch (c : Crew) (r : Nat) (x : Word) : (mSet c r x).launch = c.launch := rfl
@[simp] theorem mSet_job (c : Crew) (r : Nat) (x : Word) : (mSet c r x).job = c.job := rfl
@[simp] theorem mSet_core (c : Crew) (r : Nat) (x : Word) : (mSet c r x).core = c.core := rfl
@[simp] theorem mSet_slots (c : Crew) (r : Nat) (x : Word) : (mSet c r x).slots = c.slots := rfl
@[simp] theorem mSet_status (c : Crew) (r : Nat) (x : Word) : (mSet c r x).status = c.status := rfl
@[simp] theorem mSet_stall (c : Crew) (r : Nat) (x : Word) : (mSet c r x).stall = c.stall := rfl
@[simp] theorem mSet_decl (c : Crew) (r : Nat) (x : Word) : (mSet c r x).decl = c.decl := rfl
@[simp] theorem mSet_pcs (c : Crew) (r : Nat) (x : Word) : (mSet c r x).pcs = c.pcs := rfl
@[simp] theorem mSet_live (c : Crew) (r : Nat) (x : Word) : (mSet c r x).live = c.live := rfl
@[simp] theorem mSet_waiting (c : Crew) (r : Nat) (x : Word) : (mSet c r x).waiting = c.waiting := rfl
@[simp] theorem mSet_v (c : Crew) (r : Nat) (x : Word) : (mSet c r x).v = c.v := rfl
@[simp] theorem mSet_vtag (c : Crew) (r : Nat) (x : Word) : (mSet c r x).vtag = c.vtag := rfl
@[simp] theorem mSet_s (c : Crew) (r : Nat) (x : Word) : (mSet c r x).s = c.s := rfl
@[simp] theorem mSet_stag (c : Crew) (r : Nat) (x : Word) : (mSet c r x).stag = c.stag := rfl
@[simp] theorem mSet_p (c : Crew) (r : Nat) (x : Word) : (mSet c r x).p = c.p := rfl
@[simp] theorem mSet_h (c : Crew) (r : Nat) (x : Word) : (mSet c r x).h = c.h := rfl
@[simp] theorem mSet_acc (c : Crew) (r : Nat) (x : Word) : (mSet c r x).acc = c.acc := rfl
@[simp] theorem mSet_ped (c : Crew) (r : Nat) (x : Word) : (mSet c r x).ped = c.ped := rfl
@[simp] theorem mSet_flags (c : Crew) (r : Nat) (x : Word) : (mSet c r x).flags = c.flags := rfl
@[simp] theorem mSet_chk (c : Crew) (r : Nat) (x : Word) : (mSet c r x).chk = c.chk := rfl
@[simp] theorem mSet_seg (c : Crew) (r : Nat) (x : Word) : (mSet c r x).seg = c.seg := rfl
@[simp] theorem mSet_pend (c : Crew) (r : Nat) (x : Word) : (mSet c r x).pend = c.pend := rfl
@[simp] theorem mSet_late (c : Crew) (r : Nat) (x : Word) : (mSet c r x).late = c.late := rfl
@[simp] theorem mSet_ap (c : Crew) (r : Nat) (x : Word) : (mSet c r x).ap = c.ap := rfl
@[simp] theorem mSet_kids (c : Crew) (r : Nat) (x : Word) : (mSet c r x).kids = c.kids := rfl
@[simp] theorem mSet_hnd (c : Crew) (r : Nat) (x : Word) : (mSet c r x).hnd = c.hnd := rfl
@[simp] theorem mSet_hardened (c : Crew) (r : Nat) (x : Word) : (mSet c r x).hardened = c.hardened := rfl
@[simp] theorem mSet_keyDrop (c : Crew) (r : Nat) (x : Word) : (mSet c r x).keyDrop = c.keyDrop := rfl
@[simp] theorem mSet_leaving (c : Crew) (r : Nat) (x : Word) : (mSet c r x).leaving = c.leaving := rfl
@[simp] theorem mSet_woken (c : Crew) (r : Nat) (x : Word) : (mSet c r x).woken = c.woken := rfl
@[simp] theorem mSet_viewWait (c : Crew) (r : Nat) (x : Word) : (mSet c r x).viewWait = c.viewWait := rfl
@[simp] theorem mSet_waitAt (c : Crew) (r : Nat) (x : Word) : (mSet c r x).waitAt = c.waitAt := rfl
@[simp] theorem mSet_atHome (c : Crew) (r : Nat) (x : Word) : (mSet c r x).atHome = c.atHome := rfl
@[simp] theorem mSet_openB (c : Crew) (r : Nat) (x : Word) : (mSet c r x).openB = c.openB := rfl
@[simp] theorem mSet_closedB (c : Crew) (r : Nat) (x : Word) : (mSet c r x).closedB = c.closedB := rfl

/-! ### `hSet` -/

@[simp] theorem hSet_tid (c : Crew) (r : Nat) (x : Word) : (hSet c r x).tid = c.tid := rfl
@[simp] theorem hSet_launch (c : Crew) (r : Nat) (x : Word) : (hSet c r x).launch = c.launch := rfl
@[simp] theorem hSet_job (c : Crew) (r : Nat) (x : Word) : (hSet c r x).job = c.job := rfl
@[simp] theorem hSet_core (c : Crew) (r : Nat) (x : Word) : (hSet c r x).core = c.core := rfl
@[simp] theorem hSet_slots (c : Crew) (r : Nat) (x : Word) : (hSet c r x).slots = c.slots := rfl
@[simp] theorem hSet_status (c : Crew) (r : Nat) (x : Word) : (hSet c r x).status = c.status := rfl
@[simp] theorem hSet_stall (c : Crew) (r : Nat) (x : Word) : (hSet c r x).stall = c.stall := rfl
@[simp] theorem hSet_decl (c : Crew) (r : Nat) (x : Word) : (hSet c r x).decl = c.decl := rfl
@[simp] theorem hSet_pcs (c : Crew) (r : Nat) (x : Word) : (hSet c r x).pcs = c.pcs := rfl
@[simp] theorem hSet_live (c : Crew) (r : Nat) (x : Word) : (hSet c r x).live = c.live := rfl
@[simp] theorem hSet_waiting (c : Crew) (r : Nat) (x : Word) : (hSet c r x).waiting = c.waiting := rfl
@[simp] theorem hSet_v (c : Crew) (r : Nat) (x : Word) : (hSet c r x).v = c.v := rfl
@[simp] theorem hSet_vtag (c : Crew) (r : Nat) (x : Word) : (hSet c r x).vtag = c.vtag := rfl
@[simp] theorem hSet_s (c : Crew) (r : Nat) (x : Word) : (hSet c r x).s = c.s := rfl
@[simp] theorem hSet_stag (c : Crew) (r : Nat) (x : Word) : (hSet c r x).stag = c.stag := rfl
@[simp] theorem hSet_p (c : Crew) (r : Nat) (x : Word) : (hSet c r x).p = c.p := rfl
@[simp] theorem hSet_m (c : Crew) (r : Nat) (x : Word) : (hSet c r x).m = c.m := rfl
@[simp] theorem hSet_acc (c : Crew) (r : Nat) (x : Word) : (hSet c r x).acc = c.acc := rfl
@[simp] theorem hSet_ped (c : Crew) (r : Nat) (x : Word) : (hSet c r x).ped = c.ped := rfl
@[simp] theorem hSet_flags (c : Crew) (r : Nat) (x : Word) : (hSet c r x).flags = c.flags := rfl
@[simp] theorem hSet_chk (c : Crew) (r : Nat) (x : Word) : (hSet c r x).chk = c.chk := rfl
@[simp] theorem hSet_seg (c : Crew) (r : Nat) (x : Word) : (hSet c r x).seg = c.seg := rfl
@[simp] theorem hSet_pend (c : Crew) (r : Nat) (x : Word) : (hSet c r x).pend = c.pend := rfl
@[simp] theorem hSet_late (c : Crew) (r : Nat) (x : Word) : (hSet c r x).late = c.late := rfl
@[simp] theorem hSet_ap (c : Crew) (r : Nat) (x : Word) : (hSet c r x).ap = c.ap := rfl
@[simp] theorem hSet_kids (c : Crew) (r : Nat) (x : Word) : (hSet c r x).kids = c.kids := rfl
@[simp] theorem hSet_hnd (c : Crew) (r : Nat) (x : Word) : (hSet c r x).hnd = c.hnd := rfl
@[simp] theorem hSet_hardened (c : Crew) (r : Nat) (x : Word) : (hSet c r x).hardened = c.hardened := rfl
@[simp] theorem hSet_keyDrop (c : Crew) (r : Nat) (x : Word) : (hSet c r x).keyDrop = c.keyDrop := rfl
@[simp] theorem hSet_leaving (c : Crew) (r : Nat) (x : Word) : (hSet c r x).leaving = c.leaving := rfl
@[simp] theorem hSet_woken (c : Crew) (r : Nat) (x : Word) : (hSet c r x).woken = c.woken := rfl
@[simp] theorem hSet_viewWait (c : Crew) (r : Nat) (x : Word) : (hSet c r x).viewWait = c.viewWait := rfl
@[simp] theorem hSet_waitAt (c : Crew) (r : Nat) (x : Word) : (hSet c r x).waitAt = c.waitAt := rfl
@[simp] theorem hSet_atHome (c : Crew) (r : Nat) (x : Word) : (hSet c r x).atHome = c.atHome := rfl
@[simp] theorem hSet_openB (c : Crew) (r : Nat) (x : Word) : (hSet c r x).openB = c.openB := rfl
@[simp] theorem hSet_closedB (c : Crew) (r : Nat) (x : Word) : (hSet c r x).closedB = c.closedB := rfl

/-! ### `accSet` -/

@[simp] theorem accSet_tid (c : Crew) (a row col : Nat) (x : Half) : (accSet c a row col x).tid = c.tid := rfl
@[simp] theorem accSet_launch (c : Crew) (a row col : Nat) (x : Half) : (accSet c a row col x).launch = c.launch := rfl
@[simp] theorem accSet_job (c : Crew) (a row col : Nat) (x : Half) : (accSet c a row col x).job = c.job := rfl
@[simp] theorem accSet_core (c : Crew) (a row col : Nat) (x : Half) : (accSet c a row col x).core = c.core := rfl
@[simp] theorem accSet_slots (c : Crew) (a row col : Nat) (x : Half) : (accSet c a row col x).slots = c.slots := rfl
@[simp] theorem accSet_status (c : Crew) (a row col : Nat) (x : Half) : (accSet c a row col x).status = c.status := rfl
@[simp] theorem accSet_stall (c : Crew) (a row col : Nat) (x : Half) : (accSet c a row col x).stall = c.stall := rfl
@[simp] theorem accSet_decl (c : Crew) (a row col : Nat) (x : Half) : (accSet c a row col x).decl = c.decl := rfl
@[simp] theorem accSet_pcs (c : Crew) (a row col : Nat) (x : Half) : (accSet c a row col x).pcs = c.pcs := rfl
@[simp] theorem accSet_live (c : Crew) (a row col : Nat) (x : Half) : (accSet c a row col x).live = c.live := rfl
@[simp] theorem accSet_waiting (c : Crew) (a row col : Nat) (x : Half) : (accSet c a row col x).waiting = c.waiting := rfl
@[simp] theorem accSet_v (c : Crew) (a row col : Nat) (x : Half) : (accSet c a row col x).v = c.v := rfl
@[simp] theorem accSet_vtag (c : Crew) (a row col : Nat) (x : Half) : (accSet c a row col x).vtag = c.vtag := rfl
@[simp] theorem accSet_s (c : Crew) (a row col : Nat) (x : Half) : (accSet c a row col x).s = c.s := rfl
@[simp] theorem accSet_stag (c : Crew) (a row col : Nat) (x : Half) : (accSet c a row col x).stag = c.stag := rfl
@[simp] theorem accSet_p (c : Crew) (a row col : Nat) (x : Half) : (accSet c a row col x).p = c.p := rfl
@[simp] theorem accSet_m (c : Crew) (a row col : Nat) (x : Half) : (accSet c a row col x).m = c.m := rfl
@[simp] theorem accSet_h (c : Crew) (a row col : Nat) (x : Half) : (accSet c a row col x).h = c.h := rfl
@[simp] theorem accSet_ped (c : Crew) (a row col : Nat) (x : Half) : (accSet c a row col x).ped = c.ped := rfl
@[simp] theorem accSet_flags (c : Crew) (a row col : Nat) (x : Half) : (accSet c a row col x).flags = c.flags := rfl
@[simp] theorem accSet_chk (c : Crew) (a row col : Nat) (x : Half) : (accSet c a row col x).chk = c.chk := rfl
@[simp] theorem accSet_seg (c : Crew) (a row col : Nat) (x : Half) : (accSet c a row col x).seg = c.seg := rfl
@[simp] theorem accSet_pend (c : Crew) (a row col : Nat) (x : Half) : (accSet c a row col x).pend = c.pend := rfl
@[simp] theorem accSet_late (c : Crew) (a row col : Nat) (x : Half) : (accSet c a row col x).late = c.late := rfl
@[simp] theorem accSet_ap (c : Crew) (a row col : Nat) (x : Half) : (accSet c a row col x).ap = c.ap := rfl
@[simp] theorem accSet_kids (c : Crew) (a row col : Nat) (x : Half) : (accSet c a row col x).kids = c.kids := rfl
@[simp] theorem accSet_hnd (c : Crew) (a row col : Nat) (x : Half) : (accSet c a row col x).hnd = c.hnd := rfl
@[simp] theorem accSet_hardened (c : Crew) (a row col : Nat) (x : Half) : (accSet c a row col x).hardened = c.hardened := rfl
@[simp] theorem accSet_keyDrop (c : Crew) (a row col : Nat) (x : Half) : (accSet c a row col x).keyDrop = c.keyDrop := rfl
@[simp] theorem accSet_leaving (c : Crew) (a row col : Nat) (x : Half) : (accSet c a row col x).leaving = c.leaving := rfl
@[simp] theorem accSet_woken (c : Crew) (a row col : Nat) (x : Half) : (accSet c a row col x).woken = c.woken := rfl
@[simp] theorem accSet_viewWait (c : Crew) (a row col : Nat) (x : Half) : (accSet c a row col x).viewWait = c.viewWait := rfl
@[simp] theorem accSet_waitAt (c : Crew) (a row col : Nat) (x : Half) : (accSet c a row col x).waitAt = c.waitAt := rfl
@[simp] theorem accSet_atHome (c : Crew) (a row col : Nat) (x : Half) : (accSet c a row col x).atHome = c.atHome := rfl
@[simp] theorem accSet_openB (c : Crew) (a row col : Nat) (x : Half) : (accSet c a row col x).openB = c.openB := rfl
@[simp] theorem accSet_closedB (c : Crew) (a row col : Nat) (x : Half) : (accSet c a row col x).closedB = c.closedB := rfl

/-! ### `orFlags` -/

@[simp] theorem orFlags_tid (c : Crew) (fl : BitVec 5) : (orFlags c fl).tid = c.tid := rfl
@[simp] theorem orFlags_launch (c : Crew) (fl : BitVec 5) : (orFlags c fl).launch = c.launch := rfl
@[simp] theorem orFlags_job (c : Crew) (fl : BitVec 5) : (orFlags c fl).job = c.job := rfl
@[simp] theorem orFlags_core (c : Crew) (fl : BitVec 5) : (orFlags c fl).core = c.core := rfl
@[simp] theorem orFlags_slots (c : Crew) (fl : BitVec 5) : (orFlags c fl).slots = c.slots := rfl
@[simp] theorem orFlags_status (c : Crew) (fl : BitVec 5) : (orFlags c fl).status = c.status := rfl
@[simp] theorem orFlags_stall (c : Crew) (fl : BitVec 5) : (orFlags c fl).stall = c.stall := rfl
@[simp] theorem orFlags_decl (c : Crew) (fl : BitVec 5) : (orFlags c fl).decl = c.decl := rfl
@[simp] theorem orFlags_pcs (c : Crew) (fl : BitVec 5) : (orFlags c fl).pcs = c.pcs := rfl
@[simp] theorem orFlags_live (c : Crew) (fl : BitVec 5) : (orFlags c fl).live = c.live := rfl
@[simp] theorem orFlags_waiting (c : Crew) (fl : BitVec 5) : (orFlags c fl).waiting = c.waiting := rfl
@[simp] theorem orFlags_v (c : Crew) (fl : BitVec 5) : (orFlags c fl).v = c.v := rfl
@[simp] theorem orFlags_vtag (c : Crew) (fl : BitVec 5) : (orFlags c fl).vtag = c.vtag := rfl
@[simp] theorem orFlags_s (c : Crew) (fl : BitVec 5) : (orFlags c fl).s = c.s := rfl
@[simp] theorem orFlags_stag (c : Crew) (fl : BitVec 5) : (orFlags c fl).stag = c.stag := rfl
@[simp] theorem orFlags_p (c : Crew) (fl : BitVec 5) : (orFlags c fl).p = c.p := rfl
@[simp] theorem orFlags_m (c : Crew) (fl : BitVec 5) : (orFlags c fl).m = c.m := rfl
@[simp] theorem orFlags_h (c : Crew) (fl : BitVec 5) : (orFlags c fl).h = c.h := rfl
@[simp] theorem orFlags_acc (c : Crew) (fl : BitVec 5) : (orFlags c fl).acc = c.acc := rfl
@[simp] theorem orFlags_ped (c : Crew) (fl : BitVec 5) : (orFlags c fl).ped = c.ped := rfl
@[simp] theorem orFlags_chk (c : Crew) (fl : BitVec 5) : (orFlags c fl).chk = c.chk := rfl
@[simp] theorem orFlags_seg (c : Crew) (fl : BitVec 5) : (orFlags c fl).seg = c.seg := rfl
@[simp] theorem orFlags_pend (c : Crew) (fl : BitVec 5) : (orFlags c fl).pend = c.pend := rfl
@[simp] theorem orFlags_late (c : Crew) (fl : BitVec 5) : (orFlags c fl).late = c.late := rfl
@[simp] theorem orFlags_ap (c : Crew) (fl : BitVec 5) : (orFlags c fl).ap = c.ap := rfl
@[simp] theorem orFlags_kids (c : Crew) (fl : BitVec 5) : (orFlags c fl).kids = c.kids := rfl
@[simp] theorem orFlags_hnd (c : Crew) (fl : BitVec 5) : (orFlags c fl).hnd = c.hnd := rfl
@[simp] theorem orFlags_hardened (c : Crew) (fl : BitVec 5) : (orFlags c fl).hardened = c.hardened := rfl
@[simp] theorem orFlags_keyDrop (c : Crew) (fl : BitVec 5) : (orFlags c fl).keyDrop = c.keyDrop := rfl
@[simp] theorem orFlags_leaving (c : Crew) (fl : BitVec 5) : (orFlags c fl).leaving = c.leaving := rfl
@[simp] theorem orFlags_woken (c : Crew) (fl : BitVec 5) : (orFlags c fl).woken = c.woken := rfl
@[simp] theorem orFlags_viewWait (c : Crew) (fl : BitVec 5) : (orFlags c fl).viewWait = c.viewWait := rfl
@[simp] theorem orFlags_waitAt (c : Crew) (fl : BitVec 5) : (orFlags c fl).waitAt = c.waitAt := rfl
@[simp] theorem orFlags_atHome (c : Crew) (fl : BitVec 5) : (orFlags c fl).atHome = c.atHome := rfl
@[simp] theorem orFlags_openB (c : Crew) (fl : BitVec 5) : (orFlags c fl).openB = c.openB := rfl
@[simp] theorem orFlags_closedB (c : Crew) (fl : BitVec 5) : (orFlags c fl).closedB = c.closedB := rfl

/-! ### `setPc` -/

@[simp] theorem setPc_tid (c : Crew) (L : Nat) (x : Word) : (setPc c L x).tid = c.tid := rfl
@[simp] theorem setPc_launch (c : Crew) (L : Nat) (x : Word) : (setPc c L x).launch = c.launch := rfl
@[simp] theorem setPc_job (c : Crew) (L : Nat) (x : Word) : (setPc c L x).job = c.job := rfl
@[simp] theorem setPc_core (c : Crew) (L : Nat) (x : Word) : (setPc c L x).core = c.core := rfl
@[simp] theorem setPc_slots (c : Crew) (L : Nat) (x : Word) : (setPc c L x).slots = c.slots := rfl
@[simp] theorem setPc_status (c : Crew) (L : Nat) (x : Word) : (setPc c L x).status = c.status := rfl
@[simp] theorem setPc_stall (c : Crew) (L : Nat) (x : Word) : (setPc c L x).stall = c.stall := rfl
@[simp] theorem setPc_decl (c : Crew) (L : Nat) (x : Word) : (setPc c L x).decl = c.decl := rfl
@[simp] theorem setPc_live (c : Crew) (L : Nat) (x : Word) : (setPc c L x).live = c.live := rfl
@[simp] theorem setPc_waiting (c : Crew) (L : Nat) (x : Word) : (setPc c L x).waiting = c.waiting := rfl
@[simp] theorem setPc_v (c : Crew) (L : Nat) (x : Word) : (setPc c L x).v = c.v := rfl
@[simp] theorem setPc_vtag (c : Crew) (L : Nat) (x : Word) : (setPc c L x).vtag = c.vtag := rfl
@[simp] theorem setPc_s (c : Crew) (L : Nat) (x : Word) : (setPc c L x).s = c.s := rfl
@[simp] theorem setPc_stag (c : Crew) (L : Nat) (x : Word) : (setPc c L x).stag = c.stag := rfl
@[simp] theorem setPc_p (c : Crew) (L : Nat) (x : Word) : (setPc c L x).p = c.p := rfl
@[simp] theorem setPc_m (c : Crew) (L : Nat) (x : Word) : (setPc c L x).m = c.m := rfl
@[simp] theorem setPc_h (c : Crew) (L : Nat) (x : Word) : (setPc c L x).h = c.h := rfl
@[simp] theorem setPc_acc (c : Crew) (L : Nat) (x : Word) : (setPc c L x).acc = c.acc := rfl
@[simp] theorem setPc_ped (c : Crew) (L : Nat) (x : Word) : (setPc c L x).ped = c.ped := rfl
@[simp] theorem setPc_flags (c : Crew) (L : Nat) (x : Word) : (setPc c L x).flags = c.flags := rfl
@[simp] theorem setPc_chk (c : Crew) (L : Nat) (x : Word) : (setPc c L x).chk = c.chk := rfl
@[simp] theorem setPc_seg (c : Crew) (L : Nat) (x : Word) : (setPc c L x).seg = c.seg := rfl
@[simp] theorem setPc_pend (c : Crew) (L : Nat) (x : Word) : (setPc c L x).pend = c.pend := rfl
@[simp] theorem setPc_late (c : Crew) (L : Nat) (x : Word) : (setPc c L x).late = c.late := rfl
@[simp] theorem setPc_ap (c : Crew) (L : Nat) (x : Word) : (setPc c L x).ap = c.ap := rfl
@[simp] theorem setPc_kids (c : Crew) (L : Nat) (x : Word) : (setPc c L x).kids = c.kids := rfl
@[simp] theorem setPc_hnd (c : Crew) (L : Nat) (x : Word) : (setPc c L x).hnd = c.hnd := rfl
@[simp] theorem setPc_hardened (c : Crew) (L : Nat) (x : Word) : (setPc c L x).hardened = c.hardened := rfl
@[simp] theorem setPc_keyDrop (c : Crew) (L : Nat) (x : Word) : (setPc c L x).keyDrop = c.keyDrop := rfl
@[simp] theorem setPc_leaving (c : Crew) (L : Nat) (x : Word) : (setPc c L x).leaving = c.leaving := rfl
@[simp] theorem setPc_woken (c : Crew) (L : Nat) (x : Word) : (setPc c L x).woken = c.woken := rfl
@[simp] theorem setPc_viewWait (c : Crew) (L : Nat) (x : Word) : (setPc c L x).viewWait = c.viewWait := rfl
@[simp] theorem setPc_waitAt (c : Crew) (L : Nat) (x : Word) : (setPc c L x).waitAt = c.waitAt := rfl
@[simp] theorem setPc_atHome (c : Crew) (L : Nat) (x : Word) : (setPc c L x).atHome = c.atHome := rfl
@[simp] theorem setPc_openB (c : Crew) (L : Nat) (x : Word) : (setPc c L x).openB = c.openB := rfl
@[simp] theorem setPc_closedB (c : Crew) (L : Nat) (x : Word) : (setPc c L x).closedB = c.closedB := rfl

end Sys2Proof.Laws
end

