-- ==== Sys2Proof/Laws/Issue.lean ====
section
/-! SUPPORT. Everything that issuing an instruction can do, said once: the cases of `runInstr` and `issueAt`, and the common shape of the
instructions of the opcode map. -/

namespace Sys2Proof.Laws

open Sys2Proof.Machine

/-! ### The cases of an issue -/

theorem runInstr_not_ready {op : Nat} {body : Ctx → Mach → R Mach} {f : Fields} {s : State} (h : canIssue s.m.cur = none) :
    runInstr op body f s = .fault .notReady := by simp [runInstr, h]

theorem runInstr_late {op : Nat} {body : Ctx → Mach → R Mach} {f : Fields} {s : State} {pc : Word} {e : Exc} (h : canIssue s.m.cur = some pc)
    (hl : s.m.cur.late = some e) : runInstr op body f s = .next { s with m := takeTrap s.m s.m.cur.tid e } := by simp [runInstr, h, hl]

theorem runInstr_issue {op : Nat} {body : Ctx → Mach → R Mach} {f : Fields} {s : State} {pc : Word} (h : canIssue s.m.cur = some pc)
    (hl : s.m.cur.late = none) : runInstr op body f s = .next { s with m := issueAt s.m pc op f body } := by simp [runInstr, h, hl]

/-- A crew that can issue always gets a next state, with the boot state and the host endpoint as they were. -/
theorem runInstr_next (op : Nat) (body : Ctx → Mach → R Mach) (f : Fields) {s : State} {pc : Word} (h : canIssue s.m.cur = some pc) :
    ∃ m, runInstr op body f s = .next { s with m := m } := by
  cases hl : s.m.cur.late with
  | none => exact ⟨_, runInstr_issue h hl⟩
  | some e => exact ⟨_, runInstr_late h hl⟩

/-- A next state of an instruction differs from the one before in the machine's part only. -/
theorem runInstr_inv {op : Nat} {body : Ctx → Mach → R Mach} {f : Fields} {s t : State} (h : runInstr op body f s = .next t) :
    ∃ pc, canIssue s.m.cur = some pc ∧ t.boot = s.boot ∧ t.host = s.host := by
  cases hc : canIssue s.m.cur with
  | none => rw [runInstr_not_ready hc] at h; cases h
  | some pc =>
    obtain ⟨m, hm⟩ := runInstr_next op body f hc
    rw [hm] at h; injection h with h; subst h; exact ⟨pc, rfl, rfl, rfl⟩

/-- With E empty nothing but the PCs, the counts of the issue and the draws of the guard's free reads change (R163, R278). -/
theorem issueAt_empty {m : Mach} {pc : Word} {op : Nat} {f : Fields} {body : Ctx → Mach → R Mach} (h : (issueCtx m pc op f).e = 0) :
    issueAt m pc op f body = { m with cur := retire m.cur (issueCtx m pc op f), freeCtr := m.freeCtr + readsTaken m.cur } := by simp only [issueAt, h, if_true]

/-- A failed check goes to the trap or the stall, on the machine as it was (R248, R254, R263). -/
theorem issueAt_check {m : Mach} {pc : Word} {op : Nat} {f : Fields} {body : Ctx → Mach → R Mach} {hh : Halt} (he : (issueCtx m pc op f).e ≠ 0)
    (h : preCheck m m.cur (issueCtx m pc op f) (entryFor m m.cur op f) = .error hh) :
    issueAt m pc op f body = halted m m.cur.tid pc hh := by simp only [issueAt, he, if_false, h]

/-- An instruction whose checks pass does what its meaning does on the issued machine. -/
theorem issueAt_ok {m m' : Mach} {pc : Word} {op : Nat} {f : Fields} {body : Ctx → Mach → R Mach} (he : (issueCtx m pc op f).e ≠ 0)
    (h : preCheck m m.cur (issueCtx m pc op f) (entryFor m m.cur op f) = .ok ()) (hb : body (issueCtx m pc op f) (issued m pc op f) = .ok m') :
    issueAt m pc op f body = m' := by simp only [issueAt, he, if_false, h, hb]

/-- ... or ends where its meaning's trap or stall says. -/
theorem issueAt_halt {m : Mach} {pc : Word} {op : Nat} {f : Fields} {body : Ctx → Mach → R Mach} {hh : Halt} (he : (issueCtx m pc op f).e ≠ 0)
    (h : preCheck m m.cur (issueCtx m pc op f) (entryFor m m.cur op f) = .ok ()) (hb : body (issueCtx m pc op f) (issued m pc op f) = .error hh) :
    issueAt m pc op f body = halted m m.cur.tid pc hh := by simp only [issueAt, he, if_false, h, hb]


/-- Every instruction of the opcode map has the shape of `runInstr`. -/
theorem exec_runInstr {i : Instr} {op : Nat} {f : Fields} (h : i.parts = some (op, f)) (s : State) :
    ∃ body, exec i s = runInstr op body f s := by
  cases i <;> simp only [Instr.parts, Option.some.injEq, Prod.mk.injEq, reduceCtorEq] at h <;> (obtain ⟨rfl, rfl⟩ := h; exact ⟨_, rfl⟩)

end Sys2Proof.Laws
end

