-- ==== Sys2Proof/Laws/Memory.lean ====
section
/-! SUPPORT. Sparse maps and memory: reading after writing, and that every memory operation keeps the canonical form. -/

namespace Sys2Proof.Laws

open Sys2Proof.Machine

/-! ### Sparse maps -/

theorem smWf_mono {α : Type} [DecidableEq α] {d : α} {j k : Nat} (h : j ≤ k) {l : List (Nat × α)} (w : smWf d k l = true) : smWf d j l = true := by
  cases l with
  | nil => rfl
  | cons e t => simp only [smWf, Bool.and_eq_true, decide_eq_true_eq] at w ⊢; exact ⟨⟨Nat.le_trans h w.1.1, w.1.2⟩, w.2⟩

/-- Dropping entries keeps the form. -/
theorem smWf_filter {α : Type} [DecidableEq α] {d : α} (p : Nat × α → Bool) {k : Nat} {l : List (Nat × α)} (w : smWf d k l = true) :
    smWf d k (l.filter p) = true := by
  induction l generalizing k with
  | nil => rfl
  | cons e t ih =>
    simp only [smWf, Bool.and_eq_true, decide_eq_true_eq] at w
    by_cases hp : p e
    · simp [List.filter, hp, smWf, w.1.1, w.1.2, ih w.2]
    · simp only [List.filter, hp]; exact smWf_mono (by omega) (ih w.2)

theorem smWf_ins {α : Type} [DecidableEq α] {d : α} {x : Nat} {v : α} (hv : v ≠ d) {k : Nat} (h : k ≤ x) {l : List (Nat × α)}
    (w : smWf d k l = true) (hx : ∀ e ∈ l, e.1 ≠ x) : smWf d k (smIns l x v) = true := by
  induction l generalizing k with
  | nil => simp [smIns, smWf, h, hv]
  | cons e t ih =>
    simp only [smWf, Bool.and_eq_true, decide_eq_true_eq] at w
    have he := hx e (List.mem_cons_self ..)
    unfold smIns
    split
    · rename_i h1
      have h2 : x + 1 ≤ e.1 := by omega
      simp [smWf, h, hv, h2, w.1.2, w.2]
    · have h3 : e.1 + 1 ≤ x := by omega
      simp [smWf, w.1.1, w.1.2, ih h3 w.2 (fun q hq => hx q (List.mem_cons_of_mem _ hq))]

/-- Writing keeps the form. -/
theorem smSet_wf {α : Type} [DecidableEq α] (d : α) {x : Nat} (v : α) {k : Nat} (h : k ≤ x) {l : List (Nat × α)} (w : smWf d k l = true) :
    smWf d k (smSet d l x v) = true := by
  unfold smSet
  split
  · exact smWf_filter _ w
  · rename_i hv
    exact smWf_ins hv h (smWf_filter _ w) (fun e he => by simpa using (List.mem_filter.mp he).2)

theorem smGet_erase_same {α : Type} (d : α) (l : List (Nat × α)) (x : Nat) : smGet d (smErase l x) x = d := by
  induction l with
  | nil => rfl
  | cons e t ih =>
    unfold smErase at ih ⊢
    by_cases h : e.1 = x
    · simpa [List.filter, h] using ih
    · have hb : (e.1 != x) = true := by simpa using h
      simpa [List.filter, hb, smGet, h] using ih

theorem smGet_erase_other {α : Type} (d : α) (l : List (Nat × α)) {x y : Nat} (h : y ≠ x) : smGet d (smErase l x) y = smGet d l y := by
  induction l with
  | nil => rfl
  | cons e t ih =>
    unfold smErase at ih ⊢
    by_cases h1 : e.1 = x
    · have h2 : e.1 ≠ y := fun h3 => h (h3.symm.trans h1)
      simpa [List.filter, h1, smGet, h.symm] using ih
    · have hb : (e.1 != x) = true := by simpa using h1
      by_cases h2 : e.1 = y
      · have h3 : (y != x) = true := by simpa using h
        simp [List.filter, h3, smGet, h2]
      · simpa [List.filter, hb, smGet, h2] using ih

theorem smGet_ins_same {α : Type} (d : α) {l : List (Nat × α)} (x : Nat) (v : α) (hx : ∀ e ∈ l, e.1 ≠ x) : smGet d (smIns l x v) x = v := by
  induction l with
  | nil => simp [smIns, smGet]
  | cons e t ih =>
    unfold smIns
    split
    · simp [smGet]
    · simp [smGet, hx e (List.mem_cons_self ..), ih (fun q hq => hx q (List.mem_cons_of_mem _ hq))]

theorem smGet_ins_other {α : Type} (d : α) (l : List (Nat × α)) {x y : Nat} (h : y ≠ x) (v : α) : smGet d (smIns l x v) y = smGet d l y := by
  induction l with
  | nil => simp [smIns, smGet, h.symm]
  | cons e t ih =>
    unfold smIns
    split
    · simp [smGet, h.symm]
    · simp [smGet, ih]

theorem smErase_ne {α : Type} (l : List (Nat × α)) (x : Nat) : ∀ e ∈ smErase l x, e.1 ≠ x :=
  fun e he => by simpa using (List.mem_filter.mp he).2

/-- Reading the key just written. -/
theorem smGet_smSet_same {α : Type} [DecidableEq α] (d : α) (l : List (Nat × α)) (x : Nat) (v : α) : smGet d (smSet d l x v) x = v := by
  unfold smSet
  split
  · rename_i h; rw [h, smGet_erase_same]
  · exact smGet_ins_same d x v (smErase_ne l x)

/-- Reading any other key. -/
theorem smGet_smSet_other {α : Type} [DecidableEq α] (d : α) (l : List (Nat × α)) {x y : Nat} (h : y ≠ x) (v : α) :
    smGet d (smSet d l x v) y = smGet d l y := by
  unfold smSet
  split
  · exact smGet_erase_other d l h
  · rw [smGet_ins_other d _ h, smGet_erase_other d l h]

theorem smGet_smSet {α : Type} [DecidableEq α] (d : α) (l : List (Nat × α)) (x y : Nat) (v : α) :
    smGet d (smSet d l x v) y = if y = x then v else smGet d l y := by
  split
  · rename_i h; rw [h, smGet_smSet_same]
  · rename_i h; exact smGet_smSet_other d l h v

theorem smFind_eq {α : Type} (l : List (Nat × α)) (x : Nat) : smFind l x = smGet none (l.map (fun e => (e.1, some e.2))) x := by
  induction l with
  | nil => rfl
  | cons e t ih => simp [smFind, smGet, ih]

theorem smFind_smPut {α : Type} (l : List (Nat × α)) (x y : Nat) (v : α) : smFind (smPut l x v) y = if y = x then some v else smFind l y := by
  have hm : (smPut l x v).map (fun e => (e.1, some e.2)) = smIns (smErase (l.map (fun e => (e.1, some e.2))) x) x (some v) := by
    unfold smPut
    have he : (smErase l x).map (fun e => (e.1, some e.2)) = smErase (l.map (fun e => (e.1, some e.2))) x := by
      unfold smErase; rw [List.filter_map]; rfl
    rw [← he]
    generalize smErase l x = t
    induction t with
    | nil => rfl
    | cons e t ih => unfold smIns; by_cases h : x < e.1 <;> simp [h, ih]
  rw [smFind_eq, hm, smFind_eq]
  split
  · rename_i h; rw [h]; exact smGet_ins_same _ _ _ (smErase_ne _ _)
  · rename_i h; rw [smGet_ins_other _ _ h, smGet_erase_other _ _ h]

theorem smFind_smErase {α : Type} (l : List (Nat × α)) (x y : Nat) : smFind (smErase l x) y = if y = x then none else smFind l y := by
  have he : (smErase l x).map (fun e => (e.1, some e.2)) = smErase (l.map (fun e => (e.1, some e.2))) x := by
    unfold smErase; rw [List.filter_map]; rfl
  rw [smFind_eq, he, smFind_eq]
  split
  · rename_i h; rw [h, smGet_erase_same]
  · rename_i h; exact smGet_erase_other _ _ h

/-! ### Memory -/

theorem memory_wf_eq (l : List Host.Cell) : Memory.wf l = smWf (0 : Byte) 0 l := rfl

theorem memSet_wf {l : List Host.Cell} (a : Nat) (b : Byte) (w : Memory.wf l = true) : Memory.wf (memSet l a b) = true := by
  rw [memory_wf_eq] at w ⊢; exact smSet_wf 0 b (Nat.zero_le a) w

theorem memGet_memSet_same (l : List Host.Cell) (a : Nat) (b : Byte) : memGet (memSet l a b) a = b := smGet_smSet_same 0 l a b

theorem memGet_memSet_other (l : List Host.Cell) {a x : Nat} (h : x ≠ a) (b : Byte) : memGet (memSet l a b) x = memGet l x :=
  smGet_smSet_other 0 l h b

theorem memWrite_wf (bs : List Byte) {l : List Host.Cell} (a : Nat) (w : Memory.wf l = true) : Memory.wf (memWrite l a bs) = true := by
  induction bs generalizing l a with
  | nil => exact w
  | cons b t ih => exact ih (a + 1) (memSet_wf a b w)

theorem memPatch_wf (bs : List (Nat × Byte)) {l : List Host.Cell} (a : Nat) (w : Memory.wf l = true) : Memory.wf (memPatch l a bs) = true := by
  induction bs generalizing l with
  | nil => exact w
  | cons e t ih => exact ih (memSet_wf (a + e.1) e.2 w)

/-- A byte outside a run of bytes reads as before. -/
theorem memGet_memWrite_other (bs : List Byte) (l : List Host.Cell) {a x : Nat} (h : x < a ∨ a + bs.length ≤ x) :
    memGet (memWrite l a bs) x = memGet l x := by
  induction bs generalizing l a with
  | nil => rfl
  | cons b t ih =>
    simp only [List.length_cons] at h
    show memGet (memWrite (memSet l a b) (a + 1) t) x = _
    rw [ih _ (by omega)]
    exact memGet_memSet_other l (by omega) b

/-- The run of bytes just written reads back. -/
theorem memRead_memWrite (bs : List Byte) (l : List Host.Cell) (a : Nat) : memRead (memWrite l a bs) a bs.length = bs := by
  induction bs generalizing l a with
  | nil => rfl
  | cons b t ih =>
    show memGet (memWrite (memSet l a b) (a + 1) t) a :: memRead (memWrite (memSet l a b) (a + 1) t) (a + 1) t.length = b :: t
    rw [memGet_memWrite_other t _ (by omega), memGet_memSet_same, ih]

/-- A byte at none of the patched offsets reads as before. -/
theorem memGet_memPatch_other (bs : List (Nat × Byte)) (l : List Host.Cell) {a x : Nat} (h : ∀ e ∈ bs, x ≠ a + e.1) :
    memGet (memPatch l a bs) x = memGet l x := by
  induction bs generalizing l with
  | nil => rfl
  | cons e t ih =>
    show memGet (memPatch (memSet l (a + e.1) e.2) a t) x = _
    rw [ih _ (fun y hy => h y (List.mem_cons_of_mem _ hy))]
    exact memGet_memSet_other l (h e (List.mem_cons_self ..)) e.2

theorem memory_wf_filter (p : Host.Cell → Bool) {l : List Host.Cell} (w : Memory.wf l = true) : Memory.wf (l.filter p) = true := by
  rw [memory_wf_eq] at w ⊢; exact smWf_filter p w

theorem reset_memory_wf : Memory.wf State.reset.m.mem = true := rfl

/-! ### The operations of `Mach` on memory -/

theorem fireMonitors_mem (m : Mach) (line : Nat) : (fireMonitors m line).mem = m.mem := by
  unfold fireMonitors
  dsimp only
  split
  · generalize hl : m.crews.filter _ = l
    clear hl
    suffices ∀ (l : List Crew) (m' : Mach), m'.mem = m.mem → (l.foldl (fun m c => match c.status with
        | .parked .monitor _ => m.wakes c.tid
        | _ => m) m').mem = m.mem from this l _ rfl
    intro l
    induction l with
    | nil => exact fun _ h => h
    | cons c t ih =>
      intro m' h
      refine ih _ ?_
      dsimp only
      split
      · rw [wakes_mem]; exact h
      · exact h
  · rfl

theorem commitLine_mem (m : Mach) (line : Nat) (bs : List (Nat × Byte)) : (commitLine m line bs).mem = memPatch m.mem (128 * line) bs := by
  unfold commitLine; rw [fireMonitors_mem]

theorem commitLine_wf {m : Mach} (line : Nat) (bs : List (Nat × Byte)) (w : Memory.wf m.mem = true) : Memory.wf (commitLine m line bs).mem = true := by
  rw [commitLine_mem]; exact memPatch_wf bs _ w

theorem commitRun_wf {m : Mach} (pa : Nat) (bs : List Byte) (w : Memory.wf m.mem = true) : Memory.wf (commitRun m pa bs).mem = true := by
  unfold commitRun
  split
  · exact w
  · dsimp only
    generalize List.range _ = l
    induction l generalizing m with
    | nil => exact w
    | cons i t ih => exact ih (commitLine_wf _ _ w)

theorem freeLine_wf {m : Mach} (line : Nat) (w : Memory.wf m.mem = true) : Memory.wf (freeLine m line).mem = true := by
  unfold freeLine; generalize List.flatMap _ _ = bs; exact memWrite_wf bs _ w

theorem decipher_wf {m : Mach} (treat line : Nat) (w : Memory.wf m.mem = true) : Memory.wf (decipher m treat line).mem = true := by
  unfold decipher
  dsimp only
  split
  · exact w
  · exact freeLine_wf line w
  · split
    · exact w
    · exact memWrite_wf _ _ w

theorem touchLine_wf {m : Mach} (treat cp line : Nat) (w : Memory.wf m.mem = true) : Memory.wf (touchLine m treat cp line).mem = true := by
  unfold touchLine
  split
  · exact w
  · dsimp only
    split <;> exact decipher_wf treat line w

theorem evictLine_mem (m : Mach) (line : Nat) : (evictLine m line).mem = m.mem := by unfold evictLine; split <;> rfl

theorem clearFrame_wf {m : Mach} (f len : Nat) (w : Memory.wf m.mem = true) : Memory.wf (clearFrame m f len).mem = true := memory_wf_filter _ w

theorem stackRun_wf {m m' : Mach} {s n f : Nat} (h : stackRun m s n = some (f, m')) (w : Memory.wf m.mem = true) : Memory.wf m'.mem = true := by
  simp only [stackRun] at h
  split at h
  · exact absurd h (by simp)
  · simp only [Option.some.injEq, Prod.mk.injEq] at h
    rw [← h.2]; exact clearFrame_wf _ _ w

theorem allocRun_wf {m m' : Mach} {die n f : Nat} (h : allocRun m die n = some (f, m')) (w : Memory.wf m.mem = true) : Memory.wf m'.mem = true := by
  obtain ⟨s, _, hs⟩ := List.exists_of_findSome?_eq_some h
  exact stackRun_wf hs w

theorem putEntry_wf {m : Mach} (ea e : Nat) (w : Memory.wf m.mem = true) : Memory.wf (putEntry m ea e).mem = true := memWrite_wf _ _ w

theorem mapFrom_wf (die va leaf : Nat) : ∀ (level tb : Nat) {m m' : Mach}, mapFrom m die va leaf level tb = some m' → Memory.wf m.mem = true →
    Memory.wf m'.mem = true
  | 0, tb, m, m', h, w => by unfold mapFrom at h; injection h with h; subst h; exact putEntry_wf _ _ w
  | l + 1, tb, m, m', h, w => by
    unfold mapFrom at h
    dsimp only at h
    split at h
    · exact mapFrom_wf die va leaf l _ h w
    · split at h
      · cases h
      · rename_i f m1 ha
        exact mapFrom_wf die va leaf l _ h (putEntry_wf _ _ (allocRun_wf ha w))

theorem snoopSide_mem (lines : List Nat) (m : Mach) : (snoopSide lines m).mem = m.mem := by
  unfold snoopSide
  induction lines generalizing m with
  | nil => rfl
  | cons l t ih =>
    rw [List.foldl_cons, ih]
    split <;> rfl

/-- A write that finds its line's home taken changes no byte, and any write keeps the form. -/
theorem homeWrite_wf {m : Mach} (treat cp pa : Nat) (bs : List Byte) (w : Memory.wf m.mem = true) : Memory.wf (homeWrite m treat cp pa bs).mem = true := by
  unfold homeWrite
  split
  · show Memory.wf (snoopSide [pa / 128] m).mem = true
    rw [snoopSide_mem]; exact w
  · exact commitRun_wf _ _ (touchLine_wf _ _ _ w)

/-- The writes that wait, tried again. -/
theorem owedDrain_wf {m : Mach} (w : Memory.wf m.mem = true) : Memory.wf (owedDrain m).mem = true := by
  unfold owedDrain
  have h : ∀ (l : List Owed) (n : Mach), Memory.wf n.mem = true → Memory.wf (l.foldl (fun m o => homeWrite m o.treat o.cp o.pa o.bytes) n).mem = true := by
    intro l
    induction l with
    | nil => exact fun _ h => h
    | cons o t ih => exact fun n h => ih _ (homeWrite_wf _ _ _ _ h)
  exact h _ _ w

theorem mapUnder_wf {m m' : Mach} {job va die treat : Nat} {r w x sup chk : Bool} (h : mapUnder m job va die treat r w x sup chk = some m')
    (hw : Memory.wf m.mem = true) : Memory.wf m'.mem = true := by
  unfold mapUnder at h
  split at h
  · cases h
  · rename_i f m1 ha
    have h1 : Memory.wf m1.mem = true := allocRun_wf ha hw
    exact mapFrom_wf _ _ _ _ _ h h1

theorem mapFresh_wf {m m' : Mach} {job va die : Nat} {r w x sup chk : Bool} (h : mapFresh m job va die r w x sup chk = some m')
    (hw : Memory.wf m.mem = true) : Memory.wf m'.mem = true := mapUnder_wf h hw

theorem putLeaf_wf {m : Mach} (ea n : Nat) (new : Nat → Nat) (w : Memory.wf m.mem = true) : Memory.wf (putLeaf m ea n new).mem = true := by
  unfold putLeaf
  generalize List.range _ = l
  induction l generalizing m with
  | nil => exact w
  | cons k t ih => exact ih (putEntry_wf _ _ w)

end Sys2Proof.Laws
end

