-- ==== Sys2Proof/Laws/Dest.lean ====
section
/-! SUPPORT. What writing a result does, said once: registers read back what was written, every other register reads as before, and an
instruction that only writes registers completes. -/

namespace Sys2Proof.Laws

open Sys2Proof.Machine

/-! ### Lane sets -/

theorem mem_lanesOf {m : Mask} {L : Nat} : L ∈ lanesOf m ↔ L < 64 ∧ inM m L = true := by
  simp [lanesOf, inM]

theorem lanesOf_ne_nil {m : Mask} (h : m ≠ 0) : lanesOf m ≠ [] := by
  intro hn
  apply h
  apply BitVec.eq_of_getLsbD_eq
  intro i hi
  have : i ∉ lanesOf m := by rw [hn]; exact List.not_mem_nil
  rw [mem_lanesOf] at this
  simp only [inM, hi, true_and, Bool.not_eq_true] at this
  simpa using this

theorem low_mem {x : Ctx} (h : x.e ≠ 0) : x.low ∈ x.lanes := by
  unfold Ctx.low Ctx.lanes lowLane
  cases hl : lanesOf x.e with
  | nil => exact absurd hl (lanesOf_ne_nil h)
  | cons a t => exact List.mem_cons_self ..

theorem laneBit_getLsbD {L i : Nat} (hL : L < 64) : (laneBit L).getLsbD i = decide (i = L) := by
  unfold laneBit
  rw [BitVec.getLsbD_ofNat, Nat.testBit_two_pow]
  by_cases h : i = L
  · simp [h, hL]
  · have : L ≠ i := fun e => h e.symm
    simp [h, this]

theorem inM_setBit {m : Mask} {L i : Nat} (b : Bool) (hL : L < 64) : inM (setBit m L b) i = if i = L then b else inM m i := by
  unfold inM setBit
  cases b <;> simp only [if_true, if_false, Bool.false_eq_true, BitVec.getLsbD_or, BitVec.getLsbD_and, BitVec.getLsbD_not, laneBit_getLsbD hL]
  · by_cases h : i = L
    · subst h; simp
    · simp only [h, decide_false, Bool.not_false, Bool.and_true, if_false]
      by_cases hi : i < 64
      · simp [hi]
      · simp [BitVec.getLsbD_of_ge m i (by omega)]
  · by_cases h : i = L
    · subst h; simp
    · simp [h]

/-! ### One register -/

theorem vGet_vSet (c : Crew) (r L q K : Nat) (hL : L < 64) (hK : K < 64) (y : Half) :
    vGet (vSet c r L y) q K = if q = r ∧ K = L then y else vGet c q K := by
  unfold vGet vSet
  simp only [smGet_smSet]
  by_cases h : q = r ∧ K = L
  · simp [h.1, h.2]
  · have : 64 * q + K ≠ 64 * r + L := fun e => h (by omega)
    simp [this, h]

theorem vTag_vSetTag (c : Crew) (r q : Nat) (t : Tag) : vTag (vSetTag c r t) q = if q = r then t else vTag c q := by
  unfold vTag vSetTag; simp only [smGet_smSet]

theorem sGet_sSet (c : Crew) (r q : Nat) (y : Word) (t : Tag) : sGet (sSet c r y t) q = if q = r then y else sGet c q := by
  unfold sGet sSet; simp only [smGet_smSet]

theorem sTag_sSet (c : Crew) (r q : Nat) (y : Word) (t : Tag) : sTag (sSet c r y t) q = if q = r then t else sTag c q := by
  unfold sTag sSet; simp only [smGet_smSet]

theorem pGet_pSet (c : Crew) (r q : Nat) (y : Mask) : pGet (pSet c r y) q = if q = r then y else pGet c q := by
  unfold pGet pSet; simp only [smGet_smSet]

theorem pBit_pSetBit (c : Crew) (r q L K : Nat) (b : Bool) (hL : L < 64) :
    pBit (pSetBit c r L b) q K = if q = r ∧ K = L then b else pBit c q K := by
  unfold pBit pSetBit
  rw [pGet_pSet]
  by_cases h : q = r
  · subst h; simp [inM_setBit b hL]
  · simp [h]

theorem mGet_mSet (c : Crew) (r q : Nat) (y : Word) : mGet (mSet c r y) q = if q = r then y &&& lanesBelow c.width else mGet c q := by
  unfold mGet mSet; simp only [smGet_smSet]

@[simp] theorem vGet_vSetTag (c : Crew) (r q K : Nat) (t : Tag) : vGet (vSetTag c r t) q K = vGet c q K := rfl
@[simp] theorem vTag_vSet (c : Crew) (r L q : Nat) (y : Half) : vTag (vSet c r L y) q = vTag c q := rfl

/-- The two halves of a 64-bit value, joined again. -/
theorem halves (y : Word) : zx (lo32 y) ||| (zx (lo32 (y >>> 32)) <<< 32) = y := by
  apply BitVec.eq_of_getLsbD_eq
  intro i hi
  simp only [zx, lo32, BitVec.getLsbD_or, BitVec.getLsbD_setWidth, BitVec.getLsbD_shiftLeft, BitVec.getLsbD_ushiftRight]
  by_cases h : i < 32
  · simp [h, hi]
  · have h1 : i - 32 < 32 := by omega
    have h2 : 32 + (i - 32) = i := by omega
    have h3 : i - 32 < 64 := by omega
    simp [h, hi, h1, h2, h3]

theorem vGet64_vSet64_same (c : Crew) (r L : Nat) (hL : L < 64) (y : Word) : vGet64 (vSet64 c r L y) r L = y := by
  unfold vGet64 vSet64
  rw [vGet_vSet _ _ _ _ _ hL hL, vGet_vSet _ _ _ _ _ hL hL, vGet_vSet _ _ _ _ _ hL hL]
  simp [halves]

theorem vGet_vSet64 (c : Crew) (r L q K : Nat) (hL : L < 64) (hK : K < 64) (y : Word) (h : ¬ (K = L ∧ (q = r ∨ q = r + 1))) :
    vGet (vSet64 c r L y) q K = vGet c q K := by
  unfold vSet64
  rw [vGet_vSet _ _ _ _ _ hL hK, vGet_vSet _ _ _ _ _ hL hK]
  have h1 : ¬ (q = r + 1 ∧ K = L) := fun e => h ⟨e.2, .inr e.1⟩
  have h2 : ¬ (q = r ∧ K = L) := fun e => h ⟨e.2, .inl e.1⟩
  simp [h1, h2]

/-! ### Frames -/

theorem kept_refl (l : List Nat) (d : Nat → List (Nat × Nat)) (c : Crew) : RegsKept l d c c :=
  ⟨fun _ _ _ _ => rfl, fun _ _ => rfl, fun _ _ => ⟨rfl, rfl⟩, fun _ _ _ => rfl, fun _ _ => rfl, rfl, rfl⟩

theorem kept_trans {l : List Nat} {d : Nat → List (Nat × Nat)} {a b c : Crew} (h : RegsKept l d a b) (k : RegsKept l d b c) : RegsKept l d a c :=
  ⟨fun r L h1 h2 => (k.v r L h1 h2).trans (h.v r L h1 h2), fun r h1 => (k.vtag r h1).trans (h.vtag r h1),
   fun r h1 => ⟨(k.s r h1).1.trans (h.s r h1).1, (k.s r h1).2.trans (h.s r h1).2⟩, fun r L h1 => (k.p r L h1).trans (h.p r L h1),
   fun r h1 => (k.m r h1).trans (h.m r h1), k.h.trans h.h, k.acc.trans h.acc⟩

theorem kept_mono {l l' : List Nat} {d d' : Nat → List (Nat × Nat)} {a b : Crew} (h : RegsKept l d a b)
    (hl : ∀ L ∈ l, ∀ q ∈ d L, L ∈ l' ∧ q ∈ d' L) : RegsKept l' d' a b :=
  ⟨fun r L h1 h2 => h.v r L h1 (fun e => h2 (hl L e.1 _ e.2)), fun r h1 => h.vtag r (fun L hL hq => h1 L (hl L hL _ hq).1 (hl L hL _ hq).2),
   fun r h1 => h.s r (fun L hL hq => h1 L (hl L hL _ hq).1 (hl L hL _ hq).2), fun r L h1 => h.p r L (fun e => h1 (hl L e.1 _ e.2)),
   fun r h1 => h.m r (fun L hL hq => h1 L (hl L hL _ hq).1 (hl L hL _ hq).2), h.h, h.acc⟩

/-- Only the registers of two crews differ. -/
def RegsOnly (c c' : Crew) : Prop := c' = { c with v := c'.v, vtag := c'.vtag, s := c'.s, stag := c'.stag, p := c'.p, m := c'.m }

theorem regsOnly_trans {a b c : Crew} (h : RegsOnly a b) (k : RegsOnly b c) : RegsOnly a c := by
  unfold RegsOnly at *; rw [k, h]

theorem vSetTag_kept (c : Crew) (r : Nat) (t : Tag) (L : Nat) (d : Nat → List (Nat × Nat)) (hd : (0, r) ∈ d L) : RegsKept [L] d c (vSetTag c r t) := by
  refine ⟨fun _ _ _ _ => rfl, fun q h => ?_, fun _ _ => ⟨rfl, rfl⟩, fun _ _ _ => rfl, fun _ _ => rfl, rfl, rfl⟩
  rw [vTag_vSetTag]
  have hq : q ≠ r := fun e => h L (List.mem_singleton.mpr rfl) (e ▸ hd)
  simp [hq]

theorem vSet_kept (c : Crew) (r L : Nat) (hL : L < 64) (y : Half) (d : Nat → List (Nat × Nat)) (hd : (0, r) ∈ d L) : RegsKept [L] d c (vSet c r L y) := by
  refine ⟨fun q K hK h => ?_, fun _ _ => rfl, fun _ _ => ⟨rfl, rfl⟩, fun _ _ _ => rfl, fun _ _ => rfl, rfl, rfl⟩
  rw [vGet_vSet _ _ _ _ _ hL hK]
  have hq : ¬ (q = r ∧ K = L) := fun e => h ⟨by simp [e.2], by rw [e.1, e.2]; exact hd⟩
  simp [hq]

theorem sSet_kept (c : Crew) (r L : Nat) (y : Word) (t : Tag) (d : Nat → List (Nat × Nat)) (hd : (1, r) ∈ d L) : RegsKept [L] d c (sSet c r y t) := by
  refine ⟨fun _ _ _ _ => rfl, fun _ _ => rfl, fun q h => ?_, fun _ _ _ => rfl, fun _ _ => rfl, rfl, rfl⟩
  have hq : q ≠ r := fun e => h L (List.mem_singleton.mpr rfl) (e ▸ hd)
  rw [sGet_sSet, sTag_sSet]; simp [hq]

theorem pSetBit_kept (c : Crew) (r L : Nat) (hL : L < 64) (b : Bool) (d : Nat → List (Nat × Nat)) (hd : (2, r) ∈ d L) :
    RegsKept [L] d c (pSetBit c r L b) := by
  refine ⟨fun _ _ _ _ => rfl, fun _ _ => rfl, fun _ _ => ⟨rfl, rfl⟩, fun q K h => ?_, fun _ _ => rfl, rfl, rfl⟩
  rw [pBit_pSetBit _ _ _ _ _ _ hL]
  have hq : ¬ (q = r ∧ K = L) := fun e => h ⟨by simp [e.2], by rw [e.1, e.2]; exact hd⟩
  simp [hq]

theorem mSet_kept (c : Crew) (r L : Nat) (y : Word) (d : Nat → List (Nat × Nat)) (hd : (3, r) ∈ d L) : RegsKept [L] d c (mSet c r y) := by
  refine ⟨fun _ _ _ _ => rfl, fun _ _ => rfl, fun _ _ => ⟨rfl, rfl⟩, fun _ _ _ => rfl, fun q h => ?_, rfl, rfl⟩
  have hq : q ≠ r := fun e => h L (List.mem_singleton.mpr rfl) (e ▸ hd)
  rw [mGet_mSet]; simp [hq]

theorem vSet_only (c : Crew) (r L : Nat) (y : Half) : RegsOnly c (vSet c r L y) := rfl
theorem vSetTag_only (c : Crew) (r : Nat) (t : Tag) : RegsOnly c (vSetTag c r t) := rfl

theorem reg_kept {w : Nat} (hw : w = 32 ∨ w = 64) (t : Tag) {L : Nat} (hL : L < 64) (q : Nat) (y : Word) (c : Crew) {d : Nat → List (Nat × Nat)}
    (hd : d L = (List.range (1 * (w / 32))).map (fun j => (0, q + j))) :
    RegsKept [L] d c (if w = 64 then vSetTag (vSetTag (vSet64 c q L y) q t) (q + 1) t else vSetTag (vSet c q L (lo32 y)) q t) ∧
    RegsOnly c (if w = 64 then vSetTag (vSetTag (vSet64 c q L y) q t) (q + 1) t else vSetTag (vSet c q L (lo32 y)) q t) := by
  rcases hw with rfl | rfl
  · have h0 : (0, q) ∈ d L := by rw [hd]; simp
    rw [if_neg (by decide)]
    generalize hc : vSet c q L (lo32 y) = c1
    have k1 : RegsKept [L] d c c1 := hc ▸ vSet_kept c q L hL _ d h0
    have o1 : RegsOnly c c1 := hc ▸ vSet_only c q L _
    exact ⟨kept_trans k1 (vSetTag_kept c1 q t L d h0), regsOnly_trans o1 (vSetTag_only c1 q t)⟩
  · have h0 : (0, q) ∈ d L := by rw [hd]; simp [List.range_succ]
    have h1 : (0, q + 1) ∈ d L := by rw [hd]; simp [List.range_succ]
    rw [if_pos rfl]
    unfold vSet64
    generalize hc : vSet c q L (lo32 y) = c1
    have k1 : RegsKept [L] d c c1 := hc ▸ vSet_kept c q L hL _ d h0
    have o1 : RegsOnly c c1 := hc ▸ vSet_only c q L _
    generalize hc2 : vSet c1 (q + 1) L (lo32 (y >>> 32)) = c2
    have k2 : RegsKept [L] d c c2 := kept_trans k1 (hc2 ▸ vSet_kept c1 (q + 1) L hL _ d h1)
    have o2 : RegsOnly c c2 := regsOnly_trans o1 (hc2 ▸ vSet_only c1 (q + 1) L _)
    generalize hc3 : vSetTag c2 q t = c3
    have k3 : RegsKept [L] d c c3 := kept_trans k2 (hc3 ▸ vSetTag_kept c2 q t L d h0)
    have o3 : RegsOnly c c3 := regsOnly_trans o2 (hc3 ▸ vSetTag_only c2 q t)
    exact ⟨kept_trans k3 (vSetTag_kept c3 (q + 1) t L d h1), regsOnly_trans o3 (vSetTag_only c3 (q + 1) t)⟩

/-- One lane's write. -/
theorem putLane_kept {x : Ctx} {w : Nat} (hw : w = 32 ∨ w = 64) (sgn : Bool) (t : Tag) {L : Nat} (hL : L < 64) (y : Word) (c : Crew) :
    RegsKept [L] (destRegs x w 1) c (putLane x w sgn t x.f.d L y c) ∧ RegsOnly c (putLane x w sgn t x.f.d L y c) := by
  have hd : destRegs x w 1 L = regsOf x.cd { cls := 0, bits := w, n := 1 } [L] x.f.d := rfl
  generalize destRegs x w 1 = d at hd
  generalize x.f.d = o at hd
  cases o <;> simp only [putLane]
  · exact reg_kept hw t hL _ y c hd
  · exact ⟨sSet_kept _ _ _ _ _ _ (by rw [hd]; rcases hw with rfl | rfl <;> simp [regsOf]), rfl⟩
  · exact ⟨pSetBit_kept _ _ _ hL _ _ (by rw [hd]; simp [regsOf]), rfl⟩
  · exact ⟨kept_refl _ _ _, rfl⟩
  · exact ⟨mSet_kept _ _ _ _ _ (by rw [hd]; simp [regsOf]), rfl⟩
  · exact ⟨kept_refl _ _ _, rfl⟩
  · exact ⟨kept_refl _ _ _, rfl⟩
  · exact ⟨kept_refl _ _ _, rfl⟩
  · exact ⟨kept_refl _ _ _, rfl⟩
  · exact ⟨kept_refl _ _ _, rfl⟩
  · exact ⟨kept_refl _ _ _, rfl⟩
  · rename_i r k
    exact reg_kept hw t hL (effReg x.cd r k L) y c (by rw [hd]; simp [regsOf])

theorem fold_kept {dst : Nat → List (Nat × Nat)} (g : Crew → Nat → Crew) (l : List Nat) (h : ∀ L ∈ l, ∀ c, RegsKept [L] dst c (g c L) ∧ RegsOnly c (g c L))
    (c : Crew) : RegsKept l dst c (l.foldl g c) ∧ RegsOnly c (l.foldl g c) := by
  induction l generalizing c with
  | nil => exact ⟨kept_refl _ _ _, rfl⟩
  | cons L t ih =>
    have h1 := h L (List.mem_cons_self ..) c
    have h2 := ih (fun K hK => h K (List.mem_cons_of_mem _ hK)) (g c L)
    refine ⟨kept_trans (kept_mono h1.1 ?_) (kept_mono h2.1 ?_), regsOnly_trans h1.2 h2.2⟩
    · intro K hK q hq; rw [List.mem_singleton] at hK; subst hK; exact ⟨List.mem_cons_self .., hq⟩
    · intro K hK q hq; exact ⟨List.mem_cons_of_mem _ hK, hq⟩

theorem lanes_lt {x : Ctx} {L : Nat} (h : L ∈ x.lanes) : L < 64 := (mem_lanesOf.mp h).1

theorem dLanes_mem {x : Ctx} (he : x.e ≠ 0) (o : Opd) : ∀ L ∈ dLanes x o, L ∈ x.lanes := by
  intro L hL
  unfold dLanes at hL
  split at hL <;> first | (rw [List.mem_singleton] at hL; subst hL; exact low_mem he) | exact hL

/-- Writing a result changes the destination's registers in the lanes of E and nothing else. -/
theorem putRes_kept {x : Ctx} (he : x.e ≠ 0) {w : Nat} (hw : w = 32 ∨ w = 64) (sgn : Bool) (t : Tag) (y : Nat → Word) (c : Crew) :
    RegsKept x.lanes (destRegs x w 1) c (putRes x w sgn t y c) ∧ RegsOnly c (putRes x w sgn t y c) := by
  have h := fold_kept (dst := destRegs x w 1) (fun c L => putLane x w sgn t x.f.d L (y L) c) (dLanes x x.f.d)
    (fun L hL c => putLane_kept hw sgn t (lanes_lt (dLanes_mem he _ L hL)) (y L) c) c
  exact ⟨kept_mono h.1 (fun L hL q hq => ⟨dLanes_mem he _ L hL, hq⟩), h.2⟩

theorem putPred_kept {x : Ctx} (y : Nat → Bool) (c : Crew) :
    RegsKept x.lanes (destRegs x 32 1) c (putPred x y c) ∧ RegsOnly c (putPred x y c) := by
  unfold putPred
  split
  · rename_i r hr
    exact fold_kept (dst := destRegs x 32 1) (fun c L => pSetBit c r.val L (y L)) x.lanes
      (fun L hL c => ⟨pSetBit_kept _ _ _ (lanes_lt hL) _ _ (by unfold destRegs; rw [hr]; simp [regsOf]), rfl⟩) c
  · exact ⟨kept_refl _ _ _, rfl⟩

/-! ### Delivery -/

theorem lanesOf_nodup (m : Mask) : (lanesOf m).Nodup := List.Nodup.sublist List.filter_sublist List.nodup_range

theorem dLanes_nodup (x : Ctx) (o : Opd) : (dLanes x o).Nodup := by
  unfold dLanes; split <;> first | exact List.pairwise_singleton _ _ | exact lanesOf_nodup _

/-- What each lane's step brings about and the other lanes' steps leave alone holds of every lane at the end. -/
theorem fold_each {α : Type} (Q : Nat → α → Prop) (g : α → Nat → α) (l : List Nat) (hn : l.Nodup) (h1 : ∀ L ∈ l, ∀ c, Q L (g c L))
    (h2 : ∀ L ∈ l, ∀ K ∈ l, K ≠ L → ∀ c, Q L c → Q L (g c K)) (c : α) : ∀ L ∈ l, Q L (l.foldl g c) := by
  induction l generalizing c with
  | nil => intro L hL; cases hL
  | cons K t ih =>
    intro L hL
    have hn' := List.nodup_cons.mp hn
    by_cases hLt : L ∈ t
    · exact ih hn'.2 (fun L hL => h1 L (List.mem_cons_of_mem _ hL))
        (fun L hL K hK => h2 L (List.mem_cons_of_mem _ hL) K (List.mem_cons_of_mem _ hK)) (g c K) L hLt
    · have hLK : L = K := by rcases List.mem_cons.mp hL with h | h; exact h; exact absurd h hLt
      subst hLK
      have keep : ∀ (t' : List Nat), (∀ K ∈ t', K ∈ L :: t ∧ K ≠ L) → ∀ c, Q L c → Q L (t'.foldl g c) := by
        intro t'
        induction t' with
        | nil => exact fun _ _ hc => hc
        | cons K u ihu =>
          intro hu c hc
          exact ihu (fun J hJ => hu J (List.mem_cons_of_mem _ hJ)) _ (h2 L (List.mem_cons_self ..) K (hu K (List.mem_cons_self ..)).1 (hu K (List.mem_cons_self ..)).2 c hc)
      exact keep t (fun K hK => ⟨List.mem_cons_of_mem _ hK, fun e => hn'.1 (e ▸ hK)⟩) _ (h1 L (List.mem_cons_self ..) c)

/-- Two values of `w` bits are the same. -/
def sameAt (w : Nat) (a b : Word) : Prop := if w = 64 then a = b else lo32 a = lo32 b

theorem sameAt_refl (w : Nat) (a : Word) : sameAt w a a := by unfold sameAt; split <;> rfl

/-- A lane's `v` register or pair holds a value with a tag. -/
def inReg (w : Nat) (t : Tag) (y : Word) (L q : Nat) (c : Crew) : Prop :=
  if w = 64 then vGet64 c q L = y ∧ vTag c q = t ∧ vTag c (q + 1) = t else vGet c q L = lo32 y ∧ vTag c q = t

theorem inReg_put {w : Nat} (t : Tag) {L : Nat} (hL : L < 64) (q : Nat) {y z : Word} (h : sameAt w y z) (c : Crew) :
    inReg w t z L q (if w = 64 then vSetTag (vSetTag (vSet64 c q L y) q t) (q + 1) t else vSetTag (vSet c q L (lo32 y)) q t) := by
  unfold inReg
  unfold sameAt at h
  split
  · rename_i hw
    rw [if_pos hw] at h
    refine ⟨?_, ?_, ?_⟩
    · rw [← h]; exact vGet64_vSet64_same c q L hL y
    · rw [vTag_vSetTag, vTag_vSetTag]; simp
    · rw [vTag_vSetTag]; simp
  · rename_i hw
    rw [if_neg hw] at h
    refine ⟨?_, by rw [vTag_vSetTag]; simp⟩
    rw [vGet_vSetTag, vGet_vSet _ _ _ _ _ hL hL]; simp [h]

theorem inReg_other {w : Nat} {t : Tag} {L K : Nat} (hL : L < 64) (hK : K < 64) (hne : L ≠ K) (q r : Nat) {y : Word} (z : Word) {c : Crew}
    (h : inReg w t y L q c) : inReg w t y L q (if w = 64 then vSetTag (vSetTag (vSet64 c r K z) r t) (r + 1) t else vSetTag (vSet c r K (lo32 z)) r t) := by
  have tg : ∀ (a b : Nat) (c : Crew), vTag c a = t → vTag (vSetTag c b t) a = t := by
    intro a b c hc; rw [vTag_vSetTag]; split <;> first | rfl | exact hc
  unfold inReg at *
  split
  · rename_i hw
    rw [if_pos hw] at h
    refine ⟨?_, tg _ _ _ (tg _ _ _ ?_), tg _ _ _ (tg _ _ _ ?_)⟩
    · rw [← h.1]
      unfold vGet64
      simp only [vGet_vSetTag]
      rw [vGet_vSet64 _ _ _ _ _ hK hL _ (fun e => hne e.1), vGet_vSet64 _ _ _ _ _ hK hL _ (fun e => hne e.1)]
    · exact h.2.1
    · exact h.2.2
  · rename_i hw
    rw [if_neg hw] at h
    refine ⟨?_, tg _ _ _ h.2⟩
    rw [← h.1, vGet_vSetTag, vGet_vSet _ _ _ _ _ hK hL]
    simp [hne]

/-- Writing a result delivers it. -/
theorem putRes_delivered {x : Ctx} (he : x.e ≠ 0) {w : Nat} (sgn : Bool) (t : Tag) {y z : Nat → Word} (h : ∀ L ∈ x.lanes, sameAt w (y L) (z L))
    (c : Crew) : Delivered x w sgn t z (putRes x w sgn t y c) := by
  have hlow := h _ (low_mem he)
  have hm : ∀ L ∈ x.lanes, L < 64 := fun L hL => lanes_lt hL
  unfold Delivered putRes
  cases ho : x.f.d <;> simp only [dLanes, putLane, List.foldl_cons, List.foldl_nil]
  · rename_i r
    exact fold_each (fun L c => inReg w t (z L) L r.toNat c) _ _ (lanesOf_nodup _) (fun L hL c => inReg_put t (hm L hL) _ (h L hL) c)
      (fun L hL K hK hne c hc => inReg_other (hm L hL) (hm K hK) (fun e => hne e.symm) _ _ _ hc) c
  · rename_i r
    rw [sGet_sSet, sTag_sSet]
    unfold sameAt at hlow
    by_cases hw : w = 64 <;> simp [hw] at hlow ⊢ <;> simp [hlow]
  · rename_i r
    refine fold_each (fun L c => pBit c r.val L = (if w = 64 then z L != 0 else lo32 (z L) != 0)) _ _ (lanesOf_nodup _) (fun L hL c => ?_)
      (fun L hL K hK hne c hc => ?_) c
    · have := h L hL
      rw [pBit_pSetBit _ _ _ _ _ _ (hm L hL)]
      unfold sameAt at this
      by_cases hw : w = 64 <;> simp [hw] at this ⊢ <;> simp [this]
    · rw [pBit_pSetBit _ _ _ _ _ _ (hm K hK)]; simp [hne.symm, hc]
  · rename_i r
    intro hw
    unfold sameAt at hlow
    rw [if_pos hw] at hlow
    rw [mGet_mSet, if_pos rfl, hlow]; rfl
  · rename_i r k
    exact fold_each (fun L c => inReg w t (z L) L (effReg x.cd r k L) c) _ _ (lanesOf_nodup _) (fun L hL c => inReg_put t (hm L hL) _ (h L hL) c)
      (fun L hL K hK hne c hc => inReg_other (hm L hL) (hm K hK) (fun e => hne e.symm) _ _ _ hc) c

theorem putPred_delivered {x : Ctx} (y : Nat → Bool) (c : Crew) : DeliveredP x y (putPred x y c) := by
  unfold DeliveredP putPred
  cases ho : x.f.d <;> simp only
  rename_i r
  exact fold_each (fun L c => pBit c r.val L = y L) _ _ (lanesOf_nodup _)
    (fun L hL c => by rw [pBit_pSetBit _ _ _ _ _ _ (lanes_lt hL)]; simp)
    (fun L hL K hK hne c hc => by rw [pBit_pSetBit _ _ _ _ _ _ (lanes_lt hK)]; simp [hne.symm, hc]) c

/-! ### The issue -/

theorem setPcs_eq (c : Crew) (m : Mask) (p : Word) : setPcs c m p = { c with pcs := (setPcs c m p).pcs } := by
  unfold setPcs
  generalize lanesOf m = l
  induction l generalizing c with
  | nil => rfl
  | cons L t ih => simp only [List.foldl_cons]; rw [ih]; rfl

theorem setPcs_pcOf (c : Crew) (m : Mask) (p : Word) :
    (setPcs c m p).pcs.length = c.pcs.length ∧ ∀ L, L < c.pcs.length → pcOf (setPcs c m p) L = if inM m L then p else pcOf c L := by
  have key : ∀ (l : List Nat) (c : Crew), (l.foldl (fun c L => setPc c L p) c).pcs.length = c.pcs.length ∧
      ∀ L, L < c.pcs.length → pcOf (l.foldl (fun c L => setPc c L p) c) L = if L ∈ l then p else pcOf c L := by
    intro l
    induction l with
    | nil => intro c; exact ⟨rfl, fun L _ => by simp⟩
    | cons K t ih =>
      intro c
      have hl : (setPc c K p).pcs.length = c.pcs.length := by simp [setPc]
      refine ⟨(ih (setPc c K p)).1.trans hl, fun L hL => ?_⟩
      have hL' : L < (setPc c K p).pcs.length := by omega
      refine ((ih (setPc c K p)).2 L hL').trans ?_
      by_cases ht : L ∈ t
      · simp [ht]
      · by_cases hK : L = K
        · subst hK; simp [ht, pcOf, setPc, hL]
        · have hK' : K ≠ L := fun e => hK e.symm
          simp [ht, hK, pcOf, setPc, hK']
  refine ⟨(key _ c).1, fun L hL => ?_⟩
  have h := (key (lanesOf m) c).2 L hL
  unfold setPcs
  rw [h]
  by_cases hm : inM m L
  · have : L < 64 := by
      unfold inM at hm
      exact Decidable.byContradiction (fun hn => by rw [BitVec.getLsbD_of_ge m L (by omega)] at hm; cases hm)
    simp [mem_lanesOf, this, hm]
  · simp [mem_lanesOf, hm]

theorem retire_eq (c : Crew) (x : Ctx) : ∃ pd bl st ah, retire c x =
    { c with pcs := (setPcs c x.active (x.pc + w64 x.len)).pcs, pend := pd, stamp := st, holdTo := x.clk + countOf x.f, stall := none, demoted := false,
             placed := 0, viewWait := [], atHome := ah, boostLeft := bl } := by
  unfold retire
  rw [setPcs_eq]
  exact ⟨_, _, _, _, rfl⟩

theorem unpoison_eq (c : Crew) (x : Ctx) (e : Entry) (k : Crew) : ∃ po, unpoison c x e k = { k with poison := po } := by
  unfold unpoison; split <;> exact ⟨_, rfl⟩

theorem addPend_eq (k : Crew) (w : List ((Nat × Nat) × Mask)) (l : List Pend) : ∃ pd, addPend k w l = { k with pend := pd } := ⟨_, rfl⟩

theorem issued_eq (m : Mach) (pc : Word) (op : Nat) (f : Fields) :
    issued m pc op f = { m with cur := (issued m pc op f).cur, freeCtr := (issued m pc op f).freeCtr } := rfl

/-- The crew of the issued machine: PCs, counts, cleared errors and the marks of an issue differ, nothing else. -/
theorem issued_cur (m : Mach) (pc : Word) (op : Nat) (f : Fields) : ∃ pd po bl st ah, (issued m pc op f).cur =
    { m.cur with pcs := (setPcs m.cur (issueCtx m pc op f).active (pc + w64 (lenOf f))).pcs, pend := pd, poison := po, stamp := st,
                 holdTo := m.clk + countOf f, stall := none, demoted := false, placed := 0, viewWait := [], atHome := ah, boostLeft := bl } := by
  obtain ⟨pd, bl, st, ah, h1⟩ := retire_eq m.cur (issueCtx m pc op f)
  obtain ⟨pd', h2⟩ := addPend_eq (retire m.cur (issueCtx m pc op f)) (written m.cur (issueCtx m pc op f) (entryFor m m.cur op f))
    (newPend m.cur (issueCtx m pc op f) (entryFor m m.cur op f))
  obtain ⟨po, h3⟩ := unpoison_eq m.cur (issueCtx m pc op f) (entryFor m m.cur op f)
    (addPend (retire m.cur (issueCtx m pc op f)) (written m.cur (issueCtx m pc op f) (entryFor m m.cur op f))
      (newPend m.cur (issueCtx m pc op f) (entryFor m m.cur op f)))
  refine ⟨pd', po, bl, st, ah, ?_⟩
  show unpoison m.cur (issueCtx m pc op f) (entryFor m m.cur op f) _ = _
  rw [h3, h2, h1]
  rfl

theorem issued_kept (m : Mach) (pc : Word) (op : Nat) (f : Fields) : CrewKept m.cur (issued m pc op f).cur m.cur.flags m.cur.draw := by
  obtain ⟨_, _, _, _, _, h⟩ := issued_cur m pc op f
  unfold CrewKept; rw [h]

theorem issued_past (m : Mach) (pc : Word) (op : Nat) (f : Fields) : PcsPast (issueCtx m pc op f) m.cur (issued m pc op f).cur := by
  have h := setPcs_pcOf m.cur (issueCtx m pc op f).active (pc + w64 (lenOf f))
  obtain ⟨_, _, _, _, _, h'⟩ := issued_cur m pc op f
  unfold PcsPast pcOf
  rw [h']
  exact ⟨h.1, h.2⟩

/-- The registers of the issued machine are those of the machine before it. -/
theorem issued_regs (m : Mach) (pc : Word) (op : Nat) (f : Fields) (l : List Nat) (d : Nat → List (Nat × Nat)) :
    RegsKept l d m.cur (issued m pc op f).cur := by
  obtain ⟨_, _, _, _, _, h⟩ := issued_cur m pc op f
  rw [h]; exact ⟨fun _ _ _ _ => rfl, fun _ _ => rfl, fun _ _ => ⟨rfl, rfl⟩, fun _ _ _ => rfl, fun _ _ => rfl, rfl, rfl⟩

/-- A crew that differs from the issued one in registers, flags and draw index differs so from the one before. -/
theorem kept_of {m : Mach} {pc : Word} {op : Nat} {f : Fields} {c : Crew} {fl : BitVec 5} {dr : Half}
    (h : c = { (issued m pc op f).cur with v := c.v, vtag := c.vtag, s := c.s, stag := c.stag, p := c.p, m := c.m, flags := fl, draw := dr }) :
    CrewKept m.cur c fl dr := by
  obtain ⟨_, _, _, _, _, h'⟩ := issued_cur m pc op f
  unfold CrewKept
  rw [h'] at h
  rw [h]

theorem issued_flags (m : Mach) (pc : Word) (op : Nat) (f : Fields) :
    (issued m pc op f).cur.flags = m.cur.flags ∧ (issued m pc op f).cur.draw = m.cur.draw := by
  obtain ⟨_, _, _, _, _, h⟩ := issued_cur m pc op f
  rw [h]; exact ⟨rfl, rfl⟩

theorem regsOnly_flags {m : Mach} {pc : Word} {op : Nat} {f : Fields} {c : Crew} (h : RegsOnly (issued m pc op f).cur c) :
    c = { (issued m pc op f).cur with v := c.v, vtag := c.vtag, s := c.s, stag := c.stag, p := c.p, m := c.m, flags := m.cur.flags,
                                      draw := m.cur.draw } := by
  rw [← (issued_flags m pc op f).1, ← (issued_flags m pc op f).2]; exact h

theorem regStep_of {s : State} {pc : Word} {op : Nat} {f : Fields} {c : Crew} {fl : BitVec 5} {dr : Half} {dst : Nat → List (Nat × Nat)} {fc : Nat}
    (h : c = { (issued s.m pc op f).cur with v := c.v, vtag := c.vtag, s := c.s, stag := c.stag, p := c.p, m := c.m, flags := fl, draw := dr })
    (k : RegsKept (issueCtx s.m pc op f).lanes dst (issued s.m pc op f).cur c) :
    RegStep s { s with m := { issued s.m pc op f with cur := c, freeCtr := fc } } (issueCtx s.m pc op f) dst fl dr := by
  refine ⟨⟨rfl, rfl, ?_, fun _ => rfl⟩, kept_of h, kept_trans (issued_regs _ _ _ _ _ _) k, ?_⟩
  · rw [issued_eq]
  · have hp : c.pcs = (issued s.m pc op f).cur.pcs := by rw [h]
    have := issued_past s.m pc op f
    unfold PcsPast pcOf at *
    rw [hp]; exact this

/-! ### Instructions that only write registers -/

/-- An instruction whose checks pass and whose meaning succeeds completes. -/
theorem runInstr_ok {s : State} {op : Nat} {f : Fields} {pc : Word} (h : Issues s op f pc) {body : Ctx → Mach → R Mach} {m' : Mach}
    (hb : body (issueCtx s.m pc op f) (issued s.m pc op f) = .ok m') : runInstr op body f s = .next { s with m := m' } := by
  rw [runInstr_issue h.ready h.noLate, issueAt_ok h.lanes h.checks hb]

/-- ... and one whose meaning traps or stalls ends there. -/
theorem runInstr_halt {s : State} {op : Nat} {f : Fields} {pc : Word} (h : Issues s op f pc) {body : Ctx → Mach → R Mach} {e : Halt}
    (hb : body (issueCtx s.m pc op f) (issued s.m pc op f) = .error e) :
    runInstr op body f s = .next { s with m := halted s.m s.m.cur.tid pc e } := by
  rw [runInstr_issue h.ready h.noLate, issueAt_halt h.lanes h.checks hb]

/-- The result instructions: D receives per lane a value of `w` bits. -/
theorem gives_of {s : State} {i : Instr} {op : Nat} {f : Fields} {pc : Word} (h : Issues s op f pc) {w : Nat} (hw : w = 32 ∨ w = 64) {sgn : Bool}
    {t : Ctx → Tag} {y z : Ctx → Nat → Word} {body : Ctx → Crew → Crew} (hi : exec i s = runInstr op (onCrew body) f s)
    (hb : ∀ c, body (issueCtx s.m pc op f) c = putRes (issueCtx s.m pc op f) w sgn (t (issueCtx s.m pc op f)) (y (issueCtx s.m pc op f)) c)
    (hy : ∀ L ∈ (issueCtx s.m pc op f).lanes, sameAt w (y (issueCtx s.m pc op f) L) (z (issueCtx s.m pc op f) L)) : Gives s i op f pc w sgn t z := by
  have hk := putRes_kept h.lanes hw sgn (t (issueCtx s.m pc op f)) (y (issueCtx s.m pc op f)) (issued s.m pc op f).cur
  refine ⟨_, hi.trans (runInstr_ok h (m' := { issued s.m pc op f with cur := putRes _ w sgn _ (y (issueCtx s.m pc op f)) (issued s.m pc op f).cur })
    (by unfold onCrew; rw [hb])), putRes_delivered h.lanes sgn _ hy _, ?_⟩
  exact regStep_of (regsOnly_flags hk.2) hk.1

theorem givesP_of {s : State} {i : Instr} {op : Nat} {f : Fields} {pc : Word} (h : Issues s op f pc) {y : Ctx → Nat → Bool} {body : Ctx → Crew → Crew}
    (hi : exec i s = runInstr op (onCrew body) f s)
    (hb : ∀ c, body (issueCtx s.m pc op f) c = putPred (issueCtx s.m pc op f) (y (issueCtx s.m pc op f)) c) : GivesP s i op f pc y := by
  have hk := putPred_kept (x := issueCtx s.m pc op f) (y (issueCtx s.m pc op f)) (issued s.m pc op f).cur
  refine ⟨_, hi.trans (runInstr_ok h (m' := { issued s.m pc op f with cur := putPred _ (y (issueCtx s.m pc op f)) (issued s.m pc op f).cur })
    (by unfold onCrew; rw [hb])), putPred_delivered _ _, ?_⟩
  exact regStep_of (regsOnly_flags hk.2) hk.1

end Sys2Proof.Laws
end

