-- ==== Sys2Proof/Laws/Frames.lean ====
section
/-! SUPPORT. When a die's frames suffice, mapping answers: the allocator, one mapped page, and a run of read-only pages. What fills and moves whole frames
keeps the canonical form of memory. -/

namespace Sys2Proof.Laws

open Sys2Proof.Machine

/-- The first stack of die 0 is there, and n of its frames are free. -/
def FramesFree (m : Mach) (n : Nat) : Prop := 0 ∉ m.stacksOff ∧ smGet 0 m.frames 0 + n ≤ 2 ^ 23

/-- A frame of die 0 is found, and one less is free. -/
theorem allocFrame_free {m : Mach} {n : Nat} (h : FramesFree m (n + 1)) : ∃ f m', allocFrame m 0 = some (f, m') ∧ FramesFree m' n := by
  obtain ⟨h1, h2⟩ := h
  have hs : ∃ t, stacksFor m 0 = 0 :: t := by
    refine ⟨[1].filter (fun s => !m.stacksOff.contains s), ?_⟩
    simp [stacksFor, List.range, List.range.loop, h1]
  obtain ⟨t, hs⟩ := hs
  have h24 : ¬ (2 ^ 24 < 2 ^ 23 + smGet 0 m.frames 0 + 1) := by simp only [Nat.reducePow] at h2 ⊢; omega
  have hr : ∃ f, stackRun m 0 1 = some (f, clearFrame { m with frames := smSet 0 m.frames 0 (smGet 0 m.frames 0 + 1) } f 4096) := by
    refine ⟨4096 * (2 ^ 23 + smGet 0 m.frames 0), ?_⟩
    have e1 : 2 ^ 23 + smGet 0 m.frames 0 + 1 - 2 ^ 23 = smGet 0 m.frames 0 + 1 := by omega
    simp only [stackRun, frameFrom, Nat.zero_mod, if_true, Nat.add_sub_cancel, Nat.div_one, Nat.mul_one, List.contains_eq_mem, decide_eq_true_eq, h1, h24, or_self, if_false, e1,
      Nat.zero_mul, Nat.zero_add]
  obtain ⟨f, hr⟩ := hr
  have ha : allocFrame m 0 = some (f, clearFrame { m with frames := smSet 0 m.frames 0 (smGet 0 m.frames 0 + 1) } f 4096) := by
    rw [allocFrame, allocRun, hs, List.findSome?_cons, hr]
  refine ⟨f, _, ha, h1, ?_⟩
  show smGet 0 (smSet 0 m.frames 0 (smGet 0 m.frames 0 + 1)) 0 + n ≤ 2 ^ 23
  rw [smGet_smSet_same]
  omega

/-- A page is mapped when a frame for each table on its way is free. -/
theorem mapFrom_free {m : Mach} {n l : Nat} (va leaf tb : Nat) (h : FramesFree m (n + l)) : ∃ m', mapFrom m 0 va leaf l tb = some m' ∧ FramesFree m' n := by
  induction l generalizing m tb with
  | zero => exact ⟨_, rfl, h⟩
  | succ l ih =>
    unfold mapFrom
    dsimp only
    split
    · exact ih _ ⟨h.1, by have := h.2; omega⟩
    · obtain ⟨f, m', ha, hf⟩ := allocFrame_free (n := n + l) h
      rw [ha]
      exact ih _ hf

/-- A fresh page, with its own frame. -/
theorem mapFresh_free {m : Mach} {n : Nat} (job va : Nat) (r w x sup chk : Bool) (h : FramesFree m (n + 6)) :
    ∃ m', mapFresh m job va 0 r w x sup chk = some m' ∧ FramesFree m' n := by
  obtain ⟨f, m', ha, hf⟩ := allocFrame_free (n := n + 5) h
  unfold mapFresh mapUnder
  rw [ha]
  exact mapFrom_free _ _ _ hf

/-- A run of read-only pages. -/
theorem mapReadOnly_free {m : Mach} {n : Nat} (job va : Nat) (h : FramesFree m (6 * n)) : ∃ m', mapReadOnly job 0 va n m = some m' := by
  induction n generalizing m va with
  | zero => exact ⟨_, rfl⟩
  | succ n ih =>
    unfold mapReadOnly
    split
    · exact ih _ ⟨h.1, by have := h.2; omega⟩
    · obtain ⟨m', hm, hf⟩ := mapFresh_free job va true false false false false (n := 6 * n) h
      rw [hm]
      exact ih _ hf

/-! ### The canonical form -/

theorem mapReadOnly_wf {n job die va : Nat} {m m' : Mach} (h : mapReadOnly job die va n m = some m') (w : Memory.wf m.mem = true) : Memory.wf m'.mem = true := by
  induction n generalizing m va with
  | zero => cases h; exact w
  | succ n ih =>
    unfold mapReadOnly at h
    split at h
    · exact ih h w
    · split at h
      · rename_i m1 hm
        exact ih h (mapFresh_wf hm w)
      · cases h

/-- Bytes put at addresses of a list, one after another. -/
theorem foldSet_wf {α : Type} (at' : α → Nat) (val : α → Byte) (es : List α) {l : List Host.Cell} (w : Memory.wf l = true) :
    Memory.wf (es.foldl (fun l e => memSet l (at' e) (val e)) l) = true := by
  induction es generalizing l with
  | nil => exact w
  | cons e t ih => exact ih (memSet_wf _ _ w)

theorem copyFrame_wf {m : Mach} (src dst len : Nat) (w : Memory.wf m.mem = true) : Memory.wf (copyFrame m src dst len).mem = true :=
  foldSet_wf _ _ _ (memory_wf_filter _ w)

theorem restorePage_wf (img : List Host.Cell) {l : List Host.Cell} (f : Nat × Nat × Nat) (w : Memory.wf l = true) : Memory.wf (restorePage img l f) = true :=
  foldSet_wf _ _ _ (memory_wf_filter _ w)

theorem jobRestore_wf {m : Mach} (job : Nat) (w : Memory.wf m.mem = true) : Memory.wf (jobRestore m job).mem = true := by
  unfold jobRestore
  split
  · exact w
  · rename_i j _
    split
    · show Memory.wf ((jobPages m job).foldl (restorePage j.image) m.mem) = true
      generalize jobPages m job = ps
      generalize m.mem = l at w
      induction ps generalizing l with
      | nil => exact w
      | cons p t ih => exact ih _ (restorePage_wf _ p w)
    · exact w

theorem putRange_wf {m : Mach} (treat base len : Nat) (cells : List (Nat × Byte)) (w : Memory.wf m.mem = true) :
    Memory.wf (putRange m treat base len cells).mem = true := by
  have hl : ∀ (f : Nat → Mach → Mach), (∀ l n, Memory.wf n.mem = true → Memory.wf (f l n).mem = true) → ∀ (ls : List Nat) (n : Mach),
      Memory.wf n.mem = true → Memory.wf (ls.foldl (fun m l => f l m) n).mem = true := by
    intro f hf ls
    induction ls with
    | nil => exact fun _ h => h
    | cons l t ih => exact fun n h => ih _ (hf l n h)
  unfold putRange
  dsimp only
  refine memPatch_wf _ _ (memory_wf_filter _ (hl (fun l m => touchLine m treat 0 l) (fun l n h => touchLine_wf _ _ _ h) _ _ ?_))
  exact hl (fun l m => homeWrite { m with owed := m.owed.filter (fun o => o.pa / 128 != l) } treat 0 (128 * l) _) (fun l n h => homeWrite_wf _ _ _ _ h) _ _ w

end Sys2Proof.Laws
end

