-- ==== Sys2Proof/Laws/Int.lean ====
section
/-! SUPPORT. The integer results in terms of words: what the exact computation, narrowed, is modulo 2^w. -/

namespace Sys2Proof.Laws

open Sys2Proof.Machine

theorem lo32_ofI (z : Int) : lo32 (ofI z) = BitVec.ofInt 32 z := by
  unfold lo32 ofI
  apply BitVec.eq_of_toNat_eq
  simp only [BitVec.toNat_setWidth, BitVec.toNat_ofInt]
  omega

theorem lo32_zx (a : Half) : lo32 (zx a) = a := by
  apply BitVec.eq_of_toNat_eq
  simp only [lo32, zx, BitVec.toNat_setWidth]
  omega

theorem lo32_add (a b : Word) : lo32 (a + b) = lo32 a + lo32 b := BitVec.setWidth_add a b (by decide)
theorem lo32_mul (a b : Word) : lo32 (a * b) = lo32 a * lo32 b := BitVec.setWidth_mul a b (by decide)
theorem lo32_neg (a : Word) : lo32 (-a) = -lo32 a := by
  apply BitVec.eq_of_toNat_eq
  simp only [lo32, BitVec.toNat_setWidth, BitVec.toNat_neg]
  omega
theorem lo32_sub (a b : Word) : lo32 (a - b) = lo32 a - lo32 b := by
  rw [BitVec.sub_eq_add_neg, lo32_add, lo32_neg, ← BitVec.sub_eq_add_neg]

theorem ofInt_nat32 (a : Word) : BitVec.ofInt 32 (a.toNat : Int) = lo32 a := by
  apply BitVec.eq_of_toNat_eq
  simp only [lo32, BitVec.toNat_setWidth, BitVec.toNat_ofInt]
  omega

/-- The integer value of an operand, narrowed again. -/
theorem ofInt_iVal (y : Nat) (a : Word) : BitVec.ofInt 32 (iVal y a) = lo32 a := by
  unfold iVal
  split
  · exact BitVec.ofInt_toInt
  · rw [← lo32_ofI]; unfold ofI; rw [BitVec.ofInt_toInt]
  · exact ofInt_nat32 a

theorem ofI_iVal {y : Nat} (h : y ≠ 1) (a : Word) : ofI (iVal y a) = a := by
  unfold iVal ofI
  split
  · exact absurd rfl h
  · exact BitVec.ofInt_toInt
  · apply BitVec.eq_of_toNat_eq; simp

theorem bits_cases {f : Fields} (h : IntType f) : (f.ty.toNat = 1 ∧ tyBits f.ty.toNat = 32) ∨ (f.ty.toNat = 2 ∧ tyBits f.ty.toNat = 32) ∨
    (f.ty.toNat = 4 ∧ tyBits f.ty.toNat = 64) ∨ (f.ty.toNat = 5 ∧ tyBits f.ty.toNat = 64) := by
  rcases h with h | h | h | h <;> rw [h] <;> simp [tyBits]

/-- A result computed exactly is, modulo 2^w, the same ring operation on the words. -/
theorem sameAt_exact {y w : Nat} (hw : w = 64 → y ≠ 1) {z : Int} {v : Word} (h32 : BitVec.ofInt 32 z = lo32 v) (h64 : y ≠ 1 → ofI z = v) :
    sameAt w (ofI z) v := by
  unfold sameAt
  split
  · rename_i h; exact h64 (hw h)
  · rw [lo32_ofI, h32]

theorem sameAt_add {y w : Nat} (hw : w = 64 → y ≠ 1) (a b : Word) : sameAt w (ofI (iVal y a + iVal y b)) (a + b) :=
  sameAt_exact hw (by rw [BitVec.ofInt_add, ofInt_iVal, ofInt_iVal, lo32_add])
    (fun h => by unfold ofI; rw [BitVec.ofInt_add]; exact congr (congrArg _ (ofI_iVal h a)) (ofI_iVal h b))

theorem ofInt_neg {w : Nat} (z : Int) : BitVec.ofInt w (-z) = -BitVec.ofInt w z := BitVec.ofInt_neg

theorem sameAt_neg {y w : Nat} (hw : w = 64 → y ≠ 1) (a : Word) : sameAt w (ofI (-iVal y a)) (-a) :=
  sameAt_exact hw (by rw [ofInt_neg, ofInt_iVal, lo32_neg]) (fun h => by unfold ofI; rw [ofInt_neg]; exact congrArg _ (ofI_iVal h a))

theorem sameAt_sub {y w : Nat} (hw : w = 64 → y ≠ 1) (a b : Word) : sameAt w (ofI (iVal y a - iVal y b)) (a - b) :=
  sameAt_exact hw (by rw [Int.sub_eq_add_neg, BitVec.ofInt_add, ofInt_neg, ofInt_iVal, ofInt_iVal, lo32_sub, BitVec.sub_eq_add_neg])
    (fun h => by
      unfold ofI
      rw [Int.sub_eq_add_neg, BitVec.ofInt_add, ofInt_neg, BitVec.sub_eq_add_neg]
      exact congr (congrArg _ (ofI_iVal h a)) (congrArg _ (ofI_iVal h b)))

theorem sameAt_mul {y w : Nat} (hw : w = 64 → y ≠ 1) (a b : Word) : sameAt w (ofI (iVal y a * iVal y b)) (a * b) :=
  sameAt_exact hw (by rw [BitVec.ofInt_mul, ofInt_iVal, ofInt_iVal, lo32_mul])
    (fun h => by unfold ofI; rw [BitVec.ofInt_mul]; exact congr (congrArg _ (ofI_iVal h a)) (ofI_iVal h b))

theorem sameAt_mad {y w : Nat} (hw : w = 64 → y ≠ 1) (a b c : Word) : sameAt w (ofI (iVal y a * iVal y b + iVal y c)) (a * b + c) :=
  sameAt_exact hw (by rw [BitVec.ofInt_add, BitVec.ofInt_mul, ofInt_iVal, ofInt_iVal, ofInt_iVal, lo32_add, lo32_mul])
    (fun h => by
      unfold ofI
      rw [BitVec.ofInt_add, BitVec.ofInt_mul]
      exact congr (congrArg _ (congr (congrArg _ (ofI_iVal h a)) (ofI_iVal h b))) (ofI_iVal h c))

theorem sameAt_self {y w : Nat} (hw : w = 64 → y ≠ 1) (a : Word) : sameAt w (ofI (iVal y a)) a :=
  sameAt_exact hw (ofInt_iVal y a) (fun h => ofI_iVal h a)

/-- The instructions of two operands. -/
theorem gives_int2 {s : State} {i : Instr} {op : Nat} {f : Fields} {pc : Word} (h : Issues s op f pc) (ht : IntType f) (tag : Ctx → Tag)
    (g : Nat → Int → Int → Int) (v : Nat → Word → Word → Word) (hi : exec i s = runInstr op (onCrew (int2 tag g)) f s)
    (hv : ∀ L, sameAt (tyBits f.ty.toNat)
      (ofI (g (tyBits f.ty.toNat) (iVal f.ty.toNat (opA (issueCtx s.m pc op f) f.ty.toNat L)) (iVal f.ty.toNat (opB (issueCtx s.m pc op f) f.ty.toNat L))))
      (v f.ty.toNat (opA (issueCtx s.m pc op f) f.ty.toNat L) (opB (issueCtx s.m pc op f) f.ty.toNat L))) :
    GivesI s i op f pc tag (fun x L => v x.y (opA x x.y L) (opB x x.y L)) := by
  have hw : tyBits f.ty.toNat = 32 ∨ tyBits f.ty.toNat = 64 := by rcases bits_cases ht with h | h | h | h <;> simp [h.2]
  unfold GivesI
  exact gives_of (t := tag) (y := fun x L => ofI (g (tyBits x.y) (iVal x.y (opA x x.y L)) (iVal x.y (opB x x.y L)))) h hw hi (fun _ => rfl)
    (fun L _ => hv L)

end Sys2Proof.Laws
end

