-- ==== Sys2Proof/Laws/Parts.lean ====
section
/-! SUPPORT. What the named parts of the machine (cores, dies, jobs, launches) read as after an update of one of them. -/

namespace Sys2Proof.Laws

open Sys2Proof.Machine

theorem core_setCore (m : Mach) (c k : Nat) (x : Core) : (m.setCore c x).core k = if k = c then x else m.core k := by
  unfold Mach.core Mach.setCore; rw [smFind_smPut]; split <;> rfl
theorem core_modCore (m : Mach) (c k : Nat) (f : Core → Core) : (m.modCore c f).core k = if k = c then f (m.core c) else m.core k :=
  core_setCore m c k _
theorem die_setDie (m : Mach) (d k : Nat) (x : Die) : (m.setDie d x).die k = if k = d then x else m.die k := by
  unfold Mach.die Mach.setDie; rw [smFind_smPut]; split <;> rfl
theorem die_modDie (m : Mach) (d k : Nat) (f : Die → Die) : (m.modDie d f).die k = if k = d then f (m.die d) else m.die k :=
  die_setDie m d k _
theorem job_setJob (m : Mach) (j k : Nat) (x : Job) : (m.setJob j x).job k = if k = j then some x else m.job k := smFind_smPut _ _ _ _
theorem job_modJob (m : Mach) (j k : Nat) (f : Job → Job) : (m.modJob j f).job k = if k = j then (m.job j).map f else m.job k := by
  unfold Mach.modJob
  cases h : m.job j with
  | none => split <;> simp_all
  | some x => simp only [job_setJob, Option.map]
theorem launch_setLaunch (m : Mach) (h k : Nat) (x : Launch) : (m.setLaunch h x).launch k = if k = h then some x else m.launch k :=
  smFind_smPut _ _ _ _
theorem launch_modLaunch (m : Mach) (h k : Nat) (f : Launch → Launch) :
    (m.modLaunch h f).launch k = if k = h then (m.launch h).map f else m.launch k := by
  unfold Mach.modLaunch
  cases e : m.launch h with
  | none => split <;> simp_all
  | some x => simp only [launch_setLaunch, Option.map]

/-! An update of one kind of part leaves the others. -/

@[simp] theorem die_setCore (m : Mach) (c d : Nat) (x : Core) : (m.setCore c x).die d = m.die d := rfl
@[simp] theorem job_setCore (m : Mach) (c j : Nat) (x : Core) : (m.setCore c x).job j = m.job j := rfl
@[simp] theorem launch_setCore (m : Mach) (c h : Nat) (x : Core) : (m.setCore c x).launch h = m.launch h := rfl
@[simp] theorem crew_setCore (m : Mach) (c t : Nat) (x : Core) : (m.setCore c x).crew t = m.crew t := rfl
@[simp] theorem core_setDie (m : Mach) (d c : Nat) (x : Die) : (m.setDie d x).core c = m.core c := rfl
@[simp] theorem job_setDie (m : Mach) (d j : Nat) (x : Die) : (m.setDie d x).job j = m.job j := rfl
@[simp] theorem launch_setDie (m : Mach) (d h : Nat) (x : Die) : (m.setDie d x).launch h = m.launch h := rfl
@[simp] theorem crew_setDie (m : Mach) (d t : Nat) (x : Die) : (m.setDie d x).crew t = m.crew t := rfl
@[simp] theorem core_setJob (m : Mach) (j c : Nat) (x : Job) : (m.setJob j x).core c = m.core c := rfl
@[simp] theorem die_setJob (m : Mach) (j d : Nat) (x : Job) : (m.setJob j x).die d = m.die d := rfl
@[simp] theorem launch_setJob (m : Mach) (j h : Nat) (x : Job) : (m.setJob j x).launch h = m.launch h := rfl
@[simp] theorem crew_setJob (m : Mach) (j t : Nat) (x : Job) : (m.setJob j x).crew t = m.crew t := rfl
@[simp] theorem core_setLaunch (m : Mach) (h c : Nat) (x : Launch) : (m.setLaunch h x).core c = m.core c := rfl
@[simp] theorem die_setLaunch (m : Mach) (h d : Nat) (x : Launch) : (m.setLaunch h x).die d = m.die d := rfl
@[simp] theorem job_setLaunch (m : Mach) (h j : Nat) (x : Launch) : (m.setLaunch h x).job j = m.job j := rfl
@[simp] theorem crew_setLaunch (m : Mach) (h t : Nat) (x : Launch) : (m.setLaunch h x).crew t = m.crew t := rfl

theorem crew_cur (m : Mach) : m.crew m.cur.tid = some m.cur := by simp [Mach.crew]
theorem modCrew_cur (m : Mach) (f : Crew → Crew) (h : (f m.cur).tid = m.cur.tid) : m.modCrew m.cur.tid f = { m with cur := f m.cur } := by
  simp [Mach.modCrew, crew_cur, Mach.setCrew, h]
theorem focus_cur (m : Mach) : m.focus m.cur.tid = m := by simp [Mach.focus]

end Sys2Proof.Laws
end

