-- ==== Sys2Proof/Tests/Slice0.lean ====
section
/-! SUPPORT. The model's own tests: words of the encoding, one ill-formed term for each check, small results of single instructions, and for every
statement concrete states and operands that meet its hypotheses. -/

namespace Sys2Proof.Tests

open Sys2Proof Sys2Proof.Machine Sys2Proof.Laws

set_option maxRecDepth 100000
set_option Elab.async false

/-! ### Helpers -/

def okB {α : Type} (r : R α) : Bool := match r with | .ok _ => true | .error _ => false
def chain {ε α : Type} (r : Except ε α) (g : α → Bool) : Bool := match r with | .ok a => g a | .error _ => false
def fails {α : Type} (r : R α) : Bool := !okB r
def optB {α : Type} (o : Option α) (g : α → Bool) : Bool := match o with | some a => g a | none => false

theorem ok_of {r : R Unit} (h : okB r = true) : r = .ok () := by cases r with | ok a => cases a; rfl | error e => cases h
theorem ok_ex {α : Type} {r : R α} (h : okB r = true) : ∃ a, r = .ok a := by cases r with | ok a => exact ⟨a, rfl⟩ | error e => cases h
theorem err_ex {α : Type} {r : R α} (h : fails r = true) : ∃ e, r = .error e := by cases r with | ok a => cases h | error e => exact ⟨e, rfl⟩
theorem chain_of {ε α : Type} {r : Except ε α} {g : α → Bool} (h : chain r g = true) : ∃ a, r = .ok a ∧ g a = true := by
  cases r with | ok a => exact ⟨a, rfl, h⟩ | error e => cases h
theorem opt_of {α : Type} {o : Option α} {g : α → Bool} (h : optB o g = true) : ∃ a, o = some a ∧ g a = true := by
  cases o with | some a => exact ⟨a, rfl, h⟩ | none => cases h

def issuesB (s : State) (op : Nat) (f : Fields) (pc : Word) : Bool :=
  decide (canIssue s.m.cur = some pc) && s.m.cur.late.isNone && decide ((issueCtx s.m pc op f).e ≠ 0) &&
    okB (preCheck s.m s.m.cur (issueCtx s.m pc op f) (entryFor s.m s.m.cur op f))

/-- The checks before those that an instruction makes of its own blocks and handles. -/
def blockedB (s : State) (op : Nat) (f : Fields) : Bool :=
  let x := issueCtx s.m 0x10000 op f
  let e := entryFor s.m s.m.cur op f
  decide (canIssue s.m.cur = some 0x10000) && s.m.cur.late.isNone && decide (x.e ≠ 0) && okB (checkShort s.m s.m.cur x e) &&
    (x.rlanes e).all (fun L => okB (firstErr (fun p => checkRange x [L] p.2.1 p.2.2.1 p.2.2.2) (positions x e)))

theorem issues_of {s : State} {op : Nat} {f : Fields} {pc : Word} (h : issuesB s op f pc = true) : Issues s op f pc := by
  simp only [issuesB, Bool.and_eq_true, decide_eq_true_eq, Option.isNone_iff_eq_none] at h
  exact ⟨h.1.1.1, h.1.1.2, h.1.2, ok_of h.2⟩

/-- Several instructions with the same fields. -/
theorem issues_all {s : State} {f : Fields} {pc : Word} {ops : List Nat} (h : ops.all (fun op => issuesB s op f pc) = true) :
    ∀ op ∈ ops, Issues s op f pc := fun op ho => issues_of (List.all_eq_true.mp h op ho)

/-! The states of the tests: the crew that `withFetchWord` places, four lanes at 0x10000, with some tags set. -/

def f0 : Fields := { wide := false, stall := 1, reuse := 0, guard := none, neg := false, ty := 0, d := .none, a := .none, b := .none, c := .none,
                     lit := 0, sc := 0, ord := 0, aux := 0 }
def pc0 : Word := 0x10000
def crew0 : Crew := placeCrew pc0
def vTags (l : List (Nat × Tag)) (c : Crew) : Crew := l.foldl (fun c e => vSetTag c e.1 e.2) c
def sRegs (l : List (Nat × Word × Tag)) (c : Crew) : Crew := l.foldl (fun c e => sSet c e.1 e.2.1 e.2.2) c
/-- A state with a crew and no memory. -/
def onCrew (c : Crew) : State :=
  { State.reset with m := { State.reset.m with agenda := [], released := 3, cur := c, nextTid := 2, nextHandle := 5, nextJob := 2,
                                               jobs := [(1, placeJob)], launches := [(4, placeLaunch)] } }
/-- The tables of a placed program, with the leaf of a page of data: virtual 0x20000, physical 0x30000. -/
def tables0 : List Host.Cell :=
  [(0x100001, 0x10), (0x100002, 0x10), (0x100007, 0x80), (0x101001, 0x20), (0x101002, 0x10), (0x101007, 0x80), (0x102001, 0x30), (0x102002, 0x10), (0x102007, 0x80),
   (0x103001, 0x40), (0x103002, 0x10), (0x103007, 0x80), (0x104001, 0x50), (0x104002, 0x10), (0x104007, 0x80),
   (0x105102, 1), (0x105107, 0xE8), (0x10510F, 0x10), (0x105202, 3), (0x105207, 0xF0), (0x10520F, 0x10)]
theorem test_tables : tables0 = memWrite (State.reset.withFetchWord 64 0).m.mem (placeTables + 4096 * 5 + 16 * vaIndex 0 0x20000)
    (toBytes 16 (mkLeaf 0 256 true true false false false 0x30000)) := by decide
/-- Those tables, and bytes from the start of the page. -/
def mem0 (data : List Byte) : List Host.Cell :=
  (data.zip (List.range data.length)).filterMap (fun e => if e.1 = 0 then none else some (0x30000 + e.2, e.1)) ++ tables0
/-- A state with a crew and that memory. -/
def onMem (data : List Byte) (c : Crew) : State := { onCrew c with m := { (onCrew c).m with mem := mem0 data } }


/-! ### Decoding: words written out in the specification -/

/-- The words decode to the instruction, which is well formed, and encode back to them. -/
def readsAs (ws : List Nat) (i : Instr) : Bool :=
  chain (decodeBytes (ws.flatMap (toBytes 8))) (fun q => q.1 == i && q.2 == 8 * ws.length) && i.wf && encode i == ws
def g0 : Fields := { f0 with stall := 0 }
def g2 : Fields := { f0 with stall := 2 }

-- R283's block: the header, and its three instructions
theorem test_words_add : readsAs [0x0110F10100100AE0] (.add { g2 with ty := 1, d := .v 4, a := .v 1, b := .v 2 }) = true ∧
    readsAs [0x0110F101401C16E0] (.add { g2 with ty := 1, d := .v 5, a := .v 1, b := .imm 5 }) = true ∧
    readsAs [0x81103902407B82E0, 0x000186A08000A000]
      (.add { g2 with wide := true, guard := some 3, neg := true, ty := 1, d := .ind 9 2, a := .v 7, b := .lit, lit := 100000 }) = true := by decide
theorem test_header : isHeader 0x7F80583000060080 = true ∧ hdrReconv 0x7F80583000060080 = 24 ∧ hdrEntry 0x7F80583000060080 = false ∧
    hdrEntry 0x7F80580000000200 = true ∧ isHeader 0x0110F10100100AE0 = false := by decide
-- the words of chapters 13 to 22
theorem test_words_int_float : readsAs [0x0D90F1A0401CA305] (.cmp { g2 with ty := 1, d := .p 1, a := .v 1, b := .imm 40, c := .imm 5 }) = true ∧
    readsAs [0x2120F30300A02F01] (.fmul { f0 with stall := 4, ty := 3, d := .v 12, a := .v 10, b := .v 11, c := .imm 1 }) = true ∧
    readsAs [0x1990F082E0AB82E0] (.callx { g2 with d := .s 11, a := .s 10 }) = true := by decide
theorem test_words_memory : readsAs [0x4000F00260401F40] (.ld { g0 with d := .v 9, a := .s 4, b := .v 7, c := .imm 64 }) = true ∧
    readsAs [0xC000F782A02B82E0, 0x0000000002D00000] (.ld { g0 with wide := true, ty := 15, d := .s 10, a := .s 2, sc := 3, ord := 1 }) = true ∧
    readsAs [0xC080F784A02B82E0, 0x0000000002E00000] (.st { g0 with wide := true, ty := 15, d := .s 18, a := .s 2, sc := 3, ord := 2 }) = true := by decide
theorem test_words_tasks_matrix : readsAs [0x5C00F001206B82E0] (.palloc { g0 with d := .v 4, a := .s 6 }) = true ∧ readsAs [0x5980F0B82E0B82E0] (.join g0) = true ∧
    readsAs [0x6880F0B8208B82E0] (.mmas { g0 with a := .s 8 }) = true ∧ readsAs [0x6980F0B8301B82E0] (.mwait { g0 with a := .imm 1 }) = true ∧
    readsAs [0x7980F0B8311812E0] (.sysw { g0 with a := .imm 17, b := .s 4 }) = true := by decide

-- one word for every instruction: its opcode, type code and operand codes as the tables of R292 to R440 give them, in the fields of R268 and R269

def N : Nat := 0x2E0
/-- What an operand code names (R131). -/
def codeOpd (k : Nat) : Opd :=
  if k < 0x200 then .v (BitVec.ofNat 9 k) else if k < 0x280 then .s (BitVec.ofNat 7 k) else if k < 0x28C then .p (Fin.ofNat 12 (k - 0x280))
  else if k < 0x290 then .pt else if k < 0x2A0 then .m (BitVec.ofNat 3 k) else if k < 0x2B0 then .h (BitVec.ofNat 4 k) else if k < 0x2C0 then .acc (BitVec.ofNat 3 k)
  else if k < 0x2E0 then .spec (BitVec.ofNat 4 k) else if k = 0x2E0 then .none else .imm (BitVec.ofNat 8 k)
/-- Opcode, `T`, `D`, `A`, `B`, `C`, and the second word, 0 for a short form; the guard is 15 and the stall count 0. -/
def wordIs (e : (Fields → Instr) × Nat × Nat × Nat × Nat × Nat × Nat × Nat) : Bool :=
  let (i, op, t, d, a, b, c, x) := e
  let w := 2 ^ 55 * op + 2 ^ 44 * 15 + 2 ^ 40 * t + 2 ^ 30 * d + 2 ^ 20 * a + 2 ^ 10 * b + c
  readsAs (if x = 0 then [w] else [2 ^ 63 + w, x])
    (i { g0 with wide := x != 0, ty := BitVec.ofNat 8 (t + 8 * (x / 2 ^ 25 % 2)), d := codeOpd d, a := codeOpd a, b := codeOpd b, c := codeOpd c,
                 sc := BitVec.ofNat 3 (x / 2 ^ 22), ord := BitVec.ofNat 2 (x / 2 ^ 20) })

theorem test_each_word_1 : ([(.nop, 0x00, 0, N, N, N, N, 0), (.mov, 0x01, 0, 4, 0x205, N, N, 0), (.add, 0x02, 1, 4, 5, 6, N, 0), (.sub, 0x03, 1, 4, 5, 6, N, 0),
    (.mul, 0x04, 1, 4, 5, 6, N, 0), (.mulh, 0x05, 1, 4, 5, 6, N, 0), (.mad, 0x06, 1, 4, 5, 6, 7, 0), (.div, 0x07, 1, 4, 5, 6, N, 0),
    (.rem, 0x08, 1, 4, 5, 6, N, 0), (.min, 0x09, 1, 4, 5, 6, N, 0), (.max, 0x0A, 1, 4, 5, 6, N, 0), (.abs, 0x0B, 1, 4, 5, N, N, 0),
    (.neg, 0x0C, 1, 4, 5, N, N, 0), (.and_, 0x0D, 0, 4, 5, 6, N, 0), (.or_, 0x0E, 0, 4, 5, 6, N, 0), (.xor, 0x0F, 0, 4, 5, 6, N, 0),
    (.not_, 0x10, 0, 4, 5, N, N, 0), (.shl, 0x11, 0, 4, 5, 0x306, N, 0), (.shr, 0x12, 0, 4, 5, 0x306, N, 0), (.sar, 0x13, 1, 4, 5, 0x306, N, 0),
    (.rot, 0x14, 0, 4, 5, 0x306, N, 0), (.bfx, 0x15, 1, 4, 5, 6, 7, 0), (.bfi, 0x16, 0, 4, 5, 6, 7, 0), (.popc, 0x17, 0, 4, 5, N, N, 0),
    (.clz, 0x18, 0, 4, 5, N, N, 0), (.brev, 0x19, 0, 4, 5, N, N, 0), (.sel, 0x1A, 0, 4, 5, 6, 0x281, 0), (.cmp, 0x1B, 1, 0x281, 5, 6, 0x300, 0)] : List ((Fields → Instr) × Nat × Nat × Nat × Nat × Nat × Nat × Nat)).all wordIs = true := by decide
theorem test_each_word_2 : ([(.pbool, 0x1C, 0, 0x281, 0x282, 0x283, 0x308, 0), (.addc, 0x1D, 2, 4, 5, 6, 0x281, 0), (.lea, 0x1E, 1, 0x204, 0x206, 5, 0x302, 0),
    (.cvti, 0x1F, 1, 4, 6, N, 0x304, 0), (.vote, 0x20, 0, 0x204, 0x281, N, 0x300, 0), (.elect, 0x21, 0, 0x281, N, N, N, 0),
    (.bcast, 0x22, 0, 4, 5, 0x303, N, 0), (.gscan, 0x23, 2, 4, 5, N, 0x300, 0), (.perm, 0x24, 0, 4, 5, 6, N, 0), (.shfl, 0x25, 0, 4, 5, 0x301, 0x300, 0),
    (.compact, 0x26, 0, 4, 5, 0x281, N, 0), (.expand, 0x27, 0, 4, 5, 0x281, N, 0), (.br, 0x30, 0, N, 0x302, N, N, 0), (.brx, 0x31, 0, N, 0x204, N, N, 0),
    (.call, 0x32, 0, 0x204, 0x302, N, N, 0), (.callx, 0x33, 0, 0x20b, 0x20a, N, N, 0), (.ret, 0x34, 0, N, 0x204, N, N, 0),
    (.loop, 0x35, 1, 0x204, 0x3fb, N, N, 0), (.exit, 0x36, 0, N, N, N, N, 0), (.msync, 0x37, 0, N, 0x291, N, N, 0),
    (.mset, 0x38, 6, 0x291, 0x292, N, 0x300, 0), (.yield, 0x39, 0, N, N, N, N, 0), (.fadd, 0x40, 3, 4, 5, 6, 0x301, 0), (.fsub, 0x41, 3, 4, 5, 6, 0x301, 0),
    (.fmul, 0x42, 3, 4, 5, 6, 0x301, 0), (.ffma, 0x43, 3, 4, 5, 6, 7, 0), (.fmin, 0x44, 3, 4, 5, 6, N, 0), (.fmax, 0x45, 3, 4, 5, 6, N, 0)] : List ((Fields → Instr) × Nat × Nat × Nat × Nat × Nat × Nat × Nat)).all wordIs = true := by decide
theorem test_each_word_3 : ([(.fabs, 0x46, 3, 4, 5, N, N, 0), (.fneg, 0x47, 3, 4, 5, N, N, 0), (.fcmp, 0x48, 3, 0x281, 5, 6, 0x302, 0), (.frcp, 0x49, 3, 4, 5, N, N, 0),
    (.frsq, 0x4A, 3, 4, 5, N, N, 0), (.fsqrt, 0x4B, 3, 4, 5, N, 0x300, 0), (.fdiv, 0x4C, 3, 4, 5, 6, 0x300, 0), (.fexp2, 0x4D, 3, 4, 5, N, N, 0),
    (.flog2, 0x4E, 3, 4, 5, N, N, 0), (.fsin, 0x4F, 3, 4, 5, N, N, 0), (.fcos, 0x50, 3, 4, 5, N, N, 0), (.ftanh, 0x51, 3, 4, 5, N, N, 0),
    (.frnd, 0x52, 3, 4, 5, N, 0x300, 0), (.ftoi, 0x53, 1, 4, 5, N, 0x300, 0), (.itof, 0x54, 1, 4, 5, N, 0x300, 0), (.fcvt, 0x55, 7, 4, 5, 0x301, 0x300, 0),
    (.fpack, 0x56, 7, 4, 5, N, 0x300, 0), (.funpk, 0x57, 7, 4, 5, N, N, 0), (.fdot2, 0x58, 7, 4, 5, 6, 7, 0), (.fdot4, 0x59, 1, 4, 5, 6, 7, 0x2000000),
    (.fclass, 0x5A, 3, 4, 5, N, N, 0), (.hist, 0x5B, 3, 4, 5, 0x3f0, 0x308, 0), (.qscale, 0x5C, 1, 4, 5, N, N, 0x2000000),
    (.quant, 0x5D, 1, 4, 5, 6, 0x300, 0x2000000), (.dquant, 0x5E, 1, 4, 5, 6, 0x300, 0x2000000), (.cbdec, 0x5F, 6, 4, 5, N, 0x208, 0x2000000),
    (.cbenc, 0x60, 6, 4, 5, 6, 0x208, 0x2000000), (.cbload, 0x61, 0, 0x208, 0x204, N, N, 0)] : List ((Fields → Instr) × Nat × Nat × Nat × Nat × Nat × Nat × Nat)).all wordIs = true := by decide
theorem test_each_word_4 : ([(.tagset, 0x62, 0, 4, 0x303, N, 0x300, 0), (.tagsetFclr, 0x62, 0, N, 0x31f, N, 0x301, 0), (.tagsetFset, 0x62, 0, N, 0x31f, N, 0x302, 0),
    (.tagget, 0x63, 0, 4, 5, N, 0x300, 0), (.taggetFlags, 0x63, 0, 0x204, N, N, 0x301, 0), (.ld, 0x80, 0, 9, 0x204, 7, 0x340, 0),
    (.st, 0x81, 2, 9, 0x204, 7, 0x304, 0), (.atom, 0x82, 2, 4, 0x204, 5, 0x300, 0), (.red, 0x83, 2, N, 0x204, 5, 0x300, 0),
    (.cas, 0x84, 2, 4, 0x204, 5, 6, 0), (.fence, 0x85, 0, N, N, N, N, 0xa00000), (.monarm, 0x86, 2, N, 0x204, N, N, 0), (.monwait, 0x87, 0, N, N, N, N, 0),
    (.pref, 0x88, 2, N, 0x204, 5, N, 0), (.cclean, 0x89, 0, N, 0x204, 0x306, 0x300, 0), (.cinval, 0x8A, 0, N, 0x204, 0x306, 0x300, 0),
    (.tfill, 0x90, 0, N, 0x204, 8, N, 0), (.tdrain, 0x91, 0, 8, 0x204, N, N, 0), (.twait, 0x92, 0, N, 0x204, N, 0x300, 0),
    (.tstat, 0x93, 0, 0x205, 0x204, N, N, 0), (.gjoin, 0xA0, 0, 0x2a0, 0x21c, 0x21e, 0x282, 0), (.gleave, 0xA1, 0, 0x2a1, N, N, N, 0),
    (.garr, 0xA2, 0, 0x204, 0x2a1, N, N, 0), (.gwait, 0xA3, 0, N, 0x2a1, 0x300, N, 0), (.gbar, 0xA4, 0, 0x21e, 0x2a0, N, N, 0),
    (.gvote, 0xA5, 0, 0x281, 0x2a1, 0x204, 0x300, 0), (.gred, 0xA6, 4, 0x204, 0x2a1, 0x205, 0x300, 0), (.gstat, 0xA7, 0, 0x204, 0x2a1, N, 0x300, 0)] : List ((Fields → Instr) × Nat × Nat × Nat × Nat × Nat × Nat × Nat)).all wordIs = true := by decide
theorem test_each_word_5 : ([(.gfind, 0xA8, 0, 0x2a1, 0x204, N, N, 0), (.spawn, 0xB0, 0, N, 0x204, 0x205, N, 0), (.spawnv, 0xB1, 0, N, 0x204, 2, N, 0),
    (.spawnd, 0xB2, 0, N, 0x204, 0x205, 0x206, 0), (.join, 0xB3, 0, N, N, N, N, 0), (.pget, 0xB4, 0, 4, 0x310, N, N, 0), (.pdig, 0xB5, 0, 0x204, N, N, N, 0),
    (.preroot, 0xB6, 0, N, N, N, N, 0), (.rng, 0xB7, 2, 4, 0x301, N, 0x304, 0), (.palloc, 0xB8, 0, 4, 0x206, N, N, 0),
    (.plog, 0xB9, 0, 4, 0x206, 0x204, N, 0), (.rview, 0xBA, 0, 4, 0x30f, 5, N, 0), (.racc, 0xBB, 0, N, 0x30f, 5, 6, 0), (.rfin, 0xBC, 0, N, 0x30f, N, N, 0),
    (.vwreg, 0xC0, 0, 0x204, 0x205, N, N, 0), (.vwadd, 0xC1, 0, 0x204, 0x205, 0x206, N, 0), (.vwdrop, 0xC2, 0, 0x204, 0x205, N, 0x301, 0),
    (.vwsync, 0xC3, 0, 0x204, 0x205, N, 0x300, 0), (.vwver, 0xC4, 0, 0x204, 0x205, 0x206, 0x301, 0), (.vwpol, 0xC5, 0, 0x204, 0x205, 0x206, 0x301, 0),
    (.vwtouch, 0xC6, 0, 0x204, 0x205, 0x206, 0x207, 0), (.mldb, 0xD0, 0, N, 0x210, N, N, 0), (.mmas, 0xD1, 0, N, 0x208, N, N, 0),
    (.mcommit, 0xD2, 0, N, N, N, N, 0), (.mwait, 0xD3, 0, N, 0x300, N, N, 0), (.mrd, 0xD4, 0, 100, 0x2b0, 0x300, 0x330, 0),
    (.mwr, 0xD5, 0, 0x2b0, 100, 0x300, 0x330, 0), (.mzero, 0xD6, 0, 0x2b7, N, N, N, 0)] : List ((Fields → Instr) × Nat × Nat × Nat × Nat × Nat × Nat × Nat)).all wordIs = true := by decide
theorem test_each_word_6 : ([(.mstat, 0xD7, 0, 0x204, N, N, 0x302, 0), (.btmpl, 0xE0, 0, 0x204, 0x205, 0x206, N, 0), (.gath, 0xE1, 2, 8, 0x204, 5, 0x302, 0),
    (.collOrdered, 0xE2, 0, 0x214, 0x212, N, 0x300, 0), (.collArrival, 0xE2, 0, 0x215, 0x216, N, 0x301, 0), (.cwait, 0xE3, 0, 0x217, 0x214, N, N, 0),
    (.lbase, 0xE4, 0, 0x204, 0x205, 0x30f, N, 0), (.bquery, 0xE5, 0, 0x204, 0x205, N, 0x302, 0), (.trap, 0xF0, 0, N, 0x301, 0x302, 0x204, 0),
    (.eretRetry, 0xF1, 0, 0x205, 0x204, N, 0x300, 0), (.eretNext, 0xF1, 0, 0x205, 0x204, N, 0x301, 0), (.eretEnd, 0xF1, 0, 0x205, 0x200, N, 0x302, 0),
    (.sysr, 0xF2, 0, 0x204, 0x311, N, N, 0), (.sysw, 0xF3, 0, N, 0x311, 0x204, N, 0), (.keyld, 0xF3, 0, N, 0x328, 0x204, N, 0),
    (.keyclr, 0xF3, 0, N, 0x329, 0x204, N, 0), (.rsidx, 0xF3, 0, N, 0x330, 0x204, N, 0), (.wake, 0xF3, 0, N, 0x370, 0x204, N, 0),
    (.icinv, 0xF4, 0, N, 0x204, 0x205, N, 0), (.tlbinv, 0xF5, 0, N, 0x204, 0x205, 0x206, 0), (.launch, 0xF6, 0, 0x204, 0x205, N, N, 0),
    (.cancel, 0xF7, 0, 0x204, 0x205, N, N, 0), (.leaveHold, 0xF8, 0, 0x204, 0x205, N, 0x300, 0), (.leaveFree, 0xF8, 0, 0x204, 0x205, N, 0x301, 0),
    (.hcount, 0xF9, 0, 0x204, 0x205, N, 0x281, 0), (.halt, 0xFA, 0, N, N, N, N, 0), (.brk, 0xFB, 0, N, 0x307, N, N, 0),
    (.monRead, 0xFC, 0, 0x204, 0x215, N, 0x300, 0)] : List ((Fields → Instr) × Nat × Nat × Nat × Nat × Nat × Nat × Nat)).all wordIs = true := by decide
theorem test_each_word_7 : ([(.monRdclr, 0xFC, 0, 0x204, 0x215, N, 0x301, 0), (.monSel, 0xFC, 0, 0x204, 0x215, N, 0x302, 0)] : List ((Fields → Instr) × Nat × Nat × Nat × Nat × Nat × Nat × Nat)).all wordIs = true := by decide

/-! ### One ill-formed instruction for each check of well-formedness -/

def gAdd : Fields := { g0 with ty := 1, d := .v 4, a := .v 5, b := .v 6 }
theorem test_wf_fields : ([.add gAdd,
    -- a literal in no field, two literals, a scope above 4
    .add { gAdd with wide := true, b := .lit, lit := 9 }].all Instr.wf) = true ∧
    ([.add { gAdd with wide := true, d := .lit }, .add { gAdd with wide := true, a := .lit, b := .lit }, .ld { g0 with wide := true, d := .v 9, a := .s 4, sc := 5, ord := 1 },
    -- a short form with a type code, a literal, a scope, an order, a hint or an indirect operand that need a second word
    .add { gAdd with ty := 9 }, .add { gAdd with lit := 9 }, .add { gAdd with b := .lit }, .ld { g0 with d := .v 9, a := .s 4, sc := 1 }, .ld { g0 with d := .v 9, a := .s 4, ord := 1 },
    .ld { g0 with d := .v 9, a := .s 4, aux := 1 }, .add { gAdd with d := .ind 9 2 }].any Instr.wf) = false := by decide
theorem test_wf_entries : ([
    -- a type code, an order, a hint and a scope that the entry does not have; a scope without an order
    .add { gAdd with ty := 3 }, .st { g0 with wide := true, ty := 2, d := .v 9, a := .s 4, ord := 1 }, .fence { g0 with wide := true, ord := 1, aux := 1 },
    .ld { g0 with wide := true, d := .v 9, a := .s 4, sc := 1 },
    -- operands of a class that a position does not take: an unused one, none where one is needed, a constant as destination, an odd pair, a reuse bit of a constant
    .abs { gAdd with a := .v 5 }, .add { gAdd with b := .none }, .add { gAdd with d := .imm 3 }, .add { gAdd with ty := 4 }, .add { gAdd with b := .imm 1, reuse := 2 },
    -- a mode beyond its table, a literal target that is no multiple of 8, modes and numbers of another constructor, an event
    .cmp { gAdd with d := .p 1, c := .imm 6 }, .br { g0 with wide := true, a := .lit, lit := 12 }, .tagset { g0 with a := .imm 31, c := .imm 1 },
    .sysw { g0 with a := .imm 0x28, b := .s 4 }, .keyld { g0 with a := .imm 0x11, b := .s 4 }, .powerOnReset].any Instr.wf) = false := by decide
def refusedAs (ws : List Nat) (e : DecodeError) : Bool := match decodeBytes (ws.flatMap (toBytes 8)) with | .error q => q == e | .ok _ => false
def addFirst : Nat := 2 ^ 55 * 0x02 + 2 ^ 44 * 15 + 2 ^ 40 * 1 + 2 ^ 30 * 4 + 2 ^ 20 * 5 + 2 ^ 10 * 6 + 0x2E0
/-- One word, or two, for each reason to refuse. -/
theorem test_rejected_words : refusedAs [] .truncated = true ∧ refusedAs [2 ^ 63 + addFirst] .truncated = true ∧
    refusedAs [2 ^ 55 * 0x29 + 2 ^ 44 * 15] .notInstruction = true ∧ refusedAs [addFirst - 2 ^ 44 * 3] .reservedGuard = true ∧ refusedAs [addFirst + 1] .reservedOperand = true ∧
    refusedAs [2 ^ 63 + addFirst, 2 ^ 16] .reservedField = true ∧ refusedAs [2 ^ 63 + addFirst, 2 ^ 22 * 5] .reservedScope = true ∧
    refusedAs [addFirst + 2 ^ 30 * (0x28C - 4)] .unassignedOperand = true ∧ refusedAs [2 ^ 63 + addFirst, 2 ^ 12] .badDescriptor = true ∧
    refusedAs [2 ^ 63 + addFirst, 2 ^ 30] .badLiteral = true := by decide

/-! ### Results worked out in the specification -/

/-- The current crew after an instruction satisfies a test. -/
def after (s : State) (i : Instr) (g : Crew → Bool) : Bool := match exec i s with | .next u => g u.m.cur | _ => false
/-- Rows of `v` registers: register and the values of its lanes from 0. -/
def vRows (l : List (Nat × Tag × List Half)) (c : Crew) : Crew :=
  l.foldl (fun c e => vSetTag ((e.2.2.zip (List.range 64)).foldl (fun c q => vSet c e.1 q.2 q.1) c) e.1 e.2.1) c
def wide8 : Crew := { crew0 with pcs := List.replicate 8 pc0, live := lanesBelow 8, m := smSet 0 [] 0 (lanesBelow 8), decl := { placeDecl with width := 8 } }

/-- R300: 300 and -5 converted. -/
theorem test_cvti : let s := onCrew (sRegs [(1, 300, tI32), (2, 0xFFFFFFFB, tI32)] crew0)
    after s (.cvti { f0 with wide := true, ty := 16, d := .s 3, a := .s 1, c := .imm (1 + 64) }) (fun c => sGet c 3 == 127) = true ∧
    after s (.cvti { f0 with wide := true, ty := 16, d := .s 3, a := .s 1, c := .imm 1 }) (fun c => sGet c 3 == 44) = true ∧
    after s (.cvti { f0 with ty := 2, d := .s 3, a := .s 2, c := .imm (1 + 64) }) (fun c => sGet c 3 == 0 && sTag c 3 == tN32) = true := by decide
/-- R307: the lanes of `p1` in order, zeros behind. -/
theorem test_compact : let s := onCrew (pSet (vRows [(10, tN32, [0, 1, 2, 3, 4, 5, 6, 7])] wide8) 1 0x56)
    after s (.compact { f0 with d := .v 2, a := .v 10, b := .p 1 }) (fun c => (List.range 8).map (vGet c 2) == [1, 2, 4, 6, 0, 0, 0, 0] && vTag c 2 == tN32) = true := by decide
/-- R283: lane 1, where `v9` holds 40, writes `v7` + 100 000 into `v42`; the guard leaves lane 0 out. -/
theorem test_add_indirect : let s := onCrew (pSet (vRows [(9, tI32, [40, 40, 41, 42]), (7, tI32, [5, 6, 7, 8])] crew0) 3 1)
    after s (.add { g2 with wide := true, guard := some 3, neg := true, ty := 1, d := .ind 9 2, a := .v 7, b := .lit, lit := 100000 })
      (fun c => vGet c 42 1 == 100006 && vGet c 42 0 == 0 && vGet c 43 2 == 100007 && vTag c 42 == tI32 && pcOf c 0 == pc0 + 16 && pcOf c 1 == pc0 + 16) = true := by decide
/-- R340 to R343: a group of 32 values of -0.75, one 0 and one 20. -/
def qRow (k : Nat) : List Half := (List.range 8).map (fun L => if L = 0 ∧ k = 0 then 0 else if L = 5 ∧ k = 2 then 0x41A00000 else 0xBF400000)
def qCrew : Crew := vRows ((List.range 4).map (fun k => (1 + k, tF32, qRow k))) (sRegs [(2, 4, tI32), (3, 123, tN32), (4, 118, tN32)] wide8)
theorem test_hist : after (onCrew qCrew) (.hist { f0 with ty := 3, d := .s 5, a := .v 1, b := .imm 0xFF, c := .imm 4 }) (fun c => sGet c 5 == 4) = true := by decide
theorem test_qscale : after (onCrew qCrew) (.qscale { f0 with wide := true, ty := 9, d := .s 5, a := .s 2 }) (fun c => sGet c 5 == 123) = true := by decide
theorem test_quant : after (onCrew qCrew) (.quant { f0 with wide := true, ty := 9, d := .v 8, a := .v 1, b := .s 3, c := .imm 0 })
    (fun c => vGet c 8 0 == 0xD4D4D400 && vGet c 8 5 == 0xD47AD4D4 && vGet c 8 7 == 0xD4D4D4D4 && vTag c 8 == BitVec.ofNat 4 (tyTag 9) && c.flags == 0) = true := by decide
theorem test_quant_saturates : quantElem 9 0 0 (.num false 20 0) 118 = (0x7E, fOF ||| fNX) ∧ quantElem 9 0 0 (.num true 3 (-2)) 118 = (0xFC, 0) := by decide
/-- R323 and R404. -/
theorem test_codebook : (cbDecode cbDefault 0x8108).map (wrapTo 4) = [0, 0, 0, 0, 15, 1, 1, 13] := by decide
/-- R369: the tree over five contributions; R420: four leaves in tree order and in two orders of arrival. -/
def fw (x : Nat) : Word := w64 x
theorem test_group_tree : treeFold (gredOp 0 3) 0 5 [fw 0x4B800000, fw 0x3F800000, fw 0x3F800000, fw 0xCB800000, fw 0x3F800000] = fw 0x40000000 := by decide
def leaf (b x : Nat) : Contrib := { op := b, src := none, tid := b, launch := 4, ticket := b, level := 0, block := b, dbuf := 0, bad := false, data := [fw x] }
theorem test_coll : let l := [leaf 0 0x4B800000, leaf 1 0x3F800000, leaf 2 0x3F800000, leaf 3 0xCB800000]
    collNode 0 0 l 2 0 = [fw 0x3F800000] ∧ collFold 0 0 l = [fw 0] ∧ collFold 0 0 l.reverse = [fw 0x40000000] := by decide
/-- R374: the root 2 spawns A and B, joins and spawns C. -/
theorem test_pedigree : let p := pedOfRoot 2
    let top (p : Ped) : Nat := p.toNat / 2 ^ 192
    top p = 0x1002000000000000 ∧ top (pedChild p) = 0x2002000000000000 ∧ top (pedStep p) = 0x1002000100000000 ∧ top (pedChild (pedStep p)) = 0x2002000100000000 ∧
    top (pedJoin (pedStep (pedStep p))) = 0x1002040000000000 ∧ top (pedChild (pedJoin (pedStep (pedStep p)))) = 0x2002040000000000 ∧
    top (pedStep (pedJoin (pedStep (pedStep p)))) = 0x1002040100000000 := by decide
/-- R387: the indexes of the root 2 and of its children, above two bits of q. -/
theorem test_arena : let ix (p : Ped) : Nat := (match arenaDigits p 2 1 3 with | .ok h => h | .error _ => 0) * 2 ^ 2
    ix (pedOfRoot 2) = 0x2000 ∧ ix (pedChild (pedOfRoot 2)) = 0x2080 := by decide
/-! ### What meets the hypotheses of the statements: the machine as a whole -/

def stepAt (m : Mach) (pc : Word) : Bool :=
  chain (fetchInstr m m.cur pc) (fun q => !isHeader (fld q.2 0 8) && chain (decodeBytes q.2) (fun d => d.1.wf))
def addWord : Nat := 0x0110F10100100AE0
def fetched : Mach := (State.reset.withFetchWord 64 addWord).m

theorem stepAt_of {m : Mach} {pc : Word} (h : stepAt m pc = true) : ∃ m' b i n, fetchInstr m m.cur pc = .ok (m', b) ∧
    isHeader (fld b 0 8) = false ∧ decodeBytes b = .ok (i, n) ∧ i.wf = true := by
  obtain ⟨⟨m', b⟩, h1, h2⟩ := chain_of h
  simp only [Bool.and_eq_true] at h2
  obtain ⟨⟨i, n⟩, h3, h4⟩ := chain_of h2.2
  exact ⟨m', b, i, n, h1, by simpa using h2.1, h3, h4⟩

theorem wit_step_turn : let s : State := { State.reset with m := { fetched with agenda := [(3, .issue 1)] } }
    let f := (untilReady (pass 3 { s.m with agenda := [] }) 1).focus 1
    s.m.agenda = [(3, .issue 1)] ∧ canIssue f.cur = some pc0 ∧ f.cur.late = none ∧ ∃ m b i n, fetchInstr f f.cur pc0 = .ok (m, b) ∧
      isHeader (fld b 0 8) = false ∧ decodeBytes b = .ok (i, n) ∧ i.wf = true :=
  ⟨rfl, by decide, rfl, stepAt_of (by decide)⟩

/-- A core that has chosen the crew, and one that chooses it. -/
theorem wit_step_own : let s : State := { State.reset with m := { fetched with agenda := [], picks := some [1] } }
    let f := ({ s.m with picks := some [] }).focus 1
    s.m.agenda = [] ∧ s.m.evLeft = 0 ∧ s.m.picks = some (1 :: []) ∧ canIssue f.cur = some pc0 ∧
      ∃ m b i n, fetchInstr f f.cur pc0 = .ok (m, b) ∧ isHeader (fld b 0 8) = false ∧ decodeBytes b = .ok (i, n) ∧ i.wf = true :=
  ⟨rfl, rfl, rfl, by decide, stepAt_of (by decide)⟩
def unpicked : State := { State.reset with m := { fetched with agenda := [], picks := none } }
theorem wit_picks : pickAll (runOf unpicked) unpicked.m = (unpicked.m, [1]) := Prod.ext (by decide +kernel) (by decide +kernel)
theorem wit_step_pick : ∃ g l, unpicked.m.picks = none ∧ pickAll (runOf unpicked) unpicked.m = (g, 1 :: l) ∧ canIssue (({ g with picks := some l }).focus 1).cur = some pc0 ∧
    stepAt (({ g with picks := some l }).focus 1) pc0 = true := ⟨unpicked.m, [], rfl, wit_picks, by decide, by decide⟩

/-- A block header and an instruction after it. -/
def headed : Mach := { fetched with mem := memWrite fetched.mem placeFrame (toBytes 8 0x7F80583000060080 ++ toBytes 8 addWord) }

theorem wit_step_header : ∃ m b, fetchInstr headed headed.cur pc0 = .ok (m, b) ∧ isHeader (fld b 0 8) = true ∧
    canIssue (passHeader m pc0 (fld b 0 8)).cur = some (pc0 + 8) ∧ (passHeader m pc0 (fld b 0 8)).cur.late = none ∧
    ∃ m' b' i n, fetchInstr (passHeader m pc0 (fld b 0 8)) (passHeader m pc0 (fld b 0 8)).cur (pc0 + 8) = .ok (m', b') ∧ isHeader (fld b' 0 8) = false ∧
      decodeBytes b' = .ok (i, n) ∧ i.wf = true := by
  obtain ⟨⟨m, b⟩, h1, h2⟩ := chain_of (r := fetchInstr headed headed.cur pc0) (g := fun q => isHeader (fld q.2 0 8) &&
    (let g := passHeader q.1 pc0 (fld q.2 0 8)
     decide (canIssue g.cur = some (pc0 + 8)) && g.cur.late.isNone && stepAt g (pc0 + 8))) (by decide)
  simp only [Bool.and_eq_true, decide_eq_true_eq, Option.isNone_iff_eq_none] at h2
  exact ⟨m, b, h1, h2.1, h2.2.1.1, h2.2.1.2, stepAt_of h2.2.2⟩

theorem wit_step_fetch : ∃ m o l, checkAll fetched (whoOf fetched.cur) 4 false [{ lane := lowLane (activeLanes fetched.cur), va := pc0.toNat, size := 8 }] =
    .ok (m, o :: l) ∧ bit (ofBytes (memRead m.mem o.pa 8)) 63 = false := by
  obtain ⟨⟨m, l⟩, h1, h2⟩ := chain_of (r := checkAll fetched (whoOf fetched.cur) 4 false [{ lane := lowLane (activeLanes fetched.cur), va := pc0.toNat, size := 8 }])
    (g := fun q => match q.2 with | o :: _ => !bit (ofBytes (memRead q.1.mem o.pa 8)) 63 | [] => false) (by decide)
  cases l with
  | nil => cases h2
  | cons o l => exact ⟨m, o, l, h1, by simpa using h2⟩

theorem wit_step_event : State.reset.m.agenda = [(0, .event .powerOnReset)] ∧ Instr.powerOnReset.isEvent = true ∧
    (let m : Mach := { fetched with agenda := [], evLeft := 1, todo := [.haltWake] }
     m.agenda = [] ∧ m.evLeft = 0 + 1 ∧ m.todo = [.haltWake] ∧ Instr.haltWake.isEvent = true) := ⟨rfl, rfl, rfl, rfl, rfl, rfl⟩

theorem wit_round_trip : (Instr.add { f0 with ty := 1, d := .v 4, a := .v 5, b := .v 2 }).wf = true := by decide
theorem wit_decoded : ∃ i n, decodeBytes (toBytes 8 addWord) = .ok (i, n) := by
  obtain ⟨⟨i, n⟩, h, _⟩ := chain_of (r := decodeBytes (toBytes 8 addWord)) (g := fun _ => true) (by decide)
  exact ⟨i, n, h⟩
theorem wit_invariants : BootInv State.reset.boot ∧ Memory.wf State.reset.m.mem = true ∧ ∃ t, step State.reset = .next t := by
  refine ⟨by unfold BootInv; decide, by decide, ?_⟩
  exact ⟨_, rfl⟩

/-- With the guard `p0`, which is 0 in every lane, no lane executes. -/
theorem wit_empty : let f := { f0 with ty := 1, d := .v 4, a := .v 5, b := .v 2, guard := some 0 }
    (Instr.add f).parts = some (0x02, f) ∧ canIssue (onCrew crew0).m.cur = some pc0 ∧ (issueCtx (onCrew crew0).m pc0 0x02 f).e = 0 := by decide

/-- An INVALID source fails the tag check. -/
theorem wit_failed : let f := { f0 with ty := 1, d := .v 4, a := .v 5, b := .v 2 }
    (issueCtx (onCrew crew0).m pc0 0x02 f).e ≠ 0 ∧
    ∃ h, preCheck (onCrew crew0).m (onCrew crew0).m.cur (issueCtx (onCrew crew0).m pc0 0x02 f) (entryFor (onCrew crew0).m (onCrew crew0).m.cur 0x02 f) = .error h :=
  ⟨by decide, err_ex (by decide)⟩
def lateExc : Exc := { code := 0x20, lane := none, info0 := 0, info1 := 0, info2 := 0, info3 := 0, commit := false, pc := 0, late := true }
theorem wit_late : canIssue (onCrew { crew0 with late := some lateExc }).m.cur = some pc0 := by decide

/-! ### Integer, crew and control instructions -/

def intState : State := onCrew (sRegs [(1, 3, tI32)] (vTags [(0, tI32), (1, tI32), (2, tI32), (3, tI32)] crew0))
def fInt : Fields := { f0 with ty := 1, d := .v 3, a := .v 0, b := .v 1 }
theorem wit_int : IntType fInt ∧ ∀ op ∈ [0x02, 0x03, 0x04, 0x05, 0x07, 0x08, 0x09, 0x0A], Issues intState op fInt pc0 :=
  ⟨.inl rfl, issues_all (by decide)⟩
theorem wit_int_unary : IntType { fInt with b := .none } ∧ ∀ op ∈ [0x0B, 0x0C], Issues intState op { fInt with b := .none } pc0 :=
  ⟨.inl rfl, issues_all (by decide)⟩
theorem wit_int_three : IntType { fInt with c := .v 2 } ∧ ∀ op ∈ [0x06, 0x15], Issues intState op { fInt with c := .v 2 } pc0 :=
  ⟨.inl rfl, issues_all (by decide)⟩
/-- An `s` register as the destination. -/
theorem wit_int_s : IntType { fInt with d := .s 2, a := .s 1, b := .s 1 } ∧ ∀ op ∈ [0x02, 0x07], Issues intState op { fInt with d := .s 2, a := .s 1, b := .s 1 } pc0 :=
  ⟨.inl rfl, issues_all (by decide)⟩
def fBit : Fields := { f0 with d := .v 3, a := .v 0, b := .v 1 }
theorem wit_bits : (fBit.ty = 0 ∨ fBit.ty = 6) ∧ (∀ op ∈ [0x01, 0x10, 0x17, 0x18, 0x19], Issues intState op { fBit with b := .none } pc0) ∧
    (∀ op ∈ [0x0D, 0x0E, 0x0F, 0x11, 0x12, 0x14], Issues intState op fBit pc0) ∧ Issues intState 0x1A { fBit with c := .p 0 } pc0 ∧
    Issues intState 0x16 { fBit with c := .v 2 } pc0 ∧ Issues intState 0x00 f0 pc0 ∧ Issues intState 0x13 fInt pc0 :=
  ⟨.inl rfl, issues_all (by decide), issues_all (by decide), issues_of (by decide), issues_of (by decide), issues_of (by decide), issues_of (by decide)⟩
theorem wit_cmp : (∀ m ∈ [0, 5], let f := { fInt with d := .p 1, c := .imm m }; modeOf f ≤ 5 ∧ Issues intState 0x1B f pc0 ∧ (Instr.cmp f).wf = true) ∧
    (∀ m ∈ [0, 15], let f := { f0 with d := .p 1, a := .p 2, b := .pt, c := .imm m }; Issues intState 0x1C f pc0 ∧ (Instr.pbool f).wf = true) := by
  have a : ∀ m ∈ ([0, 5] : List Byte), (let f := { fInt with d := .p 1, c := .imm m }; decide (modeOf f ≤ 5) && issuesB intState 0x1B f pc0 && (Instr.cmp f).wf) = true := by decide
  have b : ∀ m ∈ ([0, 15] : List Byte), (let f := { f0 with d := .p 1, a := .p 2, b := .pt, c := .imm m }; issuesB intState 0x1C f pc0 && (Instr.pbool f).wf) = true := by decide
  refine ⟨fun m h => ?_, fun m h => ?_⟩
  · have := a m h; simp only [Bool.and_eq_true, decide_eq_true_eq] at this; exact ⟨this.1.1, issues_of this.1.2, this.2⟩
  · have := b m h; simp only [Bool.and_eq_true] at this; exact ⟨issues_of this.1, this.2⟩
def wide64 : State := onCrew (sRegs [(1, 0x20000, tADDR), (2, 7, tI64)] (vTags [(0, tN32), (1, tN32), (2, tADDR), (3, tADDR)] crew0))
theorem wit_carry : Issues wide64 0x1D { f0 with ty := 2, d := .v 4, a := .v 0, b := .v 1, c := .p 0 } pc0 ∧
    Issues wide64 0x1E { f0 with ty := 4, d := .v 4, a := .v 2, b := .s 2, c := .imm 3 } pc0 ∧ Issues wide64 0x1F { f0 with ty := 1, d := .v 4, a := .v 0, c := .imm 2 } pc0 :=
  ⟨issues_of (by decide), issues_of (by decide), issues_of (by decide)⟩

theorem wit_lanes : Issues intState 0x22 fBit pc0 ∧ Issues intState 0x24 fBit pc0 ∧ (∀ m ∈ [0, 3], Issues intState 0x25 { fBit with b := .imm 1, c := .imm m } pc0) ∧
    (∀ op ∈ [0x26, 0x27], Issues intState op { fBit with b := .p 1 } pc0) := by
  have h : ∀ m ∈ ([0, 3] : List Byte), issuesB intState 0x25 { fBit with b := .imm 1, c := .imm m } pc0 = true := by decide
  exact ⟨issues_of (by decide), issues_of (by decide), fun m k => issues_of (h m k), issues_all (by decide)⟩
theorem wit_votes : Issues intState 0x20 { f0 with ty := 6, d := .s 3, a := .p 0, c := .imm 0 } pc0 ∧ Issues intState 0x20 { f0 with ty := 6, d := .m 1, a := .p 0, c := .imm 0 } pc0 ∧
    (∀ m ∈ [1, 3], Issues intState 0x20 { f0 with d := .p 2, a := .p 0, c := .imm m } pc0 ∧ Issues intState 0x20 { f0 with d := .s 3, a := .p 0, c := .imm m } pc0) ∧
    Issues intState 0x21 { f0 with d := .s 3 } pc0 ∧ Issues intState 0x21 { f0 with d := .p 2 } pc0 ∧
    (∀ m ∈ [0, 13], Issues intState 0x23 { fInt with b := .none, c := .imm m } pc0) := by
  have h : ∀ m ∈ ([1, 3] : List Byte), (issuesB intState 0x20 { f0 with d := .p 2, a := .p 0, c := .imm m } pc0 && issuesB intState 0x20 { f0 with d := .s 3, a := .p 0, c := .imm m } pc0) = true := by decide
  have g : ∀ m ∈ ([0, 13] : List Byte), issuesB intState 0x23 { fInt with b := .none, c := .imm m } pc0 = true := by decide
  refine ⟨issues_of (by decide), issues_of (by decide), fun m k => ?_, issues_of (by decide), issues_of (by decide), fun m k => issues_of (g m k)⟩
  have := h m k; simp only [Bool.and_eq_true] at this; exact ⟨issues_of this.1, issues_of this.2⟩


/-- Two headers in the page of code, at 0x10100 and, an entry header, at 0x10200. -/
def memHdr : List Host.Cell := memWrite (memWrite (mem0 []) 0x10100 (toBytes 8 0x7F80583000060080)) 0x10200 (toBytes 8 0x7F80583000060280)
def ctlState : State :=
  let s := onCrew (sRegs [(1, 0x10100, tADDR), (2, 0x10200, tADDR), (3, 0x10104, tADDR), (4, 2, tI64)] (vTags [(0, tI32)] crew0))
  { s with m := { s.m with mem := memHdr } }
def tgt (op : Nat) (f : Fields) (reg entry : Bool) (ts : Ctx → List (Nat × Word)) : Bool :=
  issuesB ctlState op f pc0 && okB (checkTargets (issued ctlState.m pc0 op f) (issueCtx ctlState.m pc0 op f) reg entry (ts (issueCtx ctlState.m pc0 op f)))
/-- The transfer issues and its targets pass. -/
def Passes (op : Nat) (f : Fields) (reg entry : Bool) (ts : Ctx → List (Nat × Word)) : Prop :=
  Issues ctlState op f pc0 ∧ ∃ m, checkTargets (issued ctlState.m pc0 op f) (issueCtx ctlState.m pc0 op f) reg entry (ts (issueCtx ctlState.m pc0 op f)) = .ok m
theorem tgt_of {op : Nat} {f : Fields} {reg entry : Bool} {ts : Ctx → List (Nat × Word)} (h : tgt op f reg entry ts = true) : Passes op f reg entry ts := by
  simp only [tgt, Bool.and_eq_true] at h; exact ⟨issues_of h.1, ok_ex h.2⟩

theorem wit_br : Passes 0x30 { f0 with a := .imm 32 } false false toDirect := tgt_of (by decide)
theorem wit_brx : Passes 0x31 { f0 with a := .s 1 } true false toReg := tgt_of (by decide)
theorem wit_ret : Passes 0x34 { f0 with a := .s 1 } true false toReg := tgt_of (by decide)
theorem wit_call : Passes 0x32 { f0 with d := .s 5, a := .imm 32 } false false toDirect := tgt_of (by decide)
theorem wit_callx : Passes 0x33 { f0 with d := .s 5, a := .s 2 } true true toReg := tgt_of (by decide)
theorem wit_loop : let f := { f0 with ty := 1, d := .v 0, a := .imm 32 }
    IntType f ∧ Issues ctlState 0x35 f pc0 ∧ ∃ m, checkTargets (issued ctlState.m pc0 0x35 f) (issueCtx ctlState.m pc0 0x35 f) false false
      (toDirect (issueCtx ctlState.m pc0 0x35 f)) = .ok m :=
  ⟨.inl rfl, issues_of (by decide), ok_ex (by decide)⟩
/-- The page behind the code is mapped too, and holds zeros. -/
def farState : State := { ctlState with m := { ctlState.m with mem := memWrite memHdr (placeTables + 4096 * 5 + 16 * vaIndex 0 0x11000) (toBytes 16 (memNum memHdr (placeTables + 4096 * 5 + 16 * vaIndex 0 0x10000) 16 + 0x1000)) } }
/-- Its checks fail, at a target of lane 0 that is misaligned, or that is no header on another page. -/
def failB (op : Nat) (f : Fields) (reg entry : Bool) (ts : Ctx → List (Nat × Word)) : Bool :=
  let x := issueCtx farState.m pc0 op f
  let m := (ts x).foldl (fun m t => demandPage m m.cur.core m.cur.job t.2.toNat) (issued farState.m pc0 op f)
  issuesB farState op f pc0 && fails (checkTargets (issued farState.m pc0 op f) x reg entry (ts x)) &&
    (ts x).any (fun t => t.2.toNat % 8 != 0 || (match check1 m (whoOf m.cur) 4 false { lane := 0, va := t.2.toNat, size := 8 } with
      | .ok o => !isHeader (memNum m.mem o.pa 8) || entry && !hdrEntry (memNum m.mem o.pa 8) | .error _ => false)) &&
    (reg || decide ((directTarget x).toNat / 4096 ≠ pc0.toNat / 4096))
theorem wit_transfer_fails : failB 0x30 { f0 with wide := true, a := .lit, lit := 0x1000 } false false toDirect = true ∧ failB 0x31 { f0 with a := .s 3 } true false toReg = true ∧
    failB 0x32 { f0 with wide := true, d := .s 5, a := .lit, lit := 0x1000 } false false toDirect = true ∧ failB 0x33 { f0 with d := .s 5, a := .s 3 } true true toReg = true ∧
    failB 0x34 { f0 with a := .s 3 } true false toReg = true ∧ failB 0x35 { f0 with wide := true, ty := 1, d := .v 0, a := .lit, lit := 0x1000 } false false toDirect = true := by
  decide +kernel
/-- A header that is no entry header is a bad target of `callx`. -/
theorem wit_callx_entry : failB 0x33 { f0 with d := .s 5, a := .s 1 } true true toReg = true := by decide +kernel

theorem wit_exit : Issues intState 0x36 f0 pc0 ∧ intState.m.cur.live &&& ~~~ (issueCtx intState.m pc0 0x36 f0).e = 0 ∧
    (∃ m, commit { issued intState.m pc0 0x36 f0 with cur := syncTest { (issued intState.m pc0 0x36 f0).cur with live := 0 } } = .ok m) :=
  ⟨issues_of (by decide), by decide, ok_ex (by decide)⟩
/-- With the guard `p1` set in lane 0 the other lanes stay. -/
def oneLane : State := onCrew (pSetBit (vTags [(0, tI32)] crew0) 1 0 true)
theorem wit_exit_some : Issues oneLane 0x36 { f0 with guard := some 1 } pc0 ∧
    oneLane.m.cur.live &&& ~~~ (issueCtx oneLane.m pc0 0x36 { f0 with guard := some 1 }).e ≠ 0 := ⟨issues_of (by decide), by decide⟩
/-- An `exit` whose commit fails: the segment's line lies on a page that is not mapped. -/
def lostSeg : State := onCrew { crew0 with seg := [{ va := 0x600, pa := 0x700, bytes := [(0, 1)], pc := 0, treat := 256 }] }
theorem wit_exit_fails : Issues lostSeg 0x36 f0 pc0 ∧ lostSeg.m.cur.live &&& ~~~ (issueCtx lostSeg.m pc0 0x36 f0).e = 0 ∧
    ∃ h, commit { issued lostSeg.m pc0 0x36 f0 with cur := syncTest { (issued lostSeg.m pc0 0x36 f0).cur with live := 0 } } = .error h :=
  ⟨issues_of (by decide), by decide, err_ex (by decide)⟩
theorem wit_msync : (Issues intState 0x37 { f0 with a := .m 0 } pc0 ∧ (issueCtx intState.m pc0 0x37 { f0 with a := .m 0 }).e &&& mGet intState.m.cur 0 ≠ 0) ∧
    Issues intState 0x37 { f0 with a := .m 1 } pc0 ∧ (issueCtx intState.m pc0 0x37 { f0 with a := .m 1 }).e &&& mGet intState.m.cur 1 = 0 :=
  ⟨⟨issues_of (by decide), by decide⟩, issues_of (by decide), by decide⟩
theorem wit_mset : (∀ m ∈ [1, 2, 3], Issues intState 0x38 { f0 with ty := 6, d := .m 1, a := .m 0, b := .imm 3, c := .imm m } pc0) ∧
    Issues intState 0x38 { f0 with ty := 6, d := .m 1, a := .imm 3, c := .imm 0 } pc0 ∧ Issues intState 0x38 { f0 with ty := 6, d := .m 1, c := .imm 4 } pc0 := by
  have h : ∀ m ∈ ([1, 2, 3] : List Byte), issuesB intState 0x38 { f0 with ty := 6, d := .m 1, a := .m 0, b := .imm 3, c := .imm m } pc0 = true := by decide
  exact ⟨fun m k => issues_of (h m k), issues_of (by decide), issues_of (by decide)⟩
def asked : State := onCrew { crew0 with pre := some { cycle := 0, deadline := 9, byTid := 7, byCls := 0 } }
theorem wit_yield : (Issues intState 0x39 f0 pc0 ∧ intState.m.cur.pre = none) ∧ Issues asked 0x39 f0 pc0 ∧ asked.m.cur.pre ≠ none :=
  ⟨⟨issues_of (by decide), rfl⟩, issues_of (by decide), by decide⟩

/-! ### Floating point and formats -/

def fpState : State := onCrew (sRegs [(1, 0x3F800000, tF32), (2, 5, tN32), (8, 0, tRAW), (9, 0, tRAW), (10, 0, tRAW), (11, 0, tRAW), (12, 0, tRAW), (13, 0, tRAW),
  (14, 0, tRAW), (15, 0, tRAW)] (vTags ((List.range 8).map (fun i => (i, tF32)) ++ [(8, BitVec.ofNat 4 (tyTag 7)), (9, BitVec.ofNat 4 (tyTag 9)),
    (10, BitVec.ofNat 4 (tyTag 11)), (11, BitVec.ofNat 4 (tyTag 13)), (12, BitVec.ofNat 4 (tyTag 14)), (13, tI32)]) crew0))
def fF : Fields := { f0 with ty := 3, d := .v 16, a := .v 0, b := .v 1 }
theorem wit_fp : (∀ m ∈ [0, 4], ∀ op ∈ [0x40, 0x41, 0x42, 0x4C], Issues fpState op { fF with c := .imm m } pc0) ∧ Issues fpState 0x43 { fF with c := .v 2 } pc0 ∧
    Issues fpState 0x4B { fF with b := .none, c := .imm 4 } pc0 ∧ (∀ op ∈ [0x44, 0x45], Issues fpState op fF pc0) ∧
    (∀ op ∈ [0x46, 0x47, 0x49, 0x4A, 0x4D, 0x4E, 0x4F, 0x50, 0x51, 0x5A], Issues fpState op { fF with b := .none } pc0) ∧
    Issues fpState 0x40 { fF with ty := 7, a := .v 8, b := .v 8, c := .imm 1 } pc0 := by
  have h : ∀ m ∈ ([0, 4] : List Byte), [0x40, 0x41, 0x42, 0x4C].all (fun op => issuesB fpState op { fF with c := .imm m } pc0) = true := by decide
  exact ⟨fun m k => issues_all (h m k), issues_of (by decide), issues_of (by decide), issues_all (by decide), issues_all (by decide), issues_of (by decide)⟩
theorem wit_nan : isNan (decF f32 0x7FC00000) = true ∧ isNan (decF f32 0x3F800000) = false ∧ 0x7FC00000 < 2 ^ 32 := by decide +kernel
theorem wit_fcmp : (∀ m ∈ [0, 7], let f := { fF with d := .p 1, c := .imm m }; modeOf f ≤ 7 ∧ Issues fpState 0x48 f pc0 ∧ (Instr.fcmp f).wf = true) := by
  have h : ∀ m ∈ ([0, 7] : List Byte), (let f := { fF with d := .p 1, c := .imm m }; decide (modeOf f ≤ 7) && issuesB fpState 0x48 f pc0 && (Instr.fcmp f).wf) = true := by decide
  intro m k; have := h m k; simp only [Bool.and_eq_true, decide_eq_true_eq] at this; exact ⟨this.1.1, issues_of this.1.2, this.2⟩
theorem wit_conv : Issues fpState 0x52 { fF with b := .none, c := .imm 2 } pc0 ∧ Issues fpState 0x53 { f0 with ty := 1, d := .v 16, a := .v 0, c := .imm 1 } pc0 ∧
    Issues fpState 0x54 { f0 with ty := 1, d := .v 16, a := .v 13, c := .imm 0 } pc0 ∧ Issues fpState 0x55 { f0 with ty := 3, d := .v 16, a := .v 8, b := .imm 1, c := .imm 8 } pc0 ∧
    Issues fpState 0x55 { f0 with wide := true, ty := 9, d := .v 16, a := .v 0, b := .imm 3, c := .imm 4 } pc0 ∧ Issues fpState 0x56 { f0 with ty := 7, d := .v 16, a := .v 0, c := .imm 0 } pc0 ∧
    Issues fpState 0x57 { f0 with ty := 7, d := .v 16, a := .v 8 } pc0 :=
  ⟨issues_of (by decide), issues_of (by decide), issues_of (by decide), issues_of (by decide), issues_of (by decide), issues_of (by decide), issues_of (by decide)⟩
theorem wit_quant : Issues fpState 0x58 { f0 with ty := 7, d := .v 16, a := .v 8, b := .v 8, c := .v 0 } pc0 ∧ Issues fpState 0x59 { f0 with wide := true, ty := 11, d := .v 16, a := .v 10, b := .v 10, c := .v 13 } pc0 ∧
    Issues fpState 0x5B { f0 with ty := 3, d := .v 16, a := .v 0, b := .imm 1, c := .imm 2 } pc0 ∧ Issues fpState 0x5C { f0 with wide := true, ty := 13, d := .v 16, a := .imm 3 } pc0 ∧
    Issues fpState 0x5D { f0 with wide := true, ty := 13, d := .v 16, a := .v 0, b := .imm 3, c := .imm 0 } pc0 ∧ Issues fpState 0x5E { f0 with wide := true, ty := 13, d := .v 16, a := .v 11, b := .imm 3, c := .imm 0 } pc0 ∧
    Issues fpState 0x5F { f0 with wide := true, ty := 14, d := .v 16, a := .v 12, c := .s 8 } pc0 ∧ Issues fpState 0x60 { f0 with wide := true, ty := 14, d := .v 16, a := .v 11, b := .v 11, c := .none } pc0 :=
  ⟨issues_of (by decide), issues_of (by decide), issues_of (by decide), issues_of (by decide), issues_of (by decide), issues_of (by decide), issues_of (by decide), issues_of (by decide)⟩
theorem wit_tags : (∀ k ∈ [0, 11, 12], Issues fpState 0x62 { f0 with d := .v 3, a := .imm k, c := .imm 0 } pc0 ∨ k = 12) ∧ Issues fpState 0x62 { f0 with ty := 6, d := .v 4, a := .imm 13, c := .imm 0 } pc0 ∧
    Issues fpState 0x62 { f0 with d := .s 3, a := .s 2, c := .imm 0 } pc0 ∧ Issues (onCrew (sRegs [(2, 12, tN32)] crew0)) 0x62 { f0 with d := .s 3, a := .s 2, c := .imm 0 } pc0 ∧
    Issues fpState 0x63 { f0 with d := .v 3, a := .v 5, c := .imm 0 } pc0 := by
  have h : ∀ k ∈ ([0, 11] : List Byte), issuesB fpState 0x62 { f0 with d := .v 3, a := .imm k, c := .imm 0 } pc0 = true := by decide
  refine ⟨fun k m => ?_, issues_of (by decide), issues_of (by decide), issues_of (by decide), issues_of (by decide)⟩
  by_cases e : k = 12
  · exact .inr e
  · exact .inl (issues_of (h k (by simp_all)))

/-! ### Memory -/

def dataState (data : List Byte) : State :=
  onMem data (sRegs [(1, 0x20000, tADDR), (2, 5, tN32), (3, 0x20041, tADDR), (4, 0x20000, tI64), (5, 7, tI64), (6, 0x200, tI64)]
    (vTags [(0, tN32), (1, tN32), (2, tN32)] crew0))
def d0 : State := dataState []
theorem wit_address : inBte (2 ^ 57) = false ∧ 2 ^ 57 ≤ (2 ^ 57 : Nat) ∧ inBte 0x20001 = false ∧ (0x20001 : Nat) < 2 ^ 57 ∧ 0x20001 % 4 ≠ 0 := by decide +kernel
/-- The last bytes of a line. -/
theorem wit_held_back : d0.m.cur.seg.length < segMax ∧ setFull d0.m (0x3007C / 128) = false ∧ ([1, 2, 3, 4] : List Byte) ≠ [] ∧ 0x3007C % 128 + ([1, 2, 3, 4] : List Byte).length ≤ 128 := by decide +kernel
def segState : State := onMem [] { crew0 with seg := [{ va := 0x400, pa := 0x600, bytes := [(0, 1), (127, 2)], pc := 0, treat := 256 }] }
theorem segState_wf : SegWf segState.m.cur := by unfold SegWf; decide
def prepB (m : Mach) (l : SpecLine) : Bool := chain (prepare m m.cur.job l) (fun a => a == l.pa)
theorem wit_commit : SegWf segState.m.cur ∧ (∀ l ∈ segState.m.cur.seg, segState.m.held.contains l.pa = false ∧ crewHeld segState.m l.pa = false) ∧
    ∀ l ∈ segState.m.cur.seg, prepare segState.m segState.m.cur.job l = .ok l.pa := by
  refine ⟨segState_wf, by decide, ?_⟩
  have h : segState.m.cur.seg.all (prepB segState.m) = true := by decide
  intro l hl
  obtain ⟨a, h1, h2⟩ := chain_of (List.all_eq_true.mp h l hl)
  rw [h1, eq_of_beq h2]
theorem wit_commit_fails : SegWf lostSeg.m.cur ∧ (∀ l ∈ lostSeg.m.cur.seg, lostSeg.m.held.contains l.pa = false ∧ crewHeld lostSeg.m l.pa = false) ∧
    ∃ l ∈ lostSeg.m.cur.seg, ∃ e, prepare lostSeg.m lostSeg.m.cur.job l = .error e :=
  ⟨by unfold SegWf; decide, by decide, _, .head _, by
    have h : chain (prepare lostSeg.m lostSeg.m.cur.job { va := 0x600, pa := 0x700, bytes := [(0, 1)], pc := 0, treat := 256 }) (fun _ => true) = false := by decide
    cases e : prepare lostSeg.m lostSeg.m.cur.job { va := 0x600, pa := 0x700, bytes := [(0, 1)], pc := 0, treat := 256 } with
    | ok a => rw [e] at h; cases h
    | error x => exact ⟨x, rfl⟩⟩

def fLd : Fields := { f0 with ty := 2, d := .v 3, a := .s 1, b := .v 0 }
theorem wit_load : let x := issueCtx d0.m pc0 0x80 fLd
    let i := issued d0.m pc0 0x80 fLd
    Issues d0 0x80 fLd pc0 ∧ indexCheck x (ldLanes x) = .ok () ∧ sbStall i i.cur false (memAccs x (ldLanes x)) = .ok () ∧
      ∃ m₁ m₂ oks, checkAll i (whoOf i.cur) 1 true (memAccs x (ldLanes x)) = .ok (m₁, oks) ∧ raceCheck m₁ false oks = .ok m₂ ∧ viewCheck m₂ m₂.cur.job x.cd.viewWait oks = .ok () := by
  refine ⟨issues_of (by decide), ok_of (by decide), ok_of (by decide), ?_⟩
  obtain ⟨⟨m₁, oks⟩, h1, h2⟩ := chain_of (r := checkAll (issued d0.m pc0 0x80 fLd) (whoOf (issued d0.m pc0 0x80 fLd).cur) 1 true
    (memAccs (issueCtx d0.m pc0 0x80 fLd) (ldLanes (issueCtx d0.m pc0 0x80 fLd))))
    (g := fun q => chain (raceCheck q.1 false q.2) (fun m => okB (viewCheck m m.cur.job (issueCtx d0.m pc0 0x80 fLd).cd.viewWait q.2))) (by decide)
  obtain ⟨m₂, h3, h4⟩ := chain_of h2
  exact ⟨m₁, m₂, oks, h1, h3, ok_of h4⟩
theorem wit_load_acq : let f := { fLd with wide := true, ord := 1, sc := 1 }
    let x := issueCtx d0.m pc0 0x80 f
    let i := issued d0.m pc0 0x80 f
    Issues d0 0x80 f pc0 ∧ indexCheck x (ldLanes x) = .ok () ∧ ∃ m₁ m₂ oks, checkAll i (whoOf i.cur) 1 true (memAccs x (ldLanes x)) = .ok (m₁, oks) ∧
      viewCheck m₁ m₁.cur.job x.cd.viewWait oks = .ok () ∧ commitOwns (reachedLines oks) m₁ = .ok m₂ := by
  refine ⟨issues_of (by decide), ok_of (by decide), ?_⟩
  obtain ⟨⟨m₁, oks⟩, h1, h2⟩ := chain_of (r := checkAll (issued d0.m pc0 0x80 { fLd with wide := true, ord := 1, sc := 1 })
      (whoOf (issued d0.m pc0 0x80 { fLd with wide := true, ord := 1, sc := 1 }).cur) 1 true
    (memAccs (issueCtx d0.m pc0 0x80 { fLd with wide := true, ord := 1, sc := 1 }) (ldLanes (issueCtx d0.m pc0 0x80 { fLd with wide := true, ord := 1, sc := 1 }))))
    (g := fun q => okB (viewCheck q.1 q.1.cur.job (issueCtx d0.m pc0 0x80 { fLd with wide := true, ord := 1, sc := 1 }).cd.viewWait q.2) && okB (commitOwns (reachedLines q.2) q.1)) (by decide)
  simp only [Bool.and_eq_true] at h2
  obtain ⟨m₂, h3⟩ := ok_ex h2.2
  exact ⟨m₁, m₂, oks, h1, ok_of h2.1, h3⟩

/-- The lanes of a store. -/
def stLanes (x : Ctx) (d : Opd) : List Nat := (if uniAddr x && opdIsS d then [x.low] else x.lanes).drop x.cd.placed
/-- A plain and a release store. -/
def storeB (f : Fields) : Bool :=
  let x := issueCtx d0.m pc0 0x81 f
  let i := issued d0.m pc0 0x81 f
  let size := tySize f.ty.toNat
  let ls := stLanes x f.d
  let rel : Bool := f.ord == 2
  issuesB d0 0x81 f pc0 && (memAccs x ls).all (fun a => !inBte a.va) && okB (indexCheck x ls) && okB (sbStall i i.cur true (memAccs x ls)) &&
    chain (checkAll i (whoOf i.cur) 2 true (memAccs x ls)) (fun q =>
      chain (if rel then .ok q.1 else raceCheck q.1 true q.2) (fun m₂ => chain (leeAsk m₂ m₂.cur (leeExcess m₂ m₂.cur false 0)) (fun m₃ =>
        chain (if rel then commit m₃ else .ok m₃) (fun m₄ => okB (q.2.foldlM (fun m o =>
          let bs := toBytes size (sizedVal x x.cd f.ty.toNat f.d o.acc.lane)
          match storeWaits m { acc := o.acc, bytes := bs, ok := some o } o with
          | .error h => .error h
          | .ok _ =>
            if isAperture o.pa then .ok (m.send (.apWrite (o.pa - apBase) bs))
            else if rel then .ok (commitRun m o.pa bs) else storePlain m pc0 o.acc.va o.pa bs) m₄ : R Mach)))))
theorem wit_store_hyps {f : Fields} (h : storeB f = true) : let x := issueCtx d0.m pc0 0x81 f
    let i := issued d0.m pc0 0x81 f
    let size := tySize f.ty.toNat
    let ls := stLanes x f.d
    let rel : Bool := f.ord == 2
    Issues d0 0x81 f pc0 ∧ (∀ a ∈ memAccs x ls, inBte a.va = false) ∧ indexCheck x ls = .ok () ∧ sbStall i i.cur true (memAccs x ls) = .ok () ∧
    ∃ m₁ m₂ m₃ m₄ m₅ oks, checkAll i (whoOf i.cur) 2 true (memAccs x ls) = .ok (m₁, oks) ∧ (if rel then .ok m₁ else raceCheck m₁ true oks) = .ok m₂ ∧
      leeAsk m₂ m₂.cur (leeExcess m₂ m₂.cur false 0) = .ok m₃ ∧ (if rel then commit m₃ else .ok m₃) = .ok m₄ ∧
      (oks.foldlM (fun m o =>
        let bs := toBytes size (sizedVal x x.cd f.ty.toNat f.d o.acc.lane)
        match storeWaits m { acc := o.acc, bytes := bs, ok := some o } o with
        | .error h => .error h
        | .ok _ =>
          if isAperture o.pa then .ok (m.send (.apWrite (o.pa - apBase) bs))
          else if rel then .ok (commitRun m o.pa bs) else storePlain m pc0 o.acc.va o.pa bs) m₄ : R Mach) = .ok m₅ := by
  simp only [storeB, Bool.and_eq_true] at h
  obtain ⟨⟨⟨⟨h1, h2⟩, h3⟩, h4⟩, h5⟩ := h
  obtain ⟨⟨m₁, oks⟩, a1, h5⟩ := chain_of h5
  obtain ⟨m₂, a2, h5⟩ := chain_of h5
  obtain ⟨m₃, a3, h5⟩ := chain_of h5
  obtain ⟨m₄, a4, h5⟩ := chain_of h5
  obtain ⟨m₅, a5⟩ := ok_ex h5
  exact ⟨issues_of h1, fun a ha => by simpa using List.all_eq_true.mp h2 a ha, ok_of h3, ok_of h4, m₁, m₂, m₃, m₄, m₅, oks, a1, a2, a3, a4, a5⟩
theorem wit_store : storeB { f0 with ty := 2, d := .v 1, a := .s 1, b := .v 0 } = true := by decide +kernel
theorem wit_store_rel : storeB { f0 with wide := true, ty := 2, d := .s 2, a := .s 1, ord := 2, sc := 1 } = true := by decide +kernel

/-- A template: one row from memory to memory, its stamp behind. -/
def tmpl0 : List Byte := splice (List.replicate 128 0) 0 (toBytes 8 0x20000 ++ toBytes 8 0x20800 ++ toBytes 8 0x20F00 ++ toBytes 4 16 ++ toBytes 2 1 ++ toBytes 2 1)
def bteState : State := { d0 with m := { d0.m with launches := [(4, { placeLaunch with tmpls := [(3, tmpl0)] })] } }
def cmd0 (st : Bool) (sg : List Nat) : Cmd := { seq := 1, op := 5, job := 1, launch := 4, tid := 1, core := 0, pc := pc0, tmpl := tmpl0, arg := 0, started := st, err := false, signals := sg }
/-- Its channel 0 on die 0 holds n commands, and the scoreboard the entry of one. -/
def bteQueue (n : Nat) : Mach :=
  { bteState.m with
    dies := [(0, { Die.reset 0 with chans := [(0, { queue := List.replicate n (cmd0 false []), accepted := n, stamped := 0 })] })]
    cores := [(0, { Core.reset 0 with sb := [{ id := 5, tid := 1, pc := pc0, src := false, range := .mem 1 0x20800 16 }] })] }
theorem wit_bte : let rs := (bteRanges bteState.m.cur.job bteState.m.cur.launch tmpl0 (bits (3 * 2 ^ 48) 47 0)).map (·.2)
    ((bteState.m.launch bteState.m.cur.launch).bind (fun l => smFind l.tmpls (bits (3 * 2 ^ 48) 55 48))) = some tmpl0 ∧
    bteWaits bteState.m 0 0 0 rs = none ∧ (chanGet (bteQueue 16) 0 0).queue.length = 16 ∧ (chanGet (bteQueue 15) 0 0).queue.length < 16 ∧
    (sbConflict (bteQueue 15) 0 rs).isSome = true := by decide
/-- A store of s2 to the aperture at s1, with template 3 defined. -/
def apSt (va data : Word) : State :=
  let s := onMem [] (sRegs [(1, va, tADDR), (2, data, tI64)] (vTags [(0, tN32)] crew0))
  { s with m := { s.m with launches := [(4, { placeLaunch with tmpls := [(3, tmpl0)] })] } }
def fAp (y : Byte) : Fields := { f0 with ty := y, d := .s 2, a := .s 1 }
def legalB (s : State) (x : Ctx) (L : Nat) : Bool :=
  decide (storeVa x L % 1024 = 0) && decide (storeData x L < 2 ^ 56) && ((s.m.launch s.m.cur.launch).bind (fun l => smFind l.tmpls (bits (storeData x L) 55 48))).isSome
/-- What the statements about the aperture ask of a uniform store, besides that it is legal. -/
def apB (va data : Word) (y : Byte) (legal : Bool) : Bool :=
  let s := apSt va data
  let x := issueCtx s.m pc0 0x81 (fAp y)
  let i := issued s.m pc0 0x81 (fAp y)
  issuesB s 0x81 (fAp y) pc0 && okB (indexCheck x (storeLanes x)) && storeLanes x == [0] && inBte (storeVa x 0) && legalB s x 0 == legal &&
    okB (sbStall i i.cur true (memAccs x (storeLanes x)))
theorem wit_ap_store : let s := apSt 0x1FFFFFFFFF80000 (3 * 2 ^ 48)
    let x := issueCtx s.m pc0 0x81 (fAp 6)
    let i := issued s.m pc0 0x81 (fAp 6)
    apB 0x1FFFFFFFFF80000 (3 * 2 ^ 48) 6 true = true ∧ chain (leeAsk i i.cur (leeExcess i i.cur false (bteUnits i tmpl0))) (fun m =>
      okB (bteAccept pc0 (storeVa x 0) (storeData x 0) m) &&
      (bteWaits m m.cur.core 0 0 ((bteRanges m.cur.job m.cur.launch tmpl0 (bits (storeData x 0) 47 0)).map (·.2))).isNone) = true ∧
    bits (storeVa x 0) 18 16 = 0 ∧ bits (storeVa x 0) 15 10 = 0 := by decide +kernel
/-- An address that is no channel's place, reserved data bits, a template that is not defined, and another type. -/
theorem wit_ap_illegal : apB 0x1FFFFFFFFF80008 (3 * 2 ^ 48) 6 false = true ∧ apB 0x1FFFFFFFFF80000 (2 ^ 63 + 3 * 2 ^ 48) 6 false = true ∧
    apB 0x1FFFFFFFFF80000 (4 * 2 ^ 48) 6 false = true ∧ apB 0x1FFFFFFFFF80000 (3 * 2 ^ 48) 5 true = true := by decide +kernel
/-- A release commits its segment first. -/
theorem wit_ap_release : let f := { fAp 6 with wide := true, ord := 2, sc := 1 }
    let s := apSt 0x1FFFFFFFFF80000 (3 * 2 ^ 48)
    issuesB s 0x81 f pc0 = true ∧ okB (commit (issued s.m pc0 0x81 f)) = true := by decide +kernel

/-- Every atomic of the statements passes on the page of data, unordered and with release. -/
def atomB (op : Nat) (f : Fields) (ap red : Bool) : Bool :=
  let x := issueCtx d0.m pc0 op f
  let i := issued d0.m pc0 op f
  let ls := if red then x.lanes else dLanes x f.d
  issuesB d0 op f pc0 && okB (sbStall i i.cur false (atomAccs x ls)) && okB (sbStall i i.cur true (atomAccs x ls)) &&
    chain (checkAll i (whoOf i.cur) 3 (i.atomicEn && ap) (atomAccs x ls)) (fun q =>
      chain (if 2 ≤ f.ord.toNat then commit q.1 else .ok q.1) (fun m => okB (commitOwns (reachedLines q.2) m)))
theorem wit_atomics {op : Nat} {f : Fields} {ap red : Bool} (h : atomB op f ap red = true) :
    let x := issueCtx d0.m pc0 op f
    let i := issued d0.m pc0 op f
    let ls := if red then x.lanes else dLanes x f.d
    Issues d0 op f pc0 ∧ ∃ m₁ m₂ m₃ oks, sbStall i i.cur false (atomAccs x ls) = .ok () ∧ sbStall i i.cur true (atomAccs x ls) = .ok () ∧
      checkAll i (whoOf i.cur) 3 (i.atomicEn && ap) (atomAccs x ls) = .ok (m₁, oks) ∧ (if 2 ≤ f.ord.toNat then commit m₁ else .ok m₁) = .ok m₂ ∧
      commitOwns (reachedLines oks) m₂ = .ok m₃ := by
  simp only [atomB, Bool.and_eq_true] at h
  obtain ⟨⟨⟨h1, h2⟩, h3⟩, h4⟩ := h
  obtain ⟨⟨m₁, oks⟩, a1, h4⟩ := chain_of h4
  obtain ⟨m₂, a2, h4⟩ := chain_of h4
  obtain ⟨m₃, a3⟩ := ok_ex h4
  exact ⟨issues_of h1, m₁, m₂, m₃, oks, ok_of h2, ok_of h3, a1, a2, a3⟩
theorem wit_atom : atomB 0x82 { f0 with ty := 2, d := .v 3, a := .s 1, b := .v 1, c := .imm 0 } true false = true := by decide +kernel
theorem wit_red : atomB 0x83 { f0 with wide := true, ty := 2, a := .s 1, b := .v 1, c := .imm 5, ord := 2, sc := 1 } false true = true := by decide +kernel
theorem wit_cas : atomB 0x84 { f0 with ty := 2, d := .s 7, a := .s 1, b := .s 2, c := .s 2 } true false = true := by decide +kernel
theorem wit_atom_lanes : (0 : Nat) < 4 ∧ isAperture 0x30000 = false ∧ (2 ^ 32 - 1 : Nat) < 2 ^ 32 := by decide +kernel

def fRel : Fields := { f0 with wide := true, ord := 2, sc := 1 }
theorem wit_fence : let i := issued segState.m pc0 0x85 fRel
    Issues d0 0x85 { f0 with wide := true, ord := 1, sc := 1 } pc0 ∧ Issues segState 0x85 fRel pc0 ∧ SegWf i.cur ∧
    ∀ l ∈ i.cur.seg, prepare i i.cur.job l = .ok l.pa ∧ i.held.contains l.pa = false ∧ crewHeld i l.pa = false := by
  refine ⟨issues_of (by decide), issues_of (by decide), by unfold SegWf; decide, ?_⟩
  have h : (issued segState.m pc0 0x85 fRel).cur.seg.all (fun l => prepB (issued segState.m pc0 0x85 fRel) l &&
    !(issued segState.m pc0 0x85 fRel).held.contains l.pa && !crewHeld (issued segState.m pc0 0x85 fRel) l.pa) = true := by decide
  intro l hl
  have k := List.all_eq_true.mp h l hl
  simp only [Bool.and_eq_true, Bool.not_eq_true'] at k
  obtain ⟨a, h1, h2⟩ := chain_of k.1.1
  exact ⟨by rw [h1, eq_of_beq h2], k.1.2, k.2⟩
theorem wit_fence_traps : Issues lostSeg 0x85 fRel pc0 ∧ ∃ e, commit (issued lostSeg.m pc0 0x85 fRel) = .error (.trap e) := by
  refine ⟨issues_of (by decide), ?_⟩
  have h : (match commit (issued lostSeg.m pc0 0x85 fRel) with | .error (.trap _) => true | _ => false) = true := by decide
  split at h
  · exact ⟨_, by assumption⟩
  · cases h
theorem wit_monarm : let f := { f0 with ty := 2, a := .s 1 }
    Issues d0 0x86 f pc0 ∧ ∃ m o, checkAll (issued d0.m pc0 0x86 f) (whoOf (issued d0.m pc0 0x86 f).cur) 1 true
      (memAccs (issueCtx d0.m pc0 0x86 f) [(issueCtx d0.m pc0 0x86 f).low]) = .ok (m, [o]) := by
  refine ⟨issues_of (by decide), ?_⟩
  obtain ⟨⟨m, l⟩, h1, h2⟩ := chain_of (r := checkAll (issued d0.m pc0 0x86 { f0 with ty := 2, a := .s 1 }) (whoOf (issued d0.m pc0 0x86 { f0 with ty := 2, a := .s 1 }).cur) 1 true
      (memAccs (issueCtx d0.m pc0 0x86 { f0 with ty := 2, a := .s 1 }) [(issueCtx d0.m pc0 0x86 { f0 with ty := 2, a := .s 1 }).low]))
      (g := fun q => match q.2 with | [_] => true | _ => false) (by decide)
  match l, h2 with
  | [o], _ => exact ⟨m, o, h1⟩
def armed : State := onCrew { crew0 with monitor := { armed := true, addr := 0x20000, line := 0x600, fired := false } }
theorem wit_monwait : (Issues d0 0x87 f0 pc0 ∧ d0.m.cur.monitor.armed = false) ∧ Issues armed 0x87 f0 pc0 ∧ armed.m.cur.monitor.fired = false ∧ armed.m.cur.monitor.armed = true :=
  ⟨⟨issues_of (by decide), rfl⟩, issues_of (by decide), rfl, rfl⟩
theorem wit_pref : Issues d0 0x88 { f0 with ty := 2, a := .s 1, b := .v 0 } pc0 := issues_of (by decide)
theorem wit_cache : (∀ op ∈ [0x89, 0x8A], Issues d0 op { f0 with a := .s 1, b := .imm 0, c := .imm 0 } pc0) ∧
    (∀ op ∈ [0x89, 0x8A], Issues d0 op { f0 with a := .s 1, b := .s 6, c := .imm 0 } pc0) ∧
    (let x := issueCtx d0.m pc0 0x89 { f0 with a := .s 1, b := .s 6, c := .imm 0 }
     (opB x 5 x.low).toNat = 0x200 ∧ ∃ m, cleanPages false 0 (whoOf d0.m.cur) ((opA x 15 x.low).toNat + 0x200 - 1) id
       ((pagesOf (opA x 15 x.low).toNat 0x200).map (fun p => { p with lane := x.low })) (issued d0.m pc0 0x89 { f0 with a := .s 1, b := .s 6, c := .imm 0 }) = .ok m) :=
  ⟨issues_all (by decide), issues_all (by decide), by decide, ok_ex (by decide)⟩
/-- A line that the L2 holds and a monitor watches. -/
def lineM : Mach := { d0.m with lineKey := [(1536, 256)], dirtyL2 := [1536], cur := { d0.m.cur with monitor := { armed := true, addr := 0x20000, line := 1536, fired := false } } }
theorem wit_clean_line : smFind lineM.lineKey 1536 = some 256 ∧ lineM.crews.any (fun c => c.monitor.armed && c.monitor.line == 1536) = true := by decide +kernel
def fTab : Fields := { f0 with d := .s 8, a := .s 1 }
theorem wit_cbload : (Issues d0 0x61 { f0 with d := .s 120 } pc0 ∧ 120 + 8 ≤ 128) ∧ Issues d0 0x61 fTab pc0 ∧
    (let i := issued d0.m pc0 0x61 fTab
     let x := issueCtx d0.m pc0 0x61 fTab
     let acc : Acc := { lane := x.low, va := (opA x 15 x.low).toNat, size := 64 }
     okB (sbStall i i.cur false [acc]) = true ∧ chain (checkAll i (whoOf i.cur) 1 true [acc]) (fun q => match q.2 with
       | [o] => !isAperture o.pa && chain (raceCheck q.1 false [o]) (fun m => okB (viewCheck m m.cur.job x.cd.viewWait [o]))
       | _ => false) = true) :=
  ⟨⟨issues_of (by decide), by decide⟩, issues_of (by decide), by decide, by decide⟩


/-! ### Waits, cells and groups -/

def c0 : State := onCrew crew0

theorem wit_waits : waitHolds c0.m c0.m.cur (.join .join) = true ∧ waitHolds c0.m c0.m.cur (.cell 0 1 true) = false ∧
    tableUsed c0.m (dieOf c0.m.cur.core) < 2048 ∧ c0.m.cur.slots ≠ [] := by decide
/-- A crew whose die's wait table is full. -/
def fullTable : State :=
  { c0 with m := { c0.m with others := (List.range 2048).map (fun i => (i + 2, { crew0 with tid := i + 2, status := .parked .monitor 0 })) } }
theorem wit_full_table : 2048 ≤ tableUsed fullTable.m (dieOf fullTable.m.cur.core) := by
  have h : tableUsed fullTable.m 0 = 2048 := by
    unfold tableUsed fullTable c0 onCrew
    decide
  exact Nat.le_of_eq h.symm

def tileLaunch : Launch := { placeLaunch with tile := 4 }
def cellAt (full : Bool) : Cell := { Cell.fresh 4 1 with full := full }
def cellState (full : Bool) : State :=
  let s := onCrew (sRegs [(1, 0x80000001, tN32), (2, 0x80000004, tN32)] (vTags ((List.range 32).map (fun i => (i, tN32))) crew0))
  { s with m := { s.m with launches := [(4, tileLaunch)], dies := [(0, { Die.reset 0 with cells := [cellAt full] })] } }
def cellFields (op : Nat) (r : BitVec 7) : Fields :=
  if op = 0x90 then { f0 with a := .s r, b := .v 0 } else if op = 0x91 then { f0 with d := .v 0, a := .s r } else if op = 0x92 then { f0 with a := .s r, c := .imm 0 }
  else { f0 with d := .s 5, a := .s r }
/-- CELL equal to TILE is the first that is refused. -/
theorem wit_cell_faults : (cellState false).m.launch 4 = some tileLaunch ∧ (∀ op ∈ [0x90, 0x91, 0x92, 0x93], Issues (cellState false) op (cellFields op 2) pc0 ∧
    cellWordOk tileLaunch.tile (opA (issueCtx (cellState false).m pc0 op (cellFields op 2)) 2 (issueCtx (cellState false).m pc0 op (cellFields op 2)).low).toNat = false) := by
  have h : [0x90, 0x91, 0x92, 0x93].all (fun op => issuesB (cellState false) op (cellFields op 2) pc0 && !cellWordOk tileLaunch.tile
    (opA (issueCtx (cellState false).m pc0 op (cellFields op 2)) 2 (issueCtx (cellState false).m pc0 op (cellFields op 2)).low).toNat) = true := by decide
  refine ⟨by rfl, fun op k => ?_⟩
  have := List.all_eq_true.mp h op k
  simp only [Bool.and_eq_true, Bool.not_eq_true'] at this
  exact ⟨issues_of this.1, this.2⟩
def argB (full : Bool) (op kind : Nat) : Bool :=
  issuesB (cellState full) op (cellFields op 1) pc0 &&
    chain (cellArg (issued (cellState full).m pc0 op (cellFields op 1)) (issueCtx (cellState full).m pc0 op (cellFields op 1)) kind) (fun q => q == (0, 1))
theorem arg_of {full : Bool} {op kind : Nat} (h : argB full op kind = true) : Issues (cellState full) op (cellFields op 1) pc0 ∧
    cellArg (issued (cellState full).m pc0 op (cellFields op 1)) (issueCtx (cellState full).m pc0 op (cellFields op 1)) kind = .ok (0, 1) := by
  simp only [argB, Bool.and_eq_true] at h
  obtain ⟨q, h1, h2⟩ := chain_of h.2
  exact ⟨issues_of h.1, by rw [h1, eq_of_beq h2]⟩
theorem wit_cells : (Issues (cellState false) 0x90 (cellFields 0x90 1) pc0 ∧ cellArg (issued (cellState false).m pc0 0x90 (cellFields 0x90 1))
      (issueCtx (cellState false).m pc0 0x90 (cellFields 0x90 1)) 2 = .ok (0, 1)) ∧
    (∃ m, commit (issued (cellState false).m pc0 0x90 (cellFields 0x90 1)) = .ok m ∧ cellTurn m (cellGet m 0 m.cur.launch 1) (1, false) = true) ∧
    (Issues (cellState true) 0x91 (cellFields 0x91 1) pc0 ∧ cellArg (issued (cellState true).m pc0 0x91 (cellFields 0x91 1))
      (issueCtx (cellState true).m pc0 0x91 (cellFields 0x91 1)) 1 = .ok (0, 1)) ∧
    cellTurn (issued (cellState true).m pc0 0x91 (cellFields 0x91 1)) (cellGet (issued (cellState true).m pc0 0x91 (cellFields 0x91 1)) 0 4 1) (1, true) = true ∧
    (∀ op ∈ [0x92, 0x93], Issues (cellState true) op (cellFields op 1) pc0) := by
  refine ⟨arg_of (by decide), ?_, arg_of (by decide), by decide, fun op k => ?_⟩
  · obtain ⟨m, h1, h2⟩ := chain_of (r := commit (issued (cellState false).m pc0 0x90 (cellFields 0x90 1)))
      (g := fun m => cellTurn m (cellGet m 0 m.cur.launch 1) (1, false)) (by decide)
    exact ⟨m, h1, h2⟩
  · have h : [0x92, 0x93].all (fun op => issuesB (cellState true) op (cellFields op 1) pc0) = true := by decide
    exact issues_of (List.all_eq_true.mp h op k)

def member0 : Member := { tid := 1, key := 7, counted := true, pending := false, leaving := false, arr := 0, con := none }
def group0 (ms : List Member) : Group := { idx := 0, job := 1, name := 0x55, done := 0, fault := false, members := ms, past := [] }
def groupState (ms : List Member) (gs : List (BitVec 7 × Word)) (c : Crew) : State :=
  let s := onCrew (sRegs ((1, 9, tI64) :: gs.map (fun e => (e.1.toNat, e.2, tI64))) c)
  { s with m := { s.m with groups := [group0 ms] } }
def fJoin : Fields := { f0 with d := .h 1, a := .s 2, b := .s 4, c := .p 1 }
def joinB (s : State) (want : Option Nat) : Bool :=
  let x := issueCtx s.m pc0 0xA0 fJoin
  issuesB s 0xA0 fJoin pc0 && decide (joinStatus (issued s.m pc0 0xA0 fJoin) (hGet s.m.cur 1) (sGet x.ca 2) (lo32 (sGet x.ca 3)).toNat = want)
/-- Accepted; and refused by an occupied handle, by a membership, by a taken key and by the key that is no key. -/
theorem wit_join : joinB (groupState [] [(2, 0x66), (3, 7)] crew0) none = true ∧
    joinB (groupState [] [(2, 0x55), (3, 7)] (hSet crew0 1 (hMake true false 0 7))) (some 4) = true ∧
    joinB (groupState [member0] [(2, 0x55), (3, 8)] crew0) (some 3) = true ∧
    joinB (groupState [{ member0 with tid := 9 }] [(2, 0x55), (3, 7)] crew0) (some 5) = true ∧
    joinB (groupState [] [(2, 0x66), (3, 0xFFFFFFFF)] crew0) (some 5) = true := by decide
theorem wit_join_of {s : State} {want : Option Nat} (h : joinB s want = true) : Issues s 0xA0 fJoin pc0 ∧
    joinStatus (issued s.m pc0 0xA0 fJoin) (hGet s.m.cur 1) (sGet (issueCtx s.m pc0 0xA0 fJoin).ca 2) (lo32 (sGet (issueCtx s.m pc0 0xA0 fJoin).ca 3)).toNat = want := by
  simp only [joinB, Bool.and_eq_true, decide_eq_true_eq] at h; exact ⟨issues_of h.1, h.2⟩
/-- A full table, and a full group. -/
theorem wit_join_full : (8192 ≤ (List.replicate 8192 (group0 [])).length) ∧ (4096 ≤ (group0 (List.replicate 4096 { member0 with tid := 9 })).members.length) :=
  ⟨Nat.le_of_eq List.length_replicate.symm, Nat.le_of_eq (List.length_replicate (n := 4096) (a := { member0 with tid := 9 })).symm⟩

def memberState : State := groupState [member0] [(2, 1)] (hSet (vTags [(0, tI64), (1, tI64)] crew0) 1 (hMake true false 0 7))
def arriveB (op : Nat) (f : Fields) (con : Part) : Bool :=
  issuesB memberState op f pc0 && chain (commit (issued memberState.m pc0 op f)) (fun m => optB (arriveAt m (hGet m.cur 1) con) (fun _ => true))
theorem arrive_of {op : Nat} {f : Fields} {con : Part} (h : arriveB op f con = true) : Issues memberState op f pc0 ∧
    ∃ m p m', commit (issued memberState.m pc0 op f) = .ok m ∧ arriveAt m (hGet m.cur 1) con = some (p, m') := by
  simp only [arriveB, Bool.and_eq_true] at h
  obtain ⟨m, h1, h2⟩ := chain_of h.2
  obtain ⟨⟨p, m'⟩, h3, _⟩ := opt_of h2
  exact ⟨issues_of h.1, m, p, m', h1, h3⟩
theorem wit_arrive : arriveB 0xA2 { f0 with d := .s 5, a := .h 1 } bareCon = true ∧ arriveB 0xA4 { f0 with d := .s 5, a := .h 1 } bareCon = true ∧
    arriveB 0xA5 { f0 with d := .s 5, a := .h 1, b := .s 1, c := .imm 0 } { bareCon with ins := 1, mode := 0, val := 1 } = true ∧
    arriveB 0xA6 { f0 with ty := 4, d := .s 5, a := .h 1, b := .s 1, c := .imm 0 } { bareCon with ins := 2, mode := 0, y := 4, val := 9 } = true ∧
    issuesB memberState 0xA3 { f0 with a := .h 1, b := .imm 0 } pc0 = true := by decide
theorem wit_arrivals : memberState.m.group (hGroup (hGet memberState.m.cur 1)) = some (group0 [member0]) ∧ memberOf (group0 [member0]) (hGet memberState.m.cur 1) = some member0 ∧
    member0.arr ≤ (group0 [member0]).done ∧ groupFull (group0 [member0]) = false ∧ groupFull (group0 [{ member0 with arr := 1 }]) = true ∧
    memberOf (group0 [member0]) (hMake false false 0 0xFFFFFFFF) = none := by decide
theorem wit_gstat : (∀ m ∈ [0, 1], issuesB memberState 0xA7 { f0 with d := .s 5, a := .h 1, c := .imm m } pc0 = true) ∧
    issuesB memberState 0xA1 { f0 with d := .h 1 } pc0 = true ∧ (hGet memberState.m.cur 1).getLsbD 61 = false ∧
    issuesB { memberState with m := { memberState.m with cur := hSet memberState.m.cur 1 (hSetLeave (hMake true false 0 7)) } } 0xA1 { f0 with d := .h 1 } pc0 = true ∧
    issuesB memberState 0xA8 { f0 with d := .h 2, a := .s 1 } pc0 = true ∧ groupNamed memberState.m 1 9 = none := by decide
theorem wit_group_results : (0 : Nat) < 64 ∧ byKey [] = ([] : List Part) := by decide +kernel

/-! ### Tasks, pedigrees, arenas and reducers -/

/-- Declarations at 0x20000 (plain), 0x20100 (of a pipeline) and 0x20200 (a handler). -/
def declJob : Job :=
  { placeJob with decls := [placeDecl, { placeDecl with addr := 0x20100, piped := 0x30000 }, { placeDecl with addr := 0x20200, hdlr := true }] }
def taskState (a : Word) (ped : Ped) : State :=
  let s := onCrew (sRegs [(1, a, tADDR), (2, 5, tI64), (4, 0, tI64), (5, 0, tI64), (6, 0, tI64)] { vTags [(0, tI64), (1, tI64)] crew0 with ped := ped })
  { s with m := { s.m with jobs := [(1, declJob)] } }
def fSpawn : Fields := { f0 with a := .s 1, b := .s 2 }
def declAt (s : State) : Option Decl :=
  (s.m.job s.m.cur.job).bind (fun j => j.decls.find? (fun d => d.addr == (opA (issueCtx s.m pc0 0xB0 fSpawn) 15 (issueCtx s.m pc0 0xB0 fSpawn).low).toNat))
/-- One state for each check of a spawn; the steps 1022 and 1023 are on either side of the last. -/
theorem wit_spawn_faults : isControl crew0.core = false ∧ isControl 320 = true ∧ declAt (taskState 0x20001 (pedOfRoot 0)) = none ∧
    optB (declAt (taskState 0x20100 (pedOfRoot 0))) (fun d => decide (d.piped ≠ 0)) = true ∧
    optB (declAt (taskState 0x20200 (pedOfRoot 0))) (fun d => decide (d.piped = 0) && d.hdlr) = true ∧
    optB (declAt (taskState 0x20000 (pedMake 15 false false 0 []))) (fun d => decide (d.piped = 0) && !d.hdlr) = true ∧ pedDepth (pedMake 15 false false 0 []) = 15 ∧
    pedDepth (pedMake 1 false false 0 [1023]) ≠ 15 ∧ 1023 < entStep (pedOwn (pedMake 1 false false 0 [1023])) + 1 ∧
    entStep (pedOwn (pedMake 1 false false 0 [1022])) + 1 ≤ 1023 := by decide
def spawnS : State := taskState 0x20000 (pedOfRoot 0)
theorem wit_spawned_child : spawnS.m.job spawnS.m.cur.job = some declJob ∧ ∃ m', placeRec { spawnS.m with nextTid := spawnS.m.nextTid + 1 } spawnS.m.cur.core
    { tid := spawnS.m.nextTid, parent := spawnS.m.cur.tid, ped := pedChild spawnS.m.cur.ped, decl := placeDecl.addr, arg := 7, launch := spawnS.m.cur.launch,
      aff := placeDecl.aff, kind := .spawned, stage := 0, cls := declJob.cls, cells := [], rrk := spawnS.m.cur.rrk, enq := 0 } = some m' := by
  refine ⟨rfl, ?_⟩
  obtain ⟨m', h, _⟩ := opt_of (o := placeRec { spawnS.m with nextTid := spawnS.m.nextTid + 1 } spawnS.m.cur.core
    { tid := spawnS.m.nextTid, parent := spawnS.m.cur.tid, ped := pedChild spawnS.m.cur.ped, decl := placeDecl.addr, arg := 7, launch := spawnS.m.cur.launch,
      aff := placeDecl.aff, kind := .spawned, stage := 0, cls := declJob.cls, cells := [], rrk := spawnS.m.cur.rrk, enq := 0 }) (g := fun _ => true) (by decide)
  exact ⟨m', h⟩
theorem wit_digest : (0x1002000000000000 : Nat) < 2 ^ 64 := by decide +kernel
theorem wit_points : ([] : List Nat).length < 14 ∧ (List.replicate 13 65535).length < 14 ∧ (∀ x ∈ List.replicate 13 65535, x < 2 ^ 16) ∧
    (62 * 1024 + 1022 : Nat) < 2 ^ 16 - 1 ∧ entStep (62 * 1024 + 1022) < 1023 ∧ entEpoch (62 * 1024 + 1022) < 63 ∧ entStep 0 < 1023 ∧ entEpoch 0 < 63 := by decide
/-- A spawn whose checks pass, with its children placed. -/
def spawnB (op : Nat) (f : Fields) (args : List Word) (kind : TaskKind) (cells : List Half) : Bool :=
  issuesB spawnS op f pc0 && chain (spawnCheck (issued spawnS.m pc0 op f) (issueCtx spawnS.m pc0 op f) args.length) (fun d =>
    chain (commit (issued spawnS.m pc0 op f)) (fun m => optB (args.foldl (fun r a => r.bind (fun m => spawnOne m d a kind cells)) (some m)) (fun _ => true)))
theorem spawn_of {op : Nat} {f : Fields} {args : List Word} {kind : TaskKind} {cells : List Half} (h : spawnB op f args kind cells = true) :
    Issues spawnS op f pc0 ∧ ∃ d m m', spawnCheck (issued spawnS.m pc0 op f) (issueCtx spawnS.m pc0 op f) args.length = .ok d ∧
      commit (issued spawnS.m pc0 op f) = .ok m ∧ args.foldl (fun r a => r.bind (fun m => spawnOne m d a kind cells)) (some m) = some m' := by
  simp only [spawnB, Bool.and_eq_true] at h
  obtain ⟨d, h1, h2⟩ := chain_of h.2
  obtain ⟨m, h3, h4⟩ := chain_of h2
  obtain ⟨m', h5, _⟩ := opt_of h4
  exact ⟨issues_of h.1, d, m, m', h1, h3, h5⟩
theorem wit_spawns : spawnS.m.cur.placed = 0 ∧ spawnB 0xB0 fSpawn [5] .spawned [] = true ∧ spawnB 0xB1 { fSpawn with b := .v 0 } [0, 0, 0, 0] .spawned [] = true ∧
    spawnB 0xB2 { fSpawn with c := .s 4 } [5] .dataflow (List.replicate 6 0) = true ∧ spawnCells (issueCtx spawnS.m pc0 0xB2 { fSpawn with c := .s 4 }) = List.replicate 6 0 ∧
    (∀ c ∈ (List.replicate 6 (0 : Half)).zip (List.range 6), spawnCellBad 0 c.2 c.1 = false) := by decide
def jB (s : State) (op : Nat) (f : Fields) : Bool := issuesB s op f pc0 && okB (commit (issued s.m pc0 op f))
theorem wit_joins : jB spawnS 0xB3 f0 = true ∧ entEpoch (pedOwn spawnS.m.cur.ped) ≠ 63 ∧ jB spawnS 0xB6 f0 = true ∧
    jB (taskState 0 (pedMake 1 false false 0 [63 * 1024])) 0xB3 f0 = true ∧ entEpoch (pedOwn (pedMake 1 false false 0 [63 * 1024])) = 63 := by decide

def red (kind nelem reclen : Nat) : RedEnt := { result := 0x20000, nelem := nelem, kind := kind, auto := false, reclen := reclen }
/-- Reducers: a sum of binary32 with two elements, one that appends records of four bytes, and a sum of 64 bits; lane 1 names element 2 in `v6`. -/
def redState (ped : Ped) : State :=
  let s := onCrew (vSet (sRegs [(1, 1, tN32), (2, 3, tN32), (3, 0, tN32), (4, 2, tN32)] { vTags [(0, tN32), (1, tF32), (2, tI64), (3, tI64), (6, tN32)] crew0 with ped := ped }) 6 1 2)
  { s with m := { s.m with launches := [(4, { placeLaunch with reds := [red 4 2 0, red 9 8 4, red 0 2 0] })] } }
def redS : State := redState (pedOfRoot 0)
theorem wit_rfin : jB redS 0xBC { f0 with a := .s 1 } = true ∧ redIndex (issueCtx redS.m pc0 0xBC { f0 with a := .s 1 }).ca { f0 with a := .s 1 } = 1 ∧
    jB redS 0xBC { f0 with a := .s 3 } = true ∧ jB (redState (pedMake 1 false false 0 [63 * 1024])) 0xBC { f0 with a := .s 1 } = true := by decide
/-- A view of the sum and of the records, a value and a record. -/
theorem wit_reducers : (redsOf redS.m redS.m.cur).length = 3 ∧
    (∀ a ∈ [Opd.s 1, .s 3], issuesB redS 0xBA { f0 with d := .v 4, a := a, b := .v 0 } pc0 = true ∧ issuesB redS 0xBB { f0 with a := a, b := .v 0, c := .v 1 } pc0 = true) ∧
    (∀ i ∈ [0xBA, 0xBB], redIndex (issueCtx redS.m pc0 i { f0 with a := .s 3 }).ca { f0 with a := .s 3 } = 0 ∧
      redIndex (issueCtx redS.m pc0 i { f0 with a := .s 1 }).ca { f0 with a := .s 1 } = 1) := by decide
/-- No such reducer; a 64-bit value in `v5`; element 2 of 2 in lane 1. -/
theorem wit_reducer_bounds : (∀ op ∈ [0xBA, 0xBB, 0xBC], let f := { f0 with d := if op = 0xBA then .v 4 else .none, a := .s 2, b := if op = 0xBC then .none else .v 0,
                                                                            c := if op = 0xBB then .v 1 else .none }
      blockedB redS op f = true ∧ redIndex (issueCtx redS.m pc0 op f).ca f = 3) ∧
    (let f := { f0 with d := .v 5, a := .s 4, b := .v 0 }
     let x := issueCtx redS.m pc0 0xBA f
     blockedB redS 0xBA f = true ∧ redOpd x = .v 5 ∧ redWide 0 = true ∧ redIndex x.ca f = 2 ∧ x.rlanes (entryFor redS.m redS.m.cur 0xBA f) = [0, 1, 2, 3]) ∧
    (∀ op ∈ [0xBA, 0xBB], let f := { f0 with d := if op = 0xBA then .v 4 else .none, a := .s 3, b := .v 6, c := if op = 0xBB then .v 1 else .none }
      let x := issueCtx redS.m pc0 op f
      blockedB redS op f = true ∧ redIndex x.ca f = 0 ∧ x.rlanes (entryFor redS.m redS.m.cur op f) = [0, 1, 2, 3] ∧ redElem x 0 < 2 ∧ redElem x 1 = 2) := by decide

theorem wit_pedigree : issuesB redS 0xB4 { f0 with d := .v 4, a := .imm 16 } pc0 = true ∧ issuesB redS 0xB5 { f0 with d := .s 8 } pc0 = true ∧
    issuesB redS 0xB7 { f0 with ty := 2, d := .v 4, a := .v 0, c := .imm 4 } pc0 = true ∧ modeOf { f0 with c := .imm 4 } ≤ 4 ∧
    issuesB redS 0xB7 { f0 with ty := 3, d := .s 8, a := .s 1, c := .imm 1 } pc0 = true ∧
    issuesB redS 0xB7 { f0 with ty := 3, d := .ind 0 4, a := .s 1, c := .imm 1 } pc0 = true ∧ modeOf { f0 with c := .imm 1 } = 1 := by decide

/-- An arena with elements of 2^6 bytes, two levels, 2 and 3 bits of digits, 5 bits of q. -/
def arena0 : List Byte := toBytes 8 0x20400 ++ [6, 2, 2, 3, 5] ++ List.replicate 19 0
def arenaS : State := { dataState arena0 with m := { (dataState arena0).m with cur := { (dataState arena0).m.cur with ped := pedMake 1 false false 0 [0] } } }
def arenaB (op : Nat) (f : Fields) : Bool :=
  let x := issueCtx arenaS.m pc0 op f
  issuesB arenaS op f pc0 && !pedH arenaS.m.cur.ped && !arenaBad arena0 && decide (pedDepth arenaS.m.cur.ped - 1 ≤ 2) &&
    chain (uniformLoad (issued arenaS.m pc0 op f) x (opA x 15 x.low).toNat 32 32) (fun q => q.2 == arena0 && decide (q.1.cur.ped = arenaS.m.cur.ped) &&
      decide (q.1.cur.aseq.toNat + 4 ≤ 32) && (let m₀ := arenaRegion q.1 0x20400 (2 ^ (8 + 2 * 6 + 5 + 6))
        let st : List (Acc × List Byte) := ((dLanes x f.d).zip (List.range 4)).map (fun e =>
          ({ lane := e.1, va := 0x20400 + e.2 * 64, size := 8 }, toBytes 8 (opB x 6 e.1).toNat))
        okB (sbStall m₀ m₀.cur true (st.map (·.1))) && okB (plainStores m₀ pc0 st)))
theorem wit_plog : arenaB 0xB9 { f0 with d := .v 4, a := .s 1, b := .s 5 } = true := by decide +kernel
theorem wit_arena : arenaB 0xB8 { f0 with d := .v 4, a := .s 1 } = true ∧ 8 + fld arena0 9 1 * (fld arena0 10 1 + fld arena0 11 1 + 1) + fld arena0 12 1 ≤ 40 ∧
    chain (arenaDigits (pedMake 1 false false 0 [0]) 2 2 3) (fun h => h == 0) = true := by decide +kernel


/-! ### Views -/

/-- The page of data, a page of a view behind it, and masters of die 0. -/
def viewS (desc : List Byte) (ms : List Master) : State :=
  let s := onMem desc (sRegs [(1, 0x20000, tADDR), (2, 0, tI64), (3, 0, tN32), (4, 1, tN32), (5, 9, tI64)] crew0)
  { s with m := { s.m with mem := memWrite s.m.mem (placeTables + 4096 * 5 + 16 * vaIndex 0 0x21000) (toBytes 16 (mkLeaf 0 256 true false false false false 0x31000 + 2 ^ 122)),
                           dies := [(0, { Die.reset 0 with masters := ms })] } }
def regDesc (base n flags : Nat) : List Byte := toBytes 8 base ++ toBytes 4 n ++ toBytes 4 flags
def view0 (i : Nat) (bad : Bool) : View :=
  { idx := i, dbase := 0x21000, sbase := 0x21800, format := 0, layout := 0, pol := 0, die := 0, clip := 0, recs := [(0, 0)], faulted := bad }
def master0 (i base : Nat) (vs : List View) : Master :=
  { idx := i, job := 1, base := base, nblk := 1, bf16 := false, square := false, pages := [(0x30400, 1024, 0)], versions := [], views := vs, faulted := false }
def fReg : Fields := { f0 with d := .s 8, a := .s 1 }
/-- What a `vwreg` of a descriptor reads is the descriptor. -/
def regB (desc : List Byte) (ms : List Master) : Bool :=
  issuesB (viewS desc ms) 0xC0 fReg pc0 && chain (uniformLoad (issued (viewS desc ms).m pc0 0xC0 fReg) (issueCtx (viewS desc ms).m pc0 0xC0 fReg) 0x20000 16 8) (fun q => q.2 == desc)
def goodDesc : List Byte := regDesc 0x20400 1 0
theorem wit_vwreg : regB goodDesc [] = true ∧ (masterPages (viewS goodDesc []).m 1 0x20400 1024).isSome = true := by decide +kernel
theorem wit_vwreg_bad : regB (regDesc 0x20400 0 0) [] = true ∧ regB (regDesc 0x20400 16777217 0) [] = true ∧ regB (regDesc 0x24000 1 0) [] = true ∧
    masterPages (viewS goodDesc []).m 1 0x24000 1024 = none := by decide
/-- A master beside the new one, and one that overlaps it. -/
theorem wit_vwreg_apart : regB goodDesc [master0 0 0x20800 []] = true ∧ (0x20400 + 1024 ≤ 0x20800 ∨ 0x20800 + 1024 ≤ (0x20400 : Nat)) ∧
    ¬ (0x20400 + 1024 ≤ 0x207FF ∨ 0x207FF + 1024 ≤ (0x20400 : Nat)) := by decide
theorem wit_vwreg_full : ∀ i, i < 256 → (((List.range 256).map (fun i => master0 i (2 ^ 40 + 1024 * i) [])).find? (fun x => x.idx == i)).isSome = true := by decide +kernel

def addDesc (dbase sbase fmt : Nat) : List Byte := toBytes 8 dbase ++ toBytes 8 sbase ++ toBytes 16 fmt
def fAdd : Fields := { f0 with d := .s 8, a := .s 2, b := .s 1 }
def addB (desc : List Byte) (ms : List Master) : Bool :=
  issuesB (viewS desc ms) 0xC1 fAdd pc0 && chain (uniformLoad (issued (viewS desc ms).m pc0 0xC1 fAdd) (issueCtx (viewS desc ms).m pc0 0xC1 fAdd) 0x20000 32 8) (fun q => q.2 == desc)
theorem wit_vwadd : addB (addDesc 0x21000 0x21800 0) [master0 0 0x20400 []] = true ∧ viewDescBad false (addDesc 0x21000 0x21800 0) = false ∧
    viewPagesOk (viewS [] []).m 1 0x21000 (vfBytes 0) 0 0 = true ∧ viewPagesOk (viewS [] []).m 1 0x21800 8 0 0 = true ∧
    viewPagesOk (viewS [] []).m 1 0x20000 (vfBytes 0) 0 0 = false := by decide
theorem wit_vwadd_bad : addB (addDesc 0x21001 0x21800 0) [master0 0 0x20400 []] = true ∧ viewDescBad false (addDesc 0x21001 0x21800 0) = true ∧
    addB (addDesc 0x21000 0x21800 0) [master0 1 0x20400 []] = true ∧ masterById (viewS [] [master0 1 0x20400 []]).m 1 0 = none ∧
    ∀ i, i < 8 → ∃ v ∈ (List.range 8).map (fun i => view0 i false), v.idx = i :=
  ⟨by decide, by decide, by decide, by decide, fun i h => ⟨view0 i false, List.mem_map_of_mem (List.mem_range.mpr h), rfl⟩⟩
/-- The other view instructions issue in both modes. -/
theorem wit_views_issue : [0, 1].all (fun k => [0xC2, 0xC3].all (fun op => issuesB (viewS [] []) op { f0 with d := .s 8, a := .s 2, c := .imm k } pc0) &&
    [0xC4, 0xC5].all (fun op => issuesB (viewS [] []) op { f0 with d := .s 8, a := .s 2, b := .s 3, c := .imm k } pc0)) = true ∧
    issuesB (viewS [] []) 0xC6 { f0 with d := .s 8, a := .s 2, b := .s 3, c := .s 4 } pc0 = true := by decide
def vm (bad : Bool) : Mach := (viewS [] [master0 0 0x20400 [view0 0 bad]]).m
theorem wit_views_named : viewById (vm false) 1 0 = some (0, master0 0 0x20400 [view0 0 false], view0 0 false) ∧
    viewById (vm true) 1 0 = some (0, master0 0 0x20400 [view0 0 true], view0 0 true) ∧ viewById (vm false) 1 1 = none ∧
    masterById (vm false) 1 0 = some (0, master0 0 0x20400 [view0 0 false]) ∧ masterById (vm true) 1 0 = some (0, master0 0 0x20400 [view0 0 true]) ∧ masterById (vm false) 1 1 = none ∧
    viewFresh (view0 0 false) 0 (smGet 0 [] 0) = true ∧ (findMaster (vm false) 0 0).isSome = true ∧ (1 : Nat) ≤ 1 ∧ (0 : Nat) < 1 ∧ (0 : Nat) + 1 ≤ 1 ∧ ¬ (1 + 1 ≤ 1) := by decide
def dirtyS (bad : Bool) : State :=
  let ms := { master0 0 0x20400 [view0 0 false] with faulted := bad }
  { viewS [] [ms] with m := { (viewS [] [ms]).m with dies := [(0, { Die.reset 0 with masters := [ms], dirty := [(0, 0)] })] } }
theorem wit_view_engine : (∀ b ∈ [false, true], ((dirtyS b).m.die 0).dirty = [(0, 0)] ∧ optB (findMaster (dirtyS b).m 0 0) (fun m => m.faulted == b) = true ∧
    viewHeld (dirtyS b).m 0 = []) ∧ (((dirtyS false).m.die 0).dirty).Nodup ∧ viewHeld { (dirtyS false).m with held := [0x30400 / 128] } 0 ≠ [] := by decide
/-- A block of zeros, written to the view's page. -/
theorem wit_recompute : let xs := List.replicate 256 (FV.num false 0 0)
    let v := view0 0 false
    let d := deriveBlock false v xs
    optB (writeView (viewAgent 0 1) (vm false) v.dbase (chunks 64 (d.1.length / 64) d.1)) (fun m => optB (writeView (viewAgent 0 1) m v.sbase [d.2])
      (fun m => (findMaster m 0 0).isSome)) = true := by decide
/-- The engine takes the block of a master with a view. -/
theorem wit_view_recompute : let ms := { master0 0 0x20400 [view0 0 false] with bf16 := true }
    let s : State := { dirtyS false with m := { (dirtyS false).m with dies := [(0, { Die.reset 0 with masters := [ms], dirty := [(0, 0)] })] } }
    viewHeld s.m 0 = [] ∧ viewStops s.m 0 = false ∧
    optB (viewSnap (viewAgent 0 1) 0x20400 4 (s.m.modDie 0 (fun d => { d with dirty := [] }))) (fun q =>
      let d := deriveBlock false (view0 0 false) (masterElems true q.1)
      let done (m : Mach) : Bool := (m.die 0).dirty == [] && findMaster m 0 0 == some ms
      optB (writeView (viewAgent 0 1) q.2 0x21000 (chunks 64 (d.1.length / 64) d.1)) (fun m => optB (writeView (viewAgent 0 1) m 0x21800 [d.2]) done)) = true := by decide +kernel
/-- And of one without. -/
theorem wit_view_none : let ms := { master0 0 0x20400 [] with bf16 := true }
    let s : State := { dirtyS false with m := { (dirtyS false).m with dies := [(0, { Die.reset 0 with masters := [ms], dirty := [(0, 0)] })] } }
    viewHeld s.m 0 = [] ∧ viewStops s.m 0 = false ∧
    optB (viewSnap (viewAgent 0 1) 0x20400 4 (s.m.modDie 0 (fun d => { d with dirty := [] }))) (fun q => (q.2.die 0).dirty == [] && findMaster q.2 0 0 == some ms) = true := by
  decide +kernel
/-- A copy that has started holds lines of the block. -/
theorem wit_view_stops : let s := { dirtyS false with m := { (bteQueue 1) with dies := [(0, { Die.reset 0 with masters := [master0 0 0x20800 []], dirty := [(0, 0)], chans := [(0, { queue := [cmd0 false []], accepted := 1, stamped := 0 })] })] } }
    viewHeld s.m 0 = [] ∧ viewStops s.m 0 = true ∧ optB (findMaster s.m 0 0) (fun m => !m.faulted) = true := by decide +kernel



/-! ### The matrix unit, the engines and collectives -/

/-- A load of one row of eight elements at 0x20000, and a step over it with the window v0, accumulator 0. -/
def loadWords : List Word := [0x20000, 0, w64 (16 + 2 ^ 48 + 8 * 2 ^ 56), 1]
def stepWords : List Word := [w64 (2 ^ 16 + 8 * 2 ^ 32), w64 (1 + 8 * 2 ^ 24 + 2 ^ 48), w64 (2 ^ 8), 0, 0, 0, 0, 0]
def runRegs (r : Nat) (l : List Word) : List (Nat × Word × Tag) := (l.zip (List.range l.length)).map (fun e => (r + e.2, e.1, tRAW))
def loadBytes : List Byte := loadWords.flatMap (fun w => toBytes 8 w.toNat)
def stepBytes : List Byte := stepWords.flatMap (fun w => toBytes 8 w.toNat)
def matCrew (ls : List Load) : Crew :=
  { sRegs (runRegs 8 loadWords ++ runRegs 16 stepWords ++ runRegs 24 (loadWords.set 2 (w64 16))) (vTags [(0, BitVec.ofNat 4 (tyTag (mfTy 0))), (4, tF32), (5, tF32)] crew0) with loads := ls }
def matS (ls : List Load) (mark : Option Nat) (q : List SeqOp) (b : Option Batch) : State :=
  let s := onMem [] { matCrew ls with openB := b }
  { s with m := { s.m with cores := [(0, { Core.reset 0 with macros := [(0, { tid := 1, load := 1, mark := mark })], seqq := q })] } }
def mat0 : State := matS [{ id := 1, mfirst := 0, nmac := 1, desc := loadBytes }] none [] none
def fRun (r : BitVec 7) : Fields := { f0 with a := .s r }
theorem wit_mldb : issuesB mat0 0xD0 (fRun 8) pc0 = true ∧ sRecord (issueCtx mat0.m pc0 0xD0 (fRun 8)).ca (.s 8) 4 = loadBytes ∧ loadBad loadBytes = none ∧
    blockedB mat0 0xD0 (fRun 24) = true ∧ (loadBad (sRecord (issueCtx mat0.m pc0 0xD0 (fRun 24)).ca (.s 24) 4)).isSome = true ∧
    chain (leeAsk (issued mat0.m pc0 0xD0 (fRun 8)) (issued mat0.m pc0 0xD0 (fRun 8)).cur (leeExcess (issued mat0.m pc0 0xD0 (fRun 8)) (issued mat0.m pc0 0xD0 (fRun 8)).cur false 4))
      (fun m => okB (loadIssue pc0 0 loadBytes m)) = true ∧ (issueCtx mat0.m pc0 0xD0 (fRun 8)).low = 0 ∧ okB (loadIssue pc0 0 loadBytes (issued mat0.m pc0 0xD0 (fRun 8))) = true := by decide
theorem wit_mmas : let i := issued mat0.m pc0 0xD1 (fRun 16)
    issuesB mat0 0xD1 (fRun 16) pc0 = true ∧ sRecord (issueCtx mat0.m pc0 0xD1 (fRun 16)).ca (.s 16) 8 = stepBytes ∧ 
    mat0.m.cur.pend = [] ∧
    (∀ q ∈ stepRegs (stepDesc stepBytes), vTag i.cur q = BitVec.ofNat 4 (tyTag (mfTy (stepDesc stepBytes).fmt))) ∧
    optB (stepLoad i.cur (stepDesc stepBytes)) (fun l => setHeld i l) = true ∧
    okB (sbRoom i i.cur.core [.win i.cur.tid (stepDesc stepBytes).awin (stepDesc stepBytes).awcnt]) = true ∧ coreBatches i i.cur.core < 8 ∧ i.cur.openB = none ∧
    okB (leeAsk { i with cur := closeFull i.cur } (closeFull i.cur)
      (leeExcess i i.cur true (stepUnits (stepDesc stepBytes)) - leeCoreMax (i.die (dieOf i.cur.core)).lee.grants i.cur.core)) = true := by decide
theorem wit_mmas_bad : blockedB (matS [] none [] none) 0xD1 (fRun 16) = true ∧
    (stepBad (matS [] none [] none).m.cur (sRecord (issueCtx (matS [] none [] none).m pc0 0xD1 (fRun 16)).ca (.s 16) 8)).isSome = true := by decide
/-- A set whose load met an uncorrected error. -/
theorem wit_mmas_mark : let s := matS [] (some 7) [] none
    canIssue s.m.cur = some pc0 ∧ s.m.cur.late = none ∧ (issueCtx s.m pc0 0xD1 (fRun 16)).e ≠ 0 ∧ s.m.cur.poison = [] ∧
    setMark s.m s.m.cur (stepDesc (sRecord (issueCtx s.m pc0 0xD1 (fRun 16)).ca (fRun 16).a 8)) = some 7 := by decide
def busyS : State := matS [{ id := 1, mfirst := 0, nmac := 1, desc := loadBytes }] none [.step 1 1 1 2 [] stepBytes false] (some { id := 1, steps := 1, left := 1 })
theorem wit_batches : issuesB busyS 0xD2 f0 pc0 = true ∧ (∀ k ∈ [0, 1], issuesB busyS 0xD3 { f0 with a := .imm k } pc0 = true) ∧
    crewBatches (closeBatch (issued busyS.m pc0 0xD3 { f0 with a := .imm 0 }).cur) = 1 ∧ busyAccs busyS.m 0 1 = [0] ∧ busyAccs mat0.m 0 1 = [] := by decide
theorem wit_accs : (∀ s ∈ [mat0, busyS], issuesB s 0xD4 { f0 with d := .v 4, a := .acc 0, b := .imm 63, c := .imm 1 } pc0 = true ∧
      issuesB s 0xD5 { f0 with d := .acc 0, a := .v 4, b := .imm 63, c := .imm 1 } pc0 = true ∧ issuesB s 0xD6 { f0 with d := .acc 0 } pc0 = true) ∧
    0 < mat0.m.cur.width ∧ (63 : Byte).toNat + modeOf { f0 with c := .imm 1 } ≤ 64 ∧ issuesB mat0 0xD7 { f0 with d := .s 5, c := .imm 0 } pc0 = true := by decide

/-- A template at 0x20000, its index in s2. -/
def engS (data : List Byte) : State :=
  onMem data (sRegs [(1, 0x20000, tADDR), (2, 255, tI64), (3, 256, tI64), (4, 511, tI64), (5, 512, tI64)] (vTags [(0, tN32), (1, tI32)] (hSet crew0 1 (hMake true false 0 7))))
def tmplB (r : BitVec 7) (t : List Byte) : Bool :=
  let f := { f0 with d := .s 8, a := .s r, b := .s 1 }
  issuesB (engS t) 0xE0 f pc0 && chain (uniformLoad (issued (engS t).m pc0 0xE0 f) (issueCtx (engS t).m pc0 0xE0 f) 0x20000 128 64) (fun q => tmplBad q.2 == tmplBad t)
theorem wit_btmpl : tmplBad tmpl0 = false ∧ tmplB 2 tmpl0 = true ∧ tmplB 3 tmpl0 = true := by decide +kernel
theorem wit_btmpl_bad : tmplBad (List.replicate 128 0) = true ∧ tmplB 2 (List.replicate 128 0) = true := by decide +kernel
def boundS (t : Nat) : State := { engS [] with m := { (engS []).m with cores := [(0, { Core.reset 0 with landing := some { base := 0x20000, hnd := 1, tid := t } })] } }
theorem wit_lbase : (∀ s ∈ [boundS 1, boundS 2], issuesB s 0xE4 { f0 with d := .s 8, a := .imm 0 } pc0 = true ∧
      issuesB s 0xE4 { f0 with d := .s 8, a := .s 1, b := .imm 1 } pc0 = true) ∧ blockedB (boundS 1) 0xE4 { f0 with d := .s 8, a := .s 1, b := .imm 2 } = true ∧ 2 < (boundS 1).m.cur.decl.handles ∧
    blockedB (boundS 1) 0xE4 { f0 with d := .s 8, a := .s 1, b := .imm 16 } = true ∧ (boundS 1).m.cur.decl.handles ≤ 16 ∧ hValid (hGet (boundS 1).m.cur 1) = true ∧ hValid (hGet (boundS 1).m.cur 2) = false := by decide
theorem wit_bquery : (∀ r ∈ [4, 5], ∀ k ∈ [0, 1, 2], issuesB (engS []) 0xE5 { f0 with d := .s 8, a := .s r, c := .imm k } pc0 = true) := by decide +kernel
def fGath : Fields := { f0 with ty := 2, d := .v 8, a := .s 1, b := .v 0, c := .imm 2 }
theorem wit_gath : let x := issueCtx (engS []).m pc0 0xE1 fGath
    let i := issued (engS []).m pc0 0xE1 fGath
    issuesB (engS []) 0xE1 fGath pc0 = true ∧
    chain (checkAll i { whoOf i.cur with core := 344 } 1 true (x.lanes.flatMap (fun L => (List.range 2).map (fun k => { lane := L, va := (rowAddr x 2 L + 4 * k) % 2 ^ 64, size := 4 }))))
      (fun q => okB (viewCheck q.1 q.1.cur.job x.cd.viewWait q.2) && okB (sbRoom q.1 q.1.cur.core (.win q.1.cur.tid 8 2 :: x.lanes.map (fun L => .mem q.1.cur.job (rowAddr x 2 L) 8)) 1)) = true := by decide
def word0 (o : Nat) : GWord := { pa := 0x30000 + o, va := 0x20000 + o, treat := 256 }
def gath0 : Gath := { id := 5, tid := 1, pc := pc0, first := 8, n := 2, tag := tN32, base := 0x20000, leaf := 0, rows := [(0, [word0 0, word0 4]), (3, [word0 8, word0 12])] }
theorem wit_gather_retire : let s : State := { engS [] with m := { (engS []).m with cores := [(0, { Core.reset 0 with gaths := [gath0] })] } }
    (s.m.core 0).gaths = [gath0] ∧ optB (s.m.crew 1) (fun c => c.tid == 1) = true ∧ (gath0.rows.map (·.1)).Nodup ∧
    gath0.rows ≠ [] ∧ (∀ row ∈ gath0.rows, row.1 < 64 ∧ row.2.length = gath0.n ∧ ∀ w ∈ row.2, isAperture w.pa = false ∧ s.m.held.contains (w.pa / 128) = false ∧
      engineHeld s.m gath0.id (w.pa / 128) = false ∧ setFull s.m (w.pa / 128) = false) ∧ gathKey s.m gath0 = none := by decide
/-- A gather whose words were checked under slot 5, which holds no key any more. -/
def lostGath : Gath := { gath0 with rows := [(0, [{ word0 0 with treat := 5 }, word0 4])] }
theorem wit_gather_key : let s : State := { engS [] with m := { (engS []).m with cores := [(0, { Core.reset 0 with gaths := [lostGath] })] } }
    (s.m.core 0).gaths = [lostGath] ∧ optB (s.m.crew 1) (fun c => c.tid == 1 && c.late.isNone) = true ∧
    (∀ w ∈ gathWords lostGath, isAperture w.pa = false ∧ s.m.held.contains (w.pa / 128) = false ∧ engineHeld s.m lostGath.id (w.pa / 128) = false ∧
      setFull s.m (w.pa / 128) = false) ∧ optB (gathKey s.m lostGath) (fun e => e.code == 0x23) = true := by decide

/-- A collective of one element of 32 bits, alone (L = 0) and with a second part (L = 1). -/
def collWords (l flags : Nat) : List Byte := toBytes 8 7 ++ toBytes 8 0x20100 ++ toBytes 8 0x20200 ++ toBytes 4 1 ++ [0] ++ toBytes 1 l ++ [0] ++ toBytes 1 flags ++ List.replicate 32 0
def fColl : Fields := { f0 with d := .s 8, a := .s 1 }
/-- The crew's page has been read and written before: its translation stands in both TLBs, with `A` and `D` set. -/
def warmTlb : Tlb := { ents := [{ job := 1, base := 0x20000, n := 0, leaf := 0x1000000000000000F200000000030000#128, wr := true }], lfsr := 0xACE1 }
def warmS (data : List Byte) : State :=
  { engS data with m := { (engS data).m with mem := (mem0 data).map (fun e => if e.1 = 0x105207 then (e.1, 0xF3) else e),
                                             lineKey := [(1536, 256), (1538, 256), (1540, 256)],
                                             cores := [(0, { Core.reset 0 with l1 := warmTlb })], dies := [(0, { Die.reset 0 with tlb := warmTlb })] } }
def collM (l flags : Nat) : Mach := issued (warmS (collWords l flags)).m pc0 0xE2 fColl
def collX (l flags : Nat) : Ctx := issueCtx (warmS (collWords l flags)).m pc0 0xE2 fColl
/-- What a `coll` checks, one by one, none of which changes the machine. -/
def collLoads (l flags : Nat) : Bool :=
  issuesB (warmS (collWords l flags)) 0xE2 fColl pc0 &&
    chain (uniformLoad (collM l flags) (collX l flags) (opA (collX l flags) 15 (collX l flags).low).toNat 64 8) (fun q => q.2 == collWords l flags && q.1 == collM l flags)
def collBuf (va : Nat) : List Acc := { lane := 0, va := va, size := 4 } :: (pagesOf va 4).map (fun a => { a with lane := 0 })
def collReads (l flags k va : Nat) : Bool := chain (checkAll (collM l flags) (whoOf (collM l flags).cur) k true (collBuf va)) (fun q => q.1 == collM l flags)
def collTakes (l flags : Nat) : Bool :=
  let m := collM l flags
  let w : Who := { core := 352, job := 1, sup := false, op := crewOp m.cur }
  okB (sbRoom m m.cur.core [.mem 1 0x20100 4, .mem 1 0x20200 4]) && decide ((m.cur.tickets.filter (fun t => t.status.isNone)).length < 16) &&
    (heldLines m w [(0x20100, 4)]).isEmpty && !copyBusy m w [(0x20100, 4), (0x20200, 4)] && (match engineBytes w 4 m 0x20100 with | .data _ _ => true | _ => false)
theorem wit_coll_loads : collLoads 1 0 = true ∧ (collX 1 0).low = 0 := by decide +kernel
theorem wit_coll_reads : collReads 1 0 1 0x20100 = true ∧ collReads 1 0 2 0x20200 = true := by decide +kernel
theorem wit_coll : collBad (collWords 1 0) = none ∧ collTakes 1 0 = true ∧ combinesHere (collM 1 0) 1 false = true := by decide +kernel
/-- In a domain, of a job without one. -/
theorem wit_coll_domain_loads : collLoads 1 1 = true := by decide +kernel
theorem wit_coll_domain_reads : collReads 1 1 1 0x20100 = true ∧ collReads 1 1 2 0x20200 = true := by decide +kernel
theorem wit_coll_domain : collBad (collWords 1 1) = none ∧ collTakes 1 1 = true ∧ placeJob.domain = none ∧ (collBad (collWords 1 2)).isSome = true := by decide +kernel
def tick (st : Option Nat) (c : Bool) : Ticket := { id := 511, job := 1, key := 7, status := st, consumed := c }
def tickS (st : Option Nat) (c : Bool) : State := { engS [] with m := { (engS []).m with cur := { (engS []).m.cur with tickets := [tick st c] } } }
theorem wit_cwait : (∀ s ∈ [tickS none false, tickS (some 3) true], issuesB s 0xE3 { f0 with d := .s 8, a := .s 4 } pc0 = true) ∧
    (tickS (some 0) false).m.cur.slots ≠ [] ∧ (tickS (some 0) false).m.cur.tickets.find? (fun x => x.id == 511) = some (tick (some 0) false) := by decide
def part0 (lv bl : Nat) : Contrib := { op := 5, src := none, tid := 1, launch := 4, ticket := 511, level := lv, block := bl, dbuf := 0x20200, bad := false, data := [5] }
def coll0 (st : Nat) : Coll :=
  { job := 1, key := 7, arrival := false, w := 1, op := 0, ty := 0, l := 1, dom := false, status := st, ready := true, parts := [part0 0 0, part0 0 1], coming := [], result := [] }
theorem wit_coll_complete : let s : State := { tickS none false with m := { (tickS none false).m with colls := [coll0 3] } }
    s.m.colls.find? (fun y => sameColl 1 7 y && y.ready) = some (coll0 3) ∧ (coll0 3).status ≠ 0 ∧
    ∀ p ∈ (coll0 3).parts, p.src = none ∧ optB (s.m.crew p.tid) (fun c => c.tid == p.tid) = true := by decide
/-- A collective that succeeds: both parts in one buffer of the crew's page, which its writes find. -/
theorem wit_coll_succeeds : let s : State := { warmS [] with m := { (warmS []).m with colls := [coll0 0], cur := { (warmS []).m.cur with tickets := [tick none false] } } }
    let w : Who := { core := 352, job := 1, sup := false }
    let bufs := (coll0 0).parts.map (fun p => (p.dbuf, 4))
    s.m.colls.find? (fun y => sameColl 1 7 y && y.ready) = some (coll0 0) ∧ (∀ p ∈ (coll0 0).parts, p.src = none ∧ p.bad = false) ∧
    optB ((coll0 0).parts.head?.bind (fun p => s.m.crew p.tid)) (fun c => dieOf c.core == 0) = true ∧ combinesHere s.m 1 false = true ∧
    (heldLines s.m w bufs).isEmpty = true ∧ engineShort s.m w bufs = false ∧
    (let r := (coll0 0).parts.foldl (fun (a : Mach × Bool) p => let r := engineWrite a.1 w p.dbuf (ofElems (collSize 0) (collNode 0 0 (coll0 0).parts 1 0)); (r.1, a.2 && r.2))
      ({ s.m with colls := [] }, true)
     r.2 = true ∧ optB (r.1.crew 1) (fun c => c.tid == 1) = true) := by decide +kernel
theorem wit_coll_order : ([part0 0 0, part0 0 1] : List Contrib).Perm [part0 0 1, part0 0 0] ∧
    ([part0 0 0, part0 0 1] : List Contrib).Pairwise (fun p q => nodesMeet p q = false) ∧ (part0 0 0).level = 0 ∧ (part0 0 0).block = 0 ∧ (part0 0 1).block = 1 :=
  ⟨List.Perm.swap _ _ _, by decide, rfl, rfl, rfl⟩


/-! ### Traps and system instructions -/

theorem wit_trap : issuesB d0 0xF0 { f0 with a := .s 4, b := .s 5, c := .s 6 } pc0 = true ∧ issuesB d0 0xFB { f0 with aux := 7 } pc0 = true := by decide +kernel
def exc0 (code : Nat) : Exc := { code := code, lane := none, info0 := 0, info1 := 0, info2 := 0, info3 := 0, commit := false, pc := pc0, late := false }
def hdlDecl : Decl := { placeDecl with addr := 0x20200, hdlr := true }
/-- A launch with a handler, and one without. -/
def trapS (h : Nat) (ts : List TrapEnt) (c : Crew) : State :=
  let s := onMem [] c
  { s with m := { s.m with jobs := [(1, { placeJob with decls := [hdlDecl] })],
                           launches := [(4, { placeLaunch with decl := some { placeDecl with hdecl := h }, traps := ts })] } }
def ent (i : Nat) (a : Bool) : TrapEnt := { idx := i, tid := 2, handler := 1, answered := a }
def hdlLaunch (h : Nat) (ts : List TrapEnt) : Launch := { placeLaunch with decl := some { placeDecl with hdecl := h }, traps := ts }
theorem wit_trap_taken : systemCode 0x50 = false ∧ (trapS 0x20200 [] crew0).m.launch 4 = some (hdlLaunch 0x20200 []) ∧ (hdlLaunch 0x20200 []).handle = crew0.launch ∧
    handlerOf (trapS 0x20200 [] crew0).m (hdlLaunch 0x20200 []) = some hdlDecl ∧ freeEntry (hdlLaunch 0x20200 []) = some 0 ∧ pedH crew0.ped = false ∧
    freeEntry (hdlLaunch 0x20200 [ent 0 false, ent 2 true]) = some 1 ∧ handlerOf (trapS 0 [] crew0).m (hdlLaunch 0 []) = none ∧
    pedH (pedOfHandler 0) = true ∧ crew0.slots ≠ [] ∧ hasSteps (trapS 0 [] crew0).m 0 1 = false := by decide
/-- System traps of a crew of that launch, whose aperture access is out, and one that has been asked to yield. -/
theorem wit_trap_system : (∀ code ∈ [0x30, 0x40, 0x51], systemCode code = true) ∧ (trapS 0 [] crew0).m.launch 4 = some (hdlLaunch 0 []) ∧
    ((trapS 0 [] crew0).m.job 1).isSome = true ∧ crew0.ap = none ∧ crew0.preBy = none ∧ asked.m.cur.pre.isSome = true ∧ asked.m.cur.slots ≠ [] ∧
    hasSteps asked.m asked.m.cur.core asked.m.cur.tid = false := by decide

/-- The crew is a handler of the record in entry 0, or runs on a control core beside a log entry. -/
def hdlCrew : Crew := sRegs [(1, w64 (trapArea 4), tI64), (2, 0x20000, tI64)] { crew0 with ped := pedOfHandler 0 }
def eretS (ts : List TrapEnt) (c : Crew) : State :=
  let s := trapS 0x20200 ts c
  { s with m := { s.m with launches := [(4, { hdlLaunch 0x20200 ts with trapBase := 0x20080 })],
                           others := [(2, { crew0 with tid := 2, status := .trapped 0x20080, slots := [1] })] } }
def hdlS (ts : List TrapEnt) : State := eretS ts (sRegs [(1, 0x20080, tI64), (2, 0x20000, tI64)] { crew0 with ped := pedOfHandler 0 })
def fRet (r : BitVec 7) (k : Nat) : Fields := { f0 with d := .s 8, a := .s r, c := .imm (BitVec.ofNat 8 k) }
theorem wit_eret_perm : issuesB (eretS [] (sRegs [(1, 0x20080, tI64)] crew0)) 0xF1 (fRet 1 0) pc0 = true ∧ isControl crew0.core = false ∧ pedH crew0.ped = false := by decide +kernel
theorem wit_eret_none : issuesB (hdlS [ent 0 true]) 0xF1 (fRet 1 0) pc0 = true ∧ findRecord (issued (hdlS [ent 0 true]).m pc0 0xF1 (fRet 1 0)) (hdlS []).m.cur 0x20080 = none ∧
    logAt (issued (hdlS [ent 0 true]).m pc0 0xF1 (fRet 1 0)) 0x20080 = none ∧
    okB (uniformLoad (issued (hdlS [ent 0 true]).m pc0 0xF1 (fRet 1 0)) (issueCtx (hdlS [ent 0 true]).m pc0 0xF1 (fRet 1 0)) 0x20080 128 8) = true := by decide
theorem wit_resumed : optB ((hdlS []).m.crew 2) (fun c => c.tid == 2 && decide (c.status = .trapped 0x20080)) = true ∧ 3 < crew0.pcs.length := by decide +kernel

/-- A crew of one lane on control core 0. -/
def ctlCrew : Crew :=
  sRegs [(1, 5, tI64), (2, 1, tI64), (3, 0x20000, tI64), (4, 0x1000, tI64), (5, 65536, tI64), (6, 0, tI64), (7, 4, tI64)]
    { crew0 with core := 320, pcs := [pc0], live := lanesBelow 1, m := smSet 0 [] 0 (lanesBelow 1) }
def ctlS (ks : List (Nat × (BitVec 256 × BitVec 256))) (k : Core) : State :=
  let s := onMem [] ctlCrew
  { s with m := { s.m with keys := ks, cores := [(320, k)] } }
def ctl0 : State := ctlS [] (Core.reset 320)
theorem wit_system : isControl ctl0.m.cur.core = true ∧ issuesB ctl0 0xF2 { f0 with d := .s 8, aux := 0x10 } pc0 = true ∧
    issuesB ctl0 0xF3 { f0 with b := .s 1, aux := 0x10 } pc0 = true ∧ okB (commit (issued ctl0.m pc0 0xF3 { f0 with b := .s 1, aux := 0x10 })) = true ∧ placeJob.id ≠ 0 := by decide
/-- A record of the Lennas log, answered from a control core. -/
def logS : State :=
  let s := onMem [] (sRegs [(1, w64 (logBase 0), tI64)] ctlCrew)
  { s with m := { s.m with others := [(2, { crew0 with tid := 2, status := .trapped (logBase 0), slots := [1] })],
                           dies := [(0, { Die.reset 0 with log := [{ tid := 2, record := [], answered := false }] })] } }
theorem wit_eret : (∀ k ∈ [0, 1, 2], issuesB logS 0xF1 (fRet 1 k) pc0 = true) ∧
    optB (findRecord (issued logS.m pc0 0xF1 (fRet 1 0)) logS.m.cur (logBase 0)) (fun q => q.tid == 2) = true ∧ okB (commit (issued logS.m pc0 0xF1 (fRet 1 0))) = true := by decide
/-- The supervisor instructions on a compute core. -/
theorem wit_supervisor : [0xF2, 0xF3, 0xF4, 0xF5, 0xFA].all (fun op => issuesB d0 op { f0 with d := if op = 0xF2 then .s 8 else .none, a := .s 4, b := .s 5, c := .none } pc0) = true ∧
    issuesB d0 0xF6 { f0 with d := .s 8, a := .s 4, b := .s 5 } pc0 = true ∧ issuesB d0 0xFC { f0 with d := .s 8, a := .s 4, c := .imm 1 } pc0 = true ∧
    isControl d0.m.cur.core = false := by decide
/-- A record of it that has been answered. -/
def spentS : State := { logS with m := { logS.m with dies := [(0, { Die.reset 0 with log := [{ tid := 2, record := [], answered := true }] })] } }
theorem wit_eret_spent : issuesB spentS 0xF1 (fRet 1 0) pc0 = true ∧ findRecord (issued spentS.m pc0 0xF1 (fRet 1 0)) spentS.m.cur (logBase 0) = none ∧
    (logAt (issued spentS.m pc0 0xF1 (fRet 1 0)) (logBase 0)).isSome = true := by decide
def stagedCore : Core := { Core.reset 320 with keydata := [(0, 7)], rsdata := [(0, 128)] }
theorem wit_key_slots : smFind (ctlS [] stagedCore).m.keys 5 = none ∧ (smFind (ctlS [(5, 0, 0)] stagedCore).m.keys 5).isSome = true ∧
    (let b := (List.range 4).flatMap (fun n => toBytes 8 (smGet 0 stagedCore.rsdata n).toNat)
     fld b 0 8 % 128 = 0 ∧ fld b 8 8 % 128 = 0 ∧ bits (fld b 22 1) 6 3 = 0 ∧ zeros b 23 9 = true) ∧
    fld ((List.range 4).flatMap (fun n => toBytes 8 (smGet 0 [(0, (1 : Word))] n).toNat)) 0 8 % 128 ≠ 0 := by decide
theorem wit_wake : bit 1 0 = true ∧ bit 1 1 = false ∧ (∀ c ∈ ctl0.m.crews, c.core = 320 + 1 → c.status ≠ .halted) ∧ issuesB ctl0 0xFA f0 pc0 = true ∧
    ((ctlS [] { Core.reset 320 with pendWake := true }).m.core 320).pendWake = true ∧ (ctl0.m.core 320).pendWake = false := by decide
theorem wit_invalidations : (∀ r ∈ [1, 6], issuesB ctl0 0xF4 { f0 with b := .s r } pc0 = true) ∧
    (∀ r ∈ [2, 5], issuesB ctl0 0xF5 { f0 with a := .s r, b := .s 3, c := .s 4 } pc0 = true ∧ issuesB ctl0 0xF5 { f0 with a := .s r } pc0 = true) ∧
    holdsTranslation (issued ctl0.m pc0 0xF5 { f0 with a := .s 2 }) 1 = false := by decide

/-- A launch record at 0x20000 for the declaration at `a`. -/
def launchDesc (a nroot : Nat) : List Byte := [1] ++ List.replicate 7 0 ++ toBytes 8 a ++ toBytes 2 nroot ++ List.replicate 110 0
def launchS (b : List Byte) : State :=
  let s := onMem b (sRegs [(1, 0x20000, tI64), (2, 99, tI64), (3, w64 placeLaunch.hnd, tI64), (4, 1001, tI64), (5, 8, tI64), (6, 0x12345678, tI64)] crew0)
  { s with m := { s.m with jobs := [(1, { placeJob with decls := [placeDecl] })] } }
def launchB (b : List Byte) (st : Option Nat) : Bool :=
  let f := { f0 with d := .s 8, a := .s 1 }
  issuesB (launchS b) 0xF6 f pc0 && chain (uniformLoad (issued (launchS b).m pc0 0xF6 f) (issueCtx (launchS b).m pc0 0xF6 f) 0x20000 128 8) (fun q =>
    decide (launchRefused q.1 q.1.cur.job q.2 = st) && okB (commit q.1) && (q.1.job q.1.cur.job).isSome)
theorem wit_launch : launchB (launchDesc 0x20000 256) none = true := by decide +kernel
theorem wit_launch_refused : launchB (launchDesc 0x20000 257) (some 1) = true := by decide +kernel
/-- A launch by a control core, of a record of job 1: of one that is a node of its graph, and of one that is none. -/
def nodeS (b : List Byte) : State :=
  let s := onMem b ctlCrew
  { s with m := { s.m with jobs := [(1, { placeJob with decls := [placeDecl], phases := [{ repeats := 1, nodes := [
    { cond := false, addr := 0x20000, nroot := 256, affbase := 0, tile := 0, seed := 0, hints := 0, succ := [] }] }], states := [.waiting] })] } }
def nodeB (nroot : Nat) (st node : Option Nat) : Bool :=
  let f := { f0 with d := .s 8, a := .s 3, b := .s 2 }
  let s := nodeS (launchDesc 0x20000 nroot)
  let x := issueCtx s.m pc0 0xF6 f
  issuesB s 0xF6 f pc0 && isControl s.m.cur.core && (opB x 6 x.low).toNat % 65536 == 1 && chain (loadRecord (issued s.m pc0 0xF6 f) x { core := 320, job := 1, sup := true } (opA x 6 x.low).toNat 128 8) (fun q =>
    decide (launchRefused q.1 1 q.2 = st) && okB (commit q.1) && optB (q.1.job 1) (fun j => launchNode j q.2 == node))
theorem wit_launch_node : nodeB 256 none (some 0) = true ∧ nodeB 255 none none = true ∧ nodeB 257 (some 1) none = true := by decide +kernel
theorem wit_objects : (∀ op ∈ [0xF7, 0xF9], ∀ r ∈ [2, 3], issuesB (launchS []) op { f0 with d := .s 8, a := .s r } pc0 = true) ∧
    objectOf (launchS []).m 99 = none ∧ optB (objectOf (launchS []).m placeLaunch.hnd) (fun e => e.1 == 1 && !objectOver (launchS []).m e.2) = true ∧
    objectOver { (launchS []).m with launches := [(4, { placeLaunch with done := true })] } (.launch 4) = true := by decide +kernel
theorem wit_leave : (∀ r ∈ [4, 5], ∀ k ∈ [0, 1], issuesB (launchS []) 0xF8 { f0 with d := .s 8, a := .s r, c := .imm k } pc0 = true) ∧
    ((launchS []).m.die 0).lee.budget = 1000 ∧ okB (leeAsk (launchS []).m (launchS []).m.cur 1000) = true := by decide
theorem wit_monitor : issuesB (launchS []) 0xFC { f0 with d := .s 8, a := .s 6, c := .imm 0 } pc0 = true ∧
    (∀ k ∈ [1, 2], issuesB ctl0 0xFC { f0 with d := .s 8, a := .s 1, c := .imm k } pc0 = true) ∧ (launchS []).m.captures = [] := by decide


/-! ### Events -/

/-- The endpoint of a module that is up, and one whose boot stopped. -/
def upS (h : HostIf) (m : Mach) : State := { boot := { State.reset.boot with stage := 6, ready := true }, host := h, m := m }
def up0 : State := upS State.reset.host d0.m
theorem wit_boot : up0.boot.ready = true ∧ up0.boot.err = 0 ∧ 2 ≤ up0.boot.stage ∧ State.reset.boot.stage < 2 ∧
    ({ State.reset.boot with stage := 5 } : Boot).stage = 5 ∧ ({ State.reset.boot with stage := 5 } : Boot).err = 0 ∧ (List.replicate 48 (0 : Byte)).length = 48 ∧
    measOf up0.boot 5 = some (List.replicate 48 0) ∧ measOf up0.boot 1 = none := by decide
/-- A slot in the endpoint's hands, one with an unread response, and a free one; the last bytes of a slot. -/
def mbS : State := upS { State.reset.host with owned := [1], unread := [2] } { d0.m with notices := [(3, 1)], msixOn := true, msixMask := [(6, false)], msixPend := [5] }
theorem wit_mailbox : 1 ∈ mbS.host.owned ∧ 2 ∈ mbS.host.unread ∧ 3 ∉ mbS.host.owned ∧ 3 ∉ mbS.host.unread ∧ (7 : Nat) < 8 ∧ 255 + 1 ≤ (256 : Nat) ∧
    mbS.m.notices = (3, 1) :: [] ∧ up0.m.notices = [] ∧ barMapped 0x1010 = false ∧ barMapped 0x100F = true ∧ 0x1010 / 4 * 4 ≠ 0x100C ∧ 0x1000 / 4 * 4 ≠ 0x100C ∧ cplRange 0 = some 50000 ∧
    smGet true mbS.m.msixMask 5 = true ∧ mbS.m.msixOn = true ∧ mbS.m.msixFn = false ∧ 5 ∈ mbS.m.msixPend ∧ (∀ w ∈ mbS.m.msixPend, msixOpen mbS.m w = false) ∧ mbS.m.msixPend.Nodup ∧
    msixOpen mbS.m 6 = true ∧ msixOpen mbS.m 5 = false ∧ up0.m.msixOn = false := by decide

def request (op job obj : Nat) : List Byte := splice (List.replicate 256 0) 0 (toBytes 2 op ++ [0, 0] ++ toBytes 2 job ++ List.replicate 42 0 ++ toBytes 8 obj)
def reqS (q : List Byte) : State := upS { State.reset.host with owned := [1], reqs := [(1, q)] } d0.m
theorem wit_requests : [1, 2, 3, 4, 5].all (fun op => optB (requestOf (reqS (request op 1 0)) 1) (fun e => rqOp e.1 == op && e.2.isNone)) = true ∧
    requestOf (reqS []) 2 = none ∧ submitOnlyBad (request 2 1 0) = false ∧ rqImage (request 2 1 0) = 0 ∧ rqLen (request 2 1 0) = 0 ∧
    (d0.m.job (rqJob (request 2 1 0))).isSome = true ∧ placeJob.ended = false ∧ placeJob.submitter = none ∧ rqObj (request 3 1 0) = 0 ∧
    objectOver d0.m (.job 1) = false ∧ objectOver { d0.m with jobs := [(1, { placeJob with counter := 0 })] } (.job 1) = true ∧
    submitOnlyBad (splice (request 2 1 0) 6 [1]) = true ∧ d0.m.job (rqJob (request 2 2 0)) = none := by decide
/-- SUBMIT: a class that no configuration admits less than, no keys, and an image of 64 bytes at 0x30000 that is no image. -/
def submitReq (img len : Nat) : List Byte := splice (request 1 0 0) 0 (slice (request 1 0 0) 0 8 ++ toBytes 4 20 ++ toBytes 2 0 ++ toBytes 2 0 ++ List.replicate 16 0 ++ toBytes 8 img ++ toBytes 8 len)
theorem wit_submit : rqCls (submitReq 0x30000 64) = 0 ∧ keysDenied d0.m none (rqKeys (submitReq 0x30000 64)) = false ∧ absentRange d0.m 0x30000 64 = false ∧
    absentRange d0.m (2 ^ 50) 64 = true ∧ submitBad (submitReq 0x30000 64) = false ∧ submitBad (submitReq 0x30001 64) = true := by decide

def hostS : State := upS { State.reset.host with cxl := true, hdm := [(0, { base := 0, size := 2 ^ 28, on := true })] }
  { d0.m with hostwin := [(0, BitVec.ofNat 64 (2 ^ 63 + 3 * 2 ^ 61 + 2 ^ 60 + 2 ^ 28))], held := [7], snoops := [7] }
theorem wit_host : hostS.host.cxl = true ∧ optB (smFind hostS.host.hdm 0) (fun d => d.on && decide (0x30000 + 8 ≤ d.size)) = true ∧
    winAddr hostS 0 0x30000 8 true = some (0x30000, 256) ∧ (∀ l ∈ linesOf 0x30000 8, engineHeld hostS.m 0 l = false ∧ setFull hostS.m l = false) ∧
    winAddr up0 0 0x30000 8 true = none ∧ 7 ∈ hostS.m.snoops ∧ 8 ∉ hostS.m.snoops ∧
    smFind hostS.host.hdm 1 = none ∧ snoopLate hostS.m = false ∧ snoopLate { hostS.m with clk := 18000000 } = true ∧ hostS.m.held ≠ [] ∧ up0.m.held = [] := by decide
/-- A line that a copy command is to write. -/
def hostWait : State := { hostS with m := { bteQueue 1 with hostwin := hostS.m.hostwin } }
theorem wit_host_waits : winAddr hostWait 0 0x30800 8 true = some (0x30800, 256) ∧ engineHeld hostWait.m 0 (0x30800 / 128) = true ∧ 0x30800 / 128 ∈ linesOf 0x30800 8 := by decide
def apReq : ApReq := { pc := pc0, va := 0x20000, kind := 0, leaf := 0, d := .v 4, y := 2, lanes := [(0, 0)], size := 4, since := 1 }
def apS (clk : Nat) : State := { up0 with m := { up0.m with clk := clk, cur := { up0.m.cur with ap := some apReq } } }
theorem wit_aperture : (apS 0).m.cur.ap = some apReq ∧ (apS 0).m.cur.tid < 2 ^ 48 ∧ (apS 0).m.cur.late = none ∧ (apS 0).m.clk < apReq.since + apLimit (apS 0).m ∧
    apReq.since + apLimit (apS 90000001).m ≤ (apS 90000001).m.clk := by decide
def apRead : ApEng := { num := 7, op := 5, addr := 0, size := 4, since := 1, answer := none }
theorem wit_engine_reads : (∃ e ∈ [apRead], e.num = 7 ∧ e.answer = none) ∧ (∀ e ∈ up0.m.apEng, ¬ (e.num = 7 ∧ e.answer = none)) ∧
    ∀ e ∈ [apRead], e.num = 7 ∧ e.answer = none → (apS 0).m.clk < e.since + apLimit (apS 0).m := by decide

def frame0 (typ psn apsn flags : Nat) : Frame :=
  { port := 0, ver := 1, typ := typ, domain := 1, src := 9, dst := up0.m.modIn 1, cls := 0, chan := 0, psn := psn, apsn := apsn, flags := flags, oparg := 0, credit := 16, payload := [] }
def conn0 (psn : Nat) (fs : List Frame) : Conn :=
  { domain := 1, src := up0.m.modIn 1, dst := 9, cls := 0, chan := 0, port := 0, psn := psn, rpsn := 5, credit := 16, unacked := fs, sent := fs.length, retries := 0, since := 0, down := false }
def netS (fs : List Frame) (fenced : List Nat) : State :=
  { up0 with m := { up0.m with net := { up0.m.net with ports := [0], conns := [conn0 6 fs], heard := [(9, 0)], fenced := fenced } } }
theorem wit_frames : [0, 1, 2, 3, 4, 5, 6, 7].all (fun t => frameOk (netS [] []).m t (frame0 t 5 0 0)) = true ∧ frameOk (netS [] []).m 1 (frame0 2 5 0 0) = false ∧
    (netS [] []).m.conn (connOf (frame0 1 5 0 0)) = some (conn0 6 []) ∧ (conn0 6 []).unacked = [] ∧ (conn0 6 []).sent = 0 ∧ (frame0 1 5 0 0).psn = (conn0 6 []).rpsn ∧
    (frame0 1 6 0 0).psn ≠ (conn0 6 []).rpsn ∧ (frame0 1 5 0 0).domain ∉ (netS [] []).m.net.fenced ∧ (frame0 1 5 0 0).domain ∈ (netS [] [1]).m.net.fenced ∧
    0 ∈ (netS [] []).m.net.ports ∧ twoTags (List.replicate 64 0) = false ∧ 1 ∉ (netS [] []).m.net.ports := by decide
/-- Frames of two classes and two connections that wait for port 0. -/
def txFrames : List Frame := [frame0 1 5 0 0, { frame0 1 6 0 0 with dst := 3 }, { frame0 1 7 0 0 with cls := 2 }]
theorem wit_ports : (∀ f ∈ txFrames, f.port = 0 ∧ f.cls < 4) ∧ portNext [] 0 txFrames = some (frame0 1 5 0 0) ∧
    portNext [(0, connKey (frame0 1 5 0 0))] 0 txFrames = some { frame0 1 6 0 0 with dst := 3 } ∧
    portNext [(0, connKey { frame0 1 6 0 0 with dst := 3 })] 0 txFrames = some (frame0 1 5 0 0) := by decide
/-- A frame of the window, acknowledged and asked for again. -/
theorem wit_window : (conn0 6 [frame0 1 5 0 0]).unacked = [frame0 1 5 0 0] ∧ (frame0 0 0 6 0).flags / 2 % 2 = 0 ∧ (6 + 2 ^ 32 - 5) % 2 ^ 32 = (conn0 6 [frame0 1 5 0 0]).sent ∧
    (frame0 0 5 5 2).flags / 2 % 2 = 1 ∧ (5 + 2 ^ 32 - 5) % 2 ^ 32 = 0 ∧ (netS [frame0 1 5 0 0] []).m.net.conns[0]? = some (conn0 6 [frame0 1 5 0 0]) ∧
    connLate { d0.m with clk := 90000 } (conn0 6 [frame0 1 5 0 0]) = true ∧ connLate { d0.m with clk := 89999 } (conn0 6 [frame0 1 5 0 0]) = false ∧
    (netS [] []).m.net.heard.find? (fun e => e.1 == 9) = some (9, 0) ∧ (netS [] []).m.net.ports.filter (· != 1) ≠ [] := by decide

theorem wit_recovery : (∀ k ∈ [0, 1, 2, 3, 4], optB ({ d0.m with jobs := [(1, { placeJob with recovery := k, ckpt := 2 })] }.job 1) (fun j => j.recovery == k && !j.ended) = true) ∧
    placeJob.ckpt = 0 ∧ d0.m.job 2 = none ∧ (placeJob.image.map (·.1)).Nodup ∧ canIssue d0.m.cur = some pc0 ∧ canIssue { crew0 with status := .halted } = none ∧
    (([(0, 1)] : List Host.Cell).map (·.1)).Nodup ∧
    ({ crew0 with late := some (exc0 0x12) } : Crew).late = some (exc0 0x12) ∧ canIssue { crew0 with late := some (exc0 0x12), status := .halted } = none ∧ canIssue { crew0 with late := some (exc0 0x12) } = some pc0 ∧
    (∀ c ∈ d0.m.crews, c.late = none ∨ canIssue c = none) := by decide
/-- The line of the instruction's word, met at it (R261, source 3), and a line that it does not meet. -/
theorem wit_ecc : eccMeets d0.m d0.m.cur pc0 3 0x10000 0x10000 = true ∧ eccMeets d0.m d0.m.cur pc0 0 0 0 = false := by decide
/-- A job with three tables and two leaves of 64 GiB, on stacks 1 and 3. -/
def pagesM : Mach :=
  { d0.m with mem := [(0x100001, 0x10), (0x100002, 0x10), (0x100007, 0x80), (0x101001, 0x20), (0x101002, 0x10), (0x101007, 0x80), (0x102004, 0x10), (0x102006, 0xC0),
                      (0x102007, 0xF0), (0x10200F, 0x10), (0x102014, 0x30), (0x102016, 0xC0), (0x102017, 0xF0), (0x10201F, 0x10)] }
theorem test_job_pages : jobPages pagesM 1 = [(0, 0x1000000000, 0x1000000000), (0x1000000000, 0x3000000000, 0x1000000000)] := by decide +kernel
theorem wit_job_pages : (jobPages pagesM 1).Pairwise (fun p q => p.2.1 + p.2.2 ≤ q.2.1 ∨ q.2.1 + q.2.2 ≤ p.2.1) ∧ (jobPages pagesM 1).length = 2 ∧
    pagesM.job 1 = some placeJob := by
  rw [test_job_pages]; decide
/-- A deadline that has passed, and one at the very cycle. -/
theorem wit_yield_deadline : let p : PreReq := { cycle := 1, deadline := 2, byTid := 9, byCls := 0 }
    ({ crew0 with pre := some p } : Crew).pre = some p ∧ p.deadline < 3 ∧ 2 ≤ p.deadline ∧ crew0.slots ≠ [] := by decide
/-- A job image of one phase with one launch node, and one object without segments: its sections are the required ones, all empty but the depths. -/
def padTo (n : Nat) (l : List Byte) : List Byte := l ++ List.replicate (n - l.length) 0
def strs0 : List Byte := [0] ++ (".brix.depths".toList ++ [Char.ofNat 0] ++ ".brix.tasks".toList ++ [Char.ofNat 0] ++ ".brix.linkage".toList ++ [Char.ofNat 0]).map (fun c => BitVec.ofNat 8 c.toNat)
def sect0 (name typ off size : Nat) : List Byte := toBytes 4 name ++ toBytes 4 typ ++ toBytes 8 0 ++ toBytes 8 0 ++ toBytes 8 off ++ toBytes 8 size ++ List.replicate 24 0
def elf0 : List Byte :=
  padTo 64 (toBytes 4 0x464C457F ++ [2, 1, 1, 0xDA, 1] ++ List.replicate 7 0 ++ toBytes 2 2 ++ toBytes 2 0xD32A ++ toBytes 4 1 ++ toBytes 8 0 ++ toBytes 8 64 ++ toBytes 8 64 ++
    toBytes 4 0 ++ toBytes 2 64 ++ toBytes 2 56 ++ toBytes 2 0 ++ toBytes 2 64 ++ toBytes 2 4 ++ toBytes 2 0) ++
  sect0 0 3 320 48 ++ sect0 1 1 368 32 ++ sect0 14 1 0 0 ++ sect0 26 1 0 0 ++ padTo 48 strs0 ++ depthsEntry
def image0 : List Byte :=
  padTo 64 (toBytes 4 0x424F4A47 ++ toBytes 2 1 ++ toBytes 2 1 ++ toBytes 8 64 ++ toBytes 8 80) ++ (toBytes 8 224 ++ toBytes 8 elf0.length) ++
  (toBytes 8 96 ++ toBytes 4 1 ++ toBytes 2 1 ++ toBytes 2 0) ++ padTo 128 ([1] ++ List.replicate 7 0 ++ toBytes 8 0x20000 ++ toBytes 2 1) ++ elf0
/-- Where the image lies: on another stack than the frames of the job, and above them. -/
def imgAt : Nat := 0x7000030000
/-- A machine whose memory holds the image alone, as its canonical list. -/
def imgM : Mach := { d0.m with mem := (((List.range image0.length).map (· + imgAt)).zip image0).filter (fun c => c.2 != 0) }

def reqI : List Byte := splice (List.replicate 256 0) 0 (toBytes 2 1 ++ List.replicate 6 0 ++ toBytes 4 20 ++ List.replicate 20 0 ++ toBytes 8 imgAt ++ toBytes 8 image0.length)
def obj0 : LObj := { idx := 0, off := 224, len := image0.length - 224, segs := [], patch := [] }
theorem wit_submit_image : imageBad (imgRd imgM imgAt) image0.length = [] ∧ objSpans (imgRd imgM imgAt) image0.length = [(224, image0.length - 224)] := by decide +kernel
theorem wit_submit_load : (match loadObjs imgM none [] (imgRd imgM imgAt) [] [(224, image0.length - 224)] with | .ok os => decide (os = [obj0]) | .error _ => false) = true := by
  decide +kernel
/-- An object without segments joins a job and takes no frame. -/
theorem join_empty (rd : Rd) (id n : Nat) {o : LObj} (ho : o.segs = []) {m : Mach} (h : FramesFree m n) : ∃ m', joinObjs rd id [o] m = some m' ∧ FramesFree m' n := by
  simp only [joinObjs, List.flatMap_cons, List.flatMap_nil, ho, List.map_nil, List.append_nil, mapObjs, List.any_nil, Bool.false_and, Bool.false_eq_true, if_false]
  split <;> refine ⟨_, rfl, ?_⟩ <;> (unfold Mach.modJob; split <;> exact h)
/-- The job is created: its number is free, and so are frames for its root and the control page (R65). -/
theorem wit_submit_job : ∃ m', createJob imgM reqI none (imgRd imgM imgAt) [obj0] = some (2, m') := by
  have hj : freeJob imgM 0xFFFF imgM.nextJob = some 2 := by decide +kernel
  obtain ⟨f, m1, ha, hf⟩ := allocFrame_free (m := imgM) (n := 96) ⟨by decide, by decide +kernel⟩
  unfold createJob
  rw [hj, ha]
  dsimp only
  obtain ⟨m2, h2, hf2⟩ := join_empty (imgRd imgM imgAt) 2 96 (o := obj0) rfl
    (m := Mach.setJob { m1 with nextJob := if (2 : Nat) = 0xFFFF then 1 else 2 + 1, launches := m1.launches.filter (fun e => e.2.job != 2) } 2
      (jobOf reqI 2 (jobHandle 2) f none (parsePhases (imgRd imgM imgAt)))) hf
  rw [h2]
  obtain ⟨m3, h3⟩ := mapReadOnly_free (n := 16) 2 ctlPage hf2
  exact ⟨m3, by simp only [h3, Option.map_some]⟩
theorem wit_submit_done : loadObjs imgM none [] (imgRd imgM imgAt) (imageBad (imgRd imgM imgAt) image0.length) (objSpans (imgRd imgM imgAt) image0.length) = .ok [obj0] ∧
    (∃ m', createJob imgM reqI none (imgRd imgM imgAt) [obj0] = some (2, m')) := by
  refine ⟨?_, wit_submit_job⟩
  rw [wit_submit_image.1, wit_submit_image.2]
  have h := wit_submit_load
  split at h
  · rename_i os he
    rw [he, of_decide_eq_true h]
  · exact absurd h Bool.false_ne_true

/-! ### Schedulers, jobs and engines -/

def rec0 (t cls : Nat) (cells : List Half) : TaskRec :=
  { tid := t, parent := 1, ped := pedOfRoot 0, decl := 0x20000, arg := 0, launch := 4, aff := 0, kind := if cells.isEmpty then .spawned else .dataflow, stage := 0, cls := cls, cells := cells, rrk := 0, enq := 0 }
def leeDie (units : Nat) : Die := { Die.reset 0 with lee := { budget := 1000, grants := [], waiting := [{ tid := 1, core := 0, cls := 2, units := units, since := 0 }], granted := [] } }
theorem wit_leave_queue : leeFirst (leeDie 1000).lee = some { tid := 1, core := 0, cls := 2, units := 1000, since := 0 } ∧
    leeUsed { d0.m with dies := [(0, leeDie 1000)] } 0 + 1000 ≤ 1000 ∧ leeFirst (leeDie 1001).lee = some { tid := 1, core := 0, cls := 2, units := 1001, since := 0 } ∧
    1000 < leeUsed { d0.m with dies := [(0, leeDie 1001)] } 0 + 1001 ∧ (d0.m.die 0).lee.waiting = [] := by decide +kernel
/-- Core 0, the only one of its die, with every slot taken by the crew, and a record that waits. -/
def fullS (st : Status) (k : Core) (d : Die) (clk : Nat) : State :=
  { up0 with m := { up0.m with clk := clk, cur := { crew0 with slots := List.range 24, status := st }, jobs := [(1, declJob)], cores := [(0, k)], dies := [(0, d)],
                               coresOff := (List.range 40).drop 1 } }
theorem wit_reclaim : reclaimPlan (fullS (.parked .monitor 0) { Core.reset 0 with deque := [rec0 9 2 []] } (Die.reset 0) 2048).m 0 = some 1 ∧
    reclaimPlan (fullS (.parked .monitor 0) { Core.reset 0 with deque := [rec0 9 2 []] } (Die.reset 0) 2047).m 0 = none := by decide +kernel
theorem wit_preempt : optB (preemptPlan (fullS .ready (Core.reset 0) { Die.reset 0 with queues := [(32, [rec0 9 1 []])], best := (9, 0) } 64).m 0)
      (fun e => e.1.tid == 9 && decide (e.2 = (fullS .ready (Core.reset 0) (Die.reset 0) 64).m.cur)) = true ∧
    preemptPlan (fullS .ready (Core.reset 0) { Die.reset 0 with queues := [(32, [rec0 9 1 []])], best := (9, 0) } 63).m 0 = none := by decide +kernel
/-- A crew without slots that became resumable 4096 cycles ago, seen from the next core. -/
def idleM (clk : Nat) : Mach := { up0.m with clk := clk, jobs := [(1, declJob)], cur := { crew0 with slots := [], resumable := true, resAt := 0 } }
theorem wit_migrate : (migratePlan (idleM 4096) 1 1).isSome = true ∧ (migratePlan (idleM 4095) 1 1).isNone = true := by decide +kernel
theorem wit_forward : let k : Core := { Core.reset 0 with fwd := [{ tid := 9, core := 1, since := 0 }] }
    (∃ f ∈ k.fwd, f.since + 4096 ≤ 4096) ∧ ∀ f ∈ k.fwd, 4095 < f.since + 4096 := by decide +kernel
theorem wit_steal : maySteal up0.m 1 = true ∧ victimSeq up0.m 1 ≠ [] ∧ maySteal { up0.m with cores := [(1, { Core.reset 1 with asked := [2, 3] })] } 1 = false ∧
    ({ Core.reset 1 with asked := [2] } : Core).asked = [2] ∧ (2 : Nat) ≠ 1 ∧ ({ Core.reset 2 with deque := [rec0 9 2 []] } : Core).deque = [rec0 9 2 []] ∧ (318 : Nat) + 1 = 319 := by decide +kernel
theorem wit_wait_events : waitHolds d0.m d0.m.cur .monitor = true ∧ waitHolds d0.m { d0.m.cur with monitor := { armed := true, addr := 0, line := 0, fired := false } } .monitor = false ∧
    tableUsed d0.m 0 < 2048 ∧ waitHolds (passOn d0.m 1) d0.m.cur .monitor = true ∧ ({ crew0 with status := .parked .monitor 0, woken := true } : Crew).woken = true ∧
    crew0.woken = false := by decide +kernel
/-- A record whose one input is cell 1 and whose output is cell 2. -/
def cellRec : TaskRec := rec0 9 2 [0x80000001, 0, 0, 0, 0x80000002, 0]
def pendS (full : Bool) : State :=
  { up0 with m := { up0.m with launches := [(4, tileLaunch)], dies := [(0, { Die.reset 0 with pending := [(0, [cellRec])], cells := [{ Cell.fresh 4 1 with full := full }] })] } }
theorem wit_eligible : (smGet [] ((pendS true).m.die 0).pending 0).find? (fun r => r.tid == 9) = some cellRec ∧ eligible (pendS true).m cellRec = true ∧
    eligible (pendS false).m cellRec = false := by decide +kernel
def servedS : State :=
  { up0 with m := { up0.m with cur := { up0.m.cur with stall := some .cell }, dies := [(0, { Die.reset 0 with cells := [{ Cell.fresh 4 1 with full := true, queue := [(1, true)] }] })] } }
theorem wit_served : (servedS.m.die 0).cells = [{ Cell.fresh 4 1 with full := true, queue := [(1, true)] }] ∧
    (cellQueue servedS.m { Cell.fresh 4 1 with full := true, queue := [(1, true)] }).find? (canAct { Cell.fresh 4 1 with full := true, queue := [(1, true)] }) = some (1, true) := by decide +kernel
def item0 (acc nack : Bool) : StageItem := { launch := 4, ring := 0, seq := 0, task := rec0 9 2 [], nacked := nack, accepted := acc }
def stage0 (items : List TaskRec) : Stage :=
  { decl := 0x20000, ring := 1, hi := 100, lo := 0, die := 0, minc := 1, maxc := 1, items := items, borrowed := [], expect := [] }
theorem wit_stage : ([item0 false false].find? (fun w => !w.nacked && !w.accepted)) = some (item0 false false) ∧
    (smGet 0 (stage0 []).expect 0 = (item0 false false).seq ∧ (stage0 []).items.length - (stage0 []).borrowed.length < (stage0 []).ring) ∧
    (¬ ((stage0 [rec0 8 2 []]).items.length - (stage0 [rec0 8 2 []]).borrowed.length < (stage0 [rec0 8 2 []]).ring) ∧
      ¬ (poolUsed { placeLaunch with stages := [stage0 [rec0 8 2 []]] } < placeLaunch.pool)) ∧
    (item0 true false).accepted = true ∧ ([(7, 0)].find? (fun e : Nat × Nat => decide (e.2 ≤ 0))) = some (7, 0) ∧
    (∀ st ∈ [stage0 []], 100 * st.items.length < st.hi * st.ring) := by decide +kernel
theorem wit_halted : let m := { up0.m with cur := { ctlCrew with status := .halted }, cores := [(320, { Core.reset 320 with pendWake := true })] }
    m.others = [] ∧ haltOver m m.cur = true ∧ ∀ c ∈ up0.m.crews, haltOver up0.m c = false := by decide +kernel

/-- A launch that has not started, for a declaration and its job. -/
def newLaunch (a : Nat) : Launch := { placeLaunch with started := false, declAddr := a, decl := none }
def jobM (a : Nat) (ways : Nat) : Mach := { up0.m with jobs := [(1, declJob)], launches := [(4, newLaunch a)], dies := [(0, { Die.reset 0 with ways := [(9, ways)] })] }
theorem wit_launch_start : (∀ d ∈ declJob.decls, d.addr = 0x20200 → d.hdlr = true) ∧ declJob.decls.find? (fun d => d.addr == 0x20000) = some placeDecl ∧
    placeDecl.hdlr = false ∧ placeDecl.redmap = 0 ∧ placeDecl.piped = 0 ∧ (match launchPlan (jobM 0x20000 0) (newLaunch 0x20000) with | .ok (j, d, r, p) => j == declJob && d == placeDecl && r.isEmpty && p.isNone | .error _ => false) = true ∧
    (match launchPlan (jobM 0x20200 0) (newLaunch 0x20200) with | .error c => c == 1 | .ok _ => false) = true ∧
    asideWaits (jobM 0x20000 0) 4 0 none = false ∧ asideWaits (jobM 0x20000 3) 4 1 none = false ∧ asideWaits (jobM 0x20000 4) 4 1 none = true ∧
    (∀ e ∈ (jobM 0x20000 0).launches, 4 ≤ e.1 ∨ e.2.started = true ∨ e.2.done = true) ∧ placeLaunch.counter ≠ 0 := by decide +kernel
def condNode0 : Node := { cond := true, addr := 0x20000, nroot := 0, affbase := 0, tile := 0, seed := 0, hints := 0, succ := [1, 2] }
def condJob (a : Nat) : Job := { placeJob with phases := [{ repeats := 2, nodes := [{ condNode0 with addr := a }] }] }
theorem wit_condition : nodeAt (condJob 0x20000) 0 = some condNode0 ∧ nodeState (condJob 0x20000) 0 = .running ∧
    (match condFetch { d0.m with jobs := [(1, condJob 0x20000)] } 1 0 0x20000 with | .data _ _ => true | _ => false) = true ∧
    (match condFetch { d0.m with jobs := [(1, condJob 0x90000)] } 1 0 0x90000 with | .fault => true | _ => false) = true ∧
    heldLines d0.m { core := 320, job := 1, sup := false } [(0x20000, 8)] = [] ∧ nodeState { condJob 0x20000 with states := [.failed] } 0 = .failed := by decide +kernel
theorem wit_phase : placeJob.phaseCtr ≠ 1 ∧ ({ condJob 0 with phaseCtr := 1 } : Job).phaseCtr = 1 ∧ placeJob.ended = false ∧ enginesBusy d0.m 1 = false ∧ liveLaunches d0.m 1 ≠ [] ∧ liveLaunches { d0.m with launches := [] } 1 = [] ∧ enginesBusy { d0.m with launches := [] } 1 = false ∧
    enginesBusy (bteQueue 1) 1 = true ∧ hintHeld d0.m (condJob 0) = [] ∧ ({ placeJob with ended := true } : Job).ended = true ∧
    (condJob 0).phases[(condJob 0).phase]? = some { repeats := 2, nodes := [{ condNode0 with addr := 0 }] } ∧ (condJob 0).runs + 1 < 2 := by decide +kernel
theorem wit_migration : optB (pageBase d0.m 1 0x20000) (fun e => lfHome e.1 == 0) = true ∧ viewPage d0.m 1 0x20000 4096 = false ∧ pageHeld d0.m 1 0x20000 = [] ∧
    pageHeld { d0.m with held := [0x30080 / 128] } 1 0x20000 ≠ [] ∧ holdsTranslation d0.m 1 = false ∧ heldRanges d0.m = [] ∧
    (heldRanges (bteQueue 1)).any (fun r => r.2.1 == 1) = true ∧ pageBase d0.m 1 0x90000 = none ∧ pageBase d0.m 1 0x20001 = none := by decide +kernel
theorem wit_walk : chain (check1 d0.m { core := 0, job := 1, sup := false } 2 true { lane := 0, va := 0x20000, size := 1 }) (fun _ => true) = true ∧
    (match check1 d0.m { core := 0, job := 1, sup := false } 2 true { lane := 0, va := 0x10000, size := 1 } with | .error (n, _) => n != 5 | .ok _ => false) = true := by decide +kernel

/-- The heads of a core's sequencer. -/
theorem wit_steps : (mat0.m.core 0).seqq = [] ∧ (busyS.m.core 0).seqq = [.step 1 1 1 2 [] stepBytes false] ∧ busyS.m.cur.tid = 1 ∧
    ({ Core.reset 0 with mdata := [{ load := 1, groups := [] }] } : Core).mdata.find? (fun x => x.load == 1) = some { load := 1, groups := [] } ∧
    (let w : Who := { core := 0, job := 1, sup := false, op := 1 }
     heldLines mat0.m w (loadRuns (loadDesc loadBytes)) = [] ∧ engineStops mat0.m w (loadRuns (loadDesc loadBytes)) = false ∧
     heldLines { mat0.m with held := [0x30000 / 128] } w (loadRuns (loadDesc loadBytes)) ≠ [] ∧ chain (loadAll w (loadDesc loadBytes) mat0.m) (fun _ => true) = true) := by decide +kernel
/-- A copy to the page that the load reads. -/
theorem wit_load_stops : engineStops { mat0.m with dies := [(0, { Die.reset 0 with chans := [(0, { queue := [{ cmd0 false [] with tmpl := splice tmpl0 8 (toBytes 8 0x20000) }], accepted := 1, stamped := 0 })] })] }
    { core := 0, job := 1, sup := false, op := 1 } (loadRuns (loadDesc loadBytes)) = true := by decide +kernel
def engW : Who := { core := 336, job := 1, sup := false, op := 5 }
theorem wit_copy : (match bteDst bteState.m (cmd0 false []) with | .mem => true | _ => false) = true ∧ tSkind tmpl0 = 0 ∧ tDkind tmpl0 = 0 ∧
    heldLines bteState.m engW [srcHull tmpl0 0, dstHull tmpl0 0] = [] ∧ heldLines { bteState.m with held := [0x30800 / 128] } engW [srcHull tmpl0 0, dstHull tmpl0 0] ≠ [] ∧
    (chanGet bteState.m 0 0).queue = [] ∧ (cmd0 true []).started = true ∧ (cmd0 true [3]).signals ≠ [] ∧
    (chanGet { bteState.m with dies := [(0, { Die.reset 0 with chans := [(0, { queue := [cmd0 true []], accepted := 1, stamped := 0 })] })] } 0 0).queue = [cmd0 true []] := by decide +kernel
/-- Its lines are its own, and another command's are not. -/
theorem wit_copy_busy : engineStops (bteQueue 1) engW [(0x20000, 16), (0x20800, 16)] = false ∧ engineStops (bteQueue 1) { engW with op := 6 } [(0x20000, 16), (0x20800, 16)] = true := by decide +kernel
/-- The same template with rows of one byte. -/
def tmpl1 : List Byte := splice tmpl0 24 [1]
theorem wit_copy_rows : bteRows tmpl1 0 = [(0, 0)] ∧ (match bteRead engW tmpl1 none [(0, 0)] bteState.m with
    | .rows l m => (bteWrite (fun m d bs => engineWrite m engW (wrapTo 64 (fld tmpl1 8 8 + d)) bs) l m).2 | _ => false) = true ∧
    (match bteRead engW (splice tmpl1 0 (toBytes 8 0x90000)) none [(0, 0)] bteState.m with | .bad => true | _ => false) = true := by decide +kernel
theorem wit_stamp : heldLines bteState.m engW [(fld tmpl0 16 8, 8)] = [] ∧ engineStops bteState.m engW [(fld tmpl0 16 8, 8)] = false ∧ engineStops (bteQueue 1) { engW with op := 6 } [(0x20800, 8)] = true ∧
    (engineWrite bteState.m engW (fld tmpl0 16 8) (toBytes 8 1)).2 = true := by decide +kernel
/-- A copy for a peer that no port leads to. -/
theorem wit_stamp_gone : let t := splice tmpl0 72 (toBytes 1 8)
    let m := { bteState.m with jobs := [(1, { placeJob with domain := some 1 })] }
    tDkind t = 2 ∧ peerGone m 1 (fld t 74 2) placeJob.cls = true ∧ peerWaits m 1 (fld t 74 2) placeJob.cls = false ∧ heldLines m engW [(fld t 16 8, 8)] = [] ∧
    engineStops m engW [(fld t 16 8, 8)] = false ∧ (engineWrite m engW (fld t 16 8) (toBytes 8 (1 + 2 ^ 63))).2 = true := by decide +kernel
theorem wit_landed : let k : Core := { Core.reset 0 with landed := [(0, 5)] }
    k.landed = [(0, 5)] ∧ k.landing = none ∧ (cmd0 true [0]).op = 5 := by decide +kernel

end Sys2Proof.Tests
end

section
/-! Operations that leave every byte of memory as it was. -/

namespace Sys2Proof.Laws

open Sys2Proof.Machine

/-! ### Folds -/

/-- A fold of operations that keep memory keeps it. -/
theorem foldl_mem {α : Type} {f : Mach → α → Mach} (h : ∀ m a, (f m a).mem = m.mem) (l : List α) (m : Mach) : (l.foldl f m).mem = m.mem := by
  induction l generalizing m with
  | nil => rfl
  | cons a t ih => rw [List.foldl_cons, ih, h]

/-- The same for a fold whose accumulator holds the machine first. -/
theorem foldl_fst_mem {α β : Type} {f : Mach × β → α → Mach × β} (h : ∀ p a, (f p a).1.mem = p.1.mem) (l : List α) (p : Mach × β) :
    (l.foldl f p).1.mem = p.1.mem := by
  induction l generalizing p with
  | nil => rfl
  | cons a t ih => rw [List.foldl_cons, ih, h]

/-- The same for a fold whose accumulator holds the machine second. -/
theorem foldl_snd_mem {α β : Type} {f : β × Mach → α → β × Mach} (h : ∀ p a, (f p a).2.mem = p.2.mem) (l : List α) (p : β × Mach) :
    (l.foldl f p).2.mem = p.2.mem := by
  induction l generalizing p with
  | nil => rfl
  | cons a t ih => rw [List.foldl_cons, ih, h]

/-- Memory is kept by a choice of two that keep it. -/
theorem ite_mem {c : Prop} [Decidable c] {a b m : Mach} (ha : a.mem = m.mem) (hb : b.mem = m.mem) : (if c then a else b).mem = m.mem := by
  split
  · exact ha
  · exact hb

/-! ### The parts of the machine -/

@[simp] theorem dueOnce_mem (m : Mach) (i : Instr) : (m.dueOnce i).mem = m.mem := by unfold Mach.dueOnce; split <;> simp
@[simp] theorem logged_mem (m : Mach) (e : LennasEv) : (m.logged e).mem = m.mem := rfl
@[simp] theorem newOp_mem (m : Mach) : m.newOp.2.mem = m.mem := rfl
@[simp] theorem setGroup_mem (m : Mach) (x : Group) : (m.setGroup x).mem = m.mem := rfl
@[simp] theorem modLee_mem (m : Mach) (die : Nat) (f : Lee → Lee) : (m.modLee die f).mem = m.mem := by simp [Mach.modLee]
@[simp] theorem sendFrame_mem (m : Mach) (port : Nat) (fr : Frame) : (m.sendFrame port fr).mem = m.mem := rfl
@[simp] theorem modConn_mem (m : Mach) (p : Conn → Bool) (f : Conn → Conn) : (m.modConn p f).mem = m.mem := rfl
@[simp] theorem setMaster_mem (m : Mach) (die : Nat) (ms : Master) : (setMaster m die ms).mem = m.mem := by simp [setMaster]
@[simp] theorem setHome_mem (m : Mach) (f n die : Nat) : (setHome m f n die).mem = m.mem := rfl
@[simp] theorem cleanDram_mem (m : Mach) (line : Nat) : (cleanDram m line).mem = m.mem := by unfold cleanDram; split <;> rfl
@[simp] theorem queueAt_mem (lines : List Nat) (m : Mach) : (queueAt lines m).mem = m.mem := rfl

/-! ### Performance counts -/

@[simp] theorem monCount_mem (m : Mach) (ev : Config.MonEvent) (unit : Nat) : (monCount m ev unit).mem = m.mem := by unfold monCount; split <;> rfl
@[simp] theorem monSample_mem (m : Mach) (ev : Config.MonEvent) (unit v : Nat) : (monSample m ev unit v).mem = m.mem := by
  unfold monSample; split <;> rfl
@[simp] theorem capturePut_mem (m : Mach) (c : Capture) : (capturePut m c).mem = m.mem := rfl
@[simp] theorem captureKeep_mem (m : Mach) (key : Nat) (b : List Byte) : (captureKeep m key b).mem = m.mem := rfl
@[simp] theorem sampleHomes_mem (m : Mach) (lines : List Nat) : (sampleHomes m lines).mem = m.mem := by
  unfold sampleHomes; split
  · rfl
  · simp [foldl_mem]
@[simp] theorem linkDrop_mem (m : Mach) (unit : Nat) : (linkDrop m unit).mem = m.mem := by simp [linkDrop]

/-! ### Groups -/

@[simp] theorem groupComplete_mem (m : Mach) (x : Group) : (groupComplete m x).mem = m.mem := by
  unfold groupComplete
  rw [foldl_mem (fun m c => by split <;> simp)]
  simp
@[simp] theorem groupTest_mem (m : Mach) (g : Nat) : (groupTest m g).mem = m.mem := by
  unfold groupTest; split
  · split <;> simp
  · rfl
@[simp] theorem memberStop_mem (m : Mach) (g key : Nat) (fault : Bool) : (memberStop m g key fault).mem = m.mem := by
  unfold memberStop; split
  · rfl
  · split
    · rfl
    · dsimp only; split <;> simp
@[simp] theorem memberStopAll_mem (m : Mach) (tid : Nat) (fault : Bool) : (memberStopAll m tid fault).mem = m.mem := by
  simp [memberStopAll, foldl_mem]
@[simp] theorem groupBoundary_mem (m : Mach) (job : Nat) : (groupBoundary m job).mem = m.mem := by simp [groupBoundary, foldl_mem]
@[simp] theorem groupTidy_mem (m : Mach) (g : Nat) : (groupTidy m g).mem = m.mem := by unfold groupTidy; dsimp only; split <;> simp
@[simp] theorem groupMake_mem (m : Mach) (job : Nat) (name : Word) : (groupMake m job name).2.mem = m.mem := by unfold groupMake; split <;> rfl
theorem arriveAt_mem {m : Mach} {h : Word} {con : Part} {r : Nat × Mach} (e : arriveAt m h con = some r) : r.2.mem = m.mem := by
  unfold arriveAt at e
  split at e
  · cases e; rfl
  · split at e
    · split at e
      · cases e; simp
      · split at e
        · cases e
        · cases e; simp
    · cases e; simp

/-! ### The leave controllers -/

@[simp] theorem leeCharge_mem (m : Mach) (c : Crew) (op : Nat) (step : Bool) (units : Nat) : (leeCharge m c op step units).mem = m.mem := by simp [leeCharge]
@[simp] theorem leeRelease_mem (m : Mach) (core op : Nat) : (leeRelease m core op).mem = m.mem := by simp [leeRelease]
@[simp] theorem leeWithdraw_mem (m : Mach) (c : Crew) : (leeWithdraw m c).mem = m.mem := by simp [leeWithdraw]
@[simp] theorem leeGrantOne_mem (m : Mach) (die : Nat) : (leeGrantOne m die).mem = m.mem := by
  unfold leeGrantOne; split
  · rfl
  · split <;> simp
@[simp] theorem setBudget_mem (m : Mach) (hot : Bool) : (setBudget m hot).mem = m.mem := by
  unfold setBudget
  rw [foldl_mem (fun m d => ite_mem rfl (by simp))]

/-! ### Reads of the host, sequencers and scoreboards -/

@[simp] theorem apAsk_mem (m : Mach) (op addr size : Nat) : (apAsk m op addr size).mem = m.mem := rfl
@[simp] theorem apUsed_mem (m : Mach) (op : Nat) : (apUsed m op).mem = m.mem := rfl
@[simp] theorem sbRelease_mem (m : Mach) (core id : Nat) : (sbRelease m core id).mem = m.mem := by simp [sbRelease]
@[simp] theorem sbTake_mem (m : Mach) (id : Nat) (pc : Word) (rs : List (Bool × SbRange)) : (sbTake m id pc rs).mem = m.mem := by simp [sbTake]
@[simp] theorem seqPop_mem (m : Mach) (core : Nat) : (seqPop m core).mem = m.mem := by simp [seqPop]
@[simp] theorem seqKick_mem (m : Mach) (core : Nat) : (seqKick m core).mem = m.mem := by unfold seqKick; split <;> simp
@[simp] theorem seqPush_mem (m : Mach) (core : Nat) (op : SeqOp) : (seqPush m core op).mem = m.mem := by unfold seqPush; dsimp only; split <;> simp
@[simp] theorem stepFree_mem (m : Mach) (c : Crew) (d : StepDesc) : (stepFree m c d).mem = m.mem := by simp [stepFree]
@[simp] theorem stepStart_mem (m : Mach) (core : Nat) : (stepStart m core).mem = m.mem := by
  unfold stepStart; split
  · rw [seqKick_mem]
    split
    · simp
    · split <;> simp
  · rfl
@[simp] theorem stepDone_mem (m : Mach) (core : Nat) : (stepDone m core).mem = m.mem := by unfold stepDone; split <;> simp
@[simp] theorem joinBatch_mem (m : Mach) : (joinBatch m).2.mem = m.mem := by unfold joinBatch; split <;> rfl

/-! ### Records and queues -/

@[simp] theorem noteBest_mem (m : Mach) (die : Nat) : (noteBest m die).mem = m.mem := by simp [noteBest]
@[simp] theorem recordLeft_mem (m : Mach) (tid : Nat) : (recordLeft m tid).mem = m.mem := by simp [recordLeft]
@[simp] theorem queueIn_mem (m : Mach) (die seg : Nat) (r : TaskRec) : (queueIn m die seg r).mem = m.mem := by simp [queueIn]
@[simp] theorem dequeIn_mem (m : Mach) (core : Nat) (r : TaskRec) : (dequeIn m core r).mem = m.mem := by simp [dequeIn]
@[simp] theorem logSpent_mem (m : Mach) (tid : Nat) : (logSpent m tid).mem = m.mem := rfl
@[simp] theorem ringTake_mem (m : Mach) (launch stage : Nat) : (ringTake m launch stage).mem = m.mem := by simp [ringTake]
@[simp] theorem slotFreed_mem (m : Mach) (core : Nat) : (slotFreed m core).mem = m.mem := by simp [slotFreed]
@[simp] theorem passOn_mem (m : Mach) (tid : Nat) : (passOn m tid).mem = m.mem := by unfold passOn; split <;> rfl
@[simp] theorem parkAt_mem (m : Mach) (c : Crew) (w : Wait) : (parkAt m c w).mem = m.mem := by simp [parkAt]
@[simp] theorem goOn_mem (m : Mach) (tid : Nat) (f : Crew → Crew) : (goOn m tid f).mem = m.mem := by simp [goOn]
@[simp] theorem tellParent_mem (m : Mach) (parent tid : Nat) (views : List (Nat × RView)) : (tellParent m parent tid views).mem = m.mem := by
  unfold tellParent
  dsimp only
  split
  · split
    · split <;> simp
    · simp
  · simp
@[simp] theorem keepRoot_mem (m : Mach) (c : Crew) (views : List (Nat × RView)) : (keepRoot m c views).mem = m.mem := by unfold keepRoot; split <;> simp
@[simp] theorem giveSid_mem (m : Mach) : (giveSid m).mem = m.mem := by
  unfold giveSid; split
  · rfl
  · split
    · rfl
    · dsimp only; split <;> simp

/-! ### Cells -/

@[simp] theorem cellSet_mem (m : Mach) (die : Nat) (x : Cell) : (cellSet m die x).mem = m.mem := by simp [cellSet]
@[simp] theorem cellChanged_mem (m : Mach) (die launch cell : Nat) : (cellChanged m die launch cell).mem = m.mem := by
  have hd : ∀ (l : List (Nat × Nat)), (l.foldl (fun m e => m.due (.dataflowEligibilityTest e.1 e.2)) m).mem = m.mem :=
    fun l => foldl_mem (fun _ _ => by rfl) l m
  unfold cellChanged; dsimp only; split <;> simp [foldl_mem, hd]
@[simp] theorem cellMod_mem (m : Mach) (die launch cell : Nat) (f : Cell → Cell) : (cellMod m die launch cell f).mem = m.mem := by simp [cellMod]
@[simp] theorem unqueue_mem (m : Mach) (tid : Nat) : (unqueue m tid).mem = m.mem := rfl
@[simp] theorem eligTest_mem (m : Mach) (seg tid : Nat) : (eligTest m seg tid).mem = m.mem := by
  unfold eligTest; dsimp only; split
  · rfl
  · split
    · rfl
    · simp [foldl_mem]
@[simp] theorem endCells_mem (m : Mach) (launch tid : Nat) (cells : List Half) : (endCells m launch tid cells).mem = m.mem := by
  unfold endCells; dsimp only
  rw [foldl_mem (fun m w => by simp), foldl_mem (fun m w => by split <;> simp)]

/-! ### Frames and ports -/

@[simp] theorem portSend_mem (port n : Nat) (m : Mach) : (portSend port n m).mem = m.mem := by
  induction n generalizing m with
  | zero => rfl
  | succ n ih =>
    unfold portSend; split
    · rfl
    · simp [ih]
@[simp] theorem portsSend_mem (m : Mach) : (portsSend m).mem = m.mem := by simp [portsSend, foldl_mem]
theorem openConn_mem {m m' : Mach} {dom dst cls chan : Nat} (e : openConn m dom dst cls chan = some m') : m'.mem = m.mem := by
  unfold openConn at e
  split at e
  · split at e
    · cases e
    · cases e; rfl
  · split at e
    · cases e
    · cases e; rfl
@[simp] theorem vftSend_mem (m : Mach) (dom dst cls chan typ flags : Nat) (oparg : Word) (payload : List Byte) :
    (vftSend m dom dst cls chan typ flags oparg payload).1.mem = m.mem := by
  unfold vftSend; split
  · rfl
  · next m' h =>
    rw [← openConn_mem h]
    split
    · rfl
    · dsimp only
      split
      · simp
      · split <;> simp
@[simp] theorem vftSendBare_mem (m : Mach) (c : Conn) (typ flags psn : Nat) : (vftSendBare m c typ flags psn).mem = m.mem := by simp [vftSendBare]
@[simp] theorem sendAll_mem (m : Mach) (c : Conn) (l : List Frame) : (sendAll m c l).mem = m.mem :=
  foldl_mem (fun _ _ => by rfl) _ _
@[simp] theorem resendFrom_mem (m : Mach) (c : Conn) (psn : Option Nat) : (resendFrom m c psn).mem = m.mem := by simp [resendFrom]
@[simp] theorem stampKick_mem (m : Mach) : (stampKick m).mem = m.mem := by
  unfold stampKick
  refine foldl_mem (fun m e => foldl_mem (fun m ch => ?_) _ _) _ _
  split
  · split <;> simp
  · rfl
@[simp] theorem ackConn_mem (m : Mach) (fr : Frame) : (ackConn m fr).mem = m.mem := by
  unfold ackConn; split
  · rfl
  · dsimp only; split <;> simp
@[simp] theorem ackSend_mem (m : Mach) (fr : Frame) (nack : Bool) : (ackSend m fr nack).mem = m.mem := by unfold ackSend; split <;> simp
@[simp] theorem dropFrame_mem (m : Mach) (fr : Frame) : (dropFrame m fr).mem = m.mem := by simp [dropFrame]
@[simp] theorem beat_mem (m : Mach) (fr : Frame) : (beat m fr).mem = m.mem := by unfold beat; split <;> simp
@[simp] theorem portOn_mem (m : Mach) (port : Nat) : (portOn m port).mem = m.mem := by unfold portOn; split <;> rfl
@[simp] theorem beatAll_mem (m : Mach) : (beatAll m).mem = m.mem := by
  unfold beatAll; split
  · rfl
  · dsimp only
    rw [foldl_snd_mem (fun p c => by split <;> simp)]

/-! ### Notices and interrupts -/

@[simp] theorem msixSend_mem (m : Mach) (v : Nat) : (msixSend m v).mem = m.mem := by simp [msixSend]
@[simp] theorem msixFlush_mem (m : Mach) : (msixFlush m).mem = m.mem := by simp [msixFlush, foldl_mem]
@[simp] theorem raiseMsix_mem (m : Mach) (v : Nat) : (raiseMsix m v).mem = m.mem := by
  unfold raiseMsix; split
  · rfl
  · split <;> simp
@[simp] theorem msixWrite_mem (m : Mach) (off : Nat) (x : Half) : (msixWrite m off x).mem = m.mem := by
  unfold msixWrite; split
  · rfl
  · split <;> simp
@[simp] theorem noticeHost_mem (m : Mach) (kind job : Nat) : (noticeHost m kind job).mem = m.mem := by unfold noticeHost; split <;> simp
@[simp] theorem notice_mem (m : Mach) (kind job : Nat) : (notice m kind job).mem = m.mem := by
  unfold notice; split
  · split <;> simp
  · simp
@[simp] theorem wakeCore_mem (m : Mach) (core : Nat) : (wakeCore m core).mem = m.mem := by unfold wakeCore; dsimp only; split <;> simp
@[simp] theorem wakeDie_mem (m : Mach) (die : Nat) : (wakeDie m die).mem = m.mem := by simp [wakeDie]
@[simp] theorem logRecord_mem (m : Mach) (die tid : Nat) (rec : List Byte) : (logRecord m die tid rec).mem = m.mem := by simp [logRecord]
@[simp] theorem lennasRx_mem (m : Mach) (port : Nat) (data : List Byte) : (lennasRx m port data).mem = m.mem := by simp [lennasRx]
@[simp] theorem frameIn_mem (m : Mach) (port : Nat) (data : List Byte) : (frameIn m port data).mem = m.mem := by unfold frameIn; split <;> simp
@[simp] theorem handOff_mem (fr : Frame) (m : Mach) : (handOff fr m).mem = m.mem := by unfold handOff; split <;> simp
@[simp] theorem faultSpread_mem (m : Mach) (j : Job) : (faultSpread m j).mem = m.mem := by
  unfold faultSpread; split
  · rfl
  · split
    · rfl
    · simp [foldl_mem]

/-! ### Launches and their tasks -/

@[simp] theorem makeLaunch_mem (m : Mach) (j : Job) (q : LaunchReq) : (makeLaunch m j q).2.mem = m.mem := by simp [makeLaunch]
@[simp] theorem releaseAside_mem (m : Mach) (h : Nat) : (releaseAside m h).mem = m.mem := by
  unfold releaseAside
  rw [foldl_mem (fun _ _ => by rfl)]
@[simp] theorem dropTask_mem (m : Mach) (c : Crew) (fault : Bool) : (dropTask m c fault).mem = m.mem := by
  unfold dropTask; dsimp only; split <;> simp
@[simp] theorem dropRecords_mem (m : Mach) (h : Nat) : (dropRecords m h).mem = m.mem := by simp [dropRecords, foldl_mem]
@[simp] theorem dropCrews_mem (m : Mach) (h : Nat) : (dropCrews m h).mem = m.mem := by
  unfold dropCrews
  exact foldl_mem (fun m c => by split <;> simp) _ _
@[simp] theorem dropContribs_mem (m : Mach) (h : Nat) : (dropContribs m h).mem = m.mem := rfl
@[simp] theorem cancelWork_mem (m : Mach) (h : Nat) : (cancelWork m h).mem = m.mem := by simp [cancelWork]
@[simp] theorem tlbDrop_mem (m : Mach) (job lo hi : Nat) : (tlbDrop m job lo hi).mem = m.mem := rfl
@[simp] theorem reconvDrop_mem (m : Mach) (job lo hi : Nat) : (reconvDrop m job lo hi).mem = m.mem := by simp [reconvDrop]
@[simp] theorem moveLines_mem (m : Mach) (src dst len : Nat) : (moveLines m src dst len).mem = m.mem := by simp [moveLines]
@[simp] theorem evictWays_mem (m : Mach) (die : Nat) : (evictWays m die).mem = m.mem := by
  simp [evictWays, foldl_mem, fireMonitors_mem, evictLine_mem]
@[simp] theorem assignCores_mem (m : Mach) (h : Nat) (sts : List Stage) : (assignCores m h sts).mem = m.mem := by
  unfold assignCores
  exact foldl_fst_mem (fun p e => foldl_mem (fun m c => by simp) _ _) _ _
@[simp] theorem rootIn_mem (m : Mach) (l : Launch) (piped : Bool) (r : TaskRec) : (rootIn m l piped r).mem = m.mem := by unfold rootIn; split <;> simp
@[simp] theorem queueRoots_mem (m : Mach) (h : Nat) : (queueRoots m h).mem = m.mem := by
  unfold queueRoots; split
  · rfl
  · refine foldl_mem (fun m i => ?_) _ _
    split
    · rfl
    · split
      · dsimp only; split <;> simp
      · rfl
@[simp] theorem queueOn_mem (m : Mach) (h : Nat) : (queueOn m h).mem = m.mem := by
  unfold queueOn; dsimp only; split
  · split <;> simp
  · simp
@[simp] theorem jobRemap_mem (m : Mach) (job spare : Nat) : (jobRemap m job spare).mem = m.mem := by
  unfold jobRemap; split
  · rfl
  · split <;> rfl
@[simp] theorem imagePulled_mem (m : Mach) (job : Nat) (image : List Host.Cell) : (imagePulled m job image).mem = m.mem := by
  unfold imagePulled; split
  · rfl
  · split <;> simp
@[simp] theorem checkpoint_mem (m : Mach) (job : Nat) : (checkpoint m job).mem = m.mem := by
  unfold checkpoint; split
  · split
    · rfl
    · split <;> simp
  · rfl
@[simp] theorem nextSeq_mem (m : Mach) (launch : Nat) : (nextSeq m launch).2.mem = m.mem := by unfold nextSeq; split <;> simp
@[simp] theorem markAnswered_mem (m : Mach) (c : Crew) (a : Nat) : (markAnswered m c a).mem = m.mem := by unfold markAnswered; split <;> simp
@[simp] theorem resumeTrapped_mem (m : Mach) (r : RecRef) (next : Bool) : (resumeTrapped m r next).mem = m.mem := by simp [resumeTrapped]

/-! ### Pipelines -/

@[simp] theorem stageMod_mem (m : Mach) (launch ring : Nat) (f : Stage → Stage) : (stageMod m launch ring f).mem = m.mem := by simp [stageMod]
@[simp] theorem windowMod_mem (m : Mach) (core : Nat) (p : StageItem → Bool) (f : StageItem → StageItem) : (windowMod m core p f).mem = m.mem := by
  simp [windowMod]
@[simp] theorem stageArrive_mem (m : Mach) (core : Nat) : (stageArrive m core).mem = m.mem := by
  unfold stageArrive; split
  · rfl
  · dsimp only; split
    · rfl
    · split
      · rfl
      · split <;> simp
@[simp] theorem stageAck_mem (m : Mach) (core : Nat) : (stageAck m core).mem = m.mem := by simp [stageAck]
@[simp] theorem stageResendStep_mem (m : Mach) (core : Nat) : (stageResendStep m core).mem = m.mem := by
  unfold stageResendStep; split
  · rfl
  · dsimp only
    rw [foldl_mem (fun _ _ => by rfl)]
    simp
theorem stageSend_mem {m m' : Mach} {core ring : Nat} {r : TaskRec} (e : stageSend m core ring r = some m') : m'.mem = m.mem := by
  unfold stageSend at e
  split at e
  · cases e
  · cases e; simp
@[simp] theorem governorStep_mem (m : Mach) (launch : Nat) : (governorStep m launch).mem = m.mem := by
  unfold governorStep; split
  · rfl
  · split
    · rfl
    · dsimp only; split
      · split
        · simp
        · split <;> simp
      · simp

/-! ### Copy engines, gathers and collectives -/

@[simp] theorem chanSet_mem (m : Mach) (die ch : Nat) (x : Chan) : (chanSet m die ch x).mem = m.mem := by simp [chanSet]
@[simp] theorem headMod_mem (m : Mach) (die ch : Nat) (f : Cmd → Cmd) : (headMod m die ch f).mem = m.mem := by simp [headMod]
@[simp] theorem bteKick_mem (m : Mach) (die ch : Nat) : (bteKick m die ch).mem = m.mem := by unfold bteKick; split <;> simp
@[simp] theorem peerSend_mem (m : Mach) (dom dst cls : Nat) (ps : List (Nat × Nat × List Byte)) : (peerSend m dom dst cls ps).1.mem = m.mem := by
  unfold peerSend
  exact foldl_fst_mem (fun p e => by split <;> simp) _ _
@[simp] theorem bteReleased_mem (m : Mach) (die ch : Nat) : (bteReleased m die ch).mem = m.mem := by
  unfold bteReleased
  dsimp only
  rw [foldl_mem (fun m x => by split <;> simp), foldl_mem (fun m e => ?_), foldl_mem (fun m e => foldl_mem (fun m c => ?_) _ _)]
  · split
    · split <;> simp
    · rfl
  · split <;> split <;> simp
@[simp] theorem bteCopied_mem (m : Mach) (die ch : Nat) (k : Cmd) (err : Bool) (signals : List Nat) : (bteCopied m die ch k err signals).mem = m.mem := by
  simp [bteCopied]
@[simp] theorem gathKick_mem (m : Mach) (core : Nat) : (gathKick m core).mem = m.mem := by unfold gathKick; split <;> simp
@[simp] theorem gathRow_mem (op tid first L : Nat) (ws : List GWord) (i : Nat) (m : Mach) : (gathRow op tid first L ws i m).mem = m.mem := by
  induction ws generalizing i m with
  | nil => rfl
  | cons w t ih => simp [gathRow, ih]
@[simp] theorem gathHost_mem (m : Mach) (g : Gath) : (gathHost m g).1.mem = m.mem := by
  unfold gathHost
  refine foldl_fst_mem (fun p w => ?_) _ _
  split
  · rfl
  · split <;> simp
@[simp] theorem kickAll_mem (m : Mach) : (kickAll m).mem = m.mem := by
  unfold kickAll
  dsimp only
  rw [foldl_mem (fun m x => by split <;> simp), foldl_mem (fun m e => foldl_mem (fun m c => by simp) _ _), foldl_mem (fun m e => by simp)]
@[simp] theorem collPut_mem (m : Mach) (x : Coll) : (collPut m x).mem = m.mem := by unfold collPut; dsimp only; split <;> simp
@[simp] theorem collOpen_mem (m : Mach) (job : Nat) (arrival : Bool) (d : CollDesc) : (collOpen m job arrival d).2.mem = m.mem := by
  unfold collOpen; split <;> rfl
@[simp] theorem collArrive_mem (m : Mach) (job : Nat) (arrival : Bool) (d : CollDesc) (p : Contrib) : (collArrive m job arrival d p).mem = m.mem := by
  simp [collArrive]
@[simp] theorem collWait_mem (m : Mach) (job : Nat) (arrival : Bool) (d : CollDesc) (p : Contrib) (down : Bool) :
    (collWait m job arrival d p down).mem = m.mem := by simp [collWait]
@[simp] theorem segSend_mem (dom dst cls : Nat) (head : List Byte) (oparg : Word) (n : Nat) (bs : List Byte) (m : Mach) :
    (segSend dom dst cls head oparg n bs m).1.mem = m.mem := by
  induction n generalizing bs m with
  | zero => rfl
  | succ n ih =>
    unfold segSend
    dsimp only
    have hs := fun fl p => vftSend_mem m dom dst cls 0 3 fl oparg p
    split
    · next m' h =>
      have hm : m'.mem = m.mem := by rw [← hs _ _, h]
      split
      · exact hm
      · rw [ih, hm]
    · exact hs _ _
@[simp] theorem collSend_mem (m : Mach) (job : Nat) (arrival : Bool) (d : CollDesc) (p : Contrib) : (collSend m job arrival d p).mem = m.mem := by
  unfold collSend; split
  · simp
  · split
    · split <;> simp
    · rfl
@[simp] theorem resultSend_mem (x : Coll) (st : Nat) (vals : List Word) (m : Mach) (dst : Nat) : (resultSend x st vals m dst).mem = m.mem := by
  unfold resultSend; split
  · split <;> simp
  · rfl
@[simp] theorem ticketDone_mem (st : Nat) (m : Mach) (p : Contrib) : (ticketDone st m p).mem = m.mem := by
  unfold ticketDone; split
  · rfl
  · dsimp only; split
    · split <;> simp
    · simp
@[simp] theorem collSegment_mem (m : Mach) (fr : Frame) : (collSegment m fr).mem = m.mem := by
  unfold collSegment
  dsimp only
  split
  · rfl
  · split
    · split <;> simp
    · split <;> simp
@[simp] theorem collReplay_mem (m : Mach) (dom : Nat) : (collReplay m dom).mem = m.mem := by simp [collReplay, foldl_mem]
@[simp] theorem collsDown_mem (m : Mach) (doms : List Nat) : (collsDown m doms).mem = m.mem := by
  unfold collsDown
  exact foldl_mem (fun m x => ite_mem (by simp) rfl) _ _

/-! ### Completions from the host -/

@[simp] theorem apComplete_mem (m : Mach) (tid status : Nat) (data : List Byte) : (apComplete m tid status data).mem = m.mem := by simp [apComplete]
@[simp] theorem engComplete_mem (m : Mach) (num status : Nat) (data : List Byte) : (engComplete m num status data).mem = m.mem := by
  unfold engComplete; split <;> simp
@[simp] theorem engExpire_mem (m : Mach) (num : Nat) : (engExpire m num).mem = m.mem := by unfold engExpire; split <;> simp
@[simp] theorem apExpire_mem (m : Mach) (tid : Nat) : (apExpire m tid).mem = m.mem := by
  unfold apExpire; split
  · split
    · split <;> simp
    · rfl
  · rfl
@[simp] theorem hostGone_mem (m : Mach) : (hostGone m).mem = m.mem := by simp [hostGone]

/-! ### Schedulers -/

@[simp] theorem forwardStep_mem (m : Mach) (core crew : Nat) : (forwardStep m core crew).mem = m.mem := by simp [forwardStep]
@[simp] theorem fwdExpire_mem (m : Mach) : (fwdExpire m).mem = m.mem := by unfold fwdExpire; split <;> simp
@[simp] theorem stealAsk_mem (m : Mach) (core : Nat) : (stealAsk m core).mem = m.mem := by unfold stealAsk; dsimp only; split <;> simp
@[simp] theorem stealWake_mem (m : Mach) : (stealWake m).mem = m.mem := by unfold stealWake; split <;> simp
@[simp] theorem wakeStep_mem (m : Mach) : (wakeStep m).mem = m.mem := by unfold wakeStep; split <;> simp
@[simp] theorem untilReady_mem (m : Mach) (t : Nat) : (untilReady m t).mem = m.mem := by unfold untilReady; split <;> rfl
@[simp] theorem pickAll_mem (run : Runs) (m : Mach) : (pickAll run m).1.mem = m.mem := by
  unfold pickAll
  dsimp only
  rw [foldl_mem (fun m l => by split <;> simp), foldl_mem (fun m l => by simp)]
@[simp] theorem mapAnswer_mem (m : Mach) (tid job va status : Nat) (rec : List Byte) : (mapAnswer m tid job va status rec).mem = m.mem := by
  unfold mapAnswer; dsimp only; split <;> simp
@[simp] theorem lennasAgain_mem (m : Mach) (a : LennasAct) : (lennasAgain m a).mem = m.mem := rfl

/-! ### What instructions do with registers, views and system registers -/

@[simp] theorem issued_mem (m : Mach) (pc : Word) (op : Nat) (f : Fields) : (issued m pc op f).mem = m.mem := rfl
@[simp] theorem partSide_mem (k : Nat) (m before : Mach) : (partSide k m before).mem = m.mem := rfl
@[simp] theorem putI64_mem (x : Ctx) (v : Word) (m : Mach) : (putI64 x v m).mem = m.mem := rfl
@[simp] theorem putS_mem (x : Ctx) (v : Word) (t : Tag) (m : Mach) : (putS x v t m).mem = m.mem := rfl
@[simp] theorem putTen_mem (x : Ctx) (ws : List Word) (m : Mach) : (putTen x ws m).mem = m.mem := rfl
@[simp] theorem apWait_mem (x : Ctx) (kind : Nat) (dl : List (Nat × Nat)) (oks : List Ok) (m : Mach) : (apWait x kind dl oks m).mem = m.mem := by
  unfold apWait; split <;> rfl
@[simp] theorem rmwPut_mem (x : Ctx) (ls : List Nat) (oks : List Ok) (old : List (List Byte)) (m : Mach) : (rmwPut x ls oks old m).mem = m.mem := by
  simp [rmwPut]
@[simp] theorem touchBlocks_mem (m : Mach) (die mi first n : Nat) : (touchBlocks m die mi first n).mem = m.mem := by simp [touchBlocks]
@[simp] theorem arenaRegion_mem (m : Mach) (base len : Nat) : (arenaRegion m base len).mem = m.mem := by simp [arenaRegion]
@[simp] theorem arenaPut_mem (x : Ctx) (u addrs : List Nat) (m : Mach) : (arenaPut x u addrs m).mem = m.mem := rfl
@[simp] theorem keyClear_mem (m : Mach) (slot : Nat) : (keyClear m slot).mem = m.mem := by simp [keyClear, foldl_mem, fireMonitors_mem]
@[simp] theorem sysWrite_mem (m : Mach) (r : Nat) (v : Word) : (sysWrite m r v).mem = m.mem := by
  unfold sysWrite
  dsimp only
  split
  · simp
  · split
    · rfl
    · split
      · rfl
      · split <;> simp
  · split
    · rfl
    · split
      · rfl
      · split <;> simp
  · split
    · simp
    · split
      · simp
      · split <;> simp

end Sys2Proof.Laws
end

section
/-! What it means that an operation keeps memory in its canonical form (assumption log 2), for each shape of answer that the model's operations have:
a machine, an answer or a halt, what an engine's read meets, and an outcome of a step. -/

namespace Sys2Proof.Laws

open Sys2Proof.Machine

/-! ### The shapes of answers -/

/-- Memory is in its canonical form. -/
@[simp] abbrev Canon (m : Mach) : Prop := Memory.wf m.mem = true

/-- An operation keeps memory in its canonical form. -/
def KeepsCanon (g : Mach → Mach) : Prop := ∀ m, Canon m → Canon (g m)

/-- What a halted instruction leaves behind keeps the canonical form. -/
def HaltCanon : Halt → Prop
  | .trap _ => True
  | .after _ side => KeepsCanon side
  | .stall _ side => KeepsCanon side

/-- An answer has P, a halt leaves the canonical form. -/
def Yields {α : Type} (P : α → Prop) : R α → Prop
  | .ok a => P a
  | .error h => HaltCanon h

/-- A check: it hands on no machine, and where it halts it leaves the canonical form. -/
def Checks (r : R Unit) : Prop := Yields (fun _ => True) r

/-- Every machine of what an engine's read meets is canonical. -/
def FetchCanon : Fetch → Prop
  | .data _ m => Canon m
  | .fault => True
  | .stale h => HaltCanon h
  | .later m => Canon m

@[simp] theorem haltCanon_trap (e : Exc) : HaltCanon (.trap e) := trivial
@[simp] theorem haltCanon_trapOf (code : Nat) (lane : Option Nat) (i0 i1 i2 i3 : Word) : HaltCanon (trapOf code lane i0 i1 i2 i3) := trivial
@[simp] theorem haltCanon_regRange (L reg count : Nat) : HaltCanon (regRange L reg count) := trivial
@[simp] theorem haltCanon_fmtTag (pos : Nat) (t : Tag) (o : Opd) : HaltCanon (fmtTag pos t o) := trivial
@[simp] theorem haltCanon_redRange (x : Ctx) (i n : Nat) : HaltCanon (redRange x i n) := trivial
@[simp] theorem haltCanon_fieldBad (info : Nat) : HaltCanon (fieldBad info) := trivial
@[simp] theorem haltCanon_permOp (x : Ctx) : HaltCanon (permOp x) := trivial
@[simp] theorem haltCanon_badTarget (L : Nat) (t word : Word) : HaltCanon (badTarget L t word) := trivial
@[simp] theorem haltCanon_spawnTarget (decl reason : Nat) : HaltCanon (spawnTarget decl reason) := trivial
@[simp] theorem haltCanon_pedOvf (c : Crew) (what : Nat) : HaltCanon (pedOvf c what) := trivial
@[simp] theorem haltCanon_allocShape (desc i1 i2 i3 : Nat) : HaltCanon (allocShape desc i1 i2 i3) := trivial
@[simp] theorem haltCanon_after (e : Exc) (side : Mach → Mach) : HaltCanon (.after e side) = KeepsCanon side := rfl
@[simp] theorem haltCanon_stall (w : Stall) (side : Mach → Mach) : HaltCanon (.stall w side) = KeepsCanon side := rfl
@[simp] theorem yields_ok {α : Type} (P : α → Prop) (a : α) : Yields P (.ok a) = P a := rfl
@[simp] theorem yields_error {α : Type} (P : α → Prop) (h : Halt) : Yields P (.error h) = HaltCanon h := rfl
@[simp] theorem checks_ok (u : Unit) : Checks (.ok u) := trivial
@[simp] theorem checks_error (h : Halt) : Checks (.error h) = HaltCanon h := rfl
@[simp] theorem fetchCanon_data (bs : List Byte) (m : Mach) : FetchCanon (.data bs m) = Canon m := rfl
@[simp] theorem fetchCanon_fault : FetchCanon .fault := trivial
@[simp] theorem fetchCanon_stale (h : Halt) : FetchCanon (.stale h) = HaltCanon h := rfl
@[simp] theorem fetchCanon_later (m : Mach) : FetchCanon (.later m) = Canon m := rfl

/-- What keeps memory keeps its form. -/
theorem canon_of_mem {m m' : Mach} (h : m'.mem = m.mem) (w : Canon m) : Canon m' := by
  show Memory.wf m'.mem = true
  rw [h]; exact w
theorem keepsCanon_of_mem {g : Mach → Mach} (h : ∀ m, (g m).mem = m.mem) : KeepsCanon g := fun m w => canon_of_mem (h m) w
@[simp] theorem keepsCanon_id : KeepsCanon id := fun _ w => w
@[simp] theorem keepsCanon_snoopSide (lines : List Nat) : KeepsCanon (snoopSide lines) := keepsCanon_of_mem (snoopSide_mem lines)
@[simp] theorem keepsCanon_queueAt (lines : List Nat) : KeepsCanon (queueAt lines) := keepsCanon_of_mem (queueAt_mem lines)

@[simp] theorem wf_ite {c : Prop} [Decidable c] (a b : Mach) :
    Memory.wf (if c then a else b).mem = if c then Memory.wf a.mem else Memory.wf b.mem := by split <;> rfl
@[simp] theorem yields_ite_eq {α : Type} (P : α → Prop) {c : Prop} [Decidable c] (a b : R α) :
    Yields P (if c then a else b) = if c then Yields P a else Yields P b := by split <;> rfl
@[simp] theorem checks_ite_eq {c : Prop} [Decidable c] (a b : R Unit) : Checks (if c then a else b) = if c then Checks a else Checks b := by split <;> rfl

/-- A choice of two machines. -/
theorem canon_ite {c : Prop} [Decidable c] {a b : Mach} (ha : Canon a) (hb : Canon b) : Canon (if c then a else b) := by
  split
  · exact ha
  · exact hb

/-- A choice of two machines, each with what its attempt came to. -/
theorem canon_fst_ite {β : Type} {c : Prop} [Decidable c] {a b : Mach × β} (ha : Canon a.1) (hb : Canon b.1) : Canon (if c then a else b).1 := by
  split
  · exact ha
  · exact hb
/-- A machine that an attempt left behind. -/
theorem canon_of_fst {β : Type} {p : Mach × β} {m : Mach} {b : β} (e : p = (m, b)) (h : Canon p.1) : Canon m := by rw [e] at h; exact h
/-- The same where the machine comes second. -/
theorem canon_snd_ite {β : Type} {c : Prop} [Decidable c] {a b : β × Mach} (ha : Canon a.2) (hb : Canon b.2) : Canon (if c then a else b).2 := by
  split
  · exact ha
  · exact hb

/-- A choice of two states. -/
theorem canon_state_ite {c : Prop} [Decidable c] {s t : State} (hs : Canon s.m) (ht : Canon t.m) : Canon (if c then s else t).m := by
  split
  · exact hs
  · exact ht

/-- A choice of two answers. -/
theorem yields_ite {α : Type} {P : α → Prop} {c : Prop} [Decidable c] {a b : R α} (ha : Yields P a) (hb : Yields P b) :
    Yields P (if c then a else b) := by
  split
  · exact ha
  · exact hb

theorem checks_ite {c : Prop} [Decidable c] {a b : R Unit} (ha : Checks a) (hb : Checks b) : Checks (if c then a else b) := yields_ite ha hb

/-- An answer, and what is then done with it. -/
theorem Yields.bind {α β : Type} {P : α → Prop} {Q : β → Prop} {r : R α} {f : α → R β} (h : Yields P r) (hf : ∀ a, P a → Yields Q (f a)) :
    Yields Q (r >>= f) := by
  cases r with
  | ok a => exact hf a h
  | error e => exact h

/-- A check, and what is done when it passes. -/
theorem Checks.bind {β : Type} {Q : β → Prop} {r : R Unit} {f : Unit → R β} (h : Checks r) (hf : Yields Q (f ())) : Yields Q (r >>= f) :=
  Yields.bind h (fun _ _ => hf)

/-- A step that is done in one of two ways, and what is then done with its answer. -/
theorem Yields.bind_ite {α β : Type} {P : α → Prop} {Q : β → Prop} {c : Prop} [Decidable c] {a b : R α} {f : α → R β} (ha : Yields P a) (hb : Yields P b)
    (hf : ∀ a, P a → Yields Q (f a)) : Yields Q (if c then a >>= f else b >>= f) := yields_ite (ha.bind hf) (hb.bind hf)

theorem Yields.map {α β : Type} {P : α → Prop} {Q : β → Prop} {r : R α} {f : α → β} (h : Yields P r) (hf : ∀ a, P a → Q (f a)) :
    Yields Q (r.map f) := by
  cases r with
  | ok a => exact hf a h
  | error e => exact h

theorem Yields.of_ok {α : Type} {P : α → Prop} {r : R α} {a : α} (h : Yields P r) (e : r = .ok a) : P a := by rw [e] at h; exact h
theorem Yields.of_error {α : Type} {P : α → Prop} {r : R α} {e : Halt} (h : Yields P r) (he : r = .error e) : HaltCanon e := by rw [he] at h; exact h
theorem Checks.of_error {r : R Unit} {e : Halt} (h : Checks r) (he : r = .error e) : HaltCanon e := Yields.of_error h he

/-- A fold of operations that keep the form. -/
theorem foldl_canon {α : Type} {f : Mach → α → Mach} (h : ∀ m a, Canon m → Canon (f m a)) (l : List α) {m : Mach} (w : Canon m) : Canon (l.foldl f m) := by
  induction l generalizing m with
  | nil => exact w
  | cons a t ih => exact ih (h m a w)

/-- A fold whose accumulator holds the machine first. -/
theorem foldl_fst_canon {α β : Type} {f : Mach × β → α → Mach × β} (h : ∀ p a, Canon p.1 → Canon (f p a).1) (l : List α) {p : Mach × β} (w : Canon p.1) :
    Canon (l.foldl f p).1 := by
  induction l generalizing p with
  | nil => exact w
  | cons a t ih => exact ih (h p a w)

/-! ### Lines, frames and pages -/

@[simp] theorem fireMonitors_canon {m : Mach} (line : Nat) (w : Canon m) : Canon (fireMonitors m line) := canon_of_mem (fireMonitors_mem m line) w
@[simp] theorem commitLine_canon {m : Mach} (line : Nat) (bs : List (Nat × Byte)) (w : Canon m) : Canon (commitLine m line bs) := commitLine_wf _ _ w
@[simp] theorem commitRun_canon {m : Mach} (pa : Nat) (bs : List Byte) (w : Canon m) : Canon (commitRun m pa bs) := commitRun_wf _ _ w
@[simp] theorem touchLine_canon {m : Mach} (treat cp line : Nat) (w : Canon m) : Canon (touchLine m treat cp line) := touchLine_wf _ _ _ w
@[simp] theorem evictLine_canon {m : Mach} (line : Nat) (w : Canon m) : Canon (evictLine m line) := canon_of_mem (evictLine_mem m line) w
@[simp] theorem plainRun_canon {m : Mach} (pa : Nat) (bs : List Byte) (w : Canon m) : Canon (plainRun m pa bs) :=
  commitRun_canon _ _ (foldl_canon (fun _ _ w => touchLine_canon _ _ _ w) _ w)
@[simp] theorem clearFrame_canon {m : Mach} (f len : Nat) (w : Canon m) : Canon (clearFrame m f len) := clearFrame_wf _ _ w
@[simp] theorem putEntry_canon {m : Mach} (ea e : Nat) (w : Canon m) : Canon (putEntry m ea e) := putEntry_wf _ _ w
@[simp] theorem putLeaf_canon {m : Mach} (ea n : Nat) (new : Nat → Nat) (w : Canon m) : Canon (putLeaf m ea n new) := putLeaf_wf _ _ _ w
@[simp] theorem clearLeaves_canon {m : Mach} (job : Nat) (w : Canon m) : Canon (clearLeaves m job) :=
  foldl_canon (fun _ _ w => putEntry_canon _ _ w) _ w
@[simp] theorem snoopSide_canon {m : Mach} (lines : List Nat) (w : Canon m) : Canon (snoopSide lines m) := canon_of_mem (snoopSide_mem lines m) w
@[simp] theorem homeWrite_canon {m : Mach} (treat cp pa : Nat) (bs : List Byte) (w : Canon m) : Canon (homeWrite m treat cp pa bs) := homeWrite_wf _ _ _ _ w
@[simp] theorem owedDrain_canon {m : Mach} (w : Canon m) : Canon (owedDrain m) := owedDrain_wf w
@[simp] theorem putRange_canon {m : Mach} (treat base len : Nat) (cells : List (Nat × Byte)) (w : Canon m) : Canon (putRange m treat base len cells) :=
  putRange_wf _ _ _ _ w
@[simp] theorem copyFrame_canon {m : Mach} (src dst len : Nat) (w : Canon m) : Canon (copyFrame m src dst len) := copyFrame_wf _ _ _ w
@[simp] theorem setAD_canon {m : Mach} (ea : Nat) (wr : Bool) (w : Canon m) : Canon (setAD m ea wr) := memSet_wf _ _ w

theorem allocFrame_canon {m m' : Mach} {die f : Nat} (h : allocFrame m die = some (f, m')) (w : Canon m) : Canon m' := allocRun_wf h w
@[simp] theorem allocFrames_canon {m : Mach} (die n : Nat) (w : Canon m) : Canon (allocFrames m die n).2 := by
  unfold allocFrames
  cases h : allocRun m die n with
  | none => exact w
  | some p => exact allocRun_wf h w

/-- A mapping that may not be had. -/
theorem getD_canon {o : Option Mach} {m : Mach} (h : ∀ m', o = some m' → Canon m') (w : Canon m) : Canon (o.getD m) := by
  cases o with
  | none => exact w
  | some m' => exact h m' rfl

@[simp] theorem fillTlb_canon {m : Mach} (core job va : Nat) (wr : Bool) (w : Canon m) : Canon (fillTlb m core job va wr) := by
  unfold fillTlb
  split
  · exact w
  · split
    · exact w
    · dsimp only
      split <;> split <;> simp [w]
@[simp] theorem demandPage_canon {m : Mach} (core job va : Nat) (w : Canon m) : Canon (demandPage m core job va) := by
  unfold demandPage
  split
  · split
    · exact w
    · exact getD_canon (fun _ h => mapFresh_wf h w) w
  · exact w

/-! ### Saved images and tiles -/

@[simp] theorem putImage_canon {m : Mach} (c : Crew) (w : Canon m) : Canon (putImage m c) := by
  unfold putImage
  split
  · exact w
  · have h := putRange_canon (imageTreat m c) c.imgBase 0x11000 (laneCells c 0 ++ crewCells c) w
    exact canon_ite h (putRange_canon _ _ _ _ h)
@[simp] theorem putImages_canon {m : Mach} (w : Canon m) : Canon (putImages m) := foldl_canon (fun _ _ w => putImage_canon _ w) _ w
@[simp] theorem saveTiles_canon {m : Mach} (c : Crew) (w : Canon m) : Canon (saveTiles m c) := by simp [saveTiles, w]
@[simp] theorem makeTiles_canon {m : Mach} (core n : Nat) (w : Canon m) : Canon (makeTiles m core n) :=
  foldl_canon (fun _ _ w => canon_ite (saveTiles_canon _ w) w) _ w

/-! ### Checked accesses (R173 to R191) -/

/-- A check of one access that fails does so with a trap. -/
theorem check1_halt {m : Mach} {w : Who} {kind : Nat} {ap : Bool} {a : Acc} {e : Nat × Halt} (h : check1 m w kind ap a = .error e) : HaltCanon e.2 := by
  unfold check1 at h
  dsimp only at h
  repeat' split at h
  all_goals cases h
  all_goals trivial

/-- The first of several failures is one of them. -/
theorem firstFail_halt {l : List (Except (Nat × Halt) Ok)} {h : Halt} (hl : ∀ e, .error e ∈ l → HaltCanon e.2) (e : firstFail l = some h) : HaltCanon h := by
  have key : ∀ (l : List (Except (Nat × Halt) Ok)) (b : Option (Nat × Halt)), (∀ e, .error e ∈ l → HaltCanon e.2) → (∀ e, b = some e → HaltCanon e.2) →
      ∀ e, l.foldl (fun best x => match x, best with
        | .error e, none => some e
        | .error e, some b => if e.1 < b.1 then some e else some b
        | .ok _, b => b) b = some e → HaltCanon e.2 := by
    intro l
    induction l with
    | nil => exact fun b _ hb => hb
    | cons x t ih =>
      intro b hl hb
      refine ih _ (fun e he => hl e (List.mem_cons_of_mem _ he)) ?_
      have hx : ∀ e, x = .error e → HaltCanon e.2 := fun e he => hl e (he ▸ List.mem_cons_self ..)
      intro e he
      dsimp only at he
      split at he
      · cases he; exact hx _ rfl
      · split at he
        · cases he; exact hx _ rfl
        · cases he; exact hb _ rfl
      · exact hb _ he
  obtain ⟨p, hp, rfl⟩ := Option.map_eq_some_iff.mp e
  exact key l none hl (fun _ h => by cases h) p hp

/-- Accesses that pass their checks touch their lines; a failure traps, waits for the host, for an engine or for a way. -/
theorem checkAll_yields {m : Mach} (w : Who) (kind : Nat) (ap : Bool) (l : List Acc) (hm : Canon m) :
    Yields (fun p => Canon p.1) (checkAll m w kind ap l) := by
  unfold checkAll
  dsimp only
  split
  · next h hf =>
    refine firstFail_halt (fun e he => ?_) hf
    obtain ⟨a, _, ha⟩ := List.mem_map.mp he
    exact check1_halt ha
  · refine yields_ite (by simp) (yields_ite (by simp) ?_)
    split
    · simp
    · rw [yields_ok]
      refine canon_of_mem (sampleHomes_mem _ _) (foldl_canon (fun m o hm => ?_) _ (foldl_canon (fun m a hm => ?_) _ hm))
      · have h := fillTlb_canon w.core w.job o.acc.va (kind == 2 || kind == 3) hm
        exact canon_ite h (touchLine_canon _ _ _ h)
      · exact demandPage_canon _ _ _ hm

theorem engineCheck_canon {m m' : Mach} {w : Who} {kind va : Nat} {o : Ok} (h : engineCheck m w kind va = some (o, m')) (hm : Canon m) : Canon m' := by
  unfold engineCheck at h
  dsimp only at h
  split at h
  · cases h; simp [hm]
  · cases h
theorem engineRead_canon {w : Who} {n va : Nat} {m m' : Mach} {bs : List Byte} (h : engineRead w n m va = some (bs, m')) (hm : Canon m) : Canon m' := by
  induction n generalizing m va bs with
  | zero => cases h; exact hm
  | succ n ih =>
    unfold engineRead at h
    split at h
    · cases h
    · next o m1 he =>
      split at h
      · cases h
      · next t m2 ht => cases h; exact ih ht (engineCheck_canon he hm)

/-! ### Leave and commits (R204, R205) -/

theorem leeAsk_yields {m : Mach} (c : Crew) (units : Nat) (w : Canon m) : Yields Canon (leeAsk m c units) := by
  have hs : ∀ f : Mach → Lee → Lee, KeepsCanon (fun m => m.modLee (dieOf c.core) (f m)) := fun f => keepsCanon_of_mem (fun m => modLee_mem ..)
  unfold leeAsk
  simp [w, hs]

@[simp] theorem mergeLines_canon {m : Mach} (job : Nat) (ls : List SpecLine) (w : Canon m) : Canon (mergeLines m job ls) :=
  foldl_canon (fun _ _ w => commitLine_canon _ _ w) _ w
theorem commitLines_yields {m : Mach} (ls : List SpecLine) (w : Canon m) : Yields Canon (commitLines m ls) := by
  unfold commitLines
  split
  · simp
  · simp [w]
theorem commit_yields {m : Mach} (w : Canon m) : Yields Canon (commit m) := by
  have h := commitLines_yields m.cur.seg w
  unfold commit
  split
  · next e he => exact h.of_error he
  · next he => exact (h.of_ok he : Canon _)
theorem commitHard_yields {m : Mach} (w : Canon m) : Yields Canon (commitHard m) := by
  have h := commitLines_yields m.cur.seg w
  unfold commitHard
  split
  · next e he => exact h.of_error he
  · next he => exact (h.of_ok he : Canon _)
theorem commitOwn_yields {m : Mach} (line : Nat) (w : Canon m) : Yields Canon (commitOwn m line) := by
  unfold commitOwn
  split
  · exact w
  · next l _ =>
    have h := commitLines_yields [l] w
    split
    · next e he => exact h.of_error he
    · next he => exact (h.of_ok he : Canon _)
theorem commitOwns_yields (ls : List Nat) {m : Mach} (w : Canon m) : Yields Canon (commitOwns ls m) := by
  induction ls generalizing m with
  | nil => exact w
  | cons l t ih =>
    have h := commitOwn_yields l w
    unfold commitOwns
    split
    · next he => exact ih (h.of_ok he)
    · next e he => exact h.of_error he

/-- A commit that a side makes where it can, and lets be where it cannot. -/
theorem keepsCanon_commit : KeepsCanon (fun m => match commit m with | .ok m => m | .error _ => m) := by
  intro m w
  have h := commit_yields w
  dsimp only
  split
  · next he => exact h.of_ok he
  · exact w

theorem storePlain_yields {m : Mach} (pc : Word) (va pa : Nat) (bs : List Byte) (w : Canon m) : Yields Canon (storePlain m pc va pa bs) := by
  have h : ∀ c : Bool, Yields Canon (if c then commitHard m else .ok m) := fun c => yields_ite (commitHard_yields w) w
  unfold storePlain
  dsimp only
  split
  · next e he => exact (h _).of_error he
  · next m' he =>
    have hm : Canon m' := (h _).of_ok he
    simp [hm]

end Sys2Proof.Laws
end

section
/-! Views, engines, the schedulers and the job graph keep memory in its canonical form. -/

namespace Sys2Proof.Laws

open Sys2Proof.Machine

/-! ### Views (R222 to R227) -/

/-- What a policy says of a block: a trap leaves the canonical form. -/
def ViewCanon : ViewOut → Prop
  | .trap h => HaltCanon h
  | _ => True

theorem blockPolicy_canon (die : Nat) (ms : Master) (v : View) (lane b : Nat) (kept : List (Nat × Nat)) : ViewCanon (blockPolicy die ms v lane b kept) := by
  unfold blockPolicy
  dsimp only
  repeat' split
  all_goals trivial

theorem worstView_canon {l : List ViewOut} (h : ∀ x ∈ l, ViewCanon x) : ViewCanon (worstView l) := by
  unfold worstView
  split
  · next t ht => exact h t (List.mem_of_find?_eq_some ht)
  · split <;> trivial

/-- A fold that at each entry keeps what it has or takes the entry ends with one of them. -/
theorem foldl_choice {α : Type} {f : Option α → α → Option α} (hf : ∀ b x, f b x = b ∨ f b x = some x) (l : List α) {b : Option α} {y : α}
    (h : l.foldl f b = some y) : b = some y ∨ y ∈ l := by
  induction l generalizing b with
  | nil => exact .inl h
  | cons x t ih =>
    rcases ih h with hb | ht
    · rcases hf b x with e | e
      · exact .inl (e ▸ hb)
      · rw [e] at hb; cases hb; exact .inr (List.mem_cons_self ..)
    · exact .inr (List.mem_cons_of_mem _ ht)

theorem viewPolicy_canon (m : Mach) (job : Nat) (o : Ok) (kept : List (Nat × Nat)) : ViewCanon (viewPolicy m job o kept) := by
  unfold viewPolicy
  split
  · trivial
  · dsimp only
    split
    · trivial
    · generalize hk : List.filterMap id _ = known
      have hall : ∀ x ∈ known, ViewCanon x.2 := by
        intro x hx
        rw [← hk] at hx
        obtain ⟨a, ha, rfl⟩ := List.mem_filterMap.mp hx
        obtain ⟨i, _, hi⟩ := List.mem_map.mp ha
        split at hi
        · cases hi; exact blockPolicy_canon ..
        · cases hi
      split
      · next x hx =>
        have hl := foldl_choice (fun b x => by
          split
          · exact .inr rfl
          · split
            · exact .inr rfl
            · exact .inl rfl) _ hx
        rcases hl with h | h
        · cases h
        · exact hall x (List.mem_filter.mp h).1
      · refine worstView_canon (fun x hx => ?_)
        obtain ⟨p, hp, rfl⟩ := List.mem_map.mp hx
        exact hall p hp

/-- What a view's policy says of a list of accesses traps or waits in the canonical form. -/
theorem viewCheck_checks (m : Mach) (job : Nat) (kept : List (Nat × Nat)) (oks : List Ok) : Checks (viewCheck m job kept oks) := by
  have h : ViewCanon (worstView (oks.map (fun o => viewPolicy m job o kept))) := worstView_canon (fun x hx => by
    obtain ⟨o, _, rfl⟩ := List.mem_map.mp hx
    exact viewPolicy_canon ..)
  unfold viewCheck
  split
  · trivial
  · next hh e => rw [e] at h; exact h
  · exact fun m w => w

theorem writeView_canon (w : Who) (bss : List (List Byte)) {m m' : Mach} {va : Nat} (h : writeView w m va bss = some m') (hm : Canon m) : Canon m' := by
  induction bss generalizing m va with
  | nil => cases h; exact hm
  | cons bs t ih =>
    unfold writeView at h
    split at h
    · next o m1 he =>
      split at h
      · exact ih h (commitRun_canon _ _ (engineCheck_canon he hm))
      · cases h
    · cases h
@[simp] theorem recomputeView_canon {m : Mach} (die mi b vsnap : Nat) (xs : List FV) (v : View) (err : Bool) (w : Canon m) :
    Canon (recomputeView m die mi b vsnap xs v err) := by
  unfold recomputeView
  split
  · exact w
  · next ms _ =>
    split
    · exact w
    · rcases deriveBlock ms.square v xs with ⟨data, scale⟩
      dsimp only
      split
      · next m1 h1 =>
        have hm1 : Canon m1 := by
          split at h1
          · cases h1
          · next m2 h2 =>
            have hm2 : Canon m2 := by
              split at h2
              · cases h2
              · exact writeView_canon _ _ h2 w
            split at h1
            · cases h1; exact hm2
            · exact writeView_canon _ _ h1 hm2
        split <;> simp [hm1]
      · split <;> simp [w]
theorem viewSnap_canon {w : Who} {base n : Nat} {m m' : Mach} {bs : List Byte} (h : viewSnap w base n m = some (bs, m')) (hm : Canon m) : Canon m' := by
  induction n generalizing m' bs with
  | zero => cases h; exact hm
  | succ n ih =>
    unfold viewSnap at h
    split at h
    · cases h
    · next bs1 m1 h1 =>
      split at h
      · cases h
      · next o m2 h2 => cases h; exact engineCheck_canon h2 (ih h1)
@[simp] theorem viewStep_canon {m : Mach} (die err : Nat) (w : Canon m) : Canon (viewStep m die err) := by
  unfold viewStep
  dsimp only
  split
  · exact snoopSide_canon _ w
  · split
    · exact w
    · split
      · exact w
      · split
        · simp [w]
        · split
          · simp [w]
          · split
            · simp [w]
            · next bs m1 h1 =>
              refine foldl_canon (fun m v hm => recomputeView_canon _ _ _ _ _ _ _ hm) _ ?_
              split at h1
              · cases h1
              · exact viewSnap_canon h1 (by simp [w])
@[simp] theorem viewUntil_canon {m : Mach} (die : Nat) (test : Mach → Bool) (n : Nat) (w : Canon m) : Canon (viewUntil die test n m) := by
  induction n generalizing m with
  | zero => exact w
  | succ n ih => exact canon_ite w (ih (viewStep_canon _ _ w))
@[simp] theorem catchUp_canon {m : Mach} (job : Nat) (o : Ok) (kept : List (Nat × Nat)) (w : Canon m) : Canon (catchUp m job o kept) := by
  unfold catchUp
  split
  · exact viewUntil_canon _ _ _ w
  · exact w

/-! ### What engines read and write (R226, R237, R242) -/

theorem engineByte_canon {m : Mach} (w : Who) (va n : Nat) (hm : Canon m) : FetchCanon (engineByte m w va n) := by
  unfold engineByte
  split
  · trivial
  · next o m1 he =>
    have h1 := engineCheck_canon he hm
    extract_lets mk m2
    have h2 : Canon m2 := by
      unfold m2
      split
      · exact catchUp_canon _ _ _ h1
      · exact h1
    clear_value m2
    have hv := viewPolicy_canon m2 w.job o (engKeep m2 w.op)
    split
    · split
      · split
        · simpa using h2
        · exact h2
        · exact h2
        · trivial
      · exact h2
    · next hh e => rw [e] at hv; exact hv
    · exact h2
theorem engineBytes_canon (w : Who) (n : Nat) {m : Mach} (va : Nat) (hm : Canon m) : FetchCanon (engineBytes w n m va) := by
  induction n generalizing m va with
  | zero => exact hm
  | succ n ih =>
    have hb := engineByte_canon w va (n + 1) hm
    unfold engineBytes
    split
    · next b m1 h1 =>
      rw [h1] at hb
      have ht := ih (va + 1) hb
      split
      · next t m2 h2 => rw [h2] at ht; exact ht
      · exact ht
    · exact hb
@[simp] theorem engineWrite_canon {m : Mach} (w : Who) (va : Nat) (bs : List Byte) (hm : Canon m) : Canon (engineWrite m w va bs).1 := by
  refine foldl_fst_canon (fun p c hp => ?_) _ hm
  split
  · exact hp
  · split
    · exact hp
    · next o m1 h1 =>
      have hm1 := engineCheck_canon h1 hp
      exact canon_ite hm1 (commitRun_canon _ _ hm1)

/-- Every machine of a load's elements is canonical. -/
def LoadCanon {α : Type} : Except Fetch (α × Mach) → Prop
  | .ok p => Canon p.2
  | .error f => FetchCanon f

theorem LoadCanon.of_ok {α : Type} {r : Except Fetch (α × Mach)} {p : α × Mach} (h : LoadCanon r) (e : r = .ok p) : Canon p.2 := by
  rw [e] at h; exact h
theorem LoadCanon.of_error {α : Type} {r : Except Fetch (α × Mach)} {f : Fetch} (h : LoadCanon r) (e : r = .error f) : FetchCanon f := by
  rw [e] at h; exact h

theorem loadOne_canon (w : Who) (d : LoadDesc) {m : Mach} (k n : Nat) (hm : Canon m) : LoadCanon (loadOne w d m k n) := by
  unfold loadOne
  rcases loadElem d k n with ⟨va, sz, sub⟩
  have hb := engineBytes_canon w sz va hm
  dsimp only
  split
  · next bs m1 h1 =>
    rw [h1] at hb
    split
    · exact hb
    · have hs := engineByte_canon w (loadScale d k n) 1 hb
      split
      · next sb m2 h2 => rw [h2] at hs; exact hs
      · exact hs
  · exact hb
theorem loadGroup_canon (w : Who) (d : LoadDesc) (n g : Nat) (l : List Nat) {m : Mach} (hm : Canon m) : LoadCanon (loadGroup w d n g l m) := by
  induction l generalizing m with
  | nil => exact hm
  | cons i t ih =>
    have h1 := loadOne_canon w d (8 * g + i) n hm
    unfold loadGroup
    split
    · next e he => rw [he] at h1; exact h1
    · next x m1 he =>
      rw [he] at h1
      have h2 := ih h1
      split
      · next e he => rw [he] at h2; exact h2
      · next xs m2 he => rw [he] at h2; exact h2
theorem loadAll_canon (w : Who) (d : LoadDesc) {m : Mach} (hm : Canon m) : LoadCanon (loadAll w d m) := by
  unfold loadAll
  dsimp only
  generalize List.flatMap _ _ = keys
  generalize hacc : (([], m) : List (Nat × BGroup) × Mach) = acc
  have ha : Canon acc.2 := by rw [← hacc]; exact hm
  clear hacc
  induction keys generalizing acc with
  | nil => exact ha
  | cons ng t ih =>
    have h1 := loadGroup_canon w d ng.1 ng.2 (List.range 8) ha
    unfold foldE
    split
    · next acc' he =>
      refine ih acc' ?_
      split at he
      · cases he
      · next xs m1 hg => cases he; rw [hg] at h1; exact h1
    · next e he =>
      split at he
      · next e' hg => cases he; rw [hg] at h1; exact h1
      · cases he

/-! ### Matrix loads -/

@[simp] theorem loadDone_canon {m : Mach} (core : Nat) (err : Option Nat) (w : Canon m) : Canon (loadDone m core err) := by
  unfold loadDone
  split
  · next tid id pc desc _ _ =>
    dsimp only
    split
    · simp [w]
    · split
      · simp [w]
      · split
        · next he => simpa using (loadAll_canon _ _ w).of_ok he
        · simp [w]
        · next he => simpa using (loadAll_canon _ _ w).of_error he
        · simp [w]
  · exact w
@[simp] theorem seqRunOne_canon {m : Mach} (core : Nat) (w : Canon m) : Canon (seqRunOne m core) := by
  unfold seqRunOne
  split
  · exact w
  · exact loadDone_canon _ _ w
  · simp [w]
@[simp] theorem seqDrain_canon (core tid n : Nat) {m : Mach} (w : Canon m) : Canon (seqDrain core tid n m) := by
  induction n generalizing m with
  | zero => exact w
  | succ n ih => exact canon_ite (ih (seqRunOne_canon _ w)) w

/-! ### Tasks that start (R98 to R101) -/

/-- Frames for a part of an image that a task may not need. -/
theorem framesOr_canon {m : Mach} (c : Prop) [Decidable c] (die n : Nat) (w : Canon m) :
    Canon (if c then allocFrames m die n else (0, m)).2 ∧ Canon (if c then (0, m) else allocFrames m die n).2 := by
  have h := allocFrames_canon die n w
  constructor <;> split <;> assumption

@[simp] theorem startTask_canon {m : Mach} (core : Nat) (r : TaskRec) (w : Canon m) : Canon (startTask m core r) := by
  unfold startTask
  split
  · exact w
  · next l j d _ =>
    have h1 := allocFrames_canon (dieOf core) 32 w
    extract_lets die slots
    generalize allocFrames m die 32 = p1 at h1 ⊢
    obtain ⟨img, m1⟩ := p1
    have h2 := (framesOr_canon (d.width = 64) (dieOf core) 32 h1).1
    dsimp only
    generalize (if d.width = 64 then allocFrames m1 die 32 else (0, m1)) = p2 at h2 ⊢
    obtain ⟨pair, m2⟩ := p2
    have h3 := (framesOr_canon (d.accs = 0) (dieOf core) 32 h2).2
    dsimp only
    generalize (if d.accs = 0 then (0, m2) else allocFrames m2 die 32) = p3 at h3 ⊢
    obtain ⟨save, m3⟩ := p3
    dsimp only at h3 ⊢
    simp [h3]
@[simp] theorem resumeCrew_canon {m : Mach} (core tid : Nat) (w : Canon m) : Canon (resumeCrew m core tid) := by
  unfold resumeCrew
  split
  · exact w
  · simp [w]

/-- What taking a source does keeps the form. -/
def SourceCanon (s : Source) : Prop := KeepsCanon s.take

theorem srcResume_canon {m : Mach} {core : Nat} {s : Source} (h : srcResume m core = some s) : SourceCanon s := by
  unfold srcResume at h
  dsimp only at h
  split at h
  · cases h; exact fun _ w => resumeCrew_canon _ _ w
  · cases h
theorem srcDeque_canon {m : Mach} {core : Nat} {s : Source} (h : srcDeque m core = some s) : SourceCanon s := by
  unfold srcDeque at h
  dsimp only at h
  split at h
  · split at h
    · cases h; exact fun _ w => startTask_canon _ _ (by simp [w])
    · cases h
  · cases h
theorem srcRing_canon {m : Mach} {core : Nat} {s : Source} (h : srcRing m core = some s) : SourceCanon s := by
  unfold srcRing at h
  dsimp only at h
  split at h
  · split at h
    · cases h; exact fun _ w => startTask_canon _ _ (by simp [w])
    · cases h
  · cases h
theorem srcQueue_canon {m : Mach} {core : Nat} {s : Source} (h : srcQueue m core = some s) : SourceCanon s := by
  unfold srcQueue at h
  split at h
  · cases h
  · dsimp only at h
    split at h
    · cases h
    · split at h
      · cases h
      · split at h
        · cases h
        · split at h
          · cases h; exact fun _ w => startTask_canon _ _ (by simp [w])
          · cases h
theorem pickWork_canon {m : Mach} {core : Nat} {s : Source} (h : pickWork m core = some s) : SourceCanon s := by
  unfold pickWork at h
  split at h
  · cases h
  · have hl := foldl_choice (fun b x => by
      split
      · exact .inr rfl
      · split
        · exact .inr rfl
        · exact .inl rfl) _ h
    rcases hl with h | h
    · cases h
    · obtain ⟨o, ho, rfl⟩ := List.mem_filterMap.mp h
      simp only [List.mem_cons, List.not_mem_nil, or_false] at ho
      rcases ho with ho | ho | ho | ho
      · exact srcResume_canon ho.symm
      · exact srcDeque_canon ho.symm
      · exact srcRing_canon ho.symm
      · exact srcQueue_canon ho.symm
theorem migratePlan_canon {m : Mach} {crew core : Nat} {s : Source} (h : migratePlan m crew core = some s) : SourceCanon s := by
  unfold migratePlan at h
  split at h
  · next hs =>
    split at h
    · cases h; exact srcResume_canon hs
    · cases h
  · cases h

@[simp] theorem fillN_canon (core n : Nat) {m : Mach} (w : Canon m) : Canon (fillN core n m) := by
  induction n generalizing m with
  | zero => exact w
  | succ n ih =>
    unfold fillN
    split
    · exact w
    · next s hs => exact ih (pickWork_canon hs _ w)
@[simp] theorem fillAll_canon {m : Mach} (w : Canon m) : Canon (fillAll m) := by
  unfold fillAll
  split
  · exact foldl_canon (fun _ _ w => fillN_canon _ _ w) _ w
  · exact w

/-! ### Race checks (R210 to R216) -/

theorem shadowPage_canon {m m' : Mach} {core job va : Nat} (h : shadowPage m core job va = some m') (w : Canon m) : Canon m' := by
  unfold shadowPage at h
  dsimp only at h
  split at h
  · cases h; exact w
  · split at h
    · next hm => cases h; exact (mapFresh_wf hm w : Canon _)
    · cases h
@[simp] theorem shadowPut_canon {m : Mach} (job va : Nat) (r : BitVec 256) (w : Canon m) : Canon (shadowPut m job va r) := by
  unfold shadowPut
  split
  · simp [w]
  · exact w
@[simp] theorem shadowClear_canon {m : Mach} (job : Nat) (w : Canon m) : Canon (shadowClear m job) := by
  refine foldl_canon (fun m e w => ?_) _ w
  split
  · exact memory_wf_filter _ w
  · exact w
theorem shadowPages_yields (kind : Nat) (oks : List Ok) {m : Mach} (w : Canon m) : Yields Canon (shadowPages kind oks m) := by
  induction oks generalizing m with
  | nil => exact w
  | cons o t ih =>
    unfold shadowPages
    split
    · next hm => exact ih (shadowPage_canon hm w)
    · simp
theorem raceCheck_yields {m : Mach} (write : Bool) (oks : List Ok) (w : Canon m) : Yields Canon (raceCheck m write oks) := by
  unfold raceCheck
  dsimp only
  split
  · exact w
  · have hg : Canon (giveSid m) := by simp [w]
    split
    · exact hg
    · have hp := fun k oks => shadowPages_yields k oks hg
      split
      · next he => exact (hp _ _).of_error he
      · next he =>
        split
        · next hb =>
          obtain ⟨o, _, ho⟩ := List.exists_of_findSome?_eq_some hb
          split at ho
          · cases ho; trivial
          · cases ho
        · exact foldl_canon (fun _ _ w => shadowPut_canon _ _ _ w) _ ((hp _ _).of_ok he)

/-! ### Writes of a job's pages -/

@[simp] theorem jobWriteRun_canon {m : Mach} (job va : Nat) (bs : List Byte) (w : Canon m) : Canon (jobWriteRun m job va bs) := by
  unfold jobWriteRun
  split
  · split <;> simp [w]
  · exact w
@[simp] theorem jobWrite_canon (job die n : Nat) {m : Mach} (va : Nat) (bs : List Byte) (w : Canon m) : Canon (jobWrite job die n m va bs) := by
  induction n generalizing m va bs with
  | zero => exact w
  | succ n ih => exact canon_ite w (ih _ _ (jobWriteRun_canon _ _ _ (demandPage_canon _ _ _ w)))
@[simp] theorem jobPut_canon {m : Mach} (job va : Nat) (bs : List Byte) (w : Canon m) : Canon (jobPut m job va bs) := jobWrite_canon _ _ _ _ _ w

/-! ### Job graphs (R70 to R79) -/

theorem condFetch_canon {m : Mach} (job n addr : Nat) (w : Canon m) : FetchCanon (condFetch m job n addr) := by
  unfold condFetch
  extract_lets host
  clear_value host
  split
  · exact engineBytes_canon _ _ _ w
  · split
    · next h => exact engineRead_canon h w
    · trivial
@[simp] theorem condNode_canon {m : Mach} (job n : Nat) (j : Job) (nd : Node) (w : Canon m) : Canon (condNode m job n j nd) := by
  have hs : Canon (m.setJob job (setNode j n .running)) := by simp [w]
  have hf := condFetch_canon job n nd.addr hs
  unfold condNode
  dsimp only
  split
  · simp [w]
  · split
    · next h => rw [h] at hf; simpa using hf
    · next h => rw [h] at hf; simpa using hf
    · simp [w]
@[simp] theorem graphPass_canon {m : Mach} (job : Nat) (w : Canon m) : Canon (graphPass m job) := by
  unfold graphPass
  split
  · exact w
  · refine foldl_canon (fun m n w => ?_) _ w
    split
    · exact w
    · split
      · exact w
      · dsimp only
        split
        · exact w
        · split
          · split
            · exact w
            · split <;> simp [w]
          · simp [w]
@[simp] theorem graphAdvance_canon {m : Mach} (job : Nat) (w : Canon m) : Canon (graphAdvance m job) := by
  unfold graphAdvance
  split
  · exact w
  · next j _ =>
    have h : Canon ((List.range (j.states.length + 1)).foldl (fun m _ => graphPass m job) m) := foldl_canon (fun _ _ w => graphPass_canon _ w) _ w
    dsimp only
    split
    · exact h
    · split <;> simpa using h
@[simp] theorem resolveNode_canon {m : Mach} (job n : Nat) (s : NodeState) (w : Canon m) : Canon (resolveNode m job n s) := by
  unfold resolveNode
  split
  · exact w
  · split <;> simp [w]
@[simp] theorem autoWrite_canon {m : Mach} (l : Launch) (w : Canon m) : Canon (autoWrite m l) := foldl_canon (fun _ _ w => engineWrite_canon _ _ _ w) _ w
@[simp] theorem launchDone_canon (n : Nat) {m : Mach} (h : Nat) (w : Canon m) : Canon (launchDone n m h) := by
  induction n generalizing m h with
  | zero => exact w
  | succ n ih =>
    unfold launchDone
    split
    · exact w
    · next l _ =>
      split
      · exact w
      · split
        · simp [w]
        · extract_lets m1 m2 m3
          have h1 : Canon m1 := canon_ite w (autoWrite_canon _ w)
          have h2 : Canon m2 := by simpa [m2] using h1
          have h3 : Canon m3 := by
            unfold m3
            split
            · exact h2
            · split
              · extract_lets m4
                have h4 : Canon m4 := by simpa [m4] using h2
                exact canon_ite (ih _ h4) h4
              · exact h2
          split
          · exact resolveNode_canon _ _ _ h3
          · exact h3
end Sys2Proof.Laws
end

section
/-! Cancels, phases, migrations, traps and the ends of tasks keep memory in its canonical form. -/

namespace Sys2Proof.Laws

open Sys2Proof.Machine

/-! ### Launches, graphs and jobs that end (R67 to R79) -/

@[simp] theorem decLaunch_canon {m : Mach} (h : Nat) (w : Canon m) : Canon (decLaunch m h) := by
  unfold decLaunch
  split
  · exact w
  · split
    · exact w
    · simp [w]
@[simp] theorem cancelLaunch_canon {m : Mach} (h : Nat) (w : Canon m) : Canon (cancelLaunch m h) := by
  unfold cancelLaunch
  split
  · exact w
  · split
    · exact w
    · exact foldl_canon (fun _ _ w => launchDone_canon _ _ w) _ (canon_of_mem (foldl_mem cancelWork_mem _ m) w)
@[simp] theorem cancelLaunches_canon {m : Mach} (hs : List Nat) (w : Canon m) : Canon (hs.foldl cancelLaunch m) := foldl_canon (fun _ _ w => cancelLaunch_canon _ w) _ w
@[simp] theorem cancelGraph_canon {m : Mach} (job : Nat) (w : Canon m) : Canon (cancelGraph m job) := by
  unfold cancelGraph
  split
  · exact w
  · split
    · exact cancelLaunches_canon _ w
    · dsimp only
      split
      · split <;> simp [w]
      · simp [w]
@[simp] theorem cancelPhase_canon {m : Mach} (job : Nat) (w : Canon m) : Canon (cancelPhase m job) := by
  unfold cancelPhase
  split
  · exact w
  · split <;> simp [w]
@[simp] theorem unmapJob_canon {m : Mach} (job : Nat) (w : Canon m) : Canon (unmapJob m job) := by simp [unmapJob, w]
@[simp] theorem closeJob_canon {m : Mach} (job : Nat) (w : Canon m) : Canon (closeJob m job) := by simp [closeJob, w]
@[simp] theorem endJob_canon {m : Mach} (job kind : Nat) (w : Canon m) : Canon (endJob m job kind) := closeJob_canon _ (by simp [w])
@[simp] theorem cancelJob_canon {m : Mach} (job : Nat) (w : Canon m) : Canon (cancelJob m job) := by
  unfold cancelJob
  split
  · exact w
  · split
    · exact w
    · exact endJob_canon _ _ (by simp [w])

/-! ### Phases (R70 to R77) -/

@[simp] theorem writeCtl_canon {m : Mach} (j : Job) (w : Canon m) : Canon (writeCtl m j) := jobPut_canon _ _ _ w
@[simp] theorem startPhase_canon {m : Mach} (job : Nat) (w : Canon m) : Canon (startPhase m job) := by
  unfold startPhase
  split
  · exact w
  · exact graphAdvance_canon _ (writeCtl_canon _ (by simp [w]))
theorem migratePage_canon {m m' : Mach} {job va die : Nat} {moveFrame : Bool} (h : migratePage m job va die moveFrame = some m') (w : Canon m) : Canon m' := by
  unfold migratePage at h
  split at h
  · cases h
  · dsimp only at h
    split at h
    · cases h
    · split at h
      · split at h
        · cases h
        · split at h
          · cases h
          · next f m1 ha =>
            have h1 : Canon m1 := allocRun_wf ha w
            cases h
            simp [h1]
      · cases h; simp [w]
@[simp] theorem migrateOnline_canon {m : Mach} (job va die : Nat) (moveFrame : Bool) (w : Canon m) : Canon (migrateOnline m job va die moveFrame) := by
  unfold migrateOnline
  dsimp only
  split
  · simp [w]
  · split
    · simp [w]
    · exact getD_canon (fun _ h => migratePage_canon h w) w
@[simp] theorem applyHints_canon {m : Mach} (job addr : Nat) (w : Canon m) : Canon (applyHints m job addr) := by
  unfold applyHints
  split
  · simp [w]
  · refine foldl_canon (fun m e w => ?_) _ w
    split
    · next h => exact migratePage_canon h w
    · simp [w]
@[simp] theorem restartSerials_canon {m : Mach} (job : Nat) (w : Canon m) : Canon (restartSerials m job) := by
  unfold restartSerials
  split
  · exact w
  · split
    · exact w
    · simp [w]
@[simp] theorem phaseBoundaryStep_canon {m : Mach} (job : Nat) (w : Canon m) : Canon (phaseBoundaryStep m job) := by
  unfold phaseBoundaryStep
  split
  · exact w
  · next j _ =>
    split
    · exact closeJob_canon _ w
    · split
      · exact w
      · split
        · simp [w]
        · dsimp only
          split
          · simp [w]
          · have h1 : Canon ((hintAddrs j).foldl (fun m a => applyHints m job a) m) := foldl_canon (fun _ _ w => applyHints_canon _ _ w) _ w
            have h2 := restartSerials_canon job (canon_of_mem (groupBoundary_mem _ job) h1)
            split
            · split
              · exact startPhase_canon _ (by simpa using h2)
              · exact endJob_canon _ _ (by simpa using h2)
            · simpa using h2
@[simp] theorem boundaryStep_canon {m : Mach} (job : Nat) (w : Canon m) : Canon (boundaryStep m job) := by simp [boundaryStep, w]
@[simp] theorem launchFault_canon {m : Mach} (h cause : Nat) (w : Canon m) : Canon (launchFault m h cause) := by
  unfold launchFault
  split
  · exact w
  · simp [w]
/-- `Canon`, for machines that the kernel is to compare as they stand: it unfolds an `abbrev` before it looks at the arguments, and would then run
the eight dies of a launch's set-aside, whose ways are counted by a division by `2 ^ 24`. -/
def Kept (m : Mach) : Prop := Canon m

/-- The ways that a launch sets aside. -/
theorem asideTaken_kept {m : Mach} (h : Nat) (ways : Nat → Nat) (w : Canon m) :
    Kept ((List.range 8).foldl (fun m die =>
      let w := ways die
      if w = 0 then m else evictWays (m.modDie die (fun x => { x with ways := smPut x.ways h w })) die) m) :=
  foldl_canon (fun _ _ w => canon_ite w (canon_of_mem (evictWays_mem _ _) (canon_of_mem (modDie_mem ..) w))) _ w
/-- The page of the trap table that a launch maps before it starts. -/
theorem launchMapped_kept {m : Mach} (job h : Nat) (l : Launch) (w : Kept m) :
    Kept ((mapReadOnly job 0 l.trapBase 128 (m.setLaunch h l)).getD (m.setLaunch h l)) :=
  have hs : Canon (m.setLaunch h l) := canon_of_mem (setLaunch_mem ..) w
  getD_canon (fun _ e => mapReadOnly_wf e hs) hs
theorem launchQueued_kept {m : Mach} (h : Nat) (sts : List Stage) (w : Kept m) : Kept (queueOn (assignCores m h sts) h) :=
  canon_of_mem (queueOn_mem _ _) (canon_of_mem (assignCores_mem _ _ _) w)
theorem dueAll_kept {m : Mach} (ks : List Nat) (w : Kept m) : Kept (ks.foldl (fun m k => m.due (.launchStart k)) m) :=
  foldl_canon (fun m k w => by simpa using w) ks w
theorem jobPut_kept {m : Mach} (job va : Nat) (bs : List Byte) (f : Job → Job) (w : Kept m) : Kept (jobPut (m.modJob job f) job va bs) :=
  jobPut_canon _ _ _ (canon_of_mem (modJob_mem ..) w)
theorem launchStartStep_kept {m : Mach} (h : Nat) (w : Canon m) : Kept (launchStartStep m h) := by
  unfold launchStartStep
  split
  · exact w
  · next l _ =>
    split
    · exact w
    · split
      · exact launchDone_canon _ _ w
      · split
        · exact canon_of_mem (queueOn_mem _ _) w
        · split
          · exact launchFault_canon _ _ w
          · next j d reds p _ =>
            split
            · exact w
            · extract_lets m1 sts l' m2 m3 m4 m5
              have h1 : Kept m1 := asideTaken_kept h (asideWays l.tile p) w
              have h3 : Kept m3 := launchMapped_kept j.id h l' h1
              have h4 : Kept m4 := by
                unfold m4
                split
                · exact jobPut_kept _ _ _ _ h3
                · exact h3
              exact dueAll_kept _ (launchQueued_kept h sts h4)
@[simp] theorem launchStartStep_canon {m : Mach} (h : Nat) (w : Canon m) : Canon (launchStartStep m h) := launchStartStep_kept h w
@[simp] theorem conditionRead_canon {m : Mach} (job n : Nat) (w : Canon m) : Canon (conditionRead m job n) := by
  unfold conditionRead
  split
  · exact w
  · split
    · exact w
    · split
      · exact w
      · split
        · simp [w]
        · split <;> simp [w]

/-! ### Faults and recovery (R445 to R449) -/

@[simp] theorem jobFault_canon {m : Mach} (job : Nat) (w : Canon m) : Canon (jobFault m job) := by
  unfold jobFault
  split
  · exact w
  · split
    · exact w
    · dsimp only
      split <;> simp [w]
@[simp] theorem jobRestore_canon {m : Mach} (job : Nat) (w : Canon m) : Canon (jobRestore m job) := jobRestore_wf job w
@[simp] theorem jobRestart_canon {m : Mach} (job : Nat) (w : Canon m) : Canon (jobRestart m job) := by
  unfold jobRestart
  split
  · exact w
  · split
    · simp [w]
    · exact w
@[simp] theorem faultTold_canon {m : Mach} (fr : Frame) (w : Canon m) : Canon (faultTold fr m) := by
  unfold faultTold
  dsimp only
  split <;> simp [w]
@[simp] theorem peerDown_canon {m : Mach} (dst : Nat) (w : Canon m) : Canon (peerDown m dst) :=
  foldl_canon (fun _ _ w => jobFault_canon _ w) _ (by simpa using w)

/-! ### Crews that leave their slots (R260 to R265) -/

@[simp] theorem switchOut_canon {m : Mach} (tid : Nat) (w : Canon m) : Canon (switchOut m tid) := by
  unfold switchOut
  split
  · exact w
  · next c _ =>
    split
    · exact w
    · extract_lets m1
      have h1 : Canon m1 := by simp [m1, w]
      clear_value m1
      split
      · exact h1
      · split
        · exact h1
        · simpa using h1
@[simp] theorem leaveAll_canon {m : Mach} (w : Canon m) : Canon (leaveAll m) := foldl_canon (fun _ _ w => switchOut_canon _ w) _ w
@[simp] theorem preemptOut_canon {m : Mach} (tid : Nat) (w : Canon m) : Canon (preemptOut m tid) := by
  unfold preemptOut
  split
  · exact w
  · split
    · exact w
    · simp [w]

/-! ### Traps (R246 to R256) -/

@[simp] theorem takeSystem_canon {m : Mach} (c : Crew) (e : Exc) (w : Canon m) : Canon (takeSystem m c e) := by
  have h1 : Canon (nextSeq m c.launch).2 := by simp [w]
  unfold takeSystem
  generalize nextSeq m c.launch = p at h1 ⊢
  obtain ⟨seq, m1⟩ := p
  dsimp only at h1 ⊢
  split
  · simp [h1]
  · split <;> simp [h1]
@[simp] theorem takeUnhandled_canon {m : Mach} (c : Crew) (e : Exc) (w : Canon m) : Canon (takeUnhandled m c e) := by
  have h1 : Canon (nextSeq m c.launch).2 := by simp [w]
  unfold takeUnhandled
  generalize nextSeq m c.launch = p at h1 ⊢
  obtain ⟨seq, m1⟩ := p
  dsimp only at h1 ⊢
  split <;> simp [h1]
@[simp] theorem takeHandled_canon {m : Mach} (c : Crew) (e : Exc) (l : Launch) (d : Decl) (idx : Nat) (w : Canon m) : Canon (takeHandled m c e l d idx) := by
  unfold takeHandled
  exact canon_of_mem (dequeIn_mem _ _ _) (jobPut_canon _ _ _ (switchOut_canon _ (by simp [w])))
@[simp] theorem takeTrap_canon {m : Mach} (tid : Nat) (e : Exc) (w : Canon m) : Canon (takeTrap m tid e) := by
  unfold takeTrap
  split
  · exact w
  · split
    · exact takeSystem_canon _ _ w
    · split
      · exact takeUnhandled_canon _ _ w
      · split
        · split <;> simp [w]
        · exact takeUnhandled_canon _ _ w

/-! ### Boot and the module's own memory (R17 to R21) -/

@[simp] theorem errataAppend_canon {m : Mach} (ty : Nat) (v : List Byte) (w : Canon m) : Canon (errataAppend m ty v) := by
  unfold errataAppend
  dsimp only
  split
  · exact w
  · split
    · simp [w]
    · exact plainRun_canon _ _ (plainRun_canon _ _ (plainRun_canon _ _ w))
@[simp] theorem linkNarrow_canon {m : Mach} (d : Nat) (w : Canon m) : Canon (linkNarrow m d) := by
  unfold linkNarrow
  dsimp only
  split <;> simp [w]

/-! ### Stores -/

theorem doStore_yields {m : Mach} (pc : Word) (o : Ok) (bs : List Byte) (w : Canon m) : Yields Canon (doStore m pc o bs) := by
  have h := storePlain_yields pc o.acc.va o.pa bs w
  unfold doStore
  split
  · simp [w]
  · exact h
theorem doStores_yields (pc : Word) (l : List (Ok × List Byte)) {m : Mach} (w : Canon m) : Yields Canon (doStores pc l m) := by
  induction l generalizing m with
  | nil => exact w
  | cons p t ih =>
    obtain ⟨o, bs⟩ := p
    have h := doStore_yields pc o bs w
    unfold doStores
    split
    · next he => exact ih (h.of_ok he)
    · next he => exact h.of_error he
theorem plainStores_yields {m : Mach} (pc : Word) (l : List (Acc × List Byte)) (w : Canon m) : Yields Canon (plainStores m pc l) := by
  have h := checkAll_yields (whoOf m.cur) 2 true (l.map (·.1)) w
  unfold plainStores
  split
  · next he => exact h.of_error he
  · next m1 oks he =>
    have hr := raceCheck_yields true oks (h.of_ok he)
    split
    · next he => exact hr.of_error he
    · next he => exact doStores_yields _ _ (hr.of_ok he)

/-! ### Waits and the ends of tasks (R117, R375 to R378) -/

@[simp] theorem finishTask_canon (n : Nat) {m : Mach} (tid : Nat) (w : Canon m) : Canon (finishTask n m tid) := by
  induction n generalizing m tid with
  | zero => exact w
  | succ n ih =>
    unfold finishTask
    split
    · exact w
    · next c _ =>
      refine decLaunch_canon _ (canon_of_mem (dropTask_mem _ _ _) ?_)
      refine foldl_canon (fun m t w => ?_) _ ?_
      · dsimp only
        split
        · split
          · exact ih _ (by simpa using w)
          · simpa using w
        · simpa using w
      · simp [w]
@[simp] theorem endTrapped_canon {m : Mach} (tid : Nat) (w : Canon m) : Canon (endTrapped m tid) := by
  unfold endTrapped
  dsimp only
  split
  · split <;> simp [w]
  · simp [w]
theorem sbStall_checks (m : Mach) (c : Crew) (store : Bool) (accs : List Acc) : Checks (sbStall m c store accs) := by simp [sbStall]
@[simp] theorem rfinFinish_canon {m : Mach} (tid r : Nat) (pc : Word) (active : Mask) (w : Canon m) : Canon (rfinFinish m tid r pc active) := by
  unfold rfinFinish
  extract_lets was f before st
  have hf : Canon f := by simp [f, w]
  have hb : Canon before := by simp [before, w]
  have hy : Yields Canon (do sbStall f f.cur true (st.map (·.1)); plainStores f pc st : R Mach) :=
    Checks.bind (sbStall_checks ..) (plainStores_yields _ _ hf)
  split
  · next he => simpa using hy.of_ok he
  · exact takeTrap_canon _ _ hb
  · next e side he => exact takeTrap_canon _ _ (hy.of_error he _ hb)
  · next side he =>
    have hs : Canon (side m) := hy.of_error he m w
    simpa using hs
@[simp] theorem waitFinish_canon {m : Mach} (tid : Nat) (wt : Wait) (w : Canon m) : Canon (waitFinish m tid wt) := by
  unfold waitFinish
  split
  · exact w
  · split <;> simp [w]
@[simp] theorem park_canon {m : Mach} (tid : Nat) (wt : Wait) (w : Canon m) : Canon (park m tid wt) := by
  unfold park
  split
  · exact w
  · simp [w]
@[simp] theorem waitEventStep_canon {m : Mach} (tid : Nat) (w : Canon m) : Canon (waitEventStep m tid) := by
  unfold waitEventStep
  split
  · exact w
  · dsimp only
    split <;> simp [w]
@[simp] theorem waitPollStep_canon {m : Mach} (tid : Nat) (w : Canon m) : Canon (waitPollStep m tid) := by
  unfold waitPollStep
  split
  · exact w
  · split <;> simp [w]
@[simp] theorem taskEnds_canon {m : Mach} (tid : Nat) (w : Canon m) : Canon (taskEnds m tid) := by
  unfold taskEnds
  split <;> simp [w]

end Sys2Proof.Laws
end

section
/-! The issue of an instruction, its fetch, and the cycle around it keep memory in its canonical form. -/

namespace Sys2Proof.Laws

open Sys2Proof.Machine

/-! ### The checks before an instruction issues (R134, R139 to R142) -/

theorem checkShort_checks (m : Mach) (c : Crew) (x : Ctx) (e : Entry) : Checks (checkShort m c x e) := by
  unfold checkShort
  dsimp only
  split
  · simp
  · simp
  · split
    · simp
    · simp
theorem checkRange_checks (x : Ctx) (ls : List Nat) (r : Role) (o : Opd) (k : Crew) : Checks (checkRange x ls r o k) := by
  unfold checkRange
  dsimp only
  repeat' split
  all_goals simp
theorem checkTag_checks (ls : List Nat) (p : Nat × Role × Opd × Crew) : Checks (checkTag ls p) := by
  unfold checkTag
  dsimp only
  split
  · simp
  · split
    · simp
    · split <;> simp
theorem firstErr_checks {α : Type} {f : α → R Unit} (h : ∀ a, Checks (f a)) (l : List α) : Checks (firstErr f l) := by
  induction l with
  | nil => simp [firstErr]
  | cons a t ih =>
    unfold firstErr
    split
    · exact ih
    · next e he => exact (h a).of_error he
theorem redFits_checks (m : Mach) (c : Crew) (x : Ctx) (L : Nat) : Checks (redFits m c x L) := by
  unfold redFits
  dsimp only
  split
  · simp
  · split <;> simp
theorem bindFits_checks (c : Crew) (x : Ctx) : Checks (bindFits c x) := by
  unfold bindFits
  dsimp only
  split <;> simp
@[simp] theorem fieldFits_checks (o : Option Nat) : Checks (fieldFits o) := by cases o <;> simp [fieldFits]
theorem ownRange_checks (m : Mach) (c : Crew) (x : Ctx) (L : Nat) : Checks (ownRange m c x L) := by
  unfold ownRange
  split
  · exact redFits_checks ..
  · exact redFits_checks ..
  · exact redFits_checks ..
  · exact bindFits_checks ..
  · rw [checks_ite_eq]; split <;> simp only [checks_ok, fieldFits_checks]
  · rw [checks_ite_eq]; split <;> simp only [checks_ok, fieldFits_checks]
  · exact checks_ok _
theorem rangeCheck_checks (m : Mach) (c : Crew) (x : Ctx) (e : Entry) : Checks (rangeCheck m c x e) := by
  unfold rangeCheck
  refine firstErr_checks (fun L => ?_) _
  split
  · next h he => exact (firstErr_checks (fun p => checkRange_checks ..) _).of_error he
  · exact ownRange_checks ..
theorem preCheck_checks (m : Mach) (c : Crew) (x : Ctx) (e : Entry) : Checks (preCheck m c x e) := by
  unfold preCheck
  split
  · next h he => exact (checkShort_checks ..).of_error he
  · split
    · next h he => exact (rangeCheck_checks ..).of_error he
    · exact firstErr_checks (fun q => checkTag_checks ..) _

/-! ### Issue and halt -/

/-- The meaning of an instruction keeps the form where it completes, and where it halts. -/
def BodyCanon (body : Ctx → Mach → R Mach) : Prop := ∀ x m, Canon m → Yields Canon (body x m)

@[simp] theorem halted_canon {m : Mach} (tid : Nat) (pc : Word) {h : Halt} (hh : HaltCanon h) (w : Canon m) : Canon (halted m tid pc h) := by
  unfold halted
  split
  · simp [w]
  · next e side => simpa using takeTrap_canon _ _ (canon_of_mem (modCrew_mem ..) (hh m w))
  · next side =>
    have hp : Canon (side m) := hh m w
    dsimp only
    split
    · simpa using hp
    · have hc := commitHard_yields hp
      split
      · next he => simpa using hc.of_ok he
      · simp [w]
      · simp [w]
      · next he => simpa using hc.of_error he _ hp
  · next wt side _ =>
    have hp : Canon (side m) := hh m w
    simpa using hp

theorem issueAt_canon {body : Ctx → Mach → R Mach} (hb : BodyCanon body) {m : Mach} (pc : Word) (op : Nat) (f : Fields) (w : Canon m) :
    Canon (issueAt m pc op f body) := by
  unfold issueAt
  dsimp only
  split
  · simpa using w
  · split
    · next h he => exact halted_canon _ _ ((preCheck_checks ..).of_error he) w
    · have hy := hb (issueCtx m pc op f) (issued m pc op f) (canon_of_mem (issued_mem ..) w)
      split
      · next he => exact hy.of_ok he
      · next h he => exact halted_canon _ _ (hy.of_error he) w

/-- The next state of an outcome, where it has one, is canonical. -/
def Steps : Host.Outcome State Fault Refusal → Prop
  | .next t => Canon t.m
  | _ => True

@[simp] theorem steps_next (t : State) : Steps (.next t) = Canon t.m := rfl
@[simp] theorem steps_fault (r : Fault) : Steps (.fault r) := trivial
@[simp] theorem steps_refused (r : Refusal) : Steps (.refused r) := trivial

theorem runInstr_steps {body : Ctx → Mach → R Mach} (hb : BodyCanon body) (op : Nat) (f : Fields) {s : State} (w : Canon s.m) :
    Steps (runInstr op body f s) := by
  unfold runInstr
  split
  · trivial
  · split
    · exact takeTrap_canon _ _ w
    · exact issueAt_canon hb _ _ _ w
theorem runEvent_steps {g : Mach → Mach} (hg : KeepsCanon g) {s : State} (w : Canon s.m) : Steps (runEvent g s) := hg _ w

/-! ### Fetch and cycle (R280) -/

@[simp] theorem newCycle_canon {m : Mach} (n : Nat) (w : Canon m) : Canon (newCycle n m) := by
  have h : Canon (owedDrain { portsSend m with clk := m.clk + n }) := owedDrain_canon (canon_of_mem (portsSend_mem m) w)
  exact (fillAll_canon (putImages_canon (leaveAll_canon h)) : Canon _)

theorem fetchBytes_yields {m : Mach} (c : Crew) (pc : Word) (n : Nat) (w : Canon m) : Yields (fun p => Canon p.1) (fetchBytes m c pc n) := by
  have h := checkAll_yields (whoOf c) 4 false [{ lane := lowLane (activeLanes c), va := pc.toNat, size := 8 }] w
  unfold fetchBytes
  split
  · next e he => exact h.of_error he
  · next m1 oks he =>
    have hm : Canon m1 := h.of_ok he
    split
    · exact hm
    · exact hm
theorem fetchInstr_yields {m : Mach} (c : Crew) (pc : Word) (w : Canon m) : Yields (fun p => Canon p.1) (fetchInstr m c pc) := by
  have h := fetchBytes_yields c pc 8 w
  unfold fetchInstr
  split
  · next e he => exact h.of_error he
  · next m1 b he =>
    have hm : Canon m1 := h.of_ok he
    have h2 := fetchBytes_yields c (pc + 8) 8 hm
    split
    · split
      · simp
      · next e _ he2 => exact h2.of_error he2
      · next he2 =>
        have hm2 := h2.of_ok he2
        exact hm2
    · exact hm

theorem passHeader_canon {m : Mach} (pc : Word) (v : Nat) (w : Canon m) : Canon (passHeader m pc v) := by
  have go : ∀ (m : Mach) (k : Crew) (tid : Nat), Canon m → ∀ c : Bool, Canon (if c then preemptOut { m with cur := k } tid else { m with cur := k }) :=
    fun m k tid w c => canon_ite (preemptOut_canon _ w) w
  unfold passHeader
  dsimp only
  split
  · exact go _ _ _ w _
  · next t _ =>
    have h := fetchBytes_yields m.cur (w64 t) 8 w
    split
    · next e he => exact halted_canon _ _ (h.of_error he) w
    · next m1 b he =>
      have hm : Canon m1 := h.of_ok he
      split
      · exact go _ _ _ hm _
      · exact halted_canon _ _ (haltCanon_trapOf ..) w

/-- The machine of a turn is canonical. -/
def TurnCanon : Turned → Prop
  | .run _ m => Canon m
  | .done m => Canon m
  | .unscanned => True

theorem fetchTurn_canon (n : Nat) {m : Mach} (w : Canon m) : TurnCanon (fetchTurn n m) := by
  induction n generalizing m with
  | zero => exact w
  | succ n ih =>
    unfold fetchTurn
    split
    · exact w
    · next pc _ =>
      split
      · exact takeTrap_canon _ _ w
      · have h := fetchInstr_yields m.cur pc w
        split
        · next e he => exact halted_canon _ _ (h.of_error he) w
        · next m1 b he =>
          have hm : Canon m1 := h.of_ok he
          split
          · exact ih (passHeader_canon _ _ hm)
          · split
            · split
              · exact hm
              · trivial
            · trivial
theorem eventTurn_canon (i : Instr) {m : Mach} (w : Canon m) : TurnCanon (eventTurn i m) := by
  unfold eventTurn
  split
  · exact w
  · exact w

end Sys2Proof.Laws
end

section
/-! The instructions of the crew's own registers, of control, of the tile's cells and of the BTEs keep memory in its canonical form. -/

namespace Sys2Proof.Laws

open Sys2Proof.Machine

/-! ### Instructions that write the crew alone -/

/-- An instruction that writes the crew. -/
theorem yields_cur {m : Mach} (c : Crew) (w : Canon m) : Yields Canon (.ok { m with cur := c }) := w
theorem onCrew_canon (g : Ctx → Crew → Crew) : BodyCanon (onCrew g) := fun _ _ w => yields_cur _ w
theorem fpElems_canon (rm : Nat) (g : Nat → Nat → Nat → Nat → Nat → Nat × BitVec 5) : BodyCanon (fpElems rm g) := fun _ _ w => yields_cur _ w
theorem fpRound_canon (g : Nat → Nat → Nat → FV → FV → Ex × BitVec 5) : BodyCanon (fpRound g) := fun _ _ w => yields_cur _ w
theorem fpFun_canon (g : FV → Nat × BitVec 5) : BodyCanon (fpFun g) := fun _ _ w => yields_cur _ w
theorem ftoiBody_canon : BodyCanon ftoiBody := fun _ _ w => yields_cur _ w
theorem itofBody_canon : BodyCanon itofBody := fun _ _ w => yields_cur _ w
theorem fcvtBody_canon : BodyCanon fcvtBody := fun _ _ w => yields_ite (yields_cur _ w) (yields_cur _ w)
theorem fpackBody_canon : BodyCanon fpackBody := fun _ _ w => yields_cur _ w
theorem fdotBody_canon : BodyCanon fdotBody := fun _ _ w => yields_cur _ w
theorem quantBody_canon : BodyCanon quantBody := fun _ _ w => yields_cur _ w
theorem dquantBody_canon : BodyCanon dquantBody := fun _ _ w => yields_cur _ w
theorem tagsetBody_canon : BodyCanon tagsetBody := fun _ _ w => yields_ite trivial (yields_cur _ w)

/-! ### Control (R308 to R317) -/

theorem targetBad_halt {m : Mach} {entry : Bool} {e : Nat × Word} {h : Halt} (he : targetBad m entry e = some h) : HaltCanon h := by
  unfold targetBad at he
  split at he
  · cases he; trivial
  · split at he
    · dsimp only at he
      split at he
      · cases he; trivial
      · cases he
    · cases he
theorem checkTargets_yields {m : Mach} (x : Ctx) (reg entry : Bool) (ts : List (Nat × Word)) (w : Canon m) : Yields Canon (checkTargets m x reg entry ts) := by
  unfold checkTargets
  extract_lets us m1
  have h1 : Canon m1 := foldl_canon (fun _ _ w => demandPage_canon _ _ _ w) _ w
  clear_value m1
  split
  · next h hf =>
    obtain ⟨t, _, ht⟩ := List.exists_of_findSome?_eq_some hf
    exact targetBad_halt ht
  · have hc := checkAll_yields (whoOf m1.cur) 4 false (us.map (fun t => { lane := t.1, va := t.2.toNat, size := 8 })) h1
    split
    · next he => exact hc.of_ok he
    · next he => exact hc.of_error he
theorem transfer_canon (reg entry : Bool) (link : Ctx → Crew → Crew) (ts : Ctx → List (Nat × Word)) (goes : Ctx → Nat → Bool) :
    BodyCanon (transfer reg entry link ts goes) := by
  intro x m w
  have h := checkTargets_yields x reg entry (ts x) w
  unfold transfer
  split
  · next he => exact h.of_error he
  · next m1 he => exact yields_cur _ (h.of_ok he)
theorem exitBody_canon : BodyCanon exitBody := by
  intro x m w
  unfold exitBody
  extract_lets c m1
  have h1 : Canon m1 := w
  clear_value m1
  split
  · split
    · next he => exact (commit_yields h1).of_error he
    · next he => exact taskEnds_canon _ ((commit_yields h1).of_ok he)
  · exact h1
theorem yieldBody_canon : BodyCanon yieldBody := fun _ _ w => yields_ite (preemptOut_canon _ w) (yields_cur _ w)

/-! ### BTEs (R413 to R419) -/

/-- Every machine of what reading a command's source comes to is canonical. -/
def BteCanon : BteSrc → Prop
  | .rows _ m => Canon m
  | .bad => True
  | .later m => Canon m

theorem bteRead_canon (w : Who) (t : List Byte) (cell : Option Cell) (rows : List (Int × Int)) {m : Mach} (hm : Canon m) : BteCanon (bteRead w t cell rows m) := by
  induction rows generalizing m with
  | nil => exact hm
  | cons r rest ih =>
    unfold bteRead
    extract_lets len row
    have hr : FetchCanon row := by
      unfold row
      split
      · split
        · trivial
        · exact hm
      · exact engineBytes_canon _ _ _ hm
    clear_value row
    split
    · next bs m1 =>
      have hrest := ih (m := m1) hr
      split
      · next l m2 he => rw [he] at hrest; exact hrest
      · exact hrest
    · exact hr
    · trivial
theorem bteWrite_canon {f : Mach → Int → List Byte → Mach × Bool} (hf : ∀ m d bs, Canon m → Canon (f m d bs).1) (l : List (Int × List Byte)) {m : Mach}
    (w : Canon m) : Canon (bteWrite f l m).1 := by
  induction l generalizing m with
  | nil => exact w
  | cons r rest ih =>
    have h := hf m r.1 r.2 w
    unfold bteWrite
    split
    · next he => rw [he] at h; exact ih h
    · next he => rw [he] at h; exact h
@[simp] theorem bteStart_canon {m : Mach} (die ch : Nat) (uncorr : Bool) (w : Canon m) : Canon (bteStart m die ch uncorr).1 := by
  unfold bteStart
  split
  · exact w
  · next k _ _ =>
    extract_lets t who tile fail sw src dst dstWaits ranges held put
    have hfail : ∀ m, Canon m → Canon (fail m).1 := fun m w => canon_of_mem (bteCopied_mem ..) w
    clear_value fail src dst dstWaits held
    refine canon_fst_ite w ?_
    split
    · exact hfail m w
    · exact hfail m w
    · next cell _ =>
      refine canon_fst_ite w (canon_fst_ite (snoopSide_canon _ w) (canon_fst_ite (canon_of_mem (dueOnce_mem ..) w)
        (canon_fst_ite (hfail _ (canon_of_mem (monCount_mem ..) w)) ?_)))
      have hr := bteRead_canon who t cell (bteRows t k.arg) w
      split
      · exact hfail m w
      · next m1 he =>
        rw [he] at hr
        exact canon_of_mem (dueOnce_mem ..) hr
      · next rows m1 he =>
        rw [he] at hr
        have hr : Canon m1 := hr
        split
        · exact canon_of_mem (bteCopied_mem ..) (bteWrite_canon (fun _ _ _ w => engineWrite_canon _ _ _ w) _ hr)
        · exact canon_fst_ite (hfail _ hr) (canon_of_mem (bteCopied_mem ..) (canon_of_mem (cellMod_mem ..) hr))
        · exact canon_of_mem (bteCopied_mem ..) (canon_of_mem (peerSend_mem ..) hr)
        · extract_lets r m2
          have h2 : Canon r.1 := foldl_fst_canon (fun p c hp => canon_fst_ite hp (by
            split
            · exact hp
            · exact bteWrite_canon (fun _ _ _ w => engineWrite_canon _ _ _ w) _ hp)) _ hr
          clear_value r
          refine canon_fst_ite (hfail _ h2) (canon_of_mem (bteCopied_mem ..) (foldl_canon (fun m c w => ?_) _ h2))
          simpa using w
        · exact hfail _ hr
@[simp] theorem bteStamp_canon {m : Mach} (die ch : Nat) (w : Canon m) : Canon (bteStamp m die ch).1 := by
  unfold bteStamp
  split
  · exact w
  · next k rest _ =>
    refine canon_fst_ite w (canon_fst_ite w (canon_fst_ite (snoopSide_canon _ w) (canon_fst_ite (canon_of_mem (dueOnce_mem ..) w) ?_)))
    split
    next m1 done he =>
    have h1 : Canon m1 := canon_of_fst he (by
      split
      · exact canon_of_mem (vftSend_mem ..) w
      · exact engineWrite_canon _ _ _ w)
    refine canon_of_mem (bteKick_mem ..) (canon_of_mem (leeRelease_mem ..) (canon_of_mem (modCore_mem ..) (canon_of_mem (chanSet_mem ..) ?_)))
    exact canon_ite h1 (canon_of_mem (monCount_mem ..) h1)
theorem bteAccept_yields {m : Mach} (pc : Word) (va data : Nat) (w : Canon m) : Yields Canon (bteAccept pc va data m) := by
  unfold bteAccept
  dsimp only
  split
  · trivial
  · split
    · simp
    · simp [w]

end Sys2Proof.Laws
end

section
/-! The instructions of cells, collectives, groups and the matrix engine keep memory in its canonical form. -/

namespace Sys2Proof.Laws

open Sys2Proof.Machine

/-! ### Cells (R363, R364) -/

theorem cellArg_yields (m : Mach) (x : Ctx) (kind : Nat) : Yields (fun _ => True) (cellArg m x kind) := yields_ite trivial trivial
theorem keepsCanon_cellWaitSide (die cell : Nat) (e : Nat × Bool) (rel : Bool) : KeepsCanon (cellWaitSide die cell e rel) := by
  intro m w
  unfold cellWaitSide
  extract_lets m1 x m2 y
  have h1 : Canon m1 := canon_ite (keepsCanon_commit m w) w
  exact canon_ite h1 (canon_of_mem (cellSet_mem ..) (canon_of_mem (unqueue_mem ..) h1))
theorem tfillBody_canon : BodyCanon tfillBody := by
  intro x m w
  refine Yields.bind (cellArg_yields ..) (fun ⟨die, cell⟩ _ => Yields.bind (commit_yields w) (fun m1 h1 => ?_))
  exact yields_ite (canon_of_mem (cellMod_mem ..) (canon_of_mem (unqueue_mem ..) h1)) (keepsCanon_cellWaitSide _ _ _ _)
theorem tdrainBody_canon : BodyCanon tdrainBody := by
  intro x m w
  refine Yields.bind (cellArg_yields ..) (fun ⟨die, cell⟩ _ => ?_)
  exact yields_ite (canon_of_mem (cellMod_mem ..) (canon_of_mem (unqueue_mem ..) w)) (keepsCanon_cellWaitSide _ _ _ _)
theorem twaitBody_canon : BodyCanon twaitBody := fun _ _ w =>
  Yields.bind (cellArg_yields ..) (fun ⟨_, _⟩ _ => park_canon _ _ w)
theorem tstatBody_canon : BodyCanon tstatBody := fun _ _ w =>
  Yields.bind (cellArg_yields ..) (fun ⟨_, _⟩ _ => yields_cur _ w)
@[simp] theorem cellServeCrew_canon {m : Mach} (tid : Nat) (w : Canon m) : Canon (cellServeCrew m tid) := by
  have hf : Canon (m.focus tid) := canon_of_mem (focus_mem ..) w
  unfold cellServeCrew
  extract_lets was f
  split
  · exact w
  · next pc _ =>
    have hi := fetchInstr_yields f.cur pc hf
    split
    · exact w
    · next f1 b he =>
      have h1 : Canon f1 := hi.of_ok he
      split
      · exact canon_of_mem (focus_mem ..) (issueAt_canon tfillBody_canon _ _ _ h1)
      · exact canon_of_mem (focus_mem ..) (issueAt_canon tdrainBody_canon _ _ _ h1)
      · exact w
@[simp] theorem cellServe_canon {m : Mach} (die cell : Nat) (w : Canon m) : Canon (cellServe m die cell) := by
  refine foldl_canon (fun m x w => ?_) _ w
  dsimp only
  split
  · exact cellServeCrew_canon _ w
  · exact foldl_canon (fun m e w => bteStart_canon _ _ _ w) _ w

/-! ### Collectives (R420 to R426) -/

@[simp] theorem collFinish_canon {m : Mach} (job : Nat) (key : Word) (err : Bool) (w : Canon m) : Canon (collFinish m job key err) := by
  unfold collFinish
  split
  · exact w
  · next x _ =>
    extract_lets mine die who size st held m1 vals put r st' m2
    have h1 : Canon m1 := w
    have hr : Canon r.1 := by
      unfold r
      split
      · exact foldl_fst_canon (f := put) (fun p c hp => engineWrite_canon _ _ _ hp) _ h1
      · exact h1
    clear_value r
    have h2 : Canon m2 := canon_of_mem (bteReleased_mem ..) (foldl_canon (fun _ _ w => canon_of_mem (ticketDone_mem ..) w) _ hr)
    clear_value m2
    refine canon_ite (snoopSide_canon _ w) (canon_ite (canon_of_mem (dueOnce_mem ..) w) (canon_ite ?_ h2))
    exact foldl_canon (fun _ _ w => canon_of_mem (resultSend_mem ..) w) _ h2

/-! ### Groups (R365 to R372) -/

theorem gjoinBody_canon : BodyCanon gjoinBody := by
  intro x m w
  unfold gjoinBody
  extract_lets a name key
  split
  · exact yields_cur _ w
  · have h := groupMake_mem m m.cur.job name
    split
    next g m1 he =>
    have h1 : Canon m1 := canon_of_mem (by rw [he] at h; exact h) w
    extract_lets k m2 phase
    have h2 : Canon m2 := by
      unfold m2
      split
      · exact canon_of_mem (setGroup_mem ..) h1
      · exact h1
    exact yields_cur _ h2
theorem gleaveBody_canon : BodyCanon gleaveBody := by
  intro x m w
  refine yields_ite w ?_
  have h : Canon { m with cur := putHandle m.cur x.f.d (hSetLeave (handleOf m.cur x.f.d)) } := w
  exact canon_ite h (canon_of_mem (memberStop_mem ..) h)
theorem arrive_yields {m : Mach} (x : Ctx) (con : Part) (w : Canon m) : Yields (fun p => Canon p.2) (arrive x m con) := by
  refine Yields.bind (commit_yields w) (fun m1 h1 => ?_)
  split
  · next r he => exact canon_of_mem (arriveAt_mem he) h1
  · exact keepsCanon_commit
theorem garrBody_canon : BodyCanon garrBody := fun _ _ w =>
  Yields.bind (arrive_yields _ _ w) (fun ⟨_, _⟩ h => canon_of_mem (groupTidy_mem ..) h)
theorem gwaitBody_canon : BodyCanon gwaitBody := fun _ _ w => park_canon _ _ w
theorem arriveWait_yields {m : Mach} (x : Ctx) (con : Part) (act : GroupAct) (w : Canon m) : Yields Canon (arriveWait x m con act) :=
  Yields.bind (arrive_yields _ _ w) (fun ⟨_, _⟩ h => park_canon _ _ h)
theorem gbarBody_canon : BodyCanon gbarBody := fun _ _ w => arriveWait_yields _ _ _ w
theorem gvoteBody_canon : BodyCanon gvoteBody := fun _ _ w => arriveWait_yields _ _ _ w
theorem gredBody_canon : BodyCanon gredBody := fun _ _ w => arriveWait_yields _ _ _ w
theorem gstatBody_canon : BodyCanon gstatBody := by
  intro x m w
  unfold gstatBody
  dsimp only
  split
  · exact yields_cur _ w
  · exact canon_ite (canon_of_mem (setGroup_mem ..) w) w
theorem gfindBody_canon : BodyCanon gfindBody := fun _ _ w => yields_cur _ w

/-! ### The matrix engine (R401 to R412) -/

theorem matrixCore_checks (x : Ctx) (m : Mach) : Checks (matrixCore x m) := checks_ite trivial trivial
theorem sbRoom_checks (m : Mach) (core : Nat) (rs : List SbRange) (n : Nat) : Checks (sbRoom m core rs n) := checks_ite keepsCanon_id trivial
theorem accFree_checks (m : Mach) (a : Nat) : Checks (accFree m a) := checks_ite trivial trivial
theorem loadIssue_yields {m : Mach} (pc : Word) (lane : Nat) (desc : List Byte) (w : Canon m) : Yields (fun p => Canon p.2) (loadIssue pc lane desc m) := by
  unfold loadIssue
  extract_lets d pages first
  have hc := checkAll_yields (whoOf m.cur) 1 true pages w
  split
  · exact Yields.bind_ite (hc.map (Q := Canon) fun _ h => h) w (fun _ _ => trivial)
  · refine Yields.bind hc (fun ⟨m1, oks⟩ h1 => Checks.bind (sbRoom_checks ..) ?_)
    simpa using h1
theorem mldbBody_canon : BodyCanon mldbBody := by
  intro x m w
  refine Checks.bind (matrixCore_checks ..) (Yields.bind (loadIssue_yields _ _ _ w) (fun ⟨_, _⟩ _ => ?_))
  exact Yields.bind (leeAsk_yields _ _ w) (fun m1 h1 => Yields.bind (loadIssue_yields _ _ _ h1) (fun ⟨_, _⟩ h => h))
theorem mmasBody_canon : BodyCanon mmasBody := by
  intro x m w
  refine Checks.bind (matrixCore_checks ..) ?_
  extract_lets pb d regs old seen win closed queue
  have hq : ∀ p, Canon p.2 → Yields Canon (queue p) := by
    intro ⟨load, m3⟩ h3
    simpa [queue] using h3
  split
  · trivial
  · split
    · trivial
    · refine Yields.bind_ite (loadIssue_yields _ _ _ w) w (fun ⟨_, m1⟩ h1 => ?_)
      refine Checks.bind (sbRoom_checks ..) (yields_ite (fun _ h => h) ?_)
      exact Yields.bind (leeAsk_yields _ _ w) (fun m2 h2 => Yields.bind_ite (loadIssue_yields _ _ _ h2) h2 hq)
theorem mcommitBody_canon : BodyCanon mcommitBody := fun _ _ w => Checks.bind (matrixCore_checks ..) (yields_cur _ w)
theorem mwaitBody_canon : BodyCanon mwaitBody := fun _ _ w =>
  Checks.bind (matrixCore_checks ..) (yields_ite w (fun _ h => h))
theorem mrdBody_canon : BodyCanon mrdBody := fun _ _ w =>
  Checks.bind (matrixCore_checks ..) (Checks.bind (accFree_checks ..) (Checks.bind (sbRoom_checks ..) (yields_cur _ w)))
theorem mwrBody_canon : BodyCanon mwrBody := fun _ _ w =>
  Checks.bind (matrixCore_checks ..) (Checks.bind (accFree_checks ..) (Checks.bind (sbRoom_checks ..) (yields_cur _ w)))
theorem mzeroBody_canon : BodyCanon mzeroBody := fun _ _ w =>
  Checks.bind (matrixCore_checks ..) (Checks.bind (accFree_checks ..) (yields_cur _ w))
theorem mstatBody_canon : BodyCanon mstatBody := fun _ _ w => Checks.bind (matrixCore_checks ..) (yields_cur _ w)
@[simp] theorem loadRetire_canon {m : Mach} (core : Nat) (err : Option Nat) (w : Canon m) : Canon (loadRetire m core err) := by
  unfold loadRetire
  split
  · exact canon_ite (snoopSide_canon _ w) (canon_ite (canon_of_mem (dueOnce_mem ..) w) (loadDone_canon _ _ w))
  · exact w

end Sys2Proof.Laws
end

section
/-! The memory instructions keep memory in its canonical form (R347 to R362). -/

namespace Sys2Proof.Laws

open Sys2Proof.Machine

/-! ### Loads -/

theorem indexCheck_checks (x : Ctx) (ls : List Nat) : Checks (indexCheck x ls) := by
  unfold indexCheck
  split
  · dsimp only
    split
    · trivial
    · split <;> trivial
  · trivial
theorem apPieces_checks (x : Ctx) (op align : Nat) (oks : List Ok) (m : Mach) : Checks (apPieces x op align oks m) := by
  unfold apPieces
  extract_lets aps unasked
  refine checks_ite ?_ (checks_ite keepsCanon_id ?_)
  · exact fun m0 w => foldl_canon (fun m o w => canon_of_mem (apAsk_mem ..) w) _ w
  · split
    · exact fun m w => canon_of_mem (apUsed_mem m op) w
    · trivial
theorem raceRead_yields {m : Mach} (job : Nat) (oks : List Ok) (w : Canon m) : Yields Canon (raceRead m job oks) := by
  refine yields_ite (raceCheck_yields _ _ w) ?_
  split
  · exact w
  · split
    · next h hf =>
      obtain ⟨o, _, ho⟩ := List.exists_of_findSome?_eq_some hf
      obtain ⟨r, _, rfl⟩ := Option.map_eq_some_iff.mp ho
      trivial
    · exact w
theorem loadRecord_yields {m : Mach} (x : Ctx) (who : Who) (va n align : Nat) (w : Canon m) :
    Yields (fun p => Canon p.1) (loadRecord m x who va n align) := by
  unfold loadRecord
  refine Yields.bind_ite (P := fun _ => True) (sbStall_checks ..) trivial (fun _ _ => ?_)
  refine Yields.bind (checkAll_yields _ _ _ _ w) (fun ⟨m1, oks⟩ h1 => Yields.bind (raceRead_yields _ _ h1) (fun m2 h2 => ?_))
  exact Checks.bind (viewCheck_checks ..) (Checks.bind (apPieces_checks ..) (canon_of_mem (apUsed_mem ..) h2))
theorem uniformLoad_yields {m : Mach} (x : Ctx) (va n align : Nat) (w : Canon m) : Yields (fun p => Canon p.1) (uniformLoad m x va n align) :=
  loadRecord_yields _ _ _ _ _ w
theorem ldBody_canon : BodyCanon ldBody := by
  intro x m w
  refine Checks.bind (indexCheck_checks ..) (Checks.bind (sbStall_checks ..) (Yields.bind (checkAll_yields _ _ _ _ w) (fun ⟨m1, oks⟩ h1 => ?_)))
  refine Yields.bind_ite (P := Canon) h1 (raceCheck_yields _ _ h1) (fun m2 h2 => Checks.bind (viewCheck_checks ..) ?_)
  refine Yields.bind_ite (commitOwns_yields _ h2) h2 (fun m3 h3 => canon_of_mem (apWait_mem ..) ?_)
  have h4 : Canon (oks.foldl (fun m o => if isAperture o.pa then m.send (.apRead (o.pa - apBase) (tySize x.y)) else m) m3) :=
    foldl_canon (fun m o w => by simp [w]) _ h3
  exact h4

/-! ### Stores and read-modify-writes -/

theorem storeWaits_checks (m : Mach) (i : StItem) (o : Ok) : Checks (storeWaits m i o) :=
  Checks.bind (sbStall_checks ..) (checks_ite (keepsCanon_queueAt _) trivial)
theorem storeItem_yields {m : Mach} (rel : Bool) (pc : Word) (i : StItem) (w : Canon m) : Yields Canon (storeItem rel pc i m) := by
  unfold storeItem
  split
  · exact bteAccept_yields _ _ _ w
  · split
    · next he => exact (storeWaits_checks ..).of_error he
    · exact yields_ite (commitRun_canon _ _ w) (doStore_yields _ _ _ w)
theorem storeItems_yields (rel : Bool) (pc : Word) (items : List StItem) (k : Nat) {m : Mach} (w : Canon m) : Yields Canon (storeItems rel pc k items m) := by
  induction items generalizing k m with
  | nil => exact w
  | cons i t ih =>
    have hi := storeItem_yields rel pc i w
    unfold storeItems
    split
    · next he => exact ih _ (hi.of_ok he)
    · next r side he =>
      have hs : KeepsCanon side := hi.of_error he
      exact fun b _ => canon_of_mem (partSide_mem ..) (hs m w)
    · next he => exact hi.of_error he
theorem stBody_canon : BodyCanon stBody := by
  intro x m w
  refine Checks.bind (indexCheck_checks ..) ?_
  dsimp only
  split
  · trivial
  · refine Checks.bind (sbStall_checks ..) (Yields.bind (checkAll_yields _ _ _ _ w) (fun ⟨m1, oks⟩ h1 => ?_))
    refine Yields.bind_ite (P := Canon) h1 (raceCheck_yields _ _ h1) (fun m2 h2 => Yields.bind (leeAsk_yields _ _ h2) (fun m3 h3 => ?_))
    exact Yields.bind_ite (commit_yields h3) h3 (fun m4 h4 => storeItems_yields _ _ _ _ h4)
@[simp] theorem rmwLanes_canon (size : Nat) (f : Nat → Nat → Option Nat) (apOut : Nat → Ok → Out) (oks : List Ok) {m : Mach} (w : Canon m) :
    Canon (rmwLanes size f apOut oks m).2 := by
  induction oks generalizing m with
  | nil => exact w
  | cons o t ih =>
    refine ih (canon_snd_ite w ?_)
    · dsimp only
      split
      · exact commitRun_canon _ _ w
      · exact w
theorem rmw_yields {m : Mach} (x : Ctx) (ls : List Nat) (rel ap : Bool) (f : Nat → Nat → Option Nat) (apOut : Nat → Ok → Out) (w : Canon m) :
    Yields (fun p => Canon p.2.2) (rmw x ls rel ap f apOut m) := by
  refine Checks.bind (sbStall_checks ..) (Checks.bind (sbStall_checks ..) (Yields.bind (checkAll_yields _ _ _ _ w) (fun ⟨m1, oks⟩ h1 => ?_)))
  refine Yields.bind_ite (commit_yields h1) h1 (fun m2 h2 => Yields.bind (commitOwns_yields _ h2) (fun m3 h3 => ?_))
  exact rmwLanes_canon _ _ _ _ h3
theorem atomBody_canon : BodyCanon atomBody := fun _ _ w =>
  Yields.bind (rmw_yields _ _ _ _ _ _ w) (fun ⟨_, _, _⟩ h => canon_of_mem (rmwPut_mem ..) h)
theorem redBody_canon : BodyCanon redBody := fun _ _ w => Yields.bind (rmw_yields _ _ _ _ _ _ w) (fun ⟨_, _, _⟩ h => h)
theorem casBody_canon : BodyCanon casBody := fun _ _ w =>
  Yields.bind (rmw_yields _ _ _ _ _ _ w) (fun ⟨_, _, _⟩ h => canon_of_mem (rmwPut_mem ..) h)
theorem fenceBody_canon : BodyCanon (fun x m => if 2 ≤ x.f.ord.toNat then commit m else .ok m) := fun _ _ w => yields_ite (commit_yields w) w

/-! ### Monitors and caches -/

theorem monarmBody_canon : BodyCanon monarmBody := fun _ _ w => Yields.bind (checkAll_yields _ _ _ _ w) (fun ⟨_, _⟩ h => h)
theorem monwaitBody_canon : BodyCanon monwaitBody := fun _ _ w => yields_ite w (park_canon _ _ w)
theorem prefBody_canon : BodyCanon prefBody := by
  refine fun x m w => foldl_canon (fun m L w => ?_) _ w
  dsimp only
  split
  · next o _ =>
    have h := fillTlb_canon (whoOf m.cur).core (whoOf m.cur).job o.acc.va false w
    refine canon_ite ?_ (touchLine_canon _ _ _ ?_)
    · exact fillTlb_canon _ _ _ _ w
    · exact fillTlb_canon _ _ _ _ w
  · exact w
@[simp] theorem cleanLine_canon {m : Mach} (inval : Bool) (mode line : Nat) (w : Canon m) : Canon (cleanLine inval mode m line) :=
  canon_ite w (canon_ite (fireMonitors_canon _ (evictLine_canon _ w)) (canon_of_mem (cleanDram_mem ..) w))
theorem cleanPages_yields (inval : Bool) (mode : Nat) (who : Who) (last : Nat) (l : List Acc) {before : Mach → Mach} (hb : KeepsCanon before) {m : Mach}
    (w : Canon m) : Yields Canon (cleanPages inval mode who last before l m) := by
  induction l generalizing before m with
  | nil => exact w
  | cons a t ih =>
    have hc := checkAll_yields who 1 true [a] w
    unfold cleanPages
    refine yields_ite (ih hb w) ?_
    split
    · exact hb
    · next he => exact hc.of_error he
    · next m1 oks he =>
      have h1 : Canon m1 := hc.of_ok he
      extract_lets act
      have ha : KeepsCanon act := fun m w => foldl_canon (fun _ _ w => cleanLine_canon _ _ _ w) _ w
      exact yields_ite (fun m w => canon_of_mem (queueAt_mem ..) (hb m w)) (ih (fun m w => ha _ (hb m w)) (ha _ h1))
theorem cacheBody_canon (inval : Bool) : BodyCanon (cacheBody inval) := fun _ _ w => yields_ite w (cleanPages_yields _ _ _ _ _ keepsCanon_id w)
theorem cbloadBody_canon : BodyCanon cbloadBody := by
  intro x m w
  unfold cbloadBody
  dsimp only
  split
  · exact yields_cur _ w
  · exact Yields.bind (uniformLoad_yields _ _ _ _ w) (fun ⟨_, _⟩ h => h)

end Sys2Proof.Laws
end

section
/-! The instructions of views, templates, gathers, collectives and landing areas keep memory in its canonical form. -/

namespace Sys2Proof.Laws

open Sys2Proof.Machine

/-- An instruction that answers with a value. -/
theorem yields_putI64 {m : Mach} (x : Ctx) (v : Word) (w : Canon m) : Yields Canon (.ok (putI64 x v m)) := canon_of_mem (putI64_mem ..) w

/-! ### Views (R387, R430 to R435) -/

theorem vwregBody_canon : BodyCanon vwregBody := by
  intro x m w
  refine Yields.bind (uniformLoad_yields _ _ _ _ w) (fun ⟨m1, b⟩ h => ?_)
  refine yields_ite (yields_putI64 _ _ h) ?_
  split
  · exact yields_putI64 _ _ h
  · refine yields_ite (yields_putI64 _ _ h) ?_
    split
    · exact yields_putI64 _ _ h
    · exact yields_putI64 _ _ (canon_of_mem (modDie_mem ..) h)
theorem vwaddBody_canon : BodyCanon vwaddBody := by
  intro x m w
  refine Yields.bind (uniformLoad_yields _ _ _ _ w) (fun ⟨m1, b⟩ h => ?_)
  dsimp only
  split
  · exact yields_putI64 _ _ h
  · refine yields_ite (yields_putI64 _ _ h) ?_
    split
    · exact yields_putI64 _ _ h
    · exact yields_ite (yields_putI64 _ _ h) (yields_putI64 _ _ (canon_of_mem (touchBlocks_mem ..) (canon_of_mem (setMaster_mem ..) h)))
theorem vwdropBody_canon : BodyCanon vwdropBody := by
  intro x m w
  refine yields_ite ?_ ?_
  · split
    · exact yields_putI64 _ _ w
    · exact yields_putI64 _ _ (canon_of_mem (setMaster_mem ..) w)
  · split
    · exact yields_putI64 _ _ w
    · exact yields_putI64 _ _ (canon_of_mem (modDie_mem ..) w)
theorem vwsyncBody_canon : BodyCanon vwsyncBody := by
  intro x m w
  unfold vwsyncBody
  extract_lets id named
  clear_value named
  split
  · exact yields_putI64 _ _ w
  · refine yields_ite (fun m w => ?_) (yields_putI64 _ _ (viewUntil_canon _ _ _ w))
    exact viewUntil_canon _ _ _ w
theorem vwverBody_canon : BodyCanon vwverBody := by
  intro x m w
  unfold vwverBody
  dsimp only
  split
  · exact yields_putI64 _ _ w
  · exact yields_ite (yields_putI64 _ _ w) (yields_ite (yields_putI64 _ _ w) (yields_putI64 _ _ w))
theorem vwpolBody_canon : BodyCanon vwpolBody := by
  intro x m w
  unfold vwpolBody
  dsimp only
  split
  · exact yields_putI64 _ _ w
  · exact yields_ite (yields_putI64 _ _ w) (yields_putI64 _ _ (canon_of_mem (setMaster_mem ..) w))
theorem vwtouchBody_canon : BodyCanon vwtouchBody := by
  intro x m w
  unfold vwtouchBody
  dsimp only
  split
  · exact yields_putI64 _ _ w
  · exact yields_ite (yields_putI64 _ _ w) (yields_putI64 _ _ (canon_of_mem (touchBlocks_mem ..) w))

/-! ### Templates, gathers and landing areas -/

theorem btmplBody_canon : BodyCanon btmplBody := fun _ _ w =>
  Yields.bind (uniformLoad_yields _ _ _ _ w) (fun ⟨_, _⟩ h =>
    yields_ite (yields_putI64 _ _ h) (yields_ite (yields_putI64 _ _ h) (yields_putI64 _ _ (canon_of_mem (modLaunch_mem ..) h))))
theorem gathBody_canon : BodyCanon gathBody := by
  intro x m w
  refine Yields.bind (checkAll_yields _ _ _ _ w) (fun ⟨m1, oks⟩ h => Checks.bind (viewCheck_checks ..) (Checks.bind (sbRoom_checks ..) ?_))
  simpa using h
@[simp] theorem gathRetire_canon {m : Mach} (core : Nat) (err : Option Nat) (w : Canon m) : Canon (gathRetire m core err) := by
  unfold gathRetire
  split
  · exact w
  · next g rest _ =>
    extract_lets lines held fin
    have hf : KeepsCanon fin := keepsCanon_of_mem (fun m => by simp [fin])
    clear_value fin
    have hh := gathHost_mem m g
    split
    next m1 here he =>
    rw [he] at hh
    have h1 : Canon m1 := canon_of_mem hh w
    refine canon_ite (snoopSide_canon _ h1) (canon_ite h1 (canon_ite (canon_of_mem (dueOnce_mem ..) h1) ?_))
    split
    · exact hf _ (canon_of_mem (modCrew_mem ..) h1)
    · exact hf _ (canon_of_mem (modCrew_mem ..) (foldl_canon (fun _ _ w => canon_of_mem (gathRow_mem ..) w) _ h1))
theorem lbaseBody_canon : BodyCanon lbaseBody := by
  intro x m w
  unfold lbaseBody
  dsimp only
  split
  · exact canon_ite (canon_of_mem (putI64_mem ..) w) (canon_of_mem (putI64_mem ..) (canon_of_mem (modCore_mem ..) w))
  · exact yields_ite (yields_putI64 _ _ w) (yields_putI64 _ _ (canon_of_mem (modCore_mem ..) w))
theorem bqueryBody_canon : BodyCanon bqueryBody := fun _ _ w => yields_putI64 _ _ w
@[simp] theorem landingStep_canon {m : Mach} (w : Canon m) : Canon (landingStep m) := by
  unfold landingStep
  extract_lets try1 m1
  have ht : ∀ core m', try1 core = some m' → Canon m' := by
    intro core m' e
    dsimp only [try1] at e
    split at e
    · cases e
    · next chan op rest _ =>
      obtain ⟨m2, h2, rfl⟩ := Option.map_eq_some_iff.mp e
      have hc : Canon m2 := by
        have hg : ∀ f, Canon (m.modCore core f) := fun f => canon_of_mem (modCore_mem ..) w
        split at h2
        · cases h2; exact hg _
        · split at h2
          · cases h2; exact hg _
          · obtain ⟨r, hr, rfl⟩ := Option.map_eq_some_iff.mp h2
            exact canon_of_mem (groupTidy_mem ..) (canon_of_mem (arriveAt_mem hr) (hg _))
      split
      · exact canon_ite (canon_ite (canon_of_mem (bteKick_mem ..) (canon_of_mem (headMod_mem ..) hc)) (canon_of_mem (headMod_mem ..) hc)) hc
      · exact hc
  have h1 : Canon m1 := getD_canon (fun m' e => by
    obtain ⟨a, _, ha⟩ := List.exists_of_findSome?_eq_some e
    exact ht _ _ ha) w
  exact canon_ite (canon_of_mem (dueOnce_mem ..) h1) h1

/-! ### Collectives (R420 to R426) -/

theorem cwaitBody_canon : BodyCanon cwaitBody := fun _ _ w => yields_ite (park_canon _ _ w) (yields_putI64 _ _ w)
/-- A contribution that combines here, goes to the owner, or meets no domain. -/
theorem yields_contribution {m : Mach} (noDom here arrival : Bool) (job : Nat) (d : CollDesc) (p : Contrib) (w : Canon m) :
    Yields Canon (if noDom then .ok m else if here then .ok (collArrive m job arrival d p) else .ok (collSend m job arrival d p)) :=
  yields_ite w (yields_ite (canon_of_mem (collArrive_mem ..) w) (canon_of_mem (collSend_mem ..) w))
theorem collBody_canon (arrival : Bool) : BodyCanon (collBody arrival) := by
  intro x m w
  refine Yields.bind (uniformLoad_yields _ _ _ _ w) (fun ⟨m1, b⟩ h1 => ?_)
  dsimp -zeta only
  split
  · trivial
  · extract_lets d size len buf
    refine Yields.bind (checkAll_yields _ _ _ _ h1) (fun ⟨m2, _⟩ h2 => Yields.bind (checkAll_yields _ _ _ _ h2) (fun ⟨m3, _⟩ h3 => ?_))
    refine Checks.bind (sbRoom_checks ..) (yields_ite keepsCanon_id (yields_ite (keepsCanon_snoopSide _) (yields_ite (keepsCanon_queueAt _) ?_)))
    have hg := engineBytes_canon { core := 352 + dieOf m3.cur.core, job := m3.cur.job, sup := false, op := crewOp m3.cur } len d.sbuf h3
    dsimp only at hg ⊢
    generalize engineBytes _ len m3 d.sbuf = got at hg ⊢
    cases got with
    | data bs m4 => exact yields_contribution _ _ _ _ _ _ (canon_of_mem (apUsed_mem m4 (crewOp m3.cur)) hg)
    | fault => exact yields_contribution _ _ _ _ _ _ (canon_of_mem (apUsed_mem m3 (crewOp m3.cur)) h3)
    | stale h => exact yields_contribution _ _ _ _ _ _ (canon_of_mem (apUsed_mem m3 (crewOp m3.cur)) h3)
    | later m4 =>
      intro m0 w0
      have hb := engineBytes_canon { core := 352 + dieOf m3.cur.core, job := m3.cur.job, sup := false, op := crewOp m3.cur } len d.sbuf w0
      dsimp only
      split
      · next he => rw [he] at hb; exact hb
      · exact w0

end Sys2Proof.Laws
end

section
/-! The instructions of tasks, pedigrees, results, the control cores and launches keep memory in its canonical form. -/

namespace Sys2Proof.Laws

open Sys2Proof.Machine

/-! ### Spawn and join (R373 to R383) -/

theorem placeRec_mem {m m' : Mach} {core : Nat} {r : TaskRec} (e : placeRec m core r = some m') : m'.mem = m.mem := by
  unfold placeRec at e
  split at e
  · exact stageSend_mem e
  · split at e
    · dsimp only at e
      split at e
      · cases e
      · cases e; rfl
    · split at e
      · cases e; exact dequeIn_mem ..
      · cases e
theorem spawnOne_mem {m m' : Mach} {d : Decl} {arg : Word} {kind : TaskKind} {cells : List Half} (e : spawnOne m d arg kind cells = some m') :
    m'.mem = m.mem := by
  unfold spawnOne at e
  dsimp only at e
  split at e
  · cases e
  · next he =>
    cases e
    have h := placeRec_mem he
    simpa using h
theorem spawnAll_yields (d : Decl) (kind : TaskKind) (cells : List Half) (l : List Word) (k : Nat) {m : Mach} (w : Canon m) :
    Yields Canon (spawnAll d kind cells k l m) := by
  induction l generalizing k m with
  | nil => exact w
  | cons a t ih =>
    unfold spawnAll
    split
    · next he => exact ih _ (canon_of_mem (spawnOne_mem he) w)
    · exact fun _ _ => canon_of_mem (partSide_mem ..) w
theorem spawnCheck_yields (m : Mach) (x : Ctx) (n : Nat) : Yields (fun _ => True) (spawnCheck m x n) := by
  unfold spawnCheck
  dsimp only
  refine yields_ite trivial ?_
  split
  · trivial
  · exact yields_ite trivial (yields_ite trivial (yields_ite trivial (yields_ite trivial trivial)))
theorem spawnBody_canon (args : Ctx → List Word) : BodyCanon (spawnBody args) := fun _ _ w =>
  Yields.bind (spawnCheck_yields ..) (fun _ _ => Yields.bind (commit_yields w) (fun _ h => spawnAll_yields _ _ _ _ _ h))
theorem spawndBody_canon : BodyCanon spawndBody := by
  intro x m w
  refine Yields.bind (spawnCheck_yields ..) (fun d _ => ?_)
  dsimp only
  split
  · trivial
  · exact Yields.bind (commit_yields w) (fun _ h => spawnAll_yields _ _ _ _ _ h)
/-- A commit, and then a wait. -/
theorem commitPark_yields {m : Mach} (tid : Mach → Nat) (wt : Wait) (w : Canon m) : Yields Canon (do let m ← commit m; .ok (park m (tid m) wt) : R Mach) :=
  Yields.bind (commit_yields w) (fun _ h => park_canon _ _ h)
theorem joinBody_canon : BodyCanon joinBody := fun _ _ w => yields_ite trivial (commitPark_yields (·.cur.tid) _ w)
theorem prerootBody_canon : BodyCanon prerootBody := fun _ _ w => commitPark_yields (·.cur.tid) _ w

/-! ### Draws, arenas and results (R385 to R397) -/

theorem rngBody_canon : BodyCanon rngBody := fun _ _ w => yields_cur _ w
theorem arenaAddrs_yields {m : Mach} (x : Ctx) (u : List Nat) (w : Canon m) : Yields (fun p => Canon p.1) (arenaAddrs x u m) := by
  refine yields_ite trivial (Yields.bind (uniformLoad_yields _ _ _ _ w) (fun ⟨m1, b⟩ h => ?_))
  refine yields_ite trivial (yields_ite trivial (yields_ite trivial ?_))
  split
  · trivial
  · dsimp only
    split
    · trivial
    · exact canon_of_mem (arenaRegion_mem ..) h
theorem pallocBody_canon : BodyCanon pallocBody := fun _ _ w =>
  Yields.bind (arenaAddrs_yields _ _ w) (fun ⟨_, _⟩ h => canon_of_mem (arenaPut_mem ..) h)
theorem plogBody_canon : BodyCanon plogBody := fun _ _ w =>
  Yields.bind (arenaAddrs_yields _ _ w) (fun ⟨_, _⟩ h => Checks.bind (sbStall_checks ..)
    (Yields.bind (plainStores_yields _ _ h) (fun _ h => canon_of_mem (arenaPut_mem ..) h)))
theorem redArg_yields (m : Mach) (x : Ctx) : Yields (fun _ => True) (redArg m x) := by
  unfold redArg
  dsimp only
  split <;> trivial
theorem rviewBody_canon : BodyCanon rviewBody := fun _ _ w => Yields.bind (redArg_yields ..) (fun ⟨_, _⟩ _ => yields_cur _ w)
theorem raccBody_canon : BodyCanon raccBody := fun _ _ w =>
  Yields.bind (redArg_yields ..) (fun ⟨_, _⟩ _ => yields_ite (yields_cur _ w) (yields_cur _ w))
theorem rfinBody_canon : BodyCanon rfinBody := fun _ _ w =>
  Yields.bind (redArg_yields ..) (fun ⟨_, _⟩ _ => yields_ite trivial (commitPark_yields (·.cur.tid) _ w))

/-! ### Control cores (R427 to R441) -/

theorem supOnly_checks (x : Ctx) (m : Mach) : Checks (supOnly x m) := checks_ite trivial trivial
theorem trapBody_canon : BodyCanon trapBody := fun _ _ _ => trivial
theorem brkBody_canon : BodyCanon brkBody := fun _ _ _ => trivial
@[simp] theorem applyAction_canon {m : Mach} (r : RecRef) (action : Nat) (w : Canon m) : Canon (applyAction m r action) :=
  canon_ite (endTrapped_canon _ w) (canon_of_mem (resumeTrapped_mem ..) w)
theorem eretBody_canon (mode : Nat) : BodyCanon (eretBody mode) := by
  intro x m w
  refine yields_ite trivial ?_
  dsimp only
  split
  · exact Yields.bind_ite (P := Canon) w ((uniformLoad_yields _ _ _ _ w).map fun _ h => h) (fun _ h => yields_putI64 _ _ h)
  · refine Yields.bind (commit_yields w) (fun m1 h => applyAction_canon _ _ ?_)
    simpa using h
theorem sysrBody_canon (b : Boot) : BodyCanon (sysrBody b) := fun _ _ w => Checks.bind (supOnly_checks ..) (yields_cur _ w)
theorem sysOrder_yields {m : Mach} (x : Ctx) (w : Canon m) : Yields Canon (sysOrder x m) := Checks.bind (supOnly_checks ..) (commit_yields w)
theorem syswBody_canon : BodyCanon syswBody := fun _ _ w =>
  Yields.bind (sysOrder_yields _ w) (fun _ h => canon_of_mem (sysWrite_mem ..) h)
theorem keyldBody_canon : BodyCanon keyldBody := fun _ _ w =>
  Yields.bind (sysOrder_yields _ w) (fun _ h => canon_of_mem (modCore_mem ..) (canon_ite h h))
theorem keyclrBody_canon : BodyCanon keyclrBody := fun _ _ w =>
  Yields.bind (sysOrder_yields _ w) (fun _ h => canon_of_mem (modCore_mem ..) (canon_of_mem (keyClear_mem ..) h))
theorem rsidxBody_canon : BodyCanon rsidxBody := by
  refine fun x m w => Yields.bind (sysOrder_yields _ w) (fun m1 h => ?_)
  extract_lets i b
  clear_value b
  split
  · exact yields_cur m1.cur h
  · exact h
theorem wakeBody_canon : BodyCanon wakeBody := fun _ _ w =>
  Yields.bind (sysOrder_yields _ w) (fun _ h => foldl_canon (fun _ _ w => canon_ite (canon_of_mem (wakeCore_mem ..) w) w) _ h)
theorem icinvBody_canon : BodyCanon icinvBody := fun _ _ w => Checks.bind (supOnly_checks ..) (canon_of_mem (reconvDrop_mem ..) w)
theorem tlbinvBody_canon : BodyCanon tlbinvBody := fun _ _ w =>
  Checks.bind (supOnly_checks ..) (yields_ite w (yields_ite (keepsCanon_queueAt _) (canon_ite w (canon_of_mem (tlbDrop_mem ..) w))))
theorem launchRecord_yields {m : Mach} (x : Ctx) (w : Canon m) : Yields (fun p => Canon p.1) (launchRecord m x) :=
  yields_ite (uniformLoad_yields _ _ _ _ w) (loadRecord_yields _ _ _ _ _ w)
theorem launchBody_canon : BodyCanon launchBody := by
  intro x m w
  refine yields_ite trivial (Yields.bind (launchRecord_yields _ w) (fun ⟨m1, b⟩ h1 => ?_))
  dsimp -zeta only
  extract_lets job
  split
  · exact yields_cur _ h1
  · exact yields_cur _ h1
  · next j _ _ =>
    refine Yields.bind (commit_yields h1) (fun m2 h2 => ?_)
    extract_lets c lsn node q m3 m4 m5
    have h3 : Canon m3 := canon_of_mem (modLaunch_mem ..) h2
    have h4 : Canon m4 := canon_ite h2 h3
    clear_value m4 node
    have hl : Canon (makeLaunch m4 j q).2 := canon_of_mem (makeLaunch_mem ..) h4
    have h5 : Canon m5 := by
      unfold m5
      split
      · exact canon_of_mem (modJob_mem ..) hl
      · exact hl
    exact yields_cur _ h5
@[simp] theorem cancelObject_canon {m : Mach} (o : ObjRef) (w : Canon m) : Canon (cancelObject m o) := by
  cases o with
  | launch h => exact cancelLaunch_canon _ w
  | job j => exact cancelJob_canon _ w
  | phase j => exact cancelPhase_canon _ w
  | graph j => exact cancelGraph_canon _ w
  | finished h => exact w
theorem hcountBody_canon : BodyCanon hcountBody := fun _ _ w => yields_cur _ w
theorem cancelBody_canon : BodyCanon cancelBody := by
  intro x m w
  unfold cancelBody
  split
  · exact yields_putI64 _ _ w
  · exact yields_ite (yields_putI64 _ _ w) (cancelObject_canon _ (canon_of_mem (putI64_mem ..) w))
theorem leaveHoldBody_canon : BodyCanon leaveHoldBody := by
  intro x m w
  refine yields_ite (yields_putI64 _ _ (canon_of_mem (leeWithdraw_mem ..) w)) ?_
  have h := leeAsk_yields m.cur (sysA x).toNat w
  split
  · next he => exact h.of_error he
  · next he => exact yields_putI64 _ _ (h.of_ok he : Canon _)
theorem leaveFreeBody_canon : BodyCanon leaveFreeBody := fun _ _ w => yields_putI64 _ _ w
theorem haltBody_canon : BodyCanon haltBody := fun _ _ w => Checks.bind (supOnly_checks ..) (yields_ite (canon_of_mem (modCore_mem ..) w) (yields_cur _ w))
theorem monBody_canon (mode : Nat) : BodyCanon (monBody mode) := by
  intro x m w
  refine Yields.bind_ite (P := fun _ => True) (supOnly_checks ..) trivial (fun _ _ => ?_)
  exact yields_ite (canon_ite w (canon_of_mem (putTen_mem ..) w)) (yields_ite (canon_of_mem (capturePut_mem ..) w)
    (canon_of_mem (captureKeep_mem ..) (canon_of_mem (putTen_mem ..) w)))

end Sys2Proof.Laws
end

section
/-! The events of links, of the host, of the loader and of the schedulers keep memory in its canonical form. -/

namespace Sys2Proof.Laws

open Sys2Proof.Machine

/-! ### Links (R44 to R57) -/

@[simp] theorem vftTake_canon {typ : Nat} {fr : Frame} {deliver : Mach → Mach × Bool} (hd : ∀ m, Canon m → Canon (deliver m).1) {m : Mach} (w : Canon m) :
    Canon (vftTake typ fr deliver m) := by
  refine canon_ite (canon_of_mem (dropFrame_mem ..) w) ?_
  split
  · exact canon_of_mem (dropFrame_mem ..) w
  · next m1 he =>
    have h1 : Canon (ackConn m1 fr) := canon_of_mem (ackConn_mem ..) (canon_of_mem (openConn_mem he) w)
    dsimp only
    split
    · exact h1
    · refine canon_ite ?_ (canon_of_mem (ackSend_mem ..) h1)
      have h2 := hd _ h1
      split
      · next he => exact canon_of_fst he h2
      · next he => exact canon_of_mem (ackSend_mem ..) (canon_of_mem (modConn_mem ..) (canon_of_fst he h2))
theorem rxHeld_canon {m m' : Mach} {who : Who} {va len : Nat} (e : rxHeld m who va len = some m') (w : Canon m) : Canon m' := by
  unfold rxHeld at e
  dsimp only at e
  split at e
  · cases e; exact snoopSide_canon _ w
  · split at e
    · cases e; exact w
    · cases e
theorem copyPayload_canon {m : Mach} (fr : Frame) (w : Canon m) : Canon (copyPayload fr m).1 := by
  unfold copyPayload
  split
  · exact canon_of_mem (dropFrame_mem ..) w
  · next j _ =>
    dsimp only
    split
    · next he => exact rxHeld_canon he w
    · have h := engineWrite_canon (rxWho j) fr.oparg.toNat fr.payload w
      split
      · next he => exact canon_of_fst he h
      · next he =>
        have h2 := canon_of_fst he h
        exact h2
theorem copyStamp_canon {m : Mach} (fr : Frame) (w : Canon m) : Canon (copyStamp fr m).1 := by
  unfold copyStamp
  split
  · exact canon_of_mem (dropFrame_mem ..) w
  · dsimp only
    split
    · next he => exact rxHeld_canon he w
    · exact engineWrite_canon _ _ _ w
@[simp] theorem resendStep_canon {m : Mach} (i : Nat) (w : Canon m) : Canon (resendStep m i) := by
  unfold resendStep
  split
  · exact w
  · refine canon_ite w (canon_ite (canon_of_mem (resendFrom_mem ..) w) ?_)
    split
    · exact peerDown_canon _ w
    · exact canon_of_mem (resendFrom_mem ..) w
@[simp] theorem lossStep_canon {m : Mach} (peer : Nat) (w : Canon m) : Canon (lossStep m peer) := by
  unfold lossStep
  split
  · exact canon_ite (peerDown_canon _ w) w
  · exact w
@[simp] theorem portOff_canon {m : Mach} (port : Nat) (w : Canon m) : Canon (portOff m port) :=
  canon_ite (foldl_canon (fun _ _ w => peerDown_canon _ w) _ w) w
theorem nackStep_canon (fr : Frame) : KeepsCanon (fun m =>
    if frameOk m 0 fr && fr.flags / 2 % 2 == 1 then
      let m := ackConn m fr
      match m.conn (connOf fr) with
      | some c => resendFrom m c (some fr.psn)
      | none => m
    else dropFrame m fr) := by
  intro m w
  have h : Canon (ackConn m fr) := canon_of_mem (ackConn_mem ..) w
  refine canon_ite ?_ (canon_of_mem (dropFrame_mem ..) w)
  dsimp only
  split
  · exact canon_of_mem (resendFrom_mem ..) h
  · exact h

/-! ### The host (R33 to R40, R58 to R63) -/

@[simp] theorem bisnpAnswer_canon {m : Mach} (line : Nat) (data : Option (List Byte)) (w : Canon m) : Canon (bisnpAnswer m line data) := by
  refine canon_ite w (canon_of_mem (kickAll_mem _) ?_)
  split
  · exact commitRun_canon _ _ w
  · exact w
/-- The expiry of a BISnp. The test is a variable: the kernel would count out its 10 ms. -/
theorem snoopExpiry_canon : KeepsCanon (fun m => if snoopLate m then hostGone m else m) := by
  intro m w
  have h : Canon (hostGone m) := canon_of_mem (hostGone_mem _) w
  generalize snoopLate m = late
  exact canon_ite h w
theorem spdmDoe_canon {s : State} (q : SpdmReq) (w : Canon s.m) : Canon (spdmDoe s q).m := by
  unfold spdmDoe
  split
  · exact w
  · exact w
theorem spdmFrame_canon {s : State} (fr : Frame) (w : Canon s.m) : Canon (spdmFrame s fr).m := by
  refine vftTake_canon (fun m w => ?_) w
  split
  · exact canon_of_mem (vftSend_mem ..) w
  · exact w
theorem slotWrite_canon {s : State} (i off : Nat) (data : List Byte) (w : Canon s.m) : Canon (slotWrite s i off data).m := by
  unfold slotWrite
  split
  · exact w
  · split <;> exact w
theorem doorbell_canon {s : State} (v : Nat) (w : Canon s.m) : Canon (doorbell s v).m := by
  unfold doorbell
  dsimp only
  split
  · exact w
  · split
    · exact w
    · split
      · exact w
      · exact canon_of_mem (due_mem ..) (foldl_canon (fun _ _ w => canon_of_mem (wakeDie_mem ..) w) _ w)
theorem respClear_canon {s : State} (b : Byte) (w : Canon s.m) : Canon (respClear s b).m := by
  unfold respClear
  split <;> exact w
theorem noteRead_canon {s : State} (w : Canon s.m) : Canon (noteRead s).m := by
  unfold noteRead
  split
  · exact w
  · split <;> exact w
theorem barRead_canon {s : State} (off : Nat) (w : Canon s.m) : Canon (barRead s off).m := by
  unfold barRead
  split
  · exact noteRead_canon w
  · exact w
theorem respond_canon {s : State} (req : Nat) (b : List Byte) (w : Canon s.m) : Canon (respond s req b).m := by
  unfold respond
  split
  · exact canon_of_mem (raiseMsix_mem ..) w
  · split
    · exact w
    · exact canon_of_mem (vftSend_mem ..) w
theorem cfgStep_canon {s : State} (reg : Nat) (v : Option Half) (w : Canon s.m) : Canon (cfgStep s reg v).m := by
  unfold cfgStep
  split
  · exact w
  · split
    · exact w
    · split
      · exact canon_of_mem (msixFlush_mem _) w
      · exact w
      · exact w
      · exact w
theorem cxlStop_canon {s : State} (w : Canon s.m) : Canon (cxlStop s).m := canon_ite w (canon_of_mem (hostGone_mem _) w)
theorem hostAccess_canon {s : State} (win off len : Nat) (write : Option (List Byte)) (hold : Bool) (w : Canon s.m) :
    Canon (hostAccess s win off len write hold).m := by
  unfold hostAccess
  extract_lets dec refused
  split
  · exact w
  · split
    · have h1 : Canon refused := canon_of_mem (logged_mem ..) w
      cases write with
      | none => exact h1
      | some bs => exact h1
    · next pa treat _ =>
      extract_lets ls m1 m2
      have h1 : Canon m1 := foldl_canon (fun _ _ w => touchLine_canon _ _ _ w) _ w
      clear_value m1
      have h2 : Canon m2 := by
        cases write with
        | none => exact h1
        | some bs => exact commitRun_canon pa (bs.take len) h1
      clear_value m2
      split
      · exact w
      · exact canon_ite h2 h2

/-! ### Reset, boot and measurement (R1 to R12) -/

theorem bootFail_canon {s : State} (code : Nat) (w : Canon s.m) : Canon (bootFail s code).m := canon_of_mem (raiseMsix_mem ..) w
theorem moduleReset_canon {s : State} (w : Canon s.m) : Canon (moduleReset s).m := w
theorem bootLoad_canon {s : State} (w : Canon s.m) : Canon (bootLoad s).m := by
  have h : Canon (plainRun s.m loaderBase Config.bootLoaderImage) := plainRun_canon _ _ w
  unfold bootLoad Canon
  dsimp only
  exact h
theorem bootTable_canon {s : State} (w : Canon s.m) : Canon (bootTable s).m := by
  have h : Canon (plainRun s.m 0 capTable) := plainRun_canon _ _ w
  unfold bootTable Canon
  dsimp only
  exact h
theorem bootRom_canon {s : State} (w : Canon s.m) : Canon (bootRom s).m := by
  unfold bootRom
  extract_lets b m1 t
  have ht : Canon t.m := bootTable_canon w
  clear_value t
  split
  · exact bootFail_canon _ ht
  · split
    · exact bootFail_canon _ ht
    · exact bootLoad_canon ht
theorem bootTrain_canon {s : State} (ok : Bool) (errata : List (Nat × List Byte)) (w : Canon s.m) : Canon (bootTrain s ok errata).m := by
  unfold bootTrain
  split
  · exact w
  · split
    · exact bootFail_canon _ w
    · have h : Canon (errata.foldl (fun m e => errataAppend m e.1 e.2) s.m) := foldl_canon (fun _ _ w => errataAppend_canon _ _ w) _ w
      exact canon_of_mem (raiseMsix_mem ..) h
theorem measExtend_canon {s : State} (slot : Nat) (digest : List Byte) (w : Canon s.m) : Canon (measExtend s slot digest).m := by
  unfold measExtend
  split <;> exact w

/-! ### The loader and the requests (R61 to R76, R443 to R447) -/

@[simp] theorem fillFrame_canon {m : Mach} (treat f : Nat) (bs : List Byte) (w : Canon m) : Canon (fillFrame m treat f bs) :=
  commitRun_canon _ _ (foldl_canon (fun _ _ w => canon_ite (touchLine_canon _ _ _ w) w) _ w)
theorem mapPage_canon {rd : Rd} {o : LObj} {sg : LSeg} {job va : Nat} {m m' : Mach} (e : mapPage rd o sg job va m = some m') (w : Canon m) : Canon m' := by
  unfold mapPage at e
  split at e
  · cases e
  · next f m1 hf => exact mapFrom_wf _ _ _ _ _ e (fillFrame_canon _ _ _ (canon_of_mem (setHome_mem ..) (allocFrame_canon hf w)))
theorem mapSeg_canon {rd : Rd} {o : LObj} {sg : LSeg} {job : Nat} (n : Nat) {va : Nat} {m m' : Mach} (e : mapSeg rd o sg job n va m = some m') (w : Canon m) :
    Canon m' := by
  induction n generalizing va m with
  | zero => cases e; exact w
  | succ n ih =>
    unfold mapSeg at e
    split at e
    · cases e; exact canon_of_mem (modJob_mem ..) w
    · split at e
      · exact ih e (canon_of_mem (modJob_mem ..) w)
      · split at e
        · next he => exact ih e (mapPage_canon he w)
        · cases e
theorem mapObjs_canon {rd : Rd} {job : Nat} (l : List (LObj × LSeg)) {m m' : Mach} (e : mapObjs rd job l m = some m') (w : Canon m) : Canon m' := by
  induction l generalizing m with
  | nil => cases e; exact w
  | cons p t ih =>
    unfold mapObjs at e
    dsimp only at e
    split at e
    · next he => exact ih e (mapSeg_canon _ he w)
    · cases e
theorem joinObjs_canon {rd : Rd} {job : Nat} {os : List LObj} {m m' : Mach} (e : joinObjs rd job os m = some m') (w : Canon m) : Canon m' := by
  unfold joinObjs at e
  dsimp only at e
  split at e
  · cases e
  · next m1 he =>
    have h1 := mapObjs_canon _ he w
    have h2 : ∀ f, Canon (m1.modJob job f) := fun f => canon_of_mem (modJob_mem ..) h1
    split at e
    · cases e; exact h2 _
    · split at e
      · obtain ⟨k, _, rfl⟩ := Option.map_eq_some_iff.mp e
        exact canon_of_mem (setJob_mem ..) (h2 _)
      · cases e; exact h2 _
theorem imageHeld_canon {m m' : Mach} {base len : Nat} (e : imageHeld m base len = some m') (w : Canon m) : Canon m' := by
  unfold imageHeld at e
  dsimp only at e
  split at e
  · cases e
  · cases e; exact snoopSide_canon _ w
theorem createJob_canon {m : Mach} {q : List Byte} {sub : Option (Nat × Nat)} {rd : Rd} {os : List LObj} {p : Nat × Mach}
    (e : createJob m q sub rd os = some p) (w : Canon m) : Canon p.2 := by
  unfold createJob at e
  split at e
  · next id root m1 _ hf =>
    have h1 : Canon m1 := allocFrame_canon hf w
    dsimp only at e
    split at e
    · cases e
    · next hj =>
      obtain ⟨m3, h3, rfl⟩ := Option.map_eq_some_iff.mp e
      exact mapReadOnly_wf h3 (joinObjs_canon hj (canon_of_mem (setJob_mem ..) h1))
  · cases e

/-- A request that the loader serves keeps the form. -/
def RunCanon (run : Mach → List Byte → Option (Nat × Nat) → List Byte × Mach) : Prop := ∀ m q sub, Canon m → Canon (run m q sub).2

theorem submitRun_canon : RunCanon submitRun := by
  intro m q sub w
  unfold submitRun
  extract_lets dom no rd
  have hno : ∀ st info scan, Canon (no st info scan).2 := fun _ _ _ => w
  clear_value no
  refine canon_snd_ite w (canon_snd_ite (hno _ _ _) (canon_snd_ite (hno _ _ _) (canon_snd_ite (hno _ _ _) (canon_snd_ite (hno _ _ _) ?_))))
  split
  · exact hno _ _ _
  · split
    · exact hno _ _ _
    · next id m1 he =>
      have h1 : Canon (checkpoint (startPhase m1 id) id) := canon_of_mem (checkpoint_mem ..) (startPhase_canon _ (createJob_canon he w))
      exact canon_ite h1 (canon_of_mem (collReplay_mem ..) h1)
theorem loadRun_canon : RunCanon loadRun := by
  intro m q sub w
  refine canon_snd_ite w ?_
  split
  · exact w
  · refine canon_snd_ite w ?_
    split
    · exact w
    · split
      · exact w
      · next he => exact joinObjs_canon he w
theorem cancelRun_canon : RunCanon cancelRun := by
  intro m q sub w
  refine canon_snd_ite w ?_
  split
  · exact w
  · split
    · exact w
    · exact canon_snd_ite w (cancelObject_canon _ w)
theorem queryRun_canon : RunCanon queryRun := by
  intro m q sub w
  refine canon_snd_ite w ?_
  split <;> exact w
theorem serve_canon {run : Mach → List Byte → Option (Nat × Nat) → List Byte × Mach} (hr : RunCanon run) {s : State} (req : Nat) (ev : Instr)
    (mine : Nat → Bool) (image : Bool) (w : Canon s.m) : Canon (serve s req ev mine image run).m := by
  unfold serve
  split
  · exact w
  · split
    · exact w
    · split
      · next he =>
        split at he
        · have h := imageHeld_canon he w
          exact h
        · cases he
      · exact respond_canon _ _ (hr _ _ _ w)

/-! ### The schedulers (R26 to R32, R94 to R108) -/

@[simp] theorem reclaimStep_canon {m : Mach} (core : Nat) (w : Canon m) : Canon (reclaimStep m core) := by
  unfold reclaimStep
  split
  · exact switchOut_canon _ w
  · exact w
@[simp] theorem migrateStep_canon {m : Mach} (crew core : Nat) (w : Canon m) : Canon (migrateStep m crew core) := by
  unfold migrateStep
  split
  · next h => exact migratePlan_canon h _ w
  · exact w
@[simp] theorem stealKeep_canon {m : Mach} (core : Nat) (r : TaskRec) (w : Canon m) : Canon (stealKeep m core r) :=
  canon_ite (startTask_canon _ _ w) (canon_of_mem (dequeIn_mem ..) w)
@[simp] theorem stealReply_canon {m : Mach} (core : Nat) (w : Canon m) : Canon (stealReply m core) := by
  unfold stealReply
  split
  · exact w
  · dsimp only
    split
    · exact stealKeep_canon _ _ w
    · exact w
@[simp] theorem preemptStep_canon {m : Mach} (die : Nat) (w : Canon m) : Canon (preemptStep m die) := by
  unfold preemptStep
  split
  · exact w
  · next r c _ =>
    extract_lets p m1
    have h1 : Canon m1 := canon_of_mem (setCrew_mem ..) w
    clear_value m1
    split
    · exact preemptOut_canon _ h1
    · exact preemptOut_canon _ h1
    · exact h1
@[simp] theorem yieldForce_canon {m : Mach} (tid : Nat) (w : Canon m) : Canon (yieldForce m tid) := by
  unfold yieldForce
  split
  · exact w
  · split
    · exact w
    · refine canon_ite w ?_
      split
      · exact takeTrap_canon _ _ w
      · exact takeTrap_canon _ _ w
@[simp] theorem lateStep_canon {m : Mach} (w : Canon m) : Canon (lateStep m) := by
  unfold lateStep
  split
  · exact w
  · split
    · exact takeTrap_canon _ _ w
    · exact w
@[simp] theorem eccStep_canon {m : Mach} (tid source line va : Nat) (w : Canon m) : Canon (eccStep m tid source line va) := by
  unfold eccStep
  split
  · exact w
  · split
    · exact w
    · split
      · exact takeTrap_canon _ _ w
      · exact canon_ite (takeTrap_canon _ _ w) w
@[simp] theorem walkFill_canon {m : Mach} (core job va : Nat) (write : Bool) (w : Canon m) : Canon (walkFill m core job va write) :=
  canon_ite (fillTlb_canon _ _ _ _ w) w

/-! ### What Lennas does for a task (R443) -/

@[simp] theorem taskMap_canon {m : Mach} (tid va treat : Nat) (wr x : Bool) (w : Canon m) : Canon (taskMap m tid va treat wr x) := by
  unfold taskMap
  split
  · exact w
  · dsimp only
    split
    · exact w
    · refine canon_ite (canon_of_mem (mapAnswer_mem ..) w) (canon_ite (canon_of_mem (mapAnswer_mem ..) w) ?_)
      split
      · exact canon_of_mem (mapAnswer_mem ..) w
      · split
        · exact canon_of_mem (mapAnswer_mem ..) w
        · next he => exact canon_of_mem (mapAnswer_mem ..) (canon_of_mem (modJob_mem ..) (mapUnder_wf he w))
@[simp] theorem pageToWrite_canon {m : Mach} (tid va : Nat) (w : Canon m) : Canon (pageToWrite m tid va) := by
  unfold pageToWrite
  split
  · exact w
  · refine canon_ite (canon_of_mem (mapAnswer_mem ..) w) (canon_ite (canon_of_mem (lennasAgain_mem ..) w) ?_)
    refine canon_of_mem (mapAnswer_mem ..) (putLeaf_canon _ _ _ (canon_of_mem (reconvDrop_mem ..) ?_))
    exact foldl_canon (fun _ _ w => switchOut_canon _ w) _ (canon_of_mem (tlbDrop_mem ..) (putLeaf_canon _ _ _ w))
@[simp] theorem pageToExec_canon {m : Mach} (tid va : Nat) (w : Canon m) : Canon (pageToExec m tid va) := by
  unfold pageToExec
  split
  · exact w
  · refine canon_ite (canon_of_mem (mapAnswer_mem ..) w) (canon_ite (canon_of_mem (lennasAgain_mem ..) (snoopSide_canon _ w))
      (canon_ite (canon_of_mem (lennasAgain_mem ..) w) ?_))
    extract_lets m1 m2
    have h1 : Canon m1 := canon_of_mem (tlbDrop_mem ..) (putLeaf_canon _ _ _ w)
    clear_value m1
    have h2 : Canon m2 := canon_of_mem (reconvDrop_mem ..) (foldl_canon (fun _ _ w => canon_of_mem (cleanDram_mem ..) w) _ h1)
    clear_value m2
    split
    · exact canon_of_mem (mapAnswer_mem ..) h2
    · exact canon_of_mem (mapAnswer_mem ..) (putLeaf_canon _ _ _ h2)
@[simp] theorem lennasStep_canon {m : Mach} (a : LennasAct) (w : Canon m) : Canon (lennasStep a m) := by
  cases a with
  | map tid va treat wr x => exact taskMap_canon _ _ _ _ _ w
  | toWrite tid va => exact pageToWrite_canon _ _ w
  | toExec tid va => exact pageToExec_canon _ _ w
  | pulled job image => exact canon_of_mem (imagePulled_mem ..) w

end Sys2Proof.Laws
end

section
/-! Every instruction, every event and every step keeps memory in its canonical form. -/

namespace Sys2Proof.Laws

open Sys2Proof.Machine

/-- Every instruction and every event keeps the form, each by the lemma about its meaning. -/
theorem exec_steps (i : Instr) {s : State} (w : Canon s.m) : Steps (exec i s) := by
  cases i with
  | nop _ | mov _ | add _ | sub _ | mul _ | mulh _ | mad _ | div _ | rem _ | min _ | max _ | abs _ | neg _ | and_ _ | or_ _ | xor _ | not_ _ | shl _
  | shr _ | sar _ | rot _ | bfx _ | bfi _ | popc _ | clz _ | brev _ | sel _ | cmp _ | pbool _ | addc _ | lea _ | cvti _ | vote _ | elect _ | bcast _
  | gscan _ | perm _ | shfl _ | compact _ | expand _ | msync _ | mset _ | fcmp _ | funpk _ | fclass _ | hist _ | qscale _ | cbdec _ | cbenc _
  | tagsetFclr _ | tagsetFset _ | tagget _ | taggetFlags _ | pget _ | pdig _ => exact runInstr_steps (onCrew_canon _) _ _ w
  | br _ | brx _ | call _ | callx _ | ret _ | loop _ => exact runInstr_steps (transfer_canon _ _ _ _ _) _ _ w
  | exit _ => exact runInstr_steps exitBody_canon _ _ w
  | yield _ => exact runInstr_steps yieldBody_canon _ _ w
  | fadd _ | fsub _ | fmul _ | fsqrt _ | fdiv _ => exact runInstr_steps (fpRound_canon _) _ _ w
  | ffma _ | fmin _ | fmax _ | fabs _ | fneg _ => exact runInstr_steps (fpElems_canon _ _) _ _ w
  | frcp _ | frsq _ | fexp2 _ | flog2 _ | fsin _ | fcos _ | ftanh _ => exact runInstr_steps (fpFun_canon _) _ _ w
  | frnd _ => exact runInstr_steps (fun _ _ w => yields_cur _ w) _ _ w
  | ftoi _ => exact runInstr_steps ftoiBody_canon _ _ w
  | itof _ => exact runInstr_steps itofBody_canon _ _ w
  | fcvt _ => exact runInstr_steps fcvtBody_canon _ _ w
  | fpack _ => exact runInstr_steps fpackBody_canon _ _ w
  | fdot2 _ | fdot4 _ => exact runInstr_steps fdotBody_canon _ _ w
  | quant _ => exact runInstr_steps quantBody_canon _ _ w
  | dquant _ => exact runInstr_steps dquantBody_canon _ _ w
  | cbload _ => exact runInstr_steps cbloadBody_canon _ _ w
  | tagset _ => exact runInstr_steps tagsetBody_canon _ _ w
  | ld _ => exact runInstr_steps ldBody_canon _ _ w
  | st _ => exact runInstr_steps stBody_canon _ _ w
  | atom _ => exact runInstr_steps atomBody_canon _ _ w
  | red _ => exact runInstr_steps redBody_canon _ _ w
  | cas _ => exact runInstr_steps casBody_canon _ _ w
  | fence _ => exact runInstr_steps fenceBody_canon _ _ w
  | monarm _ => exact runInstr_steps monarmBody_canon _ _ w
  | monwait _ => exact runInstr_steps monwaitBody_canon _ _ w
  | pref _ => exact runInstr_steps prefBody_canon _ _ w
  | cclean _ | cinval _ => exact runInstr_steps (cacheBody_canon _) _ _ w
  | tfill _ => exact runInstr_steps tfillBody_canon _ _ w
  | tdrain _ => exact runInstr_steps tdrainBody_canon _ _ w
  | twait _ => exact runInstr_steps twaitBody_canon _ _ w
  | tstat _ => exact runInstr_steps tstatBody_canon _ _ w
  | gjoin _ => exact runInstr_steps gjoinBody_canon _ _ w
  | gleave _ => exact runInstr_steps gleaveBody_canon _ _ w
  | garr _ => exact runInstr_steps garrBody_canon _ _ w
  | gwait _ => exact runInstr_steps gwaitBody_canon _ _ w
  | gbar _ => exact runInstr_steps gbarBody_canon _ _ w
  | gvote _ => exact runInstr_steps gvoteBody_canon _ _ w
  | gred _ => exact runInstr_steps gredBody_canon _ _ w
  | gstat _ => exact runInstr_steps gstatBody_canon _ _ w
  | gfind _ => exact runInstr_steps gfindBody_canon _ _ w
  | spawn _ | spawnv _ => exact runInstr_steps (spawnBody_canon _) _ _ w
  | spawnd _ => exact runInstr_steps spawndBody_canon _ _ w
  | join _ => exact runInstr_steps joinBody_canon _ _ w
  | preroot _ => exact runInstr_steps prerootBody_canon _ _ w
  | rng _ => exact runInstr_steps rngBody_canon _ _ w
  | palloc _ => exact runInstr_steps pallocBody_canon _ _ w
  | plog _ => exact runInstr_steps plogBody_canon _ _ w
  | rview _ => exact runInstr_steps rviewBody_canon _ _ w
  | racc _ => exact runInstr_steps raccBody_canon _ _ w
  | rfin _ => exact runInstr_steps rfinBody_canon _ _ w
  | vwreg _ => exact runInstr_steps vwregBody_canon _ _ w
  | vwadd _ => exact runInstr_steps vwaddBody_canon _ _ w
  | vwdrop _ => exact runInstr_steps vwdropBody_canon _ _ w
  | vwsync _ => exact runInstr_steps vwsyncBody_canon _ _ w
  | vwver _ => exact runInstr_steps vwverBody_canon _ _ w
  | vwpol _ => exact runInstr_steps vwpolBody_canon _ _ w
  | vwtouch _ => exact runInstr_steps vwtouchBody_canon _ _ w
  | mldb _ => exact runInstr_steps mldbBody_canon _ _ w
  | mmas _ => exact runInstr_steps mmasBody_canon _ _ w
  | mcommit _ => exact runInstr_steps mcommitBody_canon _ _ w
  | mwait _ => exact runInstr_steps mwaitBody_canon _ _ w
  | mrd _ => exact runInstr_steps mrdBody_canon _ _ w
  | mwr _ => exact runInstr_steps mwrBody_canon _ _ w
  | mzero _ => exact runInstr_steps mzeroBody_canon _ _ w
  | mstat _ => exact runInstr_steps mstatBody_canon _ _ w
  | btmpl _ => exact runInstr_steps btmplBody_canon _ _ w
  | gath _ => exact runInstr_steps gathBody_canon _ _ w
  | collOrdered _ | collArrival _ => exact runInstr_steps (collBody_canon _) _ _ w
  | cwait _ => exact runInstr_steps cwaitBody_canon _ _ w
  | lbase _ => exact runInstr_steps lbaseBody_canon _ _ w
  | bquery _ => exact runInstr_steps bqueryBody_canon _ _ w
  | trap _ => exact runInstr_steps trapBody_canon _ _ w
  | eretRetry _ | eretNext _ | eretEnd _ => exact runInstr_steps (eretBody_canon _) _ _ w
  | sysr _ => exact runInstr_steps (sysrBody_canon _) _ _ w
  | sysw _ => exact runInstr_steps syswBody_canon _ _ w
  | keyld _ => exact runInstr_steps keyldBody_canon _ _ w
  | keyclr _ => exact runInstr_steps keyclrBody_canon _ _ w
  | rsidx _ => exact runInstr_steps rsidxBody_canon _ _ w
  | wake _ => exact runInstr_steps wakeBody_canon _ _ w
  | icinv _ => exact runInstr_steps icinvBody_canon _ _ w
  | tlbinv _ => exact runInstr_steps tlbinvBody_canon _ _ w
  | launch _ => exact runInstr_steps launchBody_canon _ _ w
  | cancel _ => exact runInstr_steps cancelBody_canon _ _ w
  | leaveHold _ => exact runInstr_steps leaveHoldBody_canon _ _ w
  | leaveFree _ => exact runInstr_steps leaveFreeBody_canon _ _ w
  | hcount _ => exact runInstr_steps hcountBody_canon _ _ w
  | halt _ => exact runInstr_steps haltBody_canon _ _ w
  | brk _ => exact runInstr_steps brkBody_canon _ _ w
  | monRead _ | monRdclr _ | monSel _ => exact runInstr_steps (monBody_canon _) _ _ w
  | linkTraining _ _ => exact bootTrain_canon _ _ w
  | measurementExtend _ _ => exact measExtend_canon _ _ w
  | negotiateAlgorithms _ _ | getCertificate _ _ _ | challenge _ _ | getMeasurements _ _ | getVersion | getCapabilities | getDigests =>
    exact spdmDoe_canon _ w
  | unmappedBarAccess _ _ => exact canon_state_ite w (barRead_canon _ w)
  | requestSlotWrite _ _ _ => exact slotWrite_canon _ _ _ w
  | mbdoor _ => exact doorbell_canon _ w
  | mbstatRespClear _ => exact respClear_canon _ w
  | submit _ => exact serve_canon submitRun_canon _ _ _ _ w
  | cancelRequest _ => exact serve_canon cancelRun_canon _ _ _ _ w
  | query _ => exact serve_canon queryRun_canon _ _ _ _ w
  | load _ => exact serve_canon loadRun_canon _ _ _ _ w
  | hostCxlMemRequest _ _ _ _ _ => exact hostAccess_canon _ _ _ _ _ w
  | bisnpResponse _ _ => exact runEvent_steps (fun _ w => bisnpAnswer_canon _ _ w) w
  | heartbeat _ => exact runEvent_steps (fun _ w => canon_of_mem (beat_mem ..) w) w
  | reservedVftFrame _ => exact runEvent_steps (fun _ w => canon_of_mem (dropFrame_mem ..) w) w
  | nonVftFrame _ _ => exact runEvent_steps (fun _ w => canon_of_mem (frameIn_mem ..) w) w
  | remap _ _ => exact runEvent_steps (fun _ w => canon_of_mem (jobRemap_mem ..) w) w
  | leeGrant _ => exact runEvent_steps (fun _ w => canon_of_mem (leeGrantOne_mem ..) w) w
  | forwardMessage _ _ => exact runEvent_steps (fun _ w => canon_of_mem (forwardStep_mem ..) w) w
  | stealRequest _ => exact runEvent_steps (fun _ w => canon_of_mem (stealAsk_mem ..) w) w
  | stageItemArrival _ => exact runEvent_steps (fun _ w => canon_of_mem (stageArrive_mem ..) w) w
  | stageItemAck _ => exact runEvent_steps (fun _ w => canon_of_mem (stageAck_mem ..) w) w
  | stageResend _ => exact runEvent_steps (fun _ w => canon_of_mem (stageResendStep_mem ..) w) w
  | governorSample _ => exact runEvent_steps (fun _ w => canon_of_mem (governorStep_mem ..) w) w
  | dataflowEligibilityTest _ _ => exact runEvent_steps (fun _ w => canon_of_mem (eligTest_mem ..) w) w
  | matrixStepStart _ => exact runEvent_steps (fun _ w => canon_of_mem (stepStart_mem ..) w) w
  | matrixStepRetire _ => exact runEvent_steps (fun _ w => canon_of_mem (stepDone_mem ..) w) w
  | portLinkUp _ => exact runEvent_steps (fun _ w => canon_of_mem (portOn_mem ..) w) w
  | msixTableWrite _ _ => exact runEvent_steps (fun _ w => canon_of_mem (msixWrite_mem ..) w) w
  | lateCompletionDrop => exact runEvent_steps (fun _ w => canon_of_mem (linkDrop_mem ..) w) w
  | coolantOvertemp | coolantRecovery => exact runEvent_steps (fun _ w => canon_of_mem (setBudget_mem ..) w) w
  | forwardingEntryExpiry => exact runEvent_steps (fun _ w => canon_of_mem (fwdExpire_mem ..) w) w
  | stealBackoffExpiry => exact runEvent_steps (fun _ w => canon_of_mem (stealWake_mem ..) w) w
  | boostExpiry => exact runEvent_steps (fun _ w => canon_of_mem (mapCrews_mem ..) w) w
  | registerMiss => exact runEvent_steps (fun _ w => canon_of_mem (monCount_mem ..) w) w
  | haltWake => exact runEvent_steps (fun _ w => canon_of_mem (wakeStep_mem ..) w) w
  | heartbeatTransmit => exact runEvent_steps (fun _ w => canon_of_mem (beatAll_mem ..) w) w
  | apertureCompletion _ _ _ => exact runEvent_steps (fun _ w => canon_ite (canon_of_mem (engComplete_mem ..) w) (canon_of_mem (apComplete_mem ..) w)) w
  | apertureCompletionTimeout _ => exact runEvent_steps (fun _ w => canon_ite (canon_of_mem (engExpire_mem ..) w) (canon_of_mem (apExpire_mem ..) w)) w
  | postedWriteRefusal _ => exact runEvent_steps (fun _ w => canon_of_mem (send_mem ..) (canon_of_mem (logged_mem ..) w)) w
  | ackFrame _ => exact runEvent_steps (fun _ w => canon_ite (canon_of_mem (ackConn_mem ..) w) (canon_of_mem (dropFrame_mem ..) w)) w
  | bisnpTimeout => exact runEvent_steps snoopExpiry_canon w
  | laneRepairExhausted _ => exact linkNarrow_canon _ w
  | nackFrame _ => exact runEvent_steps (nackStep_canon _) w
  | copyPayloadFrame _ => exact runEvent_steps (fun _ w => vftTake_canon (fun _ w => copyPayload_canon _ w) w) w
  | copyStampFrame _ => exact runEvent_steps (fun _ w => vftTake_canon (fun _ w => copyStamp_canon _ w) w) w
  | collectiveSegment _ => exact runEvent_steps (fun _ w => vftTake_canon (fun _ w => canon_of_mem (collSegment_mem ..) w) w) w
  | spdmMessageFrame _ => exact spdmFrame_canon _ w
  | jobHandOff _ => exact runEvent_steps (fun _ w => vftTake_canon (fun _ w => canon_of_mem (handOff_mem ..) w) w) w
  | faultNotice _ => exact runEvent_steps (fun _ w => vftTake_canon (fun _ w => faultTold_canon _ w) w) w
  | vftResendTimeout _ => exact runEvent_steps (fun _ w => resendStep_canon _ w) w
  | heartbeatLoss _ => exact runEvent_steps (fun _ w => lossStep_canon _ w) w
  | faultDetection _ => exact runEvent_steps (fun _ w => jobFault_canon _ w) w
  | restore _ => exact runEvent_steps (fun _ w => jobRestore_canon _ w) w
  | restart _ => exact runEvent_steps (fun _ w => jobRestart_canon _ w) w
  | launchStart _ => exact runEvent_steps (fun _ w => launchStartStep_canon _ w) w
  | conditionNodeRead _ _ => exact runEvent_steps (fun _ w => conditionRead_canon _ _ w) w
  | phaseBoundary _ => exact runEvent_steps (fun _ w => boundaryStep_canon _ w) w
  | parkedSlotReclaim _ => exact runEvent_steps (fun _ w => reclaimStep_canon _ w) w
  | crewMigration _ _ => exact runEvent_steps (fun _ w => migrateStep_canon _ _ w) w
  | stealAnswer _ => exact runEvent_steps (fun _ w => stealReply_canon _ w) w
  | preemptionRequest _ => exact runEvent_steps (fun _ w => preemptStep_canon _ w) w
  | yieldforced _ => exact runEvent_steps (fun _ w => yieldForce_canon _ w) w
  | waitEvent _ => exact runEvent_steps (fun _ w => waitEventStep_canon _ w) w
  | waitPoll _ => exact runEvent_steps (fun _ w => waitPollStep_canon _ w) w
  | cellWaiterServed _ _ => exact runEvent_steps (fun _ w => cellServe_canon _ _ w) w
  | walkComplete _ _ _ _ => exact runEvent_steps (fun _ w => walkFill_canon _ _ _ _ w) w
  | pageMigration _ _ _ _ => exact runEvent_steps (fun _ w => migrateOnline_canon _ _ _ _ w) w
  | viewRecompute _ _ => exact runEvent_steps (fun _ w => viewStep_canon _ _ w) w
  | bteCommandStart _ _ _ => exact runEvent_steps (fun _ w => bteStart_canon _ _ _ w) w
  | bteStampWrite _ _ => exact runEvent_steps (fun _ w => bteStamp_canon _ _ w) w
  | gatherRetire _ _ => exact runEvent_steps (fun _ w => gathRetire_canon _ _ w) w
  | collectiveComplete _ _ _ => exact runEvent_steps (fun _ w => collFinish_canon _ _ _ w) w
  | mldbRetire _ _ => exact runEvent_steps (fun _ w => loadRetire_canon _ _ w) w
  | selfTest _ _ => exact canon_state_ite (errataAppend_canon _ _ (canon_of_mem (modCore_mem ..) w)) w
  | systemTrap _ _ _ _ => exact runEvent_steps (fun _ w => eccStep_canon _ _ _ _ w) w
  | cxlMemRetrain _ => exact canon_state_ite w (cxlStop_canon w)
  | portLinkDown _ => exact runEvent_steps (fun _ w => portOff_canon _ w) w
  | configRequest _ _ => exact cfgStep_canon _ _ w
  | hdmDecoderProgram _ _ _ _ | mbstatNovfClear | mbstatDupClear => exact canon_state_ite w w
  | powerOnReset => exact bootRom_canon (moduleReset_canon w)
  | mbnoteRead => exact noteRead_canon w
  | cxlMemInactive => exact cxlStop_canon w
  | landingArrival => exact runEvent_steps (fun _ w => landingStep_canon w) w
  | trapDelivery => exact runEvent_steps (fun _ w => lateStep_canon w) w

/-- The turn of a step hands on a canonical machine, whatever it takes the runs of the instructions it looks at to be. -/
theorem ownTurn_canon (run : Runs) {m : Mach} (w : Canon m) : TurnCanon (ownTurn run m) := by
  unfold ownTurn
  split
  · exact eventTurn_canon _ w
  · split
    · exact fetchTurn_canon _ (canon_of_mem (focus_mem ..) w)
    · exact newCycle_canon _ w
    · have hp := pickAll_mem run m
      split
      · next he =>
        rw [he] at hp
        exact fetchTurn_canon _ (canon_of_mem (focus_mem ..) (canon_of_mem hp w))
      · next he =>
        rw [he] at hp
        exact newCycle_canon _ (canon_of_mem hp w)
theorem pass_canon {m : Mach} (dt : Nat) (w : Canon m) : Canon (pass dt m) := canon_ite w (newCycle_canon _ w)
theorem turn_canon (run : Runs) {m : Mach} (w : Canon m) : TurnCanon (turn run m) := by
  unfold turn
  split
  · exact eventTurn_canon _ (pass_canon _ w)
  · exact fetchTurn_canon _ (canon_of_mem (focus_mem ..) (canon_of_mem (untilReady_mem ..) (pass_canon _ w)))
  · exact lennasStep_canon _ (pass_canon _ w)
  · exact ownTurn_canon run w
theorem step_steps {s : State} (w : Canon s.m) : Steps (step s) := by
  have h := turn_canon (runOf s) w
  unfold step
  split
  · next i m he =>
    rw [he] at h
    exact exec_steps i (s := { s with m := m }) h
  · next he =>
    rw [he] at h
    exact h
  · trivial

/-- Settles O6: the turn of a step hands on a canonical machine, and what then runs keeps it so. -/
theorem stepKeepsMemoryCanonical : Obligations.StepKeepsMemoryCanonical := by
  unfold Obligations.StepKeepsMemoryCanonical
  intro s t w e
  have h := step_steps w
  rw [e] at h
  exact h

end Sys2Proof.Laws
end

section
/-! Fields of records: a little-endian field reads back what was put in it (R6, R62). -/

namespace Sys2Proof.Laws

open Sys2Proof.Machine

@[simp] theorem toBytes_length (n x : Nat) : (toBytes n x).length = n := by
  induction n generalizing x with
  | zero => rfl
  | succ n ih => simp [toBytes, ih]

theorem ofBytes_toBytes (n x : Nat) : ofBytes (toBytes n x) = x % 256 ^ n := by
  induction n generalizing x with
  | zero => simp [toBytes, ofBytes, Nat.mod_one]
  | succ n ih =>
    have hp : 256 ^ (n + 1) = 256 * 256 ^ n := Nat.pow_succ'
    rw [toBytes, ofBytes, ih, BitVec.toNat_ofNat, hp]
    exact Nat.mod_mul.symm

theorem ofBytes_lt (l : List Byte) : ofBytes l < 256 ^ l.length := by
  induction l with
  | nil => simp [ofBytes]
  | cons b t ih =>
    have hb : b.toNat < 256 := b.isLt
    rw [ofBytes, List.length_cons, Nat.pow_succ']
    omega

@[simp] theorem slice_length (l : List Byte) (o n : Nat) : (slice l o n).length = n := by
  simp only [slice, List.length_append, List.length_replicate, List.length_take, List.length_drop]
  omega

/-- A field of n bytes holds a number below 256 to the n. -/
theorem fld_lt (l : List Byte) (o n : Nat) : fld l o n < 256 ^ n := by
  simpa [fld] using ofBytes_lt (slice l o n)

theorem fld_toBytes (n x : Nat) : fld (toBytes n x) 0 n = x % 256 ^ n := by
  rw [← ofBytes_toBytes]
  simp [fld, slice, List.take_of_length_le]

/-- A field that ends within the first part does not see the rest. -/
theorem fld_append_left {a : List Byte} {o n : Nat} (h : o + n ≤ a.length) (b : List Byte) : fld (a ++ b) o n = fld a o n := by
  have hd : n ≤ (a.drop o).length := by rw [List.length_drop]; omega
  rw [fld, fld, slice, slice, List.drop_append_of_le_length (by omega), List.take_append_of_le_length hd]

/-- A field at the end of the first part is the one at the start of the rest. -/
theorem fld_append_right {a : List Byte} {o : Nat} (h : a.length = o) (n : Nat) (b : List Byte) : fld (a ++ b) o n = fld b 0 n := by
  subst h
  simp [fld, slice]

end Sys2Proof.Laws
end

section
/-! The requests of the mailbox: what each answers, by the first check that fails (R59 to R65, R76 to R78). -/

namespace Sys2Proof.Laws

open Sys2Proof.Machine

/-! ### Responses (R62) -/

theorem rqTag_lt (q : List Byte) : rqTag q < 2 ^ 16 := fld_lt q 2 2

theorem response_length (q : List Byte) (st job count info : Nat) : (response q st job count info []).length = 128 := by
  simp [response]

/-- The fields of a response without a scan record, each at its offset. -/
theorem response_fields (q : List Byte) (st job count info : Nat) : let r := response q st job count info []
    fld r 0 2 = st % 2 ^ 16 ∧ fld r 2 2 = rqTag q ∧ fld r 4 2 = job % 2 ^ 16 ∧ fld r 8 8 = count % 2 ^ 64 ∧ fld r 16 8 = info % 2 ^ 64 := by
  have ht : rqTag q % 65536 = rqTag q := Nat.mod_eq_of_lt (rqTag_lt q)
  unfold response
  refine ⟨?_, ?_, ?_, ?_, ?_⟩ <;> simp (disch := simp) only [fld_append_left, fld_append_right, fld_toBytes, ht, Nat.reducePow]

/-! ### Serving a request (R59) -/

/-- The response is posted in the request's slot, the slot goes back to the host, and vector 0 is raised. -/
theorem respond_slot {req : Nat} (h : req < 8) (s : State) (b : List Byte) : respond s req b =
    { s with m := raiseMsix s.m 0
             host := { s.host with resps := smPut s.host.resps req b, unread := s.host.unread ++ [req], owned := s.host.owned.filter (· != req) } } :=
  if_pos h

section
variable {s : State} {req : Nat} {ev : Instr} {mine : Nat → Bool} {image : Bool} {run : Mach → List Byte → Option (Nat × Nat) → List Byte × Mach}

theorem serve_absent (h : requestOf s req = none) : serve s req ev mine image run = s := by
  simp [serve, h]

/-- A request that is the event's, whose image the host does not hold, is answered by what `run` gives for it. -/
theorem serve_answers {q : List Byte} {sub : Option (Nat × Nat)} (h : requestOf s req = some (q, sub)) (hm : mine (rqOp q) = true)
    (hi : image = true → imageHeld s.m (rqImage q) (rqLen q) = none) :
    serve s req ev mine image run = respond { s with m := (run s.m q sub).2 } req (run s.m q sub).1 := by
  have hw : (if image then imageHeld s.m (rqImage q) (rqLen q) else none) = none := by
    cases image
    · rfl
    · exact hi rfl
  simp [serve, h, hm, hw]

end

/-! ### CANCEL and QUERY (R61, R76, R78) -/

section
variable {m : Mach} {q : List Byte} {sub : Option (Nat × Nat)}

/-- Lennas knows the submitter's live jobs only. -/
theorem liveJob_eq_some {n : Nat} {j : Job} : liveJob m n sub = some j ↔ m.job n = some j ∧ j.ended = false ∧ j.submitter = sub := by
  unfold liveJob
  cases m.job n with
  | none => simp
  | some x =>
    have hx : x = j ∧ x.ended = false ∧ x.submitter = sub ↔ x = j ∧ j.ended = false ∧ j.submitter = sub := and_congr_right fun e => by rw [e]
    by_cases h : x.ended = true ∨ x.submitter ≠ sub
    · simp only [h, if_true, reduceCtorEq, Option.some.injEq, ← hx, false_iff]
      rintro ⟨-, he, hs⟩
      exact h.elim (by simp [he]) (· hs)
    · simp only [h, if_false, Option.some.injEq, ← hx]
      rw [not_or, Classical.not_not, Bool.not_eq_true] at h
      simp [h]

theorem liveJob_eq_none {n : Nat} (h : ∀ j, ¬ (m.job n = some j ∧ j.ended = false ∧ j.submitter = sub)) : liveJob m n sub = none :=
  Option.eq_none_iff_forall_ne_some.mpr fun j hj => h j (liveJob_eq_some.mp hj)

theorem cancelRun_badFields (h : submitOnlyBad q = true ∨ rqImage q ≠ 0 ∨ rqLen q ≠ 0) :
    cancelRun m q sub = (response q 2 (rqJob q) 0 0 [], m) := by
  have hb : (submitOnlyBad q || rqImage q != 0 || rqLen q != 0) = true := by simpa [or_assoc] using h
  simp [cancelRun, hb]

theorem queryRun_badFields (h : submitOnlyBad q = true ∨ rqImage q ≠ 0 ∨ rqLen q ≠ 0) :
    queryRun m q sub = (response q 2 (rqJob q) 0 0 [], m) := by
  have hb : (submitOnlyBad q || rqImage q != 0 || rqLen q != 0) = true := by simpa [or_assoc] using h
  simp [queryRun, hb]

section
variable (hp : submitOnlyBad q = false) (hi : rqImage q = 0 ∧ rqLen q = 0)
include hp hi

theorem cancelRun_noJob (h : liveJob m (rqJob q) sub = none) : cancelRun m q sub = (response q 9 (rqJob q) 0 0 [], m) := by
  simp [cancelRun, hp, hi, h]

theorem queryRun_noJob (ho : rqObj q = 0) (h : liveJob m (rqJob q) sub = none) : queryRun m q sub = (response q 9 (rqJob q) 0 0 [], m) := by
  simp [queryRun, hp, hi, ho, h]

theorem queryRun_live {j : Job} (ho : rqObj q = 0) (h : liveJob m (rqJob q) sub = some j) :
    queryRun m q sub = (response q 0 j.id j.counter 0 [], m) := by
  simp [queryRun, hp, hi, ho, h]

/-- OBJECT 0 names the job itself. -/
theorem cancelRun_live {j : Job} (ho : rqObj q = 0) (h : liveJob m (rqJob q) sub = some j) :
    cancelRun m q sub = if objectOver m (.job j.id) then (response q 10 (rqJob q) 0 0 [], m) else (response q 0 j.id 0 0 [], cancelJob m j.id) := by
  simp [cancelRun, hp, hi, ho, h, cancelObject]

end

/-! ### SUBMIT (R65) -/

/-- The checks of R65 that precede the image's are passed. -/
structure SubmitAdmitted (m : Mach) (q : List Byte) (sub : Option (Nat × Nat)) : Prop where
  op     : rqOp q = 1
  fields : submitBad q = false
  cls    : rqCls q ≤ Config.cfgMaxClass (sub.map (·.1))
  keys   : keysDenied m (sub.map (·.1)) (rqKeys q) = false
  image  : absentRange m (rqImage q) (rqLen q) = false

/-- What R65 loads of an image: its objects, or the first of their faults. -/
def submitObjs (m : Mach) (q : List Byte) : Except LoadErr (List LObj) :=
  let rd := imgRd m (rqImage q)
  loadObjs m none [] rd (imageBad rd (rqLen q)) (objSpans rd (rqLen q))

theorem submitRun_badOp (h : rqOp q ≠ 1) : submitRun m q sub = (response q 1 (rqJob q) 0 0 [], m) := by
  simp [submitRun, h]

theorem submitRun_badFields (ho : rqOp q = 1) (h : submitBad q = true) : submitRun m q sub = (response q 2 0 0 0 [], m) := by
  simp [submitRun, ho, h]

theorem submitRun_badClass (ho : rqOp q = 1) (hf : submitBad q = false) (h : Config.cfgMaxClass (sub.map (·.1)) < rqCls q) :
    submitRun m q sub = (response q 3 0 0 0 [], m) := by
  simp [submitRun, ho, hf, h]

theorem submitRun_badKeys (ho : rqOp q = 1) (hf : submitBad q = false) (hc : rqCls q ≤ Config.cfgMaxClass (sub.map (·.1)))
    (h : keysDenied m (sub.map (·.1)) (rqKeys q) = true) : submitRun m q sub = (response q 4 0 0 0 [], m) := by
  simp [submitRun, ho, hf, Nat.not_lt.mpr hc, h]

theorem submitRun_absentImage (ho : rqOp q = 1) (hf : submitBad q = false) (hc : rqCls q ≤ Config.cfgMaxClass (sub.map (·.1)))
    (hk : keysDenied m (sub.map (·.1)) (rqKeys q) = false) (h : absentRange m (rqImage q) (rqLen q) = true) :
    submitRun m q sub = (response q 5 0 0 0 [], m) := by
  simp [submitRun, ho, hf, Nat.not_lt.mpr hc, hk, h]

theorem submitRun_badObjs (a : SubmitAdmitted m q sub) {e : LoadErr} (h : submitObjs m q = .error e) :
    submitRun m q sub = (response q e.status 0 0 e.info e.scan, m) := by
  unfold submitObjs at h
  simp [submitRun, a.op, a.fields, Nat.not_lt.mpr a.cls, a.keys, a.image, h]

theorem submitRun_noRoom (a : SubmitAdmitted m q sub) {os : List LObj} (h : submitObjs m q = .ok os)
    (hj : createJob m q sub (imgRd m (rqImage q)) os = none) : submitRun m q sub = (response q 11 0 0 0 [], m) := by
  unfold submitObjs at h
  simp [submitRun, a.op, a.fields, Nat.not_lt.mpr a.cls, a.keys, a.image, h, hj]

/-- The job is created, its first phase starts, and its checkpoint is taken where its policy asks for one. -/
theorem submitRun_creates (a : SubmitAdmitted m q sub) {os : List LObj} (h : submitObjs m q = .ok os) {id : Nat} {m' : Mach}
    (hj : createJob m q sub (imgRd m (rqImage q)) os = some (id, m')) : submitRun m q sub = (response q 0 id 0 0 [],
      if rqDomain q = 0xFFFF then checkpoint (startPhase m' id) id else collReplay (checkpoint (startPhase m' id) id) (rqDomain q)) := by
  unfold submitObjs at h
  simp [submitRun, a.op, a.fields, Nat.not_lt.mpr a.cls, a.keys, a.image, h, hj]

/-- A job number that is given out again is that of a job that has ended (R68). -/
theorem freeJob_ended {n j k : Nat} (h : freeJob m n j = some k) {x : Job} (hx : m.job k = some x) : x.ended = true := by
  induction n generalizing j with
  | zero => cases h
  | succ n ih =>
    unfold freeJob at h
    split at h
    · exact ih h
    · next hfree =>
      cases h
      simpa [hx] using hfree

end

/-! ### The statement -/

theorem requests_answered {s : State} {req : Nat} {q : List Byte} (hr : req < 8) (h : requestOf s req = some (q, none)) :
    let done (r : List Byte × Mach) : State :=
      { s with m := raiseMsix r.2 0
               host := { s.host with resps := smPut s.host.resps req r.1, unread := s.host.unread ++ [req], owned := s.host.owned.filter (· != req) } }
    (rqOp q = 2 → exec (.cancelRequest req) s = .next (done (cancelRun s.m q none))) ∧
    (rqOp q = 3 → exec (.query req) s = .next (done (queryRun s.m q none))) ∧
    (rqOp q = 4 → imageHeld s.m (rqImage q) (rqLen q) = none → exec (.load req) s = .next (done (loadRun s.m q none))) ∧
    (rqOp q < 2 ∨ 4 < rqOp q → imageHeld s.m (rqImage q) (rqLen q) = none → exec (.submit req) s = .next (done (submitRun s.m q none))) := by
  refine ⟨fun ho => ?_, fun ho => ?_, fun ho hi => ?_, fun ho hi => ?_⟩
  · exact congrArg _ ((serve_answers h (by simp [ho]) (by simp)).trans (respond_slot hr _ _))
  · exact congrArg _ ((serve_answers h (by simp [ho]) (by simp)).trans (respond_slot hr _ _))
  · exact congrArg _ ((serve_answers h (by simp [ho]) fun _ => hi).trans (respond_slot hr _ _))
  · have hm : (!(rqOp q == 2 || rqOp q == 3 || rqOp q == 4)) = true := by
      simp only [Bool.not_eq_true', Bool.or_eq_false_iff, beq_eq_false_iff_ne]
      omega
    exact congrArg _ ((serve_answers h hm fun _ => hi).trans (respond_slot hr _ _))

/-- Settles O54: a request that waits is served by its own event, and each of the four runs answers by the first check that fails. -/
theorem requestsAreAnswered : Obligations.RequestsAreAnswered := by
  unfold Obligations.RequestsAreAnswered
  refine ⟨fun s req q hr h => requests_answered hr h, fun s req h => ?_, fun q st job count info => ⟨response_length .., response_fields ..⟩,
    fun m q sub => ?_, fun m n j k h x hx => freeJob_ended h hx⟩
  · exact ⟨congrArg _ (serve_absent h), congrArg _ (serve_absent h), congrArg _ (serve_absent h), congrArg _ (serve_absent h)⟩
  · extract_lets fails image live plain
    refine ⟨?_, ?_, ?_, fun ho => submitRun_badOp ho, fun ho => ⟨fun hf => submitRun_badFields ho hf, fun hf hc => submitRun_badClass ho hf hc, ?_⟩⟩
    · intro run hrun
      have bad : ¬ plain ∨ ¬ image → submitOnlyBad q = true ∨ rqImage q ≠ 0 ∨ rqLen q ≠ 0 :=
        Or.imp Bool.of_not_eq_false Classical.not_and_iff_not_or_not.mp
      obtain rfl | rfl := hrun
      · exact ⟨fun h => cancelRun_badFields (bad h), fun hp hi _ hn => cancelRun_noJob hp hi (liveJob_eq_none hn)⟩
      · exact ⟨fun h => queryRun_badFields (bad h), fun hp hi ho hn => queryRun_noJob hp hi (ho rfl) (liveJob_eq_none hn)⟩
    · exact fun j hp hi ho hl => queryRun_live hp hi ho (liveJob_eq_some.mpr hl)
    · intro j hp hi ho hl
      have hc := cancelRun_live hp hi ho (liveJob_eq_some.mpr hl)
      exact ⟨fun h => hc.trans (if_pos h), fun h => hc.trans (if_neg (Bool.eq_false_iff.mp h))⟩
    · refine fun hf hc => ⟨fun hk => submitRun_badKeys ho hf hc hk, fun hk => ⟨fun ha => submitRun_absentImage ho hf hc hk ha, fun ha => ?_⟩⟩
      have a : SubmitAdmitted m q sub := ⟨ho, hf, hc, hk, ha⟩
      exact ⟨fun e he => submitRun_badObjs a he, fun os he hj => submitRun_noRoom a he hj, fun os id m' he hj => submitRun_creates a he hj⟩

end Sys2Proof.Laws
end

section
/-! Operations that leave the records of jobs and of launches as they were: those on memory, translation, groups and cores. -/

namespace Sys2Proof.Laws

open Sys2Proof.Machine

/-! ### What is kept -/

/-- The records of jobs and of launches that the machine holds. -/
def books (m : Mach) : List (Nat × Job) × List (Nat × Launch) := (m.jobs, m.launches)

theorem job_of_books {m n : Mach} (h : books m = books n) (j : Nat) : m.job j = n.job j :=
  congrArg (fun b : List (Nat × Job) × List (Nat × Launch) => smFind b.1 j) h

theorem launch_of_books {m n : Mach} (h : books m = books n) (k : Nat) : m.launch k = n.launch k :=
  congrArg (fun b : List (Nat × Job) × List (Nat × Launch) => smFind b.2 k) h

/-- A fold of operations that keep the records keeps them. -/
theorem foldl_books {α : Type} {f : Mach → α → Mach} (h : ∀ m a, books (f m a) = books m) (l : List α) (m : Mach) : books (l.foldl f m) = books m := by
  induction l generalizing m with
  | nil => rfl
  | cons a t ih => rw [List.foldl_cons, ih, h]

/-- The same for a fold whose accumulator holds the machine first. -/
theorem foldl_fst_books {α β : Type} {f : Mach × β → α → Mach × β} (h : ∀ p a, books (f p a).1 = books p.1) (l : List α) (p : Mach × β) :
    books (l.foldl f p).1 = books p.1 := by
  induction l generalizing p with
  | nil => rfl
  | cons a t ih => rw [List.foldl_cons, ih, h]

/-- What an operation that may fail leaves of the machine keeps the records when its answer does. -/
theorem getD_books {m : Mach} {o : Option Mach} (h : ∀ n, o = some n → books n = books m) : books (o.getD m) = books m := by
  cases o with
  | none => rfl
  | some n => exact h n rfl

/-! ### Parts of the machine -/

@[simp] theorem modCore_books (m : Mach) (c : Nat) (f : Core → Core) : books (m.modCore c f) = books m := rfl
@[simp] theorem modCrew_books (m : Mach) (t : Nat) (f : Crew → Crew) : books (m.modCrew t f) = books m := by simp [books]
@[simp] theorem wakes_books (m : Mach) (t : Nat) : books (m.wakes t) = books m := by simp [books]

/-! ### Committed writes -/

@[simp] theorem fireMonitors_books (m : Mach) (line : Nat) : books (fireMonitors m line) = books m := by
  unfold fireMonitors
  dsimp only
  split
  · rw [foldl_books]
    · rfl
    · intro m c
      split <;> simp
  · rfl

@[simp] theorem commitLine_books (m : Mach) (line : Nat) (bs : List (Nat × Byte)) : books (commitLine m line bs) = books m := by
  unfold commitLine
  rw [fireMonitors_books]
  rfl

@[simp] theorem commitRun_books (m : Mach) (pa : Nat) (bs : List Byte) : books (commitRun m pa bs) = books m := by
  unfold commitRun
  split
  · rfl
  · exact foldl_books (fun _ _ => commitLine_books ..) _ _

@[simp] theorem decipher_books (m : Mach) (treat line : Nat) : books (decipher m treat line) = books m := by
  unfold decipher
  dsimp only
  split
  · rfl
  · rfl
  · split <;> rfl

@[simp] theorem touchLine_books (m : Mach) (treat cp line : Nat) : books (touchLine m treat cp line) = books m := by
  unfold touchLine
  split
  · rfl
  · dsimp only
    split <;> exact decipher_books m treat line

@[simp] theorem snoopSide_books (lines : List Nat) (m : Mach) : books (snoopSide lines m) = books m :=
  foldl_books (fun m l => by split <;> rfl) lines m

@[simp] theorem homeWrite_books (m : Mach) (treat cp pa : Nat) (bs : List Byte) : books (homeWrite m treat cp pa bs) = books m := by
  unfold homeWrite
  split
  · exact snoopSide_books _ m
  · simp

/-! ### Pages -/

theorem allocRun_books {m m' : Mach} {die n f : Nat} (h : allocRun m die n = some (f, m')) : books m' = books m := by
  obtain ⟨s, _, hs⟩ := List.exists_of_findSome?_eq_some h
  unfold stackRun at hs
  dsimp only at hs
  split at hs
  · cases hs
  · cases hs
    rfl

theorem mapFrom_books {die va leaf level tb : Nat} {m m' : Mach} (h : mapFrom m die va leaf level tb = some m') : books m' = books m := by
  induction level generalizing m tb with
  | zero => cases h; rfl
  | succ l ih =>
    unfold mapFrom at h
    dsimp only at h
    split at h
    · exact ih h
    · split at h
      · cases h
      · next f m1 ha =>
        have h1 : books m1 = books m := allocRun_books ha
        exact (ih h).trans h1

theorem mapFresh_books {m m' : Mach} {job va die : Nat} {r w x sup chk : Bool} (h : mapFresh m job va die r w x sup chk = some m') :
    books m' = books m := by
  unfold mapFresh mapUnder at h
  split at h
  · cases h
  · next f m1 ha =>
    have h1 : books m1 = books m := allocRun_books ha
    exact (mapFrom_books h).trans h1

theorem mapReadOnly_books {n job die va : Nat} {m m' : Mach} (h : mapReadOnly job die va n m = some m') : books m' = books m := by
  induction n generalizing m va with
  | zero => cases h; rfl
  | succ n ih =>
    unfold mapReadOnly at h
    split at h
    · exact ih h
    · split at h
      · next hm => exact (ih h).trans (mapFresh_books hm)
      · cases h

@[simp] theorem demandPage_books (m : Mach) (core job va : Nat) : books (demandPage m core job va) = books m := by
  unfold demandPage
  split
  · split
    · rfl
    · exact getD_books fun _ h => mapFresh_books h
  · rfl

@[simp] theorem jobWriteRun_books (m : Mach) (job va : Nat) (bs : List Byte) : books (jobWriteRun m job va bs) = books m := by
  unfold jobWriteRun
  split
  · split <;> simp
  · rfl

theorem jobWrite_books (job die n : Nat) (m : Mach) (va : Nat) (bs : List Byte) : books (jobWrite job die n m va bs) = books m := by
  induction n generalizing m va bs with
  | zero => rfl
  | succ n ih =>
    unfold jobWrite
    split
    · rfl
    · simp [ih]

@[simp] theorem jobPut_books (m : Mach) (job va : Nat) (bs : List Byte) : books (jobPut m job va bs) = books m := jobWrite_books ..

@[simp] theorem putEntry_books (m : Mach) (ea e : Nat) : books (putEntry m ea e) = books m := by simp only [books, putEntry]

@[simp] theorem putLeaf_books (m : Mach) (ea n : Nat) (new : Nat → Nat) : books (putLeaf m ea n new) = books m := by
  unfold putLeaf
  exact foldl_books (fun _ _ => putEntry_books ..) _ m

@[simp] theorem shadowClear_books (m : Mach) (job : Nat) : books (shadowClear m job) = books m :=
  foldl_books (fun m e => by split <;> rfl) _ m

@[simp] theorem clearLeaves_books (m : Mach) (job : Nat) : books (clearLeaves m job) = books m := by
  unfold clearLeaves
  generalize leavesUnder m 5 (ptrootOf m job) = ls
  have h := foldl_books (fun m (e : Nat × Nat) => putEntry_books m e.1 0) ls m
  simpa only [books] using h

theorem migratePage_books {m m' : Mach} {job va die : Nat} {moveFrame : Bool} (h : migratePage m job va die moveFrame = some m') :
    books m' = books m := by
  have moved (n : Mach) (ea f k l hi : Nat) (new : Nat → Nat) : books (tlbDrop (setHome (putLeaf n ea l new) f k die) job va hi) = books n :=
    putLeaf_books n ea l new
  unfold migratePage at h
  split at h
  · cases h
  · dsimp only at h
    split at h
    · cases h
    · split at h
      · split at h
        · cases h
        · split at h
          · cases h
          · next f m1 ha =>
            have h1 : books m1 = books m := allocRun_books ha
            cases h
            exact (moved ..).trans h1
      · cases h
        exact moved ..

@[simp] theorem applyHints_books (m : Mach) (job addr : Nat) : books (applyHints m job addr) = books m := by
  unfold applyHints
  split
  · rfl
  · refine foldl_books (fun m e => ?_) _ m
    split
    · next h => exact migratePage_books h
    · rfl

/-! ### Groups and cores -/

@[simp] theorem groupBoundary_books (m : Mach) (job : Nat) : books (groupBoundary m job) = books m := by
  refine foldl_books (fun m x => ?_) _ m
  dsimp only
  rw [foldl_books fun _ _ => modCrew_books .., foldl_books fun _ _ => modCrew_books ..]
  rfl

@[simp] theorem assignCores_books (m : Mach) (h : Nat) (sts : List Stage) : books (assignCores m h sts) = books m := by
  unfold assignCores
  exact foldl_fst_books (fun p e => foldl_books (fun m c => by simp) _ _) _ _

end Sys2Proof.Laws
end

section
/-! The events of jobs and pages: launches that start, condition nodes, phase boundaries, migrations and walks (R71 to R75, R110, R172, R173, R188,
R191). -/

namespace Sys2Proof.Laws

open Sys2Proof.Machine

/-! ### The start of a launch (R110, R191) -/

/-- What the plan of a launch that may start says: its job, a declaration of it that is no handler's, under the launch's address. -/
theorem launchPlan_ok {m : Mach} {l : Launch} {j : Job} {d : Decl} {reds : List RedEnt} {p : Option PipeDesc} (h : launchPlan m l = .ok (j, d, reds, p)) :
    m.job l.job = some j ∧ d ∈ j.decls ∧ d.addr = l.declAddr ∧ d.hdlr = false := by
  unfold launchPlan at h
  split at h
  · cases h
  · next hj =>
    split at h
    · cases h
    · next hd =>
      split at h
      · cases h
      · next hh =>
        split at h
        · cases h
        · split at h
          · cases h
          · split at h
            · cases h
            · cases h
              exact ⟨hj, List.mem_of_find?_eq_some hd, by simpa using List.find?_some hd, Bool.eq_false_iff.mpr hh⟩

section
variable {m : Mach} {l : Launch} {j : Job} (hj : m.job l.job = some j)
include hj

/-- No declaration under the launch's address but handlers'. -/
theorem launchPlan_noDecl (h : ∀ d ∈ j.decls, d.addr = l.declAddr → d.hdlr = true) : launchPlan m l = .error 1 := by
  cases hd : j.decls.find? (fun d => d.addr == l.declAddr) with
  | none => simp [launchPlan, hj, hd]
  | some d =>
    have hh : d.hdlr = true := h d (List.mem_of_find?_eq_some hd) (by simpa using List.find?_some hd)
    simp [launchPlan, hj, hd, hh]

variable {d : Decl} (hd : j.decls.find? (fun d => d.addr == l.declAddr) = some d) (hh : d.hdlr = false)
include hd hh

theorem launchPlan_badMap (hr : d.redmap ≠ 0) (h : redMap m j.id d.redmap = none) : launchPlan m l = .error 2 := by
  simp [launchPlan, hj, hd, hh, hr, h]

theorem launchPlan_badPipe (hr : d.redmap = 0) (hp : d.piped ≠ 0) (h : pipeDesc m j.id d.piped = none) : launchPlan m l = .error 3 := by
  simp [launchPlan, hj, hd, hh, hr, hp, h]

theorem launchPlan_plain (hr : d.redmap = 0) (hp : d.piped = 0) : launchPlan m l = .ok (j, d, [], none) := by
  simp [launchPlan, hj, hd, hh, hr, hp]

end

/-- With no earlier launch that may still wait for its set-aside, a launch waits for room alone. -/
theorem asideWaits_first {m : Mach} {h : Nat} (t : Nat) (p : Option PipeDesc) (hf : ∀ e ∈ m.launches, h ≤ e.1 ∨ e.2.started = true ∨ e.2.done = true) :
    asideWaits m h t p = (takesAside t p && !asideFits m t p) := by
  have hb : asideBefore m h = false := by
    rw [asideBefore, List.any_eq_false]
    intro e he
    obtain h1 | h1 | h1 := hf e he
    · simp [Nat.not_lt.mpr h1]
    · simp [h1]
    · simp [h1]
  rw [asideWaits, hb, Bool.or_false]

/-- The stages of a launch's pipeline, none without one (R109). -/
def planStages (p : Option PipeDesc) : List Stage := match p with | some x => x.stages | none => []

/-- Events that become due one after another. -/
theorem foldl_due (f : Nat → Instr) (ks : List Nat) (m : Mach) : ks.foldl (fun m k => m.due (f k)) m = { m with todo := m.todo ++ ks.map f } := by
  induction ks generalizing m with
  | nil => simp
  | cons k t ih => rw [List.foldl_cons, ih]; simp [Mach.due]

section
variable {m : Mach} {h : Nat} {l : Launch} (hl : m.launch h = some l)
include hl

theorem launchStartStep_done (hd : l.done = true) : launchStartStep m h = m := by
  simp [launchStartStep, hl, hd]

variable (hd : l.done = false)
include hd

theorem launchStartStep_queues (hs : l.started = true) (hc : l.counter ≠ 0) : launchStartStep m h = queueOn m h := by
  simp [launchStartStep, hl, hd, hs, hc]

theorem launchStartStep_completes (hs : l.started = true) (hc : l.counter = 0) : launchStartStep m h = launchDone 65536 m h := by
  simp [launchStartStep, hl, hd, hs, hc]

variable (hs : l.started = false)
include hs

theorem launchStartStep_faults {cause : Nat} (hp : launchPlan m l = .error cause) : launchStartStep m h = launchFault m h cause := by
  simp [launchStartStep, hl, hd, hs, hp]

variable {j : Job} {d : Decl} {reds : List RedEnt} {p : Option PipeDesc} (hp : launchPlan m l = .ok (j, d, reds, p))
include hp

theorem launchStartStep_waits (hw : asideWaits m h l.tile p = true) : launchStartStep m h = m := by
  simp [launchStartStep, hl, hd, hs, hp, hw]

/-- A launch that starts is recorded with its declaration, its reducers and its stages; then its roots enter, and the launches that wait for a
set-aside come next. -/
theorem launchStartStep_starts (hw : asideWaits m h l.tile p = false) : ∃ (t : Mach) (l' : Launch) (ks : List Nat),
    launchStartStep m h = ks.foldl (fun m k => m.due (.launchStart k)) (queueOn t h) ∧ t.launch h = some l' ∧ l'.started = true ∧ l'.decl = some d ∧
    l'.counter = l.counter ∧ l'.reds = reds ∧ l'.stages = planStages p := by
  generalize hr : launchStartStep m h = r
  unfold launchStartStep at hr
  split at hr
  · next e => cases e.symm.trans hl
  · next e =>
    cases e.symm.trans hl
    rw [if_neg (by simp [hd]), if_neg (by simp [hs]), if_neg (by simp [hs])] at hr
    split at hr
    · next e => cases e.symm.trans hp
    · next e =>
      cases e.symm.trans hp
      rw [if_neg (by simp [hw])] at hr
      extract_lets m1 sts l' m2 m3 m4 m5 at hr
      have h3 : books m3 = books m2 := getD_books fun _ e => mapReadOnly_books e
      have h4 : m4.launch h = m3.launch h := by
        unfold m4
        split
        · exact (launch_of_books (jobPut_books ..) h).trans (by simp [Mach.launch])
        · rfl
      have h5 : (assignCores m4 h sts).launch h = some l' := calc
        (assignCores m4 h sts).launch h = m4.launch h := launch_of_books (assignCores_books ..) h
        _ = m2.launch h := h4.trans (launch_of_books h3 h)
        _ = some l' := (launch_setLaunch ..).trans (if_pos rfl)
      exact ⟨_, l', _, hr.symm, h5, rfl, rfl, rfl, rfl, rfl⟩

end

/-! ### Condition nodes (R72) -/

section
variable {m : Mach} {job n : Nat} {j : Job} {nd : Node}

section
variable (hj : m.job job = some j) (hn : nodeAt j n = some nd)
include hj hn

theorem conditionRead_idle (h : nd.cond = false ∨ (nodeState j n ≠ .running ∧ nodeState j n ≠ .failed)) : conditionRead m job n = m := by
  obtain h | ⟨hr, hf⟩ := h
  · simp [conditionRead, hj, hn, h]
  · simp [conditionRead, hj, hn, hr, hf]

theorem conditionRead_failed (hc : nd.cond = true) (h : nodeState j n = .failed) : conditionRead m job n = notice (cancelGraph m job) 3 job := by
  simp [conditionRead, hj, hn, hc, h]

theorem conditionRead_running (hc : nd.cond = true) (h : nodeState j n = .running) :
    conditionRead m job n = graphAdvance (condNode m job n j nd) job := by
  simp [conditionRead, hj, hn, hc, h]

end

section
variable (hh : heldLines (m.setJob job (setNode j n .running)) (condWho job) [(nd.addr, 8)] = [])
include hh

theorem condNode_chooses {b : List Byte} {m' : Mach} (h : condFetch (m.setJob job (setNode j n .running)) job n nd.addr = .data b m') :
    condNode m job n j nd =
      (apUsed m' (condOp job n)).modJob job (fun j => setNode j n (.taken (nd.succ[min (ofBytes b) (nd.succ.length - 1)]?))) := by
  simp [condNode, hh, h]

theorem condNode_later {m' : Mach} (h : condFetch (m.setJob job (setNode j n .running)) job n nd.addr = .later m') :
    condNode m job n j nd = m'.due (.conditionNodeRead job n) := by
  simp [condNode, hh, h]

end
end

/-! ### Phase boundaries (R74) -/

/-- The job as a phase boundary leaves it: one phase run on, in the same phase while runs of it are left, else in the next. -/
structure PhasePast (j j' : Job) : Prop where
  number : j'.phaseNo = j.phaseNo + 1
  count  : j'.counter = j.counter - 1
  idle   : j'.phaseCtr = 0
  place  : ∀ p, j.phases[j.phase]? = some p →
    if p.repeats = 0 ∨ j.runs + 1 < p.repeats then j'.phase = j.phase ∧ j'.runs = j.runs + 1 else j'.phase = j.phase + 1 ∧ j'.runs = 0

/-- The serial numbers that start again are all that changes of the job. -/
theorem restartSerials_job {m : Mach} {job : Nat} {j : Job} (h : m.job job = some j) : ∃ n, (restartSerials m job).job job = some { j with nextLsn := n } := by
  unfold restartSerials
  rw [h]
  dsimp only
  split
  · exact ⟨j.nextLsn, h⟩
  · refine ⟨1, ?_⟩
    have hc : (shadowClear m job).job job = some j := (job_of_books (shadowClear_books ..) job).trans h
    rw [job_modJob, if_pos rfl]
    exact congrArg (Option.map _) hc

section
variable {m : Mach} {job : Nat} {j : Job}

theorem boundaryStep_or (m : Mach) (job : Nat) :
    boundaryStep m job = phaseBoundaryStep m job ∨ boundaryStep m job = checkpoint (phaseBoundaryStep m job) job := by
  unfold boundaryStep
  dsimp only
  split
  · exact .inl rfl
  · exact .inr rfl

/-- A boundary at which the job stays in its phase run takes no checkpoint. -/
theorem boundaryStep_stays {m' : Mach} (h : phaseBoundaryStep m job = m') (hn : (m'.job job).map Job.phaseNo = (m.job job).map Job.phaseNo) :
    boundaryStep m job = m' := by
  subst h
  refine if_pos ?_
  dsimp only
  generalize (phaseBoundaryStep m job).job job = a, m.job job = b at hn ⊢
  cases a with
  | none => cases Option.map_eq_none_iff.mp hn.symm; rfl
  | some x =>
    obtain ⟨y, rfl, hy⟩ := Option.map_eq_some_iff.mp hn.symm
    exact hy.symm

variable (hj : m.job job = some j)
include hj

theorem boundaryStep_idle (hc : j.phaseCtr ≠ 1) (he : j.ended = false) : boundaryStep m job = m :=
  boundaryStep_stays (by simp [phaseBoundaryStep, hj, he, hc]) rfl

theorem boundaryStep_waits (h : (j.ended = true ∧ enginesBusy m job = true) ∨
    (j.phaseCtr = 1 ∧ j.ended = false ∧ (enginesBusy m job = true ∨ liveLaunches m job ≠ []))) : boundaryStep m job = m.due (.phaseBoundary job) := by
  refine boundaryStep_stays ?_ rfl
  obtain ⟨he, hb⟩ | ⟨hc, he, hb⟩ := h
  · simp [phaseBoundaryStep, hj, he, closeJob, hb]
  · have hw : (enginesBusy m job || !(liveLaunches m job).isEmpty) = true := by simpa using hb
    simp [phaseBoundaryStep, hj, he, hc, hw]

theorem boundaryStep_unmaps (he : j.ended = true) (hb : enginesBusy m job = false) : boundaryStep m job = unmapJob m job := by
  refine boundaryStep_stays (by simp [phaseBoundaryStep, hj, he, closeJob, hb]) ?_
  have hu : (unmapJob m job).job job = (m.job job).map (fun j => { j with ptroot := 0, regions := [] }) :=
    (job_modJob (clearLeaves m job) job job _).trans ((if_pos rfl).trans (congrArg _ (job_of_books (clearLeaves_books m job) job)))
  rw [hu, Option.map_map]
  rfl

/-- Once the engines have finished, the launches have ended and the host holds no page that a hint moves, the next phase run starts, or the job ends. -/
theorem phaseBoundaryStep_passes (hc : j.phaseCtr = 1) (he : j.ended = false) (hb : enginesBusy m job = false) (hl : liveLaunches m job = [])
    (hh : hintHeld m j = []) : ∃ (m' : Mach) (j' : Job), m'.job job = some j' ∧ PhasePast j j' ∧
      phaseBoundaryStep m job = if j'.phase < j.phases.length then startPhase m' job else endJob m' job 1 := by
  generalize hr : phaseBoundaryStep m job = r
  unfold phaseBoundaryStep at hr
  split at hr
  · next e => cases e.symm.trans hj
  · next e =>
    cases e.symm.trans hj
    rw [if_neg (by simp [he]), if_neg (by simp [hc]), if_neg (by simp [hb, hl])] at hr
    extract_lets held m1 m2 rep stay m3 at hr
    rw [if_neg (by simp [held, hh])] at hr
    have h1 : (groupBoundary m1 job).job job = some j :=
      (job_of_books ((groupBoundary_books ..).trans (foldl_books (fun _ _ => applyHints_books ..) _ m)) job).trans hj
    obtain ⟨n, h2⟩ := restartSerials_job h1
    have h3 : m3.job job = _ := (job_modJob m2 job job _).trans ((if_pos rfl).trans (congrArg _ h2))
    rw [h3] at hr
    refine ⟨m3, _, h3, ⟨rfl, rfl, rfl, fun p hp => ?_⟩, hr.symm⟩
    have hrep : rep = p.repeats := by simp [rep, hp]
    by_cases hst : p.repeats = 0 ∨ j.runs + 1 < p.repeats
    · simp [stay, hrep, hst]
    · simp [stay, hrep, hst]

end

/-! ### Page migration (R188) -/

section
variable {m : Mach} {job va die : Nat} {move : Bool}

theorem migrateOnline_held (h : pageHeld m job va ≠ []) :
    migrateOnline m job va die move = (snoopSide (pageHeld m job va) m).due (.pageMigration job (w64 va) die move) := by
  simp [migrateOnline, h]

/-- Some engine operation of the job still holds translations or lines of its pages. -/
def PageBusy (m : Mach) (job : Nat) : Prop := holdsTranslation m job = true ∨ ∃ r ∈ heldRanges m, r.2.1 = job

theorem pageBusy_iff : PageBusy m job ↔ (holdsTranslation m job || (heldRanges m).any (fun r => r.2.1 == job)) = true := by
  simp [PageBusy]

theorem migrateOnline_busy (h : pageHeld m job va = []) (hb : PageBusy m job) :
    migrateOnline m job va die move = m.due (.pageMigration job (w64 va) die move) := by
  simp [migrateOnline, h, pageBusy_iff.mp hb]

theorem migrateOnline_free (h : pageHeld m job va = []) (hb : ¬ PageBusy m job) : migrateOnline m job va die move = (migratePage m job va die move).getD m := by
  rw [pageBusy_iff, Bool.not_eq_true] at hb
  simp [migrateOnline, h, hb]

theorem migratePage_noPage (h : pageBase m job va = none) : migratePage m job va die move = none := by
  simp [migratePage, h]

variable {l : BitVec 128} {ea : Nat} (hp : pageBase m job va = some (l, ea))
include hp

theorem migratePage_stays (h : lfHome l = die ∨ viewPage m job va (pageBytes (lfSIZE l)) = true ∨ 8 ≤ die) : migratePage m job va die move = none := by
  simp [migratePage, hp, h]

/-- A page whose frame stays gets its new home in every replica of its leaf and in the frame-home table, and its translations go. -/
theorem migratePage_homes (hm : lfHome l ≠ die) (hv : viewPage m job va (pageBytes (lfSIZE l)) = false) (hd : die < 8) : migratePage m job va die false =
    some (tlbDrop (setHome (putLeaf m ea (lfSIZE l) (fun x => x - bits x 127 125 * 2 ^ 125 + die * 2 ^ 125)) (lfFrame l) (pageBytes (lfSIZE l) / 4096) die)
      job va (va + pageBytes (lfSIZE l))) := by
  simp [migratePage, hp, hm, hv, Nat.not_le.mpr hd]

end

/-- A leaf with another home keeps every other bit (R169). -/
theorem homed_leaf {die : Nat} (hd : die < 8) {x : Nat} (hx : x < 2 ^ 128) : let y := x - bits x 127 125 * 2 ^ 125 + die * 2 ^ 125
    lfHome (BitVec.ofNat 128 y) = die ∧ y % 2 ^ 125 = x % 2 ^ 125 := by
  simp only [lfHome, bits, BitVec.toNat_ofNat, Nat.shiftRight_eq_div_pow, Nat.reduceAdd, Nat.reduceSub]
  omega

/-! ### Walks (R172, R173) -/

section
variable {m : Mach} {core job va : Nat}

theorem walkFill_write {o : Ok} (h : check1 m { core := core, job := job, sup := isControl core } 2 true { lane := 0, va := va, size := 1 } = .ok o) :
    walkFill m core job va true = fillTlb m core job va true := by
  simp [walkFill, h]

theorem walkFill_read {o : Ok} (h : check1 m { core := core, job := job, sup := isControl core } 1 true { lane := 0, va := va, size := 1 } = .ok o) :
    walkFill m core job va false = fillTlb m core job va false := by
  simp [walkFill, h]

/-- A write whose access may not proceed, but for the line's key treatment, fills nothing. -/
theorem walkFill_fails {n : Nat} {e : Halt} (h : check1 m { core := core, job := job, sup := isControl core } 2 true { lane := 0, va := va, size := 1 } = .error (n, e))
    (hn : n ≠ 5) : walkFill m core job va true = m := by
  simp [walkFill, h, hn]

end

/-! ### The statement -/

/-! Each event is a run of one operation on the machine. -/

section
variable {s : State} {m' : Mach}

theorem exec_launchStart {h : Nat} (e : launchStartStep s.m h = m') : exec (.launchStart h) s = .next { s with m := m' } := by
  subst e
  rfl
theorem exec_conditionNodeRead {job n : Nat} (e : conditionRead s.m job n = m') : exec (.conditionNodeRead job n) s = .next { s with m := m' } := by
  subst e
  rfl
theorem exec_phaseBoundary {job : Nat} (e : boundaryStep s.m job = m') : exec (.phaseBoundary job) s = .next { s with m := m' } := by
  subst e
  rfl
theorem exec_pageMigration {job die : Nat} {page : Word} {move : Bool} (e : migrateOnline s.m job page.toNat die move = m') : exec (.pageMigration job page die move) s = .next { s with m := m' } := by
  subst e
  rfl
theorem exec_walkComplete {core job : Nat} {va : Word} {write : Bool} (e : walkFill s.m core job va.toNat write = m') : exec (.walkComplete core job va write) s = .next { s with m := m' } := by
  subst e
  rfl

end

/-- Settles O59: each event is a run of one operation on the machine, and each case of that operation is a lemma above. -/
theorem jobAndPageEvents : Obligations.JobAndPageEvents := by
  unfold Obligations.JobAndPageEvents
  intro s
  refine ⟨fun h l hl => ⟨fun hd => exec_launchStart (launchStartStep_done hl hd), fun hd hs hc => exec_launchStart (launchStartStep_queues hl hd hs hc),
      fun hd hs hc => exec_launchStart (launchStartStep_completes hl hd hs hc), fun hd hs => ⟨fun cause hp => exec_launchStart (launchStartStep_faults hl hd hs hp), ?_, ?_⟩⟩,
    fun h t hf => asideWaits_first t none hf, fun l j d t i => ⟨rfl, rfl, rfl, rfl, rfl, rfl⟩, ?_, ?_, ?_, ?_⟩
  · intro j d reds p hp
    obtain ⟨hj, hm, ha, hh⟩ := launchPlan_ok hp
    refine ⟨hj, hm, ha, hh, fun hw => exec_launchStart (launchStartStep_waits hl hd hs hp hw), fun hw => ?_⟩
    obtain ⟨t, l', ks, he, ht⟩ := launchStartStep_starts hl hd hs hp hw
    refine ⟨t, l', ks.map .launchStart, exec_launchStart (he.trans (foldl_due _ ks _)), ?_, ht⟩
    simp only [List.mem_map]
    rintro i ⟨k, -, rfl⟩
    exact ⟨k, rfl⟩
  · intro j hj
    exact ⟨launchPlan_noDecl hj, fun d hd hh => ⟨launchPlan_badMap hj hd hh, launchPlan_badPipe hj hd hh, launchPlan_plain hj hd hh⟩⟩
  · intro job n j nd hj hn
    exact ⟨fun h => exec_conditionNodeRead (conditionRead_idle hj hn h), fun hc h => exec_conditionNodeRead (conditionRead_failed hj hn hc h),
      fun hc h => exec_conditionNodeRead (conditionRead_running hj hn hc h), fun hh => ⟨fun b m h => condNode_chooses hh h, fun m h => condNode_later hh h⟩⟩
  · intro job j hj
    refine ⟨fun hc he => exec_phaseBoundary (boundaryStep_idle hj hc he), fun h => exec_phaseBoundary (boundaryStep_waits hj h),
      fun he hb => exec_phaseBoundary (boundaryStep_unmaps hj he hb), fun hc he hb hl hh => ?_⟩
    obtain ⟨m', j', hm, ⟨hno, hct, hid, hpl⟩, hp⟩ := phaseBoundaryStep_passes hj hc he hb hl hh
    refine ⟨phaseBoundaryStep s.m job, j', ?_, hno, hct, hid, hpl, m', hm, hp⟩
    exact (boundaryStep_or s.m job).imp exec_phaseBoundary exec_phaseBoundary
  · intro job page die move
    have hw : w64 page.toNat = page := BitVec.ofNat_toNat ..|>.trans (BitVec.setWidth_eq _)
    refine ⟨fun h => exec_pageMigration ((migrateOnline_held h).trans (by rw [hw]; rfl)), fun h hb => exec_pageMigration ((migrateOnline_busy h hb).trans (by rw [hw]; rfl)),
      fun h hb => ⟨fun hp => exec_pageMigration ((migrateOnline_free h hb).trans (by rw [migratePage_noPage hp]; rfl)), fun l ea hp => ⟨fun hs => ?_, ?_, ?_⟩⟩⟩
    · exact exec_pageMigration ((migrateOnline_free h hb).trans (by rw [migratePage_stays hp hs]; rfl))
    · rintro hm hv hd rfl
      exact exec_pageMigration ((migrateOnline_free h hb).trans (by rw [migratePage_homes hp hm hv hd]; rfl))
    · exact fun hd x hx => homed_leaf hd hx
  · intro core job va write
    refine ⟨?_, ?_, ?_⟩
    · rintro o rfl h
      exact exec_walkComplete (walkFill_write h)
    · rintro o rfl h
      exact exec_walkComplete (walkFill_read h)
    · rintro n e rfl h hn
      exact exec_walkComplete (walkFill_fails h hn)

end Sys2Proof.Laws
end

section
/-! The turn of a step: what a crew's fetch, the agenda and the module's own agents hand on to run (R119, R267, R280). -/

namespace Sys2Proof.Laws

open Sys2Proof.Machine

/-! ### Fetch and decode at the issue address -/

/-- An instruction of one word is its 8 bytes at the physical address that the access of the fetch gives. -/
theorem fetchInstr_short {f m : Mach} {c : Crew} {pc : Word} {o : Ok} {l : List Ok}
    (h : checkAll f (whoOf c) 4 false [{ lane := lowLane (activeLanes c), va := pc.toNat, size := 8 }] = .ok (m, o :: l))
    (hw : bit (ofBytes (memRead m.mem o.pa 8)) 63 = false) : fetchInstr f c pc = .ok (m, memRead m.mem o.pa 8) := by
  have hb : fetchBytes f c pc 8 = .ok (m, memRead m.mem o.pa 8) := by simp [fetchBytes, h]
  simp [fetchInstr, hb, hw]

section
variable {f m : Mach} {pc : Word} {b : List Byte} (hc : canIssue f.cur = some pc) (hl : f.cur.late = none) (hf : fetchInstr f f.cur pc = .ok (m, b))
include hc hl hf

theorem fetchTurn_instr (k : Nat) {i : Instr} {n : Nat} (hh : isHeader (fld b 0 8) = false) (hd : decodeBytes b = .ok (i, n)) (hw : i.wf = true) :
    fetchTurn (k + 1) f = .run i m := by
  simp [fetchTurn, hc, hl, hf, hh, hd, hw]

/-- A header is passed, and the crew's turn goes on behind it. -/
theorem fetchTurn_header (k : Nat) (hh : isHeader (fld b 0 8) = true) : fetchTurn (k + 1) f = fetchTurn k (passHeader m pc (fld b 0 8)) := by
  simp [fetchTurn, hc, hl, hf, hh]

end

/-! ### Whose turn it is -/

theorem eventTurn_event {i : Instr} (h : i.isEvent = true) (m : Mach) : eventTurn i m = .run i m := if_pos h

section
variable {run : Runs} {m : Mach}

theorem turn_issue {dt t : Nat} {rest : List (Nat × Turn)} (h : m.agenda = (dt, .issue t) :: rest) :
    turn run m = crewTurn (untilReady (pass dt { m with agenda := rest }) t) t := by simp [turn, h]

theorem turn_event {dt : Nat} {i : Instr} {rest : List (Nat × Turn)} (h : m.agenda = (dt, .event i) :: rest) :
    turn run m = eventTurn i (pass dt { m with agenda := rest }) := by simp [turn, h]

theorem turn_own (h : m.agenda = []) : turn run m = ownTurn run m := by simp [turn, h]

/-- An event that is due goes before the crews. -/
theorem ownTurn_due {n : Nat} {i : Instr} {rest : List Instr} (he : m.evLeft = n + 1) (ht : m.todo = i :: rest) :
    ownTurn run m = eventTurn i { m with evLeft := n, todo := rest } := by simp [ownTurn, he, ht]

section
variable (hn : m.evLeft = 0 ∨ m.todo = [])
include hn

theorem ownTurn_chosen {t : Nat} {l : List Nat} (hp : m.picks = some (t :: l)) : ownTurn run m = crewTurn { m with picks := some l } t := by
  obtain h | h := hn <;> simp [ownTurn, h, hp]

theorem ownTurn_chooses {g : Mach} {t : Nat} {l : List Nat} (hp : m.picks = none) (hg : pickAll run m = (g, t :: l)) :
    ownTurn run m = crewTurn { g with picks := some l } t := by
  obtain h | h := hn <;> simp [ownTurn, h, hp, hg]

theorem ownTurn_idle (hp : m.picks = some []) : ownTurn run m = .done (newCycle 1 m) := by
  obtain h | h := hn <;> simp [ownTurn, h, hp]

end

end

/-! ### The step -/

theorem step_run {s : State} {i : Instr} {m : Mach} (h : turn (runOf s) s.m = .run i m) : step s = exec i { s with m := m } := by
  simp [step, h]

theorem step_done {s : State} {m : Mach} (h : turn (runOf s) s.m = .done m) : step s = .next { s with m := m } := by
  simp [step, h]

/-- Settles O1: the turn is the crew's that the agenda or its core names, or the event's, and the step is exec of what that turn hands on. -/
theorem stepRunsDecodedInstruction : Obligations.StepRunsDecodedInstruction := by
  unfold Obligations.StepRunsDecodedInstruction
  refine ⟨?_, ?_, ?_, fun f m c pc o l h hw => fetchInstr_short h hw, ?_, ?_, ?_⟩
  · intro s dt t rest m pc b i n ha f hc hl hf hh hd hw
    exact step_run ((turn_issue ha).trans (fetchTurn_instr hc hl hf 2 hh hd hw))
  · intro s t l m pc b i n ha hn g hg f hc hl hf hh hd hw
    have ht : ownTurn (runOf s) s.m = crewTurn { g with picks := some l } t := by
      obtain ⟨hp, rfl⟩ | ⟨hp, hg⟩ := hg
      · exact ownTurn_chosen hn hp
      · exact ownTurn_chooses hn hp hg
    exact step_run ((turn_own ha).trans (ht.trans (fetchTurn_instr hc hl hf 2 hh hd hw)))
  · intro f m m' pc pc' b b' i n k hc hl hf hh g hc' hl' hf' hh' hd hw
    exact (fetchTurn_header hc hl hf (k + 1) hh).trans (fetchTurn_instr hc' hl' hf' k hh' hd hw)
  · intro s dt rest i ha he
    exact step_run ((turn_event ha).trans (eventTurn_event he _))
  · intro s n rest i ha hn ht he
    exact step_run ((turn_own ha).trans ((ownTurn_due hn ht).trans (eventTurn_event he _)))
  · intro s ha hn hp
    exact step_done ((turn_own ha).trans (ownTurn_idle hn hp))

end Sys2Proof.Laws
end

section
/-! How a wait begins and what its end does (R116 to R118, R368, R374, R382, R383, R391). -/

namespace Sys2Proof.Laws

open Sys2Proof.Machine

/-! ### The parts of a wait -/

/-- A crew in its slots does not become resumable. -/
theorem settle_inSlots {c : Crew} (h : c.slots ≠ []) (clk : Nat) : settle clk c = c := by simp [settle, h]

/-- A measured quantity touches the captures alone. -/
theorem monSample_captures (m : Mach) (ev : Config.MonEvent) (unit v : Nat) : ∃ cs, monSample m ev unit v = { m with captures := cs } := by
  unfold monSample
  split
  · exact ⟨_, rfl⟩
  · exact ⟨m.captures, rfl⟩

@[simp] theorem putUniform_tid (c : Crew) (d : Opd) (x : Word) (t : Tag) (lanes : Mask) : (putUniform c d x t lanes).tid = c.tid := by
  unfold putUniform; split <;> rfl
@[simp] theorem putUniform_slots (c : Crew) (d : Opd) (x : Word) (t : Tag) (lanes : Mask) : (putUniform c d x t lanes).slots = c.slots := by
  unfold putUniform; split <;> rfl
@[simp] theorem groupResult_tid (parts : List Part) (p : Word) (act : GroupAct) (lanes : Mask) (c : Crew) : (groupResult parts p act lanes c).tid = c.tid := by
  cases act <;> simp [groupResult]
@[simp] theorem groupResult_slots (parts : List Part) (p : Word) (act : GroupAct) (lanes : Mask) (c : Crew) :
    (groupResult parts p act lanes c).slots = c.slots := by
  cases act <;> simp [groupResult]

/-- The current crew as it goes on from a wait: ready from this cycle. -/
def wentOn (m : Mach) : Crew := { m.cur with status := .ready, stamp := m.clk, woken := false }

@[simp] theorem wentOn_ped (m : Mach) : (wentOn m).ped = m.cur.ped := rfl
@[simp] theorem wentOn_rrk (m : Mach) : (wentOn m).rrk = m.cur.rrk := rfl

/-- The current crew goes on, in its slots. -/
theorem goOn_cur {m : Mach} {f : Crew → Crew} (hs : m.cur.slots ≠ []) (ht : ∀ c, (f c).tid = c.tid) (hf : ∀ c, (f c).slots = c.slots) :
    goOn m m.cur.tid f = { m with cur := { f (wentOn m) with slots := m.cur.slots } } := by
  have hc : settle m.clk (f (wentOn m)) = { f (wentOn m) with slots := m.cur.slots } := by
    have hsl : (f (wentOn m)).slots = m.cur.slots := hf _
    rw [settle_inSlots (hsl ▸ hs), ← hsl]
  have hm := modCrew_cur m (fun c => settle m.clk (f { c with status := .ready, stamp := m.clk, woken := false }))
    ((congrArg Crew.tid hc).trans (ht _))
  exact hm.trans (congrArg (fun c => { m with cur := c }) hc)

/-! ### The beginning of a wait -/

section
variable {m : Mach} {w : Wait}

theorem park_holds (h : waitHolds m m.cur w = true) : park m m.cur.tid w = waitFinish m m.cur.tid w := by simp [park, crew_cur, h]

variable (h : waitHolds m m.cur w = false)
include h

theorem park_parks (hu : tableUsed m (dieOf m.cur.core) < 2048) :
    ∃ cs, park m m.cur.tid w = { m with cur := { m.cur with status := .parked w m.clk, woken := false }, captures := cs } := by
  obtain ⟨cs, hcs⟩ := monSample_captures { m with cur := { m.cur with status := .parked w m.clk, woken := false } } .waitTable (dieOf m.cur.core)
    (tableUsed { m with cur := { m.cur with status := .parked w m.clk, woken := false } } (dieOf m.cur.core))
  refine ⟨cs, ?_⟩
  simp only [park, crew_cur, h, hu, parkAt, Mach.setCrew, Bool.false_eq_true, if_false, if_true]
  exact hcs

theorem park_polls (hu : 2048 ≤ tableUsed m (dieOf m.cur.core)) :
    park m m.cur.tid w = { m with cur := { m.cur with status := .polling w (m.clk + 2048) } } := by
  simp [park, crew_cur, h, Nat.not_lt.mpr hu, Mach.setCrew]

end

/-! ### The end of a wait -/

@[simp] theorem joined_tid (reds : List RedEnt) (p : Ped) (k : Half) (c : Crew) : (joined reds p k c).tid = c.tid := rfl
@[simp] theorem joined_slots (reds : List RedEnt) (p : Ped) (k : Half) (c : Crew) : (joined reds p k c).slots = c.slots := rfl

/-- The merge of a join leaves the registers alone. -/
theorem joined_kept (reds : List RedEnt) (p : Ped) (k : Half) (m : Mach) (l : List Nat) (d : Nat → List (Nat × Nat)) :
    RegsKept l d m.cur (joined reds p k (wentOn m)) :=
  ⟨fun _ _ _ _ => rfl, fun _ _ => rfl, fun _ _ => ⟨rfl, rfl⟩, fun _ _ _ => rfl, fun _ _ => rfl, rfl, rfl⟩

section
variable {m : Mach} (hs : m.cur.slots ≠ [])
include hs

/-- A join of any kind: the pedigree after it and the key of its random numbers are functions of the crew before it. -/
theorem goOn_joined (p : Crew → Ped) (k : Crew → Half) : goOn m m.cur.tid (fun c => joined (redsOf m c) (p c) (k c) c) =
    { m with cur := joined (redsOf m m.cur) (p (wentOn m)) (k (wentOn m)) (wentOn m) } :=
  goOn_cur hs (fun _ => joined_tid ..) (fun _ => joined_slots ..)

theorem waitFinish_join : waitFinish m m.cur.tid (.join .join) =
    { m with cur := joined (redsOf m m.cur) (pedJoin m.cur.ped) m.cur.rrk (wentOn m) } := by
  rw [waitFinish, crew_cur, ← wentOn_ped, ← wentOn_rrk]
  exact goOn_joined hs (fun c => pedJoin c.ped) (·.rrk)

theorem waitFinish_preroot : waitFinish m m.cur.tid (.join .preroot) =
    { m with cur := joined (redsOf m m.cur) (pedReroot m.cur.ped) (lo32 (pdig m.cur.ped)) (wentOn m) } := by
  rw [waitFinish, crew_cur, ← wentOn_ped]
  exact goOn_joined hs (fun c => pedReroot c.ped) (fun c => lo32 (pdig c.ped))

end

/-- Settles O29: a wait that begins by what holds and by the room of its die's table, and each wait's end by the crew's going on in its slots. -/
theorem waitRules : Obligations.WaitRules := by
  unfold Obligations.WaitRules Statement.WaitsParkPollOrGoOn Statement.WaitsEnd
  refine ⟨fun m w => ⟨park_holds, park_parks, park_polls⟩, fun m hs => ?_⟩
  extract_lets on
  refine ⟨⟨_, waitFinish_join hs, rfl, rfl, rfl, rfl, rfl, rfl, rfl, rfl, rfl, joined_kept ..⟩,
    ⟨_, waitFinish_preroot hs, rfl, rfl, rfl, rfl, rfl, rfl, rfl, joined_kept ..⟩, ?_, ?_, ?_⟩
  · intro d k b
    rw [waitFinish, crew_cur]
    exact goOn_cur (f := id) hs (fun _ => rfl) (fun _ => rfl)
  · rw [waitFinish, crew_cur]
    exact goOn_cur hs (fun _ => rfl) (fun _ => rfl)
  · intro g p act lanes
    rw [waitFinish, crew_cur]
    exact congrArg (groupTidy · g) (goOn_cur hs (groupResult_tid _ p act lanes) (groupResult_slots _ p act lanes))

end Sys2Proof.Laws
end

section
/-! `exit` by the last live lane (R312): the segment commits, and what a commit leaves of the current crew decides whether the task ends. -/

namespace Sys2Proof.Laws

open Sys2Proof.Machine

/-! ### The release test -/

/-- The release test moves lanes and ends their waiting; the rest of the crew stays as it was (R313). -/
theorem syncTest_eq (c : Crew) : ∃ ps w ss, syncTest c = { c with pcs := ps, waiting := w, syncs := ss } := by
  unfold syncTest
  dsimp only
  generalize c.syncs = l
  induction l generalizing c with
  | nil => exact ⟨_, _, _, rfl⟩
  | cons s t ih =>
    rw [List.foldl_cons]
    split
    · obtain ⟨ps, w, ss, h⟩ := ih _
      rw [h, setPcs_eq]
      exact ⟨_, _, _, rfl⟩
    · exact ih c

@[simp] theorem syncTest_live (c : Crew) : (syncTest c).live = c.live := by
  obtain ⟨_, _, _, h⟩ := syncTest_eq c
  rw [h]
@[simp] theorem syncTest_tid (c : Crew) : (syncTest c).tid = c.tid := by
  obtain ⟨_, _, _, h⟩ := syncTest_eq c
  rw [h]

/-! ### The last lane's exit -/

@[simp] theorem issued_live (m : Mach) (pc : Word) (op : Nat) (f : Fields) : (issued m pc op f).cur.live = m.cur.live := by
  obtain ⟨_, _, _, _, _, h⟩ := issued_cur m pc op f
  rw [h]

@[simp] theorem issued_tid (m : Mach) (pc : Word) (op : Nat) (f : Fields) : (issued m pc op f).cur.tid = m.cur.tid := by
  obtain ⟨_, _, _, _, _, h⟩ := issued_cur m pc op f
  rw [h]

/-- The machine from which `exit` commits: the lanes of E are out of the live set, and the release test is made. -/
def exitLeft (m : Mach) (pc : Word) (f : Fields) : Mach :=
  { issued m pc 0x36 f with cur := syncTest { (issued m pc 0x36 f).cur with live := m.cur.live &&& ~~~ (issueCtx m pc 0x36 f).e } }

@[simp] theorem exitLeft_live (m : Mach) (pc : Word) (f : Fields) :
    (exitLeft m pc f).cur.live = m.cur.live &&& ~~~ (issueCtx m pc 0x36 f).e := syncTest_live _
@[simp] theorem exitLeft_tid (m : Mach) (pc : Word) (f : Fields) : (exitLeft m pc f).cur.tid = m.cur.tid :=
  (syncTest_tid _).trans (issued_tid ..)

/-- When no live lane is left and the segment commits, the crew that is then the current one ends its task, if no lane of it lives. -/
theorem exec_exit_last {s : State} {f : Fields} {pc : Word} {m : Mach} (h : Issues s 0x36 f pc)
    (hl : s.m.cur.live &&& ~~~ (issueCtx s.m pc 0x36 f).e = 0) (hc : commit (exitLeft s.m pc f) = .ok m) :
    exec (.exit f) s = .next { s with m := taskEnds m m.cur.tid } := by
  have hb : exitBody (issueCtx s.m pc 0x36 f) (issued s.m pc 0x36 f) = .ok (taskEnds m m.cur.tid) := by
    simp only [exitLeft, exitBody, issued_live, syncTest_live, hl, if_true] at hc ⊢
    rw [hc]
  exact runInstr_ok h hb

/-- A crew whose lanes live keeps its task. -/
theorem taskEnds_live {m : Mach} (h : m.cur.live ≠ 0) : taskEnds m m.cur.tid = m := by simp only [taskEnds, crew_cur, if_neg h]
theorem taskEnds_ended {m : Mach} (h : m.cur.live = 0) : taskEnds m m.cur.tid = park m m.cur.tid (.join .taskEnd) := by
  simp only [taskEnds, crew_cur, if_pos h]

/-! ### Where the current crew's number is its own, `exit` does what R312 says -/

/-- No other crew bears the number of the current one. -/
def CurAlone (m : Mach) : Prop := ∀ t c, smFind m.others t = some c → c.tid ≠ m.cur.tid

/-- The current crew goes on under its number, which stays its own, and with its live lanes. -/
def CurGoesOn (m n : Mach) : Prop := n.cur.tid = m.cur.tid ∧ n.cur.live = m.cur.live ∧ CurAlone n

theorem curGoesOn_refl {m : Mach} (h : CurAlone m) : CurGoesOn m m := ⟨rfl, rfl, h⟩
theorem curGoesOn_trans {a b c : Mach} (h : CurGoesOn a b) (k : CurGoesOn b c) : CurGoesOn a c :=
  ⟨k.1.trans h.1, k.2.1.trans h.2.1, k.2.2⟩

theorem foldl_curGoesOn {α : Type} {f : Mach → α → Mach} (h : ∀ m a, CurAlone m → CurGoesOn m (f m a)) (l : List α) {m : Mach} (hm : CurAlone m) :
    CurGoesOn m (l.foldl f m) := by
  induction l generalizing m with
  | nil => exact curGoesOn_refl hm
  | cons a t ih =>
    have ha := h m a hm
    exact curGoesOn_trans ha (ih ha.2.2)

theorem smFind_map {α β : Type} (f : α → β) (l : List (Nat × α)) (x : Nat) : smFind (l.map (fun e => (e.1, f e.2))) x = (smFind l x).map f := by
  induction l with
  | nil => rfl
  | cons e t ih =>
    simp only [List.map_cons, smFind, ih]
    split <;> rfl

section
variable {f : Crew → Crew} (ht : ∀ c, (f c).tid = c.tid) (hl : ∀ c, (f c).live = c.live)
include ht hl

/-- A change of every crew that keeps numbers and live lanes. -/
theorem mapCrews_curGoesOn {m : Mach} (hm : CurAlone m) : CurGoesOn m (m.mapCrews f) := by
  refine ⟨ht _, hl _, fun t c hc => ?_⟩
  obtain ⟨k, hk, rfl⟩ := Option.map_eq_some_iff.mp ((smFind_map f m.others t).symm.trans hc)
  show (f k).tid ≠ (f m.cur).tid
  rw [ht, ht]
  exact hm t k hk

/-- A change of one crew that keeps numbers and live lanes: under any number but the current crew's, it is written back among the others. -/
theorem modCrew_curGoesOn (t : Nat) {m : Mach} (hm : CurAlone m) : CurGoesOn m (m.modCrew t f) := by
  by_cases h : t = m.cur.tid
  · subst h
    rw [modCrew_cur m f (ht _)]
    refine ⟨ht _, hl _, fun t c hc => ?_⟩
    show c.tid ≠ (f m.cur).tid
    rw [ht]
    exact hm t c hc
  · have hcrew : m.crew t = smFind m.others t := if_neg (Ne.symm h)
    cases hk : smFind m.others t with
    | none => rw [Mach.modCrew, hcrew, hk]; exact curGoesOn_refl hm
    | some k =>
      have hne : (f k).tid ≠ m.cur.tid := (ht k).symm ▸ hm t k hk
      have hm' : m.modCrew t f = { m with others := smPut m.others (f k).tid (f k) } := by
        rw [Mach.modCrew, hcrew, hk]; exact if_neg (Ne.symm hne)
      rw [hm']
      refine ⟨rfl, rfl, fun t' c hc => ?_⟩
      rw [smFind_smPut] at hc
      split at hc
      · cases hc; exact hne
      · exact hm t' c hc

end

theorem fireMonitors_curGoesOn (line : Nat) {m : Mach} (hm : CurAlone m) : CurGoesOn m (fireMonitors m line) := by
  unfold fireMonitors
  dsimp only
  split
  · have h := mapCrews_curGoesOn (m := m) (f := fun c =>
      if (c.monitor.armed && c.monitor.line == line) = true then { c with monitor := { c.monitor with fired := true } } else c)
      (fun c => by split <;> rfl) (fun c => by split <;> rfl) hm
    refine curGoesOn_trans h (foldl_curGoesOn (fun n c hn => ?_) _ h.2.2)
    split
    · exact modCrew_curGoesOn (fun c => by split <;> rfl) (fun c => by split <;> rfl) c.tid hn
    · exact curGoesOn_refl hn
  · exact curGoesOn_refl hm

theorem commitLine_curGoesOn (line : Nat) (bs : List (Nat × Byte)) {m : Mach} (hm : CurAlone m) : CurGoesOn m (commitLine m line bs) := by
  unfold commitLine
  exact fireMonitors_curGoesOn line (m := { m with mem := _, dirtyL2 := _, dies := _ }) hm

theorem commitLines_curGoesOn {m n : Mach} {ls : List SpecLine} (hm : CurAlone m) (h : commitLines m ls = .ok n) : CurGoesOn m n := by
  unfold commitLines at h
  split at h
  · cases h
  · dsimp only at h
    split at h
    · cases h
    · split at h
      · cases h
      · cases h
        exact foldl_curGoesOn (fun _ e hn => commitLine_curGoesOn e.1 e.2 hn) _ hm

theorem commit_curGoesOn {m n : Mach} (hm : CurAlone m) (h : commit m = .ok n) : CurGoesOn m n := by
  unfold commit at h
  split at h
  · cases h
  · next hk =>
    have hg := commitLines_curGoesOn hm hk
    cases h
    exact hg

/-- R312, the last lane: where the current crew's number is its own, the segment commits and the task ends. -/
theorem exec_exit_ends {s : State} {f : Fields} {pc : Word} {m : Mach} (h : Issues s 0x36 f pc) (ha : CurAlone s.m)
    (hl : s.m.cur.live &&& ~~~ (issueCtx s.m pc 0x36 f).e = 0) (hc : commit (exitLeft s.m pc f) = .ok m) :
    exec (.exit f) s = .next { s with m := park m m.cur.tid (.join .taskEnd) } := by
  have hx : CurAlone (exitLeft s.m pc f) := fun t c ht => (exitLeft_tid s.m pc f).symm ▸ ha t c ht
  obtain ⟨-, hlive, -⟩ := commit_curGoesOn hx hc
  rw [exec_exit_last h hl hc, taskEnds_ended (hlive.trans ((exitLeft_live ..).trans hl))]

end Sys2Proof.Laws
end

section
/-! A machine in which a second crew bears the current crew's number, and the commit of an `exit` makes that one current (R312, R359). -/

namespace Sys2Proof.Laws

open Sys2Proof.Machine

/-! ### The machine -/

/-- The placed crew, of number 1, with a child that has not ended. -/
def strayParent : Crew :=
  { placeCrew (w64 placeVa) with kids := [{ tid := 9, seg := 1, ended := false, views := [] }] }

/-- A crew of number 2, parked on a monitor that is armed on a line. -/
def strayWaiter (line : Nat) : Crew :=
  { placeCrew (w64 placeVa) with
    tid := 2, status := .parked .monitor 0, monitor := { armed := true, addr := 0, line := line, fired := false } }

/-- A data page at virtual 0x20000, physical 0x30000, whose first line the current crew, number 1, has stored to. Another crew of number 1 stands in the
place of number 2, and the one that bears number 2 in that of number 3. -/
def strayState : State :=
  let s := State.reset.withFetchWord 64 0
  { s with m := { s.m with
      mem := memWrite s.m.mem (placeTables + 4096 * 5 + 16 * vaIndex 0 0x20000) (toBytes 16 (mkLeaf 0 256 true true false false false 0x30000))
      cur := { s.m.cur with seg := [{ va := 0x20000 / 128, pa := 0x30000 / 128, bytes := [(0, 1)], pc := 0, treat := 256 }] }
      others := [(2, strayParent), (3, strayWaiter (0x30000 / 128))] } }

/-- `exit` without a guard. -/
def exitFields : Fields :=
  { wide := false, stall := 1, reuse := 0, guard := none, neg := false, ty := 0, d := .none, a := .none, b := .none, c := .none, lit := 0, sc := 0, ord := 0,
    aux := 0 }

theorem okUnit_of_isOk {r : R Unit} (h : r.isOk = true) : r = .ok () := by
  cases r with
  | ok u => rfl
  | error e => cases h

theorem strayState_issues : Issues strayState 0x36 exitFields (w64 placeVa) :=
  ⟨by decide +kernel, by decide +kernel, by decide +kernel, okUnit_of_isOk (by decide +kernel)⟩

/-! ### What the commit leaves current -/

/-- The commit succeeds and leaves a live crew, for which the wait of a task's end would begin. -/
def commitStrays (m : Mach) : Bool :=
  match commit m with
  | .ok m => decide (m.cur.live ≠ 0) && decide ((park m m.cur.tid (.join .taskEnd)).cur.status ≠ m.cur.status)
  | .error _ => false

theorem commitStrays_ok {m : Mach} (h : commitStrays m = true) :
    ∃ n, commit m = .ok n ∧ n.cur.live ≠ 0 ∧ (park n n.cur.tid (.join .taskEnd)).cur.status ≠ n.cur.status := by
  unfold commitStrays at h
  split at h
  · next n hn =>
    simp only [Bool.and_eq_true, decide_eq_true_eq] at h
    exact ⟨n, hn, h⟩
  · cases h

theorem strayState_strays : commitStrays (exitLeft strayState.m (w64 placeVa) exitFields) = true := by decide +kernel

/-- Refutes O16: nothing in the statement keeps a second crew from bearing the current one's number. The commit of the last lane's `exit` fires a monitor
there, the crew found under the number of the one to wake takes the place of the current one, and its live lanes keep the task from ending. Where the number is the current crew's own,
`exec_exit_ends` proves the clause that fails here. -/
theorem not_exitSyncYieldResults : ¬ Obligations.ExitSyncYieldResults := by
  unfold Obligations.ExitSyncYieldResults
  intro h
  obtain ⟨-, hends, -⟩ := (h strayState exitFields (w64 placeVa)).1 strayState_issues
  have hl : strayState.m.cur.live &&& ~~~ (issueCtx strayState.m (w64 placeVa) 0x36 exitFields).e = 0 := by decide +kernel
  obtain ⟨m, hm, hlive, hpark⟩ := commitStrays_ok strayState_strays
  have he := (exec_exit_last strayState_issues hl hm).symm.trans (hends hl m hm)
  rw [taskEnds_live hlive] at he
  injection he with he
  exact hpark (congrArg (fun t : State => t.m.cur.status) he).symm

end Sys2Proof.Laws
end
